-- ==== Sys2Proof/Word.lean ====
section
/-! DEFINITION. The word types of the device: the spec's registers and structures are bit vectors of these widths (R1: bit 0
is the least significant bit, and every multi-byte structure is little-endian). -/

namespace Sys2Proof

/-- One byte of memory or of a structure in memory. -/
abbrev Byte := BitVec 8
/-- A 32-bit immediate word, run counter or sequence number (R81, R94, R103). -/
abbrev W32 := BitVec 32
/-- A 64-bit ring register, queue slot or address (R83, R346). -/
abbrev W64 := BitVec 64
/-- One command descriptor or program header of 128 bytes (R76, R81, R95). -/
abbrev Desc := BitVec 1024

end Sys2Proof
end

