-- ==== Sys2Proof/Syntax.lean ====
section
/-! DEFINITION. The commands of the block: one constructor of `Instr` per row of spec/opcode_table.json, with the row's
operands.  Places are numbered as R4 numbers them; a partition operand `p` of type `PartN` means partition p + 1. -/

namespace Sys2Proof

/-- A crown die Cc (R4). -/
abbrev DieC := Fin 48
/-- A die number of R180: Cn for 0–47, P(n − 48) for 48–63. -/
abbrev DieN := Fin 64
/-- A tile of a crown die. -/
abbrev TileN := Fin 8
/-- A stack. -/
abbrev StackN := Fin 32
/-- A partition, less 1: `p` means partition p + 1 (R4). -/
abbrev PartN := Fin 16
/-- A group: of lanes, of replicas or of a collective. -/
abbrev GroupN := Fin 16
/-- A lane of a lane group. -/
abbrev LaneN := Fin 64
/-- A host port Hn. -/
abbrev PortN := Fin 4
/-- A region of a brim (R276). -/
abbrev RegionN := Fin 12

/-- A function of a host port: `vf` 0 is PF 0, 1–16 a virtual function (R344). -/
structure Fn where
  port : Fin 4
  vf : Fin 17
  deriving DecidableEq, Repr

/-- An MCTP binding (R403). -/
inductive Binding where
  | smbus | i3c
  | vdm (port : Fin 4)
  deriving DecidableEq, Repr

/-- Where an SPDM requester speaks: the DOE mailbox of a port, or MCTP (R257). -/
inductive Mailbox where
  | doe (port : Fin 4)
  | mctp
  deriving DecidableEq, Repr

/-- The transport of a dictionary access, after the transport's own checks (R398). -/
inductive Transport where
  | udp (counter : Nat)
  | mctp (b : Binding)
  | session (id : Nat)
  | window (f : Fn) (irq : Bool)
  | uart
  deriving DecidableEq, Repr

/-- How a host completion ends (R347, R350). -/
inductive Cpl where
  | ok | ur | ca | poisoned | timeout
  deriving DecidableEq, Repr

/-- A command of a run: partition, run identifier, index of its descriptor (R4, R76). -/
structure CmdRef where
  p : PartN
  run : Nat
  cmd : Nat
  deriving DecidableEq, Repr

/-- An arbitration point (R144): the injection port of a die onto its row or its column band, the request queue of an HBM
channel, or the host-port engine of a function. -/
inductive Point where
  | inject (die : Fin 64) (row : Bool)
  | channel (stack : Fin 32) (ch : Fin 32)
  | host (f : Fn)
  deriving DecidableEq, Repr

/-- What a code finds in a stored word (R209–R211, R219, R320): correct, an error it corrects, or an uncorrectable error; a
poisoned word is known from the state. -/
inductive WordCond where
  | good | correctable | uncorrectable
  deriving DecidableEq, Repr

/-- The errors in an HBM word as it is read (R209): how many of its 36 symbols of 16 bits (32 of the stored bytes, 4 of check bits)
are in error, and whether the read was mis-addressed, so that the check bits are those of another place. -/
structure WordErr where
  symbols : Fin 37
  misplaced : Bool
  deriving DecidableEq, Repr

/-- A regulated rail (R422): the VDD_C of a crown die, one of the rails of a port die (0 VDD_P, 1 VDD_LANE, 2 VDD_MC, 3 VDD_MQ,
4 VPP_M, 5–8 VDD_UIO of banks 0–3), or VDD_AUX. -/
inductive Rail where
  | core (die : Fin 48)
  | port (p : Fin 16) (rail : Fin 9)
  | aux
  deriving DecidableEq, Repr

/-- The mean demand of a partition that the partner's milliner reports (R369): demand, floor, dies, rank, and whether its
budget is fixed. -/
structure Demand where
  demand : Nat
  floor : Nat
  dies : Nat
  rank : Fin 4
  fixed : Bool
  deriving DecidableEq, Repr

/-- The commands of the block, one for each row of the opcode table. -/
inductive Instr where
  /-- REFUSAL_ANSWER (R5). Twenty microseconds after a refused access, request, unload or issued command, the device sends the REFUSED answer or completes the command and releases its dependants. -/
  | refusalAnswer
  /-- DICT_WRITE (R399). A write to a dictionary entry that has no row of its own is checked for rights, length and range, and is then applied atomically or refused. -/
  | dictWrite (via : Transport) (entry : BitVec 24) (value : List Byte)
  /-- SQ_TAIL (R347). The host writes the submission-ring doorbell, which makes new entries available for fetching. -/
  | sqTail (f : Fn) (v : W64)
  /-- CQ_HEAD (R348). The host writes the completion-ring doorbell, which frees slots so that held records can be written. -/
  | cqHead (f : Fn) (v : W64)
  /-- LATE_Q_HEAD (R199). The host writes the late-error queue doorbell, which frees late-error slots. -/
  | lateQHead (f : Fn) (v : W64)
  /-- RING_ENABLE (R346). A write of 1 to ENABLE checks the ring configuration, then resets the heads, tails and phase and starts fetching, or sets CONFIG_ERROR. -/
  | ringEnable (f : Fn)
  /-- RING_DISABLE (R346). A write of 0 to ENABLE stops fetching and record writing, discards the records produced afterwards and sets RECORDS_LOST. -/
  | ringDisable (f : Fn)
  /-- SUBMISSION_FETCH (R347). While READY is set and entries are pending, the device fetches the next submission-ring entry and classifies it as a load, unload or run request. -/
  | submissionFetch (f : Fn) (entry : Desc)
  /-- FETCH_ERROR (R347). A submission fetch that completes with UR, CA or a poisoned TLP sets SQ_ERROR, loses the entry and stops fetching. -/
  | fetchError (f : Fn) (c : Cpl)
  /-- RUN_REQUEST (R106). A fetched run request is checked with its bindings, then either starts a run with its counters and seed or is refused with a DETAIL code. -/
  | runRequest (p : PartN) (bindings : List Byte)
  /-- LOAD (R113). A load request copies and verifies a program image and produces a load result and a completion record. -/
  | load (p : PartN) (c : Cpl) (image : List Byte)
  /-- UNLOAD (R116). An unload request is taken at once and waits for the earlier runs of its program to end, or is refused when the handle names no program. -/
  | unload (p : PartN)
  /-- UNLOAD_COMPLETE (R116). When the last earlier run of the program ends, the program is removed, its keep-resident copies are released, and the result and record are written. -/
  | unloadComplete (p : PartN)
  /-- COMMAND_ISSUE (R101). When a command's dependencies are released, the sequencer evaluates its predicate, the blocker divides it into parts, and its micro-operations are broadcast to the die sequencers. -/
  | commandIssue (c : CmdRef) (logs : List (Fin 128 × Fin 17))
  /-- SKIP_MARKER_POP (R98). A command that pops a skip marker from a used input is skipped whatever its predicate. -/
  | skipMarkerPop (c : CmdRef)
  /-- NOP (R86). The NOP command completes as soon as its dependencies are released. -/
  | nop (c : CmdRef)
  /-- CTR_SET (R94). CTR_SET sets a run counter to IMM0 when the command completes. -/
  | ctrSet (c : CmdRef)
  /-- CTR_ADD (R94). CTR_ADD adds IMM0 to a run counter, modulo 2^32, when the command completes. -/
  | ctrAdd (c : CmdRef)
  /-- CTR_LOAD (R102). CTR_LOAD sets a counter from a popped INT32 element, which one die's engine reads. -/
  | ctrLoad (c : CmdRef) (stalls : List (DieC × Fin 9 × W32))
  /-- NOTIFY (R86). NOTIFY always writes a completion record. -/
  | notify (c : CmdRef)
  /-- MOVE (R86). MOVE copies an item bit-exactly, transposed when its input requests it. -/
  | move (c : CmdRef) (stalls : List (DieC × Fin 9 × W32))
  /-- SLICE (R86). SLICE outputs the sub-array of its input at the row and column offsets given. -/
  | slice (c : CmdRef) (stalls : List (DieC × Fin 9 × W32))
  /-- CONCAT (R86). CONCAT joins two items below or beside each other. -/
  | concat (c : CmdRef) (stalls : List (DieC × Fin 9 × W32))
  /-- GATHER (R86). GATHER outputs the table rows that an index vector names. -/
  | gather (c : CmdRef) (stalls : List (DieC × Fin 9 × W32))
  /-- SCATTER (R86). SCATTER replaces the indexed rows of a base item. -/
  | scatter (c : CmdRef) (stalls : List (DieC × Fin 9 × W32))
  /-- TEE (R86). TEE pushes an identical copy of its item to 2–4 outputs. -/
  | tee (c : CmdRef) (stalls : List (DieC × Fin 9 × W32))
  /-- FILL (R86). FILL writes one encoding into every element of its output. -/
  | fill (c : CmdRef) (stalls : List (DieC × Fin 9 × W32))
  /-- MATMUL (R87). MATMUL computes a matrix product, in normal, BF16-pieces or INT8-slice mode, on the tiles. -/
  | matmul (c : CmdRef)
  /-- MATMUL_BATCHED (R87). MATMUL_BATCHED computes b independent products, which may be packed. -/
  | matmulBatched (c : CmdRef)
  /-- VEC_CHAIN (R88). VEC_CHAIN applies a chain of lane operations to each element. -/
  | vecChain (c : CmdRef)
  /-- ROW_OP (R68). ROW_OP performs a row sum, max, min, softmax, layer norm or RMS norm over one column group. -/
  | rowOp (c : CmdRef)
  /-- COL_REDUCE (R89). COL_REDUCE reduces the rows of its input in tree order. -/
  | colReduce (c : CmdRef)
  /-- LACC_SUM (R71). LACC_SUM sums the named number of items exactly in the long accumulators. -/
  | laccSum (c : CmdRef)
  /-- ALL_REDUCE (R90). ALL_REDUCE combines the members' contributions in ascending member order. -/
  | allReduce (c : CmdRef) (remote : List (Fin 16 × List Byte)) (lost odd : List (Fin 16)) (stalls : List (DieC × Fin 9 × W32))
  /-- ALL_GATHER (R86). ALL_GATHER concatenates every member's rows. -/
  | allGather (c : CmdRef) (remote : List (Fin 16 × List Byte)) (lost odd : List (Fin 16)) (stalls : List (DieC × Fin 9 × W32))
  /-- REDUCE_SCATTER (R90). REDUCE_SCATTER reduces the contributions and gives each member its share of the rows. -/
  | reduceScatter (c : CmdRef) (remote : List (Fin 16 × List Byte)) (lost odd : List (Fin 16)) (stalls : List (DieC × Fin 9 × W32))
  /-- BROADCAST (R86). BROADCAST delivers the root member's item to every member. -/
  | broadcast (c : CmdRef) (remote : List (Fin 16 × List Byte)) (lost odd : List (Fin 16)) (stalls : List (DieC × Fin 9 × W32))
  /-- BRIM_STAGE (R91). BRIM_STAGE attaches its slots to a fabric port whose declared signature matches. -/
  | brimStage (c : CmdRef) (ce : W32) (ue : List (Fin 128 × W32)) (stalls : List (DieC × Fin 9 × W32))
  /-- FUSED (R100). A FUSED command runs 1–8 stages per die, joined by links. -/
  | fused (c : CmdRef) (ce : W32) (ue : List (Fin 128 × W32)) (stalls : List (DieC × Fin 9 × W32))
  /-- COMMAND_COMPLETE (R92). When every settle count of the command has returned, it completes: its status is chosen, its record is written and its token is released. -/
  | commandComplete (c : CmdRef)
  /-- RUN_COMPLETE (R109). When its last command completes, the run ends and its run record is written. -/
  | runComplete (p : PartN) (run : Nat)
  /-- RUN_TIME_LIMIT (R107). When a run's time limit passes, its uncommitted parts complete with TIMEOUT. -/
  | runTimeLimit (p : PartN) (run : Nat)
  /-- WAIT_FOR_SAMPLE (R151). Every 1 µs the wait-for detector samples the graph of commands and counts how long each cycle persists. -/
  | waitForSample (p : PartN)
  /-- BLOCK_START (R157). At a block boundary the die sequencer chooses a ready batt and begins streaming its next block on the tile. -/
  | blockStart (die : DieC) (tile : TileN) (late held : W32) (starved : List (Fin 128 × W32))
  /-- HALF_RELEASE (R73). When all 128 lanes have finished a column-accumulator half, the half is released and a stopped array can continue. -/
  | halfRelease (die : DieC) (tile : TileN)
  /-- TRANSFER_ISSUE (R135). A stream engine issues a read transfer once a granule is reserved and the outstanding limit allows it. -/
  | transferIssue (c : CmdRef) (fin : Fin 256) (die : DieC) (popped back : W32)
  /-- OUTPUT_WRITE_ISSUE (R137). A write transfer is issued when a producer's granule is full or its item ends. -/
  | outputWriteIssue (c : CmdRef) (fin : Fin 128) (die : DieC)
  /-- RATE_WINDOW (R145). At the end of each 1,024 ns window a stream buffer updates its drain-rate estimate. -/
  | rateWindow (c : CmdRef) (fin : Fin 256) (die : DieC) (popped back : W32) (late : List (Fin 10 × W32))
  /-- ARBITRATION_GRANT (R146). An arbitration point grants a waiting transfer in deadline or fixed-split order. -/
  | arbitrationGrant (point : Point) (down : Bool) (ply : Fin 12) (ecc : List (DieN × W32))
  /-- RESIDENCY_PERIOD (R162). At the end of a residency period the blocker decays the read counts and applies the replicate, move, hold and eviction rules. -/
  | residencyPeriod (p : PartN)
  /-- REBALANCE_PERIOD (R168). At the end of a rebalancing period the blocker updates the die weights and may move HBM buffers. -/
  | rebalancePeriod (p : PartN) (heavy : List (DieC × W64 × W64)) (memory : List (Nat × Fin 1024 × W64 × W64))
  /-- MIGRATION_READBACK_DONE (R164). When a migration's copy and read-back end, the digests are compared, and the migration either commits or is cancelled. -/
  | migrationReadbackDone (p : PartN) (poisoned differ : Bool)
  /-- HEAVY_NOTICE (R173). HEAVY_LEAD µs before a command's predicted issue, or at its issue, the blocker tells the power manager that heavy work is coming. -/
  | heavyNotice (c : CmdRef)
  /-- READ (R188). A READ packet requests units at an address, and the destination answers with READ_DATA. -/
  | read (header : Desc) (room : Bool)
  /-- WRITE (R195). A WRITE packet writes its data units at the destination, which answers with SETTLE. -/
  | write (header : Desc) (data : List Byte) (room bad : Bool)
  /-- WRITE_INLINE (R188). A WRITE_INLINE packet writes the enabled inline bytes. -/
  | writeInline (header : Desc) (room : Bool)
  /-- WRITE_FF (R197). A fire-forward pair-link write is settled locally once the pair-link engine accepts it. -/
  | writeFf (header : Desc) (data : List Byte) (room bad : Bool)
  /-- MESSAGE (R188). A MESSAGE packet carries micro-operations, collective contributions or milliner traffic. -/
  | message (header : Desc) (data : List Byte) (room bad : Bool)
  /-- MCAST (R189). An MCAST packet is delivered to each crown die in its mask. -/
  | mcast (header : Desc) (data : List Byte) (full : List DieC)
  /-- READ_DATA (R188). A READ_DATA response delivers read units and a STATUS to the requester. -/
  | readData (die : DieN) (eng : Fin 16) (tag : BitVec 16) (lost : List (Fin 32))
  /-- SETTLE (R195). A SETTLE response counts a posted write as settled with its STATUS. -/
  | settle (die : DieN) (eng : Fin 16) (tag : BitVec 16)
  /-- HEADER_DISCARD (R188). A header with a reserved CMD is discarded with its units, and HEADERS_DROPPED is incremented. -/
  | headerDiscard (switch : DieN) (header : Desc) (ecc : Bool)
  /-- STARVE_REQUEST (R184). A best-effort injection that has waited 512 band cycles makes its switch send a starvation request. -/
  | starveRequest (switch : DieN) (row : Bool) (ply : Fin 12) (down : Bool)
  /-- STARVE_RECEIVED (R184). A switch that receives a starvation request holds best-effort injection on that ply for 128 band cycles. -/
  | starveReceived (switch : DieN) (row : Bool) (ply : Fin 12) (down : Bool)
  /-- XACT_TIMEOUT (R196). A transaction without a response after XACT_TIMEOUT ends at its source with WRITE_ERROR or poisoned units. -/
  | xactTimeout (die : DieN) (eng : Fin 16) (tag : BitVec 16)
  /-- RESV_WRITE (R190). The operator writes a slot reservation, which the device places or refuses. -/
  | resvWrite (via : Transport) (p : PartN) (entry : Fin 16) (v : W32)
  /-- RESERVATION_EFFECT (R190). At the next frame boundary a written reservation takes effect on every link of its band. -/
  | reservationEffect
  /-- DIE_LEAVES_SERVICE (R200). When a die leaves service, the milliner updates the live map of every switch. -/
  | dieLeavesService (die : DieN)
  /-- TURNAROUND_CLOSE (R200). The switches next to a dead die close turnarounds, and each ring becomes a line. -/
  | turnaroundClose (die : DieN)
  /-- HBM_ACCESS (R210). A channel serves an access to a word, correcting, poisoning or merging it as the stored word requires. -/
  | hbmAccess (stack : StackN) (ch : Fin 32) (err : WordErr)
  /-- ORDINARY_REFRESH (R213). At each refresh interval a bank receives a per-bank refresh. -/
  | ordinaryRefresh (stack : StackN) (rank : Fin 128) (pseudo : Fin 2) (bank : Fin 16)
  /-- STACK_TEMP_READ (R213). Every 1 ms the stack temperature is read and the refresh interval is set from it. -/
  | stackTempRead (stack : StackN) (celsius : BitVec 8)
  /-- PATROL_ACCESS (R212). The patrol scrubber reads its next word and treats it as a read would. -/
  | patrolAccess (stack : StackN) (err : WordErr)
  /-- CMD_PARITY_ERROR (R215). A command and address parity error is retried, and a failed retry retires the rank. -/
  | cmdParityError (stack : StackN) (ch : Fin 32) (retryFails : Bool)
  /-- RANK_MIGRATION_BLOCK (R216). A 4 KiB block of a retired rank is copied and committed to its spare, and the last block validates the remap. -/
  | rankMigrationBlock (stack : StackN) (bad : List (Fin 64 × WordErr)) (spareFails : Bool)
  /-- REMAP_FLASH_COMMIT (R216). The remap entry is written to flash within 10 ms of the last block's commit. -/
  | remapFlashCommit (stack : StackN)
  /-- SRAM_SCRUB (R220). The SRAM scrubber reads and repairs its next tile-store or die-store word. -/
  | sramScrub (die : DieC) (store : Fin 9) (wrong : Fin 74) (copy : Option Nat) (buf : Option (CmdRef × Nat × Nat))
  /-- DUPLICATE_COMPARE (R231). When both digests of a sampled unit exist, they are compared, and a mismatch reports DUPLICATE_MISMATCH and quarantines both tiles. -/
  | duplicateCompare (c : CmdRef) (unit : Nat) (differ : Bool) (waited : List (Nat × DieC × W32))
  /-- TILE_TEST_END (R234). When the 3 ms tile test ends, the tile returns to service or is retired. -/
  | tileTestEnd (die : DieC) (tile : TileN) (pass : Bool)
  /-- TILE_STATE (R252). The operator writes 0 to a retired tile's TILE_STATE, and the tile test runs again. -/
  | tileState (via : Transport) (die : DieC) (tile : TileN)
  /-- COLLECTIVE_TIME_LIMIT (R90). A member that does not contribute within the group's limit leaves the waiting members with TIMEOUT. -/
  | collectiveTimeLimit (c : CmdRef)
  /-- REPLAY_COMMIT (R238). When both executions of a replay-guarded command end, the digests are compared and the staged items are copied or discarded. -/
  | replayCommit (c : CmdRef) (fails : List (DieC × Byte)) (differ copyFails : Bool)
  /-- REPLICA_SAMPLE (R242). Every PERIOD_MS each replica member's region is digested, and the members are compared for drift. -/
  | replicaSample (g : GroupN) (remote : List (Fin 16 × W64)) (missed : Bool)
  /-- MIRROR_DIGESTS (R244). The partner's output digests arrive over the pair link and are compared with the local ones. -/
  | mirrorDigests (c : CmdRef) (digests : List W64)
  /-- MIRROR_WAIT (R244). When the partner's digests are absent after MIRROR_WAIT, the command completes with LANE_DOWN or TIMEOUT. -/
  | mirrorWait (c : CmdRef)
  /-- PARTITION_CREATE (R255). A write of 1 to COMMAND checks the definition, then draws keys and begins initialising the ranks, or is refused. -/
  | partitionCreate (via : Transport) (p : PartN)
  /-- PARTITION_CREATE_DONE (R256). When the last rank is initialised, STATE becomes 2. -/
  | partitionCreateDone (p : PartN)
  /-- TEARDOWN (R267). A write of 2 to COMMAND starts teardown and ends the key epoch. -/
  | teardown (via : Transport) (p : PartN)
  /-- EPOCH_END_COMPLETE (R270). When the old-epoch counts reach zero, the keys are zeroised and the SRAM and brims are cleared. -/
  | epochEndComplete (p : PartN)
  /-- EPOCH_END_FORCED (R269). Fifty microseconds after an epoch ends, the remaining old-epoch transactions are discarded. -/
  | epochEndForced (p : PartN)
  /-- TEARDOWN_SCRUB_DONE (R270). When the teardown rank scrub finishes, STATE becomes 0 and the resources are freed. -/
  | teardownScrubDone (p : PartN)
  /-- REKEY_DONE (R267). When the re-keyed ranks are initialised, STATE returns from 4 to 2. -/
  | rekeyDone (p : PartN)
  /-- GET_VERSION (R257). The SPDM responder answers GET_VERSION. -/
  | getVersion (box : Mailbox)
  /-- GET_CAPABILITIES (R257). The SPDM responder answers GET_CAPABILITIES. -/
  | getCapabilities (box : Mailbox)
  /-- NEGOTIATE_ALGORITHMS (R257). The SPDM responder answers NEGOTIATE_ALGORITHMS. -/
  | negotiateAlgorithms (box : Mailbox)
  /-- GET_DIGESTS (R257). The SPDM responder answers GET_DIGESTS. -/
  | getDigests (box : Mailbox)
  /-- GET_CERTIFICATE (R257). The SPDM responder returns the slot-0 certificate chain. -/
  | getCertificate (box : Mailbox) (slot : Fin 8) (off len : BitVec 16)
  /-- CHALLENGE (R257). The SPDM responder answers CHALLENGE with a signature by its identity key. -/
  | challenge (box : Mailbox) (slot : Fin 8) (nonce : BitVec 256)
  /-- GET_MEASUREMENTS (R262). The SPDM responder returns the signed measurement blocks of the attestation report. -/
  | getMeasurements (box : Mailbox) (session : Option Nat) (index : Byte) (nonce : BitVec 256)
  /-- KEY_EXCHANGE (R257). The SPDM responder performs an ECDHE key exchange to open a secured session. -/
  | keyExchange (box : Mailbox) (pub : List Byte)
  /-- FINISH (R257). The SPDM responder completes the establishment of a session. -/
  | finish (id : Nat) (verify : List Byte)
  /-- KEY_UPDATE (R257). The SPDM responder updates a session's keys. -/
  | keyUpdate (id : Nat)
  /-- HEARTBEAT (R257). The SPDM responder answers a session heartbeat. -/
  | heartbeat (id : Nat)
  /-- END_SESSION (R261). A secured session ends, and a TDI that it locked moves to ERROR. -/
  | endSession (id : Nat)
  /-- KEY_PROG (R258). IDE_KM programs an IDE stream key set. -/
  | keyProg (id : Nat) (f : Fn) (stream : Byte) (set : Fin 2) (key : BitVec 256)
  /-- K_SET_GO (R258). IDE_KM starts the use of a key set. -/
  | kSetGo (id : Nat) (f : Fn) (set : Fin 2)
  /-- K_SET_STOP (R258). IDE_KM stops the use of a key set. -/
  | kSetStop (id : Nat) (f : Fn) (set : Fin 2)
  /-- QUERY (R258). IDE_KM queries the port's IDE state. -/
  | query (id : Nat) (f : Fn)
  /-- LOCK_INTERFACE_REQUEST (R259). The TDI moves to CONFIG_LOCKED while STATE is 2, and the partition's entries are locked. -/
  | lockInterfaceRequest (id : Nat) (f : Fn)
  /-- GET_DEVICE_INTERFACE_REPORT (R259). The device returns the BAR ranges and the layout measurement block. -/
  | getDeviceInterfaceReport (id : Nat) (f : Fn)
  /-- START_INTERFACE_REQUEST (R259). The TDI moves to RUN. -/
  | startInterfaceRequest (id : Nat) (f : Fn)
  /-- STOP_INTERFACE_REQUEST (R259). The TDI returns to CONFIG_UNLOCKED, ending the epoch unless it was in ERROR. -/
  | stopInterfaceRequest (id : Nat) (f : Fn)
  /-- IDE_FAILURE (R258). An unprotected or failing IDE transaction is discarded, and the TDI moves to ERROR. -/
  | ideFailure (f : Fn)
  /-- NOP_DSP (R285). The DSP instruction NOP does nothing for a cycle. -/
  | nopDsp (die : DieC) (cell : Fin 1536)
  /-- MUL (R285). The DSP instruction MUL sets acc to A × B. -/
  | mul (die : DieC) (cell : Fin 1536) (a b : BitVec 16)
  /-- MAC (R285). The DSP instruction MAC adds A × B to acc. -/
  | mac (die : DieC) (cell : Fin 1536) (a b : BitVec 16)
  /-- MSUB (R285). The DSP instruction MSUB subtracts A × B from acc. -/
  | msub (die : DieC) (cell : Fin 1536) (a b : BitVec 16)
  /-- LOADC (R285). The DSP instruction LOADC loads C into acc. -/
  | loadc (die : DieC) (cell : Fin 1536) (c : Option (BitVec 40))
  /-- ADDC (R285). The DSP instruction ADDC adds C to acc. -/
  | addc (die : DieC) (cell : Fin 1536) (c : Option (BitVec 40))
  /-- SHR (R285). The DSP instruction SHR shifts acc right arithmetically, with optional rounding. -/
  | shr (die : DieC) (cell : Fin 1536)
  /-- CLR (R285). The DSP instruction CLR clears acc. -/
  | clr (die : DieC) (cell : Fin 1536)
  /-- REPEAT (R286). The DSP instruction REPEAT executes the next entry IMM+1 times, and the repetition cannot be held. -/
  | dspRepeat (die : DieC) (cell : Fin 1536)
  /-- END (R285). The DSP instruction END loops to entry 0 or stops with DONE high. -/
  | dspEnd (die : DieC) (cell : Fin 1536)
  /-- DSP_START (R283). START starts or restarts a DSP cell's sequence at entry 0. -/
  | dspStart (die : DieC) (cell : Fin 1536)
  /-- DSP_RST (R283). RST returns a DSP cell to idle with its accumulator and OVF cleared. -/
  | dspRst (die : DieC) (cell : Fin 1536)
  /-- PORT_ATTACH (R291). A BRIM_STAGE part attaches to a free port, and ACTIVE rises. -/
  | portAttach (c : CmdRef) (stage : Fin 8)
  /-- FABRIC_END (R292). A fabric push of END closes an output item early, and the part reports WRITE_ERROR. -/
  | fabricEnd (c : CmdRef) (fin : Fin 128) (data : List Byte)
  /-- ITEM_CLOSE (R292). An output item closes when its byte count reaches the item size. -/
  | itemClose (c : CmdRef) (fin : Fin 128) (data : List Byte)
  /-- PORT_DETACH (R293). A port whose part ends early raises ABORT, lowers ACTIVE, discards its inputs and closes its outputs. -/
  | portDetach (c : CmdRef) (stage : Fin 8)
  /-- BRIM_TIME_LIMIT (R91). A brim stage whose time limit passes completes with TIMEOUT. -/
  | brimTimeLimit (c : CmdRef) (stage : Fin 8)
  /-- TAP_WRITE (R298). The fabric writes a new delay-line tap value, which the delay approaches one tap per cycle. -/
  | tapWrite (port : Fin 16) (pin : Fin 96) (output : Bool) (tap : Fin 128) (elapsed : W32)
  /-- LOAD_COMMAND (R311). The owner writes 1 to LOAD_COMMAND to start a host-staged hood or trim load. -/
  | loadCommand (via : Transport) (die : DieC) (v : Byte)
  /-- CFG_IMAGE_START (R310). The fall of CFG_CS_N samples CFG_MODE and starts an image on the configuration slave port. -/
  | cfgImageStart (parallel : Bool)
  /-- TP_START (R312). TP_START begins an image on the trim port. -/
  | tpStart (die : DieC)
  /-- TP_ABORT (R312). TP_ABORT ends a trim-port load with LOAD_DETAIL 0x10. -/
  | tpAbort (die : DieC)
  /-- LOAD_START (R313). A queued image load starts on a die once the previous load has ended. -/
  | loadStart (die : DieC)
  /-- HEADER_CHECK (R307). Once the first 4,096 bytes arrive, the header checks are applied, and the load is rejected or the border sequence begins. -/
  | headerCheck (die : DieC) (bytes : List Byte)
  /-- GSR_ASSERT (R314). At t_s + 2 µs global set-reset is asserted in the covered regions, and frame writing begins. -/
  | gsrAssert (die : DieC)
  /-- FRAME_RECORD (R304). A frame record is checked for its CRC and order, then written. -/
  | frameRecord (die : DieC) (bytes : List Byte)
  /-- IMAGE_DIGEST_CHECK (R314). At t_f + 1 µs the image's SHA-384 is checked. -/
  | imageDigestCheck (die : DieC)
  /-- GSR_RELEASE (R314). At t_f + 51 µs global set-reset is released, the clocks ungate, the latches open and frozen attachments resume or detach. -/
  | gsrRelease (die : DieC)
  /-- POUNCE_FRAME_READ (R320). The pounce scrubber reads back its next frame and compares the CRC. -/
  | pounceFrameRead (die : DieC) (cond : WordCond)
  /-- POUNCE_CORRECT (R320). A single-bit frame error is corrected and the frame rewritten within 2 µs. -/
  | pounceCorrect (die : DieC)
  /-- LANE_USE (R326). A write of LANE_USE takes the group through DOWN into its new use. -/
  | laneUse (via : Transport) (g : GroupN) (v : Byte)
  /-- CLOCK_LOCK (R329). A lane's receiver clock recovery locks, and the lane moves from SEND to ALIGN. -/
  | clockLock (g : GroupN) (lane : LaneN)
  /-- COMMA_ALIGN (R329). Eight consecutive K28.5 are found, polarity is corrected and the lane enters EQ. -/
  | commaAlign (g : GroupN) (lane : LaneN) (inverted : Bool)
  /-- ALIGN_TIMEOUT (R329). After 100 µs without alignment the lane returns to SEND. -/
  | alignTimeout (g : GroupN) (lane : LaneN)
  /-- EQ_DONE (R329). After 200 µs in EQ the lane enters CHECK, or UP in use 2. -/
  | eqDone (g : GroupN) (lane : LaneN)
  /-- TS2 (R329). Sixteen consistent TS2 move a lane to UP, and a mismatch marks it MISWIRED or holds it in CHECK. -/
  | ts2 (g : GroupN) (lane : LaneN) (rlane rgroup role : Byte) (pair : BitVec 16)
  /-- TS1 (R328). A received TS1 training set is part of blind bring-up. -/
  | ts1 (g : GroupN) (lane : LaneN)
  /-- LANE_ERROR_LOSS (R329). A lane that loses lock or alignment, or has too many code errors, returns to SEND. -/
  | laneErrorLoss (g : GroupN) (lane : LaneN) (errors : W32)
  /-- SKIP_WORD (R325). Every 4,096 words each transmitter sends a skip word. -/
  | skipWord (g : GroupN)
  /-- GROUP_UP (R331). A pair-link group goes UP once all lanes are up, or after 100 µs with MIN_LANES up, and deskews. -/
  | groupUp (g : GroupN)
  /-- GROUP_DOWN (R336). A group not UP within RETRAIN_MS becomes DOWN and ends its outstanding transfers with LANE_DOWN. -/
  | groupDown (g : GroupN)
  /-- TRANSFER_FRAME (R333). A received transfer frame is checked and accepted in FSEQ order, or discarded with a NAK. -/
  | transferFrame (g : GroupN) (head : BitVec 256) (packet : Desc) (data : List Byte) (crcOk gcmOk : Bool)
  /-- CONTROL_FRAME (R333). A received control frame carries acknowledgements and lane changes. -/
  | controlFrame (g : GroupN) (head : BitVec 256) (lanes : Option W64)
  /-- ACK_DUE (R333). A receiver with nothing to send sends a control frame within 1 µs of accepting a transfer frame. -/
  | ackDue (g : GroupN)
  /-- NAK (R334). A NAK makes the transmitter resend its unacknowledged frames. -/
  | nak (g : GroupN) (head : BitVec 256)
  /-- ACK_TIMEOUT (R334). When ACK_SEQ has not advanced for ACK_TIMEOUT, the unacknowledged frames are replayed, and after REPLAY_LIMIT the group retrains. -/
  | ackTimeout (g : GroupN)
  /-- RESTRIPE (R335). After a lane leaves UP, the group pauses for at most 2 µs, restripes and replays. -/
  | restripe (g : GroupN)
  /-- RESYNC (R339). A RESYNC frame after a warm reset ends outstanding transactions and restarts FSEQ. -/
  | resync (g : GroupN)
  /-- INJECT (R337). A write of INJECT inverts one bit in the next word of each lane it sets. -/
  | inject (via : Transport) (g : GroupN) (v : W64)
  /-- WINDOW_READ (R352). A CMD write with operation 1 performs a dictionary read in the window's role. -/
  | windowRead (f : Fn) (irq : Bool) (entry : BitVec 24)
  /-- WINDOW_WRITE (R352). A CMD write with operation 2 performs a dictionary write in the window's role. -/
  | windowWrite (f : Fn) (irq : Bool) (entry : BitVec 24) (value : BitVec 512)
  /-- HOST_READ_COMPLETION (R350). A host read completion delivers data, or delivers the units poisoned on UR, CA or poison. -/
  | hostReadCompletion (f : Fn) (tag : BitVec 16) (c : Cpl) (data : List Byte)
  /-- FLUSH_READ_COMPLETION (R350). A zero-length flush read completes and settles its transfer's writes DONE or WRITE_ERROR. -/
  | flushReadCompletion (f : Fn) (record : Bool) (c : Cpl)
  /-- MSIX_UNMASK (R354). Unmasking a vector with its pending bit set sends its message. -/
  | msixUnmask (f : Fn) (vec : Fin 4)
  /-- FLR_VF (R355). A function-level reset of a virtual function resets its partition. -/
  | flrVf (f : Fn)
  /-- FLR_PF (R355). A function-level reset of PF 0, or clearing VF Enable, resets every partition on the port. -/
  | flrPf (port : PortN)
  /-- HOT_RESET (R355). A PCIe hot reset or link down resets the port's partitions and loses its IDE keys. -/
  | hotReset (port : PortN)
  /-- CURRENT_LIMIT_TICK (R365). Every 100 ns a die estimates its demand current and sets the bubble fraction for the next 100 ns. -/
  | currentLimitTick (die : DieC) (demand : BitVec 16) (energy : W32) (advanced : List (CmdRef × W32))
  /-- REGULATOR_READ (R364). Every 1 ms each rail's voltage and current are read, and the estimate is recalibrated. -/
  | regulatorRead (die : DieN) (mv da : BitVec 16) (energy : W32) (served : List (PartN × W32))
  /-- VOLTAGE_LOOP_TICK (R363). Every 10 µs the voltage loop moves its target from the timing monitors. -/
  | voltageLoopTick (die : DieC) (low high : Bool)
  /-- REGULATOR_SETTLED (R363). The regulator reports the raised voltage, and a waiting MCLK step up may proceed. -/
  | regulatorSettled (die : DieC)
  /-- MCLK_STEP (R359). At a band frame boundary the MCLK of a partition's dies moves one 25 MHz step. -/
  | mclkStep (p : PartN)
  /-- BUDGET_PERIOD_END (R367). At the end of each budget period the power manager sets each partition's allocation and MCLK. -/
  | budgetPeriodEnd (overhead : W32) (power : List (DieC × W32))
  /-- PAIR_BUDGET_EXCHANGE (R369). The milliners exchange demands, floors and ranks to split the pair budget. -/
  | pairBudgetExchange (ok : Bool) (theirs : List Demand) (theirOverhead : W32)
  /-- HEAVY_GUARD_END (R370). The heavy-phase voltage guard is removed after 64 µs of running, at completion, or on withdrawal. -/
  | heavyGuardEnd (c : CmdRef)
  /-- DOMAIN_ON (R362). A switched power domain finishes switching on within 20 µs. -/
  | domainOn (die : DieN) (domain : Fin 4)
  /-- VR_ALERT (R372). A falling VR_ALERT_N puts the fed dies or stacks into the floor state, and the partition follows within 2 µs. -/
  | vrAlert (rail : Rail)
  /-- ALERT_CLEAR (R372). After the alert has stayed high for 100 µs, the die may leave the floor state at the next period. -/
  | alertClear (rail : Rail)
  /-- SENSOR_READ (R373). Every 10 µs the junction sensors are read for TJ_MAX, throttling and the thermal trip. -/
  | sensorRead (die : DieN) (temp : BitVec 16)
  /-- TRIP_TIMEOUT (R374). A die still at trip temperature 10 ms later is switched off and leaves service. -/
  | tripTimeout (die : DieC)
  /-- THROTTLE_STEP (R373). Every 100 µs above THROTTLE_C, THROTTLE_MHZ falls by one step. -/
  | throttleStep (p : PartN)
  /-- COOLANT_READ (R375). Each millisecond the coolant thermistors are converted, and the thermal fallback is engaged or held. -/
  | coolantRead (inlet outlet : Option (BitVec 16))
  /-- FALLBACK_RELEASE (R375). After 10 s of valid readings within their limits, the thermal fallback is released. -/
  | fallbackRelease
  /-- POWER_ON (R381). Supplies rising through their thresholds reset the whole package. -/
  | powerOn
  /-- PORST_N (R381). PORST_N low begins a cold reset, and its rise starts the exit order. -/
  | porstN (level : Bool)
  /-- WRST_N (R381). WRST_N low begins a warm reset, and its rise releases a held exit. -/
  | wrstN (level : Bool)
  /-- WARM_RESET (R388). A write of 0x5752 begins a warm reset 100 µs after it is acknowledged. -/
  | warmReset (via : Transport) (v : BitVec 16)
  /-- WARM_RESET_START (R388). One hundred microseconds after the acknowledged write, the dictionary warm reset begins. -/
  | warmResetStart
  /-- RESET_STEP_DONE (R385). A step of the reset exit order ends, and the next step begins. -/
  | resetStepDone (bad : List (StackN × Fin 128))
  /-- WARM_RESET_HELD (R387). When WRST_N has been low for 2 s, LAST_CAUSE becomes 0x06 and an event is raised. -/
  | warmResetHeld
  /-- WATCHDOG_EXPIRY (R394). The milliner watchdog expires 50 ms after its last restart, and the active milliner is faulted. -/
  | watchdogExpiry
  /-- CORE_HALT (R394). A trap whose frame would leave the frame area halts the milliner core, which counts as an expiry. -/
  | coreHalt
  /-- ROOT_OF_TRUST_FATAL (R394). A fatal error of the root of trust faults the milliner. -/
  | rootOfTrustFatal
  /-- HEARTBEAT_LOSS (R394). The standby receives no mirror heartbeat for 50 ms, and the active milliner is faulted. -/
  | heartbeatLoss
  /-- HANDOVER (R396). A write of 0x4846 exchanges the milliner roles without a fault. -/
  | handover (via : Transport) (v : BitVec 16)
  /-- MILLINER_TAKEOVER (R395). The standby isolates the faulted milliner, applies its mirror and takes the active role. -/
  | millinerTakeover
  /-- MIRROR_RECORD (R393). The standby receives and acknowledges a numbered mirror record. -/
  | mirrorRecord
  /-- MIRROR_ACK (R393). The standby's acknowledgement releases the answers to mirrored accesses. -/
  | mirrorAck
  /-- MILLINER_REBOOT_DONE (R396). The faulted milliner finishes rebooting and copies the mirror as the standby. -/
  | millinerRebootDone
  /-- UDP_READ (R401). An authenticated UDP datagram with OP 1 reads an entry in the operator role. -/
  | udpRead (dgram : List Byte)
  /-- UDP_WRITE (R401). An authenticated UDP datagram with OP 2 writes an entry in the operator role. -/
  | udpWrite (dgram : List Byte)
  /-- MCTP_DICTIONARY_MESSAGE (R403). An MCTP message of type 0x7F performs a dictionary access. -/
  | mctpDictionaryMessage (b : Binding) (session : Option Nat) (msg : List Byte)
  /-- SET_ENDPOINT_ID (R403). MCTP Set Endpoint ID assigns the endpoint ID. -/
  | setEndpointId (b : Binding) (eid : Byte)
  /-- GET_ENDPOINT_ID (R403). MCTP Get Endpoint ID returns the endpoint ID. -/
  | getEndpointId (b : Binding)
  /-- GET_MCTP_VERSION_SUPPORT (R403). The device returns its MCTP version support. -/
  | getMctpVersionSupport (b : Binding)
  /-- GET_MESSAGE_TYPE_SUPPORT (R403). The device returns the message types it supports. -/
  | getMessageTypeSupport (b : Binding)
  /-- GET_VENDOR_DEFINED_MESSAGE_SUPPORT (R403). The device returns its vendor-defined message support. -/
  | getVendorDefinedMessageSupport (b : Binding) (selector : Byte)
  /-- UART_FRAME (R413). A COBS-framed datagram on the UART performs a dictionary access. -/
  | uartFrame (frame : List Byte)
  /-- OPERATOR_KEY (R404). The operator writes the HMAC key for UDP access. -/
  | operatorKey (via : Transport) (key : BitVec 256)
  /-- VENDOR_CHALLENGE (R404). A read of VENDOR_CHALLENGE returns a new challenge at each read. -/
  | vendorChallenge (via : Transport)
  /-- VENDOR_RESPONSE_HI (R404). A write of the signature's s value verifies the vendor signature and grants the vendor service role. -/
  | vendorResponseHi (via : Transport) (sig : BitVec 384)
  /-- DEBUG_UNLOCK (R404). The vendor role's write of 1 unlocks vendor debug at the next cold reset. -/
  | debugUnlock (via : Transport) (v : Bool)
  /-- PTP_SYNC (R406). A PTP Sync message is timestamped for time discipline. -/
  | ptpSync (domain : Byte) (twoStep : Bool) (seq : BitVec 16) (origin correction : W64)
  /-- PTP_FOLLOW_UP (R406). A PTP Follow_Up message supplies the origin time of a two-step Sync. -/
  | ptpFollowUp (domain : Byte) (seq : BitVec 16) (origin correction : W64)
  /-- PTP_DELAY_RESP (R406). A PTP Delay_Resp message completes an end-to-end delay measurement. -/
  | ptpDelayResp (domain : Byte) (seq : BitVec 16) (receive correction : W64)
  /-- PTP_PDELAY_RESP (R406). A PTP peer-delay response completes a peer delay measurement. -/
  | ptpPdelayResp (domain : Byte) (seq : BitVec 16) (receive transmit : W64)
  /-- PTP_ANNOUNCE (R406). A PTP Announce message sets the grandmaster and UTC_OFFSET. -/
  | ptpAnnounce (domain : Byte) (grandmaster : W64) (utc : BitVec 16)
  /-- PTP_MANAGEMENT (R406). A PTP management message is answered with NOT_SUPPORTED. -/
  | ptpManagement (domain : Byte) (seq : BitVec 16)
  /-- ANNOUNCE_TIMEOUT (R407). After three missed announce intervals the counter enters holdover. -/
  | announceTimeout
  /-- TIME_STEP (R407). The counter, when too far behind TAI, is stepped forward at a numbered frame. -/
  | timeStep
  /-- FW_ERASE (R409). FW_COMMAND 1 erases the inactive image slot. -/
  | fwErase (via : Transport)
  /-- FW_DATA (R409). A write of FW_DATA programs 64 bytes at FW_OFFSET and advances it. -/
  | fwData (via : Transport) (data : BitVec 512)
  /-- FW_VERIFY (R409). FW_COMMAND 2 verifies the slot's signature and security version. -/
  | fwVerify (via : Transport)
  /-- FW_ACTIVATE (R409). FW_COMMAND 3 activates the slot for trial at the next cold reset. -/
  | fwActivate (via : Transport)
  /-- FW_CONFIRM (R409). FW_COMMAND 4 confirms the running trial and raises the fuse counter. -/
  | fwConfirm (via : Transport)
  /-- FLASH_ERASE_DONE (R410). A sector erase finishes, and its erase-done record is written. -/
  | flashEraseDone (standby : Bool)
  /-- TRIAL_TIMEOUT (R409). A trial not confirmed within TRIAL_S reverts the active slot and raises an event. -/
  | trialTimeout
  /-- JOURNAL_COMMIT (R400). A write of a flash setting is committed to the settings journal of both flashes within 50 ms. -/
  | journalCommit
  /-- FLASH_SYNC (R411). After every boot the standby's flash is made equal to the active milliner's. -/
  | flashSync
  /-- REFCLK_CHECK (R412). Every 1 ms SYS_REFCLK is compared with the crystal, and a fault begins a held warm reset. -/
  | refclkCheck (missing : Bool) (ppm : BitVec 32)
  /-- REFCLK_RECOVERED (R412). After 100 ms within limits, the synthesisers return to SYS_REFCLK and the exit continues. -/
  | refclkRecovered
  /-- XFER_CTRL (R413). A write of XFER_CTRL starts an SPI or I2C transfer. -/
  | xferCtrl (via : Transport) (v : BitVec 16)
  /-- XFER_DONE (R413). An SPI or I2C transfer completes, with a no-acknowledge status where it applies. -/
  | xferDone (nack : Bool) (rx : BitVec 512)
  /-- QID (R142). A write of a queue monitor's QID clears its counters and sets the queue it watches. -/
  | qid (via : Transport) (mon : Fin 128) (v : BitVec 16)
  /-- LINK_UP (R343). A host port's PCIe link finishes training and comes up at its width, rate and Flit mode, which LINK_STATE reports. -/
  | linkUp (port : PortN) (width : Fin 4) (rate : Fin 6) (flit : Bool)
  /-- PCIE_PERST_N (R355). The PCIE_PERST_N input of a host port changes, resetting the port's link. -/
  | pciePerstN (port : PortN) (level : Bool)
  /-- RING_REGISTERS (R346). A write to SQ_BASE, SQ_SIZE, CQ_BASE, CQ_SIZE or PSA_BASE is stored while ENABLE is 0, and is otherwise ignored with BAD_WRITE set. -/
  | ringRegisters (f : Fn) (reg : Fin 5) (v : W64)
  /-- VF_ENABLE (R344). Setting VF Enable and NumVFs in the SR-IOV capability makes the virtual functions respond to memory requests. -/
  | vfEnable (port : PortN) (on : Bool) (num : Fin 17)
  /-- STANDBY_FAULT (R415). The standby milliner faults, STANDBY_STATE falls to 0, and accesses waiting for its acknowledgement are answered at once. -/
  | standbyFault
  /-- STANDBY_READY (R396). A rebooted milliner finishes copying the mirror, and STANDBY_STATE moves from 1 (synchronising) to 2 (ready). -/
  | standbyReady
  /-- CFG_CS_N_RISE (R310). CFG_CS_N rises, ending the image on the configuration slave port; before LENGTH bytes this fails the load with LOAD_DETAIL 0x10. -/
  | cfgCsNRise
  /-- DHCPV4_LEASE (R417). With IP_ADDR all zero and DHCP_ENABLE 1, the milliner takes or loses a DHCPv4 lease, which sets its management address. -/
  | dhcpv4Lease (lease : Option (W32 × Byte × W32))
  /-- HEARTBEAT_PERIOD_EXPIRY (R261). An SPDM secured session whose heartbeat period passes without traffic ends, and a TDI that it locked moves to ERROR. -/
  | heartbeatPeriodExpiry (id : Nat)
  deriving DecidableEq, Repr

end Sys2Proof
end

