-- ==== Sys2Proof/Machine/Bits.lean ====
section
/-! DEFINITION. Bit fields, byte order and lists: the helpers by which every structure of the spec is taken apart and put
together (R1 little-endian; a bit range [h:l] includes both bits). -/

namespace Sys2Proof.Machine

/-- Bits [h:l] of a number (R1). -/
def bits (x h l : Nat) : Nat := (x / 2 ^ l) % 2 ^ (h + 1 - l)

/-- Bit `i` of a number. -/
def bit (x i : Nat) : Bool := (x / 2 ^ i) % 2 = 1

/-- 1 for true. -/
def b2n (b : Bool) : Nat := if b then 1 else 0

/-- A value placed at bit `l`, cut to the width of [h:l]. -/
def field (v h l : Nat) : Nat := (v % 2 ^ (h + 1 - l)) * 2 ^ l

/-- Set or clear bit `i` of a number. -/
def setBit (x i : Nat) (b : Bool) : Nat := if bit x i = b then x else if b then x + 2 ^ i else x - 2 ^ i

/-- The number that bytes spell, first byte lowest (R1). -/
def leNat : List Byte → Nat
  | [] => 0
  | b :: bs => b.toNat + 256 * leNat bs

/-- `n` bytes of a number, lowest first (R1). -/
def leBytes : Nat → Nat → List Byte
  | 0, _ => []
  | n + 1, x => BitVec.ofNat 8 x :: leBytes n (x / 256)

/-- Bytes [off, off + n) of a string, zero beyond its end. -/
def slice (l : List Byte) (off n : Nat) : List Byte :=
  let c := (l.drop off).take n
  c ++ List.replicate (n - c.length) 0

/-- Replace bytes from `off` on, keeping the string's length. -/
def splice (l : List Byte) (off : Nat) (new : List Byte) : List Byte :=
  l.take off ++ (new.take (l.length - off)) ++ l.drop (off + new.length)

/-- ⌈a ÷ b⌉. -/
def cdiv (a b : Nat) : Nat := if b = 0 then 0 else (a + b - 1) / b

/-- The two's-complement value of the low `n` bits. -/
def signed (n x : Nat) : Int :=
  let y := x % 2 ^ n
  if y < 2 ^ (n - 1) then (y : Int) else (y : Int) - (2 ^ n : Nat)

/-- The low `n` bits of an integer, as two's complement. -/
def unsigned (n : Nat) (x : Int) : Nat := (x % ((2 ^ n : Nat) : Int)).toNat

/-- The numbers 0 … n−1 for which `p` holds, rising. -/
def idxs (n : Nat) (p : Nat → Bool) : List Nat := (List.range n).filter p

/-- The bit mask of a list of bit numbers. -/
def maskOf (l : List Nat) : Nat := l.foldl (fun m i => setBit m i true) 0

/-- The number of bits set among bits 0 … n−1. -/
def popcount (n x : Nat) : Nat := (idxs n (bit x)).length

/-- The entries of `l` whose key satisfies `p`, replaced by `f`. -/
def updWhere {α : Type} (p : α → Bool) (f : α → α) (l : List α) : List α :=
  l.map (fun x => if p x then f x else x)

/-- Replace entry `i` of a list by `f` of it. -/
def updAt {α : Type} (l : List α) (i : Nat) (f : α → α) : List α :=
  l.mapIdx (fun j x => if j = i then f x else x)

/-- The largest of a list of numbers, 0 when empty. -/
def maxL (l : List Nat) : Nat := l.foldl max 0

/-- The sum of a list of numbers. -/
def sumL (l : List Nat) : Nat := l.foldl (· + ·) 0

/-- The first element at which `f` is least, if any; ties go to the earlier element. -/
def argmin {α : Type} (f : α → Nat) : List α → Option α
  | [] => none
  | x :: xs =>
    match argmin f xs with
    | none => some x
    | some y => if f x ≤ f y then some x else some y

end Sys2Proof.Machine
end

