-- ==== Sys2Proof/Machine/Digest.lean ====
section
/-! DEFINITION. The digests and check codes the spec names: CRC-64 (R228), CRC-32C (R303, R304, R333), SHA-384 (R257, R262,
R263, R303) and HMAC-SHA-256 (R401).  CRC-64 is the spec's own program; the others are the published standards that the
spec names (PRESUMED, log 12). -/

namespace Sys2Proof.Machine

/-- One bit of a reflected CRC with polynomial `poly`. -/
def crcBit (poly c : Nat) : Nat := if c % 2 = 1 then (c / 2) ^^^ poly else c / 2

/-- One byte of a reflected CRC. -/
def crcByte (poly c : Nat) (b : Byte) : Nat :=
  (List.range 8).foldl (fun c _ => crcBit poly c) (c ^^^ b.toNat)

/-- R228: digest64, CRC-64 with the ECMA-182 polynomial, reflected, initial value and final XOR of all ones. -/
def digest64 (bs : List Byte) : Nat :=
  (bs.foldl (crcByte 0xC96C5795D7870F42) (2 ^ 64 - 1)) ^^^ (2 ^ 64 - 1)

/-- CRC-32C (Castagnoli), reflected, initial value and final XOR of all ones. -/
def crc32c (bs : List Byte) : Nat :=
  (bs.foldl (crcByte 0x82F63B78) (2 ^ 32 - 1)) ^^^ (2 ^ 32 - 1)

/-- The first `n` primes, by trial division. -/
def primesUpTo (m : Nat) : List Nat :=
  (List.range (m + 1)).filter fun p => decide (2 ≤ p) && (List.range p).all fun q => decide (q < 2) || decide (p % q ≠ 0)

/-- ⌊cube root⌋ by bits, from bit `n` − 1 down. -/
def icbrt (x : Nat) : Nat → Nat → Nat
  | 0, r => r
  | n + 1, r => let r' := r + 2 ^ n
    if r' * r' * r' ≤ x then icbrt x n r' else icbrt x n r

/-- The SHA-2 round constants of word size `w`: the first `w` fraction bits of the cube roots of the first primes. -/
def shaK (w n : Nat) : List Nat :=
  ((primesUpTo 409).take n).map fun p => icbrt (p * 2 ^ (3 * w)) (w + 4) 0 % 2 ^ w

/-- The first `w` fraction bits of the square root of `p`. -/
def sqrtFrac (w p : Nat) : Nat := Nat.sqrt (p * 2 ^ (2 * w)) % 2 ^ w

/-- The rotation and shift amounts and sizes of one SHA-2 function. -/
structure Sha where
  w : Nat
  rounds : Nat
  bigS0 : Nat × Nat × Nat
  bigS1 : Nat × Nat × Nat
  smallS0 : Nat × Nat × Nat
  smallS1 : Nat × Nat × Nat
  init : List Nat
deriving DecidableEq, Repr

/-- Rotate right within `w` bits. -/
def rotr (w n x : Nat) : Nat := (x / 2 ^ n) ||| ((x * 2 ^ (w - n)) % 2 ^ w)

/-- SHA-256 (FIPS 180-4). -/
def sha256P : Sha :=
  { w := 32, rounds := 64, bigS0 := (2, 13, 22), bigS1 := (6, 11, 25), smallS0 := (7, 18, 3), smallS1 := (17, 19, 10)
    init := ((primesUpTo 409).take 8).map (sqrtFrac 32) }

/-- SHA-384 (FIPS 180-4): the initial words come from the ninth to sixteenth primes. -/
def sha384P : Sha :=
  { w := 64, rounds := 80, bigS0 := (28, 34, 39), bigS1 := (14, 18, 41), smallS0 := (1, 8, 7), smallS1 := (19, 61, 6)
    init := (((primesUpTo 409).drop 8).take 8).map (sqrtFrac 64) }

/-- Σ of three rotations. -/
def shaBig (w : Nat) (r : Nat × Nat × Nat) (x : Nat) : Nat := rotr w r.1 x ^^^ rotr w r.2.1 x ^^^ rotr w r.2.2 x
/-- σ of two rotations and a shift. -/
def shaSmall (w : Nat) (r : Nat × Nat × Nat) (x : Nat) : Nat := rotr w r.1 x ^^^ rotr w r.2.1 x ^^^ (x / 2 ^ r.2.2)

/-- The message schedule, kept with the newest word first. -/
def shaSchedule (p : Sha) : Nat → List Nat → List Nat
  | 0, ws => ws
  | n + 1, ws =>
    let g := fun i => ws.getD i 0
    shaSchedule p n (((shaSmall p.w p.smallS1 (g 1) + g 6 + shaSmall p.w p.smallS0 (g 14) + g 15) % 2 ^ p.w) :: ws)

/-- One round on the eight working words. -/
def shaRound (p : Sha) (v : List Nat) (kw : Nat) : List Nat :=
  match v with
  | [a, b, c, d, e, f, g, h] =>
    let ch := (e &&& f) ^^^ ((2 ^ p.w - 1 - e) &&& g)
    let maj := (a &&& b) ^^^ (a &&& c) ^^^ (b &&& c)
    let t1 := h + shaBig p.w p.bigS1 e + ch + kw
    let t2 := shaBig p.w p.bigS0 a + maj
    [(t1 + t2) % 2 ^ p.w, a, b, c, (d + t1) % 2 ^ p.w, e, f, g]
  | _ => v

/-- One block of 16 words. -/
def shaBlock (p : Sha) (ks h block : List Nat) : List Nat :=
  let ws := (shaSchedule p (p.rounds - 16) block.reverse).reverse
  let v := (ks.zip ws).foldl (fun v kw => shaRound p v (kw.1 + kw.2)) h
  (h.zip v).map fun x => (x.1 + x.2) % 2 ^ p.w

/-- A big-endian word from bytes. -/
def beNat (bs : List Byte) : Nat := bs.foldl (fun a b => a * 256 + b.toNat) 0

/-- `n` bytes of a number, highest first. -/
def beBytes (n x : Nat) : List Byte := (leBytes n x).reverse

/-- Split into chunks of `n` (`k` of them). -/
def chunks {α : Type} (n : Nat) : Nat → List α → List (List α)
  | 0, _ => []
  | k + 1, l => l.take n :: chunks n k (l.drop n)

/-- The SHA-2 hash of a byte string, as its digest words joined. -/
def shaHash (p : Sha) (outWords : Nat) (bs : List Byte) : List Byte :=
  let wb := p.w / 8
  let blk := 16 * wb
  let lenB := 2 * wb
  let zeros := (blk - (bs.length + 1 + lenB) % blk) % blk
  let m := bs ++ [0x80] ++ List.replicate zeros 0 ++ beBytes lenB (8 * bs.length)
  let ks := shaK p.w p.rounds
  let h := (chunks blk (m.length / blk) m).foldl (fun h b => shaBlock p ks h ((chunks wb 16 b).map beNat)) p.init
  (h.take outWords).flatMap (beBytes wb)

/-- SHA-256, 32 bytes. -/
def sha256 (bs : List Byte) : List Byte := shaHash sha256P 8 bs
/-- SHA-384, 48 bytes. -/
def sha384 (bs : List Byte) : List Byte := shaHash sha384P 6 bs

/-- HMAC-SHA-256 (R401), for a key of at most one block. -/
def hmacSha256 (key msg : List Byte) : List Byte :=
  let k := key ++ List.replicate (64 - key.length) 0
  sha256 (k.map (· ^^^ 0x5c) ++ sha256 (k.map (· ^^^ 0x36) ++ msg))

end Sys2Proof.Machine
end

