-- ==== Sys2Proof/Config.lean ====
section
/-! DEFINITION. What the spec leaves to one part or one implementation, and the free values: constants without a body, so
that no proof can lean on any value of them (log 2, log 3).  A drawn or unstated value is one of these functions applied to
the operands it depends on, or to the counter `free` of the state, which the step advances at each draw. -/

namespace Sys2Proof.Config

/-- SERIAL, a fuse of the part (R417). -/
opaque serial : Nat
/-- Whether the part is of speed grade -2 (R12, R417 SPEED_GRADE). -/
opaque gradeTwo : Bool
/-- REVISION, a fuse of the part (R417). -/
opaque revision : Nat
/-- FW_SVN as the part leaves the factory (R417). -/
opaque fuseSvn : Nat
/-- MAC_ADDR as the part leaves the factory (R417 gives no default). -/
opaque macAddr : Nat

/-- SPEED_GRADE: 1 or 2 (R417). -/
def speedGrade : Nat := if gradeTwo then 2 else 1
/-- The highest MCLK of the grade in MHz (R12). -/
def gradeLimit : Nat := if gradeTwo then 1800 else 1600

/-- A free value of `n` bits: the draw number picks it; the spec states none (R127, R229, R264, R404). -/
opaque freeNat : Nat → Nat → Nat
/-- A free yes-or-no, by draw number. -/
opaque freeBool : Nat → Bool
/-- A free byte of data the spec leaves open, by draw number and place (R127). -/
opaque freeByte : Nat → Nat → BitVec 8

/-- Whether a firmware image's ECDSA P-384 signature by Fermel verifies (R409). -/
opaque fwSigOk : List (Nat × BitVec 8) → Bool
/-- The security version an image slot holds (R409; its place in the image is not in the spec). -/
opaque fwSvn : List (Nat × BitVec 8) → Nat
/-- The SHA-384 digest of measurement block `b` = 2–5, taken from an image slot (R262, R409). -/
opaque fwBlock : Nat → List (Nat × BitVec 8) → List (BitVec 8)
/-- The tile-test reference digest of an image slot (R234, R409). -/
opaque fwTileDigest : List (Nat × BitVec 8) → Nat
/-- Whether Fermel's signature (r, s) over challenge and serial verifies (R404). -/
opaque vendorSigOk : Nat → Nat → Nat → Nat → Bool
/-- The slot-0 certificate chain of the device identity key (R257). -/
opaque certChain : List (BitVec 8)
/-- The device identity key's signature over a transcript (R257; the private key never leaves the root of trust). -/
opaque identitySign : List (BitVec 8) → List (BitVec 8)
/-- The device's ECDHE public value for a draw, and the session secret it gives with the host's value (R257). -/
opaque ecdhePublic : Nat → List (BitVec 8)
opaque ecdheSecret : Nat → List (BitVec 8) → Nat
/-- Whether a finish message's verify data matches a session (R257). -/
opaque finishOk : Nat → List (BitVec 8) → Bool

/-- What the frames of a region set up; the places of all of it in the frames are not in the spec (R301).  The instruction words of a
DSP cell (R284); by queue memory of the region, its mode (0 RAM72, 1 RAM64, 2 FIFO, 3 PORT), its word width, the regions whose
clocks its write port and its read port run on, and its initial contents by address (R288). -/
opaque dspWords : List (List (BitVec 8)) → Nat → List Nat
opaque queueMode : List (List (BitVec 8)) → Nat → Nat
opaque queueWidth : List (List (BitVec 8)) → Nat → Nat
opaque queueSides : List (List (BitVec 8)) → Nat → Nat × Nat
opaque queueInit : List (List (BitVec 8)) → Nat → Nat → Nat
/-- By logic cell: the 64 bits of its table, and whether it works as two functions of five inputs; by flip-flop (2 × cell + half): the
source of its D input (0 and 1 the table outputs, 2 the bypass), its initial value and its value under reset; by cluster: whether
its reset is asynchronous (R277). -/
opaque cellTable : List (List (BitVec 8)) → Nat → Nat
opaque cellDual : List (List (BitVec 8)) → Nat → Bool
opaque flopSource : List (List (BitVec 8)) → Nat → Nat
opaque flopInit : List (List (BitVec 8)) → Nat → Bool
opaque flopReset : List (List (BitVec 8)) → Nat → Bool
opaque clusterAsync : List (List (BitVec 8)) → Nat → Bool
/-- The carry logic of a cell, by table output, bypass input and carry in; the spec names no function (R277). -/
opaque carryOut : Bool → Bool → Bool → Bool
/-- The clock that a region's image selects (0–3 FCLK0–FCLK3, 4 MCLK, 5 forwarded), and FCLKn in MHz, by the frames of the die (R280). -/
opaque regionClock : List (List (BitVec 8)) → Nat
opaque fclk : List (List (BitVec 8)) → Nat → Nat
/-- Whether the I/O cell of a pin of the region's bank runs in double-rate mode (R297). -/
opaque ioDouble : List (List (BitVec 8)) → Nat → Bool
/-- PAIR_MODE of the partner package at a time in ns (R243; log 117). -/
opaque partnerMode : Nat → Nat
/-- AES-256-GCM of a transfer on the pair link: the data units encrypted, and the tag, by partition, transfer count and header
(R265; the key never leaves the root of trust). -/
opaque gcmSeal : Nat → Nat → List (BitVec 8) → List (BitVec 8)
opaque gcmTag : Nat → Nat → Nat → List (BitVec 8) → List (BitVec 8)

end Sys2Proof.Config
end

