-- ==== Sys2Proof/Machine/Sparse.lean ====
section
/-! DEFINITION. Sparse tables in one canonical form: a list of (key, value) pairs, keys strictly rising, no entry equal to
what an unlisted key reads as.  Every large collection of the device (dictionary registers, memory bytes, tiles, lanes,
functions) is held in this form, so that equal contents are equal data. -/

namespace Sys2Proof.Machine

/-- What key `k` holds: its listed value, or the default of that key. -/
def sget {α : Type} (d : Nat → α) : List (Nat × α) → Nat → α
  | [], k => d k
  | (j, v) :: m, k => if j = k then v else sget d m k

/-- Put an entry at its place in the rising order, replacing the one at the same key. -/
def sinsert {α : Type} (k : Nat) (v : α) : List (Nat × α) → List (Nat × α)
  | [] => [(k, v)]
  | (j, w) :: m => if k < j then (k, v) :: (j, w) :: m else if j = k then (k, v) :: m else (j, w) :: sinsert k v m

/-- Take the entry of a key out. -/
def serase {α : Type} (k : Nat) (m : List (Nat × α)) : List (Nat × α) := m.filter (fun e => e.1 != k)

/-- Write key `k`: the default value removes the entry, any other value lists it. -/
def sput {α : Type} [DecidableEq α] (d : Nat → α) (m : List (Nat × α)) (k : Nat) (v : α) : List (Nat × α) :=
  if v = d k then serase k m else sinsert k v m

/-- Change what key `k` holds by a function of what it held. -/
def smod {α : Type} [DecidableEq α] (d : Nat → α) (m : List (Nat × α)) (k : Nat) (f : α → α) : List (Nat × α) :=
  sput d m k (f (sget d m k))

/-- The keys rise strictly from above `lo`. -/
def srising {α : Type} : Nat → List (Nat × α) → Bool
  | _, [] => true
  | lo, (j, _) :: m => decide (lo ≤ j) && srising (j + 1) m

/-- The canonical form: keys strictly rising, and no entry equal to its key's default. -/
def swf {α : Type} [DecidableEq α] (d : Nat → α) (m : List (Nat × α)) : Bool :=
  srising 0 m && m.all (fun e => decide (e.2 ≠ d e.1))

/-- Return every key that satisfies `p` to its default. -/
def sclear {α : Type} (p : Nat → Bool) (m : List (Nat × α)) : List (Nat × α) :=
  m.filter (fun e => !p e.1)

/-- Apply `f` to the value of every listed key for which `p` holds; `f` may give the default back, which unlists it. -/
def smap {α : Type} [DecidableEq α] (d : Nat → α) (p : Nat → Bool) (f : Nat → α → α) (m : List (Nat × α)) : List (Nat × α) :=
  (m.map (fun e => if p e.1 then (e.1, f e.1 e.2) else e)).filter (fun e => decide (e.2 ≠ d e.1))

/-- Insert a number into a strictly rising list (a set of numbers). -/
def nput (k : Nat) : List Nat → List Nat
  | [] => [k]
  | j :: m => if k < j then k :: j :: m else if j = k then j :: m else j :: nput k m

end Sys2Proof.Machine
end

