-- ==== Sys2Proof/Machine/Entries.lean ====
section
/-! DEFINITION. The object dictionary's entries, row by row from the tables of the spec's chapters: the subindex span, the
length of the type (R397), the access code (R3), the default, the persistence, who may read and who may write (the rights
each entry's chapter states), and the ranges of values it accepts (R399).  A register of the dictionary is named by its
key, index × 256 + subindex. -/

namespace Sys2Proof.Machine

/-- The access codes of R3 that dictionary entries carry. -/
inductive Acc where
  | ro | rw | wo
  deriving DecidableEq, Repr

/-- The persistence column of the dictionary tables (R400). -/
inductive Persist where
  | none | flash | fuse
  deriving DecidableEq, Repr

/-- Who has a right: `opOwner` the operator and the owner of the entry's partition, die or monitor; `opMember` the operator
and the owners of the group's members (R250, R418); `opSelfMember` the operator, and the owner named by that very entry
(R418); `opLane` the operator, and in use 2 the owner of R338 (R341); `opAnyOwner` every owner (R378); `uartAny` a UART
client (R404). -/
inductive Who where
  | nobody | everyone | operator | owner | opOwner | opMember | opSelfMember | opLane | opAnyOwner | vendor | uartAny
  deriving DecidableEq, Repr

/-- One row of a dictionary table. -/
structure Row where
  lo : Nat
  hi : Nat
  len : Nat
  acc : Acc
  dflt : Nat
  per : Persist
  rd : Who
  wr : Who
  ranges : List (Nat × Nat)
  deriving DecidableEq, Repr

/-- Index 0x6200–0x622F. -/
def rows6200 : List Row := (List.range 8).map (fun t => ⟨0x10 * t + 0x01, 0x10 * t + 0x0B, 8, .ro, 0, .none, .opOwner, .nobody, []⟩)

/-- Index 0x6300–0x632F. -/
def rows6300 : List Row := (List.range 7).map (fun t => ⟨0x10 * t + 0x11, 0x10 * t + 0x19, 8, .ro, 0, .none, .opOwner, .nobody, []⟩) ++ [
  ⟨0x01, 0x09, 8, .ro, 0, .none, .opOwner, .nobody, []⟩,  -- T0_STALL_0–T0_STALL_8
  ⟨0x81, 0x89, 8, .ro, 0, .none, .opOwner, .nobody, []⟩,  -- ENG_STALL_0–ENG_STALL_8
  ⟨0x90, 0x90, 8, .ro, 0, .none, .opOwner, .nobody, []⟩]  -- ENG_BUSY

/-- Index 0x6400–0x647F. -/
def rows6400 : List Row := [
  ⟨0x01, 0x01, 2, .rw, 0xFFFF, .none, .opOwner, .opOwner, [(0, 1023), (0xFFFF, 0xFFFF)]⟩,  -- QID
  ⟨0x02, 0x02, 8, .ro, 0, .none, .opOwner, .nobody, []⟩,  -- ITEMS
  ⟨0x03, 0x03, 8, .ro, 0, .none, .opOwner, .nobody, []⟩,  -- BYTES
  ⟨0x04, 0x04, 2, .ro, 0, .none, .opOwner, .nobody, []⟩,  -- PEAK_OUTSTANDING
  ⟨0x05, 0x05, 1, .ro, 0, .none, .opOwner, .nobody, []⟩,  -- BUFFER_LOG2
  ⟨0x06, 0x06, 1, .ro, 0, .none, .opOwner, .nobody, []⟩,  -- HOME
  ⟨0x10, 0x19, 8, .ro, 0, .none, .opOwner, .nobody, []⟩]  -- LATE_PRODUCER … LATE_IN_FLIGHT

/-- Index 0x5401–0x5410. -/
def rows5401 : List Row := [
  ⟨0x01, 0x01, 1, .rw, 0, .none, .opOwner, .opOwner, [(0, 1)]⟩,  -- ARB_MODE
  ⟨0x02, 0x02, 2, .rw, 128, .none, .opOwner, .opOwner, [(0, 256)]⟩,  -- READ_SHARE
  ⟨0x03, 0x03, 2, .rw, 64, .none, .opOwner, .opOwner, [(0, 256)]⟩,  -- WRITE_SHARE
  ⟨0x04, 0x04, 2, .rw, 64, .none, .opOwner, .opOwner, [(0, 256)]⟩,  -- REMOTE_SHARE
  ⟨0x05, 0x05, 1, .rw, 8, .none, .opOwner, .opOwner, [(1, 255)]⟩,  -- AGE_LIMIT
  ⟨0x06, 0x06, 1, .rw, 31, .none, .opOwner, .opOwner, []⟩,  -- INTERNAL_LIMIT
  ⟨0x07, 0x07, 1, .rw, 16, .none, .opOwner, .operator, [(1, 255)]⟩,  -- HBM_WEIGHT
  ⟨0x08, 0x08, 8, .ro, 0, .none, .opOwner, .nobody, []⟩,  -- FALLBACK_GRANTS
  ⟨0x09, 0x09, 8, .ro, 0, .none, .opOwner, .nobody, []⟩,  -- AGED_GRANTS
  ⟨0x0A, 0x0A, 8, .ro, 0, .none, .opOwner, .nobody, []⟩]  -- MUTUAL_WAIT_ABORTS

/-- Index 0x5501–0x5510. -/
def rows5501 : List Row := [
  ⟨0x01, 0x01, 1, .rw, 0, .none, .opOwner, .operator, [(0, 1)]⟩,  -- PIN_ENABLE
  ⟨0x02, 0x02, 2, .rw, 128, .none, .opOwner, .opOwner, [(16, 4096)]⟩,  -- RES_PERIOD
  ⟨0x03, 0x03, 2, .rw, 256, .none, .opOwner, .opOwner, [(32, 8192)]⟩,  -- REBAL_PERIOD
  ⟨0x04, 0x04, 1, .rw, 16, .none, .opOwner, .opOwner, [(1, 127)]⟩,  -- REBAL_THRESHOLD
  ⟨0x05, 0x05, 1, .rw, 1, .none, .opOwner, .opOwner, [(0, 1)]⟩,  -- REBAL_ENABLE
  ⟨0x06, 0x06, 2, .rw, 64, .none, .opOwner, .opOwner, [(1, 65535)]⟩,  -- EVICT_PERIODS
  ⟨0x07, 0x07, 4, .rw, 4096, .none, .opOwner, .opOwner, []⟩,  -- REPLICATE_UNITS
  ⟨0x08, 0x08, 1, .rw, 16, .none, .opOwner, .operator, [(0, 24)]⟩,  -- KEEP_SHARE
  ⟨0x10, 0x10, 8, .ro, 0, .none, .opOwner, .nobody, []⟩,  -- PARTS_ISSUED
  ⟨0x11, 0x11, 8, .ro, 0, .none, .opOwner, .nobody, []⟩,  -- PACKED_UNITS
  ⟨0x12, 0x12, 8, .ro, 0, .none, .opOwner, .nobody, []⟩,  -- KEEP_HITS
  ⟨0x13, 0x13, 8, .ro, 0, .none, .opOwner, .nobody, []⟩,  -- KEEP_MISSES
  ⟨0x14, 0x14, 8, .ro, 0, .none, .opOwner, .nobody, []⟩,  -- COPIES_MADE
  ⟨0x15, 0x15, 8, .ro, 0, .none, .opOwner, .nobody, []⟩,  -- COPIES_FREED
  ⟨0x16, 0x16, 8, .ro, 0, .none, .opOwner, .nobody, []⟩,  -- MIGRATIONS
  ⟨0x17, 0x17, 8, .ro, 0, .none, .opOwner, .nobody, []⟩,  -- MIG_CANCELLED
  ⟨0x18, 0x18, 8, .ro, 0, .none, .opOwner, .nobody, []⟩,  -- MIG_BYTES
  ⟨0x19, 0x19, 8, .ro, 0, .none, .opOwner, .nobody, []⟩,  -- WEIGHT_STEPS
  ⟨0x1A, 0x1A, 8, .ro, 0, .none, .opOwner, .nobody, []⟩,  -- HINTS_IGNORED
  ⟨0x1B, 0x1B, 8, .ro, 0, .none, .opOwner, .nobody, []⟩]  -- PINNED_COMMANDS

/-- Index 0x6500–0x652F. -/
def rows6500 : List Row := [
  ⟨0x01, 0x01, 1, .ro, 64, .none, .opOwner, .nobody, []⟩,  -- WEIGHT
  ⟨0x02, 0x02, 1, .ro, 0, .none, .opOwner, .nobody, []⟩,  -- HEAVY_FRACTION
  ⟨0x03, 0x03, 4, .ro, 0, .none, .opOwner, .nobody, []⟩,  -- KEEP_BYTES
  ⟨0x04, 0x04, 2, .ro, 0, .none, .opOwner, .nobody, []⟩,  -- COPIES
  ⟨0x05, 0x05, 8, .ro, 0, .none, .opOwner, .nobody, []⟩,  -- UNITS_ASSIGNED
  ⟨0x06, 0x06, 8, .ro, 0, .none, .opOwner, .nobody, []⟩,  -- MIG_IN
  ⟨0x07, 0x07, 8, .ro, 0, .none, .opOwner, .nobody, []⟩]  -- MIG_OUT

/-- Index 0x5601–0x5610. -/
def rows5601 : List Row := [
  ⟨0x01, 0x10, 4, .rw, 0, .none, .opOwner, .operator, []⟩,  -- RESV0–RESV15
  ⟨0x11, 0x20, 2, .ro, 0, .none, .opOwner, .nobody, []⟩,  -- RES_GAP0–RES_GAP15
  ⟨0x21, 0x21, 1, .rw, 0x01, .none, .opOwner, .operator, [(0, 7)]⟩,  -- GUAR_CLASS
  ⟨0x22, 0x22, 1, .rw, 0, .none, .opOwner, .operator, [(0, 1)]⟩,  -- FIRE_FORWARD
  ⟨0x23, 0x23, 2, .rw, 100, .none, .opOwner, .operator, [(10, 10000)]⟩,  -- XACT_TIMEOUT
  ⟨0x24, 0x24, 8, .rw, 0, .none, .opOwner, .opOwner, []⟩,  -- LATE_Q_ADDR
  ⟨0x25, 0x25, 2, .rw, 0, .none, .opOwner, .opOwner, [(0, 0), (16, 4096)]⟩,  -- LATE_Q_ENTRIES
  ⟨0x26, 0x26, 4, .ro, 0, .none, .opOwner, .nobody, []⟩,  -- FF_OPEN
  ⟨0x27, 0x27, 8, .ro, 0, .none, .opOwner, .nobody, []⟩,  -- LATE_RECORDS
  ⟨0x28, 0x28, 8, .ro, 0, .none, .opOwner, .nobody, []⟩,  -- LATE_DROPPED
  ⟨0x29, 0x29, 8, .ro, 0, .none, .opOwner, .nobody, []⟩]  -- SLOT_WAIT

/-- Index 0x6600–0x663F. -/
def rows6600 : List Row := [
  ⟨0x01, 0x01, 8, .ro, 0, .none, .operator, .nobody, []⟩,  -- ROW_UNITS
  ⟨0x02, 0x02, 8, .ro, 0, .none, .operator, .nobody, []⟩,  -- COL_UNITS
  ⟨0x03, 0x03, 8, .ro, 0, .none, .operator, .nobody, []⟩,  -- TURN_UNITS
  ⟨0x04, 0x04, 8, .ro, 0, .none, .operator, .nobody, []⟩,  -- BE_INJECT_WAIT
  ⟨0x05, 0x05, 8, .ro, 0, .none, .operator, .nobody, []⟩,  -- STARVE_REQUESTS
  ⟨0x06, 0x06, 8, .ro, 0, .none, .operator, .nobody, []⟩,  -- BOUNCES
  ⟨0x07, 0x07, 8, .ro, 0, .none, .operator, .nobody, []⟩,  -- TURN_FULL
  ⟨0x08, 0x08, 8, .ro, 0, .none, .operator, .nobody, []⟩,  -- SEAM_WAIT
  ⟨0x09, 0x09, 8, .ro, 0, .none, .operator, .nobody, []⟩,  -- ECC_CORRECTED
  ⟨0x0A, 0x0A, 8, .ro, 0, .none, .operator, .nobody, []⟩,  -- ECC_UNCORRECTED
  ⟨0x0B, 0x0B, 8, .ro, 0, .none, .operator, .nobody, []⟩,  -- HEADERS_DROPPED
  ⟨0x0C, 0x0C, 8, .ro, 0, .none, .operator, .nobody, []⟩,  -- XACT_TIMEOUTS
  ⟨0x0D, 0x0D, 8, .ro, 0, .none, .operator, .nobody, []⟩]  -- STALE_RESPONSES

/-- Index 0x2200. -/
def rows2200 : List Row := [
  ⟨0x01, 0x01, 1, .rw, 4, .flash, .operator, .operator, [(0, 8)]⟩,  -- SPARE_RANKS
  ⟨0x02, 0x02, 1, .rw, 10, .flash, .operator, .operator, [(6, 16)]⟩,  -- NEIGHBOUR_P
  ⟨0x03, 0x03, 2, .rw, 12, .flash, .operator, .operator, [(1, 720)]⟩,  -- PATROL_HOURS
  ⟨0x04, 0x04, 2, .rw, 1000, .flash, .operator, .operator, [(10, 60000)]⟩,  -- SRAM_SCRUB_MS
  ⟨0x05, 0x05, 4, .rw, 0, .flash, .operator, .operator, []⟩,  -- CE_RETIRE
  ⟨0x06, 0x06, 1, .rw, 8, .flash, .operator, .operator, [(1, 64)]⟩]  -- RETIRE_RATE

/-- Index 0x5701–0x5710. -/
def rows5701 : List Row := [
  ⟨0x01, 0x01, 1, .rw, 4, .none, .opOwner, .operator, [(0, 8)]⟩,  -- GRAIN_LOG2
  ⟨0x02, 0x02, 1, .rw, 0, .none, .opOwner, .operator, [(0, 1)]⟩,  -- STACK_INTERLEAVE
  ⟨0x03, 0x03, 8, .ro, 0, .none, .opOwner, .nobody, []⟩,  -- HBM_BYTES
  ⟨0x04, 0x04, 1, .ro, 0, .none, .opOwner, .nobody, []⟩,  -- SETS
  ⟨0x05, 0x05, 8, .ro, 0, .none, .opOwner, .nobody, []⟩,  -- CE_COUNT
  ⟨0x06, 0x06, 8, .ro, 0, .none, .opOwner, .nobody, []⟩,  -- POISON_READS
  ⟨0x07, 0x07, 8, .ro, 0, .none, .opOwner, .nobody, []⟩,  -- POISON_WRITES
  ⟨0x08, 0x08, 8, .ro, 0, .none, .opOwner, .nobody, []⟩]  -- LAST_POISON_ADDR

/-- Index 0x6700–0x671F. -/
def rows6700 : List Row := [
  ⟨0x01, 0x01, 1, .ro, 0, .none, .operator, .nobody, []⟩,  -- STATE
  ⟨0x02, 0x02, 1, .ro, 4, .none, .operator, .nobody, []⟩,  -- SPARES_LEFT
  ⟨0x03, 0x03, 1, .ro, 0, .none, .operator, .nobody, []⟩,  -- RANKS_RETIRED
  ⟨0x04, 0x04, 2, .ro, 0xFFFF, .none, .operator, .nobody, []⟩,  -- MIG_RANK
  ⟨0x05, 0x05, 4, .ro, 0, .none, .operator, .nobody, []⟩,  -- MIG_POINTER
  ⟨0x10, 0x17, 2, .ro, 0, .flash, .operator, .nobody, []⟩,  -- REMAP0–REMAP7
  ⟨0x20, 0x20, 8, .ro, 0, .none, .operator, .nobody, []⟩,  -- CE
  ⟨0x21, 0x21, 8, .ro, 0, .none, .operator, .nobody, []⟩,  -- UE_DATA
  ⟨0x22, 0x22, 8, .ro, 0, .none, .operator, .nobody, []⟩,  -- CMD_ERRORS
  ⟨0x23, 0x23, 8, .ro, 0, .none, .operator, .nobody, []⟩,  -- POISON_STORED
  ⟨0x24, 0x24, 8, .ro, 0, .none, .operator, .nobody, []⟩,  -- NREF_ISSUED
  ⟨0x25, 0x25, 8, .ro, 0, .none, .operator, .nobody, []⟩,  -- REFRESH_NS
  ⟨0x26, 0x26, 8, .ro, 0, .none, .operator, .nobody, []⟩,  -- PATROL_PASSES
  ⟨0x27, 0x27, 8, .ro, 0, .none, .operator, .nobody, []⟩,  -- LAST_UE_ADDR
  ⟨0x40, 0x5F, 8, .ro, 0, .none, .operator, .nobody, []⟩]  -- CH_REQ0–CH_REQ31

/-- Index 0x6800–0x682F. -/
def rows6800 : List Row := [
  ⟨0x01, 0x01, 8, .ro, 0, .none, .opOwner, .nobody, []⟩,  -- TS_CE
  ⟨0x02, 0x02, 8, .ro, 0, .none, .opOwner, .nobody, []⟩,  -- TS_UE
  ⟨0x03, 0x03, 8, .ro, 0, .none, .opOwner, .nobody, []⟩,  -- DS_CE
  ⟨0x04, 0x04, 8, .ro, 0, .none, .opOwner, .nobody, []⟩,  -- DS_UE
  ⟨0x05, 0x05, 8, .ro, 0, .none, .opOwner, .nobody, []⟩,  -- SCRUB_PASSES
  ⟨0x06, 0x06, 4, .ro, 0, .none, .opOwner, .nobody, []⟩]  -- LAST_UE_WORD

/-- Index 0x2300. -/
def rows2300 : List Row := [
  ⟨0x01, 0x01, 1, .rw, 6, .flash, .operator, .operator, [(0, 16), (31, 31)]⟩,  -- DUP_K
  ⟨0x02, 0x02, 1, .rw, 3, .flash, .operator, .operator, [(1, 255)]⟩,  -- MISMATCH_LIMIT
  ⟨0x03, 0x03, 1, .rw, 0, .flash, .operator, .operator, [(0, 2)]⟩,  -- PAIR_MODE
  ⟨0x04, 0x04, 2, .rw, 1000, .flash, .operator, .operator, [(10, 60000)]⟩]  -- MIRROR_WAIT

/-- Index 0x2320–0x232F. -/
def rows2320 : List Row := [
  ⟨0x01, 0x01, 4, .rw, 0, .flash, .operator, .operator, []⟩,  -- PERIOD_MS
  ⟨0x02, 0x02, 8, .rw, 0, .flash, .operator, .operator, []⟩,  -- LENGTH
  ⟨0x10, 0x1F, 8, .rw, 0, .flash, .operator, .operator, []⟩,  -- MEMBER0–MEMBER15
  ⟨0x20, 0x2F, 8, .ro, 0, .none, .opMember, .nobody, []⟩,  -- DIGEST0–DIGEST15
  ⟨0x30, 0x30, 8, .ro, 0, .none, .opMember, .nobody, []⟩,  -- SAMPLES
  ⟨0x31, 0x31, 8, .ro, 0, .none, .opMember, .nobody, []⟩,  -- MISSED
  ⟨0x32, 0x32, 8, .ro, 0, .none, .opMember, .nobody, []⟩,  -- DRIFTS
  ⟨0x33, 0x33, 8, .ro, 0, .none, .opMember, .nobody, []⟩]  -- LAST_DRIFT_TIME

/-- Index 0x5801–0x5810. -/
def rows5801 : List Row := [
  ⟨0x01, 0x01, 2, .rw, 0, .none, .opOwner, .operator, []⟩,  -- REPLAY_STAGE_MIB
  ⟨0x02, 0x02, 1, .rw, 0, .none, .opOwner, .operator, [(0, 1)]⟩,  -- REPLAY_TARGET
  ⟨0x03, 0x03, 1, .rw, 0, .none, .opOwner, .operator, [(0, 16)]⟩,  -- PAIR_PARTITION
  ⟨0x04, 0x04, 8, .rw, 0, .none, .opOwner, .owner, []⟩,  -- PART_MAP_ADDR
  ⟨0x05, 0x05, 1, .ro, 0, .none, .opOwner, .nobody, []⟩,  -- MIRROR_STATE
  ⟨0x10, 0x10, 8, .ro, 0, .none, .opOwner, .nobody, []⟩,  -- DUP_SAMPLED
  ⟨0x11, 0x11, 8, .ro, 0, .none, .opOwner, .nobody, []⟩,  -- DUP_MISMATCHES
  ⟨0x12, 0x12, 8, .ro, 0, .none, .opOwner, .nobody, []⟩,  -- DUP_UNCHECKED
  ⟨0x13, 0x13, 8, .ro, 0, .none, .opOwner, .nobody, []⟩,  -- UNITS_REISSUED
  ⟨0x14, 0x14, 8, .ro, 0, .none, .opOwner, .nobody, []⟩,  -- DIGEST_FAILURES
  ⟨0x15, 0x15, 8, .ro, 0, .none, .opOwner, .nobody, []⟩,  -- REPLAYS
  ⟨0x16, 0x16, 8, .ro, 0, .none, .opOwner, .nobody, []⟩,  -- REPLAY_MISMATCHES
  ⟨0x17, 0x17, 8, .ro, 0, .none, .opOwner, .nobody, []⟩,  -- REPLAY_FALLBACKS
  ⟨0x18, 0x18, 8, .ro, 0, .none, .opOwner, .nobody, []⟩]  -- MIRROR_MISMATCHES

/-- Index 0x6900–0x692F. -/
def rows6900 : List Row := [
  ⟨0x01, 0x08, 1, .rw, 0, .flash, .opOwner, .operator, [(0, 0)]⟩,  -- TILE_STATE_T0–TILE_STATE_T7
  ⟨0x11, 0x18, 1, .ro, 0, .none, .opOwner, .nobody, []⟩,  -- TILE_MISMATCHES_T0–TILE_MISMATCHES_T7
  ⟨0x20, 0x20, 8, .ro, 0, .none, .opOwner, .nobody, []⟩]  -- TESTS_RUN

/-- Index 0x5101–0x5110.  A write of DIES with reserved bits [63:48] set is refused, as MAC_ADDR's is, while HOST_FN keeps its
reserved bits and reads them back (log 93). -/
def rows5101 : List Row := [
  ⟨0x01, 0x01, 1, .ro, 0, .none, .opOwner, .nobody, []⟩,  -- STATE
  ⟨0x02, 0x02, 1, .wo, 0, .none, .nobody, .operator, [(1, 2)]⟩,  -- COMMAND
  ⟨0x03, 0x03, 1, .ro, 0, .none, .opOwner, .nobody, []⟩,  -- CREATE_DETAIL
  ⟨0x04, 0x04, 8, .rw, 0, .none, .opOwner, .operator, [(0, 0xFFFFFFFFFFFF)]⟩,  -- DIES
  ⟨0x05, 0x05, 2, .rw, 0, .none, .opOwner, .operator, []⟩,  -- HOST_FN
  ⟨0x06, 0x06, 1, .rw, 2, .none, .opOwner, .operator, [(1, 3)]⟩,  -- LAT_CLASS
  ⟨0x07, 0x07, 1, .rw, 0, .none, .opOwner, .operator, [(0, 1)]⟩,  -- CONFIDENTIAL
  ⟨0x08, 0x08, 4, .ro, 0, .none, .opOwner, .nobody, []⟩,  -- EPOCH
  ⟨0x40, 0x7F, 8, .rw, 0, .none, .opOwner, .operator, []⟩]  -- RANKS_M0_LO–RANKS_M31_HI

/-- Index 0x5201–0x5210. -/
def rows5201 : List Row := [
  ⟨0x01, 0x01, 1, .rw, 0, .none, .opOwner, .owner, [(0, 1)]⟩,  -- ATTEST_EXTENDED
  ⟨0x02, 0x02, 1, .ro, 0, .none, .opOwner, .nobody, []⟩,  -- TDI_STATE
  ⟨0x03, 0x03, 2, .ro, 0xFFFF, .none, .opOwner, .nobody, []⟩,  -- IDE_STREAM
  ⟨0x04, 0x04, 1, .ro, 0, .none, .opOwner, .nobody, []⟩,  -- MEASURED_COUNT
  ⟨0x05, 0x05, 1, .ro, 0, .none, .opOwner, .nobody, []⟩,  -- MEASURE_OVERFLOW
  ⟨0x06, 0x06, 8, .ro, 0, .none, .opOwner, .nobody, []⟩,  -- STALE_DROPS
  ⟨0x07, 0x07, 8, .ro, 0, .none, .opOwner, .nobody, []⟩,  -- FORCED_ENDS
  ⟨0x08, 0x08, 8, .ro, 0, .none, .opOwner, .nobody, []⟩,  -- LINK_AUTH_FAILS
  ⟨0x09, 0x09, 8, .ro, 0, .none, .opOwner, .nobody, []⟩,  -- LAST_EPOCH_END
  ⟨0x0A, 0x0A, 1, .ro, 0, .none, .opOwner, .nobody, []⟩]  -- EPOCH_END_CAUSE

/-- Index 0x6A00–0x6A2F. -/
def rows6A00 : List Row := [
  ⟨0x01, 0x01, 8, .ro, 0, .none, .opOwner, .nobody, []⟩,  -- PORT_ATTACHES
  ⟨0x02, 0x02, 8, .ro, 0, .none, .opOwner, .nobody, []⟩,  -- ITEMS_IN
  ⟨0x03, 0x03, 8, .ro, 0, .none, .opOwner, .nobody, []⟩,  -- ITEMS_OUT
  ⟨0x04, 0x04, 8, .ro, 0, .none, .opOwner, .nobody, []⟩,  -- SHORT_ITEMS
  ⟨0x05, 0x05, 8, .ro, 0, .none, .opOwner, .nobody, []⟩,  -- POISON_WORDS
  ⟨0x06, 0x06, 8, .ro, 0, .none, .opOwner, .nobody, []⟩,  -- ABORTS
  ⟨0x07, 0x07, 8, .ro, 0, .none, .opOwner, .nobody, []⟩,  -- QM_CE
  ⟨0x08, 0x08, 8, .ro, 0, .none, .opOwner, .nobody, []⟩,  -- QM_UE
  ⟨0x09, 0x09, 8, .ro, 0, .none, .opOwner, .nobody, []⟩,  -- DSP_OVF
  ⟨0x0A, 0x0A, 8, .ro, 0, .none, .opOwner, .nobody, []⟩,  -- PORT_BYTES_IN
  ⟨0x0B, 0x0B, 8, .ro, 0, .none, .opOwner, .nobody, []⟩]  -- PORT_BYTES_OUT

/-- Index 0x2400. -/
def rows2400 : List Row := [
  ⟨0x01, 0x01, 2, .rw, 100, .flash, .operator, .operator, [(10, 10000)]⟩,  -- POUNCE_PASS_MS
  ⟨0x02, 0x02, 1, .rw, 1, .flash, .operator, .operator, [(0, 1)]⟩]  -- POUNCE_ACTION

/-- Index 0x6B00–0x6B2F. -/
def rows6B00 : List Row := [
  ⟨0x01, 0x01, 8, .rw, 0, .none, .opOwner, .owner, []⟩,  -- LOAD_ADDR
  ⟨0x02, 0x02, 4, .rw, 0, .none, .opOwner, .owner, []⟩,  -- LOAD_LENGTH
  ⟨0x03, 0x03, 1, .wo, 0, .none, .nobody, .owner, [(1, 1)]⟩,  -- LOAD_COMMAND
  ⟨0x04, 0x04, 1, .ro, 0, .none, .opOwner, .nobody, []⟩,  -- LOAD_STATE
  ⟨0x05, 0x05, 1, .ro, 0, .none, .opOwner, .nobody, []⟩,  -- LOAD_DETAIL
  ⟨0x06, 0x06, 1, .ro, 0, .none, .opOwner, .nobody, []⟩,  -- LOAD_PATH
  ⟨0x07, 0x07, 8, .ro, 0, .none, .opOwner, .nobody, []⟩,  -- LOAD_END_TIME
  ⟨0x08, 0x08, 2, .ro, 0, .none, .opOwner, .nobody, []⟩,  -- REGIONS_LOADED
  ⟨0x09, 0x09, 2, .ro, 0, .none, .opOwner, .nobody, []⟩,  -- REGIONS_HELD
  ⟨0x10, 0x10, 8, .ro, 0, .none, .opOwner, .nobody, []⟩,  -- FRAMES_CHECKED
  ⟨0x11, 0x11, 8, .ro, 0, .none, .opOwner, .nobody, []⟩,  -- POUNCE_PASSES
  ⟨0x12, 0x12, 8, .ro, 0, .none, .opOwner, .nobody, []⟩,  -- SBE_CORRECTED
  ⟨0x13, 0x13, 8, .ro, 0, .none, .opOwner, .nobody, []⟩,  -- MBE_FOUND
  ⟨0x14, 0x14, 2, .ro, 0xFFFF, .none, .opOwner, .nobody, []⟩]  -- LAST_MBE_FRAME

/-- Index 0x2500. -/
def rows2500 : List Row := [
  ⟨0x01, 0x01, 1, .rw, 0, .flash, .operator, .operator, [(0, 1)]⟩,  -- PACKAGE_ROLE
  ⟨0x02, 0x02, 2, .rw, 0, .flash, .operator, .operator, []⟩,  -- PAIR_ID
  ⟨0x03, 0x03, 2, .rw, 10, .flash, .operator, .operator, [(2, 1000)]⟩,  -- ACK_TIMEOUT
  ⟨0x04, 0x04, 1, .rw, 4, .flash, .operator, .operator, [(1, 16)]⟩,  -- REPLAY_LIMIT
  ⟨0x05, 0x05, 2, .rw, 5, .flash, .operator, .operator, [(1, 1000)]⟩,  -- RETRAIN_MS
  ⟨0x06, 0x06, 1, .rw, 48, .flash, .operator, .operator, [(1, 64)]⟩]  -- MIN_LANES

/-- Index 0x2510–0x251F. -/
def rows2510 : List Row := [
  ⟨0x01, 0x01, 1, .rw, 0, .flash, .opLane, .operator, [(0, 3)]⟩,  -- LANE_USE
  ⟨0x02, 0x02, 2, .rw, 0x0304, .flash, .opLane, .operator, []⟩,  -- TX_FFE
  ⟨0x03, 0x03, 1, .ro, 0, .none, .opLane, .nobody, []⟩,  -- GROUP_STATE
  ⟨0x04, 0x04, 1, .ro, 0, .none, .opLane, .nobody, []⟩,  -- WIDTH
  ⟨0x05, 0x05, 8, .ro, 0, .none, .opLane, .nobody, []⟩,  -- LANES_UP
  ⟨0x06, 0x06, 1, .rw, 3, .none, .opLane, .operator, [(0, 3)]⟩,  -- PRBS_PATTERN
  ⟨0x07, 0x07, 8, .rw, 0, .none, .opLane, .operator, []⟩,  -- TEST_MASK
  ⟨0x08, 0x08, 8, .wo, 0, .none, .nobody, .operator, []⟩,  -- INJECT
  ⟨0x09, 0x09, 1, .rw, 0, .none, .opLane, .operator, [(0, 0), (10, 40)]⟩,  -- INJECT_RATE
  ⟨0x10, 0x10, 8, .ro, 0, .none, .opLane, .nobody, []⟩,  -- REPLAYS
  ⟨0x11, 0x11, 8, .ro, 0, .none, .opLane, .nobody, []⟩,  -- RETRAINS
  ⟨0x12, 0x12, 8, .ro, 0, .none, .opLane, .nobody, []⟩,  -- DOWN_EVENTS
  ⟨0x13, 0x13, 8, .ro, 0, .none, .opLane, .nobody, []⟩,  -- FRAMES_TX
  ⟨0x14, 0x14, 8, .ro, 0, .none, .opLane, .nobody, []⟩,  -- CRC_ERRORS
  ⟨0x15, 0x15, 8, .ro, 0, .none, .opLane, .nobody, []⟩,  -- RX_OVERFLOW
  ⟨0x40, 0x7F, 4, .ro, 0, .none, .opLane, .nobody, []⟩,  -- LANE_STATE_0–63
  ⟨0x80, 0xBF, 8, .ro, 0, .none, .opLane, .nobody, []⟩,  -- CODE_ERR_0–63
  ⟨0xC0, 0xFF, 8, .ro, 0, .none, .opLane, .nobody, []⟩]  -- PRBS_ERR_0–63

/-- Index 0x2600–0x2603. -/
def rows2600 : List Row := [
  ⟨0x01, 0x01, 1, .rw, 0, .flash, .operator, .operator, [(0, 1)]⟩,  -- PF_OPERATOR
  ⟨0x02, 0x02, 2, .ro, 0, .none, .operator, .nobody, []⟩,  -- LINK_STATE
  ⟨0x03, 0x03, 8, .ro, 0, .none, .operator, .nobody, []⟩,  -- CQ_FULL_CYCLES
  ⟨0x04, 0x04, 8, .ro, 0, .none, .operator, .nobody, []⟩]  -- FLUSH_FAILS

/-- Index 0x2700. -/
def rows2700 : List Row := [
  ⟨0x01, 0x01, 2, .rw, 12000, .flash, .operator, .operator, [(2000, 12000)]⟩,  -- PKG_BUDGET
  ⟨0x02, 0x02, 2, .rw, 100, .flash, .operator, .operator, [(50, 10000)]⟩,  -- BUDGET_PERIOD
  ⟨0x03, 0x03, 1, .rw, 8, .flash, .operator, .operator, [(1, 64)]⟩,  -- ILIM_WINDOW
  ⟨0x04, 0x04, 1, .rw, 20, .flash, .operator, .operator, [(0, 50)]⟩,  -- HEAVY_GUARD
  ⟨0x05, 0x05, 1, .rw, 95, .flash, .operator, .operator, [(85, 105)]⟩,  -- THROTTLE_C
  ⟨0x06, 0x06, 1, .rw, 95, .flash, .operator, .operator, [(85, 105)]⟩,  -- HBM_THROTTLE_C
  ⟨0x07, 0x07, 2, .rw, 0, .flash, .operator, .operator, [(0, 0), (4000, 24000)]⟩,  -- PAIR_BUDGET
  ⟨0x08, 0x08, 2, .rw, 6000, .flash, .operator, .operator, [(2000, 12000)]⟩,  -- FALLBACK_BUDGET
  ⟨0x09, 0x09, 1, .rw, 40, .flash, .operator, .operator, [(10, 60)]⟩,  -- COOLANT_IN_MAX
  ⟨0x0A, 0x0A, 1, .rw, 65, .flash, .operator, .operator, [(20, 80)]⟩,  -- COOLANT_OUT_MAX
  ⟨0x10, 0x10, 2, .ro, 0x7FFF, .none, .operator, .nobody, []⟩,  -- COOLANT_IN
  ⟨0x11, 0x11, 2, .ro, 0x7FFF, .none, .operator, .nobody, []⟩,  -- COOLANT_OUT
  ⟨0x12, 0x12, 1, .ro, 0, .none, .operator, .nobody, []⟩,  -- FALLBACK_ACTIVE
  ⟨0x13, 0x13, 2, .ro, 0, .none, .opAnyOwner, .nobody, []⟩,  -- PKG_POWER
  ⟨0x14, 0x14, 8, .ro, 0, .none, .operator, .nobody, []⟩]  -- PKG_ENERGY

/-- Index 0x5A01–0x5A10. -/
def rows5A01 : List Row := [
  ⟨0x01, 0x01, 2, .rw, 0, .none, .opOwner, .operator, []⟩,  -- BUDGET_FLOOR
  ⟨0x02, 0x02, 1, .rw, 0, .none, .opOwner, .operator, [(0, 1)]⟩,  -- BUDGET_FIXED
  ⟨0x03, 0x03, 2, .rw, 0, .none, .opOwner, .operator, [(400, 1800)]⟩,  -- MCLK_MAX
  ⟨0x04, 0x04, 2, .ro, 0, .none, .opOwner, .nobody, []⟩,  -- ALLOC
  ⟨0x05, 0x05, 2, .ro, 400, .none, .opOwner, .nobody, []⟩,  -- MCLK_MHZ
  ⟨0x06, 0x06, 2, .ro, 0xFFFF, .none, .opOwner, .nobody, []⟩,  -- THROTTLE_MHZ
  ⟨0x07, 0x07, 8, .ro, 0, .none, .opOwner, .nobody, []⟩,  -- ENERGY_UJ
  ⟨0x08, 0x08, 8, .ro, 0, .none, .opOwner, .nobody, []⟩,  -- STEPS_DOWN
  ⟨0x09, 0x09, 8, .ro, 0, .none, .opOwner, .nobody, []⟩,  -- STEPS_UP
  ⟨0x0A, 0x0A, 8, .ro, 0, .none, .opOwner, .nobody, []⟩,  -- FLOOR_EVENTS
  ⟨0x0B, 0x0B, 8, .ro, 0, .none, .opOwner, .nobody, []⟩]  -- HEAVY_NOTICES

/-- Index 0x6C00–0x6C3F. -/
def rows6C00 : List Row := [
  ⟨0x01, 0x01, 2, .rw, 300, .flash, .opOwner, .operator, [(100, 340)]⟩,  -- ILIM
  ⟨0x02, 0x02, 2, .ro, 0, .none, .opOwner, .nobody, []⟩,  -- VDD_MV
  ⟨0x03, 0x03, 2, .ro, 0, .none, .opOwner, .nobody, []⟩,  -- CURRENT_DA
  ⟨0x04, 0x04, 2, .ro, 0, .none, .opOwner, .nobody, []⟩,  -- TJ_MAX
  ⟨0x05, 0x05, 1, .ro, 0, .none, .opOwner, .nobody, []⟩,  -- DOMAINS_ON
  ⟨0x06, 0x06, 1, .ro, 0, .none, .opOwner, .nobody, []⟩,  -- IN_FLOOR
  ⟨0x07, 0x07, 8, .ro, 0, .none, .opOwner, .nobody, []⟩,  -- BUBBLE_CYCLES
  ⟨0x08, 0x08, 8, .ro, 0, .none, .opOwner, .nobody, []⟩,  -- ALERTS
  ⟨0x09, 0x09, 8, .ro, 0, .none, .opOwner, .nobody, []⟩,  -- TRIPS
  ⟨0x0A, 0x0A, 8, .ro, 0, .none, .opOwner, .nobody, []⟩]  -- DIE_ENERGY

/-- Index 0x1010. -/
def rows1010 : List Row := [
  ⟨0x01, 0x01, 1, .ro, 0x01, .none, .everyone, .nobody, []⟩,  -- LAST_CAUSE
  ⟨0x02, 0x02, 1, .ro, 0, .none, .everyone, .nobody, []⟩,  -- RESET_STATE
  ⟨0x03, 0x03, 4, .ro, 0, .none, .everyone, .nobody, []⟩,  -- WARM_COUNT
  ⟨0x04, 0x04, 2, .wo, 0, .none, .nobody, .operator, [(0x5752, 0x5752)]⟩,  -- WARM_RESET
  ⟨0x05, 0x05, 8, .ro, 0, .none, .operator, .nobody, []⟩]  -- RESET_TIME

/-- Index 0x1000. -/
def rows1000 : List Row := [
  ⟨0x01, 0x01, 8, .ro, 15253766205690702, .fuse, .everyone, .nobody, []⟩,  -- PART_NUMBER
  ⟨0x02, 0x02, 16, .ro, 0, .fuse, .everyone, .nobody, []⟩,  -- SERIAL
  ⟨0x03, 0x03, 4, .ro, 0x4E534816, .fuse, .everyone, .nobody, []⟩,  -- DEVICE_ID
  ⟨0x04, 0x04, 1, .ro, 0, .fuse, .everyone, .nobody, []⟩,  -- SPEED_GRADE
  ⟨0x05, 0x05, 1, .ro, 0, .fuse, .everyone, .nobody, []⟩,  -- REVISION
  ⟨0x06, 0x06, 4, .ro, 0x24248001, .fuse, .everyone, .nobody, []⟩,  -- FUSE_MAP
  ⟨0x07, 0x07, 1, .ro, 0, .fuse, .everyone, .nobody, []⟩,  -- DEBUG_STATE
  ⟨0x08, 0x08, 2, .ro, 0, .fuse, .everyone, .nobody, []⟩,  -- DEBUG_UNLOCKS
  ⟨0x09, 0x09, 2, .ro, 0, .fuse, .everyone, .nobody, []⟩]  -- FW_SVN

/-- Index 0x1020. -/
def rows1020 : List Row := [
  ⟨0x01, 0x01, 1, .ro, 48, .none, .everyone, .nobody, []⟩,  -- ACTIVE_DIE
  ⟨0x02, 0x02, 1, .ro, 0, .none, .everyone, .nobody, []⟩,  -- STANDBY_STATE
  ⟨0x03, 0x03, 4, .ro, 0, .none, .everyone, .nobody, []⟩,  -- HANDOVERS
  ⟨0x04, 0x04, 1, .ro, 0, .none, .everyone, .nobody, []⟩,  -- LAST_FAULT
  ⟨0x05, 0x05, 8, .ro, 0, .none, .everyone, .nobody, []⟩,  -- LAST_HANDOVER_TIME
  ⟨0x06, 0x06, 2, .wo, 0, .none, .nobody, .operator, [(0x4846, 0x4846)]⟩]  -- HANDOVER

/-- Index 0x1030. -/
def rows1030 : List Row := [
  ⟨0x01, 0x01, 8, .ro, 0, .none, .everyone, .nobody, []⟩,  -- TAI_NOW
  ⟨0x02, 0x02, 1, .ro, 0, .none, .everyone, .nobody, []⟩,  -- TIME_STATE
  ⟨0x03, 0x03, 4, .ro, 0, .none, .everyone, .nobody, []⟩,  -- OFFSET_NS
  ⟨0x04, 0x04, 8, .ro, 0, .none, .everyone, .nobody, []⟩,  -- GM_IDENTITY
  ⟨0x05, 0x05, 2, .ro, 0, .none, .everyone, .nobody, []⟩,  -- UTC_OFFSET
  ⟨0x06, 0x06, 1, .rw, 0, .flash, .everyone, .operator, [(0, 127)]⟩,  -- PTP_DOMAIN
  ⟨0x07, 0x07, 1, .rw, 1, .flash, .everyone, .operator, [(1, 3)]⟩,  -- PTP_TRANSPORT
  ⟨0x08, 0x08, 1, .rw, 1, .flash, .everyone, .operator, [(1, 2)]⟩,  -- DELAY_MECH
  ⟨0x09, 0x09, 4, .rw, 1000000, .flash, .everyone, .operator, [(1000, 1000000000)]⟩,  -- STEP_LIMIT
  ⟨0x0A, 0x0A, 4, .ro, 0, .none, .everyone, .nobody, []⟩]  -- TIME_STEPS

/-- Index 0x1040. -/
def rows1040 : List Row := [
  ⟨0x01, 0x01, 1, .ro, 0, .flash, .operator, .nobody, []⟩,  -- SLOT_ACTIVE
  ⟨0x02, 0x02, 1, .ro, 1, .none, .operator, .nobody, []⟩,  -- SLOT_STATE_A
  ⟨0x03, 0x03, 1, .ro, 0, .none, .operator, .nobody, []⟩,  -- SLOT_STATE_B
  ⟨0x04, 0x04, 1, .wo, 0, .none, .nobody, .operator, [(1, 4)]⟩,  -- FW_COMMAND
  ⟨0x05, 0x05, 4, .rw, 0, .none, .operator, .operator, []⟩,  -- FW_OFFSET
  ⟨0x06, 0x06, 64, .wo, 0, .none, .nobody, .operator, []⟩,  -- FW_DATA
  ⟨0x07, 0x07, 1, .ro, 0, .none, .operator, .nobody, []⟩,  -- FW_STATUS
  ⟨0x08, 0x08, 2, .rw, 600, .flash, .operator, .operator, [(60, 65535)]⟩,  -- TRIAL_S
  ⟨0x09, 0x09, 8, .ro, 0, .none, .operator, .nobody, []⟩,  -- ERASE_INCOMPLETE_LO
  ⟨0x0A, 0x0A, 8, .ro, 0, .none, .operator, .nobody, []⟩,  -- ERASE_INCOMPLETE_HI
  ⟨0x0B, 0x0B, 2, .ro, 0, .none, .operator, .nobody, []⟩]  -- PERSIST_PENDING

/-- Index 0x1050. -/
def rows1050 : List Row := [
  ⟨0x01, 0x01, 8, .rw, 0, .flash, .operator, .operator, [(0, 0xFFFFFFFFFFFF)]⟩,  -- MAC_ADDR
  ⟨0x02, 0x02, 16, .rw, 0, .flash, .operator, .operator, []⟩,  -- IP_ADDR
  ⟨0x03, 0x03, 1, .rw, 0, .flash, .operator, .operator, [(0, 128)]⟩,  -- PREFIX_LEN
  ⟨0x04, 0x04, 16, .rw, 0, .flash, .operator, .operator, []⟩,  -- GATEWAY
  ⟨0x05, 0x05, 1, .rw, 1, .flash, .operator, .operator, [(0, 1)]⟩,  -- DHCP_ENABLE
  ⟨0x06, 0x06, 2, .rw, 48160, .flash, .operator, .operator, []⟩,  -- UDP_PORT
  ⟨0x07, 0x07, 18, .rw, 0, .flash, .operator, .operator, []⟩]  -- EVENT_COLLECTOR

/-- Index 0x1060. -/
def rows1060 : List Row := [
  ⟨0x01, 0x01, 4, .rw, 115200, .flash, .operator, .operator, [(9600, 3000000)]⟩,  -- UART_BAUD
  ⟨0x02, 0x02, 2, .rw, 0, .none, .operator, .operator, []⟩,  -- XFER_BUS
  ⟨0x03, 0x03, 64, .wo, 0, .none, .nobody, .operator, []⟩,  -- XFER_TX
  ⟨0x04, 0x04, 2, .wo, 0, .none, .nobody, .operator, []⟩,  -- XFER_CTRL
  ⟨0x05, 0x05, 64, .ro, 0, .none, .operator, .nobody, []⟩,  -- XFER_RX
  ⟨0x06, 0x06, 1, .ro, 0, .none, .operator, .nobody, []⟩,  -- XFER_STATUS
  ⟨0x07, 0x07, 1, .rw, 0x32, .flash, .operator, .operator, [(0, 127)]⟩,  -- SMBUS_ADDR
  ⟨0x08, 0x08, 4, .ro, 0x0000F0A7, .fuse, .operator, .nobody, []⟩]  -- MCTP_IANA

/-- Index 0x1070. -/
def rows1070 : List Row := [
  ⟨0x01, 0x01, 32, .wo, 0, .flash, .nobody, .operator, []⟩,  -- OPERATOR_KEY
  ⟨0x02, 0x02, 8, .ro, 0, .none, .operator, .nobody, []⟩,  -- LAST_COUNTER
  ⟨0x03, 0x03, 8, .ro, 0, .none, .operator, .nobody, []⟩,  -- AUTH_FAILS
  ⟨0x04, 0x04, 1, .ro, 0, .none, .everyone, .nobody, []⟩,  -- SELF_PARTITION
  ⟨0x05, 0x05, 1, .rw, 1, .flash, .operator, .operator, [(0, 1)]⟩,  -- MCTP_OPERATOR
  ⟨0x06, 0x06, 1, .rw, 1, .flash, .operator, .operator, [(0, 1)]⟩,  -- UART_OPERATOR
  ⟨0x07, 0x07, 32, .ro, 0, .none, .uartAny, .nobody, []⟩,  -- VENDOR_CHALLENGE
  ⟨0x08, 0x08, 48, .wo, 0, .none, .nobody, .uartAny, []⟩,  -- VENDOR_RESPONSE_LO
  ⟨0x09, 0x09, 48, .wo, 0, .none, .nobody, .uartAny, []⟩,  -- VENDOR_RESPONSE_HI
  ⟨0x0A, 0x0A, 1, .wo, 0, .none, .nobody, .vendor, [(0, 1)]⟩]  -- DEBUG_UNLOCK

/-- Index 0x1080. -/
def rows1080 : List Row := [
  ⟨0x01, 0x01, 4, .ro, 0, .none, .operator, .nobody, []⟩,  -- EVENT_LAST
  ⟨0x02, 0x02, 4, .rw, 0, .none, .operator, .operator, []⟩,  -- EVENT_SELECT
  ⟨0x03, 0x03, 32, .ro, 0, .none, .operator, .nobody, []⟩]  -- EVENT_RECORD

/-- Index 0x2800–0x280F. -/
def rows2800 : List Row := [
  ⟨0x01, 0x01, 4, .rw, 1000, .flash, .opMember, .operator, [(10, 10000000)]⟩,  -- GROUP_LIMIT
  ⟨0x02, 0x02, 1, .ro, 0, .none, .opMember, .nobody, []⟩,  -- MEMBER_COUNT
  ⟨0x03, 0x03, 1, .ro, 0xFF, .none, .opMember, .nobody, []⟩,  -- SELF_MEMBER
  ⟨0x10, 0x1F, 1, .rw, 0, .flash, .opSelfMember, .operator, []⟩]  -- MEMBER0–MEMBER15

/-- Index 0x5B01–0x5B10. -/
def rows5B01 : List Row := [
  ⟨0x01, 0x01, 4, .rw, 1000000, .none, .opOwner, .opOwner, [(1, 4000000000)]⟩,  -- RUN_LIMIT
  ⟨0x02, 0x02, 4, .rw, 10000, .none, .opOwner, .opOwner, [(1, 4000000000)]⟩]  -- BRIM_LIMIT

/-- Index 0x5901–0x5910, R342. -/
def rows5901 : List Row := [
  ⟨0x01, 0x01, 2, .rw, 0xFFFF, .none, .opOwner, .operator, []⟩]  -- PAIR_GROUPS

/-- The index ranges of R416 with their rows. -/
def indexTable : List (Nat × Nat × List Row) := [
  (0x1000, 0x1000, rows1000),
  (0x1010, 0x1010, rows1010),
  (0x1020, 0x1020, rows1020),
  (0x1030, 0x1030, rows1030),
  (0x1040, 0x1040, rows1040),
  (0x1050, 0x1050, rows1050),
  (0x1060, 0x1060, rows1060),
  (0x1070, 0x1070, rows1070),
  (0x1080, 0x1080, rows1080),
  (0x2200, 0x2200, rows2200),
  (0x2300, 0x2300, rows2300),
  (0x2320, 0x232F, rows2320),
  (0x2400, 0x2400, rows2400),
  (0x2500, 0x2500, rows2500),
  (0x2510, 0x251F, rows2510),
  (0x2600, 0x2603, rows2600),
  (0x2700, 0x2700, rows2700),
  (0x2800, 0x280F, rows2800),
  (0x5101, 0x5110, rows5101),
  (0x5201, 0x5210, rows5201),
  (0x5401, 0x5410, rows5401),
  (0x5501, 0x5510, rows5501),
  (0x5601, 0x5610, rows5601),
  (0x5701, 0x5710, rows5701),
  (0x5801, 0x5810, rows5801),
  (0x5901, 0x5910, rows5901),
  (0x5A01, 0x5A10, rows5A01),
  (0x5B01, 0x5B10, rows5B01),
  (0x6200, 0x622F, rows6200),
  (0x6300, 0x632F, rows6300),
  (0x6400, 0x647F, rows6400),
  (0x6500, 0x652F, rows6500),
  (0x6600, 0x663F, rows6600),
  (0x6700, 0x671F, rows6700),
  (0x6800, 0x682F, rows6800),
  (0x6900, 0x692F, rows6900),
  (0x6A00, 0x6A2F, rows6A00),
  (0x6B00, 0x6B2F, rows6B00),
  (0x6C00, 0x6C3F, rows6C00)]

/-- The key of a register: index × 256 + subindex. -/
def key (idx sub : Nat) : Nat := idx * 256 + sub

/-- The rows of an index; none where R416 gives the index no range. -/
def rowsOf (idx : Nat) : List Row :=
  match indexTable.find? (fun e => e.1 ≤ idx && idx ≤ e.2.1) with
  | some e => e.2.2
  | none => []

/-- Whether the map of R416 holds the index. -/
def indexDefined (idx : Nat) : Bool := indexTable.any (fun e => e.1 ≤ idx && idx ≤ e.2.1)

/-- The row of an entry. -/
def rowOf (k : Nat) : Option Row := (rowsOf (k / 256)).find? (fun r => r.lo ≤ k % 256 && k % 256 ≤ r.hi)

/-- The highest subindex defined at an index, which subindex 0 reads (R397). -/
def highestSub (idx : Nat) : Nat := maxL ((rowsOf idx).map Row.hi)

/-- The default of a register: its table's, but for the values the table gives in words (LANE_USE 1 for groups 6, 7, 14
and 15, R326; MCLK_MAX the grade limit, R12) and the fuses of one part (R417). -/
def regDefault (k : Nat) : Nat :=
  if (0x5A01 ≤ k / 256 ∧ k / 256 ≤ 0x5A10 ∧ k % 256 = 3) then Config.gradeLimit
  else if k = key 0x1000 2 then Config.serial
  else if k = key 0x1000 4 then Config.speedGrade
  else if k = key 0x1000 5 then Config.revision
  else if k = key 0x1000 9 then Config.fuseSvn
  else if k = key 0x1050 1 then Config.macAddr
  else if k = key 0x2516 1 ∨ k = key 0x2517 1 ∨ k = key 0x251E 1 ∨ k = key 0x251F 1 then 1
  else match rowOf k with
    | some r => r.dflt
    | none => 0

/-- The width in bytes of a register, 8 where no row names it; OPERATOR_KEY holds one byte more, which marks it set (R404). -/
def regLen (k : Nat) : Nat :=
  if k = key 0x1070 1 then 33 else
  match rowOf k with
  | some r => r.len
  | none => 8

/-- Whether a register's committed value is in flash (R400). -/
def isFlash (k : Nat) : Bool :=
  match rowOf k with
  | some r => r.per == .flash
  | none => false

/-- Whether a register is a fuse (R400: kept by every reset). -/
def isFuse (k : Nat) : Bool :=
  match rowOf k with
  | some r => r.per == .fuse
  | none => false

/-- Whether the entry holds a setting that is written through the dictionary (R382: kept by a warm reset). -/
def isRw (k : Nat) : Bool :=
  match rowOf k with
  | some r => r.acc == .rw
  | none => false

end Sys2Proof.Machine
end

