-- ==== Sys2Proof/Machine/State.lean ====
section
/-! DEFINITION. The state of the device: plain data, one field for each piece of state the spec gives it.  Large
collections are sparse tables (Machine/Sparse.lean), keyed by place number; every register of the object dictionary stands
in `dict`, keyed by index × 256 + subindex. -/

namespace Sys2Proof.Machine

/-- Why the device stops with a fault.  No meaning of this model raises one: every event the spec describes is a next
state. -/
inductive Fault where
  /-- Raised by nobody; the type is inhabited so that claims can name it. Safe. -/
  | none
  deriving DecidableEq, Repr

/-- Why a command has no meaning. -/
inductive Refusal where
  /-- Raised by the arm of a command that this model does not give a meaning. Safe: no next state is claimed. -/
  | notModelled (mnemonic : String)
  deriving DecidableEq, Repr

/-- A sparse table (Machine/Sparse.lean). -/
abbrev Sparse (α : Type) := List (Nat × α)

/-! ### Time (R405–R407) -/

/-- The time counter that every die copies, and what the milliner knows of the time transmitter. -/
structure Clock where
  /-- TAI nanoseconds with 32 fraction bits (R405). -/
  tai : Nat
  /-- What each band cycle adds (R405). -/
  incr : Nat
  /-- The frame counter of every switch: band cycles modulo 256 (R181), and the cycles since reset, against which a switch
  counts a hold of R184. -/
  frame : Nat
  cycles : Nat
  /-- The Sync being processed: sequence number, receive time and, once known, origin time plus correction, in ns (R406). -/
  syncSeq : Nat
  syncAt : Nat
  syncWait : Bool
  /-- When the last delay request left, and its sequence number (R406). -/
  reqAt : Nat
  reqSeq : Nat
  /-- Mean path delay in ns, and whether one is known (R406). -/
  delay : Nat
  delayKnown : Bool
  /-- Last measured offset of the counter from the time transmitter in ns, and origin and receive times of the last Sync. -/
  offset : Int
  t1 : Nat
  t2 : Nat
  syncKnown : Bool
  /-- The counter has locked, and so been stepped to TAI, since the cold reset (R407). -/
  locked : Bool
  deriving DecidableEq, Repr

/-! ### The dictionary, the milliner and its flash (R392–R417) -/

/-- One dictionary access, as the engine of R399 takes it. -/
structure Access where
  via : Transport
  write : Bool
  entry : Nat
  value : List Byte
  /-- Whether the standby has acknowledged its mirror record (R393). -/
  acked : Bool
  /-- When the device received it, in ns, once it waits in the engine (R272). -/
  at_ : Nat
  deriving DecidableEq, Repr

/-- One image slot of a flash (R409). -/
structure Slot where
  /-- The bytes programmed, by offset; an erased byte reads 0xFF (log 21). -/
  image : Sparse Byte
  /-- 0 empty, 1 valid, 2 signature failed, 3 erase incomplete, 4 in trial (R417). -/
  state : Nat
  /-- The image as delivered, whose signature verifies (log 21). -/
  factory : Bool
  deriving DecidableEq, Repr

/-- One milliner's flash (R408). -/
structure Flash where
  slotA : Slot
  slotB : Slot
  /-- SLOT_ACTIVE of the control records: 0 A, 1 B. -/
  active : Nat
  /-- The slot to be tried at the next cold reset, and the slot to return to after a failed trial (R409). -/
  trialNext : Option Nat
  trialOf : Option Nat
  /-- Sectors with an erase-intent record and no erase-done record yet, in erase order (R410). -/
  erasing : List Nat
  /-- Sectors marked erase incomplete (R410), as a mask. -/
  incomplete : Nat
  /-- The settings journal: committed values of entries with persistence flash (R400). -/
  journal : Sparse Nat
  deriving DecidableEq, Repr

/-- One operator event (R414). -/
structure Event where
  time : Nat
  seq : Nat
  code : Nat
  subject : Nat
  detail : Nat
  /-- Its reserved bits [95:0], which nothing determines (R2). -/
  reserved : Nat
  deriving DecidableEq, Repr

/-- The milliners (R392–R396, R409–R413). -/
structure Mill where
  /-- The active milliner has faulted and the standby has not yet taken over. -/
  faulted : Bool
  /-- The active core has halted (R394). -/
  halted : Bool
  /-- The former active milliner is rebooting (R396). -/
  rebooting : Bool
  /-- Times of the faults of P00's and P15's milliner, newest first, in ns (R396). -/
  faults0 : List Nat
  faults15 : List Nat
  /-- P00's or P15's milliner is out of service until the next cold reset (R396). -/
  out0 : Bool
  out15 : Bool
  /-- Numbered mirror records: sent, received and acknowledged by the standby (R393). -/
  mirrorSent : Nat
  mirrorAcked : Nat
  /-- Accesses waiting in the dictionary engine, in order of arrival; the first waits for its acknowledgement (R393, R399). -/
  queue : List Access
  /-- The flashes of P00 and P15. -/
  flash0 : Flash
  flash15 : Flash
  /-- Writes of flash settings not yet committed, oldest first: key and value (R400). -/
  unsaved : List (Nat × Nat)
  /-- The event log, oldest first, at most 24,576 records (R408, R414). -/
  events : List Event
  /-- The last 16 responses over UDP: counter, tag and datagram, newest first (R402). -/
  responses : List (Nat × Nat × List Byte)
  /-- The UART carries the vendor service role (R404), the challenge it was given, and the signature's r. -/
  vendor : Bool
  challenge : Nat
  /-- A debug unlock ordered for the next cold reset (R404). -/
  unlockNext : Bool
  /-- Endpoint identifiers of the MCTP bindings (R403), keyed 0 SMBus, 1 I3C, 2 + n PF 0 of Hn. -/
  eids : Sparse Nat
  /-- A DHCPv4 lease: address, prefix length and gateway (R417). -/
  lease : Option (Nat × Nat × Nat)
  /-- SYS_REFCLK is out of limits and the synthesisers run from the crystal (R412). -/
  refFault : Bool
  /-- Both image slots failed at the last boot (R409). -/
  noImage : Bool
  deriving DecidableEq, Repr

/-! ### Reset (R381–R388) -/

/-- The reset controller. -/
structure ResetCtl where
  /-- The reset in progress is a warm one. -/
  warm : Bool
  /-- The step of R385 in progress, 1–5; 0 when no reset is in progress. -/
  step : Nat
  /-- Levels of PORST_N and WRST_N. -/
  porst : Bool
  wrst : Bool
  /-- When WRST_N fell, in ns (R387), and when a dictionary warm reset is due (R388). -/
  wrstAt : Nat
  due : Option Nat
  /-- Step 1 has ended and step 2 is held (R387, R412). -/
  held : Bool
  /-- Host ports reset during a warm reset, applied when step 5 ends (R386). -/
  hotDue : List Nat
  deriving DecidableEq, Repr

/-! ### SPDM, IDE and TDISP (R257–R261) -/

/-- One secured session. -/
structure Session where
  id : Nat
  box : Mailbox
  /-- FINISH has completed its establishment. -/
  secured : Bool
  secret : Nat
  /-- Key updates so far. -/
  updates : Nat
  /-- Time of its last traffic, in ns. -/
  last : Nat
  /-- The partition whose TDI it locked. -/
  tdi : Option Nat
  deriving DecidableEq, Repr

/-- The IDE stream of a virtual function (R258). -/
structure Ide where
  stream : Nat
  /-- Keys programmed in key sets 0 and 1. -/
  key0 : Option Nat
  key1 : Option Nat
  /-- The key set in use. -/
  live : Option Nat
  deriving DecidableEq, Repr

/-- The security side of a partition (R264–R271). -/
structure PartSec where
  /-- Draw number of the current key pair; none when no key exists (R264). -/
  keys : Option Nat
  /-- An epoch end in progress: its cause and the time it began in ns (R267–R270). -/
  ending : Option (Nat × Nat)
  /-- The end has completed and ranks and SRAM are being scrubbed or initialised (R270). -/
  scrubbing : Bool
  /-- Measured items: address, length, digest, in order of first measurement (R263). -/
  measured : List (Nat × Nat × List Byte)
  /-- Dies and SHA-384 digests of the images loaded into its brims, in order of load (R262 block 8). -/
  images : List (Nat × List Byte)
  /-- Transfers sent over the pair link under its key (R265). -/
  transfers : Nat
  deriving DecidableEq, Repr

/-! ### Programs, runs and commands (R76–R127) -/

/-- A loaded program (R113, R115). -/
structure Program where
  handle : Nat
  header : Nat
  descs : List Nat
  /-- SHA-384 of the header and descriptors as copied (R262 blocks 0x10–0x4F). -/
  digest : List Byte
  deriving DecidableEq, Repr

/-- What stands at a queue or a link of a run: nothing yet, an item with the byte spans of it that read as poisoned and
whether it was closed early, or a skip marker (R97, R111, R132). -/
inductive QState where
  | empty
  | item (bytes : List Byte) (bad : List (Nat × Nat)) (closed : Bool)
  | marker
  deriving DecidableEq, Repr

/-- Where a command stands: waiting for its dependencies, issued, computed (every item pushed), finished with its record
held back, or complete. -/
inductive Phase where
  | waiting | issued | computed | recording | complete
  deriving DecidableEq, Repr

/-- One part of a command: its die, its range of work units, and what became of it (R6, R154–R156). -/
structure Part where
  die : Nat
  first : Nat
  count : Nat
  /-- Failure codes that befell the part. -/
  fails : List Nat
  /-- The part has finished its work, its writes have settled and its comparisons have ended. -/
  committed : Bool
  deriving DecidableEq, Repr

/-- One end of a command: stage × 8 + slot.  For an input, the item's bytes as delivered so far; for an output, the item as
produced. -/
structure End where
  id : Nat
  data : List Byte
  bad : List (Nat × Nat)
  /-- An input whose item has wholly arrived, or an output that has been produced. -/
  full : Bool
  deriving DecidableEq, Repr

/-- The stream engine's side of one end of one part (R130–R137, R145). -/
structure Stream where
  /-- The end it serves (128 more for what a duplicate or a replay reads, R230, R236), and the die of its part. -/
  id : Nat
  die : Nat
  /-- The engine that issues its transfers, and where the bytes rest: 0 partition HBM, 1 host memory, 2 a resident copy on
  die `src`, 3 the buffer itself, of an internal queue (R128, R133, R160). -/
  eng : Nat
  home : Nat
  src : Nat
  /-- Its transfers in order: address, first byte of the item, count (R133). -/
  moves : List (Nat × Nat × Nat)
  /-- Transfers issued, and those that have arrived or settled, by their places in `moves` (R134). -/
  issued : Nat
  came : List Nat
  /-- Bytes popped by the consumer or pushed by the producer, and those of them in the window in progress (R131, R145). -/
  popped : Nat
  taken : Nat
  /-- j of R130, and the outstanding limit of R134. -/
  log2 : Nat
  limit : Nat
  /-- The stores that hold the buffer: a mask of tiles, 0 the die store; and whether it has been given its space (R129). -/
  tiles : Nat
  placed : Bool
  /-- j of the HBM buffer that stands behind it, of an internal queue (R129). -/
  back : Option Nat
  /-- The estimate r of R145 in bytes per window, as rateNum ÷ 4^rateExp, and complete windows since the last event that makes
  it invalid. -/
  rateNum : Nat
  rateExp : Nat
  windows : Nat
  /-- The first pop has happened; the window in progress began after the last such event. -/
  started : Bool
  counted : Bool
  deriving DecidableEq, Repr

/-- One block of a work unit on a tile, or one vector unit's pass (R40, R50, R63): where it stands in its operation, and what the
counters of R62 and R75 take from it. -/
structure Block where
  array : Bool
  /-- The stage of its command, and whether that stage's stationary operand is the output of an earlier matrix stage (R53). -/
  stage : Nat
  dependent : Bool
  /-- Of a matrix block: its m-block within the problem, its column group and K chunk, the feeder rows it uses, the bytes of its
  stationary values, and whether it is the last pass of its chunk (R41, R50, R57). -/
  mblock : Nat
  col : Nat
  cols : Nat
  chunk : Nat
  rows : Nat
  load : Nat
  sums : Bool
  macs : Nat
  cycles : Nat
  /-- It begins, or ends, a column group (R49), which takes a half of the column accumulators. -/
  first : Bool
  last : Bool
  half : Bool
  packed : Bool
  /-- The drain that follows it, in cycles (R45, R54). -/
  drain : Nat
  lane : Nat
  special : Nat
  /-- A vector pass that is a row operation (R69). -/
  rowOp : Bool
  deriving DecidableEq, Repr

/-- A work unit on a tile (R154, R156, R157): the blocks still to be streamed. -/
structure Work where
  p : Nat
  run : Nat
  cmd : Nat
  die : Nat
  tile : Nat
  unit : Nat
  /-- A duplicate of R230, or a unit of a replay (R236). -/
  dup : Bool
  replay : Bool
  plan : List Block
  /-- Blocks begun, and the block in progress: one that has begun and not yet ended (R60). -/
  begun : Nat
  active : Option Block
  /-- The tile's advance count at the end of its last release from queue 0 (R53). -/
  released : Nat
  /-- Its stationary values stood in the tile's source when the block before began (R48). -/
  staged : Bool
  deriving DecidableEq, Repr

/-- A half of a tile's column accumulators in use (R49, R73): the work unit and column group that hold it, the entries of that
group's columns after its last chunk so far, by m and then n, as FP32 or INT32 codes, and whether the group is complete. -/
structure Half where
  p : Nat
  run : Nat
  cmd : Nat
  unit : Nat
  stage : Nat
  mblock : Nat
  col : Nat
  copy : Bool
  entries : List Nat
  done : Bool
  deriving DecidableEq, Repr

/-- Stationary values in, or on their way into, one of the two buffers of the cells (R47): the work unit and its block, whether
the vector unit delivers them, else tile store, and their bytes. -/
structure Stationary where
  p : Nat
  run : Nat
  cmd : Nat
  unit : Nat
  block : Nat
  lanes : Bool
  bytes : Nat
  deriving DecidableEq, Repr

/-- The array of a tile (R42, R47, R49). -/
structure TileArray where
  /-- Cycles in which the array has advanced, those of its last block, and when that block began, in ns. -/
  clock : Nat
  last : Nat
  at_ : Nat
  /-- What the cells compute from, and what the load engine writes behind the switching wave (R47). -/
  current : Option Stationary
  loading : Option Stationary
  /-- The feeder queues, row by row, as the last block began: the B codes that wait, at most 32 (R42). -/
  feed : List (List Nat)
  /-- The array has stopped before a column group for want of a half (R73). -/
  stopped : Bool
  halves : List Half
  deriving DecidableEq, Repr

/-- A sampled unit (R229–R231): its tile and its check tile (die × 8 + tile). -/
structure Sample where
  unit : Nat
  tile : Nat
  check : Nat
  deriving DecidableEq, Repr

/-- A command of a run in flight. -/
structure Cmd where
  /-- Its descriptor index (a fused head's stands for its stages). -/
  idx : Nat
  phase : Phase
  /-- The outcome when it is not chosen from parts: SKIPPED, REFUSED, DONE of a command without parts, or a free status. -/
  fixed : Option Nat
  detail : Nat
  parts : List Part
  /-- The parts of a replay, one for each original part in the same order, or none (R236). -/
  replays : List Part
  ends : List End
  streams : List Stream
  /-- Counter value to be written at completion (R94, R102). -/
  ctr : Option Nat
  errQid : Nat
  start : Nat
  /-- Issue number over all the partition's commands, the band cycle of its issue (R151), and when its token was released, in
  ns (R172). -/
  order : Nat
  cycle : Nat
  freed : Nat
  /-- Stall cycles by cause 0–8 (R7, R140), energy in nJ (R376). -/
  stalls : List Nat
  energy : Nat
  /-- The heavy-phase hint has been given (R173). -/
  heavy : Bool
  /-- Units whose comparison has not ended (R229–R232). -/
  samples : List Sample
  /-- The item digests wait for the partner's, since this time in ns (R244). -/
  mirror : Option Nat
  /-- The fabric port that a BRIM_STAGE part holds (R291). -/
  port : Option Nat
  /-- When its last settle count returned, or its work ended when it writes nothing, in ns; 0 before (R108 END_TIME). -/
  settledAt : Nat
  /-- Work units that were discarded with no tile left to run them (R74, R233). -/
  lost : List Nat
  deriving DecidableEq, Repr

/-- A run in flight (R94, R103, R107). -/
structure Run where
  id : Nat
  handle : Nat
  seq : Nat
  seed : Nat
  ctrs : List Nat
  limit : Nat
  start : Nat
  binds : List Nat
  cmds : List Cmd
  queues : Sparse QState
  /-- Affinity sets by tag, as masks of dies (R171). -/
  affinity : Sparse Nat
  /-- A case of R127 was met: its statuses are free (R126). -/
  undef : Bool
  /-- Case 6 of R127 was met: every output is free. -/
  loose : Bool
  /-- The bytes concerned (R126, R127), by kind of binding, address and length. -/
  concern : List (Nat × Nat × Nat)
  /-- Its run record has been produced and is held back. -/
  recording : Bool
  /-- Queue of the first end of its commands that failed, 0x3FF when none (R108 ERR_QID). -/
  errQid : Nat
  deriving DecidableEq, Repr

/-- A resident copy (R160–R162): the region, the die, the item bytes it holds and which spans of them, the decayed read
counts by die with the counts of the present period, its ages in periods, and the programs whose runs used it. -/
structure Copy where
  addr : Nat
  len : Nat
  kind : Nat
  die : Nat
  bytes : List Byte
  spans : List (Nat × Nat)
  reads : Sparse Nat
  fresh : Sparse Nat
  unread : Nat
  held : Nat
  lastRead : Nat
  handles : List Nat
  /-- Discarded by REFRESH or a committed move, to be freed when no part is bound to it (R164, R166); by a move. -/
  dropped : Bool
  moved : Bool
  /-- Commands whose parts are bound to it: run and command (R164). -/
  bound : List (Nat × Nat)
  deriving DecidableEq, Repr

/-- A migration of a resident copy in progress (R164): the space reserved at its destination, its transfers whose data have not
arrived, and whether one read poisoned. -/
structure Migration where
  addr : Nat
  len : Nat
  kind : Nat
  src : Nat
  dst : Nat
  move : Bool
  digest : Nat
  size : Nat
  left : Nat
  bad : Bool
  deriving DecidableEq, Repr

/-- The HBM buffer of an internal queue: run, queue, the stack it stands on and, while it moves, the stack it drains with how many
of the queue's transfers went there (R129, R163, R165). -/
structure HbmBuf where
  run : Nat
  qid : Nat
  stack : Nat
  old : Option Nat
  upto : Nat
  deriving DecidableEq, Repr

/-- A command's fire-forward writes (R197, R198): how many are unresolved, the dies that issued some and the dies of those
that failed, the highest failure, the issue time and queue of the first that failed, and whether the command completed. -/
structure FfTrack where
  runSeq : Nat
  cmdSeq : Nat
  desc : Nat
  opened : Nat
  used : Nat
  bad : Nat
  status : Nat
  firstAt : Nat
  qid : Nat
  completed : Bool
  /-- When the last of them was resolved, in ns (R198 END_TIME). -/
  last : Nat
  deriving DecidableEq, Repr

/-- The sequencer and blocker of a partition (R101, R113–R116, R150–R173). -/
structure PartRun where
  programs : List Program
  nextHandle : Nat
  /-- A load or run has been taken since create (R207, R251). -/
  used : Bool
  /-- The load in progress and its fetch time (R113). -/
  loading : Option (Nat × Nat)
  /-- Unload requests: request, fetch time, and the runs it waits for (R116). -/
  unloads : List (Nat × Nat × List Nat)
  /-- Unloads whose earlier runs have all ended, in the order in which the last of them ended: request and fetch time
  (R116). -/
  idle : List (Nat × Nat)
  /-- Run requests refused whose records are still due: run and handle (R5, R116). -/
  turned : List (Nat × Nat)
  /-- Run requests fetched and not yet checked: request and fetch time. -/
  fetched : List (Nat × Nat)
  nextRun : Nat
  runs : List Run
  nextOrder : Nat
  /-- Which command waits for which, and the samples in a row that showed it (R150, R151; log 38). -/
  waits : List (((Nat × Nat) × (Nat × Nat)) × Nat)
  copies : List Copy
  migs : List Migration
  bufs : List HbmBuf
  ff : List FfTrack
  deriving DecidableEq, Repr

/-! ### Host ports (R343–R356) -/

/-- What a record reports, so that writing it can complete it (R92, R109, R114). -/
inductive RecTag where
  | load
  | unload
  | refusal
  | cmd (run cmd : Nat)
  | run (run : Nat)
  deriving DecidableEq, Repr

/-- A record on its way to the completion ring, with the entries written before it (R348). -/
structure Rec where
  bytes : List Byte
  psa : List Byte
  map : List Byte
  irq : Bool
  tag : RecTag
  deriving DecidableEq, Repr

/-- The registers of a virtual function, its dictionary window and its MSI-X state (R346, R352, R354); PF 0 uses the last
two only. -/
structure FnState where
  sqBase : Nat
  sqSize : Nat
  sqTail : Nat
  sqHead : Nat
  cqBase : Nat
  cqSize : Nat
  cqHead : Nat
  cqTail : Nat
  psaBase : Nat
  lateHead : Nat
  lateTail : Nat
  /-- Slots that hold a record host software has not freed, in the completion ring and the late-error queue (R348). -/
  cqUsed : Nat
  lateUsed : Nat
  enable : Bool
  sqError : Bool
  cqError : Bool
  badWrite : Bool
  configError : Bool
  recordsLost : Bool
  /-- Records written since ENABLE, and late-error records: the pass of each gives its PHASE (R349). -/
  written : Nat
  lateWritten : Nat
  /-- Records held back while the ring is full or stopped, oldest first (R348, R351). -/
  held : List Rec
  /-- Records whose flush read is outstanding, oldest first (R351). -/
  flushes : Nat
  /-- An entry fetched and not yet taken: fetching has stopped at it (R347). -/
  stopped : Option Desc
  /-- BUSY, status and length of the window, and DATA (R352). -/
  busy : Bool
  wstatus : Nat
  wlen : Nat
  data : Nat
  /-- MSI-X vectors masked and pending, as masks (R354); every vector is masked at reset (log 47). -/
  mask : Nat
  pend : Nat
  ide : Ide
  deriving DecidableEq, Repr

/-- A host port (R343, R344, R355). -/
structure PortState where
  vfEnable : Bool
  numVfs : Nat
  perst : Bool
  /-- The port answers configuration and BAR requests normally (R385 step 5). -/
  released : Bool
  deriving DecidableEq, Repr

/-- What a refusal of R5 will do 20 µs after receipt or issue. -/
inductive Refused where
  | access (a : Access)
  | record (f : Fn) (r : Rec)
  | loadRefused (f : Fn) (r : Rec) (addr : Nat) (result : List Byte)
  | command (c : CmdRef)
  deriving DecidableEq, Repr

/-- What leaves the device at a pin, a link or a window. -/
inductive Out where
  /-- The answer to a dictionary access (R399): done, or refused. -/
  | answer (via : Transport) (entry : Nat) (done : Bool) (value : List Byte)
  /-- A datagram from UDP_PORT: a response, or an OP 3 event notice (R401, R414). -/
  | datagram (bytes : List Byte)
  /-- A COBS frame on the UART (R413). -/
  | uart (bytes : List Byte)
  /-- An MCTP control or dictionary response (R403). -/
  | mctp (b : Binding) (bytes : List Byte)
  /-- An SPDM, IDE_KM or TDISP response: its name and the bytes the spec gives it (R257–R262). -/
  | spdm (box : Mailbox) (name : String) (bytes : List Byte)
  /-- An MSI-X message (R354). -/
  | msix (f : Fn) (vec : Nat)
  /-- A gratuitous ARP and an unsolicited neighbour advertisement (R395). -/
  | announce
  /-- A PTP message sent: delay request, peer delay request, or NOT_SUPPORTED (R406). -/
  | ptp (name : String) (seq : Nat)
  /-- An SPI or I2C transfer started: bus word, bytes sent, count to receive (R413). -/
  | xfer (bus : Nat) (tx : List Byte) (rx : Nat)
  /-- A packet injected onto the bands: the sidebands of its units, header unit and data (R180, R187). -/
  | packet (sides : List Nat) (header : Nat) (data : List Byte)
  /-- A packet carried on a die's local band: its direction and stop-to-stop hops (R179). -/
  | localPacket (die : Nat) (down : Bool) (hops : Nat) (header : Nat) (data : List Byte)
  /-- A starvation request sent on a band, ply and direction, with the starving die in SRC_DIE (R184). -/
  | starve (die band ply : Nat) (down : Bool)
  /-- The broadcast of a command's micro-operations to the die sequencers of a mask of dies (R101). -/
  | microOps (c : CmdRef) (dies : Nat)
  /-- A host memory read requested by a host-port engine: function, address, bytes (R350). -/
  | hostRead (f : Fn) (addr len : Nat)
  /-- CFG_DONE for one cycle, with CFG_ERR_N low on failure (R310). -/
  | cfgDone (ok : Bool)
  /-- TP_DONE with TP_STATUS (R312). -/
  | tpDone (die status : Nat)
  /-- ABORT on every slot of a port for one fabric cycle (R293). -/
  | abort (die port : Nat)
  /-- A frame on a pair-link group: transfer frames with their packet, control frames without (R332). -/
  | frame (group : Nat) (head packet : List Byte)
  /-- A voltage commanded over AVSBus, in mV (R364). -/
  | avs (die mv : Nat)
  deriving DecidableEq, Repr


/-! ### Brims and their configuration (R276–R324) -/

/-- A DSP cell (R283–R286): its sequence of instruction words, accumulator, next entry, whether it runs, OVF, executions left
of a REPEAT, and the values on their way to P with PVALID, newest first. -/
structure Dsp where
  seq : List Nat
  acc : Int
  entry : Nat
  busy : Bool
  ovf : Bool
  rep : Nat
  pipe : List (Int × Bool)
  deriving DecidableEq, Repr

/-- The live state of a user clock region (R277, R280, R281, R305): its flip-flops (2 × cell + half) and carry bits by cell, the values
of its 1,024 boundary outputs and those from before its latches last captured, the time it sees in ns, and the phase of its clock. -/
structure Region where
  flops : Nat
  carry : Nat
  edge : Nat
  was : Nat
  tai : Nat
  phase : Nat
  deriving DecidableEq, Repr

/-- A queue memory (R288): its words by place; in FIFO mode, words popped and pushed so far, and by word not yet seen on the read side
and space not yet seen on the write side, the cycles of that side's clock since. -/
structure QueueMem where
  words : Sparse Nat
  head : Nat
  tail : Nat
  fresh : List Nat
  freed : List Nat
  deriving DecidableEq, Repr

/-- The I/O cell of a pin (R297): its input register, what its output register holds, and what it drives. -/
structure IoCell where
  q0 : Bool
  q1 : Bool
  d0 : Bool
  d1 : Bool
  out : Bool
  deriving DecidableEq, Repr

/-- An attachment of a port (R291): the port declaration's number, the stage of the command it serves, whether it is
frozen by a load (R317), since when, and for how long it has been frozen before, in ns (R91). -/
structure Attach where
  port : Nat
  p : Nat
  run : Nat
  cmd : Nat
  stage : Nat
  frozen : Bool
  frozenAt : Nat
  held : Nat
  deriving DecidableEq, Repr

/-- An image load of a die (R307–R314). -/
structure Load where
  /-- 1 slave port, 2 host-staged, 3 trim port. -/
  path : Nat
  /-- 0 waiting, 1 started, 2 header checked, 3 frames being written, 4 frames written, 5 digest checked. -/
  stage : Nat
  /-- When the stage was entered, in ns. -/
  at_ : Nat
  /-- The header, once checked, and the bytes of the image taken so far. -/
  header : Nat
  image : List Byte
  /-- Frames written. -/
  frames : Nat
  deriving DecidableEq, Repr

/-- The brim of a crown die. -/
structure Brim where
  /-- Port declarations in effect, and those of the image being loaded (R289, R318). -/
  ports : List Nat
  incoming : List Nat
  /-- The trim port's region, 15 for none (R312). -/
  trimRegion : Nat
  /-- Regions whose boundary latches are closed, whose clock is gated, and where global set-reset is asserted (R282, R314). -/
  closed : Nat
  gated : Nat
  gsr : Nat
  /-- The boundary map of the image that last covered each region (R305). -/
  maps : Sparse Nat
  dsp : Sparse Dsp
  /-- The regions' live state, the queue memories 0–479, and the I/O cells, keyed region × 24 + pin of its bank. -/
  regions : Sparse Region
  queues : Sparse QueueMem
  pins : Sparse IoCell
  attach : List Attach
  /-- The load in progress first, then those that wait (R313). -/
  loads : List Load
  /-- The next frame of the pounce scrubber, region × 2,560 + frame, and the frame whose correction runs (R320). -/
  pounce : Nat
  correct : Option Nat
  deriving DecidableEq, Repr

/-- The configuration slave port (R310): CFG_CS_N is low; the mode sampled; the die the image is for, once known; CFG_ERR_N
is held low. -/
structure CfgPort where
  selected : Bool
  parallel : Bool
  die : Option Nat
  err : Bool
  deriving DecidableEq, Repr

/-- A delay line (R298): its tap now and the tap it moves towards. -/
structure Tap where
  now : Nat
  goal : Nat
  deriving DecidableEq, Repr

/-! ### Pairing lanes (R325–R339) -/

/-- A transfer frame held until it is acknowledged (R332, R334). -/
structure Frame where
  seq : Nat
  part : Nat
  iv : Nat
  header : Nat
  data : List Byte
  deriving DecidableEq, Repr

/-- A lane group: what LANE_STATE, GROUP_STATE and the other registers do not show. -/
structure LaneGroup where
  /-- When each lane entered its state, in ns, and the consecutive consistent TS2 it has received (R329). -/
  lanes : Sparse (Nat × Nat)
  /-- When the first lane reached UP, whether the group has been UP, and since when it trains (R331). -/
  firstUp : Option Nat
  wasUp : Bool
  since : Nat
  /-- Lanes of the stripe, as a mask (R332, R335). -/
  stripe : Nat
  /-- Transfer frames sent, and accepted in order, since the sequences last began at 0 (R332, R339). -/
  txSeq : Nat
  rxSeq : Nat
  /-- Frames not acknowledged, oldest first, replays without progress, and when ACK_SEQ last advanced (R334). -/
  unacked : List Frame
  replays : Nat
  advanced : Nat
  /-- NAK has been sent and no in-order frame has arrived; an acknowledgement is owed since this time (R333). -/
  nak : Bool
  owed : Option Nat
  /-- The mismatch event of R330 has been raised. -/
  mismatch : Bool
  /-- Lanes whose next word has one bit inverted (R337). -/
  inject : Nat
  /-- The partner's lanes of the stripe, as its control frames tell (R335). -/
  partner : Nat
  /-- Error-free bits in a row, to 64, that the checker of each lane in TEST has seen (R337). -/
  clean : Sparse Nat
  /-- Received words in the elastic buffer of each fabric lane, oldest first: [31:0] RX_DATA, [35:32] RX_K (R338). -/
  elastic : Sparse (List Nat)
  deriving DecidableEq, Repr

/-! ### Power, clocks and thermal control (R357–R380) -/

/-- The power side of a die. -/
structure DiePower where
  /-- Demand currents of the last intervals of 100 ns in 0.1 A, newest first (R365). -/
  demand : List Nat
  /-- The deficit count of bubbles, in 2^−32 of a bubble (R365). -/
  deficit : Nat
  /-- Bubbles, and MCLK cycles in tenths, of the present budget period (R368). -/
  bubbles : Nat
  cycles : Nat
  /-- MCLK in MHz (R359). -/
  mhz : Nat
  /-- The voltage loop's target in mV, the voltage table by MCLK in MHz, and whether the rail has reported the voltage it was
  raised to (R363). -/
  target : Nat
  table : Sparse Nat
  settled : Bool
  /-- Energy of the die's rails since it joined its partition, in nJ (R376). -/
  energy : Nat
  /-- It tripped at this time in ns (R374); it reads above THROTTLE_C, or not yet 2 °C below it (R373). -/
  trip : Option Nat
  hot : Bool
  warm : Bool
  /-- The floor state may be left at the next period (R372). -/
  leaving : Bool
  deriving DecidableEq, Repr

/-- The power side of a partition. -/
structure PartPower where
  /-- The MCLK that the power manager has set (R367). -/
  goal : Nat
  /-- Heavy-phase notices outstanding, run and command, and whether the voltage guard is still in force (R370). -/
  notices : List (Nat × Nat × Bool)
  /-- Energy in nJ (R376). -/
  energy : Nat
  deriving DecidableEq, Repr

/-- The power manager. -/
structure Power where
  dies : Sparse DiePower
  parts : Sparse PartPower
  /-- budget_now of R369 while a pair budget is in force, and consecutive failed exchanges. -/
  pair : Option Nat
  pairFails : Nat
  /-- Domains that wait to be switched on or are switching on: die and domain (R361, R362). -/
  switching : List (Nat × Nat)
  /-- Rails whose VR_ALERT_N is low (R372). -/
  alerts : List Rail
  /-- Coolant readings have been valid and within their limits since this time in ns (R375). -/
  cool : Option Nat
  /-- Energy of the package in nJ (R376). -/
  energy : Nat
  /-- The claims of the partitions at the last period's end, and the power of its port dies, stacks and dies outside partitions in mW
  (R367, R369). -/
  claims : List Demand
  overhead : Nat
  deriving DecidableEq, Repr

/-! ### Memory and bands (R133–R134, R144–R147, R187–R218) -/

/-- One stream: partition, run, command, end and die. -/
structure StreamId where
  p : Nat
  run : Nat
  cmd : Nat
  fin : Nat
  die : Nat
  deriving DecidableEq, Repr

/-- What is left of a packet's way at a switch that it has reached (R182, R186): the stages still to travel, each a band, its
direction and its dies; the outgoing ply; whether it waits in the transit buffer behind a seam, else in a turn buffer; and
whether it has found no entry there and goes round the ring. -/
structure Hop where
  stages : List (Nat × Bool × List Nat)
  ply : Nat
  seam : Bool
  full : Bool
  deriving DecidableEq, Repr

/-- A transfer, request or response that waits at an arbitration point (R144): its request's packet header, its data when it
writes, and what orders it (R146, R147). -/
structure Waiting where
  point : Point
  p : Nat
  header : Nat
  data : List Byte
  /-- The response that a channel job belongs to, or that waits here itself. -/
  resp : Nat
  stream : Option StreamId
  /-- 0 read, 1 write, 2 remote (R147). -/
  split : Nat
  lat : Nat
  qid : Nat
  since : Nat
  /-- A migration transfer (R167). -/
  migration : Bool
  /-- The band cycle of its arrival at the point (R184). -/
  cycle : Nat
  /-- Where it stands on its way; none before its route is chosen (R185). -/
  hop : Option Hop
  /-- It is the response to the request of its header (R188). -/
  back : Bool
  deriving DecidableEq, Repr

/-- One access to one 64-byte word: partition address, first byte and count within the word, the bytes to write, and the
unit of the packet that it serves. -/
structure WordAcc where
  addr : Nat
  first : Nat
  count : Nat
  data : List Byte
  unit : Nat
  deriving DecidableEq, Repr

/-- A transfer's share at one channel, granted and being served word by word (R204, R207, R212). -/
structure Job where
  p : Nat
  resp : Nat
  write : Bool
  words : List WordAcc
  deriving DecidableEq, Repr

/-- A response being made at a destination (R188): the request's header, words still to be served, units read, units
poisoned, and STATUS. -/
structure Resp where
  id : Nat
  header : Nat
  left : Nat
  data : List Byte
  bad : List Nat
  status : Nat
  /-- It waits to leave its destination, its last unit has left on the last band of its way, and the dies of that way. -/
  queued : Bool
  sent : Bool
  path : List Nat
  deriving DecidableEq, Repr

/-- A transaction outstanding at its source engine (R193, R195, R196). -/
structure Xact where
  die : Nat
  eng : Nat
  tag : Nat
  header : Nat
  at_ : Nat
  stream : Option StreamId
  /-- Bytes of the item it moves: first byte and count. -/
  first : Nat
  count : Nat
  /-- Old-epoch transactions end under R268. -/
  epoch : Nat
  /-- The lane group that carries it, and whether it is a request of the partner that the pair-link engine has passed on
  (R335, R336). -/
  link : Option (Nat × Bool)
  /-- Its request packet is lost, and the dies of the way that it took (R196, R200). -/
  lost : Bool
  path : List Nat
  /-- It moves units of a migrating copy (R164, R167). -/
  migration : Bool
  deriving DecidableEq, Repr

/-- A tag retired by a timeout, and when it may be used again (R196). -/
structure Retired where
  die : Nat
  eng : Nat
  tag : Nat
  till : Nat
  deriving DecidableEq, Repr

/-- The side of a stack that no register shows (R205, R213, R215–R218). -/
structure StackState where
  /-- Spares in force since the last cold reset, and how many of them are used (R205). -/
  spares : Nat
  used : Nat
  /-- Ranks due for retirement while another migrates (R215). -/
  due : List Nat
  /-- Ranks that stay in service in degraded state, and ranks offline (R217). -/
  degraded : List Nat
  offline : List Nat
  /-- Times of correctable errors of a rank in the last hour, in ns (R215). -/
  ce : Sparse (List Nat)
  /-- The refresh interval: 3,900 or 1,950 ns (R213). -/
  interval : Nat
  /-- The next word of the patrol scrubber: rank × 2^32 + offset (R212). -/
  patrol : Nat
  /-- Remap entries that await their flash commit: entry numbers (R216). -/
  unsavedRemap : List Nat
  /-- The stack reads above HBM_THROTTLE_C, and is in the floor state of a rail alert: either halves its grants (R371–R373). -/
  hot : Bool
  floor : Bool
  /-- Until when a refresh holds a bank, in ns, keyed rank × 32 + pseudo-channel × 16 + bank; and the place and rows of the last
  neighbour refresh, by the same key (R213). -/
  held : Sparse Nat
  nref : Option (Nat × List Nat)
  deriving DecidableEq, Repr

/-- One band switch's side of a die (R184, R194, R200). -/
structure SwitchState where
  /-- The die is out of service (R200). -/
  dead : Bool
  /-- Bands whose turnaround next to this die is closed: bit 0 row, bit 1 column (R200). -/
  turned : Nat
  /-- Best-effort injection held: ply × 2 + direction by band, and until which band cycle (R184). -/
  holds : List (Nat × Nat)
  /-- Requesters listed by each destination engine, oldest first, at most 16 each (R194). -/
  listed : List (Nat × Nat)
  deriving DecidableEq, Repr

/-- A reservation in force: entry, band, ply, direction and its slots (R190, R191). -/
structure Resv where
  p : Nat
  entry : Nat
  band : Nat
  ply : Nat
  down : Bool
  slots : List Nat
  deriving DecidableEq, Repr

/-- The deficit counts of fixed-split mode at a point with the grants of the present 256, and whose turn a channel's round
robin has (R144, R147). -/
structure Split where
  read : Int
  write : Int
  remote : Int
  grants : Nat
  turn : Nat
  left : Nat
  deriving DecidableEq, Repr

/-- The state of the device. -/
structure State where
  /-- Commands waiting, first in, first out. -/
  pending : List Instr
  /-- The model's own: how many free values have been drawn (log 3). -/
  free : Nat
  clock : Clock
  /-- The dictionary's registers that differ from their defaults. -/
  dict : Sparse Nat
  mill : Mill
  rst : ResetCtl
  sessions : List Session
  /-- SPDM connection state per mailbox, keyed by port, 4 for MCTP: 0 none, 1 version, 2 capabilities, 3 algorithms. -/
  conns : Sparse Nat
  sec : Sparse PartSec
  fns : Sparse FnState
  ports : Sparse PortState
  prun : Sparse PartRun
  /-- Refusals to be answered, oldest first, each with the time it is due in ns (R5, R272). -/
  refusals : List (Nat × Refused)
  /-- Bytes of host memory that the device has written (log 9). -/
  hostMem : List Host.Cell
  brims : Sparse Brim
  /-- Frames of the brims, keyed (die × 12 + region) × 2,560 + frame; an unlisted frame is blank (R301). -/
  frames : Sparse (List Byte)
  cfg : CfgPort
  /-- Delay lines, keyed (port die × 96 + pin) × 2 + output (R298). -/
  taps : Sparse Tap
  lanes : Sparse LaneGroup
  power : Power
  waiting : List Waiting
  /-- Channels: jobs granted, in the order served, keyed stack × 32 + channel (R212). -/
  channels : Sparse (List Job)
  resps : List Resp
  nextResp : Nat
  xacts : List Xact
  retired : List Retired
  stackSides : Sparse StackState
  switches : Sparse SwitchState
  /-- Reservations in force, and those written that take effect at the next frame boundary (R190). -/
  resv : List Resv
  resvNext : List Resv
  /-- Deficits and turns, keyed by point number × 32 + partition (0 for the channel's own turn). -/
  splits : Sparse Split
  /-- HBM: plaintext bytes by stack × 2^40 + rank × 2^32 + offset; an unlisted byte reads zero (R222, R256, log 8). -/
  hbm : List Host.Cell
  /-- Words of 64 bytes that hold the poison code: their keys, rising (R210). -/
  poison : List Nat
  /-- Work units on tiles, in order of issue; the arrays of the tiles, keyed die × 8 + tile (R42, R47, R49, R157). -/
  works : List Work
  arrays : Sparse TileArray
  /-- Per die, up to when its other engines have counted the cycles in which they held work, in ns (R140, R141). -/
  engines : Sparse Nat
  /-- Times of the mismatches of a tile in the last 24 hours, in ns, keyed die × 8 + tile, and tile tests running: tile, and
  whether the operator ordered it (R234, R252). -/
  mismatches : Sparse (List Nat)
  tests : List (Nat × Bool)
  /-- Transfers handed to the pair-link engines and not yet framed: lane group, header, data (R332). -/
  pairTx : List (Nat × Nat × List Byte)
  /-- Words that the SRAM scrubber has read of each store, keyed die × 9 + store (R220). -/
  scrub : Sparse Nat
  /-- What has left the device, oldest first. -/
  out : List Out
  deriving DecidableEq, Repr

/-- The answer of a meaning. -/
abbrev Res := Host.Outcome State Fault Refusal

/-! ### The defaults of the tables, and reset -/

def Slot.blank : Slot := ⟨[], 0, false⟩
def Flash.blank : Flash := ⟨⟨[], 1, true⟩, Slot.blank, 0, none, none, [], 0, []⟩
def Mill.blank : Mill :=
  ⟨false, false, false, [], [], false, false, 0, 0, [], Flash.blank, Flash.blank, [], [], [], false, 0, false, [], none, false, false⟩
def Clock.blank : Clock := ⟨0, 0x6AAAAAAB, 0, 0, 0, 0, false, 0, 0, 0, false, 0, 0, 0, false, false⟩
def PartSec.blank : PartSec := ⟨none, none, false, [], [], 0⟩
def Ide.blank : Ide := ⟨0, none, none, none⟩
def FnState.blank : FnState :=
  ⟨0, 0, 0, 0, 0, 0, 0, 0, 0, 0, 0, 0, 0, false, false, false, false, false, false, 0, 0, [], 0, none, false, 0, 0, 0, 15, 0,
   Ide.blank⟩
def PortState.blank : PortState := ⟨false, 0, true, false⟩
def Dsp.blank : Dsp := ⟨[], 0, 0, false, false, 0, []⟩
def Region.blank : Region := ⟨0, 0, 0, 0, 0, 0⟩
def QueueMem.blank : QueueMem := ⟨[], 0, 0, [], []⟩
def IoCell.blank : IoCell := ⟨false, false, false, false, false⟩
def Brim.blank : Brim := ⟨[], [], 15, 0, 0, 0, [], [], [], [], [], [], [], 0, none⟩
def CfgPort.blank : CfgPort := ⟨false, false, none, false⟩
def Tap.blank : Tap := ⟨0, 0⟩
def LaneGroup.blank : LaneGroup := ⟨[], none, false, 0, 0, 0, 0, [], 0, 0, false, none, false, 0, 0, [], []⟩
def DiePower.blank : DiePower := ⟨[], 0, 0, 0, 400, 600, [], false, 0, none, false, false, false⟩
def PartPower.blank : PartPower := ⟨400, [], 0⟩
def Power.blank : Power := ⟨[], [], none, 0, [], [], none, 0, [], 0⟩
def StackState.blank : StackState := ⟨4, 0, [], [], [], [], 3900, 0, [], false, false, [], none⟩
def TileArray.blank : TileArray := ⟨0, 0, 0, none, none, [], false, []⟩
def SwitchState.blank : SwitchState := ⟨false, 0, [], []⟩
def Split.blank : Split := ⟨0, 0, 0, 0, 0, 0⟩
def PartRun.blank : PartRun := ⟨[], 1, false, none, [], [], [], [], 0, [], 0, [], [], [], [], []⟩

/-- Reset control as supplies pass their thresholds: step 1 of a cold reset, the reset pins high (R381, R385). -/
def ResetCtl.blank : ResetCtl := ⟨false, 1, true, true, 0, none, false, []⟩

/-- The state right after reset: power-on has put the whole package into step 1 of the exit order (R381, R385).  LAST_CAUSE
reads 0x01 and RESET_STATE 0, as every register its default; no partition exists (R253); memories are empty (R222, R301);
nothing waits and nothing has left the device. -/
def State.reset : State :=
  { pending := [], free := 0, clock := Clock.blank, dict := [], mill := Mill.blank, rst := ResetCtl.blank, sessions := [],
    conns := [], sec := [], fns := [], ports := [], prun := [], refusals := [], hostMem := [], brims := [], frames := [],
    cfg := CfgPort.blank, taps := [], lanes := [], power := Power.blank, waiting := [], channels := [], resps := [],
    nextResp := 0, xacts := [], retired := [], stackSides := [], switches := [], resv := [], resvNext := [], splits := [],
    hbm := [], poison := [], works := [], arrays := [], engines := [], mismatches := [], tests := [], pairTx := [], scrub := [], out := [] }

/-- The key of a function: port × 32 + virtual function (0 for PF 0). -/
def fnKey (f : Fn) : Nat := f.port.val * 32 + f.vf.val

end Sys2Proof.Machine
end

