-- ==== Sys2Proof/Machine/Base.lean ====
section
/-! DEFINITION. The operations every family uses: the registers of the dictionary, the clock, free values, outputs, host
memory and operator events. -/

namespace Sys2Proof.Machine

/-- What a register of the dictionary reads. -/
def State.reg (s : State) (k : Nat) : Nat := sget regDefault s.dict k

/-- Set a register, cut to its length. -/
def State.setReg (s : State) (k v : Nat) : State :=
  { s with dict := sput regDefault s.dict k (v % 2 ^ (8 * regLen k)) }

/-- Add to a counter, which wraps at its width (R62, R141, R226). -/
def State.bump (s : State) (k n : Nat) : State := s.setReg k (s.reg k + n)

/-- Set a register to the larger of its value and `v`, at most its width. -/
def State.raiseReg (s : State) (k v : Nat) : State := s.setReg k (max (s.reg k) (min v (2 ^ (8 * regLen k) - 1)))

/-- Return every register whose key satisfies `p` to its default. -/
def State.clearRegs (s : State) (p : Nat → Bool) : State := { s with dict := sclear p s.dict }

/-- The integer part of the time counter: TAI ns (R405), modulo 2^64. -/
def State.now (s : State) : Nat := s.clock.tai / 2 ^ 32 % 2 ^ 64

/-- Let the time counter reach a moment in ns, if it has not; the counter never runs backward (R407). -/
def State.reach (s : State) (ns : Nat) : State :=
  { s with clock := { s.clock with tai := max s.clock.tai (ns * 2 ^ 32) } }

/-- Put an output at the end of what has left the device. -/
def State.emit (s : State) (o : Out) : State := { s with out := s.out ++ [o] }

/-- Draw the next free value's number. -/
def State.drawn (s : State) : Nat := s.free
def State.draw (s : State) : State := { s with free := s.free + 1 }

/-- A byte of host memory that the device has not written reads as zero here (log 9). -/
def hostDefault : Nat → Byte := fun _ => 0

/-- Write bytes to host memory (R350). -/
def State.hostWrite (s : State) (addr : Nat) (bs : List Byte) : State :=
  { s with hostMem := (bs.mapIdx (fun i b => (i, b))).foldl (fun m e => sput hostDefault m (addr + e.1) e.2) s.hostMem }

/-- A virtual function or PF 0. -/
def State.fn (s : State) (f : Fn) : FnState := sget (fun _ => FnState.blank) s.fns (fnKey f)
def State.setFn (s : State) (f : Fn) (x : FnState) : State :=
  { s with fns := sput (fun _ => FnState.blank) s.fns (fnKey f) x }
def State.modFn (s : State) (f : Fn) (g : FnState → FnState) : State := s.setFn f (g (s.fn f))

/-- A host port. -/
def State.port (s : State) (n : Nat) : PortState := sget (fun _ => PortState.blank) s.ports n
def State.setPort (s : State) (n : Nat) (x : PortState) : State :=
  { s with ports := sput (fun _ => PortState.blank) s.ports n x }

/-- The security side of partition `p` (1–16). -/
def State.psec (s : State) (p : Nat) : PartSec := sget (fun _ => PartSec.blank) s.sec p
def State.modSec (s : State) (p : Nat) (g : PartSec → PartSec) : State :=
  { s with sec := smod (fun _ => PartSec.blank) s.sec p g }

/-! ### MSI-X (R354) -/

/-- Send a vector's message; a masked vector sets its pending bit instead. -/
def State.msix (s : State) (f : Fn) (v : Nat) : State :=
  if bit (s.fn f).mask v then s.modFn f (fun x => { x with pend := setBit x.pend v true }) else s.emit (.msix f v)

/-- PF 0 of a host port. -/
def pf (n : Fin 4) : Fn := ⟨n, 0⟩

/-- Send a vector of PF 0 on every host port (R414). -/
def State.msixAll (s : State) (v : Nat) : State :=
  (((s.msix (pf 0) v).msix (pf 1) v).msix (pf 2) v).msix (pf 3) v

/-! ### Operator events (R414) -/

/-- The 32-byte record of an event. -/
def Event.bytes (e : Event) : List Byte :=
  leBytes 12 e.reserved ++ leBytes 4 e.detail ++ leBytes 2 e.subject ++ leBytes 2 e.code ++ leBytes 4 e.seq ++ leBytes 8 e.time

/-- OPERATOR_KEY: bit 256 of its register marks it set (R404). -/
def State.operatorKeySet (s : State) : Bool := bit (s.reg (key 0x1070 1)) 256
def State.operatorKey (s : State) : List Byte := leBytes 32 (s.reg (key 0x1070 1))

/-- A datagram of R401: TAG is the first 16 bytes of HMAC-SHA-256 over header bytes 0–15 and the value. -/
def State.datagram (s : State) (op counter entry status : Nat) (value : List Byte) : List Byte :=
  let head := leBytes 2 0x01D7 ++ leBytes 1 op ++ leBytes 2 (entry / 256) ++ leBytes 1 (entry % 256) ++ leBytes 1 status
    ++ leBytes 1 value.length ++ leBytes 8 counter
  let tag := (hmacSha256 s.operatorKey (head ++ value)).take 16
  head ++ tag ++ value

/-- Raise an operator event: log it, overwriting the oldest of 24,576 records, signal it on PF vector 0 of every host port,
and send it to EVENT_COLLECTOR when that entry is set (R414).  The table of R414 gives no code a detail, and some codes no
subject: those fields are free values (log 4), and so are the reserved bits of the record (R2; log 92). -/
def State.raise (s : State) (code : Nat) (subject : Option Nat) : State :=
  let seq := (s.reg (key 0x1080 1) + 1) % 2 ^ 32
  let sub := subject.getD (Config.freeNat 16 s.free)
  let e : Event := ⟨s.now, seq, code, sub % 2 ^ 16, Config.freeNat 32 (s.free + 1) % 2 ^ 32,
    Config.freeNat 96 (s.free + 2) % 2 ^ 96⟩
  let log := s.mill.events ++ [e]
  let s := { s with free := s.free + 3, mill := { s.mill with events := log.drop (log.length - 24576) } }
  let s := (s.setReg (key 0x1080 1) seq).msixAll 0
  if s.reg (key 0x1050 7) = 0 then s
  else s.emit (.datagram (s.datagram 3 0 0 0 e.bytes))

end Sys2Proof.Machine
end

