-- ==== Sys2Proof/Machine/Formats.lean ====
section
/-! DEFINITION. Number formats (R17–R31, R428): every encoding's exact value, and every conversion between formats.  A value
is held exactly (a dyadic number, an infinity or NaN), so no rounding happens but where the spec names one. -/

namespace Sys2Proof.Machine

/-- The formats of R17, each by its name; the format codes are `Fmt.code`. -/
inductive Fmt where
  | e4m3 | e5m2 | mx8e4m3 | mx8e5m2 | mx6e3m2 | mx6e2m3 | mx4 | e8m0 | bf16 | fp16 | fp32 | fp64
  | int8 | uint8 | int4 | uint4 | int32 | int48
deriving DecidableEq, Repr

/-- R17: the format a code names; 0x0C–0x0F and 0x16–0x1F are reserved. -/
def fmtOf (c : Nat) : Option Fmt :=
  match c with
  | 0x00 => some .e4m3 | 0x01 => some .e5m2 | 0x02 => some .mx8e4m3 | 0x03 => some .mx8e5m2
  | 0x04 => some .mx6e3m2 | 0x05 => some .mx6e2m3 | 0x06 => some .mx4 | 0x07 => some .e8m0
  | 0x08 => some .bf16 | 0x09 => some .fp16 | 0x0A => some .fp32 | 0x0B => some .fp64
  | 0x10 => some .int8 | 0x11 => some .uint8 | 0x12 => some .int4 | 0x13 => some .uint4
  | 0x14 => some .int32 | 0x15 => some .int48 | _ => none

/-- R17: the code of a format. -/
def fmtCode : Fmt → Nat
  | .e4m3 => 0x00 | .e5m2 => 0x01 | .mx8e4m3 => 0x02 | .mx8e5m2 => 0x03 | .mx6e3m2 => 0x04 | .mx6e2m3 => 0x05
  | .mx4 => 0x06 | .e8m0 => 0x07 | .bf16 => 0x08 | .fp16 => 0x09 | .fp32 => 0x0A | .fp64 => 0x0B
  | .int8 => 0x10 | .uint8 => 0x11 | .int4 => 0x12 | .uint4 => 0x13 | .int32 => 0x14 | .int48 => 0x15

/-- R17: bits of one element in memory (INT48 takes 64). -/
def fmtWidth : Fmt → Nat
  | .e4m3 | .e5m2 | .mx8e4m3 | .mx8e5m2 | .e8m0 | .int8 | .uint8 => 8
  | .mx6e3m2 | .mx6e2m3 => 6
  | .mx4 | .int4 | .uint4 => 4
  | .bf16 | .fp16 => 16
  | .fp32 | .int32 => 32
  | .fp64 | .int48 => 64

/-- R17: the MX formats, whose elements share an E8M0 scale. -/
def fmtMx : Fmt → Bool
  | .mx8e4m3 | .mx8e5m2 | .mx6e3m2 | .mx6e2m3 | .mx4 => true
  | _ => false

/-- R17: the integer formats. -/
def fmtInt : Fmt → Bool
  | .int8 | .uint8 | .int4 | .uint4 | .int32 | .int48 => true
  | _ => false

/-- The exponent and fraction widths, the bias, and the special encodings of a floating-point format (R17, R18). -/
structure Flt where
  eb : Nat
  fb : Nat
  bias : Nat
  /-- Has infinities, and every NaN with the exponent all ones (IEEE style). -/
  ieee : Bool
  /-- Has NaN only at the largest encodings of each sign (E4M3). -/
  topNan : Bool
  /-- Canonical NaN of R18. -/
  nan : Nat
deriving DecidableEq, Repr

/-- R17, R18: the layout of a floating-point element format; E8M0 and the integers have none. -/
def fltOf : Fmt → Option Flt
  | .e4m3 | .mx8e4m3 => some { eb := 4, fb := 3, bias := 7, ieee := false, topNan := true, nan := 0x7F }
  | .e5m2 | .mx8e5m2 => some { eb := 5, fb := 2, bias := 15, ieee := true, topNan := false, nan := 0x7E }
  | .mx6e3m2 => some { eb := 3, fb := 2, bias := 3, ieee := false, topNan := false, nan := 0 }
  | .mx6e2m3 => some { eb := 2, fb := 3, bias := 1, ieee := false, topNan := false, nan := 0 }
  | .mx4 => some { eb := 2, fb := 1, bias := 1, ieee := false, topNan := false, nan := 0 }
  | .bf16 => some { eb := 8, fb := 7, bias := 127, ieee := true, topNan := false, nan := 0x7FC0 }
  | .fp16 => some { eb := 5, fb := 10, bias := 15, ieee := true, topNan := false, nan := 0x7E00 }
  | .fp32 => some { eb := 8, fb := 23, bias := 127, ieee := true, topNan := false, nan := 0x7FC00000 }
  | .fp64 => some { eb := 11, fb := 52, bias := 1023, ieee := true, topNan := false, nan := 0x7FF8000000000000 }
  | _ => none

/-- An exact value: NaN, an infinity, or (−1)^neg · m · 2^e (zero keeps its sign). -/
inductive Val where
  | nan
  | inf (neg : Bool)
  | num (neg : Bool) (m : Nat) (e : Int)
deriving DecidableEq, Repr

/-- The value of an integer. -/
def valInt (i : Int) : Val := .num (decide (i < 0)) i.natAbs 0

/-- +0. -/
def valZero : Val := .num false 0 0
/-- 1.0. -/
def valOne : Val := .num false 1 0

/-- Number of significant bits of `m`. -/
def blen (m : Nat) : Nat := if m = 0 then 0 else Nat.log2 m + 1

/-- m · 2^s for a possibly negative shift, rounded down. -/
def shiftFloor (m : Nat) (s : Int) : Nat := if 0 ≤ s then m * 2 ^ s.toNat else m / 2 ^ (-s).toNat

/-- R18: the value of an encoding of a floating-point layout. -/
def fltDecode (f : Flt) (c : Nat) : Val :=
  let neg := bit c (f.eb + f.fb)
  let e := bits c (f.eb + f.fb - 1) f.fb
  let fr := bits c (f.fb - 1) 0
  if f.ieee && e = 2 ^ f.eb - 1 then (if fr = 0 then .inf neg else .nan)
  else if f.topNan && e = 2 ^ f.eb - 1 && fr = 2 ^ f.fb - 1 then .nan
  else if e = 0 then .num neg fr (1 - (f.bias : Int) - f.fb)
  else .num neg (2 ^ f.fb + fr) ((e : Int) - f.bias - f.fb)

/-- R17, R18: the value of an element's encoding (without any MX scale). -/
def decodeElem (f : Fmt) (c : Nat) : Val :=
  match f with
  | .e8m0 => if c % 256 = 255 then .nan else .num false 1 ((c % 256 : Nat) - 127 : Int)
  | .int8 => valInt (signed 8 c)
  | .uint8 => valInt (c % 256 : Nat)
  | .int4 => valInt (signed 4 c)
  | .uint4 => valInt (c % 16 : Nat)
  | .int32 => valInt (signed 32 c)
  | .int48 => valInt (signed 48 c)
  | _ => match fltOf f with
    | some l => fltDecode l c
    | none => .nan

/-- The largest finite magnitude of a layout, as a multiple of 2^e. -/
def fltMax (f : Flt) : Nat × Int :=
  let top : Nat := if f.ieee then 2 ^ f.eb - 2 else 2 ^ f.eb - 1
  let m := if f.topNan then 2 ^ (f.fb + 1) - 2 else 2 ^ (f.fb + 1) - 1
  (m, (top : Int) - f.bias - f.fb)

/-- The encoding of the largest finite value of a sign. -/
def fltMaxCode (f : Flt) (neg : Bool) : Nat :=
  let mag := if f.ieee then (2 ^ f.eb - 1) * 2 ^ f.fb - 1 else if f.topNan then 2 ^ (f.eb + f.fb) - 2 else 2 ^ (f.eb + f.fb) - 1
  mag + b2n neg * 2 ^ (f.eb + f.fb)

/-- R28: the rounding of a conversion: nearest with ties to even, or stochastic with the 16 bits of R30. -/
inductive Rnd where
  | nearest
  | stochastic (r : Nat)
deriving DecidableEq, Repr

/-- R28, R30: round m · 2^e to a multiple of 2^u: the multiple. -/
def roundMult (rnd : Rnd) (m : Nat) (e u : Int) : Nat :=
  let s := e - u
  if 0 ≤ s then m * 2 ^ s.toNat
  else
    let d := 2 ^ (-s).toNat
    let q := m / d
    let r := m % d
    match rnd with
    | .nearest => if 2 * r < d then q else if d < 2 * r then q + 1 else if q % 2 = 0 then q else q + 1
    | .stochastic bs => if bs < r * 65536 / d then q + 1 else q

/-- The exponent of the last place at which a magnitude is rounded in a layout (R30: subnormal spacing below the normal
range). -/
def fltUlp (f : Flt) (m : Nat) (e : Int) : Int :=
  max ((blen m : Int) + e - 1 - f.fb) (1 - (f.bias : Int) - f.fb)

/-- The encoding of an exactly representable magnitude q · 2^u, with u no less than the subnormal step. -/
def fltPack (f : Flt) (neg : Bool) (q : Nat) (u : Int) : Nat :=
  let sign := b2n neg * 2 ^ (f.eb + f.fb)
  let top := (blen q : Int) + u - 1
  if q = 0 then sign
  else if top < 1 - (f.bias : Int) then sign + shiftFloor q (u - (1 - (f.bias : Int) - f.fb))
  else sign + (top + f.bias).toNat * 2 ^ f.fb + (shiftFloor q (f.fb - ((blen q : Int) - 1)) - 2 ^ f.fb)

/-- Whether the magnitude q · 2^u exceeds the largest finite value. -/
def fltOver (f : Flt) (q : Nat) (u : Int) : Bool :=
  let (mm, me) := fltMax f
  let lo := min u me
  decide (mm * 2 ^ (me - lo).toNat < q * 2 ^ (u - lo).toNat)

/-- R29: convert a value to a floating-point layout in saturating or non-saturating mode. -/
def fltEncode (f : Flt) (sat : Bool) (rnd : Rnd) (v : Val) : Nat :=
  match v with
  | .nan => f.nan
  | .inf neg =>
    if f.ieee then (2 ^ f.eb - 1) * 2 ^ f.fb + b2n neg * 2 ^ (f.eb + f.fb)
    else if sat then fltMaxCode f neg else f.nan
  | .num neg m e =>
    let u := fltUlp f m e
    let q := roundMult rnd m e u
    if fltOver f q u then
      (if sat then fltMaxCode f neg
       else if f.ieee then (2 ^ f.eb - 1) * 2 ^ f.fb + b2n neg * 2 ^ (f.eb + f.fb) else f.nan)
    else fltPack f neg q u

/-- Round a value to a layout and keep it as a value: an IEEE operation's rounding (to nearest, infinities on overflow). -/
def roundTo (f : Flt) (v : Val) : Val :=
  match v with
  | .num neg m e =>
    let u := fltUlp f m e
    let q := roundMult .nearest m e u
    if fltOver f q u then .inf neg else .num neg q u
  | w => w

/-- R428: convert to E8M0. -/
def e8m0Encode (sat : Bool) (rnd : Rnd) (v : Val) : Nat :=
  match v with
  | .nan => 0xFF
  | .inf true => 0xFF
  | .inf false => if sat then 0xFE else 0xFF
  | .num neg m e =>
    if m = 0 then 0x00
    else if neg then 0xFF
    else
      let top := (blen m : Int) + e - 1
      if top < -127 then 0x00
      else
        -- 2^top ≤ x < 2^(top+1): the two neighbours have encodings top+127 and top+128
        let r := m - 2 ^ (blen m - 1)
        let d := 2 ^ (blen m - 1)
        let up := match rnd with
          | .nearest => decide (d < 2 * r) || (decide (2 * r = d) && decide ((top + 127) % 2 = 1))
          | .stochastic bs => decide (bs < r * 65536 / d)
        let res := top + (if up then 1 else 0)
        if 127 < res then (if sat then 0xFE else 0xFF) else (res + 127).toNat

/-- The integer nearest to a number, ties to even. -/
def nearestInt (neg : Bool) (m : Nat) (e : Int) : Int :=
  let q := (roundMult .nearest m e 0 : Int)
  if neg then -q else q

/-- Clamp an integer to a range. -/
def clampInt (lo hi x : Int) : Int := max lo (min hi x)

/-- R28: convert to an integer range: nearest, ties to even, saturating, NaN to 0. -/
def toInt (lo hi : Int) (v : Val) : Int :=
  match v with
  | .nan => 0
  | .inf neg => if neg then lo else hi
  | .num neg m e => clampInt lo hi (nearestInt neg m e)

/-- The range of an integer format. -/
def intRange : Fmt → Int × Int
  | .int8 => (-128, 127) | .uint8 => (0, 255) | .int4 => (-8, 7) | .uint4 => (0, 15)
  | .int32 => (-2147483648, 2147483647) | .int48 => (-140737488355328, 140737488355327) | _ => (0, 0)

/-- R29: the mode of a conversion: each format's default, changed by the SAT bit. -/
def satMode (f : Fmt) (satBit : Bool) : Bool :=
  match f with
  | .e4m3 | .e5m2 | .e8m0 => !satBit
  | .mx8e4m3 | .mx8e5m2 | .mx6e3m2 | .mx6e2m3 | .mx4 => true
  | _ => satBit

/-- R28–R30, R428: convert a value to an element of a format under the SAT bit and a rounding. -/
def encodeElem (f : Fmt) (satBit : Bool) (rnd : Rnd) (v : Val) : Nat :=
  match f with
  | .e8m0 => e8m0Encode (satMode f satBit) rnd v
  | .int8 => unsigned 8 (toInt (-128) 127 v)
  | .uint8 => unsigned 8 (toInt 0 255 v)
  | .int4 => unsigned 4 (toInt (-8) 7 v)
  | .uint4 => unsigned 4 (toInt 0 15 v)
  | .int32 => unsigned 32 (toInt (-2147483648) 2147483647 v)
  | .int48 => unsigned 64 (toInt (-140737488355328) 140737488355327 v)
  | _ => match fltOf f with
    | some l => fltEncode l (satMode f satBit) rnd v
    | none => 0

/-- R30: the random bits of stochastic rounding, from the run seed and the element's linear index. -/
def srBits (seed idx : Nat) : Nat :=
  let w := 2 ^ 64
  let z := (seed % w) ^^^ ((idx * 0x9E3779B97F4A7C15) % w)
  let z := ((z ^^^ (z / 2 ^ 30)) * 0xBF58476D1CE4E5B9) % w
  let z := ((z ^^^ (z / 2 ^ 27)) * 0x94D049BB133111EB) % w
  (z ^^^ (z / 2 ^ 31)) % 65536

/-- R28: the rounding of the element of linear index `idx` of a command's output. -/
def rndAt (stoch : Bool) (seed idx : Nat) : Rnd := if stoch then .stochastic (srBits seed idx) else .nearest

/-- R31: emax of an MX element format. -/
def mxEmax : Fmt → Int
  | .mx8e4m3 => 8 | .mx8e5m2 => 15 | .mx6e3m2 => 4 | _ => 2

/-- ⌊log2 |v|⌋ of a non-zero number. -/
def floorLog2 (m : Nat) (e : Int) : Int := (blen m : Int) + e - 1

/-- The value of largest magnitude's ⌊log2⌋ over a block, if any is non-zero. -/
def blockLog2 (vs : List Val) : Option Int :=
  vs.foldl (fun a v => match v with
    | .num _ m e => if m = 0 then a else some (match a with | none => floorLog2 m e | some x => max x (floorLog2 m e))
    | _ => a) none

/-- Multiply by 2^k exactly. -/
def vscale (k : Int) : Val → Val
  | .num neg m e => .num neg m (e + k)
  | v => v

/-- R31: convert one block of values, each with its rounding, to an MX format: the scale and the element codes. -/
def mxBlock (f : Fmt) (vs : List (Val × Rnd)) : Nat × List Nat :=
  let special := vs.any fun v => match v.1 with | .num .. => false | _ => true
  if special then (0xFF, vs.map fun _ => 0)
  else match blockLog2 (vs.map (·.1)) with
    | none => (0x00, vs.map fun v => match v.1 with
        | .num neg _ _ => b2n neg * 2 ^ (fmtWidth f - 1)
        | _ => 0)
    | some l =>
      let x := clampInt (-127) 127 (l - mxEmax f)
      ((x + 127).toNat, vs.map fun v => encodeElem f false v.2 (vscale (-x) v.1))

/-- R20: an element's value under its block scale; a NaN scale makes it NaN. -/
def mxValue (f : Fmt) (scale c : Nat) : Val :=
  if scale % 256 = 255 then .nan else vscale ((scale % 256 : Nat) - 127 : Int) (decodeElem f c)

end Sys2Proof.Machine
end

