-- ==== Sys2Proof/Machine/Arith.lean ====
section
/-! DEFINITION. Exact arithmetic on values and the rounded operations of the array and the lanes (R22–R27, R64–R66, R71). -/

namespace Sys2Proof.Machine

/-- The FP32 layout. -/
def flt32 : Flt := { eb := 8, fb := 23, bias := 127, ieee := true, topNan := false, nan := 0x7FC00000 }
/-- The FP64 layout. -/
def flt64 : Flt := { eb := 11, fb := 52, bias := 1023, ieee := true, topNan := false, nan := 0x7FF8000000000000 }

/-- The sign flag of a value. -/
def vneg : Val → Val
  | .nan => .nan
  | .inf n => .inf (!n)
  | .num n m e => .num (!n) m e

/-- The magnitude of a value. -/
def vabs : Val → Val
  | .nan => .nan
  | .inf _ => .inf false
  | .num _ m e => .num false m e

/-- R22, R25: the exact product. -/
def vmul : Val → Val → Val
  | .nan, _ => .nan
  | _, .nan => .nan
  | .inf a, .inf b => .inf (a != b)
  | .inf a, .num b m _ => if m = 0 then .nan else .inf (a != b)
  | .num a m _, .inf b => if m = 0 then .nan else .inf (a != b)
  | .num a m e, .num b n f => .num (a != b) (m * n) (e + f)

/-- R25: the exact sum; a sum of zeros is −0 only when both are, an exact zero sum of non-zero operands is +0. -/
def vadd : Val → Val → Val
  | .nan, _ => .nan
  | _, .nan => .nan
  | .inf a, .inf b => if a = b then .inf a else .nan
  | .inf a, _ => .inf a
  | _, .inf b => .inf b
  | .num a m e, .num b n f =>
    if m = 0 && n = 0 then .num (a && b) 0 0
    else
      let l := min e f
      let x : Int := (m * 2 ^ (e - l).toNat : Nat)
      let y : Int := (n * 2 ^ (f - l).toNat : Nat)
      let z := (if a then -x else x) + (if b then -y else y)
      .num (decide (z < 0)) z.natAbs l

/-- a − b, exactly. -/
def vsub (a b : Val) : Val := vadd a (vneg b)

/-- An addition rounded in a layout. -/
def fadd (f : Flt) (a b : Val) : Val := roundTo f (vadd a b)
/-- A product rounded in a layout. -/
def fmul (f : Flt) (a b : Val) : Val := roundTo f (vmul a b)
/-- A fused multiply-add rounded once. -/
def ffma (f : Flt) (a b c : Val) : Val := roundTo f (vadd (vmul a b) c)

/-- The order of two numbers: −1, 0 or 1 for a < b, a = b, a > b (zeros of either sign are equal). -/
def numCmp (a : Bool) (m : Nat) (e : Int) (b : Bool) (n : Nat) (f : Int) : Int :=
  let l := min e f
  let x : Int := (m * 2 ^ (e - l).toNat : Nat)
  let y : Int := (n * 2 ^ (f - l).toNat : Nat)
  let z := (if a then -x else x) - (if b then -y else y)
  if z < 0 then -1 else if z = 0 then 0 else 1

/-- R27: the comparison of two values, none when either is NaN. -/
def vcmp : Val → Val → Option Int
  | .nan, _ => none
  | _, .nan => none
  | .inf a, .inf b => some (if a = b then 0 else if a then -1 else 1)
  | .inf a, .num .. => some (if a then -1 else 1)
  | .num .., .inf b => some (if b then 1 else -1)
  | .num a m e, .num b n f => some (numCmp a m e b n f)

/-- The sign bit of a value. -/
def vsign : Val → Bool
  | .nan => false
  | .inf n => n
  | .num n _ _ => n

/-- R27: maximum: NaN when either is NaN, −0 less than +0. -/
def vmax (a b : Val) : Val :=
  match vcmp a b with
  | none => .nan
  | some c => if c < 0 then b else if 0 < c then a else if vsign a then b else a

/-- R27: minimum. -/
def vmin (a b : Val) : Val :=
  match vcmp a b with
  | none => .nan
  | some c => if c < 0 then a else if 0 < c then b else if vsign a then a else b

/-- R64: the mask of a comparison: 1.0 or +0. -/
def vmask (b : Bool) : Val := if b then valOne else valZero

/-- R27: a = b. -/
def veq (a b : Val) : Bool := vcmp a b == some 0
/-- R27: a < b. -/
def vlt (a b : Val) : Bool := vcmp a b == some (-1)

/-- Whether a value is infinite. -/
def visInf : Val → Bool
  | .inf _ => true
  | _ => false

/-- R51: a rounding that gives an infinity from finite operands. -/
def overflowed (a b r : Val) : Bool :=
  match a, b, r with
  | .num .., .num .., .inf _ => true
  | _, _, _ => false

/-! ### The correctly rounded functions (R65)

Each is computed in fixed point with `fxP` fraction bits and rounded once.  That so many bits decide the rounding of every
FP32 argument is PRESUMED (log 13). -/

/-- Fraction bits of the fixed-point computations. -/
def fxP : Nat := 384

/-- Σ_{k<n} z^(2k+1)/(2k+1) in fixed point, by the running odd power. -/
def atanhSum (zz : Nat) : Nat → Nat → Nat → Nat → Nat
  | 0, _, _, acc => acc
  | n + 1, p, k, acc => atanhSum zz n (p * zz / 2 ^ fxP) (k + 2) (acc + p / k)

/-- atanh of a fixed-point fraction. -/
def fxAtanh (z : Nat) : Nat := atanhSum (z * z / 2 ^ fxP) 140 z 1 0

/-- ln 2 = 2 atanh(1/3). -/
def fxLn2 : Nat := 2 * fxAtanh (2 ^ fxP / 3)

/-- Σ r^k/k! in fixed point. -/
def expSum (r : Nat) : Nat → Nat → Nat → Nat → Nat
  | 0, _, _, acc => acc
  | n + 1, t, k, acc => let t' := t * r / 2 ^ fxP / k
    expSum r n t' (k + 1) (acc + t')

/-- exp of a fixed-point fraction below 1. -/
def fxExp (r : Nat) : Nat := expSum r 90 (2 ^ fxP) 1 (2 ^ fxP)

/-- x as a fixed-point integer, rounded down. -/
def fxOf (neg : Bool) (m : Nat) (e : Int) : Int :=
  let s := e + fxP
  if 0 ≤ s then (if neg then -1 else 1) * (m * 2 ^ s.toNat : Nat)
  else
    let x : Int := (if neg then -1 else 1) * (m : Int)
    x / ((2 ^ (-s).toNat : Nat) : Int)

/-- exp(x) for a fixed-point x: a mantissa in fixed point and a power of two. -/
def fxExpInt (x : Int) : Nat × Int :=
  let k := x / (fxLn2 : Int)
  (fxExp (x - k * (fxLn2 : Int)).toNat, k)

/-- ln(m · 2^e) in fixed point, for m > 0. -/
def fxLog (m : Nat) (e : Int) : Int :=
  let k := floorLog2 m e
  let d := 2 ^ (blen m - 1)
  let z := (m - d) * 2 ^ fxP / (m + d)
  k * (fxLn2 : Int) + (2 * fxAtanh z : Nat)

/-- A fixed-point result as a value. -/
def fxVal (x : Int) : Val := .num (decide (x < 0)) x.natAbs (-(fxP : Int))

/-- R65: 1 ÷ x. -/
def frcp (v : Val) : Val :=
  match v with
  | .nan => .nan
  | .inf n => .num n 0 0
  | .num n m e =>
    if m = 0 then .inf n
    else
      let k := blen m + 64
      let q := 2 ^ k / m
      let s := if q * m = 2 ^ k then 0 else 1
      roundTo flt32 (.num n (2 * q + s) (-(k : Int) - e - 1))

/-- R65: the square root. -/
def fsqrt (v : Val) : Val :=
  match v with
  | .nan => .nan
  | .inf n => if n then .nan else .inf false
  | .num n m e =>
    if m = 0 then v
    else if n then .nan
    else
      let (m, e) := if e % 2 = 0 then (m, e) else (2 * m, e - 1)
      let m := m * 2 ^ 128
      let r := Nat.sqrt m
      let s := if r * r = m then 0 else 1
      roundTo flt32 (.num false (2 * r + s) (e / 2 - 64 - 1))

/-- R65: 1 ÷ √x. -/
def frsqrt (v : Val) : Val :=
  match v with
  | .nan => .nan
  | .inf n => if n then .nan else valZero
  | .num n m e =>
    if m = 0 then .inf n
    else if n then .nan
    else
      let (m, e) := if e % 2 = 0 then (m, e) else (2 * m, e - 1)
      let q := Nat.sqrt (2 ^ 400 / m)
      let s := if q * q * m = 2 ^ 400 then 0 else 1
      roundTo flt32 (.num false (2 * q + s) (-(200 : Int) - e / 2 - 1))

/-- Whether a magnitude is at least 2^k. -/
def geP2 (m : Nat) (e : Int) (k : Int) : Bool := decide (m ≠ 0) && decide (k ≤ floorLog2 m e)

/-- R65: e^x. -/
def fexp (v : Val) : Val :=
  match v with
  | .nan => .nan
  | .inf n => if n then valZero else .inf false
  | .num n m e =>
    if m = 0 then valOne
    else if geP2 m e 8 then (if n then valZero else .inf false)
    else
      let (s, k) := fxExpInt (fxOf n m e)
      roundTo flt32 (.num false s (k - fxP))

/-- R65: 2^x. -/
def fexp2 (v : Val) : Val :=
  match v with
  | .nan => .nan
  | .inf n => if n then valZero else .inf false
  | .num n m e =>
    if m = 0 then valOne
    else if geP2 m e 10 then (if n then valZero else .inf false)
    else
      let x := fxOf n m e
      let k := x / ((2 ^ fxP : Nat) : Int)
      let r := (x - k * ((2 ^ fxP : Nat) : Int)).toNat
      roundTo flt32 (.num false (fxExp (r * fxLn2 / 2 ^ fxP)) (k - fxP))

/-- R65: ln x. -/
def flog (v : Val) : Val :=
  match v with
  | .nan => .nan
  | .inf n => if n then .nan else .inf false
  | .num n m e =>
    if m = 0 then .inf true
    else if n then .nan
    else if veq v valOne then valZero
    else roundTo flt32 (fxVal (fxLog m e))

/-- R65: log2 x. -/
def flog2 (v : Val) : Val :=
  match v with
  | .nan => .nan
  | .inf n => if n then .nan else .inf false
  | .num n m e =>
    if m = 0 then .inf true
    else if n then .nan
    else if m = 2 ^ (blen m - 1) then roundTo flt32 (valInt (floorLog2 m e))
    else roundTo flt32 (fxVal (fxLog m e * ((2 ^ fxP : Nat) : Int) / (fxLn2 : Int)))

/-- R65: tanh x. -/
def ftanh (v : Val) : Val :=
  match v with
  | .nan => .nan
  | .inf n => .num n 1 0
  | .num n m e =>
    if m = 0 then v
    else if geP2 m e 4 then .num n 1 0
    else if !geP2 m e (-60) then v   -- |x| − tanh |x| < |x|³/3 lies far below half an ulp
    else
      let (s, k) := fxExpInt (2 * fxOf false m e)
      let p : Nat := s * 2 ^ k.toNat
      let t := (p - 2 ^ fxP) * 2 ^ fxP / (p + 2 ^ fxP)
      roundTo flt32 (.num n t (-(fxP : Int)))

/-- An FP32 constant by its encoding. -/
def f32 (c : Nat) : Val := fltDecode flt32 c

/-- R66: sigmoid(x) = rcp(1 + exp(−x)). -/
def fsigmoid (x : Val) : Val := frcp (fadd flt32 valOne (fexp (vneg x)))
/-- R66: silu(x) = x · sigmoid(x). -/
def fsilu (x : Val) : Val := fmul flt32 x (fsigmoid x)
/-- R66: gelu in its tanh form, step by step. -/
def fgelu (x : Val) : Val :=
  let t := fmul flt32 x x
  let u := ffma flt32 (f32 0x3D372713) t valOne
  let v := fmul flt32 x u
  let w := fmul flt32 (f32 0x3F4C422A) v
  let h := ftanh w
  fmul flt32 (fmul flt32 (.num false 1 (-1)) x) (fadd flt32 valOne h)

/-- R52, R71: an integer sum in a `w`-bit accumulator: wrapped or saturated, and whether it overflowed. -/
def accInt (w : Nat) (sat : Bool) (x : Int) : Int × Bool :=
  let hi : Int := (2 ^ (w - 1) : Nat) - 1
  let lo : Int := -((2 ^ (w - 1) : Nat) : Int)
  if x < lo then (if sat then lo else signed w (unsigned w x), true)
  else if hi < x then (if sat then hi else signed w (unsigned w x), true)
  else (x, false)

end Sys2Proof.Machine
end

