-- ==== Sys2Proof/Machine/Tensor.lean ====
section
/-! DEFINITION. Items: the layout of a tensor in memory (R19, R20, R79), and the operations of R86–R90 on whole items, with the
arithmetic of R24, R32–R38, R68, R70 and R89. -/

namespace Sys2Proof.Machine

/-- An item of R77: a tensor of element codes in row-major order, and the scale codes of an MX item (R79) with their
direction. -/
structure Item where
  fmt : Fmt
  rows : Nat
  cols : Nat
  /-- MX: the blocks run along COLS (true) or along ROWS (false). -/
  along : Bool
  codes : List Nat
  scales : List Nat
deriving DecidableEq, Repr

/-- R19: bytes of one packed row. -/
def rowBytes (f : Fmt) (cols : Nat) : Nat :=
  match fmtWidth f with
  | 4 => cdiv cols 2
  | 6 => 3 * cdiv cols 4
  | w => cols * (w / 8)

/-- R79: shape of the scale array of an MX item, as (rows, columns). -/
def scaleShape (rows cols : Nat) (along : Bool) : Nat × Nat :=
  if along then (rows, cdiv cols 32) else (cdiv rows 32, cols)

/-- R79: bytes from the start of an item to its scale array, in a packed item or a region with a row pitch. -/
def scaleOffset (f : Fmt) (rows cols pitch : Nat) : Nat :=
  let rb := rowBytes f cols
  let e := if pitch = 0 then rows * rb else (rows - 1) * pitch + rb
  128 * cdiv e 128

/-- R79, R104: bytes an item occupies in a region of the given row pitch (0 = packed). -/
def itemSpan (f : Fmt) (rows cols pitch : Nat) (along : Bool) : Nat :=
  let rb := rowBytes f cols
  if fmtMx f then
    let sh := scaleShape rows cols along
    scaleOffset f rows cols pitch + sh.1 * sh.2
  else if pitch = 0 then rows * rb else (rows - 1) * pitch + rb

/-- R19: the elements of one row, from its bytes. -/
def unpackRow (f : Fmt) (cols : Nat) (bs : List Byte) : List Nat :=
  let x := leNat bs
  (List.range cols).map fun j => bits x (fmtWidth f * j + fmtWidth f - 1) (fmtWidth f * j)

/-- R19: the bytes of one row; padding is written as zero. -/
def packRow (f : Fmt) (cols : Nat) (codes : List Nat) : List Byte :=
  leBytes (rowBytes f cols) (codes.foldr (fun c x => c % 2 ^ fmtWidth f + 2 ^ fmtWidth f * x) 0)

/-- R19, R79: read a packed item from its bytes. -/
def unpackItem (f : Fmt) (rows cols : Nat) (along : Bool) (bs : List Byte) : Item :=
  let rb := rowBytes f cols
  let codes := (List.range rows).flatMap fun r => unpackRow f cols (slice bs (r * rb) rb)
  let sh := scaleShape rows cols along
  let scales := if fmtMx f then (slice bs (scaleOffset f rows cols 0) (sh.1 * sh.2)).map (·.toNat) else []
  { fmt := f, rows := rows, cols := cols, along := along, codes := codes, scales := scales }

/-- Split a list into pieces of `n`, `k` of them. -/
def pieces {α : Type} (n : Nat) : Nat → List α → List (List α)
  | 0, _ => []
  | k + 1, l => l.take n :: pieces n k (l.drop n)

/-- R19, R79: the bytes of a packed item, gaps zero. -/
def packItem (it : Item) : List Byte :=
  let el := (pieces it.cols it.rows it.codes).flatMap (packRow it.fmt it.cols)
  if fmtMx it.fmt then
    el ++ List.replicate (scaleOffset it.fmt it.rows it.cols 0 - el.length) 0 ++ it.scales.map (BitVec.ofNat 8)
  else el

/-- The scale code that governs element (r, c) of an item (R79). -/
def scaleAt (it : Item) (r c : Nat) : Nat :=
  if it.along then it.scales.getD (r * cdiv it.cols 32 + c / 32) 0 else it.scales.getD ((r / 32) * it.cols + c) 0

/-- The code of element (r, c). -/
def codeAt (it : Item) (r c : Nat) : Nat := it.codes.getD (r * it.cols + c) 0

/-- The exact value of element (r, c), its block scale applied (R18, R20). -/
def valAt (it : Item) (r c : Nat) : Val :=
  if fmtMx it.fmt then mxValue it.fmt (scaleAt it r c) (codeAt it r c) else decodeElem it.fmt (codeAt it r c)

/-- All values, as rows. -/
def itemRows (it : Item) : List (List Val) :=
  (List.range it.rows).map fun r => (List.range it.cols).map fun c => valAt it r c

/-- The transpose of a list of rows of length `n`. -/
def transposeL (n : Nat) (m : List (List Val)) : List (List Val) :=
  (List.range n).map fun j => m.map fun row => row.getD j .nan

/-- The rows of the item as the operation sees it: transposed when the slot asks for it (R83). -/
def opRows (it : Item) (tr : Bool) : List (List Val) :=
  if tr then transposeL it.cols (itemRows it) else itemRows it

/-- The conversion that a command applies to its results (R28–R30): SAT, STOCH and the run seed. -/
structure Conv where
  sat : Bool
  stoch : Bool
  seed : Nat
deriving DecidableEq, Repr

/-- R67: convert one row of values to an MX format in blocks of 32 along the row; a last block may be short. -/
def mxRow (f : Fmt) (cv : Conv) (r cols : Nat) (row : List Val) : List Nat × List Nat :=
  let vs := row.mapIdx fun c v => (v, rndAt cv.stoch cv.seed (r * cols + c))
  let bl := (pieces 32 (cdiv cols 32) vs).map (mxBlock f)
  (bl.flatMap (·.2), bl.map (·.1))

/-- An item of a format from rows of results, converted under R28–R31; MX blocks run along COLS (R67). -/
def encodeRows (f : Fmt) (cv : Conv) (cols : Nat) (m : List (List Val)) : Item :=
  if fmtMx f then
    let bl := m.mapIdx fun r row => mxRow f cv r cols row
    { fmt := f, rows := m.length, cols := cols, along := true
      codes := bl.flatMap (·.1), scales := bl.flatMap (·.2) }
  else
    { fmt := f, rows := m.length, cols := cols, along := true
      codes := (m.mapIdx fun r row => row.mapIdx fun c v => encodeElem f cv.sat (rndAt cv.stoch cv.seed (r * cols + c)) v).flatten
      scales := [] }

/-! ### Data movement (R79, R86) -/

/-- Where an output element comes from: an input item and its row and column, or the fill value +0. -/
abbrev Source := Option (Nat × Nat × Nat)

/-- The input item that `Source` names. -/
def srcItem (ins : List Item) (i : Nat) : Item :=
  ins.getD i { fmt := .uint8, rows := 0, cols := 0, along := true, codes := [], scales := [] }

/-- The value an output element takes. -/
def srcVal (ins : List Item) : Source → Val
  | none => valZero
  | some (i, r, c) => valAt (srcItem ins i) r c

/-- R86: one element outside MX: copied bit for bit where the formats are equal, otherwise converted. -/
def moveElem (ins : List Item) (f : Fmt) (cv : Conv) (idx : Nat) (s : Source) : Nat :=
  match s with
  | none => encodeElem f cv.sat (rndAt cv.stoch cv.seed idx) valZero
  | some (i, r, c) =>
    let it := srcItem ins i
    if it.fmt = f then codeAt it r c else encodeElem f cv.sat (rndAt cv.stoch cv.seed idx) (valAt it r c)

/-- R79: an output MX block, from the sources of its elements in order: copied bit for bit when they are one input block that
starts at the same element and is as long, otherwise formed afresh under R31; so is a block that runs across the input's
blocks, where ALL_GATHER or BROADCAST turns the direction (log 97). -/
def moveBlock (ins : List Item) (f : Fmt) (cv : Conv) (along : Bool) (els : List (Nat × Source)) : Nat × List Nat :=
  let afresh := mxBlock f (els.map fun e => (srcVal ins e.2, rndAt cv.stoch cv.seed e.1))
  match els.head?.bind (·.2) with
  | none => afresh
  | some (i, r0, c0) =>
    let it := srcItem ins i
    let p0 := if along then c0 else r0
    let len := min 32 ((if along then it.cols else it.rows) - p0)
    let same := it.fmt = f && it.along = along && p0 % 32 = 0 && len = els.length &&
      (List.range els.length).all fun k =>
        (els.map (·.2)).getD k none = some (if along then (i, r0, c0 + k) else (i, r0 + k, c0))
    if same then (scaleAt it r0 c0, (List.range els.length).map fun k => if along then codeAt it r0 (c0 + k) else codeAt it (r0 + k) c0)
    else afresh

/-- R79, R86: build an output item whose element (r, c) comes from `src r c`. -/
def moveItem (ins : List Item) (f : Fmt) (rows cols : Nat) (along : Bool) (cv : Conv) (src : Nat → Nat → Source) : Item :=
  if fmtMx f then
    if along then
      let bl := (List.range rows).flatMap fun r => (List.range (cdiv cols 32)).map fun b =>
        moveBlock ins f cv true ((List.range (min 32 (cols - 32 * b))).map fun k => (r * cols + 32 * b + k, src r (32 * b + k)))
      { fmt := f, rows := rows, cols := cols, along := true, codes := bl.flatMap (·.2), scales := bl.map (·.1) }
    else
      let bl := (List.range (cdiv rows 32)).flatMap fun b => (List.range cols).map fun c =>
        moveBlock ins f cv false ((List.range (min 32 (rows - 32 * b))).map fun k => ((32 * b + k) * cols + c, src (32 * b + k) c))
      { fmt := f, rows := rows, cols := cols, along := false, scales := bl.map (·.1)
        codes := (List.range rows).flatMap fun r => (List.range cols).map fun c => ((bl.getD ((r / 32) * cols + c) (0, [])).2).getD (r % 32) 0 }
  else
    { fmt := f, rows := rows, cols := cols, along := along, scales := []
      codes := (List.range rows).flatMap fun r => (List.range cols).map fun c => moveElem ins f cv (r * cols + c) (src r c) }

/-- R86 MOVE: a bit-exact copy, transposed when the slot asks for it; an MX item is copied whole. -/
def opMove (it : Item) (tr : Bool) : Item :=
  if tr then { it with rows := it.cols, cols := it.rows, codes := (List.range it.cols).flatMap fun c => (List.range it.rows).map fun r => codeAt it r c }
  else it

/-- The element of an operand as the operation sees it, through the slot's transposition. -/
def tsrc (i : Nat) (tr : Bool) (r c : Nat) : Source := some (if tr then (i, c, r) else (i, r, c))

/-- Rows and columns of an operand as the operation sees it. -/
def opShape (it : Item) (tr : Bool) : Nat × Nat := if tr then (it.cols, it.rows) else (it.rows, it.cols)

/-- R86 SLICE: the sub-array at the offsets. -/
def opSlice (a : Item) (tr : Bool) (f : Fmt) (rows cols ro co : Nat) (along : Bool) (cv : Conv) : Item :=
  moveItem [a] f rows cols along cv fun r c => tsrc 0 tr (ro + r) (co + c)

/-- R86 CONCAT: IN1 below IN0 (`right` false) or right of it. -/
def opConcat (a b : Item) (ta tb right : Bool) (f : Fmt) (rows cols : Nat) (along : Bool) (cv : Conv) : Item :=
  let sh := opShape a ta
  moveItem [a, b] f rows cols along cv fun r c =>
    if right then (if c < sh.2 then tsrc 0 ta r c else tsrc 1 tb r (c - sh.2))
    else (if r < sh.1 then tsrc 0 ta r c else tsrc 1 tb (r - sh.1) c)

/-- The INT32 index i of an index vector. -/
def indexAt (it : Item) (tr : Bool) (i : Nat) : Int :=
  signed 32 (if tr then codeAt it i 0 else codeAt it 0 i)

/-- R86 GATHER: row i is row IN1[i] of the table; an index out of range gives a row of +0. -/
def opGather (t ix : Item) (ti tx : Bool) (f : Fmt) (rows cols : Nat) (along : Bool) (cv : Conv) : Item :=
  let n : Int := ((opShape t ti).1 : Int)
  moveItem [t] f rows cols along cv fun r c =>
    let j := indexAt ix tx r
    if 0 ≤ j ∧ j < n then tsrc 0 ti j.toNat c else none

/-- The highest i whose index is `r`, if any (R86 SCATTER). -/
def lastIndex (ix : Item) (tx : Bool) (n r : Nat) : Option Nat :=
  (List.range n).foldl (fun a i => if indexAt ix tx i = (r : Int) then some i else a) none

/-- R86 SCATTER: the base with row IN1[i] replaced by row i of IN0; the highest i wins. -/
def opScatter (a ix base : Item) (ta tx tb : Bool) (f : Fmt) (rows cols : Nat) (along : Bool) (cv : Conv) : Item :=
  let n := (opShape a ta).1
  moveItem [a, base] f rows cols along cv fun r c =>
    match lastIndex ix tx n r with
    | some i => tsrc 0 ta i c
    | none => tsrc 1 tb r c

/-- R86 FILL: every element the encoding; every block scale of an MX format 0x7F. -/
def opFill (f : Fmt) (rows cols : Nat) (along : Bool) (code : Nat) : Item :=
  let sh := scaleShape rows cols along
  { fmt := f, rows := rows, cols := cols, along := along, codes := List.replicate (rows * cols) (code % 2 ^ fmtWidth f)
    scales := if fmtMx f then List.replicate (sh.1 * sh.2) 0x7F else [] }

/-! ### Matrix products (R21–R24, R32–R38, R51, R52) -/

/-- R24: one chunk's column sum in FP32, with the overflow flag of R51. -/
def colsum32 (ps : List (Val × Val)) : Option Val × Bool :=
  ps.foldl (fun (acc : Option Val × Bool) p =>
    let x := vmul p.1 p.2
    let q := roundTo flt32 x
    let o := match x, q with | .num .., .inf _ => true | _, _ => false
    match acc.1 with
    | none => (some q, acc.2 || o)
    | some t =>
      let s := fadd flt32 t q
      (some s, acc.2 || o || overflowed t q s)) (none, false)

/-- R24, R51: add a pass or chunk sum into the column accumulator; each overflow counts once. -/
def accAdd32 (acc : Option Val × Nat) (t : Option Val × Bool) : Option Val × Nat :=
  let n := acc.2 + b2n t.2
  match acc.1, t.1 with
  | none, t' => (t', n)
  | some a, some t' => let s := fadd flt32 a t'
    (some s, n + b2n (overflowed a t' s))
  | some a, none => (some a, n)

/-- R24: one output element in FP32 and its ACC_OVF count. -/
def dot32 (a b : List Val) : Option Val × Nat :=
  let ps := a.zip b
  (pieces 128 (cdiv ps.length 128) ps).foldl (fun acc ch => accAdd32 acc (colsum32 ch)) (none, 0)

/-- The integer a value holds. -/
def valToInt : Val → Int
  | .num n m e => let x : Int := (shiftFloor m e : Nat)
    if n then -x else x
  | _ => 0

/-- R24, R52: one output element in INT32 and its overflow count. -/
def dotInt (sat : Bool) (a b : List Val) : Int × Nat :=
  let ps := a.zip b
  match (pieces 128 (cdiv ps.length 128) ps).map fun ch => ch.foldl (fun t p => t + valToInt p.1 * valToInt p.2) (0 : Int) with
  | [] => (0, 0)
  | t :: ts => ts.foldl (fun acc t => let r := accInt 32 sat (acc.1 + t)
      (r.1, acc.2 + b2n r.2)) (t, 0)

/-- The BF16 layout. -/
def fltBf16 : Flt := { eb := 8, fb := 7, bias := 127, ieee := true, topNan := false, nan := 0x7FC0 }

/-- R32: the nearest BF16 of a finite value, the largest finite one where that would overflow. -/
def bf16Sat (v : Val) : Val := fltDecode fltBf16 (fltEncode fltBf16 true .nearest v)

/-- R32: the BF16 pieces x1, x2, x3 of a value; a zero gives zeros of its sign. -/
def bf16Piece (x : Val) (i : Nat) : Val :=
  match x with
  | .num _ 0 _ => x
  | _ =>
    let x1 := bf16Sat x
    let x2 := bf16Sat (vsub x x1)
    let x3 := bf16Sat (vsub (vsub x x1) x2)
    match i with
    | 1 => x1
    | 2 => x2
    | _ => x3

/-- R33: the piece pairs in order: descending i + j, ascending i. -/
def bf16Pairs (p : Nat) : List (Nat × Nat) :=
  (List.range p).flatMap fun k =>
    let d := p + 1 - k
    ((List.range p).filter fun i => decide (i + 1 < d) && decide (d - (i + 1) ≤ p)).map fun i => (i + 1, d - (i + 1))

/-- R38: the special result of a split product, if an operand element is not finite. -/
def splitSpecial (a b : List Val) : Option Val :=
  let ps := (a.zip b)
  if ps.all fun p => match p.1, p.2 with | .num .., .num .. => true | _, _ => false then none
  else
    let pr := ps.map fun p => vmul p.1 p.2
    if pr.any (fun v => v == .nan) || (pr.any (· == .inf false) && pr.any (· == .inf true)) then some .nan
    else if pr.any (· == .inf true) then some (.inf true) else some (.inf false)

/-- R33, R38: one output element of a BF16-split product and its ACC_OVF count; none is counted where R38 replaces the sum (log 104). -/
def dotBf16 (p : Nat) (a b : List Val) : Option Val × Nat :=
  match splitSpecial a b with
  | some v => (some v, 0)
  | none =>
    let ps := a.zip b
    (pieces 128 (cdiv ps.length 128) ps).foldl (fun acc ch =>
      (bf16Pairs p).foldl (fun acc ij => accAdd32 acc (colsum32 (ch.map fun x => (bf16Piece x.1 ij.1, bf16Piece x.2 ij.2)))) acc) (none, 0)

/-- R35: the group exponent E of a group of values. -/
def groupExp (g : List Val) : Int := (blockLog2 g).getD 0

/-- R35: slices 1 … s of y = x · 2^(−E−1). -/
def slices (e : Int) : Nat → Val → List Int
  | 0, _ => []
  | n + 1, v =>
    let y := vscale 7 v
    let s := match y with
      | .num neg m k => let t : Int := (shiftFloor m k : Nat)
        if neg then -t else t
      | _ => 0
    s :: slices e n (vsub y (valInt s))

/-- R35: the slices of x in a group of exponent e. -/
def slicesOf (s : Nat) (e : Int) (x : Val) : List Int := slices e s (vscale (-e - 1) x)

/-- R36: one chunk of a sliced product. -/
def sliceChunk (s : Nat) (ch : List (Val × Val)) : Val :=
  let ea := groupExp (ch.map (·.1))
  let eb := groupExp (ch.map (·.2))
  let sl := ch.map fun x => (slicesOf s ea x.1, slicesOf s eb x.2)
  let weight := fun (d : Nat) => (List.range s).foldl (fun (l : Int) i0 =>
    let i := i0 + 1
    if i < d ∧ d - i ≤ s then l + sl.foldl (fun t x => t + x.1.getD (i - 1) 0 * x.2.getD (d - i - 1) 0) 0 else l) 0
  let v := (List.range s).foldl (fun (v : Option Val) k =>
    let d := s + 1 - k
    let w := vscale (-7 * (d : Int)) (valInt (weight d))
    match v with
    | none => some w
    | some u => some (fadd flt64 u w)) none
  roundTo flt64 (vscale (ea + eb + 2) (v.getD valZero))

/-- R36, R38: one output element of an INT8-sliced product, in FP64. -/
def dotSlices (s : Nat) (a b : List Val) : Option Val :=
  match splitSpecial a b with
  | some v => some v
  | none =>
    let ps := a.zip b
    ((pieces 128 (cdiv ps.length 128) ps).map (sliceChunk s)).foldl (fun acc v =>
      match acc with
      | none => some v
      | some u => some (fadd flt64 u v)) none

/-- R86: the mode of a MATMUL. -/
inductive MatMode where
  | normal
  | bf16 (p : Nat)
  | int8 (s : Nat)
deriving DecidableEq, Repr

/-- One output element by the mode and the operand formats. -/
def dotMode (md : MatMode) (isInt sat : Bool) (a b : List Val) : Val × Nat :=
  match md with
  | .normal => if isInt then let r := dotInt sat a b
      (valInt r.1, r.2)
    else let r := dot32 a b
      (r.1.getD .nan, r.2)
  | .bf16 p => let r := dotBf16 p a b
    (r.1.getD .nan, r.2)
  | .int8 s => ((dotSlices s a b).getD .nan, 0)

/-- R87: the rows of one product and its ACC_OVF count. -/
def matRows (md : MatMode) (isInt sat : Bool) (a bt : List (List Val)) : List (List Val) × Nat :=
  let m := a.map fun ar => bt.map fun bc => dotMode md isInt sat ar bc
  (m.map fun r => r.map (·.1), sumL (m.map fun r => sumL (r.map (·.2))))

/-- Rows [i·h, i·h + h) of an item of b problems, as the operation sees problem i (R87: each block is transposed within
itself). -/
def problemRows (it : Item) (tr : Bool) (b i : Nat) : List (List Val) :=
  let h := it.rows / b
  let blk := ((itemRows it).drop (i * h)).take h
  if tr then transposeL it.cols blk else blk

/-- R86, R87: MATMUL (b = 1) and MATMUL_BATCHED: the result rows and the ACC_OVF count. -/
def opMatmul (a b : Item) (ta tb : Bool) (md : MatMode) (sat : Bool) (n : Nat) : List (List Val) × Nat :=
  let isInt := fmtInt a.fmt
  let rs := (List.range n).map fun i =>
    let br := problemRows b tb n i
    matRows md isInt sat (problemRows a ta n i) (transposeL ((br.headD []).length) br)
  (rs.flatMap (·.1), sumL (rs.map (·.2)))

/-! ### Vector chains (R64, R88) -/

/-- One lane operation of R88. -/
structure LaneOp where
  op : Nat
  a : Nat
  b : Nat
  c : Nat
deriving DecidableEq, Repr

/-- R88: lane operation i of the 192 bits of IMM0–IMM5. -/
def laneOpAt (imm i : Nat) : LaneOp :=
  let w := bits imm (12 * i + 11) (12 * i)
  { op := bits w 5 0, a := bits w 7 6, b := bits w 9 8, c := bits w 11 10 }

/-- R88: the chain: up to the first operation code 0, or 16 operations. -/
def chainOf (imm : Nat) : List LaneOp := ((List.range 16).map (laneOpAt imm)).takeWhile (fun o => o.op ≠ 0)

/-- R88: one lane operation on its sources, in the working layout; `j` is the integer that the scale operation reads. -/
def laneExec (w : Flt) (op : Nat) (a b c : Val) (j : Int) : Val :=
  match op with
  | 0x01 => fadd w a b
  | 0x02 => fadd w a (vneg b)
  | 0x03 => fmul w a b
  | 0x04 => ffma w a b c
  | 0x05 => vmin a b
  | 0x06 => vmax a b
  | 0x07 => vabs a
  | 0x08 => vneg a
  | 0x09 => vmax a valZero
  | 0x0A => vmask (veq a b)
  | 0x0B => vmask (vlt a b)
  | 0x0C => vmask (veq a b || vlt a b)
  | 0x0D => if veq a valOne then b else c
  | 0x0E => roundTo w (vscale j a)
  | 0x10 => frcp a
  | 0x11 => fsqrt a
  | 0x12 => frsqrt a
  | 0x13 => fexp a
  | 0x14 => fexp2 a
  | 0x15 => flog a
  | 0x16 => flog2 a
  | 0x17 => ftanh a
  | 0x18 => fsigmoid a
  | 0x19 => fsilu a
  | 0x1A => fgelu a
  | _ => a

/-- R88: run a chain on one element. -/
def runChain (w : Flt) (x y : Val) (k0 k1 : Nat) (ops : List LaneOp) : Val :=
  ops.foldl (fun v o =>
    let src := fun n => match n with | 0 => v | 1 => y | 2 => f32 k0 | _ => f32 k1
    let j := match o.b with
      | 2 => signed 32 k0
      | 3 => signed 32 k1
      | n => toInt (-2147483648) 2147483647 (src n)
    laneExec w o.op (src o.a) (src o.b) (src o.c) j) x

/-- R64: the special functions an operation passes each element through (R75). -/
def specialCount (op : Nat) : Nat :=
  if 0x10 ≤ op ∧ op ≤ 0x17 then 1 else if op = 0x18 ∨ op = 0x19 then 2 else if op = 0x1A then 1 else 0

/-- R64: cost in lane cycles of a lane operation. -/
def laneCost (op : Nat) (fp64 : Bool) : Nat :=
  if op ≤ 0x0E then (if fp64 then 2 else 1)
  else if op ≤ 0x17 then 4 else if op = 0x18 then 10 else 11

/-- R88: convert an operand element to the working format: exact where it fits, else nearest with the command's SAT. -/
def toWork (w : Fmt) (sat : Bool) (v : Val) : Val := decodeElem w (encodeElem w sat .nearest v)

/-- R88: VEC_CHAIN over whole operands, IN1 broadcast from one row or one column. -/
def opVecChain (a : Item) (ta : Bool) (b : Option Item) (tb : Bool) (fp64 sat : Bool) (imm k0 k1 : Nat) : List (List Val) :=
  let w := if fp64 then Fmt.fp64 else Fmt.fp32
  let wl := if fp64 then flt64 else flt32
  let ops := chainOf imm
  let br := match b with
    | some x => opRows x tb
    | none => []
  let shb := match b with
    | some x => opShape x tb
    | none => (0, 0)
  (opRows a ta).mapIdx fun r row => row.mapIdx fun c v =>
    let y := (br.getD (if shb.1 = 1 then 0 else r) []).getD (if shb.2 = 1 then 0 else c) .nan
    runChain wl (toWork w sat v) (toWork w sat y) k0 k1 ops

/-! ### Row operations, reductions (R68, R70, R71, R89, R90) -/

/-- A sum in ascending order whose first term enters unrounded. -/
def sumFirst (add : Val → Val → Val) : List Val → Val
  | [] => valZero
  | x :: xs => xs.foldl add x

/-- R68: the kinds of row operation, on one row in FP32: the output row and the special functions used. -/
def rowOp (kind : Nat) (eps : Val) (gam bet : List Val) (row : List Val) : List Val :=
  let add := fadd flt32
  let mul := fmul flt32
  let sub := fun a b => fadd flt32 a (vneg b)
  let r := frcp (valInt (row.length : Nat))
  let sqsum := fun l : List Val => match l with
    | [] => valZero
    | x :: xs => xs.foldl (fun v d => ffma flt32 d d v) (mul x x)
  match kind with
  | 0 => [sumFirst add row]
  | 1 => [sumFirst vmax row]
  | 2 => [sumFirst vmin row]
  | 3 =>
    let mx := sumFirst vmax row
    let es := row.map fun x => fexp (sub x mx)
    let q := frcp (sumFirst add es)
    es.map fun e => mul e q
  | 4 =>
    let mu := mul (sumFirst add row) r
    let sg := frsqrt (add (mul (sqsum (row.map fun x => sub x mu)) r) eps)
    row.mapIdx fun n x => ffma flt32 (mul (sub x mu) sg) (gam.getD n valZero) (bet.getD n valZero)
  | _ =>
    let sg := frsqrt (add (mul (sqsum row) r) eps)
    row.mapIdx fun n x => mul (mul x sg) (gam.getD n valZero)

/-- R86, R68: ROW_OP over all rows. -/
def opRowOp (kind : Nat) (sat : Bool) (eps : Val) (a : Item) (ta : Bool) (g b : Option (Item × Bool)) : List (List Val) :=
  let vec := fun (o : Option (Item × Bool)) => match o with
    | some x => ((opRows x.1 x.2).headD []).map (toWork .fp32 sat)
    | none => []
  (opRows a ta).map fun row => rowOp kind eps (vec g) (vec b) (row.map (toWork .fp32 sat))

/-- R70: one level of the tree: neighbours 2i and 2i + 1 combined, an odd last one passed on. -/
def treeLevel {α : Type} (f : α → α → α) : List α → List α
  | x :: y :: l => f x y :: treeLevel f l
  | l => l

/-- R70: seven levels of the tree over up to 128 lanes. -/
def tree128 {α : Type} (f : α → α → α) (l : List α) : Option α :=
  ((List.range 7).foldl (fun l _ => treeLevel f l) l).head?

/-- R89: groups of 128 rows by the tree, then the groups in ascending order. -/
def treeGroups {α : Type} (f : α → α → α) (l : List α) : Option α :=
  match (pieces 128 (cdiv l.length 128) l).filterMap (tree128 f) with
  | [] => none
  | x :: xs => some (xs.foldl f x)

/-- R89, R90: the combination of a reduction: sum, maximum or minimum, in the accumulation format of the input. -/
def reduceFn (f : Fmt) (kind : Nat) (sat : Bool) (narrow : Bool) : Val → Val → Val :=
  match kind with
  | 1 => vmax
  | 2 => vmin
  | _ =>
    if fmtInt f then
      let w := if f = .int48 ∧ ¬ narrow then 48 else 32
      fun a b => valInt (accInt w sat (valToInt a + valToInt b)).1
    else if f = .fp64 then fadd flt64 else fadd flt32

/-- R89: COL_REDUCE; each term enters unrounded, and only a sum rounds. -/
def opColReduce (kind : Nat) (sat : Bool) (a : Item) (ta : Bool) : List (List Val) :=
  let rows := opRows a ta
  [(transposeL (opShape a ta).2 rows).map fun col =>
    (treeGroups (reduceFn a.fmt kind sat false) col).getD .nan]

/-- R71: LACC_SUM: elementwise exact sums in 48 bits, with the overflow count. -/
def opLaccSum (sat : Bool) (items : List Item) (tr : Bool) : List (List Val) × Nat :=
  match items with
  | [] => ([], 0)
  | x :: xs =>
    let start := (opRows x tr).map fun row => row.map fun v => (valToInt v, 0)
    let r := xs.foldl (fun (acc : List (List (Int × Nat))) it =>
      acc.zipWith (fun ra rb => ra.zipWith (fun (a : Int × Nat) (v : Val) =>
        let s := accInt 48 sat (a.1 + valToInt v)
        (s.1, a.2 + b2n s.2)) rb) (opRows it tr)) start
    (r.map fun row => row.map fun p => valInt p.1, sumL (r.map fun row => sumL (row.map (·.2))))

/-- R90: ALL_REDUCE of the members' contributions in ascending member number, the first term unrounded. -/
def opAllReduce (kind : Nat) (sat : Bool) (fmt : Fmt) (contribs : List (List (List Val))) : List (List Val) :=
  match contribs with
  | [] => []
  | x :: xs => xs.foldl (fun acc m => acc.zipWith (fun ra rb => ra.zipWith (reduceFn fmt kind sat true) rb) m) x

end Sys2Proof.Machine
end

