-- ==== Sys2Proof/Machine/Operands.lean ====
section
/-! DEFINITION. The structures in memory, field by field: command descriptors and slots (R81, R83), program headers and
comparators (R95), run requests and bindings (R103, R104), load requests and results (R112, R117), and completion records
(R108).  Each is a number whose bit 0 is bit 0 of its first byte (R1). -/

namespace Sys2Proof.Machine

/-! ### Reserved fields that the device writes (R2; log 92) -/

/-- The bits of byte `i` that some reserved fields [h:l] hold. -/
def holeMask (holes : List (Nat × Nat)) (i : Nat) : Byte :=
  BitVec.ofNat 8 (maskOf (idxs 8 (fun j => holes.any (fun e => decide (e.2 ≤ 8 * i + j ∧ 8 * i + j ≤ e.1)))))

/-- A structure as it leaves the device: its reserved fields read as undefined (R2), so they hold free bits of a draw. -/
def withReserved (draw : Nat) (holes : List (Nat × Nat)) (bs : List Byte) : List Byte :=
  bs.mapIdx (fun i b =>
    let m := holeMask holes i
    if m = 0 then b else (b &&& ~~~m) ||| (Config.freeByte draw i &&& m))

/-- The reserved fields of a completion record (R108), a per-part status entry (R110), a part map entry (R240) and a load
result (R117). -/
def recordHoles : List (Nat × Nat) := [(510, 432), (351, 346), (87, 84), (79, 77)]
def psaHoles : List (Nat × Nat) := [(511, 384)]
def mapHoles : List (Nat × Nat) := [(1023, 128), (95, 91), (87, 80)]
def resultHoles : List (Nat × Nat) := [(255, 208), (175, 170), (135, 64)]

/-! ### Command descriptors (R81) -/

def dOpcode (d : Nat) : Nat := bits d 7 0
def dSubop (d : Nat) : Nat := bits d 15 8
def dRec (d : Nat) : Bool := bit d 16
def dReplay (d : Nat) : Bool := bit d 17
def dSat (d : Nat) : Bool := bit d 18
def dStoch (d : Nat) : Bool := bit d 19
def dPin (d : Nat) : Bool := bit d 20
def dIrq (d : Nat) : Bool := bit d 21
def dNdep (d : Nat) : Nat := bits d 26 24
def dPredEn (d : Nat) : Bool := bit d 27
def dSeq (d : Nat) : Nat := bits d 63 32
def dDep (d i : Nat) : Nat := bits d (95 + 32 * i) (64 + 32 * i)
def dPredCtr (d : Nat) : Nat := bits d 195 192
def dPredCmp (d : Nat) : Nat := bits d 198 196
def dPredSense (d : Nat) : Bool := bit d 199
def dLatClass (d : Nat) : Nat := bits d 201 200
def dHeavyAhead (d : Nat) : Bool := bit d 202
def dAffinity (d : Nat) : Nat := bits d 211 208
def dHeavyLead (d : Nat) : Nat := bits d 223 216
def dPinDie (d : Nat) : Nat := bits d 229 224
def dPinTiles (d : Nat) : Nat := bits d 239 232
/-- Input slot 0–3, output slot 4–7: the numbering of SLOT in R117. -/
def dSlot (d i : Nat) : Nat := bits d (319 + 64 * i) (256 + 64 * i)
def dImm (d i : Nat) : Nat := bits d (799 + 32 * i) (768 + 32 * i)
/-- The dependency tokens that are read: DEP0 to DEP(NDEP − 1). -/
def dDeps (d : Nat) : List Nat := (List.range (min (dNdep d) 4)).map (dDep d)

/-! ### Operand slots (R83) -/

def sQid (x : Nat) : Nat := bits x 9 0
def sLink (x : Nat) : Bool := bit x 10
def sUsed (x : Nat) : Bool := bit x 11
def sFormat (x : Nat) : Nat := bits x 16 12
def sKeep (x : Nat) : Bool := bit x 17
def sMeasured (x : Nat) : Bool := bit x 18
def sTransposed (x : Nat) : Bool := bit x 19
def sRows (x : Nat) : Nat := bits x 43 24
def sCols (x : Nat) : Nat := bits x 63 44
/-- Rows and columns as the operation uses them. -/
def sShape (x : Nat) : Nat × Nat := if sTransposed x then (sCols x, sRows x) else (sRows x, sCols x)
def sFmt (x : Nat) : Fmt := (fmtOf (sFormat x)).getD .uint8

/-- The slots of a descriptor that are in use and name a queue (not a link), as (slot number, slot). -/
def usedSlots (d : Nat) : List (Nat × Nat) :=
  ((List.range 8).map (fun i => (i, dSlot d i))).filter (fun e => sUsed e.2)
def inSlots (d : Nat) : List (Nat × Nat) := (usedSlots d).filter (fun e => decide (e.1 < 4))
def outSlots (d : Nat) : List (Nat × Nat) := (usedSlots d).filter (fun e => decide (4 ≤ e.1))

/-! ### Program header and comparators (R95) -/

def hVersion (h : Nat) : Nat := bits h 15 0
def hCount (h : Nat) : Nat := bits h 44 32
def hCmp (h j : Nat) : Nat := bits h (191 + 64 * j) (128 + 64 * j)

/-- A comparator: whether counter `a` stands in RELATION to its operand, with the counters given. -/
def comparator (cmp : Nat) (ctrs : List Nat) (a : Nat) : Bool :=
  let o := if bit cmp 4 then ctrs.getD (bits cmp 11 8) 0 else bits cmp 63 32
  let x : Int := if bit cmp 3 then signed 32 a else a
  let y : Int := if bit cmp 3 then signed 32 o else o
  match bits cmp 2 0 with
  | 0 => decide (x = y)
  | 1 => decide (x ≠ y)
  | 2 => decide (x < y)
  | 3 => decide (x ≤ y)
  | 4 => decide (y < x)
  | _ => decide (y ≤ x)

/-- A command's predicate: true when it lets the command run (R81 PRED_SENSE, R96). -/
def predicate (header d : Nat) (ctrs : List Nat) : Bool :=
  !dPredEn d || (comparator (hCmp header (dPredCmp d)) ctrs (ctrs.getD (dPredCtr d) 0) != dPredSense d)

/-! ### Run requests and bindings (R103, R104) -/

def rProgram (r : Nat) : Nat := bits r 31 0
def rSeq (r : Nat) : Nat := bits r 63 32
def rSeed (r : Nat) : Nat := bits r 127 64
def rBindCount (r : Nat) : Nat := bits r 143 128
def rTimeLimit (r : Nat) : Nat := bits r 191 160
def rBindAddr (r : Nat) : Nat := bits r 255 192
def rCtr (r i : Nat) : Nat := bits r (415 + 32 * i) (384 + 32 * i)
/-- The reserved fields of a run request (R127 case 6). -/
def rReserved (r : Nat) : Nat := bits r 1023 896 + bits r 383 256 + bits r 159 144

def bQid (b : Nat) : Nat := bits b 9 0
def bKind (b : Nat) : Nat := bits b 11 10
def bRefresh (b : Nat) : Bool := bit b 12
def bOutLimit (b : Nat) : Nat := bits b 23 16
def bAddress (b : Nat) : Nat := bits b 127 64
def bLength (b : Nat) : Nat := bits b 191 128
def bPitch (b : Nat) : Nat := bits b 255 192
def bReserved (b : Nat) : Nat := bits b 15 13 + bits b 63 24

/-! ### Load requests and results (R112, R117) -/

def lSeq (r : Nat) : Nat := bits r 63 32
def lOp (r : Nat) : Nat := bits r 65 64
def lSource (r : Nat) : Bool := bit r 66
def lHandle (r : Nat) : Nat := bits r 127 96
def lImage (r : Nat) : Nat := bits r 191 128
def lResult (r : Nat) : Nat := bits r 255 192
def lReserved (r : Nat) : Nat := bits r 1023 256 + bits r 95 67 + bits r 31 0

/-- What the verifier or the loader reports. -/
structure LoadResult where
  status : Nat
  detail : Nat
  slot : Nat
  qid : Nat
  desc : Nat
  other : Nat
  deriving DecidableEq, Repr

/-- The 32-byte load result, its reserved fields zero until it is written (`withReserved`). -/
def loadResultBytes (r : LoadResult) (seq handle : Nat) : List Byte :=
  leBytes 32 (handle % 2 ^ 32 + field seq 63 32 + field r.status 143 136 + field r.detail 151 144 + field r.slot 159 152
    + field r.qid 169 160 + field r.desc 191 176 + field r.other 207 192)

/-! ### Completion records (R108) -/

/-- The fields of a completion record but PHASE, which the ring gives it (R349). -/
structure RecordFields where
  cmdSeq : Nat
  runSeq : Nat
  status : Nat
  kind : Nat
  late : Bool
  guarded : Bool
  stallCause : Nat
  detail : Nat
  failed : Nat
  desc : Nat
  start : Nat
  finish : Nat
  energy : Nat
  errQid : Nat
  stallCycles : Nat
  used : Nat
  deriving DecidableEq, Repr

/-- PSA_VALID: set whenever the status is neither DONE nor SKIPPED (R110). -/
def psaValid (status : Nat) : Bool := status != 0x00 && status != 0x02

/-- The 64 bytes of a record with PHASE 0 and its reserved fields zero until it is written (`withReserved`). -/
def recordBytes (r : RecordFields) : List Byte :=
  leBytes 64 (r.cmdSeq % 2 ^ 32 + field r.runSeq 63 32 + field r.status 71 64 + field r.kind 73 72 + field (b2n r.late) 74 74
    + field (b2n (psaValid r.status)) 75 75 + field (b2n r.guarded) 76 76 + field r.stallCause 83 80
    + field r.detail 95 88 + field r.failed 143 96 + field r.desc 159 144 + field r.start 223 160 + field r.finish 287 224
    + field (min r.energy (2 ^ 48 - 1)) 335 288 + field r.errQid 345 336 + field (min r.stallCycles (2 ^ 32 - 1)) 383 352
    + field r.used 431 384)

/-- A record with its PHASE bit. -/
def withPhase (phase : Bool) (bs : List Byte) : List Byte :=
  bs.take 63 ++ [BitVec.ofNat 8 ((bs.getD 63 0).toNat % 128 + 128 * b2n phase)]

/-- The per-part status entry (R110): byte c the status of the part on Cc, 0xFF when none ran there; bytes 48–63 are
reserved (`withReserved`). -/
def psaBytes (st : Nat → Nat) : List Byte :=
  (List.range 48).map (fun c => BitVec.ofNat 8 (st c)) ++ List.replicate 16 0

end Sys2Proof.Machine
end

