-- ==== Sys2Proof/Machine/RunOps.lean ====
section
/-! DEFINITION. Partitions, programs and runs: access to their state, the division of a command's work (R154–R159), and the
records a command and a run produce (R108–R110, R240). -/

namespace Sys2Proof.Machine

/-! ### Partition registers (R254, R275) -/

def rPart (p sub : Nat) : Nat := key (0x5100 + p) sub
def rState (p : Nat) : Nat := rPart p 1
def rDies (p : Nat) : Nat := rPart p 4
def rHostFn (p : Nat) : Nat := rPart p 5
def rLatClass (p : Nat) : Nat := rPart p 6
def rConfidential (p : Nat) : Nat := rPart p 7
def rEpoch (p : Nat) : Nat := rPart p 8
def rTdi (p : Nat) : Nat := key (0x5200 + p) 2
def rBlk (p sub : Nat) : Nat := key (0x5500 + p) sub
def rRel (p sub : Nat) : Nat := key (0x5800 + p) sub

/-- The partitions 1–16. -/
def partNums : List Nat := (List.range 16).map (· + 1)

/-- The function that HOST_FN names. -/
def State.fnOf (s : State) (p : Nat) : Fn :=
  let v := s.reg (rHostFn p)
  ⟨Fin.ofNat 4 (bits v 9 8), Fin.ofNat 17 (bits v 4 0)⟩

/-- A virtual function belongs to the partition that is not free and names it (R253, R344). -/
def State.partOf (s : State) (f : Fn) : Option Nat :=
  if f.vf = 0 then none else partNums.find? (fun p => s.reg (rState p) != 0 && decide (s.fnOf p = f))

/-- The partition that owns a crown die, if any. -/
def State.dieOwner (s : State) (c : Nat) : Option Nat :=
  partNums.find? (fun p => s.reg (rState p) != 0 && bit (s.reg (rDies p)) c)

/-- The crown dies of a partition. -/
def State.diesOf (s : State) (p : Nat) : List Nat := idxs 48 (bit (s.reg (rDies p)))

/-- A tile of a die is in service: TILE_STATE 0 (R252). -/
def rTileState (c t : Nat) : Nat := key (0x6900 + c) (1 + t)
def State.tileUp (s : State) (c t : Nat) : Bool := s.reg (rTileState c t) = 0
def State.tilesUp (s : State) (c : Nat) : List Nat := idxs 8 (s.tileUp c)

/-- READY (R346): STATE 2, ENABLE 1 and, when CONFIDENTIAL is 1, the TDI in RUN. -/
def State.ready (s : State) (f : Fn) : Bool :=
  match s.partOf f with
  | some p => s.reg (rState p) == 2 && (s.fn f).enable && (s.reg (rConfidential p) == 0 || s.reg (rTdi p) == 2)
  | none => false

/-! ### Runs and commands -/

def State.prn (s : State) (p : Nat) : PartRun := sget (fun _ => PartRun.blank) s.prun p
def State.modPr (s : State) (p : Nat) (g : PartRun → PartRun) : State :=
  { s with prun := smod (fun _ => PartRun.blank) s.prun p g }

def State.run (s : State) (p id : Nat) : Option Run := (s.prn p).runs.find? (fun r => r.id == id)
def State.modRun (s : State) (p id : Nat) (g : Run → Run) : State :=
  s.modPr p (fun x => { x with runs := updWhere (fun r => r.id == id) g x.runs })

/-- The program of a handle. -/
def State.program (s : State) (p handle : Nat) : Option Program :=
  (s.prn p).programs.find? (fun g => g.handle == handle)

def Run.cmd (r : Run) (i : Nat) : Option Cmd := r.cmds.find? (fun c => c.idx == i)
/-- Change a command; the first queue end that fails among the run's commands is kept (R108). -/
def Run.modCmd (r : Run) (i : Nat) (g : Cmd → Cmd) : Run :=
  let cmds := updWhere (fun c => c.idx == i) g r.cmds
  { r with cmds := cmds
           errQid := if r.errQid = 0x3FF then (cmds.find? (fun c => c.errQid != 0x3FF)).elim 0x3FF Cmd.errQid else r.errQid }
def State.modCmd (s : State) (p id i : Nat) (g : Cmd → Cmd) : State := s.modRun p id (fun r => r.modCmd i g)

/-- A command's partition number, run, program, command and descriptor, when all exist. -/
structure Found where
  p : Nat
  run : Run
  prog : Program
  cmd : Cmd
  desc : Nat

def State.find (s : State) (c : CmdRef) : Option Found :=
  let p := c.p.val + 1
  match s.run p c.run with
  | none => none
  | some r =>
    match s.program p r.handle, r.cmd c.cmd with
    | some g, some x => some ⟨p, r, g, x, g.descs.getD c.cmd 0⟩
    | _, _ => none

/-- The reference of a command of a partition. -/
def refOf (p run cmd : Nat) : CmdRef := ⟨Fin.ofNat 16 (p - 1), run, cmd⟩

/-- Change the command a reference names. -/
def State.modRef (s : State) (c : CmdRef) (g : Cmd → Cmd) : State := s.modCmd (c.p.val + 1) c.run c.cmd g

/-- The descriptors that a command executes: its stages when it is fused, otherwise its own (R99). -/
def stagesOf (descs : List Nat) (i : Nat) : List Nat :=
  let d := descs.getD i 0
  if dOpcode d = 0x60 then (descs.drop (i + 1)).take (dSubop d) else [d]

/-- The commands of a program: its descriptor indices but stages. -/
def commandsOf (descs : List Nat) : List Nat :=
  let rec go : Nat → Nat → List Nat → List Nat
    | _, _, [] => []
    | i, 0, d :: ds => i :: go (i + 1) (if dOpcode d = 0x60 then dSubop d else 0) ds
    | i, n + 1, _ :: ds => go (i + 1) n ds
  go 0 0 descs

/-- Whether a queue of a program is internal: both its ends are named by descriptors (R78). -/
def isInternalQ (descs : List Nat) (q : Nat) : Bool :=
  descs.any (fun d => (inSlots d).any (fun e => !sLink e.2 && sQid e.2 == q))
    && descs.any (fun d => (outSlots d).any (fun e => !sLink e.2 && sQid e.2 == q))

/-- The used ends of a command that name queues: end number (stage × 8 + slot), descriptor, slot (R83, R99). -/
def cmdEnds (descs : List Nat) (i : Nat) : List (Nat × Nat × Nat) :=
  ((stagesOf descs i).mapIdx (fun st d =>
    ((usedSlots d).filter (fun e => !sLink e.2)).map (fun e => (st * 8 + e.1, d, e.2)))).flatten

/-- The memory-bound queue ends of a program: queue, slot, whether it is an output, and the descriptor (R78). -/
def memoryEnds (descs : List Nat) : List (Nat × Nat × Bool × Nat) :=
  descs.flatMap (fun d => ((usedSlots d).filter (fun e => !sLink e.2 && !isInternalQ descs (sQid e.2))).map
    (fun e => (sQid e.2, e.2, decide (4 ≤ e.1), d)))

/-- Whether the reduction dimension along which an MX item's blocks run is COLS as stored, for the operand of an operation
(R20, R79): IN0 of a matrix product reduces its columns as used, IN1 its rows; COL_REDUCE reduces rows; every other
operand that is not merely moved has its blocks along COLS. -/
def consumerAlong (d slot x : Nat) : Bool :=
  match dOpcode d with
  | 0x20 | 0x21 => if slot = 0 then !sTransposed x else sTransposed x
  | 0x31 => slot != 0 || !sTransposed x
  | 0x32 => sTransposed x
  | _ => true

/-- The stages of the fused command that holds descriptor `i` as a stage, none when it is no stage (R99). -/
def stagesAt (descs : List Nat) (i : Nat) : List Nat :=
  match (commandsOf descs).find? (fun c => decide (c < i ∧ i ≤ c + (stagesOf descs c).length)
      && dOpcode (descs.getD c 0) == 0x60) with
  | some c => stagesOf descs c
  | none => []

/-- The descriptor that pushes (`out`) or pops what a slot names, with its end and the stages beside it: of a link among the
given stages (R100), of a queue in the program (R78). -/
def peerOf (descs stages : List Nat) (out : Bool) (x : Nat) : Option (Nat × (Nat × Nat) × List Nat) :=
  let ends (d : Nat) : List (Nat × Nat) := if out then outSlots d else inSlots d
  let hit (e : Nat × Nat) : Bool := sLink e.2 == sLink x && sQid e.2 == sQid x
  if sLink x then stages.findSome? (fun d => ((ends d).find? hit).map (fun e => (d, e, stages)))
  else (descs.mapIdx (fun i d => (i, d))).findSome? (fun a =>
    ((ends a.2).find? hit).map (fun e => (a.2, e, stagesAt descs a.1)))

/-- An item whose MX blocks the vector unit has formed along COLS (R67, R79), seen through MOVE and TEE, which copy it byte
for byte; the results of ALL_REDUCE and REDUCE_SCATTER are formed so too (log 96).  Fuel: the number of descriptors. -/
def formedByCols (descs : List Nat) : Nat → List Nat → Nat → Bool
  | 0, _, _ => false
  | n + 1, stages, x =>
    match peerOf descs stages true x with
    | none => false
    | some (d, _, g) =>
      let op := dOpcode d
      if op = 0x10 ∨ op = 0x15 then formedByCols descs n g (dSlot d 0)
      else op / 16 == 2 || op / 16 == 3 || op == 0x40 || op == 0x42

/-- The direction that the consumer of a slot's item asks for, following MOVE, TEE and the other data-movement commands to
the consumer of their OUT0; COLS when there is none (R79).  Fuel: the number of descriptors. -/
def wantedAlong (descs : List Nat) : Nat → List Nat → Nat → Bool
  | 0, _, _ => true
  | n + 1, stages, x =>
    match peerOf descs stages false x with
    | none => true
    | some (d, e, g) =>
      if dOpcode d / 16 ≠ 1 then consumerAlong d e.1 e.2
      else !sUsed (dSlot d 4) || wantedAlong descs n g (dSlot d 4)

/-- The direction of the MX blocks of the item at a slot, COLS when true (R79; log 96); `stages` are those beside a link. -/
def alongOf (descs stages : List Nat) (x : Nat) : Bool :=
  formedByCols descs (descs.length + 1) stages x || wantedAlong descs (descs.length + 1) stages x

/-- Bytes an item of a queue's slot takes in a region with a row pitch (R79, R104). -/
def slotBytes' (descs : List Nat) (x pitch : Nat) : Nat :=
  itemSpan (sFmt x) (sRows x) (sCols x) pitch (alongOf descs [] x)

/-- Items that a memory-bound end needs: one, or a LACC_SUM source's count (R77, R78). -/
def itemsOf (d : Nat) : Nat := if dOpcode d = 0x33 then dImm d 0 else 1

/-! ### Work units (R154, R159) -/

/-- The problems of a packed block, 1 when problems are not packed (R159). -/
def packOf (d : Nat) : Nat :=
  let b := dImm d 0
  let x := dSlot d 0
  let r := sRows x / b
  let m := if sTransposed x then sCols x else r
  let k := if sTransposed x then r else sCols x
  if dOpcode d = 0x21 ∧ k ≤ 64 ∧ m ≤ 64 then min (min (128 / k) (128 / m)) 8 else 1

/-- The work units of one descriptor (R154). -/
def unitsOfDesc (d : Nat) : Nat :=
  let op := dOpcode d
  if op = 0x20 then cdiv (sShape (dSlot d 0)).1 128
  else if op = 0x21 then cdiv (dImm d 0) (packOf d)
  else if op = 0x30 ∨ op = 0x31 ∨ op = 0x32 then cdiv (sShape (dSlot d 0)).1 128
  else if op / 16 = 1 then
    -- every output of a data-movement command has one format and shape; TEE may leave OUT0 unused
    let o := ((outSlots d).map (·.2)).headD 0
    cdiv (itemSpan (sFmt o) (sRows o) (sCols o) 0 true) 65536
  else 1

/-- The slot whose rows divide a fused command: stage 0's first used input, or its first used output when it uses no input
(R86, R154). -/
def leadSlot (stage : Nat) : Nat × Nat := ((inSlots stage ++ outSlots stage).head?).getD (4, dSlot stage 4)

/-- The work units of a command; a fused command is divided by the rows of stage 0's first input, or of its output when it
has none (R154). -/
def unitsOf (descs : List Nat) (i : Nat) : Nat :=
  let d := descs.getD i 0
  if dOpcode d = 0x60 then cdiv (sShape (leadSlot (descs.getD (i + 1) 0)).2).1 128 else unitsOfDesc d

/-- UNIT_KIND of the part map (R240). -/
def unitKind (d : Nat) : Nat :=
  match dOpcode d with
  | 0x20 => 0
  | 0x21 => 1
  | 0x30 | 0x31 | 0x32 | 0x60 => 2
  | 0x33 => 4
  | op => if op / 16 = 1 then 3 else 4

/-- Shares by floors and largest remainders, ties to the lower place (R156): `w` the products w_c × n_c of the chosen dies
in ascending die number. -/
def shares (u : Nat) (w : List Nat) : List Nat :=
  let tot := sumL w
  if tot = 0 then w.map (fun _ => 0) else
  let fl := w.map (fun x => u * x / tot)
  let rem := w.map (fun x => u * x % tot)
  let left := u - sumL fl
  -- place i takes a unit left over when fewer than `left` places stand before it by remainder, then by place
  fl.mapIdx (fun i f =>
    let ri := rem.getD i 0
    let before := (rem.mapIdx (fun j r => (j, r))).countP (fun e => decide (e.2 > ri ∨ (e.2 = ri ∧ e.1 < i)))
    if before < left then f + 1 else f)

/-- Consecutive ranges of units in ascending die order; a die without a unit runs no part (R156). -/
def dealParts (u : Nat) (dw : List (Nat × Nat)) : List Part :=
  let sh := shares u (dw.map (·.2))
  let rec go : Nat → List (Nat × Nat) → List Part
    | _, [] => []
    | at_, (c, n) :: rest => if n = 0 then go at_ rest else ⟨c, at_, n, [], false⟩ :: go (at_ + n) rest
  go 0 ((dw.map (·.1)).zip sh)

/-! ### Statuses (R6, R109, R239) -/

/-- The status of one part (R6): TENANT_GONE first; a timeout or abort in place of a mismatch that comes with it, TIMEOUT
before MUTUAL_WAIT_ABORT; otherwise the highest failure code. -/
def Part.status (x : Part) : Nat :=
  if x.fails.contains 0x30 then 0x30
  else if (x.fails.contains 0x11 || x.fails.contains 0x10)
      && (x.fails.contains 0x40 || x.fails.contains 0x41 || x.fails.contains 0x42) then
    if x.fails.contains 0x11 then 0x11 else 0x10
  else maxL x.fails

/-- A part has failed when a failure befell it or it did not commit (R239). -/
def Part.failed (x : Part) : Bool := !x.committed || x.fails != []

/-- The status of a command (R6). -/
def Cmd.status (c : Cmd) : Nat :=
  match c.fixed with
  | some v => v
  | none =>
    if c.parts.all (fun x => !x.failed) then 0x00
    else if c.parts.any (fun x => !x.failed) then 0x01
    else maxL (c.parts.map Part.status)

/-- FAILED_PARTS and PARTS_USED (R108); parts of no die (die 63 and above) set no bit (R102). -/
def Cmd.failedMask (c : Cmd) : Nat := maskOf ((c.parts.filter (fun x => x.failed && decide (x.die < 48))).map Part.die)
def Cmd.usedMask (c : Cmd) : Nat := maskOf ((c.parts.filter (fun x => decide (x.die < 48))).map Part.die)

/-- The dominant stall cause and its count (R7): the largest count, ties to the lowest cause, 0xF when none. -/
def dominant (stalls : List Nat) : Nat × Nat :=
  let m := maxL stalls
  if m = 0 then (0xF, 0) else ((stalls.findIdx? (· == m)).getD 0xF, m)

/-- Two lists of counts added. -/
def addCounts (a b : List Nat) : List Nat := (List.range 9).map (fun i => a.getD i 0 + b.getD i 0)

/-- The status byte of each die (R110). -/
def Cmd.dieStatus (c : Cmd) (die : Nat) : Nat :=
  match c.parts.find? (fun x => x.die == die) with
  | some x => if x.failed then x.status else 0x00
  | none => 0xFF

/-- The part map entry (R240), its reserved fields zero until it is written (`withReserved`). -/
def mapBytes (cmdSeq runSeq desc kind units : Nat) (ranges : Nat → Nat × Nat) : List Byte :=
  leBytes 16 (cmdSeq % 2 ^ 32 + field runSeq 63 32 + field desc 79 64 + field kind 90 88 + field units 127 96)
    ++ List.replicate 112 0
    ++ (List.range 48).flatMap (fun c => leBytes 8 ((ranges c).1 % 2 ^ 32 + field (ranges c).2 63 32))

/-- The range of a die: problems when blocks are packed (R240). -/
def Cmd.range (c : Cmd) (d die : Nat) : Nat × Nat :=
  match c.parts.find? (fun x => x.die == die) with
  | some x =>
    let q := packOf d
    if dOpcode d = 0x21 then (x.first * q, min (x.count * q) (dImm d 0 - x.first * q)) else (x.first, x.count)
  | none => (0, 0)

/-- END_TIME: when the last settle count returned; a record that no settle precedes takes the time it is made (R108). -/
def endTime (settled now : Nat) : Nat := if settled = 0 then now else settled

/-- The record of a command (R108). -/
def cmdRecord (descs : List Nat) (r : Run) (c : Cmd) (late : Bool) (now : Nat) : Rec :=
  let d := descs.getD c.idx 0
  let st := c.status
  let dom := dominant c.stalls
  let f : RecordFields :=
    { cmdSeq := dSeq d, runSeq := r.seq, status := st, kind := 1, late := late, guarded := dReplay d,
      stallCause := dom.1, detail := if st = 0x31 then c.detail else 0, failed := c.failedMask, desc := c.idx,
      start := c.start, finish := endTime c.settledAt now, energy := c.energy / 1000, errQid := c.errQid, stallCycles := dom.2, used := c.usedMask }
  { bytes := recordBytes f, psa := psaBytes c.dieStatus,
    map := mapBytes (dSeq d) r.seq c.idx (unitKind d)
      (if dOpcode d = 0x21 then dImm d 0 else unitsOf descs c.idx) (c.range d),
    irq := dIrq d, tag := .cmd r.id c.idx }

/-- The status of a run (R109). -/
def runStatus (cmds : List Cmd) : Nat :=
  maxL ((cmds.map Cmd.status).filter (fun st => st != 0x00 && st != 0x02))

/-- The run record with a status (R108, R109). -/
def runRecordOf (r : Run) (st : Nat) (late : Bool) (now : Nat) : Rec :=
  let dom := dominant (r.cmds.foldl (fun a c => addCounts a c.stalls) [])
  let f : RecordFields :=
    { cmdSeq := 0xFFFFFFFF, runSeq := r.seq, status := st, kind := 0, late := late,
      guarded := false, stallCause := dom.1, detail := 0, failed := r.cmds.foldl (fun m c => m ||| c.failedMask) 0,
      desc := 0xFFFF, start := r.start, finish := endTime (maxL (r.cmds.map Cmd.settledAt)) now,
      energy := sumL (r.cmds.map Cmd.energy) / 1000, errQid := r.errQid,
      stallCycles := dom.2, used := r.cmds.foldl (fun m c => m ||| c.usedMask) 0 }
  { bytes := recordBytes f,
    psa := psaBytes (fun die => maxL ((r.cmds.map (fun c => c.dieStatus die)).filter (· != 0xFF))
      + (if r.cmds.all (fun c => c.dieStatus die == 0xFF) then 0xFF else 0)),
    map := mapBytes 0xFFFFFFFF r.seq 0xFFFF 0 0 (fun _ => (0, 0)), irq := true, tag := .run r.id }

/-- The run record (R109). -/
def runRecord (r : Run) (late : Bool) (now : Nat) : Rec := runRecordOf r (runStatus r.cmds) late now

/-- The record of a refused run (R106), of a load, or of an unload (R114): no part ran. -/
def bareRecord (kind status detail runSeq desc errQid start finish : Nat) (irq : Bool) (tag : RecTag) : Rec :=
  let f : RecordFields :=
    { cmdSeq := 0xFFFFFFFF, runSeq := runSeq, status := status, kind := kind, late := false, guarded := false,
      stallCause := 0xF, detail := detail, failed := 0, desc := desc, start := start, finish := finish, energy := 0,
      errQid := errQid, stallCycles := 0, used := 0 }
  { bytes := recordBytes f, psa := psaBytes (fun _ => 0xFF), map := mapBytes 0xFFFFFFFF runSeq desc 0 0 (fun _ => (0, 0)),
    irq := irq, tag := tag }

/-! ### Writing records (R346, R348, R349) -/

/-- Unloads that wait for no run any more, in fetch order, join those that may complete (R116). -/
def PartRun.wakeUnloads (r : PartRun) : PartRun :=
  { r with unloads := r.unloads.filter (fun u => u.2.2 != []),
           idle := r.idle ++ r.unloads.filterMap (fun (u : Nat × Nat × List Nat) => if u.2.2 = [] then some (u.1, u.2.1) else none) }

/-- A run ends: no unload waits for it any more (R109, R116). -/
def PartRun.endRun (r : PartRun) (run : Nat) : PartRun :=
  let unloads := r.unloads.map (fun u => (u.1, u.2.1, u.2.2.filter (· != run)))
  PartRun.wakeUnloads
    { r with runs := r.runs.filter (fun x => x.id != run), turned := r.turned.filter (fun x => x.1 != run), unloads := unloads }

/-- What the writing of a record completes: a command's token is released (R92); a run's record ends the run (R109). -/
def State.recordDone (s : State) (p : Nat) (t : RecTag) : State :=
  match t with
  | .cmd run cmd => s.modCmd p run cmd (fun c => { c with phase := .complete, freed := s.now })
  | .run run => s.modPr p (fun x => x.endRun run)
  | _ => s

/-- PART_MAP_ADDR of a partition (R251). -/
def State.partMapAddr (s : State) (p : Nat) : Nat := s.reg (rRel p 4)

/-- The writes of one record into its slot: part map entry, per-part status entry, record, their reserved fields free (R2);
each followed by its own flush read; then the MSI-X message (R348, R349, R351, R354). -/
def State.placeRecord (s : State) (p : Nat) (f : Fn) (r : Rec) : State :=
  let x := s.fn f
  let valid := psaValid (r.bytes.getD 8 0).toNat
  let slot := x.cqTail
  let mapped := valid && s.partMapAddr p != 0
  let n := s.drawn
  let s := if mapped then s.hostWrite (s.partMapAddr p + 512 * slot) (withReserved n mapHoles r.map) else s
  let s := if valid then s.hostWrite (x.psaBase + 64 * slot) (withReserved (n + 1) psaHoles r.psa) else s
  let s := s.hostWrite (x.cqBase + 64 * slot)
    (withPhase (x.written / x.cqSize % 2 == 0) (withReserved (n + 2) recordHoles r.bytes))
  let s := ((s.draw).draw).draw
  let s := s.setFn f { x with cqTail := (slot + 1) % x.cqSize, cqUsed := x.cqUsed + 1, written := x.written + 1,
                              flushes := x.flushes + 1 + b2n valid + b2n mapped }
  let s := if r.irq then s.msix f 0 else s
  s.recordDone p r.tag

/-- The ring has no free slot (R348). -/
def FnState.full (x : FnState) : Bool := decide (x.cqUsed ≥ x.cqSize)

/-- Produce a record: with ENABLE 0 it is discarded, counts as written and sets RECORDS_LOST (R346); a full or stopped ring
holds it back, in order (R348, R351). -/
def State.writeRecord (s : State) (p : Nat) (r : Rec) : State :=
  let f := s.fnOf p
  let x := s.fn f
  if !x.enable then (s.setFn f { x with recordsLost := true }).recordDone p r.tag
  else if x.cqError || x.held != [] || x.full then s.setFn f { x with held := x.held ++ [r] }
  else s.placeRecord p f r

/-- Write the records held back while there are free slots, oldest first (fuel: the records held). -/
def State.drainHeld (p : Nat) (f : Fn) : Nat → State → State
  | 0, s => s
  | n + 1, s =>
    let x := s.fn f
    match x.held with
    | [] => s
    | r :: rest =>
      if !x.enable || x.cqError || x.full then s
      else State.drainHeld p f n ((s.setFn f { x with held := rest }).placeRecord p f r)

/-- A late-error record into the partition's late-error queue (R198, R199, R346). -/
def State.writeLate (s : State) (p : Nat) (bytes : List Byte) : State :=
  let f := s.fnOf p
  let x := s.fn f
  let n := s.reg (key (0x5600 + p) 0x25)
  if !x.enable || n == 0 || decide (x.lateUsed ≥ n) then s.bump (key (0x5600 + p) 0x28) 1
  else
    let s := (s.hostWrite (s.reg (key (0x5600 + p) 0x24) + 64 * x.lateTail)
      (withPhase (x.lateWritten / n % 2 == 0) (withReserved s.drawn recordHoles bytes))).draw
    let s := s.setFn f { x with lateTail := (x.lateTail + 1) % n, lateUsed := x.lateUsed + 1, lateWritten := x.lateWritten + 1 }
    (s.bump (key (0x5600 + p) 0x27) 1).msix f 1

end Sys2Proof.Machine
end

