-- ==== Sys2Proof/Machine/Hbm.lean ====
section
/-! DEFINITION. HBM and the on-die stores (R203–R227): from a partition address to a word, what an access finds and does,
refresh, retirement and migration of ranks, and the SRAM scrubber. -/

namespace Sys2Proof.Machine

def rStack (m sub : Nat) : Nat := key (0x6700 + m) sub
def rMigRank (m : Nat) : Nat := rStack m 4
def rMigPointer (m : Nat) : Nat := rStack m 5
def rRemap (m i : Nat) : Nat := rStack m (0x10 + i)
def rPmem (p sub : Nat) : Nat := key (0x5700 + p) sub
def rSram (c sub : Nat) : Nat := key (0x6800 + c) sub

/-- The bytes of a rank (R204). -/
def rankBytes : Nat := 402653184

/-- The place of an offset within its rank (R204). -/
structure RankPlace where
  pseudo : Nat
  word : Nat
  bank : Nat
  row : Nat
  deriving DecidableEq, Repr

def rankPlace (off : Nat) : RankPlace := ⟨bits off 6 6, bits off 10 7, bits off 14 11, off / 32768⟩

/-- The key of a bank of a stack. -/
def bankKey (rank pseudo bank : Nat) : Nat := rank * 32 + pseudo * 16 + bank

/-- The rows of a rank's bank that a neighbour refresh of row `x` refreshes (R204, R213). -/
def neighbourRows (x : Nat) : List Nat :=
  [0, 1, 3, 4].filterMap (fun j => if 2 ≤ x + j ∧ x + j < 12290 then some (x + j - 2) else none)

/-- The spares of a stack, in the order in which they are taken (R205). -/
def spareList : List Nat := [127, 119, 111, 103, 123, 115, 107, 99]

def State.stack (s : State) (m : Nat) : StackState := sget (fun _ => StackState.blank) s.stackSides m
def State.modStack (s : State) (m : Nat) (g : StackState → StackState) : State :=
  { s with stackSides := smod (fun _ => StackState.blank) s.stackSides m g }

/-! ### From a partition address to a rank (R206) -/

/-- Whether rank `r` of stack `m` is one of the partition's (R254 rank masks). -/
def State.hasRank (s : State) (p m r : Nat) : Bool :=
  bit (s.reg (rPart p (0x40 + 2 * m + r / 64))) (r % 64)

/-- The interleave sets of a partition, as lists of (stack, rank); rank = 32 × SID + channel (R204, R206). -/
def State.rankSets (s : State) (p : Nat) : List (List (Nat × Nat)) :=
  let sets : List (List (Nat × Nat)) :=
    if s.reg (rPmem p 2) = 0 then
      (List.range 32).flatMap (fun m => (List.range 4).map (fun sid =>
        (List.range 32).map (fun ch => (m, 32 * sid + ch))))
    else
      (List.range 4).map (fun sid => (List.range 32).flatMap (fun ch =>
        (List.range 32).map (fun m => (m, 32 * sid + ch))))
  (sets.map (fun st => st.filter (fun x => s.hasRank p x.1 x.2))).filter (fun st => st != [])

/-- The interleave grain in bytes. -/
def State.grain (s : State) (p : Nat) : Nat := 256 * 2 ^ s.reg (rPmem p 1)

/-- The walk of R206: stack, rank and offset of an address, none beyond the last set. -/
def locate (q : Nat) : List (List (Nat × Nat)) → Nat → Option (Nat × Nat × Nat)
  | [], _ => none
  | st :: rest, a =>
    if a < st.length * rankBytes then
      let r := st.getD (a / q % st.length) (0, 0)
      some (r.1, r.2, a / q / st.length * q + a % q)
    else locate q rest (a - st.length * rankBytes)

def State.place (s : State) (p addr : Nat) : Option (Nat × Nat × Nat) := locate (s.grain p) (s.rankSets p) addr

/-- The size of the partition's address space before any reserve (R206). -/
def State.setBytes (s : State) (p : Nat) : Nat := sumL ((s.rankSets p).map (fun st => st.length * rankBytes))

/-! ### Remapping (R205, R215, R216) -/

/-- The valid remap entries of a stack, oldest first: retired rank and its spare. -/
def State.remaps (s : State) (m : Nat) : List (Nat × Nat) :=
  (List.range 8).filterMap (fun i =>
    let v := s.reg (rRemap m i)
    if bit v 15 then some (bits v 14 8, bits v 6 0) else none)

/-- The rank in service under a number of the mapping. -/
def State.inPlaceOf (s : State) (m r : Nat) : Nat := (s.remaps m).foldl (fun x e => if e.1 = x then e.2 else x) r

/-- The rank that serves an offset: during a migration the spare serves offsets below the pointer (R216). -/
def State.servedBy (s : State) (m r off : Nat) : Nat :=
  let x := s.inPlaceOf m r
  let g := s.reg (rMigRank m)
  if g ≠ 0xFFFF ∧ g % 256 = x ∧ off < s.reg (rMigPointer m) then g / 256 else x

/-- The partition that a rank in service belongs to. -/
def State.rankOwner (s : State) (m x : Nat) : Option Nat :=
  partNums.find? (fun p => s.reg (rState p) != 0 &&
    (List.range 128).any (fun r => s.hasRank p m r && (s.inPlaceOf m r == x)))

/-- Whether a rank is in service: not retired, not offline, and no unused spare (R205, R212). -/
def State.rankInService (s : State) (m x : Nat) : Bool :=
  let st := s.stack m
  !(s.remaps m).any (fun e => e.1 == x) && !st.offline.contains x &&
    (!(spareList.take st.spares).contains x || (s.remaps m).any (fun e => e.2 == x))

/-! ### Words (R209–R211) -/

def hbmZero : Nat → Byte := fun _ => 0

/-- The key of the first byte of the word that holds an offset. -/
def wordKey (m r off : Nat) : Nat := m * 2 ^ 40 + r * 2 ^ 32 + off / 64 * 64

/-- The stored bytes of a word. -/
def State.word (s : State) (k : Nat) : List Byte := (List.range 64).map (fun i => sget hbmZero s.hbm (k + i))

/-- Store bytes from a key on. -/
def State.putBytes (s : State) (k : Nat) (bs : List Byte) : State :=
  { s with hbm := (bs.mapIdx (fun i b => (i, b))).foldl (fun m e => sput hbmZero m (k + e.1) e.2) s.hbm }

/-- Whether a word holds the poison code. -/
def State.poisoned (s : State) (k : Nat) : Bool := s.poison.contains k
def State.setPoison (s : State) (k : Nat) : State := { s with poison := nput k s.poison }
def State.clearPoison (s : State) (k : Nat) : State := { s with poison := s.poison.filter (· != k) }

/-- Count a correctable word or an uncorrectable one in its partition. -/
def State.bumpOwner (s : State) (own : Option Nat) (sub n : Nat) : State :=
  match own with
  | some p => s.bump (rPmem p sub) n
  | none => s

/-- A rank that becomes due for retirement (R215, R217): one stack migrates one rank at a time; without an unused spare it
stays in service in degraded state, with an operator event. -/
def State.retire (s : State) (m r : Nat) : State :=
  let x := s.stack m
  let g := s.reg (rMigRank m)
  if x.degraded.contains r || x.due.contains r || x.offline.contains r || (g != 0xFFFF && g % 256 == r) then s
  else if g ≠ 0xFFFF then s.modStack m (fun x => { x with due := x.due ++ [r] })
  else if x.used < x.spares then
    (((s.modStack m (fun x => { x with used := x.used + 1 })).setReg (rMigRank m) (spareList.getD x.used 127 * 256 + r)).setReg
      (rMigPointer m) 0).setReg (rStack m 2) (x.spares - x.used - 1)
  else ((s.modStack m (fun x => { x with degraded := x.degraded ++ [r] })).setReg (rStack m 1) 1).raise 0x0201 (some m)

/-- A correctable word (R210, R215): CE, CE_COUNT, and CE_RETIRE of them within one hour retire the rank. -/
def State.ceFound (s : State) (own : Option Nat) (m r : Nat) : State :=
  let now := s.now
  let times := now :: (sget (fun _ => []) (s.stack m).ce r).filter (fun t => decide (now < t + 3600000000000))
  let s := (s.bump (rStack m 0x20) 1).bumpOwner own 5 1
  let s := s.modStack m (fun x => { x with ce := sput (fun _ => []) x.ce r times })
  let lim := s.reg (key 0x2200 5)
  if lim ≠ 0 ∧ lim ≤ times.length then s.retire m r else s

/-- An uncorrectable word: stored with the poison code and counted in UE_DATA and POISON_STORED; LAST_UE_ADDR names it
(R210, R211, R226). -/
def State.ueFound (s : State) (m r off : Nat) : State :=
  let s := s.setPoison (wordKey m r off)
  ((s.bump (rStack m 0x21) 1).bump (rStack m 0x23) 1).setReg (rStack m 0x27) (r * 2 ^ 32 + off % 2 ^ 29)

/-- One of the three outcomes of a code, freely, by draw number. -/
def freeCond (draw : Nat) : WordCond :=
  match Config.freeNat 2 draw % 3 with
  | 0 => .good
  | 1 => .correctable
  | _ => .uncorrectable

/-- What the Reed–Solomon code finds (R209): one symbol is corrected; up to three, and a mis-addressed read, are detected; beyond
three symbols the spec states nothing: a free value by `draw` (log 112). -/
def codeFinds (e : WordErr) (draw : Nat) : WordCond :=
  if e.misplaced then .uncorrectable
  else if e.symbols.val = 0 then .good
  else if e.symbols.val = 1 then .correctable
  else if e.symbols.val ≤ 3 then .uncorrectable
  else freeCond draw

/-- What a SECDED code finds with a number of bits in error (R219, R288): beyond two the spec states nothing (log 112). -/
def secded (wrong draw : Nat) : WordCond :=
  match wrong with
  | 0 => .good
  | 1 => .correctable
  | 2 => .uncorrectable
  | _ => freeCond draw

/-- What the controller finds in a word: none where it recognises the poison code, which one further symbol in error does not hide
(R209); with more, recognised or not is free (log 112). -/
def State.found (s : State) (k : Nat) (e : WordErr) : Option WordCond :=
  if s.poisoned k && !e.misplaced && (decide (e.symbols.val ≤ 1) || Config.freeBool s.drawn) then none
  else some (codeFinds e s.drawn)

/-- A word whose errors the code did not detect: free bytes stand in it (log 112). -/
def State.stray (s : State) (k : Nat) (e : WordErr) : State :=
  if e.symbols.val ≤ 3 then s
  else s.putBytes k ((List.range 64).map (Config.freeByte s.drawn))

/-- A read of a word (R210): the state after it, the bytes, and whether it is delivered poisoned. -/
def State.readWord (s : State) (own : Option Nat) (m r off : Nat) (err : WordErr) : State × List Byte × Bool :=
  let k := wordKey m r off
  match s.found k err with
  | none => (s.draw, s.word k, true)
  | some .good => let t := (s.stray k err).draw; (t, t.word k, false)
  | some .correctable => let t := (s.stray k err).draw; (t.ceFound own m r, t.word k, false)
  | some .uncorrectable => ((s.draw.ueFound m r off).retire m r, s.word k, true)

/-- A write of `new` from byte `first` of a word (R211): a whole word replaces it and clears its poison; a partial write is a
read, a merge and a write in one. -/
def State.writeWord (s : State) (p m r off first : Nat) (new : List Byte) (err : WordErr) : State :=
  let k := wordKey m r off
  if first = 0 ∧ new.length = 64 then (s.clearPoison k).putBytes k new
  else
    let merge (t : State) : State := t.draw.putBytes (k + first) (new.take (64 - first))
    match s.found k err with
    | none => ((merge s).bump (rStack m 0x23) 1).bump (rPmem p 7) 1
    | some .good => merge (s.stray k err)
    | some .correctable => (merge (s.stray k err)).ceFound (some p) m r
    | some .uncorrectable => ((((merge s).ueFound m r off).bump (rPmem p 7) 1).raise 0x0202 (some m)).retire m r

/-- Whether a refresh holds the bank of an offset (R213): an access that reaches it waits. -/
def State.bankHeld (s : State) (m r off : Nat) : Bool :=
  let o := rankPlace off
  decide (s.now < sget (fun _ => 0) (s.stack m).held (bankKey r o.pseudo o.bank))

/-- A refresh holds a bank for some ns (R213, R226 REFRESH_NS). -/
def State.holdBank (s : State) (m k ns : Nat) : State :=
  (s.modStack m (fun x => { x with held := sput (fun _ => 0) x.held k (s.now + ns) })).bump (rStack m 0x25) ns

/-- The random neighbour refresh of an activate (R213): whether an access activates its row, and whether that activate is
selected, are not the program's to know: a free yes-or-no (log 5).  The rows beside it in its bank are refreshed, and the bank is
held for 180 ns. -/
def State.neighbour (s : State) (m r off : Nat) : State :=
  if Config.freeBool s.free then
    let o := rankPlace off
    let k := bankKey r o.pseudo o.bank
    ((s.draw.bump (rStack m 0x24) 1).holdBank m k 180).modStack m (fun x => { x with nref := some (k, neighbourRows o.row) })
  else s.draw

/-! ### Channels and responses (R207, R210, R212, R217) -/

def channelKey (m ch : Nat) : Nat := m * 32 + ch
def State.jobs (s : State) (m ch : Nat) : List Job := sget (fun _ => []) s.channels (channelKey m ch)
def State.setJobs (s : State) (m ch : Nat) (l : List Job) : State :=
  { s with channels := sput (fun _ => []) s.channels (channelKey m ch) l }

/-- Change a response being made. -/
def State.modResp (s : State) (id : Nat) (g : Resp → Resp) : State :=
  { s with resps := updWhere (fun r => r.id == id) g s.resps }

/-- One word of a response done: a read's bytes or poisoned unit, or a write's failure. -/
def Resp.served (r : Resp) (write : Bool) (w : WordAcc) (bs : List Byte) (bad : Bool) : Resp :=
  let r := { r with left := r.left - 1 }
  if write then (if bad then { r with status := 0x21 } else r)
  else { r with data := splice r.data (w.unit * 128 + w.addr % 128) bs,
                bad := if bad then nput w.unit r.bad else r.bad }

/-- Serve one word of a job (R210, R211, R217): what it stores, counts and answers. -/
def State.serveWord (s : State) (j : Job) (w : WordAcc) (err : WordErr) : State :=
  match s.place j.p w.addr with
  | none => s.modResp j.resp (fun r => r.served j.write w [] true)
  | some (m, r, off) =>
    let x := s.servedBy m r off
    if (s.stack m).offline.contains x then s.modResp j.resp (fun r => r.served j.write w [] true)
    else
      let s := s.neighbour m x off
      if j.write then
        (s.writeWord j.p m x off w.first w.data err).modResp j.resp (fun r => r.served true w [] false)
      else
        let t := s.readWord (some j.p) m x off err
        let s := t.1.modResp j.resp (fun r => r.served false w t.2.1 t.2.2)
        if t.2.2 then (s.bump (rPmem j.p 6) 1).setReg (rPmem j.p 8) w.addr else s

/-- Take the front word off a channel's queue. -/
def State.popWord (s : State) (m ch : Nat) : State :=
  match s.jobs m ch with
  | [] => s
  | j :: rest => s.setJobs m ch (if j.words.tail = [] then rest else { j with words := j.words.tail } :: rest)

/-- Whether a word of a job waits for a refresh of its bank (R213). -/
def State.wordWaits (s : State) (p : Nat) (w : WordAcc) : Bool :=
  match s.place p w.addr with
  | some (m, r, off) => s.bankHeld m (s.servedBy m r off) off
  | none => false

/-- HBM_ACCESS (R210–R213): the channel serves the next word in the order in which accesses reached its queue, unless a refresh
holds its bank. -/
def execHbmAccess (stack : StackN) (ch : Fin 32) (err : WordErr) (s : State) : Res :=
  .next (
    match s.jobs stack.val ch.val with
    | [] => s
    | j :: _ =>
      match j.words with
      | [] => s.popWord stack.val ch.val
      | w :: _ => if s.wordWaits j.p w then s else (s.serveWord j w err).popWord stack.val ch.val)

/-- ORDINARY_REFRESH (R213): the bank is held for 200 ns. -/
def execOrdinaryRefresh (stack : StackN) (rank : Fin 128) (pseudo : Fin 2) (bank : Fin 16) (s : State) : Res :=
  .next (s.holdBank stack.val (bankKey rank.val pseudo.val bank.val) 200)

/-- STACK_TEMP_READ (R213, R373): the refresh interval, and the halving of the stack's channels above HBM_THROTTLE_C until
it reads 2 °C below. -/
def execStackTempRead (stack : StackN) (celsius : BitVec 8) (s : State) : Res :=
  let t := celsius.toNat
  let lim := s.reg (key 0x2700 6)
  .next (s.modStack stack.val (fun x =>
    { x with interval := if t ≤ 85 then 3900 else 1950,
             hot := if lim < t then true else if t + 2 ≤ lim then false else x.hot }))

/-- The next word of the patrol: its place, and whether a pass ends with it (R212). -/
def State.patrolNext (s : State) (m : Nat) : Nat × Bool :=
  let at_ := (s.stack m).patrol
  if at_ % 2 ^ 32 + 64 < rankBytes then (at_ + 64, false)
  else
    match (List.range 128).find? (fun r => decide (at_ / 2 ^ 32 < r) && s.rankInService m r) with
    | some r => (r * 2 ^ 32, false)
    | none => (((List.range 128).find? (fun r => s.rankInService m r)).getD 0 * 2 ^ 32, true)

/-- PATROL_ACCESS (R212): the scrubber's next word is treated as a read treats it, and a poisoned word is passed over. -/
def execPatrolAccess (stack : StackN) (err : WordErr) (s : State) : Res :=
  let m := stack.val
  let at_ := (s.stack m).patrol
  let r := at_ / 2 ^ 32
  let t := if s.rankInService m r then (s.readWord (s.rankOwner m r) m r (at_ % 2 ^ 32) err).1 else s
  let n := s.patrolNext m
  let t := t.modStack m (fun x => { x with patrol := n.1 })
  .next (if n.2 then t.bump (rStack m 0x26) 1 else t)

/-- A command and address error whose retry failed (R215, R217): a degraded rank goes offline, with an operator event. -/
def State.commandFailed (s : State) (m x : Nat) : State :=
  if (s.stack m).degraded.contains x then
    if (s.stack m).offline.contains x then s
    else (s.modStack m (fun st => { st with offline := st.offline ++ [x] })).raise 0x0201 (some m)
  else s.retire m x

/-- CMD_PARITY_ERROR (R215, R226): counted once, and a failed retry counted again; the access of the failed retry delivers
its unit poisoned or settles WRITE_ERROR, and its rank is retired. -/
def execCmdParityError (stack : StackN) (ch : Fin 32) (retryFails : Bool) (s : State) : Res :=
  let m := stack.val
  .next (
    match s.jobs m ch.val with
    | [] => s.bump (rStack m 0x22) 1
    | j :: _ =>
      if retryFails then
        let s := s.bump (rStack m 0x22) 2
        match j.words with
        | [] => s
        | w :: _ =>
          let t := (s.modResp j.resp (fun r => r.served j.write w [] true)).popWord m ch.val
          match s.place j.p w.addr with
          | some (m', r, off) => t.commandFailed m' (s.servedBy m' r off)
          | none => t
      else s.bump (rStack m 0x22) 1)

/-! ### Migration of a rank (R216, R218) -/

/-- No rank of a stack migrates any more: those that wait are taken in turn (R215). -/
def State.takeDue (s : State) (m : Nat) (first : List Nat) : State :=
  let due := (s.stack m).due
  (first ++ due).foldl (fun s r => s.retire m r) (s.modStack m (fun x => { x with due := [] }))

/-- The remap entry becomes valid, the retired rank serves nothing further, and the next due rank is taken (R215, R216). -/
def State.commitMig (s : State) (m : Nat) : State :=
  let g := s.reg (rMigRank m)
  let i := (s.remaps m).length
  let s := (((s.setReg (rRemap m i) (2 ^ 15 + field (g % 256) 14 8 + g / 256 % 128)).setReg (rMigRank m) 0xFFFF).setReg
    (rMigPointer m) 0).bump (rStack m 3) 1
  (s.modStack m (fun x => { x with unsavedRemap := x.unsavedRemap ++ [i] })).takeDue m []

/-- Copy one word into the spare (R216): corrected, poisoned or unchanged. -/
def State.copyWord (s : State) (m r spare off : Nat) (err : WordErr) : State :=
  let k := wordKey m r off
  let k' := wordKey m spare off
  let put (t : State) : State := t.putBytes k' (t.word k)
  match s.found k err with
  | none => put (s.draw.setPoison k')
  | some .good => put ((s.stray k err).draw.clearPoison k')
  | some .correctable => (put ((s.stray k err).draw.clearPoison k')).ceFound (s.rankOwner m r) m r
  | some .uncorrectable => put ((s.draw.ueFound m r off).setPoison k')

/-- The spare of a migration fails (R218): the copy starts again on the next unused spare; with none the rank stays in
service in degraded state (R217). -/
def State.spareFailed (s : State) (m : Nat) : State :=
  let r := s.reg (rMigRank m) % 256
  ((s.setReg (rMigRank m) 0xFFFF).setReg (rMigPointer m) 0).takeDue m [r]

/-- RANK_MIGRATION_BLOCK (R216, R218): the block at the pointer is copied and committed; the last block makes the remap entry
valid. -/
def execRankMigrationBlock (stack : StackN) (bad : List (Fin 64 × WordErr)) (spareFails : Bool) (s : State) : Res :=
  let m := stack.val
  let g := s.reg (rMigRank m)
  let at_ := s.reg (rMigPointer m)
  .next (
    if g = 0xFFFF then s
    else if spareFails then s.spareFailed m
    else
      let err (i : Nat) : WordErr := ((bad.find? (fun e => e.1.val == i)).map (·.2)).getD ⟨0, false⟩
      let t := (List.range 64).foldl (fun t i => t.copyWord m (g % 256) (g / 256) (at_ + 64 * i) (err i)) s
      let t := t.setReg (rMigPointer m) (at_ + 4096)
      if at_ + 4096 < rankBytes then t else t.commitMig m)

/-- REMAP_FLASH_COMMIT (R216): the entry enters the persistent records of both flashes. -/
def execRemapFlashCommit (stack : StackN) (s : State) : Res :=
  let m := stack.val
  match (s.stack m).unsavedRemap with
  | [] => .next s
  | i :: rest =>
    let k := rRemap m i
    let v := s.reg k
    let put (f : Flash) : Flash := { f with journal := sput regDefault f.journal k v }
    let s := { s with mill := { s.mill with flash0 := put s.mill.flash0, flash15 := put s.mill.flash15 } }
    .next (s.modStack m (fun x => { x with unsavedRemap := rest }))

/-- Every word of a partition's ranks written as zero, with valid check bits (R222, R256, R270). -/
def State.zeroRanks (s : State) (p : Nat) : State :=
  let mine (k : Nat) : Bool := (List.range 128).any (fun r => s.hasRank p (k / 2 ^ 40) r &&
    (s.inPlaceOf (k / 2 ^ 40) r == k / 2 ^ 32 % 2 ^ 8))
  { s with hbm := sclear mine s.hbm, poison := s.poison.filter (fun k => !mine k) }

/-- The migrations of a partition's ranks stop at its teardown: what is left of the spare is zero, and the remap commits
(R218). -/
def State.stopRankMigs (s : State) (p : Nat) : State :=
  (List.range 32).foldl (fun s m =>
    let g := s.reg (rMigRank m)
    if g ≠ 0xFFFF ∧ s.rankOwner m (g % 256) = some p then s.commitMig m else s) s

/-- Cold reset of the stacks (R205, R222): remap entries of flash applied, every word zero, and ranks that fail the read-back
retired. -/
def State.hbmCold (s : State) (bad : List (StackN × Fin 128)) : State :=
  let s := { s with hbm := [], poison := [], channels := [], stackSides := [] }
  let n := s.reg (key 0x2200 1)
  let s := (List.range 32).foldl (fun s m =>
    let used := maxL ((s.remaps m).map (fun e => (spareList.findIdx? (· == e.2)).elim 0 (· + 1)))
    let s := s.modStack m (fun x => { x with spares := n, used := used })
    (s.setReg (rStack m 2) (n - used)).setReg (rStack m 3) (s.remaps m).length) s
  bad.foldl (fun s e => s.retire e.1.val (s.inPlaceOf e.1.val e.2.val)) s

/-! ### On-die stores (R219–R221) -/

/-- The 64-bit words of a store: 8 MiB in a tile store, 32 MiB in the die store (R220). -/
def storeWords (store : Nat) : Nat := if store < 8 then 1048576 else 4194304

/-- Completed scrub passes of a die: every store read as often. -/
def State.scrubPasses (s : State) (c : Nat) : Nat :=
  ((List.range 9).map (fun t => sget (fun _ => 0) s.scrub (c * 9 + t) / storeWords t)).foldl min
    (sget (fun _ => 0) s.scrub (c * 9) / storeWords 0)

/-- A resident copy found to hold a poisoned word is freed at once; its migration is cancelled (R166, R221). -/
def State.freeCopyAt (s : State) (p i : Nat) : State :=
  match (s.prn p).copies[i]? with
  | none => s
  | some x =>
    let n := (s.prn p).migs.countP (fun g => g.addr == x.addr && g.len == x.len && (g.src == x.die || g.dst == x.die))
    let s := s.modPr p (fun r =>
      { r with copies := r.copies.eraseIdx i,
               migs := r.migs.filter (fun g => !(g.addr == x.addr && g.len == x.len && (g.src == x.die || g.dst == x.die))) })
    (s.bump (rBlk p 0x15) 1).bump (rBlk p 0x17) n

/-- Bytes of an end that read as poisoned (R219, R196). -/
def End.spoil (e : End) (off n : Nat) : End := { e with bad := e.bad ++ [(off, n)] }

/-- An uncorrectable word of a store, and what it held (R219, R221): it is counted and named, a resident copy there is freed, and a
stream buffer's bytes read as poisoned. -/
def State.storeUe (s : State) (c store : Nat) (copy : Option Nat) (buf : Option (CmdRef × Nat × Nat)) : State :=
  let n := sget (fun _ => 0) s.scrub (c * 9 + store)
  let ue := if store < 8 then 2 else 4
  let t := (s.bump (rSram c ue) 1).setReg (rSram c 6) (field store 31 28 + n % storeWords store)
  let t := match copy, s.dieOwner c with
    | some i, some p => t.freeCopyAt p i
    | _, _ => t
  match buf with
  | some (ref, e, off) => t.modRef ref (fun x =>
      { x with ends := updWhere (fun y => y.id == e) (fun y => y.spoil (off / 8 * 8) 8) x.ends })
  | none => t

/-- The scrubber of a die has read one word more of a store; SCRUB_PASSES counts whole passes (R220, R227). -/
def State.scrubbed (s : State) (c store : Nat) : State :=
  let t := { s with scrub := smod (fun _ => 0) s.scrub (c * 9 + store) (· + 1) }
  t.bump (rSram c 5) (t.scrubPasses c - s.scrubPasses c)

/-- SRAM_SCRUB (R219–R221, R227): the next word of a store is read, with `wrong` of its 73 bits in error, and repaired; an
uncorrectable one is poisoned, with what it held. -/
def execSramScrub (die : DieC) (store : Fin 9) (wrong : Fin 74) (copy : Option Nat) (buf : Option (CmdRef × Nat × Nat))
    (s : State) : Res :=
  let c := die.val
  let t : State :=
    match secded wrong.val s.drawn with
    | .good => s
    | .correctable => s.bump (rSram c (if store.val < 8 then 1 else 3)) 1
    | .uncorrectable => s.storeUe c store.val copy buf
  .next ((t.scrubbed c store.val).draw)

end Sys2Proof.Machine
end

