-- ==== Sys2Proof/Machine/Brim.lean ====
section
/-! DEFINITION. The brim's resources (R276–R298): fabric ports as declared, DSP cells with their instructions, and the delay
lines of the user I/O pins. -/

namespace Sys2Proof.Machine

def rBrim (c sub : Nat) : Nat := key (0x6A00 + c) sub
def rLoad (c sub : Nat) : Nat := key (0x6B00 + c) sub

def State.brim (s : State) (c : Nat) : Brim := sget (fun _ => Brim.blank) s.brims c
def State.modBrim (s : State) (c : Nat) (g : Brim → Brim) : State :=
  { s with brims := smod (fun _ => Brim.blank) s.brims c g }

/-- Regions that hold a loaded design (R324 REGIONS_LOADED). -/
def State.regionsLoaded (s : State) (c : Nat) : Nat := s.reg (rLoad c 8)

/-- A region runs: it holds a design, its clock is not gated and global set-reset is not asserted there (R282, R314). -/
def State.regionRuns (s : State) (c r : Nat) : Bool :=
  bit (s.regionsLoaded c) r && !bit (s.brim c).gated r && !bit (s.brim c).gsr r

/-! ### Port declarations (R289) -/

def declSig (d : Nat) : Nat := bits d 255 224
def declPort (d : Nat) : Nat := bits d 223 216
def declSlot (d i : Nat) : Nat := bits d (23 + 24 * i) (24 * i)
def slotServed (x : Nat) : Bool := bit x 23
def slotGang (x : Nat) : Nat := bits x 22 20
def slotQm (x : Nat) : Nat := bits x 8 0
/-- The served slots of a declaration. -/
def declSlots (d : Nat) : List Nat := ((List.range 8).map (declSlot d)).filter slotServed
/-- The queue memories of a slot, and the region that holds them (R276, R289). -/
def slotMemories (x : Nat) : List Nat := (List.range (2 ^ slotGang x)).map (slotQm x + ·)
/-- Whether a port has a gang in a region of a mask. -/
def declTouches (d mask : Nat) : Bool := (declSlots d).any (fun x => bit mask (slotQm x / 40))

/-- The regions that the load in progress covers, from t_s on (R314): REGION_MASK of its header. -/
def Brim.loadMask (b : Brim) : Nat :=
  match b.loads with
  | l :: _ => if 2 ≤ l.stage then bits l.header 139 128 else 0
  | [] => 0

/-- The declarations that count for placement: those in effect, but from t_s on those of the image being loaded in place of
the ports of its regions (R318). -/
def Brim.declared (b : Brim) : List Nat := b.incoming ++ b.ports.filter (fun d => !declTouches d b.loadMask)

/-- The declaration in effect for a port number. -/
def Brim.decl (b : Brim) (port : Nat) : Option Nat := b.ports.find? (fun d => declPort d == port)

/-- Whether a die declares a port with a signature (R91, R318). -/
def State.declares (s : State) (c port sig : Nat) : Bool :=
  (s.brim c).declared.any (fun d => declPort d == port && declSig d == sig)

/-- The dies of a partition whose hood declares a port with a signature. -/
def State.brimDies (s : State) (p port sig : Nat) : List Nat := (s.diesOf p).filter (fun c => s.declares c port sig)

/-! ### DSP cells (R283–R287) -/

def State.dsp (s : State) (c cell : Nat) : Dsp := sget (fun _ => Dsp.blank) (s.brim c).dsp cell
def State.setDsp (s : State) (c cell : Nat) (x : Dsp) : State :=
  s.modBrim c (fun b => { b with dsp := sput (fun _ => Dsp.blank) b.dsp cell x })

/-- The fields of an instruction word (R284). -/
def iOp (w : Nat) : Nat := bits w 31 28
def iSat (w : Nat) : Bool := bit w 27
def iAsign (w : Nat) : Bool := bit w 26
def iBsign (w : Nat) : Bool := bit w 25
def iEmit (w : Nat) : Bool := bit w 24
def iRnd (w : Nat) : Bool := bit w 16
def iImm (w : Nat) : Nat := bits w 15 0

/-- The result rule of R285: what the accumulator receives from an exact result, and whether it overflowed. -/
def dspResult (sat : Bool) (x : Int) : Int × Bool :=
  let hi : Int := 2 ^ 39 - 1
  let lo : Int := -(2 ^ 39)
  if lo ≤ x ∧ x ≤ hi then (x, false) else ((if sat then max lo (min hi x) else signed 40 (unsigned 40 x)), true)

/-- The exact product A × B under the signs an instruction selects (R283–R285). -/
def dspProduct (w : Nat) (a b : BitVec 16) : Int :=
  (if iAsign w then a.toInt else (a.toNat : Int)) * (if iBsign w then b.toInt else (b.toNat : Int))

/-- P of a cell: the accumulator three cycles after the instruction that set it (R283). -/
def Dsp.p (x : Dsp) : Int := (x.pipe.getD 2 (0, false)).1

/-- C of a cell: the fabric's value, or P of the cell below in its cascade column (R276, R283). -/
def State.dspC (s : State) (c cell : Nat) (v : Option (BitVec 40)) : Int :=
  match v with
  | some x => x.toInt
  | none => if cell % 16 = 0 then 0 else (s.dsp c (cell - 1)).p

/-- The word that a cell executes next, when its region runs and the cell is not idle. -/
def State.dspWord (s : State) (c cell : Nat) : Option Nat :=
  let x := s.dsp c cell
  if s.regionRuns c (cell / 128) && x.busy then some (x.seq.getD x.entry 0) else none

/-- One execution of an instruction of operation `op`: `f` gives the exact result, or none when the accumulator keeps its
value (R285, R286).  The last execution of a REPEAT raises PVALID when EMIT is set, and moves on. -/
def State.dspExec (s : State) (c cell op : Nat) (f : Nat → Int → Option Int) : State :=
  match s.dspWord c cell with
  | none => s
  | some w =>
    if iOp w ≠ op then s else
    let x := s.dsp c cell
    let r := match f w x.acc with
      | some v => dspResult (iSat w) v
      | none => (x.acc, false)
    let last := decide (x.rep ≤ 1)
    let s := s.setDsp c cell
      { x with acc := r.1, ovf := x.ovf || r.2, entry := if last then (x.entry + 1) % 8 else x.entry, rep := x.rep - 1,
               pipe := ((r.1, iEmit w && last) :: x.pipe).take 3 }
    if r.2 then s.bump (rBrim c 9) 1 else s

/-- NOP (R285). -/
def execNopDsp (die : DieC) (cell : Fin 1536) (s : State) : Res := .next (s.dspExec die.val cell.val 0x0 (fun _ _ => none))
/-- MUL: acc := A × B (R285). -/
def execMul (die : DieC) (cell : Fin 1536) (a b : BitVec 16) (s : State) : Res :=
  .next (s.dspExec die.val cell.val 0x1 (fun w _ => some (dspProduct w a b)))
/-- MAC: acc := acc + A × B (R285). -/
def execMac (die : DieC) (cell : Fin 1536) (a b : BitVec 16) (s : State) : Res :=
  .next (s.dspExec die.val cell.val 0x2 (fun w acc => some (acc + dspProduct w a b)))
/-- MSUB: acc := acc − A × B (R285). -/
def execMsub (die : DieC) (cell : Fin 1536) (a b : BitVec 16) (s : State) : Res :=
  .next (s.dspExec die.val cell.val 0x3 (fun w acc => some (acc - dspProduct w a b)))
/-- LOADC: acc := C (R285). -/
def execLoadc (die : DieC) (cell : Fin 1536) (c : Option (BitVec 40)) (s : State) : Res :=
  .next (s.dspExec die.val cell.val 0x4 (fun _ _ => some (s.dspC die.val cell.val c)))
/-- ADDC: acc := acc + C (R285). -/
def execAddc (die : DieC) (cell : Fin 1536) (c : Option (BitVec 40)) (s : State) : Res :=
  .next (s.dspExec die.val cell.val 0x5 (fun _ acc => some (acc + s.dspC die.val cell.val c)))
/-- CLR: acc := 0 (R285). -/
def execClr (die : DieC) (cell : Fin 1536) (s : State) : Res := .next (s.dspExec die.val cell.val 0x7 (fun _ _ => some 0))

/-- The arithmetic right shift of R285; a shift of 40 or more has no stated result: a free value (log 31). -/
def dspShift (draw w : Nat) (acc : Int) : Int :=
  let n := iImm w % 64
  if 40 ≤ n then signed 40 (Config.freeNat 40 draw)
  else if iRnd w && decide (1 ≤ n) then (acc + 2 ^ (n - 1)) / 2 ^ n else acc / 2 ^ n

/-- SHR (R285). -/
def execShr (die : DieC) (cell : Fin 1536) (s : State) : Res :=
  .next ((s.dspExec die.val cell.val 0x6 (fun w acc => some (dspShift s.drawn w acc))).draw)

/-- REPEAT: the next entry executes IMM + 1 times (R285, R286); it takes no cycle. -/
def execDspRepeat (die : DieC) (cell : Fin 1536) (s : State) : Res :=
  .next (
    match s.dspWord die.val cell.val with
    | none => s
    | some w =>
      let x := s.dsp die.val cell.val
      if iOp w = 0x8 ∧ x.rep = 0 then s.setDsp die.val cell.val { x with entry := (x.entry + 1) % 8, rep := iImm w + 1 } else s)

/-- END: continue at entry 0, or stop with DONE high (R285); it takes no cycle. -/
def execDspEnd (die : DieC) (cell : Fin 1536) (s : State) : Res :=
  .next (
    match s.dspWord die.val cell.val with
    | none => s
    | some w =>
      let x := s.dsp die.val cell.val
      if iOp w = 0xF ∧ x.rep = 0 then
        s.setDsp die.val cell.val (if bit (iImm w) 0 then { x with entry := 0 } else { x with busy := false })
      else s)

/-- START: start, or restart, at entry 0, with OVF cleared; not remembered during a REPEAT (R283, R286). -/
def execDspStart (die : DieC) (cell : Fin 1536) (s : State) : Res :=
  let x := s.dsp die.val cell.val
  .next (
    if s.regionRuns die.val (cell.val / 128) && x.rep == 0 then
      s.setDsp die.val cell.val { x with entry := 0, busy := true, ovf := false }
    else s)

/-- RST: idle, with accumulator and OVF cleared; not remembered during a REPEAT (R283, R286). -/
def execDspRst (die : DieC) (cell : Fin 1536) (s : State) : Res :=
  let x := s.dsp die.val cell.val
  .next (
    if s.regionRuns die.val (cell.val / 128) && x.rep == 0 then
      s.setDsp die.val cell.val { x with acc := 0, busy := false, ovf := false }
    else s)

/-! ### Delay lines (R295, R298) -/

/-- One line after some capture-clock cycles: a tap for each towards its goal (R298). -/
def Tap.after (x : Tap) (n : Nat) : Tap :=
  { x with now := if x.now ≤ x.goal then min x.goal (x.now + n) else max x.goal (x.now - n) }

/-- The crown die whose regions a port die's pins reach, and the region of a pin (R295). -/
def pinDie (port : Nat) : Nat := if port < 8 then port else 32 + port
def pinRegion (port pin : Nat) : Nat := if port < 8 then pin / 24 else 6 + pin / 24

/-- TAP_WRITE (R298): after `elapsed` capture-clock cycles since the last write of this line, the fabric writes a new tap. -/
def execTapWrite (port : Fin 16) (pin : Fin 96) (output : Bool) (tap : Fin 128) (elapsed : W32) (s : State) : Res :=
  let k := (port.val * 96 + pin.val) * 2 + b2n output
  .next (
    if s.regionRuns (pinDie port.val) (pinRegion port.val pin.val) then
      let x := (sget (fun _ => Tap.blank) s.taps k).after elapsed.toNat
      { s with taps := sput (fun _ => Tap.blank) s.taps k { x with goal := tap.val } }
    else s)

end Sys2Proof.Machine
end

