-- ==== Sys2Proof/Machine/Fabric.lean ====
section
/-! DEFINITION. The user clock regions of a brim (R277–R282, R288, R297, R301, R305, R306): frames, logic cells, clocks, the time
each region sees, boundary outputs, queue memories and I/O cells.  What a frame's bits set up is not in the spec: it is read
through functions of Config, and what the routing of a design carries to a cell, a memory or a pin is a free value (log 76). -/

namespace Sys2Proof.Machine

/-! ### Frames (R301) -/

def blankFrame : Nat → List Byte := fun _ => List.replicate 512 0
def frameKey (c r i : Nat) : Nat := (c * 12 + r) * 2560 + i
def State.frame (s : State) (c r i : Nat) : List Byte := sget blankFrame s.frames (frameKey c r i)
def State.setFrame (s : State) (c r i : Nat) (bs : List Byte) : State :=
  { s with frames := sput blankFrame s.frames (frameKey c r i) bs }
/-- The frames of a region. -/
def State.regionFrames (s : State) (c r : Nat) : List (List Byte) := (List.range 2560).map (s.frame c r)
/-- The frames of all 12 regions of a die. -/
def State.dieFrames (s : State) (c : Nat) : List (List Byte) := (List.range 12).flatMap (s.regionFrames c)
/-- Write every frame of a mask of regions as zero. -/
def State.blankRegions (s : State) (c mask : Nat) : State :=
  { s with frames := sclear (fun k => k / 30720 == c && bit mask (k / 2560 % 12)) s.frames }

/-! ### Logic cells (R276, R277) -/

/-- Clusters of 8 logic cells of a region. -/
def clusters (r : Nat) : Nat := if [4, 5, 10, 11].contains r then 4550 else 4600

/-- The number whose bits 0 … n−1 are given by a function. -/
def packBits (n : Nat) (f : Nat → Bool) : Nat := (List.range n).foldl (fun x i => x + b2n (f i) * 2 ^ i) 0

/-- The two outputs of a look-up table for six inputs: one function of six inputs, or two of the same five (R277). -/
def tableOut (dual : Bool) (table inputs : Nat) : Bool × Bool :=
  if dual then (bit table (inputs % 32), bit table (32 + inputs % 32)) else (bit table (inputs % 64), bit table (inputs % 64))

/-- What the routing carries to the cells of a region, freely by draw number: the six inputs of a table, the bypass input of a
flip-flop, and the clock enable and the reset of a cluster (log 76). -/
def netInputs (n draw k : Nat) : Nat := bits (Config.freeNat (6 * n) draw) (6 * k + 5) (6 * k)
def netBypass (n draw j : Nat) : Bool := bit (Config.freeNat (2 * n) (draw + 1)) j
def netEnable (n draw q : Nat) : Bool := bit (Config.freeNat n (draw + 2)) q
def netReset (n draw q : Nat) : Bool := bit (Config.freeNat n (draw + 3)) q

/-- The table outputs of cell `k` of a region whose frames are given. -/
def cellOut (fr : List (List Byte)) (n draw k : Nat) : Bool × Bool :=
  tableOut (Config.cellDual fr k) (Config.cellTable fr k) (netInputs n draw k)

/-- The D input of flip-flop `j` = 2 × cell + half: either table output, or the bypass input (R277). -/
def flopD (fr : List (List Byte)) (n draw j : Nat) : Bool :=
  match Config.flopSource fr j % 3 with
  | 0 => (cellOut fr n draw (j / 2)).1
  | 1 => (cellOut fr n draw (j / 2)).2
  | _ => netBypass n draw j

/-- A flip-flop after a moment in which the region clock has a rising edge, or has none: an asynchronous reset of its cluster
acts at once and a synchronous one at the edge; the clock enable lets it take D (R277). -/
def flopNext (fr : List (List Byte)) (n draw : Nat) (rise : Bool) (old : Nat) (j : Nat) : Bool :=
  let q := j / 16
  if netReset n draw q && (rise || Config.clusterAsync fr q) then Config.flopReset fr j
  else if rise && netEnable n draw q then flopD fr n draw j
  else bit old j

/-- The carry chain of a region (R277): ascending through the cells of a cluster and into the cluster above, 64 clusters at most. -/
def carryChain (fr : List (List Byte)) (n draw : Nat) : Nat :=
  ((List.range n).foldl (fun (a : Nat × Bool) k =>
    let c := Config.carryOut (cellOut fr n draw k).1 (netBypass n draw (2 * k)) (if k % 512 = 0 then false else a.2)
    (a.1 + b2n c * 2 ^ k, c)) (0, false)).1

/-- The initial values of a region's flip-flops, from its image (R277, R282). -/
def flopInits (fr : List (List Byte)) (r : Nat) : Nat := packBits (16 * clusters r) (Config.flopInit fr)

/-! ### Boundary outputs (R305, R306) -/

/-- Whether a bank of user I/O pins is wired to a region of a die (R295). -/
def hasBank (c r : Nat) : Bool := (decide (c < 8) && decide (r < 4)) || (decide (40 ≤ c) && decide (6 ≤ r) && decide (r < 10))

/-- The region that boundary output `i` of region `r` leads into: 0–479 the one before it in the ring, 480–959 the one after;
outputs 960 and above lead to pins or are reserved (R306). -/
def crossingInto (r i : Nat) : Option Nat :=
  if i < 480 then some ((r + 11) % 12) else if i < 960 then some ((r + 1) % 12) else none

/-- The boundary outputs that a region has: its crossings, and the output and output enable of the 24 pins of its bank (R306). -/
def hasOutput (c r i : Nat) : Bool := decide (i < 960) || (decide (i < 1008) && hasBank c r)

/-- The output and the output enable of pin `j` of a region's bank (R306). -/
def pinOutput (j : Nat) : Nat := 960 + 2 * j
def pinEnable (j : Nat) : Nat := 961 + 2 * j

/-- The boundary outputs of a region under a boundary map: held, 0 or 1; the entry of an output that the region does not have
changes nothing (R305, R306; log 113). -/
def underMap (c r map last : Nat) : Nat :=
  packBits 1024 (fun i =>
    if hasOutput c r i then
      match bits map (2 * i + 1) (2 * i) with
      | 1 => false
      | 2 => true
      | _ => bit last i
    else bit last i)

def Brim.region (b : Brim) (r : Nat) : Region := sget (fun _ => Region.blank) b.regions r
def Brim.modRegion (b : Brim) (r : Nat) (g : Region → Region) : Brim :=
  { b with regions := smod (fun _ => Region.blank) b.regions r g }

/-- The covered regions of a mask. -/
def regionsIn (mask : Nat) : List Nat := idxs 12 (bit mask)

/-- The boundary latches of a mask of regions capture, each under its map; what the outputs were is kept for a load that is
rejected (R305, R308, R314). -/
def Brim.capture (b : Brim) (c mask : Nat) (map : Nat → Nat) : Brim :=
  (regionsIn mask).foldl (fun b r => b.modRegion r (fun x => { x with edge := underMap c r (map r) x.edge, was := x.edge })) b

/-- A load is rejected: the outputs of its regions are as they were (R308). -/
def Brim.reopen (b : Brim) (mask : Nat) : Brim :=
  (regionsIn mask).foldl (fun b r => b.modRegion r (fun x => { x with edge := x.was })) b

/-- The value that enters a region through a crossing: that of the boundary output of the region that drives it (R306). -/
def State.crossing (s : State) (c r i : Nat) : Bool := bit ((s.brim c).region r).edge i

/-- What the device drives on a user I/O pin; none is high impedance with a weak pull-down (R295, R305, R306). -/
def State.pinDrives (s : State) (port pin : Nat) : Option Bool :=
  let e := ((s.brim (pinDie port)).region (pinRegion port pin)).edge
  if bit e (pinEnable (pin % 24)) then some (bit e (pinOutput (pin % 24))) else none

/-! ### Region clocks and time (R280, R281) -/

/-- The clock of a region: FCLK0–FCLK3, the MCLK of the die, or the forwarded clock of a pin pair of the facing bank (R280). -/
inductive RegionClock where
  | fclk (n : Fin 4)
  | mclk
  | forwarded
  deriving DecidableEq, Repr

/-- The source that the image selects; only a region with a bank can select a forwarded clock (R280; log 114). -/
def State.regionClock (s : State) (c r : Nat) : RegionClock :=
  match Config.regionClock (s.regionFrames c r) % 6 with
  | 0 => .fclk 0
  | 1 => .fclk 1
  | 2 => .fclk 2
  | 3 => .fclk 3
  | 4 => .mclk
  | _ => if hasBank c r then .forwarded else .mclk

/-- The highest region frequency of the grade in MHz (R279). -/
def regionLimit : Nat := if Config.gradeTwo then 900 else 800

/-- FCLKn of a die in MHz: 25 to the grade's highest, in steps of 1 (R280). -/
def State.fclkMhz (s : State) (c n : Nat) : Nat := max 25 (min regionLimit (Config.fclk (s.dieFrames c) n))

/-- The frequency of a region's clock in MHz; that of a forwarded clock comes from outside: a free value up to 800 (R279, R280). -/
def State.regionMhz (s : State) (c r : Nat) : Nat :=
  match s.regionClock c r with
  | .fclk n => s.fclkMhz c n.val
  | .mclk => (sget (fun _ => DiePower.blank) s.power.dies c).mhz
  | .forwarded => Config.freeNat 10 (s.free + 4) % 801

/-- A clock of `mhz` over one cycle of the band clock of 2,400 MHz: its phase after it, and whether it rose and fell (R280; the phase
between the two is the model's, log 114). -/
def clockOver (mhz phase : Nat) : Nat × Bool × Bool :=
  let x := phase + mhz
  (x % 2400, decide (2400 ≤ x), (decide (phase < 1200) && decide (1200 ≤ x)) || decide (3600 ≤ x))

/-- The time that a region sees at an edge of its clock: the die's own counter to within 2 ns, plus one period (R281). -/
def State.regionTime (s : State) (mhz : Nat) : Nat :=
  let slack := 1000 / max mhz 1 + 5
  (s.now + 2 - Config.freeNat 64 (s.free + 5) % slack) % 2 ^ 64

/-! ### I/O cells (R297, R298) -/

/-- What an I/O cell sees and drives over a moment in which its clock rises or falls: the input register takes the pin on the rising
edge as Q0 and, in double-rate mode, on the falling edge as Q1; D0 leaves on the rising edge and D1 on the falling one (R297). -/
def IoCell.clocked (x : IoCell) (double rise fall pin d0 d1 : Bool) : IoCell :=
  { q0 := if rise then pin else x.q0,
    q1 := if fall && double then pin else x.q1,
    d0 := if rise then d0 else x.d0,
    d1 := if rise then d1 else x.d1,
    out := if fall && double then (if rise then d1 else x.d1) else if rise then d0 else x.out }

/-- The cells of a region's bank over a moment: what the pins carry from outside, and what the design gives its cells, are free; the
level of a pin that the device drives is its own (R297; log 76). -/
def State.clockPins (s : State) (c r : Nat) (rise fall : Bool) : State :=
  if !hasBank c r then s
  else
    let fr := s.regionFrames c r
    let outside := Config.freeNat 24 (s.free + 6)
    let given := Config.freeNat 48 (s.free + 7)
    let e := ((s.brim c).region r).edge
    s.modBrim c (fun b =>
      { b with pins := (List.range 24).foldl (fun m j =>
          let level := if bit e (pinEnable j) then bit e (pinOutput j) else bit outside j
          smod (fun _ => IoCell.blank) m (24 * r + j) (fun x =>
            x.clocked (Config.ioDouble fr j) rise fall level (bit given (2 * j)) (bit given (2 * j + 1)))) b.pins })

/-! ### Queue memories (R288) -/

/-- The mode of a queue memory, as its frames set it (R288). -/
inductive QueueMode where
  | ram72 | ram64 | fifo | port
  deriving DecidableEq, Repr

def State.queueMode (s : State) (c m : Nat) : QueueMode :=
  match Config.queueMode (s.regionFrames c (m / 40)) (m % 40) % 4 with
  | 0 => .ram72
  | 1 => .ram64
  | 2 => .fifo
  | _ => .port

/-- The bits of a word: 72; 8, 16, 32 or 64; 8 to 64; 64 (R288). -/
def State.queueWidth (s : State) (c m : Nat) : Nat :=
  let w := Config.queueWidth (s.regionFrames c (m / 40)) (m % 40)
  match s.queueMode c m with
  | .ram72 => 72
  | .ram64 => 8 * 2 ^ (w % 4)
  | .fifo => 8 + w % 57
  | .port => 64

/-- The words a memory holds: 512 of 72 bits, or 4 KiB (R288). -/
def State.queueWords (s : State) (c m : Nat) : Nat :=
  match s.queueMode c m with
  | .ram72 => 512
  | _ => 32768 / s.queueWidth c m

def Brim.queue (b : Brim) (m : Nat) : QueueMem := sget (fun _ => QueueMem.blank) b.queues m
def Brim.modQueue (b : Brim) (m : Nat) (g : QueueMem → QueueMem) : Brim :=
  { b with queues := smod (fun _ => QueueMem.blank) b.queues m g }

/-- EMPTY, FULL, ALMOST_EMPTY and ALMOST_FULL of a queue of `n` words with its two watermarks: a word counts on the read side, and a
space on the write side, once four cycles of that side's clock have passed (R288). -/
def QueueMem.readable (q : QueueMem) : Nat := q.tail - q.head - q.fresh.length
def QueueMem.taken (q : QueueMem) : Nat := q.tail - q.head + q.freed.length
def QueueMem.empty (q : QueueMem) : Bool := q.readable == 0
def QueueMem.full (q : QueueMem) (n : Nat) : Bool := decide (n ≤ q.taken)
def QueueMem.almostEmpty (q : QueueMem) (mark : Nat) : Bool := decide (q.readable ≤ mark)
def QueueMem.almostFull (q : QueueMem) (mark : Nat) : Bool := decide (mark ≤ q.taken)

/-- One cycle of the words or spaces on their way to the other side: four cycles bring them there (R288). -/
def arrive (l : List Nat) : List Nat := (l.map (· + 1)).filter (fun x => decide (x < 4))

/-- A cycle of the write side: a word is pushed unless the queue is full. -/
def QueueMem.writeCycle (q : QueueMem) (n : Nat) (push : Option Nat) : QueueMem :=
  let q := { q with freed := arrive q.freed }
  match push with
  | some w =>
    if q.full n then q
    else { q with words := sput (fun _ => 0) q.words (q.tail % n) w, tail := q.tail + 1, fresh := q.fresh ++ [0] }
  | none => q

/-- A cycle of the read side: the oldest word is popped unless the queue is empty. -/
def QueueMem.readCycle (q : QueueMem) (pop : Bool) : QueueMem :=
  let q := { q with fresh := arrive q.fresh }
  if pop && !q.empty then { q with head := q.head + 1, freed := q.freed ++ [0] } else q

/-- SECDED of a word that is read: corrected and counted in QM_CE, or marked poisoned and counted in QM_UE (R288, R300). -/
def State.queueCheck (s : State) (c wrong : Nat) : State :=
  match secded wrong (s.free + 5) with
  | .good => s
  | .correctable => s.bump (rBrim c 7) 1
  | .uncorrectable => s.bump (rBrim c 8) 1

/-- A queue memory over a moment in which some regions' clocks rise: its write port and its read port each run on the clock of a region
that the image names, and a side whose region does not run is neither written nor read (R288, R315).  What the design pushes, writes,
pops and reads is free (log 76); the words of a memory in PORT mode are those of the stream buffer it is (R290). -/
def State.clockQueue (s : State) (c : Nat) (up : Nat → Bool) (m : Nat) : State :=
  let fr := s.regionFrames c (m / 40)
  let sides := Config.queueSides fr (m % 40)
  let w := up (sides.1 % 12)
  let r := up (sides.2 % 12)
  let n := s.queueWords c m
  let acts := Config.freeNat 2 s.free
  let word := Config.freeNat (s.queueWidth c m) (s.free + 1) % 2 ^ s.queueWidth c m
  let wrong := Config.freeNat 7 (s.free + 2)
  let place := Config.freeNat 12 (s.free + 3) % n
  let t : State :=
    match s.queueMode c m with
    | .port => s
    | .fifo =>
      let q := (s.brim c).queue m
      let q := if w then q.writeCycle n (if bit acts 0 then some word else none) else q
      let q' := if r then q.readCycle (bit acts 1) else q
      let s := s.modBrim c (fun b => b.modQueue m (fun _ => q'))
      if q'.head = q.head then s else s.queueCheck c wrong
    | mode =>
      let s := if w && bit acts 0 then
          s.modBrim c (fun b => b.modQueue m (fun q => { q with words := sput (fun _ => 0) q.words place word }))
        else s
      if r && bit acts 1 && mode == .ram64 then s.queueCheck c wrong else s
  { t with free := t.free + 8 }

/-- A queue memory under global set-reset: empty, unattached, with no item; RAM-mode memories take their initial values when it is
released (R282, R301, R314 step 6, R315). -/
def State.queueInit (s : State) (c m : Nat) : QueueMem :=
  let word (a : Nat) : Nat := Config.queueInit (s.regionFrames c (m / 40)) (m % 40) a % 2 ^ s.queueWidth c m
  let full : QueueMem :=
    { QueueMem.blank with words := (List.range (s.queueWords c m)).foldl (fun x a => sput (fun _ => 0) x a (word a)) [] }
  match s.queueMode c m with
  | .ram72 => full
  | .ram64 => full
  | _ => QueueMem.blank

/-! ### Global set-reset (R282, R314) -/

/-- Global set-reset in a mask of regions: flip-flops at their initial values, DSP cells idle, queue controllers empty. -/
def State.setReset (s : State) (c mask : Nat) : State :=
  let idle (_ : Nat) (x : Dsp) : Dsp := { Dsp.blank with seq := x.seq }
  s.modBrim c (fun b =>
    let b := { b with dsp := smap (fun _ => Dsp.blank) (fun k => bit mask (k / 128)) idle b.dsp,
                      queues := sclear (fun m => bit mask (m / 40)) b.queues }
    (regionsIn mask).foldl (fun b r =>
      b.modRegion r (fun x => { x with flops := flopInits (s.regionFrames c r) r, carry := 0, phase := 0 })) b)

/-- Initial values once the frames are written: flip-flops, RAM-mode memories and the sequences of the DSP cells (R277, R284, R314). -/
def State.initRegions (s : State) (c mask : Nat) : State :=
  let s := s.setReset c mask
  s.modBrim c (fun b =>
    let dsp := (regionsIn mask).foldl (fun m r => (List.range 128).foldl (fun m i =>
      sput (fun _ => Dsp.blank) m (128 * r + i) { Dsp.blank with seq := Config.dspWords (s.regionFrames c r) i }) m) b.dsp
    let queues := (regionsIn mask).foldl (fun m r => (List.range 40).foldl (fun m i =>
      sput (fun _ => QueueMem.blank) m (40 * r + i) (s.queueInit c (40 * r + i))) m) b.queues
    { b with dsp := dsp, queues := queues })

/-! ### A brim over one band cycle -/

/-- A running region over one band cycle (R277, R280, R281, R297): at a rising edge its flip-flops and its view of the time change;
its boundary outputs follow what the design carries, or its I/O cells. -/
def State.clockRegion (s : State) (c r : Nat) : State :=
  let fr := s.regionFrames c r
  let n := 8 * clusters r
  let mhz := s.regionMhz c r
  let k := clockOver mhz ((s.brim c).region r).phase
  let rise := k.2.1
  let out := Config.freeNat 1024 (s.free + 8)
  let draw := s.free
  let time := s.regionTime mhz
  let s := s.clockPins c r rise k.2.2
  let pin (j : Nat) : IoCell := sget (fun _ => IoCell.blank) (s.brim c).pins (24 * r + j)
  let edge := packBits 1024 (fun i =>
    hasOutput c r i && (if 960 ≤ i ∧ i % 2 = 0 then (pin ((i - 960) / 2)).out else bit out i))
  let s := s.modBrim c (fun b => b.modRegion r (fun x =>
    { x with flops := packBits (2 * n) (flopNext fr n draw rise x.flops), carry := carryChain fr n draw, edge := edge,
             tai := if rise then time else x.tai, phase := k.1 }))
  { s with free := s.free + 9 }

/-- The regions of a die whose clock rises in this band cycle. -/
def State.rises (s : State) (c r : Nat) : Bool :=
  s.regionRuns c r && (clockOver (s.regionMhz c r) ((s.brim c).region r).phase).2.1

/-- A brim over one band cycle: its queue memories, then its regions (R276). -/
def State.clockBrim (s : State) (c : Nat) : State :=
  if s.regionsLoaded c = 0 then s
  else
    let rs := (List.range 12).filter (s.regionRuns c)
    let up := (List.range 12).map (s.rises c)
    let s := (rs.flatMap (fun r => (List.range 40).map (40 * r + ·))).foldl
      (fun s m => s.clockQueue c (fun r => up.getD r false) m) s
    rs.foldl (fun s r => s.clockRegion c r) s

/-- Every brim of the package over one band cycle. -/
def State.clockBrims (s : State) : State := (List.range 48).foldl State.clockBrim s

end Sys2Proof.Machine
end

