-- ==== Sys2Proof/Machine/Firmware.lean ====
section
/-! DEFINITION. Flash and firmware: image slots, erases, updates and trials (R408–R411), and the settings journal (R400). -/

namespace Sys2Proof.Machine

def rSlotActive : Nat := key 0x1040 1
def rSlotState (slot : Nat) : Nat := key 0x1040 (2 + slot)
def rFwOffset : Nat := key 0x1040 5
def rFwStatus : Nat := key 0x1040 7
def rPersistPending : Nat := key 0x1040 0xB
def rFwSvn : Nat := key 0x1000 9
def rActiveDie : Nat := key 0x1020 1
def rStandby : Nat := key 0x1020 2

/-- An erased byte of flash reads 0xFF (log 21). -/
def erasedByte : Nat → Byte := fun _ => 0xFF

/-- The active milliner is P00's (die number 48), else P15's (63). -/
def State.activeIs0 (s : State) : Bool := s.reg rActiveDie = 48

/-- The flash of the active milliner, and of the other. -/
def State.flash (s : State) : Flash := if s.activeIs0 then s.mill.flash0 else s.mill.flash15
def State.otherFlash (s : State) : Flash := if s.activeIs0 then s.mill.flash15 else s.mill.flash0

/-- Change both flashes, the active one, or the other. -/
def State.modFlashes (s : State) (g : Flash → Flash) : State :=
  { s with mill := { s.mill with flash0 := g s.mill.flash0, flash15 := g s.mill.flash15 } }
def State.modFlash (s : State) (g : Flash → Flash) : State :=
  if s.activeIs0 then { s with mill := { s.mill with flash0 := g s.mill.flash0 } }
  else { s with mill := { s.mill with flash15 := g s.mill.flash15 } }
def State.modOtherFlash (s : State) (g : Flash → Flash) : State :=
  if s.activeIs0 then { s with mill := { s.mill with flash15 := g s.mill.flash15 } }
  else { s with mill := { s.mill with flash0 := g s.mill.flash0 } }

/-- Image slot 0 A or 1 B of a flash. -/
def Flash.slot (f : Flash) (n : Nat) : Slot := if n = 0 then f.slotA else f.slotB
def Flash.modSlot (f : Flash) (n : Nat) (g : Slot → Slot) : Flash :=
  if n = 0 then { f with slotA := g f.slotA } else { f with slotB := g f.slotB }

/-- The sectors of a slot (R408): 2–49 of A, 50–97 of B. -/
def slotSectors (n : Nat) : List Nat := (List.range 48).map (fun i => 2 + 48 * n + i)
/-- The bytes of a slot: 48 sectors of 64 KiB. -/
def slotBytes : Nat := 48 * 65536

/-- The slot that is not active. -/
def State.inactive (s : State) : Nat := if s.reg rSlotActive = 0 then 1 else 0

/-- Whether a slot holds an erase-incomplete sector (R409, R410). -/
def Flash.slotIncomplete (f : Flash) (n : Nat) : Bool := (slotSectors n).any (bit f.incomplete)

/-- Whether a slot's signature verifies (R409). -/
def Slot.sigOk (x : Slot) : Bool := x.factory || Config.fwSigOk x.image

/-- Set the state of a slot in both flashes and in its entry. -/
def State.setSlotState (s : State) (n v : Nat) : State :=
  (s.modFlashes (fun f => f.modSlot n (fun x => { x with state := v }))).setReg (rSlotState n) v

/-- FW_COMMAND 1 (R409, R410): an erase-intent record for each sector of the inactive slot in both flashes. -/
def State.fwErase (s : State) : State :=
  let n := s.inactive
  ((s.modFlashes (fun f => { f with erasing := slotSectors n }.modSlot n
      (fun x => { x with factory := false, state := 0 }))).setReg (rSlotState n) 0).setReg rFwStatus 1

/-- Whether FW_DATA can program at FW_OFFSET: inside the slot, no erase running, sector not erase incomplete (R410). -/
def State.fwDataOk (s : State) : Bool :=
  let o := s.reg rFwOffset
  decide (o + 64 ≤ slotBytes) && !bit s.flash.incomplete (2 + 48 * s.inactive + o / 65536) && s.reg rFwStatus != 1

/-- A write of FW_DATA (R409, R417): 64 bytes at FW_OFFSET in both flashes, and FW_OFFSET advances by 64. -/
def State.fwData (s : State) (v : Nat) : State :=
  let o := s.reg rFwOffset
  let bs := (leBytes 64 v).mapIdx (fun i b => (i, b))
  (s.modFlashes (fun f => f.modSlot s.inactive (fun x =>
    { x with image := bs.foldl (fun m e => sput erasedByte m (o + e.1) e.2) x.image, factory := false }))).setReg
      rFwOffset (o + 64)

/-- FW_COMMAND 2 (R409): the signature and the security version against the fuse counter. -/
def State.fwVerify (s : State) : State :=
  let n := s.inactive
  let x := s.flash.slot n
  if s.flash.slotIncomplete n then (s.setSlotState n 3).setReg rFwStatus 3
  else if x.sigOk then
    (s.setSlotState n 1).setReg rFwStatus (if x.factory ∨ s.reg rFwSvn ≤ Config.fwSvn x.image then 2 else 3)
  else (s.setSlotState n 2).setReg rFwStatus 3

/-- Whether a slot may run: it verified, and its version is not below the fuse counter (R409). -/
def State.slotRuns (s : State) (n : Nat) : Bool :=
  let x := s.flash.slot n
  x.state == 1 && (x.factory || decide (s.reg rFwSvn ≤ Config.fwSvn x.image))

/-- FW_COMMAND 3 (R409): the verified slot is tried at the next cold reset; without one the command fails. -/
def State.fwActivate (s : State) : State :=
  if s.slotRuns s.inactive then
    (s.modFlashes (fun f => { f with trialNext := some s.inactive })).setReg rFwStatus 2
  else s.setReg rFwStatus 3

/-- FW_COMMAND 4 (R409): confirm the running trial, raising the fuse counter to its security version; without a trial the
command fails. -/
def State.fwConfirm (s : State) : State :=
  match s.flash.trialOf with
  | some n =>
    let x := s.flash.slot n
    let s := (s.modFlashes (fun f => { f with trialOf := none, active := n })).setSlotState n 1
    let s := if x.factory then s else s.raiseReg rFwSvn (Config.fwSvn x.image)
    (s.setReg rSlotActive n).setReg rFwStatus 2
  | none => s.setReg rFwStatus 3

/-- A trial that fails (R409): the active slot reverts for the next cold reset, with event 0x0105. -/
def State.trialReverts (s : State) : State :=
  match s.flash.trialOf with
  | some n =>
    let o := if n = 0 then 1 else 0
    let s := s.modFlashes (fun f => { f with trialOf := none, active := o })
    ((s.setSlotState n 1).setReg rSlotActive o).raise 0x0105 (some o)
  | none => s

/-- FLASH_ERASE_DONE (R410): the erase-done record of the sector running on one flash; a slot whose erases have all ended
leaves FW_STATUS done. -/
def execFlashEraseDone (standby : Bool) (s : State) : Res :=
  let g : Flash → Flash := fun f =>
    match f.erasing with
    | [] => f
    | sec :: rest =>
      let clear : Slot → Slot := fun x => { x with image := x.image.filter (fun e => decide (e.1 / 65536 ≠ (sec - 2) % 48)) }
      { (if sec < 50 then { f with slotA := clear f.slotA } else { f with slotB := clear f.slotB }) with
        erasing := rest, incomplete := setBit f.incomplete sec false }
  let t := if standby then s.modOtherFlash g else s.modFlash g
  let t := (t.setReg (key 0x1040 9) (t.flash.incomplete % 2 ^ 64)).setReg (key 0x1040 0xA) (t.flash.incomplete / 2 ^ 64)
  .next (if s.reg rFwStatus = 1 ∧ t.flash.erasing = [] ∧ t.otherFlash.erasing = [] then t.setReg rFwStatus 2 else t)

/-- TRIAL_TIMEOUT (R409). -/
def execTrialTimeout (s : State) : Res := .next s.trialReverts

/-- Queue the write of a flash setting for the journal (R400). -/
def State.persist (s : State) (k : Nat) : State :=
  if isFlash k then
    ({ s with mill := { s.mill with unsaved := s.mill.unsaved ++ [(k, s.reg k)] } }).bump rPersistPending 1
  else s

/-- JOURNAL_COMMIT (R400): the oldest write not yet committed goes into the journals of both flashes. -/
def execJournalCommit (s : State) : Res :=
  match s.mill.unsaved with
  | [] => .next s
  | (k, v) :: rest =>
    let s := s.modFlashes (fun f => { f with journal := sput regDefault f.journal k v })
    let s := { s with mill := { s.mill with unsaved := rest } }
    .next (s.setReg rPersistPending rest.length)

/-- FLASH_SYNC (R411): the other flash is made equal to the active one in sectors 98–123, and in any image slot it holds
invalid. -/
def execFlashSync (s : State) : Res :=
  let a := s.flash
  .next (s.modOtherFlash (fun f =>
    { f with journal := a.journal,
             slotA := if f.slotA.state = 1 ∧ f.slotIncomplete 0 = false then f.slotA else a.slotA,
             slotB := if f.slotB.state = 1 ∧ f.slotIncomplete 1 = false then f.slotB else a.slotB }))

/-- Erases that a reset or a hand-over interrupts leave their sectors erase incomplete at the next boot (R410). -/
def Flash.booted (f : Flash) : Flash :=
  let f := { f with incomplete := f.erasing.foldl (fun m i => setBit m i true) f.incomplete, erasing := [] }
  let mark (n : Nat) (x : Slot) : Slot := if f.slotIncomplete n then { x with state := 3 } else x
  { f with slotA := mark 0 f.slotA, slotB := mark 1 f.slotB }

/-- The slots whose signature failed at a boot; an erase-incomplete one is marked as such (R409, R417). -/
def State.sigFailed (s : State) (f : Flash) (l : List Nat) : State :=
  l.foldl (fun s n => if f.slotIncomplete n then s else s.setSlotState n 2) s

/-- Step 1 of a cold reset (R385, R409): verify the slot to boot, fall back to the other with event 0x0105, and mark a slot
in trial or one whose signature failed; with both slots failed the milliner answers only where R409 says. -/
def State.boot (s : State) : State :=
  let s := s.modFlashes Flash.booted
  let f := s.flash
  let want := f.trialNext.getD f.active
  let good (n : Nat) : Bool := !f.slotIncomplete n && (f.slot n).sigOk
  let other := if want = 0 then 1 else 0
  let tried := if good want then [] else if good other then [want] else [want, other]
  let s := s.sigFailed f tried
  let s := s.modFlashes (fun f => { f with trialNext := none, trialOf := none })
  let s : State :=
    if good want then
      let s := s.modFlashes (fun f => { f with active := want, trialOf := if f.active = want then none else some want })
      let s := { s with mill := { s.mill with noImage := false } }
      (if f.trialNext.isSome then s.setSlotState want 4 else s).setReg rSlotActive want
    else if good other then
      let s := s.modFlashes (fun f => { f with active := other })
      let s := { s with mill := { s.mill with noImage := false } }
      (s.setReg rSlotActive other).raise 0x0105 (some other)
    else { s with mill := { s.mill with noImage := true } }
  let f := s.flash
  let s := if f.slotA.state = s.reg (rSlotState 0) then s else s.setReg (rSlotState 0) f.slotA.state
  let s := if f.slotB.state = s.reg (rSlotState 1) then s else s.setReg (rSlotState 1) f.slotB.state
  (s.setReg (key 0x1040 9) (f.incomplete % 2 ^ 64)).setReg (key 0x1040 0xA) (f.incomplete / 2 ^ 64)

end Sys2Proof.Machine
end

