-- ==== Sys2Proof/Machine/Packets.lean ====
section
/-! DEFINITION. Packet headers on the bands (R187, R188). -/

namespace Sys2Proof.Machine

/-! ### Header units (R187) -/

def pkInline (h : Nat) : Nat := bits h 1023 512
def pkAddress (h : Nat) : Nat := bits h 511 448
def pkByteEn (h : Nat) : Nat := bits h 447 384
def pkCmdSeq (h : Nat) : Nat := bits h 383 352
def pkRunSeq (h : Nat) : Nat := bits h 351 320
def pkTag (h : Nat) : Nat := bits h 319 304
def pkEpoch (h : Nat) : Nat := bits h 303 296
def pkStatus (h : Nat) : Nat := bits h 295 288
def pkCmd (h : Nat) : Nat := bits h 287 280
def pkLen (h : Nat) : Nat := bits h 279 274
def pkInlineLen (h : Nat) : Nat := bits h 273 267
def pkPkg (h : Nat) : Bool := bit h 266
def pkPart (h : Nat) : Nat := bits h 260 256
def pkDstDie (h : Nat) : Nat := bits h 255 250
def pkDstEng (h : Nat) : Nat := bits h 249 246
def pkSrcDie (h : Nat) : Nat := bits h 245 240
def pkSrcEng (h : Nat) : Nat := bits h 239 236
def pkOrig (h : Nat) : Nat := bits h 235 230
def pkQid (h : Nat) : Nat := bits h 229 220

/-- The fields of a header that its source engine sets. -/
structure Head where
  inline : Nat
  address : Nat
  byteEn : Nat
  cmdSeq : Nat
  runSeq : Nat
  tag : Nat
  epoch : Nat
  status : Nat
  cmd : Nat
  len : Nat
  inlineLen : Nat
  pkg : Bool
  part : Nat
  dstDie : Nat
  dstEng : Nat
  srcDie : Nat
  srcEng : Nat
  orig : Nat
  qid : Nat
  deriving DecidableEq, Repr

/-- The header unit of the fields; ROUTE and VIA_ROW are the switch's (R185), reserved fields zero. -/
def Head.unit (x : Head) : Nat :=
  field x.inline 1023 512 + field x.address 511 448 + field x.byteEn 447 384 + field x.cmdSeq 383 352 + field x.runSeq 351 320
    + field x.tag 319 304 + field x.epoch 303 296 + field x.status 295 288 + field x.cmd 287 280 + field x.len 279 274
    + field x.inlineLen 273 267 + field (b2n x.pkg) 266 266 + field x.part 260 256 + field x.dstDie 255 250
    + field x.dstEng 249 246 + field x.srcDie 245 240 + field x.srcEng 239 236 + field x.orig 235 230 + field x.qid 229 220

/-- The header of the response to a request: source and destination exchanged, TAG copied (R187, R188). -/
def responseHead (h status : Nat) : Nat :=
  Head.unit
    { inline := 0, address := pkAddress h, byteEn := 0, cmdSeq := pkCmdSeq h, runSeq := pkRunSeq h, tag := pkTag h,
      epoch := pkEpoch h, status := status, cmd := if pkCmd h = 0x01 then 0x10 else 0x11,
      len := if pkCmd h = 0x01 then pkLen h else 0, inlineLen := 0, pkg := pkPkg h, part := pkPart h,
      dstDie := pkSrcDie h, dstEng := pkSrcEng h, srcDie := pkDstDie h, srcEng := pkDstEng h, orig := pkOrig h, qid := pkQid h }

/-- A header with bits [hi:lo] replaced. -/
def setBits (h hi lo v : Nat) : Nat := h - field (bits h hi lo) hi lo + field v hi lo

/-- A header with another source engine and tag. -/
def fromEngine (h die eng tag : Nat) : Nat := setBits (setBits (setBits h 245 240 die) 239 236 eng) 319 304 tag

end Sys2Proof.Machine
end

