-- ==== Sys2Proof/Machine/Link.lean ====
section
/-! DEFINITION. The pair link's transmitter (R265, R332–R336): choice of a lane group, framing of transfers and the replay
buffer. -/

namespace Sys2Proof.Machine

def rLane (g sub : Nat) : Nat := key (0x2510 + g) sub
def rLink (sub : Nat) : Nat := key 0x2500 sub

def State.lg (s : State) (g : Nat) : LaneGroup := sget (fun _ => LaneGroup.blank) s.lanes g
def State.modLg (s : State) (g : Nat) (f : LaneGroup → LaneGroup) : State :=
  { s with lanes := smod (fun _ => LaneGroup.blank) s.lanes g f }

/-- A group carries the pair link and is UP (R326, R331). -/
def State.groupUp (s : State) (g : Nat) : Bool := s.reg (rLane g 1) == 1 && s.reg (rLane g 3) == 2

/-- A frame header (R332). -/
def frameHead (seq part iv units ack : Nat) (ackValid nak resync control : Bool) : List Byte :=
  let h := field iv 127 64 + field units 53 48 + field part 44 40 + field (b2n resync) 37 37 + field (b2n nak) 36 36
    + field (b2n control) 35 34 + field (b2n ackValid) 33 33 + field ack 31 16 + field seq 15 0
  let bs := leBytes 28 h
  bs ++ leBytes 4 (crc32c bs)

/-- ACK_SEQ and ACK_VALID of the frames that a group sends now (R332, R333). -/
def LaneGroup.ack (x : LaneGroup) : Nat × Bool := ((x.rxSeq + 65535) % 65536, decide (0 < x.rxSeq))

/-- Send a transfer frame (R265, R332): header unit, data units encrypted, tag, CRC-32C and 12 zero bytes. -/
def State.sendFrame (s : State) (g : Nat) (f : Frame) : State :=
  let a := (s.lg g).ack
  let n := cdiv f.data.length 128
  let head := frameHead (f.seq % 65536) f.part f.iv (n + 1) a.1 a.2 false false false
  let data := slice f.data 0 (128 * n)
  let sealed_ := slice (Config.gcmSeal f.part f.iv data) 0 (128 * n)
  let tag := slice (Config.gcmTag f.part f.iv f.header sealed_) 0 16
  let body := leBytes 128 f.header ++ sealed_ ++ tag
  let s := s.emit (.frame g head (body ++ leBytes 4 (crc32c (head ++ body)) ++ leBytes 12 0))
  s.modLg g (fun x => { x with owed := none })

/-- Send a control frame (R332, R333). -/
def State.sendControl (s : State) (g : Nat) (nak resync : Bool) : State :=
  let a := (s.lg g).ack
  (s.emit (.frame g (frameHead 0 0 0 0 a.1 a.2 nak resync true) [])).modLg g (fun x => { x with owed := none })

/-- The two packages hold the same PAIR_MODE (R243; log 117). -/
def State.modesAgree (s : State) : Bool := Config.partnerMode s.now == s.reg (key 0x2300 3)

/-- The transfer that a group sends next: the oldest that waits; partition traffic only while the two values of PAIR_MODE agree
(R243). -/
def State.pairNext (s : State) (g : Nat) : Option (Nat × Nat × List Byte) :=
  s.pairTx.find? (fun e => e.1 == g && (pkPart e.2.1 == 0 || s.modesAgree))

/-- Frame the transfers that wait for a group while it is UP and its replay buffer of 512 frames has room (R332, R334). -/
def State.pump (g : Nat) : Nat → State → State
  | 0, s => s
  | n + 1, s =>
    match s.pairNext g with
    | none => s
    | some e =>
      let x := s.lg g
      if !s.groupUp g || decide (512 ≤ x.unacked.length) then s
      else
        let p := pkPart e.2.1
        let f : Frame := ⟨x.txSeq, p, (s.psec p).transfers + 1, e.2.1, e.2.2⟩
        let s := { s with pairTx := s.pairTx.erase e }
        let s := s.modSec p (fun y => { y with transfers := y.transfers + 1 })
        let at_ := if x.unacked = [] then s.now else x.advanced
        let s := s.modLg g (fun y => { y with txSeq := y.txSeq + 1, unacked := y.unacked ++ [f], advanced := at_ })
        State.pump g n ((s.bump (rLane g 0x13) 1).sendFrame g f)

/-- Hand a packet to the pair-link engine of a group. -/
def State.pairSend (s : State) (g header : Nat) (data : List Byte) : State :=
  let s := { s with pairTx := s.pairTx ++ [(g, header, data)] }
  State.pump g s.pairTx.length s

end Sys2Proof.Machine
end

