-- ==== Sys2Proof/Machine/Bands.lean ====
section
/-! DEFINITION. The bands (R177–R202): packet headers, routes, the counters of the switches, what a destination does with a
request, starvation, reservations, and a die that leaves service. -/

namespace Sys2Proof.Machine

def rSwitch (n sub : Nat) : Nat := key (0x6600 + n) sub
def rBand (p sub : Nat) : Nat := key (0x5600 + p) sub
def rArb (p sub : Nat) : Nat := key (0x5400 + p) sub

/-! ### Positions, arcs and routes (R178, R185, R200) -/

def State.switch (s : State) (n : Nat) : SwitchState := sget (fun _ => SwitchState.blank) s.switches n
def State.modSwitch (s : State) (n : Nat) (g : SwitchState → SwitchState) : State :=
  { s with switches := smod (fun _ => SwitchState.blank) s.switches n g }

/-- The live map (R200). -/
def State.live (s : State) (n : Nat) : Bool := !(s.switch n).dead

/-- Row and column of a die; a port die on the top edge counts as row −1, one on the bottom edge as row 6 (R4, R185). -/
def dieRow (n : Nat) : Int := if n < 48 then (n / 8 : Nat) else if n < 56 then -1 else 6
def dieCol (n : Nat) : Nat := n % 8

/-- The die at a position of row band r, or of column band c (R178). -/
def rowBandDie (r q : Nat) : Nat := 8 * r + [0, 2, 4, 6, 7, 5, 3, 1].getD q 0
def colBandDie (c q : Nat) : Nat := [48 + c, c, 16 + c, 32 + c, 56 + c, 40 + c, 24 + c, 8 + c].getD q 0

/-- A band by its ring of dies: row bands 0–5, column bands 8–15 (R190 BAND). -/
def bandDie (band q : Nat) : Nat := if band < 8 then rowBandDie band q else colBandDie (band - 8) q
def bandPos (band n : Nat) : Nat := ((List.range 8).find? (fun q => bandDie band q == n)).getD 0

/-- The dies from position `a` to position `b`, both included, ascending or descending. -/
def arc (band a b : Nat) (down : Bool) : List Nat :=
  let hops := if down then (a + 8 - b) % 8 else (b + 8 - a) % 8
  (List.range (hops + 1)).map (fun i => bandDie band (if down then (a + 8 * 8 - i) % 8 else (a + i) % 8))

/-- The arc a packet takes within a band (R185, R200): the direction with fewer hops, on a tie the one without the seam link;
the other direction when a die of that arc is dead; none when both are cut. -/
def State.arcOf (s : State) (band src dst : Nat) : Option (Bool × List Nat) :=
  let a := bandPos band src
  let b := bandPos band dst
  let up := (b + 8 - a) % 8
  let down := decide (4 < up) || (up == 4 && decide (b < a))
  let ok (d : Bool) : Bool := (arc band a b d).all s.live
  if ok down then some (down, arc band a b down) else if ok (!down) then some (!down, arc band a b (!down)) else none

/-- A route: ROUTE, VIA_ROW, and the arcs it takes, each with its band and direction. -/
structure Route where
  code : Nat
  via : Nat
  legs : List (Nat × Bool × List Nat)
  deriving DecidableEq, Repr

/-- The band of a die's row or column switch; a port die has a column switch only. -/
def bandAt (n : Nat) (row : Bool) : Nat := if row then n / 8 else 8 + dieCol n

/-- The link that leaves a die on a band in a direction (R181). -/
def linkNo (band n : Nat) (down : Bool) : Nat := if down then 7 - bandPos band n else bandPos band n

/-- An arc cut behind the seam link when it crosses that and goes on (R182, R192). -/
def cutSeam (a : Nat × Bool × List Nat) : List (Nat × Bool × List Nat) :=
  let l := a.2.2
  match (List.range l.length).find? (fun i => decide (0 < i) && decide (i + 1 < l.length)
      && bandPos a.1 (l.getD i 0) == (if a.2.1 then 7 else 0)) with
  | some i => [(a.1, a.2.1, l.take (i + 1)), (a.1, a.2.1, l.drop i)]
  | none => [a]

/-! ### The die-local band (R177, R179) -/

/-- The stop of an engine of a crown die on its local band; engine 10 shares the stop of the die store (log 109). -/
def localStop (eng : Nat) : Nat :=
  match eng with
  | 8 | 10 => 5
  | 9 => 6
  | 11 => 7
  | n => if n < 4 then 1 + n else 4 + n

/-- The direction and the stop-to-stop hops between two of the 13 stops: the fewer hops, on a tie ascending. -/
def localArc (a b : Nat) : Bool × Nat :=
  let up := (b + 13 - a) % 13
  let down := (a + 13 - b) % 13
  if down < up then (true, down) else (false, up)

/-- Join the arcs of consecutive bands through the given dies. -/
def State.legs (s : State) : List (Nat × Nat × Nat) → Option (List (Nat × Bool × List Nat))
  | [] => some []
  | (band, a, b) :: rest =>
    match s.arcOf band a b, State.legs s rest with
    | some x, some l => some ((band, x.1, x.2) :: l)
    | _, _ => none

/-- The detour row r′: nearest to the source's row, ties to the lower, whose dies in both columns are live (R185). -/
def State.detourRow (s : State) (src dst : Nat) : Option Nat :=
  argmin (fun (r : Nat) => (dieRow src - (r : Int)).natAbs) ((List.range 6).filter (fun r =>
    s.live (8 * r + dieCol src) && s.live (8 * r + dieCol dst)))

/-- The route of R185, the first that is live; none when the destination is unreachable. -/
def State.routeOf (s : State) (src dst : Nat) : Option Route :=
  let cs := dieCol src
  let cd := dieCol dst
  let detour : Option Route :=
    match s.detourRow src dst with
    | none => none
    | some r =>
      (s.legs [(8 + cs, src, 8 * r + cs), (r, 8 * r + cs, 8 * r + cd), (8 + cd, 8 * r + cd, dst)]).map (fun l =>
        (⟨3, r, l⟩ : Route))
  if src = dst then some ⟨0, 7, []⟩
  else if cs = cd then
    match s.legs [(8 + cs, src, dst)] with
    | some l => some ⟨0, 7, l⟩
    | none => detour
  else if src < 48 ∧ dst < 48 ∧ src / 8 = dst / 8 then
    match s.legs [(src / 8, src, dst)] with
    | some l => some ⟨0, 7, l⟩
    | none => detour
  else
    let r1 : Option Route :=
      if src < 48 then
        (s.legs [(src / 8, src, src / 8 * 8 + cd), (8 + cd, src / 8 * 8 + cd, dst)]).map (fun l => (⟨1, 7, l⟩ : Route))
      else none
    let r2 : Option Route :=
      if dst < 48 then
        (s.legs [(8 + cs, src, dst / 8 * 8 + cs), (dst / 8, dst / 8 * 8 + cs, dst)]).map (fun l => (⟨2, 7, l⟩ : Route))
      else none
    r1.orElse (fun _ => r2.orElse (fun _ => detour))

/-- A header with the ROUTE and VIA_ROW its switch records (R185). -/
def routed (h : Nat) (r : Route) : Nat :=
  h - field (bits h 265 261) 265 261 + field r.code 265 264 + field (if r.code = 3 then r.via else 7) 263 261

/-- The cross-die hops of a route (R192). -/
def Route.hops (r : Route) : Nat := sumL (r.legs.map (fun l => l.2.2.length - 1))
/-- Hops between two dies, for comparing distances. -/
def State.hops (s : State) (src dst : Nat) : Nat := (s.routeOf src dst).elim 64 Route.hops

/-- Add the counts of a list of (die, cycles or units) to a switch counter. -/
def State.bumpSwitches (s : State) (sub : Nat) (l : List (DieN × W32)) : State :=
  l.foldl (fun s e => s.bump (rSwitch e.1.val sub) e.2.toNat) s

/-! ### Guaranteed traffic (R190, R191) -/

/-- Whether a partition holds a reservation on a band in a direction. -/
def State.holdsResv (s : State) (p band : Nat) (down : Bool) : Bool :=
  s.resv.any (fun r => r.p == p && r.band == band && r.down == down && r.slots != [])

/-- Whether a transaction of a latency class is guaranteed on a leg (R191). -/
def State.guaranteed (s : State) (p lat : Nat) (migration : Bool) (leg : Nat × Bool × List Nat) : Bool :=
  !migration && p != 0 && bit (s.reg (rBand p 0x21)) (lat - 1) && s.holdsResv p leg.1 leg.2.1

/-- The partition that owns the slot in which a unit would leave onto a link now (R181). -/
def State.slotOwner (s : State) (band ply link : Nat) (down : Bool) : Option Nat :=
  (s.resv.find? (fun r => r.band == band && r.ply == ply && r.down == down
    && r.slots.contains ((s.clock.frame + 256 - 12 * link) % 256))).map Resv.p

/-- Slots that a partition has reserved on a ply and direction (R186, R190). -/
def State.slotsOf (s : State) (p band ply : Nat) (down : Bool) : Nat :=
  sumL ((s.resv.filter (fun r => r.p == p && r.band == band && r.ply == ply && r.down == down)).map (fun r => r.slots.length))

/-- The largest cyclic gap between consecutive slots of a set (R190). -/
def resvGap (slots : List Nat) : Nat :=
  match slots with
  | [] => 0
  | [_] => 256
  | a :: rest => maxL ((slots.zip (rest ++ [a + 256])).map (fun e => e.2 - e.1))

/-- The slots of a ply and direction reserved by others than one entry. -/
def State.otherSlots (s : State) (p entry band ply : Nat) (down : Bool) : List Nat :=
  (s.resvNext.filter (fun r => r.band == band && r.ply == ply && r.down == down && !(r.p == p && r.entry == entry))).flatMap
    Resv.slots

/-- The free slot nearest at or after a wish, cyclically. -/
def nearestFree (taken : List Nat) (want : Nat) : Nat :=
  ((List.range 256).map (fun i => (want + i) % 256)).find? (fun x => !taken.contains x) |>.getD want

/-- Place N slots (R190): ⌊256 i ÷ N⌋ when alone; among other reservations each wish moves to the next free slot, and the
placement stands only when G ≤ 2 × ⌈256 ÷ N⌉. -/
def placeSlots (taken : List Nat) (n : Nat) : Option (List Nat) :=
  let l := (List.range n).foldl (fun acc i => nput (nearestFree (taken ++ acc) (256 * i / n)) acc) []
  if l.length = n ∧ resvGap l ≤ 2 * cdiv 256 n then some l else none

/-- The fields of a reservation entry. -/
def resvBand (v : Nat) : Nat := bits v 27 24
def resvPly (v : Nat) : Nat := bits v 23 20
def resvDown (v : Nat) : Bool := bit v 19
def resvSlots (v : Nat) : Nat := bits v 8 0

/-- Whether BAND and PLY are in range (R190). -/
def resvInRange (v : Nat) : Bool :=
  let b := resvBand v
  (decide (b < 6) && decide (resvPly v < 8)) || (decide (8 ≤ b) && decide (resvPly v < 12))

/-- The slots a written reservation is given; none where the write is REFUSED (R190). -/
def State.resvTry (s : State) (p entry v : Nat) : Option (List Nat) :=
  let taken := s.otherSlots p entry (resvBand v) (resvPly v) (resvDown v)
  if resvSlots v = 0 then (if resvInRange v then some [] else none)
  else if !resvInRange v || decide (224 < resvSlots v) || decide (224 < taken.length + resvSlots v) then none
  else placeSlots taken (resvSlots v)

/-- A reservation written (R190): RES_GAP reports G, and the slots take effect at the next frame boundary. -/
def State.resvWrite (s : State) (p entry v : Nat) : State :=
  match s.resvTry p entry v with
  | none => s
  | some l =>
    let keep := s.resvNext.filter (fun r => !(r.p == p && r.entry == entry))
    let s := { s with resvNext := if l = [] then keep else keep ++ [(⟨p, entry, resvBand v, resvPly v, resvDown v, l⟩ : Resv)] }
    (s.setReg (rBand p (1 + entry)) v).setReg (rBand p (0x11 + entry)) (resvGap l)

/-- RESERVATION_EFFECT (R190): at the frame boundary the written reservations are in force. -/
def execReservationEffect (s : State) : Res := .next { s with resv := s.resvNext }

/-! ### What a destination does with a request (R188, R193–R195, R268) -/

/-- The channel of the word at a partition address, as stack and channel; none outside the partition's ranks. -/
def State.channelOf (s : State) (p addr : Nat) : Option (Nat × Nat) :=
  match s.place p addr with
  | some (m, r, off) => some (m, s.servedBy m r off % 32)
  | none => none

/-- The words of a read of `len` units: the aligned units that hold ADDRESS (log 6). -/
def readWords (addr len : Nat) : List WordAcc :=
  (List.range (2 * len)).map (fun i => ⟨addr / 128 * 128 + 64 * i, 0, 64, [], i / 2⟩)

/-- The words of a write of bytes from ADDRESS on: whole words and partial ends (R211). -/
def writeWords (addr : Nat) (bs : List Byte) : List WordAcc :=
  let n := if bs = [] then 0 else (addr + bs.length - 1) / 64 - addr / 64 + 1
  (List.range n).map (fun i =>
    let w := (addr / 64 + i) * 64
    let lo := max addr w
    let hi := min (addr + bs.length) (w + 64)
    ⟨w, lo - w, hi - lo, (bs.drop (lo - addr)).take (hi - lo), (w - addr / 128 * 128) / 128⟩)

/-- The runs of enabled bytes of a WRITE_INLINE, each as a write (R188). -/
def inlineWords (addr en : Nat) (bs : List Byte) : List WordAcc :=
  (List.range bs.length).flatMap (fun i => if bit en i then writeWords (addr + i) ((bs.drop i).take 1) else [])

/-- A response begun: its identifier is the next one. -/
def State.addResp (s : State) (r : Resp) : State :=
  { s with resps := s.resps ++ [{ r with id := s.nextResp }], nextResp := s.nextResp + 1 }

/-- A response that is complete as soon as it is made. -/
def State.answerNow (s : State) (h status : Nat) (data : List Byte) (bad : List Nat) : State :=
  s.addResp ⟨0, h, 0, data, bad, status, false, false, []⟩

/-- Every unit of a read, for a response that delivers nothing good. -/
def allUnits (h : Nat) : List Nat := List.range (pkLen h)

/-- The discarded request of R268: a write settles TENANT_GONE, a read answers poisoned units with TENANT_GONE. -/
def State.staleRequest (s : State) (h : Nat) : State :=
  (s.bump (key (0x5200 + pkPart h) 6) 1).answerNow h 0x30 [] (if pkCmd h = 0x01 then allUnits h else [])

/-- Whether a packet's EPOCH matches its partition's; milliner traffic has none (R268). -/
def State.epochOk (s : State) (h : Nat) : Bool :=
  pkPart h == 0 || pkEpoch h == s.reg (rEpoch (pkPart h)) % 256

/-- The lane group a packet goes through to the partner (R335): the UP group of PAIR_GROUPS whose port die is fewest hops from
the source, ties to the lower number; the lowest-numbered UP group for milliner traffic; a packet addressed to a pair-link
engine goes through that engine's group. -/
def State.pairGroup (s : State) (h : Nat) : Option Nat :=
  let p := pkPart h
  let up := (List.range 16).filter s.groupUp
  if !pkPkg h then up.find? (fun g => 48 + g == pkDstDie h)
  else if p = 0 then up.head?
  else argmin (fun g => s.hops (pkSrcDie h) (48 + g)) (up.filter (fun g => bit (s.reg (key (0x5900 + p) 1)) g))

/-- The die at which a packet arrives on the bands: its destination, or the port die of its lane group. -/
def State.arrivalDie (s : State) (h : Nat) : Nat :=
  if pkPkg h then (s.pairGroup h).elim (pkSrcDie h) (48 + ·) else pkDstDie h

/-- Whether a packet is for the pair partner, or for a pair-link engine, which hands it on. -/
def forPair (h : Nat) : Bool := pkPkg h || (decide (48 ≤ pkDstDie h) && decide (3 ≤ pkDstEng h))

/-- The engine that takes a request in at the die where it arrives, and the requester's number (R194). -/
def arrivalEng (h : Nat) : Nat := if forPair h then 3 else pkDstEng h
def requester (h : Nat) : Nat := pkSrcDie h * 16 + pkSrcEng h

/-- The destination lists the requester and counts the pass (R194). -/
def State.bounce (s : State) (h : Nat) : State :=
  let n := s.arrivalDie h
  let s := s.bump (rSwitch n 6) 1
  s.modSwitch n (fun x =>
    if x.listed.contains (arrivalEng h, requester h) || decide (16 ≤ x.listed.countP (fun e => e.1 == arrivalEng h)) then x
    else { x with listed := x.listed ++ [(arrivalEng h, requester h)] })

/-- The destination keeps its next free entry for the oldest requester it has listed (R194). -/
def State.admits (s : State) (h : Nat) (room : Bool) : Bool :=
  room && ((s.switch (s.arrivalDie h)).listed.find? (fun e => e.1 == arrivalEng h)).all (fun e => e.2 == requester h)

/-- An accepted requester leaves the list. -/
def State.accepted (s : State) (h : Nat) : State :=
  s.modSwitch (s.arrivalDie h) (fun x => { x with listed := x.listed.filter (· != (arrivalEng h, requester h)) })

/-- The transaction of a request at its source. -/
def Xact.sends (x : Xact) (h : Nat) : Bool := x.die == pkSrcDie h && x.eng == pkSrcEng h && x.tag == pkTag h

/-- A packet is discarded on the bands (R188, R196, R200): a request does not arrive, and its transaction ends by its timeout; a
response does not return. -/
def State.losePacket (s : State) (h : Nat) : State :=
  if pkCmd h / 16 = 1 then
    { s with resps := s.resps.filter (fun r =>
        !(pkSrcDie r.header == pkDstDie h && pkSrcEng r.header == pkDstEng h && pkTag r.header == pkTag h)) }
  else { s with xacts := updWhere (fun x => x.sends h) (fun x => { x with lost := true }) s.xacts }

/-- The request of a header has been discarded on its way. -/
def State.isLost (s : State) (h : Nat) : Bool := s.xacts.any (fun x => x.sends h && x.lost)

/-- The stack that a controller engine serves (R179, R204). -/
def controllerStack (die eng : Nat) : Nat := 2 * (die - 48) + eng

/-- A request that the pair-link engine of a port die has passed on from the partner: its transfer is one on the pair link
(R147, R335). -/
def onPairLink (h : Nat) : Bool := decide (48 ≤ pkSrcDie h) && pkSrcEng h == 3

/-- Hand the words of an accepted access to the channels of its stack: one waiting entry for each channel (R144, R207). -/
def State.toChannels (s : State) (h : Nat) (write : Bool) (data : List Byte) (ws : List WordAcc) : State :=
  let p := pkPart h
  let m := controllerStack (pkDstDie h) (pkDstEng h)
  let id := s.nextResp
  let s := s.addResp ⟨0, h, ws.length, List.replicate (if write then 0 else 128 * pkLen h) 0, [], 0, false, false, []⟩
  let chs := (List.range 32).filter (fun ch => ws.any (fun w => s.channelOf p w.addr == some (m, ch)))
  let out := ws.filter (fun w => (s.channelOf p w.addr).isNone || (s.channelOf p w.addr).any (fun x => x.1 != m))
  let s := { s with waiting := s.waiting ++ chs.map (fun ch =>
    ⟨.channel (Fin.ofNat 32 m) (Fin.ofNat 32 ch), p, h, data, id, none, if onPairLink h then 2 else if write then 1 else 0, 2,
     pkQid h, s.now, false, s.clock.cycles, none, false⟩) }
  -- words outside the stack's ranks are answered as failed at once
  out.foldl (fun s w => s.modResp id (fun r => r.served write w [] true)) s

/-- The resident copy on a die that a read is for (R160, R164): the one that its command is bound to, or that its migration copies;
for a read of no transaction here, one that holds its address. -/
def State.copyRead (s : State) (h : Nat) : Option Copy :=
  let q := s.prn (pkPart h)
  let a := pkAddress h / 128 * 128
  let here := q.copies.filter (fun c => c.die == pkDstDie h && decide (a < c.addr + c.len) && decide (c.addr < a + 128 * pkLen h))
  match s.xacts.find? (fun x => x.sends h) with
  | none => here.head?
  | some x =>
    match x.stream with
    | some i => here.find? (fun c => c.bound.contains (i.run, i.cmd))
    | none => (q.migs.find? (fun g => x.migration && g.dst == x.die)).bind (fun g =>
      here.find? (fun c => c.addr == g.addr && c.len == g.len && c.kind == g.kind && !c.moved))

/-- The units of a resident copy that answer a read at a die store: its bytes by their addresses in the region (R160). -/
def State.copyBytes (s : State) (h : Nat) : Option (List Byte) :=
  (s.copyRead h).map (fun c => (List.range (128 * pkLen h)).map (fun i =>
    let a := pkAddress h / 128 * 128 + i
    if a < c.addr then 0 else c.bytes.getD (a - c.addr) 0))

/-- A tag that is in use by no outstanding transaction of the engine and is not retired (R187, R196). -/
def State.freeTag (s : State) (die eng : Nat) : Nat :=
  let used (t : Nat) : Bool := s.xacts.any (fun x => x.die == die && x.eng == eng && x.tag == t)
    || s.retired.any (fun x => x.die == die && x.eng == eng && x.tag == t && decide (s.now < x.till))
  ((List.range (s.xacts.length + s.retired.length + 1)).find? (fun t => !used t)).getD 0

/-- Hand a request for the pair partner to the pair-link engine, which notes the group that carries it; with no group UP it
ends at once with LANE_DOWN (R187, R335, R336). -/
def State.toPair (s : State) (h : Nat) (data : List Byte) : State :=
  match s.pairGroup h with
  | none => s.answerNow h 0x60 [] (if pkCmd h = 0x01 then allUnits h else [])
  | some g =>
    let mine (x : Xact) : Bool := x.sends h
    let x : Xact := ⟨pkSrcDie h, pkSrcEng h, pkTag h, h, s.now, none, 0, 0, pkEpoch h, some (g, false), false, [], false⟩
    let l := if s.xacts.any mine then updWhere mine (fun y => { y with link := some (g, false) }) s.xacts else s.xacts ++ [x]
    ({ s with xacts := l }).pairSend g h data

/-- READ (R188): the destination accepts when it has room, and makes the READ_DATA response. -/
def execRead (header : Desc) (room : Bool) (s : State) : Res :=
  let h := header.toNat
  let p := pkPart h
  .next (
    if s.isLost h then s
    else if !s.epochOk h then s.staleRequest h
    else if !s.admits h room then s.bounce h
    else
      let s := s.accepted h
      if forPair h then s.toPair h []
      else if pkDstDie h < 48 then
        match s.copyBytes h with
        | some bs => s.answerNow h 0 bs []
        | none => s.answerNow h 0 (List.replicate (128 * pkLen h) 0) (allUnits h)
      else if pkDstEng h < 2 then s.toChannels h false [] (readWords (pkAddress h) (pkLen h))
      else
        let id := s.nextResp
        let s := s.addResp ⟨0, h, 1, List.replicate (128 * pkLen h) 0, [], 0, false, false, []⟩
        { s with waiting := s.waiting ++ [⟨.host (s.fnOf p), p, h, [], id, none, if onPairLink h then 2 else 0, 2, pkQid h,
          s.now, false, s.clock.cycles, none, false⟩] })

/-- What a write does at an accepting destination. -/
def State.acceptWrite (s : State) (h : Nat) (data : List Byte) (ws : List WordAcc) : State :=
  let p := pkPart h
  if forPair h then s.toPair h data
  else if pkDstDie h < 48 then s.answerNow h 0 [] []
  else if pkDstEng h < 2 then s.toChannels h true data ws
  else
    let id := s.nextResp
    let s := s.addResp ⟨0, h, 2, [], [], 0, false, false, []⟩
    { s with waiting := s.waiting ++ [⟨.host (s.fnOf p), p, h, data, id, none, if onPairLink h then 2 else 1, 2, pkQid h, s.now,
      false, s.clock.cycles, none, false⟩] }

/-- WRITE_INLINE (R188, R211): the enabled bytes of INLINE. -/
def execWriteInline (header : Desc) (room : Bool) (s : State) : Res :=
  let h := header.toNat
  let bs := (leBytes 64 (pkInline h)).take (pkInlineLen h)
  .next (
    if s.isLost h then s
    else if !s.epochOk h then s.staleRequest h
    else if !s.admits h room then s.bounce h
    else (s.accepted h).acceptWrite h bs (inlineWords (pkAddress h) (pkByteEn h) bs))

/-- A command's fire-forward writes, found by its sequence numbers (R197). -/
def FfTrack.matches (x : FfTrack) (h : Nat) : Bool := x.runSeq == pkRunSeq h && x.cmdSeq == pkCmdSeq h

/-- Count a fire-forward write that the pair-link engine has accepted. -/
def State.ffOpen (s : State) (h : Nat) : State :=
  let p := pkPart h
  let desc := ((s.prn p).runs.find? (fun r => r.seq == pkRunSeq h)).elim 0xFFFF (fun r =>
    ((s.program p r.handle).elim 0xFFFF (fun g => (g.descs.findIdx? (fun d => dSeq d == pkCmdSeq h)).getD 0xFFFF)))
  let again (t : FfTrack) : FfTrack := { t with opened := t.opened + 1, used := setBit t.used (pkOrig h) true }
  s.modPr p (fun x =>
    if x.ff.any (fun t => t.matches h) then { x with ff := updWhere (fun t => t.matches h) again x.ff }
    else { x with ff := x.ff ++ [⟨pkRunSeq h, pkCmdSeq h, desc, 1, setBit 0 (pkOrig h) true, 0, 0, 0, 0x3FF, false, 0⟩] })

/-- A write to the pair partner travels as WRITE_FF when its partition's FIRE_FORWARD is 1 and its command is not replay-guarded
(R197). -/
def State.ffOn (s : State) (h : Nat) : Bool :=
  let p := pkPart h
  let guarded := (s.prn p).runs.any (fun r => r.seq == pkRunSeq h && (s.program p r.handle).any (fun g =>
    g.descs.any (fun d => dSeq d == pkCmdSeq h && dReplay d)))
  pkPkg h && p != 0 && s.reg (rBand p 0x22) == 1 && !guarded

/-- A fire-forward write at the pair-link engine (R197): settled locally once it has accepted the transfer; the engine keeps its
own transaction towards the partner. -/
def State.acceptFf (s : State) (h : Nat) (data : List Byte) : State :=
  match s.pairGroup h with
  | none => s.answerNow h 0x60 [] []
  | some g =>
    let s := (s.answerNow h 0 [] []).ffOpen h
    let h' := fromEngine (setBits h 287 280 0x04) (48 + g) 3 (s.freeTag (48 + g) 3)
    let x : Xact := ⟨48 + g, 3, pkTag h', h', s.now, none, 0, 0, pkEpoch h, some (g, false), false, [], false⟩
    ({ s with xacts := s.xacts ++ [x] }).pairSend g h' data

/-- A transfer with data units at its destination (R188, R194–R197, R268): one received with a bad unit is discarded whole and
settled WRITE_ERROR; a write to the partner is fire-forward where R197 makes it so. -/
def State.receive (s : State) (h : Nat) (room bad : Bool) (act : State → State) : State :=
  if s.isLost h then s
  else if !s.epochOk h then s.staleRequest h
  else if !s.admits h room then s.bounce h
  else
    let s := s.accepted h
    if bad then (s.bump (rSwitch (s.arrivalDie h) 0xA) 1).answerNow h 0x21 [] [] else act s

/-- WRITE (R188, R195–R197). -/
def execWrite (header : Desc) (data : List Byte) (room bad : Bool) (s : State) : Res :=
  let h := header.toNat
  .next (s.receive h room bad (fun s =>
    if s.ffOn h then s.acceptFf h data else s.acceptWrite h data (writeWords (pkAddress h) data)))

/-- WRITE_FF (R188, R197): a partition whose FIRE_FORWARD is 0, and a replay-guarded command, have plain writes only. -/
def execWriteFf (header : Desc) (data : List Byte) (room bad : Bool) (s : State) : Res :=
  let h := header.toNat
  .next (s.receive h room bad (fun s =>
    if s.ffOn h then s.acceptFf h data
    else s.acceptWrite (setBits h 287 280 0x02) data (writeWords (pkAddress h) data)))

/-- MESSAGE (R188): micro-operations, collective contributions and milliner traffic are accepted and settled; one for the
partner goes to the pair-link engine. -/
def execMessage (header : Desc) (data : List Byte) (room bad : Bool) (s : State) : Res :=
  let h := header.toNat
  .next (s.receive h room bad (fun s => if pkPkg h then s.toPair h data else s.answerNow h 0 [] []))

/-- The dies that a copy sent ascending round a ring from a die passes, to the end of its circuit (R189, R200): a dead die ends
it, unless the switches next to it have closed their turnaround, which sends the copy back over the rest of the line. -/
def State.circuit (s : State) (band src : Nat) : List Nat :=
  let q := bandPos band src
  let up := ((List.range 8).map (fun i => bandDie band ((q + i) % 8))).takeWhile s.live
  let down := ((List.range 8).map (fun i => bandDie band ((q + 8 - i) % 8))).takeWhile s.live
  let closed := bit (s.switch (up.getLast?.getD src)).turned (if band < 8 then 0 else 1)
  if up.length = 8 then up else if closed then (up ++ down).eraseDups else up

/-- One copy of a multicast at a die (R194, R268): a destination without room passes it on round the ring and lists the
requester. -/
def State.deliverCopy (s : State) (h c : Nat) (room : Bool) : State :=
  let h := setBits h 255 250 c
  if !s.admits h room then s.bounce h else (s.accepted h).answerNow h 0 [] []

/-- MCAST (R189): once round the source's row band, and once round each column band that holds a masked die in another row;
a copy is delivered, and settled, at each masked die that the circuits reach.  `full` are the dies without room. -/
def execMcast (header : Desc) (data : List Byte) (full : List DieC) (s : State) : Res :=
  let h := header.toNat
  let mask := pkAddress h % 2 ^ 48
  let src := pkSrcDie h
  let r := src / 8
  let u := 1 + cdiv data.length 128
  let count (s : State) (sub : Nat) (l : List Nat) : State := l.foldl (fun s n => s.bump (rSwitch n sub) u) s
  .next (
    if s.isLost h then s
    else if !s.epochOk h then s.staleRequest h
    else if 48 ≤ src then
      -- a port die lies on no row band: its copies go round its own column band
      let col := s.circuit (8 + dieCol src) src
      (col.filter (fun c => decide (c < 48) && bit mask c)).foldl (fun s c =>
        s.deliverCopy h c (!full.any (fun e => e.val == c))) (count s 2 col)
    else
      let row := s.circuit r src
      let cols := (List.range 8).filter (fun c => row.contains (8 * r + c)
        && (List.range 6).any (fun q => q != r && bit mask (8 * q + c)))
      let s := count s 1 row
      let s := cols.foldl (fun s c => count (s.bump (rSwitch (8 * r + c) 3) u) 2 (s.circuit (8 + c) (8 * r + c))) s
      let reached := row ++ cols.flatMap (fun c => s.circuit (8 + c) (8 * r + c))
      (idxs 48 (fun c => bit mask c && reached.contains c)).foldl (fun s c =>
        s.deliverCopy h c (!full.any (fun e => e.val == c))) s)

/-- HEADER_DISCARD (R188, R196): a header with a reserved CMD, or one with an uncorrectable error, is discarded with its
units. -/
def execHeaderDiscard (switch : DieN) (header : Desc) (ecc : Bool) (s : State) : Res :=
  let h := header.toNat
  let named : List Nat := [0x01, 0x02, 0x03, 0x04, 0x05, 0x06, 0x10, 0x11]
  .next (
    if ecc then ((s.losePacket h).bump (rSwitch switch.val 0xA) 1).bump (rSwitch switch.val 0xB) 1
    else if !named.contains (pkCmd h) then (s.losePacket h).bump (rSwitch switch.val 0xB) 1
    else s)

/-! ### Starvation (R184) -/

/-- The number of a hold: band kind, ply and direction. -/
def holdKey (row : Bool) (ply : Nat) (down : Bool) : Nat := (b2n row * 12 + ply) * 2 + b2n down

/-- STARVE_RECEIVED (R184): no best-effort injection on the starving ply and direction for 128 band cycles. -/
def execStarveReceived (switch : DieN) (row : Bool) (ply : Fin 12) (down : Bool) (s : State) : Res :=
  let k := holdKey row ply.val down
  let till := s.clock.cycles + 128
  .next (s.modSwitch switch.val (fun x => { x with holds := (x.holds.filter (fun e => e.1 != k)) ++ [(k, till)] }))

/-- Whether a switch holds back best-effort injection. -/
def State.held (s : State) (n k : Nat) : Bool :=
  (s.switch n).holds.any (fun e => e.1 == k && decide (s.clock.cycles < e.2))

/-! ### A die that leaves service (R200, R247) -/

/-- The bands of a die, as BAND codes. -/
def bandsOf (n : Nat) : List Nat := if n < 48 then [n / 8, 8 + n % 8] else [8 + n % 8]

/-- The neighbours of a die on a band. -/
def neighbours (band n : Nat) : List Nat :=
  let q := bandPos band n
  [bandDie band ((q + 1) % 8), bandDie band ((q + 7) % 8)]

/-- TURNAROUND_CLOSE (R200): the switches next to the dead die on each of its bands join the incoming direction to the
outgoing one; TURNED holds bit 0 for the row band and bit 1 for the column band. -/
def execTurnaroundClose (die : DieN) (s : State) : Res :=
  .next (
    if s.live die.val then s
    else (bandsOf die.val).foldl (fun s b =>
      (neighbours b die.val).foldl (fun s n =>
        s.modSwitch n (fun x => { x with turned := setBit x.turned (if b < 8 then 0 else 1) true })) s) s)

end Sys2Proof.Machine
end

