-- ==== Sys2Proof/Machine/Rails.lean ====
section
/-! DEFINITION. The core rails, the clocks of the crown dies and the switched domains (R359–R364, R371): what the power
manager, the voltage loop and the floor state act on. -/

namespace Sys2Proof.Machine

def rPow (p sub : Nat) : Nat := key (0x5A00 + p) sub
def rDiePow (n sub : Nat) : Nat := key (0x6C00 + n) sub
def rPkg (sub : Nat) : Nat := key 0x2700 sub

def State.dp (s : State) (c : Nat) : DiePower := sget (fun _ => DiePower.blank) s.power.dies c
def State.modDp (s : State) (c : Nat) (g : DiePower → DiePower) : State :=
  { s with power := { s.power with dies := smod (fun _ => DiePower.blank) s.power.dies c g } }
def State.pp (s : State) (p : Nat) : PartPower := sget (fun _ => PartPower.blank) s.power.parts p
def State.modPp (s : State) (p : Nat) (g : PartPower → PartPower) : State :=
  { s with power := { s.power with parts := smod (fun _ => PartPower.blank) s.power.parts p g } }

/-- A die stands in the floor state (R371). -/
def State.inFloor (s : State) (c : Nat) : Bool := s.reg (rDiePow c 6) == 1

/-! ### The voltage table (R363) -/

/-- The typical voltages of R363, MHz and mV. -/
def typical : List (Nat × Nat) := [(400, 600), (800, 640), (1000, 670), (1200, 700), (1500, 750), (1600, 770), (1800, 820)]

/-- A die's table before the loop has recorded a step: the typical values, linear between the columns of R363 as its worked
example takes them (log 40). -/
def typicalMv (f : Nat) : Nat :=
  let hi := (typical.find? (fun e => decide (f ≤ e.1))).getD (1800, 820)
  let lo := ((typical.reverse).find? (fun e => decide (e.1 ≤ f))).getD (400, 600)
  if hi.1 = lo.1 then hi.2 else lo.2 + (hi.2 - lo.2) * (f - lo.1) / (hi.1 - lo.1)

/-- The voltage table of a die (R363). -/
def State.tableMv (s : State) (c f : Nat) : Nat := sget typicalMv (s.dp c).table f

/-- The lowest target of a die: 0.70 V while a brim region holds a design (R279, R363). -/
def State.lowestMv (s : State) (c : Nat) : Nat := if s.regionsLoaded c = 0 then 550 else 700

/-- The guard of a heavy-phase notice on a die's partition (R370). -/
def State.guardMv (s : State) (c : Nat) : Nat :=
  match s.dieOwner c with
  | some p => if (s.pp p).notices.any (fun n => n.2.2) then s.reg (rPkg 4) else 0
  | none => 0

/-- The voltage the die commands of its regulator: the loop's target with the guard, or the floor state's (R363, R370,
R371). -/
def State.commandMv (s : State) (c : Nat) : Nat :=
  if s.inFloor c then (if s.regionsLoaded c = 0 then 600 else 700)
  else min 900 (max (s.dp c).target (s.lowestMv c) + s.guardMv c)

/-- Command over AVSBus what has changed since `old` on the dies given (R364). -/
def State.avsFrom (s old : State) (dies : List Nat) : State :=
  dies.foldl (fun t c => if s.commandMv c = old.commandMv c then t else t.emit (.avs c (s.commandMv c))) s

/-- Before a step up: raise each rail of a partition to the table value of the new step plus 10 mV (R363). -/
def State.raiseRails (s : State) (p next : Nat) : State :=
  let dies := s.diesOf p
  let t := dies.foldl (fun t c =>
    let need := min 900 (t.tableMv c next + 10)
    t.modDp c (fun x => if x.target < need then { x with target := need, settled := false } else x)) s
  t.avsFrom s dies

/-- Hold a die's clock at a frequency (R359). -/
def State.setMhz (s : State) (c f : Nat) : State := s.modDp c (fun x => { x with mhz := f })

/-! ### The predicted current (R363, R367) -/

/-- A die predicts I ≤ ILIM at a step: 272 A × (f ÷ 1.5 GHz) × (V ÷ 0.75 V) (R363). -/
def State.currentOk (s : State) (c f : Nat) : Bool :=
  decide (272 * f * s.tableMv c f ≤ s.reg (rDiePow c 1) * 1500 * 750)

/-- The MCLK steps up to a cap (R359). -/
def stepsTo (cap : Nat) : List Nat := ((List.range 57).map (fun i => 400 + 25 * i)).filter (fun f => decide (f ≤ cap))

/-- The highest step up to a cap for which `ok` holds; 400 MHz when none. -/
def highestStep (cap : Nat) (ok : Nat → Bool) : Nat := maxL (400 :: (stepsTo cap).filter ok)

/-- The highest MCLK step permitted to a partition (R367). -/
def State.permitted (s : State) (p : Nat) : Nat :=
  highestStep (min (s.reg (rPow p 3)) Config.gradeLimit) (fun f => (s.diesOf p).all (fun c => s.currentOk c f))

/-! ### Switched domains (R361, R362) -/

/-- The domains of a die that should be on (R361): bits 0–3 of a crown die are its tile groups, die store and brim; bits 0–2
of a port die its lane group, pair-link engine and host port. -/
def State.domainsWanted (s : State) (n : Nat) : Nat :=
  if !s.live n then 0
  else if n < 48 then
    if (s.dieOwner n).isSome then
      let group (a : Nat) : Bool := (List.range 4).any (fun i => s.reg (rTileState n (a + i)) != 2)
      b2n (group 0) + 2 * b2n (group 4) + 12
    else 0
  else
    let use := s.reg (key (0x2510 + (n - 48)) 1)
    b2n (use != 0) + 2 * b2n (use == 1) + 4 * b2n (bit (s.reg (key 0x1000 6)) (16 + (n - 48)))

/-- Switch off what is no longer wanted, and queue what is wanted and neither on nor queued (R362). -/
def State.refreshDomains (s : State) (n : Nat) : State :=
  let want := s.domainsWanted n
  let on := s.reg (rDiePow n 5)
  let wait := s.power.switching.filter (fun e => e.1 != n || bit want e.2)
  let new := ((List.range 4).filter (fun d => bit want d && !bit on d && !wait.contains (n, d))).map (fun d => (n, d))
  let s := { s with power := { s.power with switching := wait ++ new } }
  s.setReg (rDiePow n 5) (on &&& want)

/-- DOMAIN_ON (R362): one of the four domains that switch on at once is on. -/
def execDomainOn (die : DieN) (domain : Fin 4) (s : State) : Res :=
  let e := (die.val, domain.val)
  .next (
    if (s.power.switching.take 4).contains e then
      let s := { s with power := { s.power with switching := s.power.switching.erase e } }
      s.setReg (rDiePow die.val 5) (setBit (s.reg (rDiePow die.val 5)) domain.val true)
    else s)

/-- Refresh the domains of every die. -/
def State.refreshAll (s : State) : State := (List.range 64).foldl State.refreshDomains s

end Sys2Proof.Machine
end

