-- ==== Sys2Proof/Machine/Time.lean ====
section
/-! DEFINITION. Time: the counter of R405, its discipline by IEEE 1588 (R406), steps and holdover (R407). -/

namespace Sys2Proof.Machine

/-- TIME_STATE: 0 not disciplined, 1 locking, 2 locked, 3 holdover (R417). -/
def rTimeState : Nat := key 0x1030 2
def rOffsetNs : Nat := key 0x1030 3
def rStepLimit : Nat := key 0x1030 9
def rTimeSteps : Nat := key 0x1030 0xA

/-- The nominal INCR of R405. -/
def incrNominal : Nat := 0x6AAAAAAB

/-- INCR slewed by at most ±500 ppm (R407); within that bound the slew is a free value (log 22). -/
def slewed (n : Nat) : Nat :=
  let d := incrNominal * 500 / 1000000
  incrNominal - d + Config.freeNat 64 n % (2 * d + 1)

/-- A 32-bit signed value, saturating (OFFSET_NS). -/
def sat32 (x : Int) : Nat := unsigned 32 (max (-(2 ^ 31 : Int)) (min (2 ^ 31 - 1) x))

/-- A new offset once a Sync and the path delay are known: OFFSET_NS, TIME_STATE and, while locked, INCR (R407). -/
def State.measured (s : State) : State :=
  if s.clock.syncKnown && s.clock.delayKnown then
    let off : Int := (s.clock.t2 : Int) - s.clock.t1 - s.clock.delay
    let st := s.reg rTimeState
    let s := { s with clock := { s.clock with offset := off } }
    let s := s.setReg rOffsetNs (sat32 off)
    if !s.clock.locked then s.setReg rTimeState 1
    else if st = 3 ∨ st = 2 then
      { s.setReg rTimeState 2 with clock := { s.clock with incr := slewed s.drawn }, free := s.free + 1 }
    else s
  else s

/-- Send the delay request of the mechanism selected (R406). -/
def State.delayRequest (s : State) : State :=
  let q := (s.clock.reqSeq + 1) % 2 ^ 16
  let s := { s with clock := { s.clock with reqAt := s.now, reqSeq := q } }
  s.emit (.ptp (if s.reg (key 0x1030 8) = 1 then "Delay_Req" else "Pdelay_Req") q)

/-- A Sync whose origin time is known: origin plus correction, and the receive time. -/
def State.synced (s : State) (t1 t2 : Nat) : State :=
  let s := { s with clock := { s.clock with t1 := t1, t2 := t2, syncKnown := true, syncWait := false } }
  s.measured.delayRequest

/-- Whether a PTP message is for this clock: its domain is PTP_DOMAIN (R406). -/
def State.ptpMine (s : State) (domain : Byte) : Bool := domain.toNat = s.reg (key 0x1030 6)

/-- A time plus a signed correction, in ns. -/
def corrected (t c : W64) : Nat := (t.toNat + signed 64 c.toNat).toNat

/-- PTP_SYNC (R406): one-step carries its origin time; two-step waits for its Follow_Up. -/
def execPtpSync (domain : Byte) (twoStep : Bool) (seq : BitVec 16) (origin correction : W64) (s : State) : Res :=
  .next (
    if s.ptpMine domain then
      if twoStep then
        { s with clock := { s.clock with syncSeq := seq.toNat, syncAt := s.now, syncWait := true } }
      else s.synced (corrected origin correction) s.now
    else s)

/-- PTP_FOLLOW_UP (R406): the origin time of the two-step Sync of the same number. -/
def execPtpFollowUp (domain : Byte) (seq : BitVec 16) (origin correction : W64) (s : State) : Res :=
  .next (
    if s.ptpMine domain && s.clock.syncWait && s.clock.syncSeq == seq.toNat then
      s.synced (corrected origin correction) s.clock.syncAt
    else s)

/-- PTP_DELAY_RESP (R406): mean path delay ((t2 − t1) + (t4 − t3)) ÷ 2 of the end-to-end mechanism. -/
def execPtpDelayResp (domain : Byte) (seq : BitVec 16) (receive correction : W64) (s : State) : Res :=
  .next (
    if s.ptpMine domain && s.reg (key 0x1030 8) == 1 && s.clock.reqSeq == seq.toNat && s.clock.syncKnown then
      let t4 : Int := (receive.toNat : Int) - signed 64 correction.toNat
      let d := (((s.clock.t2 : Int) - s.clock.t1) + (t4 - s.clock.reqAt)) / 2
      State.measured { s with clock := { s.clock with delay := d.toNat, delayKnown := true } }
    else s)

/-- PTP_PDELAY_RESP (R406): peer delay ((t4 − t1) − (t3 − t2)) ÷ 2 of the peer-to-peer mechanism. -/
def execPtpPdelayResp (domain : Byte) (seq : BitVec 16) (receive transmit : W64) (s : State) : Res :=
  .next (
    if s.ptpMine domain && s.reg (key 0x1030 8) == 2 && s.clock.reqSeq == seq.toNat then
      let d := (((s.now : Int) - s.clock.reqAt) - ((transmit.toNat : Int) - receive.toNat)) / 2
      State.measured { s with clock := { s.clock with delay := d.toNat, delayKnown := true } }
    else s)

/-- PTP_ANNOUNCE (R406): the grandmaster and UTC_OFFSET, which never alters the counter. -/
def execPtpAnnounce (domain : Byte) (grandmaster : W64) (utc : BitVec 16) (s : State) : Res :=
  .next (
    if s.ptpMine domain then (s.setReg (key 0x1030 4) grandmaster.toNat).setReg (key 0x1030 5) utc.toNat else s)

/-- PTP_MANAGEMENT (R406): answered with NOT_SUPPORTED. -/
def execPtpManagement (domain : Byte) (seq : BitVec 16) (s : State) : Res :=
  .next (if s.ptpMine domain then s.emit (.ptp "NOT_SUPPORTED" seq.toNat) else s)

/-- ANNOUNCE_TIMEOUT (R407): TIME_STATE reads 3, and INCR keeps its last value. -/
def execAnnounceTimeout (s : State) : Res := .next (s.setReg rTimeState 3)

/-- TIME_STEP (R407): on the first lock the counter is stepped forward to TAI; locked and behind by more than STEP_LIMIT it
is stepped forward with event 0x0104; ahead it is only slewed. -/
def execTimeStep (s : State) : Res :=
  let behind := (-s.clock.offset).toNat
  let stepped : State :=
    { s with clock := { s.clock with tai := s.clock.tai + behind * 2 ^ 32, offset := max s.clock.offset 0, locked := true } }
  .next (
    if s.reg rTimeState = 1 ∧ s.clock.locked = false then stepped.setReg rTimeState 2
    else if s.reg rTimeState = 2 ∧ behind > s.reg rStepLimit then
      (stepped.bump rTimeSteps 1).raise 0x0104 none
    else s)

/-- One band cycle (R181, R405): every copy of the counter adds INCR, and the frame counters count modulo 256.  While SYS_REFCLK
fails the milliner keeps the counter on its crystal, in steps of 40 ns, 96 band cycles (R407, R412). -/
def State.tick (s : State) : State :=
  let c := s.clock
  let add := if s.mill.refFault then (if (c.cycles + 1) % 96 = 0 then 40 * 2 ^ 32 else 0) else c.incr
  { s with clock := { c with tai := c.tai + add, frame := (c.frame + 1) % 256, cycles := c.cycles + 1 } }

end Sys2Proof.Machine
end

