-- ==== Sys2Proof/Machine/Streams.lean ====
section
/-! DEFINITION. Streams (R128–R149): the transfers of an item, their issue, arbitration, arrival and settling, the drain-rate
windows and the queue monitors; and transactions at their source (R193–R199). -/

namespace Sys2Proof.Machine

/-! ### The transfers of an item (R133) -/

/-- Cut a contiguous span at 4,096-byte boundaries of its address: (address, byte of the item, count). -/
def cut4k : Nat → Nat → Nat → Nat → List (Nat × Nat × Nat)
  | 0, _, _, _ => []
  | n + 1, addr, off, len =>
    if len = 0 then [] else
    let k := min len (4096 - addr % 4096)
    (addr, off, k) :: cut4k n (addr + k) (off + k) (len - k)

/-- The transfers of one contiguous span: requests of at most 16 MiB, each cut at 4,096-byte boundaries. -/
def cutSpan (addr off len : Nat) : List (Nat × Nat × Nat) :=
  (List.range (cdiv len (2 ^ 24))).flatMap (fun i =>
    let k := min (2 ^ 24) (len - i * 2 ^ 24)
    cut4k (k / 4096 + 2) (addr + i * 2 ^ 24) (off + i * 2 ^ 24) k)

/-- The spans of a packed item that rows [r, r + n) take: the element rows, and the scale rows of an MX item (R79). -/
def rowSpans (f : Fmt) (rows cols : Nat) (along : Bool) (r n : Nat) : List (Nat × Nat) :=
  let rb := rowBytes f cols
  let n := min n (rows - r)
  let sh := scaleShape rows cols along
  let off := scaleOffset f rows cols 0
  (r * rb, n * rb) ::
    (if fmtMx f then
      (if along then [(off + r * sh.2, n * sh.2)] else [(off + r / 32 * sh.2, (cdiv (r + n) 32 - r / 32) * sh.2)])
    else [])

/-- Where a span of a packed item lies in a region of a row pitch: contiguous pieces (address, byte of the item, count).  The
element rows that it touches follow the pitch, and the scale array of an MX item stands packed behind them (R79, R104). -/
def regionPieces (f : Fmt) (rows cols pitch base : Nat) (span : Nat × Nat) : List (Nat × Nat × Nat) :=
  let rb := rowBytes f cols
  if pitch = 0 ∨ pitch = rb then [(base + span.1, span.1, span.2)] else
  let stop := min (span.1 + span.2) (rows * rb)
  let els := (List.range (cdiv stop rb - span.1 / rb)).map (fun i =>
    let r := span.1 / rb + i
    let lo := max span.1 (r * rb)
    (base + r * pitch + (lo - r * rb), lo, min stop (r * rb + rb) - lo))
  let off := scaleOffset f rows cols 0
  let lo := max span.1 off
  els ++ (if fmtMx f then [(base + scaleOffset f rows cols pitch + (lo - off), lo, span.1 + span.2 - lo)] else [])

/-- The transfers of some spans of `n` items of a slot, bound at an address with a row pitch (R77, R104, R133); with
a pitch, the next item begins at the byte after the last row's data (log 105). -/
def movesOf (x : Nat) (along : Bool) (n base pitch : Nat) (spans : List (Nat × Nat)) : List (Nat × Nat × Nat) :=
  let f := sFmt x
  let rows := sRows x
  let cols := sCols x
  let size := itemSpan f rows cols 0 along
  let step := itemSpan f rows cols pitch along
  (List.range n).flatMap (fun i => (spans.flatMap (fun sp => regionPieces f rows cols pitch (base + i * step) sp)).flatMap
    (fun e => cutSpan e.1 (i * size + e.2.1) e.2.2))

/-! ### Streams in the state -/

/-- The command's streams, ends and parts through a reference. -/
def Cmd.stream (c : Cmd) (id die : Nat) : Option Stream := c.streams.find? (fun x => x.id == id && x.die == die)
def Cmd.modStream (c : Cmd) (id die : Nat) (g : Stream → Stream) : Cmd :=
  { c with streams := updWhere (fun x => x.id == id && x.die == die) g c.streams }
def Cmd.finish (c : Cmd) (id : Nat) : Option End := c.ends.find? (fun x => x.id == id)
def Cmd.modEnd (c : Cmd) (id : Nat) (g : End → End) : Cmd := { c with ends := updWhere (fun x => x.id == id) g c.ends }
def Cmd.modPart (c : Cmd) (die : Nat) (g : Part → Part) : Cmd :=
  { c with parts := updWhere (fun x => x.die == die) g c.parts }

/-- A failure of the part on a die, and the queue of its end when it is the first (R6, R108 ERR_QID); a command whose one
part runs on no die takes it there (R102). -/
def Cmd.fail (c : Cmd) (die code qid : Nat) : Cmd :=
  let die := if c.parts.any (fun x => x.die == die) then die else 63
  let c := c.modPart die (fun x => { x with fails := x.fails ++ [code] })
  if c.errQid = 0x3FF then { c with errQid := qid } else c

/-- Transfers wholly popped, in order: their granules are free (R131, R135). -/
def poppedMoves : List (Nat × Nat × Nat) → Nat → Nat
  | [], _ => 0
  | m :: rest, n => if m.2.2 ≤ n ∧ 0 < m.2.2 then poppedMoves rest (n - m.2.2) + 1 else 0

/-- Bytes of the transfers issued. -/
def Stream.issuedBytes (x : Stream) : Nat := sumL ((x.moves.take x.issued).map (fun m => m.2.2))
/-- Bytes of all its transfers. -/
def Stream.total (x : Stream) : Nat := sumL (x.moves.map (fun m => m.2.2))
/-- Transfers that have arrived or settled, and their bytes. -/
def Stream.ended (x : Stream) : Nat := x.came.length
def Stream.done (x : Stream) : Nat := sumL (x.came.map (fun i => (x.moves.getD i (0, 0, 0)).2.2))
/-- An input has wholly arrived, an output has wholly settled. -/
def Stream.over (x : Stream) : Bool := x.ended == x.moves.length
/-- Bytes that have arrived in order: what the consumer can pop (R131). -/
def Stream.ready (x : Stream) : Nat :=
  sumL ((x.moves.take ((List.range x.moves.length).takeWhile x.came.contains).length).map (fun m => m.2.2))
/-- A transfer has arrived or settled, named by the first byte of the item that it moves. -/
def Stream.arrive (x : Stream) (first : Nat) : Stream :=
  match (List.range x.moves.length).find? (fun i => (x.moves.getD i (0, 0, 0)).2.1 == first && !x.came.contains i) with
  | some i => { x with came := x.came ++ [i] }
  | none => x
/-- Bytes of a span of the item that have arrived. -/
def spanCover (x : Stream) (b : Nat × Nat) : Nat :=
  sumL (x.came.map (fun i =>
    let m := x.moves.getD i (0, 0, 0)
    min (m.2.1 + m.2.2) (b.1 + b.2) - max m.2.1 b.1))

/-- Bytes of its buffer (R130). -/
def Stream.room (x : Stream) : Nat := 4096 * 2 ^ x.log2
/-- The consumer of an input pops, or the producer of an output pushes, until `n` bytes have gone, in order and in units of 128
bytes up to the item's last (R131, R145). -/
def Stream.moveTo (x : Stream) (n : Nat) : Stream :=
  let to_ := max x.popped (if n = x.total then n else n / 128 * 128)
  { x with popped := to_, taken := x.taken + (to_ - x.popped) }
/-- The consumer pops up to `n` more bytes of those that have arrived, and not beyond `most` (R131). -/
def Stream.pop (x : Stream) (n most : Nat) : Stream := x.moveTo (min (min x.ready most) (x.popped + n))
/-- The producer of an output pushes what it has produced, as far as the buffer has space (R137). -/
def Stream.push (x : Stream) (made : Nat) : Stream := x.moveTo (min made (x.done + x.room))

/-- Whether the estimate of the stream is valid (R145). -/
def Stream.valid (x : Stream) : Bool := decide (2 ≤ x.windows)

/-- One window of R145: r ← r + (w − r) ÷ 4, kept exactly; a window counts as complete when it began after the first pop, and
after the last event that made the estimate invalid. -/
def Stream.window (x : Stream) : Stream :=
  let begun := x.started || decide (0 < x.taken)
  { x with rateNum := 3 * x.rateNum + x.taken * 4 ^ x.rateExp, rateExp := x.rateExp + 1, taken := 0,
           windows := if x.counted then x.windows + 1 else x.windows, started := begun, counted := begun }

/-- An event that makes the estimate invalid: the window in progress is not complete after it (R145, R148, R165). -/
def Stream.spoil (x : Stream) : Stream := { x with windows := 0, counted := false }

/-! ### Buffers of internal queues (R128, R129, R134) -/

/-- Transfers of an internal queue's item that its producer has been able to push: into the consumer's own buffer, or into the
HBM buffer behind it. -/
def Stream.pushed (x : Stream) : Nat :=
  if !x.placed then 0 else
  match x.back with
  | some j => min x.moves.length (x.ended + 2 ^ j)
  | none => min x.moves.length (poppedMoves x.moves x.popped + 2 ^ x.log2)

/-- A buffer that the producer pushes into directly takes what its granules have space for (R128, R134). -/
def Stream.take (x : Stream) : Stream :=
  if x.home = 3 ∧ x.back = none then { x with issued := x.pushed, came := List.range x.pushed } else x

/-- Mark the inputs of an end that have wholly arrived. -/
def Cmd.settleEnd (c : Cmd) (id : Nat) : Cmd :=
  if (c.streams.filter (fun x => x.id == id)).all Stream.over then c.modEnd id (fun e => { e with full := true }) else c

/-- What an internal queue holds moves into the buffers of one end of its consumer; after an item closed early nothing more comes,
and its rest reads as poisoned (R111, R132). -/
def Cmd.takeEnd (c : Cmd) (id : Nat) (bytes : List Byte) (bad : List (Nat × Nat)) (closed : Bool) : Cmd :=
  let c := c.modEnd id (fun e => { e with data := bytes, bad := bad })
  let take (x : Stream) : Stream :=
    if closed then { x with issued := x.moves.length, came := List.range x.moves.length } else x.take
  let c := { c with streams := updWhere (fun x => x.id == id) take c.streams }
  c.settleEnd id

/-- The consumers of a run's internal queues take what their buffers have space for (R78, R128). -/
def Run.flow (descs : List Nat) (r : Run) : Run :=
  let give (c : Cmd) : Cmd := (cmdEnds descs c.idx).foldl (fun c e =>
    if 4 ≤ e.1 % 8 ∨ !isInternalQ descs (sQid e.2.2) then c else
    match sget (fun _ => QState.empty) r.queues (sQid e.2.2) with
    | .item bytes bad closed => c.takeEnd e.1 bytes bad closed
    | _ => c) c
  { r with cmds := updWhere (fun c => c.phase == .issued && c.fixed.isNone) give r.cmds }

/-- The command that pops a queue of a run. -/
def Run.consumer (descs : List Nat) (r : Run) (q : Nat) : Option Cmd :=
  r.cmds.find? (fun c => (cmdEnds descs c.idx).any (fun e => decide (e.1 % 8 < 4) && sQid e.2.2 == q))

/-- The streams of a command at the input end of a queue. -/
def Cmd.inputs (c : Cmd) (descs : List Nat) (q : Nat) : List Stream :=
  c.streams.filter (fun x => (cmdEnds descs c.idx).any (fun e => e.1 == x.id && decide (e.1 % 8 < 4) && sQid e.2.2 == q))

/-- The spans of a queue's item that its producer has not yet been able to push: all of it while the consumer has no buffer,
none once the consumer takes nothing more (R128, R152). -/
def Run.unpushed (descs : List Nat) (r : Run) (q : Nat) : List (Nat × Nat) :=
  match sget (fun _ => QState.empty) r.queues q, r.consumer descs q with
  | .item bytes _ false, some c =>
    if c.phase == .waiting then [(0, bytes.length)]
    else if c.phase != .issued || c.fixed.isSome then []
    else (c.inputs descs q).flatMap (fun x => (x.moves.drop x.pushed).map (fun m => (m.2.1, m.2.2)))
  | _, _ => []

/-! ### Space in the stores (R129, R130) -/

/-- Whether two buffers lie in one store: a tile store of both, or both in the die store of one die. -/
def storesMeet (d t e u : Nat) : Bool := d == e && (if t = 0 ∨ u = 0 then t == u else t &&& u != 0)

/-- Bytes that an input or output buffer takes in its store; a copy read in place takes none (R160). -/
def Stream.space (x : Stream) : Nat := if x.placed && !(x.home == 2 && x.src == x.die) then x.room else 0

/-- The stream buffers of a partition's commands in flight. -/
def State.buffers (s : State) (p : Nat) : List Stream :=
  (s.prn p).runs.flatMap (fun r => (r.cmds.filter (fun c => c.phase == .issued || c.phase == .computed)).flatMap Cmd.streams)

/-- Bytes that stream buffers may take of a store: of a tile's 8 MiB less the staging area, of a die's 32 MiB less the resident
copies on it (R121, R160; log 106). -/
def State.storeBytes (s : State) (p die tiles : Nat) : Nat :=
  if tiles ≠ 0 then 4194304
  else 33554432 - sumL (((s.prn p).copies.filter (fun x => x.die == die)).map (fun x =>
    sumL (x.spans.map (fun e => cdiv (e.1 % 128 + e.2) 128 * 128))))

/-- The largest j, at most the one wanted, of a buffer that a store still has space for (R130). -/
def State.fitLog (s : State) (p die tiles want : Nat) : Option Nat :=
  let used (l : List Stream) : Nat := sumL (l.map Stream.space)
  let here := (s.buffers p).filter (fun x => storesMeet x.die x.tiles die tiles)
  let most := if tiles = 0 then used here else maxL ((idxs 8 (bit tiles)).map (fun t => used (here.filter (fun x => bit x.tiles t))))
  ((List.range (want + 1)).reverse).find? (fun j => decide (most + 4096 * 2 ^ j ≤ s.storeBytes p die tiles))

/-- The latency class of a command (R172). -/
def State.latOf (s : State) (p d : Nat) : Nat := if dLatClass d = 0 then s.reg (rLatClass p) else dLatClass d

/-- The slot of a program that an end names: stage × 8 + slot (R99). -/
def endSlot (descs : List Nat) (idx id : Nat) : Nat := dSlot ((stagesOf descs idx).getD (id % 128 / 8) 0) (id % 8)

/-- The queue monitors of a partition that watch a queue (R142). -/
def monitorKey (p w sub : Nat) : Nat := key (0x6400 + 8 * (p - 1) + w) sub
def State.monitors (s : State) (p q : Nat) : List Nat := (List.range 8).filter (fun w => s.reg (monitorKey p w 1) == q)
/-- Change a counter of every monitor of a queue. -/
def State.monitor (s : State) (p q sub n : Nat) : State :=
  (s.monitors p q).foldl (fun s w => s.bump (monitorKey p w sub) n) s
def State.monitorMax (s : State) (p q sub n : Nat) : State :=
  (s.monitors p q).foldl (fun s w => s.raiseReg (monitorKey p w sub) n) s
def State.monitorSet (s : State) (p q sub n : Nat) : State :=
  (s.monitors p q).foldl (fun s w => s.setReg (monitorKey p w sub) n) s

/-! ### Transactions (R187, R193, R196) -/

/-- The port die of a host port, and the function's (R4). -/
def hostPortDie (port : Nat) : Nat := [50, 53, 58, 61].getD port 50

/-- The destination of a transfer: die and engine (R179, R204). -/
def State.target (s : State) (p home src addr : Nat) : Nat × Nat :=
  match home with
  | 0 => match s.place p addr with
    | some (m, _, _) => (48 + m / 2, m % 2)
    | none => (48, 0)
  | 1 => (hostPortDie (s.fnOf p).port.val, 2)
  | _ => (src, 8)

/-- Issue the next transfer of a stream (R133–R137): its transaction, and its wait at the injection port. -/
def State.issueMove (s : State) (f : Found) (c : CmdRef) (st : Stream) (m : Nat × Nat × Nat) (write : Bool)
    (data : List Byte) : State :=
  let sl := endSlot f.prog.descs f.cmd.idx st.id
  let dest := s.target f.p st.home st.src m.1
  let tag := s.freeTag st.die st.eng
  let e := s.reg (rEpoch f.p) % 256
  let h := Head.unit
    { inline := 0, address := m.1, byteEn := 0, cmdSeq := dSeq f.desc, runSeq := f.run.seq, tag := tag, epoch := e,
      status := 0, cmd := if write then 0x02 else 0x01,
      len := if write then cdiv m.2.2 128 else cdiv (m.1 % 128 + m.2.2) 128, inlineLen := 0, pkg := false, part := f.p,
      dstDie := dest.1, dstEng := dest.2, srcDie := st.die, srcEng := st.eng,
      orig := if f.cmd.parts.any (fun x => x.die == st.die) then st.die else 63, qid := sQid sl }
  let sid : StreamId := ⟨f.p, c.run, c.cmd, st.id, st.die⟩
  let split := if st.home = 2 then 2 else if write then 1 else 0
  let x : Xact := ⟨st.die, st.eng, tag, h, s.now, some sid, m.2.1, m.2.2, e, none, false, [], false⟩
  let w : Waiting := ⟨.inject (Fin.ofNat 64 st.die) false, f.p, h, data, 0, some sid, split, s.latOf f.p f.desc, sQid sl, s.now,
    false, s.clock.cycles, none, false⟩
  let s := { s with xacts := s.xacts ++ [x], waiting := s.waiting ++ [w] }
  let s := s.modRef c (fun x => x.modStream st.id st.die (fun y => { y with issued := y.issued + 1 }))
  s.monitorMax f.p (sQid sl) 4 (st.issued + 1 - st.ended)

/-- Rows of a product's IN1 that a tile has taken into its feeder queues, as far as one of its work units tells: all of them once
a column group has gone through every chunk (R50, R55). -/
def Work.rowsTaken (w : Work) (stage rows : Nat) : Nat :=
  match w.active, w.plan with
  | some b, _ => if stage < b.stage ∨ (b.stage = stage ∧ 0 < b.col) then rows else if b.stage = stage then 128 * (b.chunk + 1) else 0
  | none, b :: _ => if stage < b.stage ∨ (b.stage = stage ∧ 0 < b.col) then rows else if b.stage = stage then 128 * b.chunk else 0
  | none, [] => rows

/-- Bytes of a stream that its consumers may have popped: of a B stream that the die broadcasts to its tiles, those that the tile
furthest behind has taken, so that a tile that stalls holds the broadcast once the buffer is full (R55). -/
def State.popLimit (s : State) (f : Found) (st : Stream) : Nat :=
  let stage := st.id / 8
  let d := (stagesOf f.prog.descs f.cmd.idx).getD stage 0
  let x := dSlot d 1
  let mine := s.works.filter (fun w => w.p == f.p && w.run == f.run.id && w.cmd == f.cmd.idx && w.die == st.die && !w.dup && !w.replay)
  if st.id < 128 ∧ st.id % 8 = 1 ∧ dOpcode d = 0x20 ∧ !sTransposed x ∧ mine != [] then
    let taken (t : Nat) : Nat := maxL ((mine.filter (fun w => w.tile == t)).map (fun w => w.rowsTaken stage (sRows x)))
    let rows := ((mine.map Work.tile).map taken).foldl min (sRows x)
    if rows = sRows x then st.total else rows * rowBytes (sFmt x) (sCols x)
  else st.total

/-- The HBM buffer that a queue has moved from is released once its last transfer has come out (R165). -/
def State.drainOld (s : State) (f : Found) (id : Nat) (y : Stream) : State :=
  let q := sQid (endSlot f.prog.descs f.cmd.idx id)
  s.modPr f.p (fun r => { r with bufs := updWhere (fun b => b.run == f.run.id && b.qid == q && decide (b.upto ≤ y.ended))
                                           (fun b => { b with old := none }) r.bufs })

/-- The two ends of an input buffer move on: its consumer pops up to `n` bytes more, and up to `back` transfers arrive from the HBM
buffer behind it (R131, R134; log 107); what its producer holds flows in (R128). -/
def State.popStream (s : State) (f : Found) (c : CmdRef) (st : Stream) (n back : Nat) : State :=
  let in_ (x : Stream) : Stream :=
    if x.back.isSome then { x with came := List.range (min x.issued (x.ended + back)) } else x
  let go (x : Stream) : Stream := if x.id % 8 < 4 then (in_ x).pop n (s.popLimit f st) else x
  let s := s.modRef c (fun x => x.modStream st.id st.die go)
  let s := if st.id < 128 then s.monitor f.p (sQid (endSlot f.prog.descs f.cmd.idx st.id)) 3 ((go st).popped - st.popped) else s
  let s := if st.back.isSome then s.drainOld f st.id (go st) else s
  if st.home = 3 then s.modRun f.p f.run.id (Run.flow f.prog.descs) else s

/-- A buffer that waits for space in its store takes it once there is some (R130, R150). -/
def State.settleSpace (s : State) (f : Found) (c : CmdRef) (st : Stream) : State :=
  if st.placed then s else
  match s.fitLog f.p st.die st.tiles st.log2 with
  | none => s
  | some j =>
    let s := s.modRef c (fun x => x.modStream st.id st.die (fun y => { y with placed := true, log2 := j }))
    let s := s.monitorSet f.p (sQid (endSlot f.prog.descs f.cmd.idx st.id)) 5 j
    if st.home = 3 then s.modRun f.p f.run.id (Run.flow f.prog.descs) else s

/-- A read transfer may be issued: the command runs, a granule is free, and the limit allows it (R134–R136); from an HBM buffer,
once the producer has pushed it. -/
def Stream.mayRead (x : Stream) : Bool :=
  x.placed && decide (x.id % 8 < 4) && decide (x.issued < (if x.home = 3 then x.pushed else x.moves.length))
    && decide (x.issued - x.ended < x.limit) && decide (x.issued - poppedMoves x.moves x.popped < 2 ^ x.log2)

/-- Issue the next read transfer of a stream, that of a duplicate or a replay also after its original has ended; between an HBM buffer and the input buffer it is no packet of the partition's
address space (log 107). -/
def State.issueRead (s : State) (f : Found) (c : CmdRef) (st : Stream) : State :=
  match st.moves[st.issued]? with
  | none => s
  | some m =>
    if !(f.cmd.phase == .issued || (f.cmd.phase == .computed && decide (128 ≤ st.id))) || !st.mayRead then s
    else if st.home = 3 then
      (s.modRef c (fun x => x.modStream st.id st.die (fun y => { y with issued := y.issued + 1 }))).monitorMax f.p
        (sQid (endSlot f.prog.descs f.cmd.idx st.id)) 4 (st.issued + 1 - st.ended)
    else s.issueMove f c st m false []

/-- Act on a stream of a command, if both exist. -/
def State.onStream (s : State) (c : CmdRef) (id die : Nat) (g : State → Found → Stream → State) : State :=
  match s.find c with
  | none => s
  | some f =>
    match f.cmd.stream id die with
    | none => s
    | some st => g s f st

/-- TRANSFER_ISSUE (R129–R136): the consumer has popped `popped` bytes more and `back` transfers have come out of the HBM
buffer; the stream's buffer takes its space if it waits for it, and the next read transfer is issued. -/
def execTransferIssue (c : CmdRef) (fin : Fin 256) (die : DieC) (popped back : W32) (s : State) : Res :=
  let s := s.onStream c fin.val die.val (fun s f st => s.popStream f c st popped.toNat back.toNat)
  let s := s.onStream c fin.val die.val (fun s f st => s.settleSpace f c st)
  .next (s.onStream c fin.val die.val (fun s f st => s.issueRead f c st))

/-! ### Arbitration (R144–R148) -/

/-- The number of an arbitration point. -/
def pointNum : Point → Nat
  | .inject d row => d.val + 64 * b2n row
  | .channel m ch => 128 + m.val * 32 + ch.val
  | .host f => 1152 + fnKey f

/-- The stream of a waiting transfer: its own, or that of its transaction at the source. -/
def State.sidOf (s : State) (w : Waiting) : Option StreamId :=
  w.stream.orElse (fun _ => (s.xacts.find? (fun x => x.die == pkSrcDie w.header && x.eng == pkSrcEng w.header
    && x.tag == pkTag w.header)).bind Xact.stream)

/-- The stream that a waiting transfer belongs to. -/
def State.streamOf (s : State) (w : Waiting) : Option Stream :=
  match s.sidOf w with
  | none => none
  | some i => ((s.run i.p i.run).bind (fun r => r.cmd i.cmd)).bind (fun c => c.stream i.fin i.die)

/-- The latency class of a waiting transfer: its stream's command's, else the one it came with (R146, R172). -/
def State.latWaiting (s : State) (w : Waiting) : Nat :=
  match s.sidOf w with
  | none => w.lat
  | some i =>
    match s.run i.p i.run with
    | none => w.lat
    | some r => s.latOf i.p ((s.program i.p r.handle).elim 0 (fun g => g.descs.getD i.cmd 0))

/-- F of R145: bytes held and outstanding of an input, free space of an output; transfers that still wait at the point are
not yet outstanding, so F is updated at each grant (R146). -/
def State.fill (s : State) (w : Waiting) (st : Stream) : Nat :=
  let here := sumL ((s.waiting.filter (fun v => v.point == w.point && s.sidOf v == s.sidOf w)).map
    (fun v => if v.data = [] then 128 * pkLen v.header else v.data.length))
  if st.id % 8 < 4 then st.issuedBytes - st.popped - here else st.room - (st.popped - st.done)

/-- TTE of R145: 20 bits, saturating; a migration's is the largest (R167). -/
def State.tte (s : State) (w : Waiting) : Nat :=
  if w.migration then 1048575 else
  match s.streamOf w with
  | none => 1048575
  | some st => if st.rateNum = 0 then 1048575 else min 1048575 (s.fill w st * 1024 * 4 ^ st.rateExp / st.rateNum)

/-- The order of R146 among waiting transfers: TTE, then latency class, then the earlier request, then the queue id. -/
def State.deadlineKey (s : State) (w : Waiting) : Nat := ((s.tte w * 4 + s.latWaiting w) * 2 ^ 64 + w.since) * 1024 + w.qid

/-- The split of a partition at a point (R147). -/
def State.split (s : State) (k : Nat) : Split := sget (fun _ => Split.blank) s.splits k
def State.setSplit (s : State) (k : Nat) (x : Split) : State :=
  { s with splits := sput (fun _ => Split.blank) s.splits k x }

/-- One grant of fixed-split mode (R147): the class whose deficit is largest, read before write before remote; the classes
that wait gain their shares, and the class granted pays their sum.  The counts run over 256 grants. -/
def State.fixedGrant (s : State) (p pt : Nat) (l : List Waiting) : Option Waiting × State :=
  let k := pt * 32 + p
  let x := if (s.split k).grants < 256 then s.split k else { s.split k with read := 0, write := 0, remote := 0, grants := 0 }
  let has (c : Nat) : Bool := l.any (fun w => w.split == c)
  let sh (c : Nat) : Int := if has c then (s.reg (rArb p (2 + c)) : Int) else 0
  let tot := sh 0 + sh 1 + sh 2
  let d (c : Nat) : Int := (if c = 0 then x.read else if c = 1 then x.write else x.remote) + sh c
  let best := ((List.range 3).filter has).foldl (fun (b : Option Nat) c =>
    match b with
    | none => some c
    | some y => if d y < d c then some c else some y) none
  match best with
  | none => (none, s)
  | some c =>
    let pay (i : Nat) : Int := d i - (if i = c then tot else 0)
    let s := s.setSplit k { x with read := pay 0, write := pay 1, remote := pay 2, grants := x.grants + 1 }
    (argmin (fun w => w.since) (l.filter (fun w => w.split == c)), s.bump (rArb p 8) 1)

/-- The partition's arbiter at a point (R146, R147): fixed split by setting or while the estimate of a waiting stream is not
valid, else deadline order with AGE_LIMIT. -/
def State.arbitrate (s : State) (p pt : Nat) (l : List Waiting) : Option Waiting × State :=
  if p = 0 then (argmin (fun w => w.since) l, s)
  else if s.reg (rArb p 1) = 1 ∨ l.any (fun w => !w.migration && (s.streamOf w).any (fun x => !x.valid)) then s.fixedGrant p pt l
  else
    let aged := l.filter (fun w => decide (w.since + 1000 * s.reg (rArb p 5) < s.now))
    if aged = [] then (argmin s.deadlineKey l, s)
    else (argmin (fun w => w.since) aged, s.bump (rArb p 9) 1)

/-- Take a waiting transfer out of the list. -/
def State.unwait (s : State) (w : Waiting) : State := { s with waiting := s.waiting.erase w }

/-! ### Packets on the bands (R181–R186, R191) -/

/-- Where the packet of a waiting transfer sets out from and where it leaves the bands. -/
def State.endsOf (s : State) (w : Waiting) : Nat × Nat :=
  let a := s.arrivalDie w.header
  if w.back then (a, pkSrcDie w.header) else (pkSrcDie w.header, a)

/-- The stages that a waiting packet has before it; none when its destination is unreachable (R185). -/
def State.wayLeft (s : State) (w : Waiting) : Option (List (Nat × Bool × List Nat)) :=
  match w.hop with
  | some h => some h.stages
  | none => (s.routeOf (s.endsOf w).1 (s.endsOf w).2).map (fun r => r.legs.flatMap cutSeam)

/-- Whether a waiting packet is guaranteed on a stage (R191): a response on the same terms as its request. -/
def State.guardedOn (s : State) (w : Waiting) (st : Nat × Bool × List Nat) : Bool :=
  s.guaranteed w.p (s.latWaiting w) w.migration st

/-- Units of a packet: its header and its data (R187, R188). -/
def Waiting.units (w : Waiting) : Nat :=
  1 + (if (pkCmd w.header == 0x01) == w.back then pkLen w.header else 0)

/-- Whether a waiting packet may leave a switch on a ply and direction in the present slot (R182, R183): an owned slot carries
its partition's guaranteed units, an unowned slot any others, best-effort injection unless the switch holds it (R184). -/
def State.mayLeave (s : State) (n : Nat) (row down : Bool) (ply : Nat) (w : Waiting) : Bool :=
  match (s.wayLeft w).bind List.head? with
  | none => false
  | some st =>
    let band := bandAt n row
    let g := s.guardedOn w st
    st.1 == band && st.2.1 == down && w.hop.all (fun h => h.ply == ply && !h.full)
      && (match s.slotOwner band ply (linkNo band n down) down with
        | some p => g && w.p == p
        | none => !g && (w.hop.any Hop.seam || !s.held n (holdKey row ply down)))

/-- Count a packet of `u` units over a stage (R202): out of every switch on its way, and out of the last where it leaves the
band. -/
def State.countStage (s : State) (st : Nat × Bool × List Nat) (u : Nat) (last : Bool) : State :=
  (if last then st.2.2 else st.2.2.dropLast).foldl (fun s n => s.bump (rSwitch n (if st.1 < 8 then 1 else 2)) u) s

/-- The sidebands of a packet's units (R180). -/
def sidebands (h pkt units : Nat) : List Nat :=
  (List.range units).map (fun i =>
    field 1 31 31 + field (b2n (i == 0)) 30 30 + field (b2n (i + 1 == units)) 29 29 + field (pkSrcDie h) 27 22
      + field (pkSrcEng h) 21 18 + field pkt 17 15 + field (pkDstDie h) 14 9 + field (pkDstEng h) 8 5 + field (pkPart h) 4 0)

/-- The header and data of a waiting packet: its request's, or the response's. -/
def State.packetOf (s : State) (w : Waiting) : Nat × List Byte :=
  if w.back then
    let r := s.resps.find? (fun r => r.id == w.resp)
    (responseHead w.header (r.elim 0 Resp.status), if pkCmd w.header = 0x01 then r.elim [] Resp.data else [])
  else (w.header, w.data)

/-- A packet whose destination is unreachable is discarded (R185, R196). -/
def State.dropUnreachable (s : State) (n : Nat) (w : Waiting) : State :=
  ((s.unwait w).losePacket (s.packetOf w).1).bump (rSwitch n 0xB) 1

/-- A packet leaves its source (R180, R185): the route is recorded in its header and with its transaction or response. -/
def State.setOut (s : State) (w : Waiting) (r : Route) : State :=
  let k := s.packetOf w
  let path := r.legs.flatMap (fun l => l.2.2)
  let s := (s.emit (.packet (sidebands k.1 (Config.freeNat 3 s.drawn) w.units) (routed k.1 r) k.2)).draw
  if w.back then s.modResp w.resp (fun x => { x with path := path })
  else { s with xacts := updWhere (fun x => x.sends w.header) (fun x => { x with path := path }) s.xacts }

/-- A packet has left the last band of its way: a response is at its requester; a request arrives by its own command. -/
def State.arrived (s : State) (w : Waiting) : State := if w.back then s.modResp w.resp (fun x => { x with sent := true }) else s

/-- Whether a waiting packet stands in the turn buffer of a stage's ply, in the class of a partition or best-effort (R186). -/
def State.inTurn (s : State) (n : Nat) (st : Nat × Bool × List Nat) (ply : Nat) (p : Option Nat) (w : Waiting) : Bool :=
  w.point == .inject (Fin.ofNat 64 n) (decide (st.1 < 8)) && w.hop.any (fun h => !h.seam && !h.full && h.ply == ply
    && h.stages.head?.any (fun x => x.1 == st.1 && x.2.1 == st.2.1 && (match p with
      | some q => s.guardedOn w x && w.p == q
      | none => !s.guardedOn w x)))

/-- Units in a turn buffer of a class. -/
def State.turnUnits (s : State) (n : Nat) (st : Nat × Bool × List Nat) (ply : Nat) (p : Option Nat) : Nat :=
  sumL ((s.waiting.filter (s.inTurn n st ply p)).map Waiting.units)

/-- Entries of a turn buffer of 512 units: 2 × N for a reservation of N slots, the rest for best-effort units (R186). -/
def State.turnRoom (s : State) (st : Nat × Bool × List Nat) (ply : Nat) (p : Option Nat) : Nat :=
  match p with
  | some q => 2 * s.slotsOf q st.1 ply st.2.1
  | none => 512 - 2 * sumL ((List.range 17).map (fun q => s.slotsOf q st.1 ply st.2.1))

/-- The outgoing ply of a turn (R186): a guaranteed packet's reserved ply of lowest subindex, otherwise the ply with the fewest
queued units, ties to the lowest. -/
def State.turnPly (s : State) (n : Nat) (w : Waiting) (st : Nat × Bool × List Nat) : Nat :=
  if s.guardedOn w st then
    ((argmin Resv.entry (s.resv.filter (fun r => r.p == w.p && r.band == st.1 && r.down == st.2.1 && r.slots != []))).map
      Resv.ply).getD 0
  else (argmin (fun y => s.turnUnits n st y none * 12 + y) (List.range (if st.1 < 8 then 8 else 12))).getD 0

/-- A packet reaches the die where its next stage begins: behind a seam it waits in the transit buffer on its ply (R182), at a
turn it enters the turn buffer, or finds no entry and goes round the ring (R186). -/
def State.enterStage (s : State) (w : Waiting) (n ply : Nat) (seam : Bool) (rest : List (Nat × Bool × List Nat)) : State :=
  let st := rest.headD (0, false, [])
  let y := if seam then ply else s.turnPly n w st
  let cls := if s.guardedOn w st then some w.p else none
  let full := !seam && decide (s.turnRoom st y cls < s.turnUnits n st y cls + w.units)
  let s := if seam then s else s.bump (rSwitch n (if full then 7 else 3)) w.units
  let x : Waiting := { w with point := .inject (Fin.ofNat 64 n) (decide (st.1 < 8)), since := s.now, cycle := s.clock.cycles,
                              hop := some ⟨rest, y, seam, full⟩ }
  { s with waiting := s.waiting ++ [x] }

/-- The packets that found a turn buffer full enter it as they come round again, once there are entries (R186). -/
def State.admitTurns (s : State) (n : Nat) (row : Bool) : State :=
  let here := s.waiting.filter (fun w => w.point == .inject (Fin.ofNat 64 n) row && w.hop.any Hop.full)
  here.foldl (fun s w =>
    match w.hop with
    | none => s
    | some h =>
      let st := h.stages.headD (0, false, [])
      let cls := if s.guardedOn w st then some w.p else none
      if s.turnRoom st h.ply cls < s.turnUnits n st h.ply cls + w.units then s
      else
        let s := s.bump (rSwitch n 3) w.units
        { s with waiting := updWhere (fun v => v == w) (fun v => { v with hop := some { h with full := false } }) s.waiting }) s

/-- A waiting packet takes the slot (R182, R183, R185): it travels its stage, and arrives or waits where the next one begins. -/
def State.depart (s : State) (n : Nat) (row : Bool) (ply : Nat) (w : Waiting) : State :=
  let r := s.routeOf (s.endsOf w).1 (s.endsOf w).2
  match s.wayLeft w with
  | none | some [] => s
  | some (st :: rest) =>
    let s := s.unwait w
    let s := if w.hop.isNone then r.elim s (s.setOut w) else s
    let seam := rest.head?.any (fun x => x.1 == st.1)
    let s := s.countStage st w.units (!seam)
    let s := if rest = [] then s.arrived w else s.enterStage w (st.2.2.getLast?.getD n) ply seam rest
    s.admitTurns n row

/-- A packet between two stops of one die travels on its local band (R179). -/
def State.departLocal (s : State) (n : Nat) (w : Waiting) : State :=
  let k := s.packetOf w
  let a := localArc (localStop (pkSrcEng k.1)) (localStop (pkDstEng k.1))
  ((s.unwait w).emit (.localPacket n a.1 a.2 k.1 k.2)).arrived w

/-- Complete responses wait to leave for their requesters (R188). -/
def State.queueReady (s : State) : State :=
  let ready := s.resps.filter (fun r => r.left == 0 && !r.queued)
  let wait (r : Resp) : Waiting :=
    ⟨.inject (Fin.ofNat 64 (s.arrivalDie r.header)) false, pkPart r.header, r.header, [], r.id, none,
     if onPairLink r.header then 2 else if pkCmd r.header = 0x01 then 0 else 1, 2, pkQid r.header, s.now, false, s.clock.cycles,
     none, true⟩
  { s with waiting := s.waiting ++ ready.map wait
           resps := updWhere (fun r => r.left == 0) (fun r => { r with queued := true }) s.resps }

/-- One band cycle of waiting (R183, R202): a switch where a best-effort injection waits, a switch where units wait behind a
seam, and a partition whose guaranteed units wait for owned slots, each count it (log 109). -/
def State.countWaits (s : State) : State :=
  let at_ (w : Waiting) : Option (Nat × Waiting × Bool) :=
    match w.point with
    | .inject d _ => ((s.wayLeft w).bind List.head?).map (fun st => (d.val, w, s.guardedOn w st))
    | _ => none
  let l := s.waiting.filterMap at_
  let plain := ((l.filter (fun e => !e.2.2 && e.2.1.hop.isNone)).map (fun e => e.1)).eraseDups
  let seams := ((l.filter (fun e => e.2.1.hop.any Hop.seam)).map (fun e => e.1)).eraseDups
  let owners := ((l.filter (fun e => e.2.2)).map (fun e => e.2.1.p)).eraseDups
  let s := plain.foldl (fun s n => s.bump (rSwitch n 4) 1) s
  let s := seams.foldl (fun s n => s.bump (rSwitch n 8) 1) s
  owners.foldl (fun s p => s.bump (rBand p 0x29) 1) s

/-- One band cycle passes (R181, R405): the counters advance, and what waits at the switches has waited one more. -/
def State.bandCycle (s : State) : State := (s.queueReady.countWaits).tick

/-- A slot of a ply at a die's switch is free for a unit (R182–R186): a packet of the die itself goes by its local band, one whose
destination is unreachable is discarded, one in the transit buffer leaves first, and others leave in arrival order among
partitions and in the order of the partition's arbiter within one (R144). -/
def State.grantSlot (s : State) (point : Point) (n : Nat) (row down : Bool) (ply : Nat) : State :=
  let die (w : Waiting) : Bool := match w.point with
    | .inject d _ => d.val == n
    | _ => false
  let here := s.waiting.filter die
  match here.find? (fun w => w.hop.isNone && (s.wayLeft w).isNone), here.find? (fun w => s.wayLeft w == some []) with
  | some w, _ => s.dropUnreachable n w
  | none, some w => s.departLocal n w
  | none, none =>
    if (row && decide (48 ≤ n)) || decide ((if row then 8 else 12) ≤ ply) then s else
    let l := here.filter (s.mayLeave n row down ply)
    match argmin (fun w => w.since) (l.filter (fun w => w.hop.any Hop.seam)), argmin (fun w => w.since) l with
    | some w, _ => s.depart n row ply w
    | none, none => s
    | none, some e =>
      let t := s.arbitrate e.p (pointNum point) (l.filter (fun w => w.p == e.p))
      match t.1 with
      | none => s
      | some w => t.2.depart n row ply w

/-- STARVE_REQUEST (R184): a best-effort injection has waited 512 band cycles; its switch sends the request on the same ply in
the opposite direction, and counts it. -/
def execStarveRequest (switch : DieN) (row : Bool) (ply : Fin 12) (down : Bool) (s : State) : Res :=
  let n := switch.val
  let starves (w : Waiting) : Bool := (match w.point with
      | .inject d _ => d.val == n
      | _ => false)
    && w.hop.isNone && decide (w.cycle + 512 ≤ s.clock.cycles)
    && ((s.wayLeft w).bind List.head?).any (fun st => st.1 == bandAt n row && st.2.1 == down && !s.guardedOn w st)
  .next (
    if s.waiting.any starves then (s.emit (.starve n (bandAt n row) ply.val (!down))).bump (rSwitch n 5) 1 else s)

/-- The words of a waiting channel access that its channel serves. -/
def State.channelWords (s : State) (w : Waiting) (m ch : Nat) : List WordAcc :=
  let h := w.header
  let all :=
    if pkCmd h = 0x01 then readWords (pkAddress h) (pkLen h)
    else if pkCmd h = 0x03 then
      inlineWords (pkAddress h) (pkByteEn h) ((leBytes 64 (pkInline h)).take (pkInlineLen h))
    else writeWords (pkAddress h) w.data
  all.filter (fun a => s.channelOf w.p a.addr == some (m, ch))

/-- The partition whose turn it is at a channel (R144): weighted round robin by HBM_WEIGHT over those that wait. -/
def State.channelTurn (s : State) (pt : Nat) (l : List Waiting) : Option Nat × State :=
  let x := s.split (pt * 32)
  let waits (p : Nat) : Bool := l.any (fun w => w.p == p)
  if waits x.turn && decide (0 < x.left) then (some x.turn, s.setSplit (pt * 32) { x with left := x.left - 1 })
  else
    match ((List.range 17).map (fun i => (x.turn + 1 + i) % 17)).find? waits with
    | none => (none, s)
    | some p =>
      let weight := if p = 0 then 16 else s.reg (rArb p 7)
      (some p, s.setSplit (pt * 32) { x with turn := p, left := weight - 1 })

/-- DMA of a confidential partition is issued only within its function's IDE stream (R260). -/
def State.dmaOpen (s : State) (p : Nat) : Bool :=
  s.reg (rConfidential p) == 0 || (s.fn (s.fnOf p)).ide.live.isSome

/-- ARBITRATION_GRANT (R144, R146, R147, R183): the point grants one waiting transfer; at a band's injection port in the present
slot of a ply and direction.  `ecc` are single-bit errors corrected on the way (R196). -/
def execArbitrationGrant (point : Point) (down : Bool) (ply : Fin 12) (ecc : List (DieN × W32)) (s : State) : Res :=
  let s := s.queueReady
  let here := s.waiting.filter (fun w => w.point == point)
  let pt := pointNum point
  .next (
    match point with
    | .inject d row => (s.bumpSwitches 9 ecc).grantSlot point d.val row down ply.val
    | .channel m ch =>
      let q := s.channelTurn pt here
      match q.1 with
      | none => s
      | some p =>
        let t := q.2.arbitrate p pt (here.filter (fun w => w.p == p))
        match t.1 with
        | none => s
        | some w =>
          let ws := t.2.channelWords w m.val ch.val
          let s := (t.2.unwait w).bump (rStack m.val (0x40 + ch.val)) 1
          s.setJobs m.val ch.val (s.jobs m.val ch.val ++ [⟨p, w.resp, pkCmd w.header != 0x01, ws⟩])
    | .host f =>
      let here := here.filter (fun w => s.dmaOpen w.p)
      match argmin (fun w => w.since) here with
      | none => s
      | some e =>
        let t := s.arbitrate e.p pt here
        match t.1 with
        | none => s
        | some w =>
          let s := t.2.unwait w
          if pkCmd w.header = 0x01 then s.emit (.hostRead f (pkAddress w.header / 128 * 128) (128 * pkLen w.header))
          else (s.hostWrite (pkAddress w.header) w.data).modResp w.resp (fun r => { r with left := 1 }))

/-! ### Arrival, settling and timeouts (R131, R134, R195–R198) -/

/-- The late-error record of a command's fire-forward writes (R198). -/
def ffRecord (x : FfTrack) : List Byte :=
  recordBytes
    { cmdSeq := x.cmdSeq, runSeq := x.runSeq, status := x.status, kind := 2, late := true, guarded := false, stallCause := 0xF,
      detail := 0, failed := x.bad, desc := x.desc, start := x.firstAt, finish := x.last, energy := 0, errQid := x.qid,
      stallCycles := 0, used := x.used }

/-- The record's PSA_VALID is 0 in a late-error record (R198). -/
def clearPsa (bs : List Byte) : List Byte :=
  splice bs 9 [BitVec.ofNat 8 ((bs.getD 9 0).toNat - 8 * ((bs.getD 9 0).toNat / 8 % 2))]

/-- A command whose fire-forward writes are all resolved after it completed (R197, R198): FF_OPEN falls, and a failure gives
one late-error record. -/
def State.ffSettle (s : State) (p : Nat) (x : FfTrack) : State :=
  if x.completed && x.opened == 0 then
    let s := s.modPr p (fun r => { r with ff := r.ff.filter (fun t => !(t.runSeq == x.runSeq && t.cmdSeq == x.cmdSeq)) })
    if x.bad = 0 then s else s.writeLate p (clearPsa (ffRecord x))
  else s

/-- One fire-forward write resolved with a status (R197): by the partner's SETTLE, a timeout, or the loss of its group. -/
def State.ffResolve (s : State) (h status issuedAt : Nat) : State :=
  let p := pkPart h
  match (s.prn p).ff.find? (fun t => t.matches h) with
  | none => s
  | some t =>
    let t' := { t with opened := t.opened - 1, last := s.now }
    let t' := if status = 0 then t' else
      { t' with bad := setBit t'.bad (pkOrig h) true, status := max t'.status status,
                firstAt := if t'.bad = 0 then issuedAt else t'.firstAt, qid := if t'.bad = 0 then pkQid h else t'.qid }
    let s := s.modPr p (fun x => { x with ff := updWhere (fun y => y.matches h) (fun _ => t') x.ff })
    let s := if t.completed && t'.opened == 0 then s.setReg (rBand p 0x26) (s.reg (rBand p 0x26) - 1) else s
    s.ffSettle p t'

/-- Bytes of a read that its poisoned units cover, as spans of the item (R196, R219). -/
def badSpans (x : Xact) (bad : List Nat) : List (Nat × Nat) :=
  let off := pkAddress x.header % 128
  bad.filterMap (fun u =>
    let lo := max (128 * u) off
    let hi := min (128 * u + 128) (off + x.count)
    if lo < hi then some (x.first + (lo - off), hi - lo) else none)

/-- A failure that a transfer of a stream brings its part (R6); what a replay reads fails its replay part, and what a duplicate
reads its original reads too (R230, R236). -/
def Cmd.failAt (c : Cmd) (id die code qid : Nat) : Cmd :=
  if id < 128 then c.fail die code qid
  else { c with replays := updWhere (fun x => x.die == die) (fun x => { x with fails := x.fails ++ [code] }) c.replays }

/-- Units of a migrating copy have arrived at its destination (R164, R175). -/
def State.migrated (s : State) (x : Xact) (bad : List Nat) : State :=
  let p := pkPart x.header
  let s := s.modPr p (fun r => { r with migs := updWhere (fun g => g.dst == x.die)
                                          (fun g => { g with left := g.left - 1, bad := g.bad || bad != [] }) r.migs })
  s.bump (rBlk p 0x18) x.count

/-- A read's data delivered in its place (R131), its poisoned units marked; a stream that its command has given up discards it
(R152). -/
def State.deliver (s : State) (x : Xact) (data : List Byte) (bad : List Nat) (status : Nat) : State :=
  match x.stream with
  | none => if x.migration then s.migrated x bad else s
  | some i =>
    s.modCmd i.p i.run i.cmd (fun c =>
      if (c.stream i.fin i.die).isNone then c else
      let c := c.modEnd i.fin (fun e =>
        { e with data := splice e.data x.first (slice data (pkAddress x.header % 128) x.count),
                 bad := e.bad ++ badSpans x bad })
      let c := c.modStream i.fin i.die (fun y => y.arrive x.first)
      let c := if status = 0 then c else c.failAt i.fin i.die status (pkQid x.header)
      c.settleEnd i.fin)

/-- A write settled with a status (R195). -/
def State.settled (s : State) (x : Xact) (status : Nat) : State :=
  match x.stream with
  | none => s
  | some i =>
    s.modCmd i.p i.run i.cmd (fun c =>
      let c := { c.modStream i.fin i.die (fun y => y.arrive x.first) with settledAt := s.now }
      if status = 0 then c else c.fail i.die status (pkQid x.header))

/-- The transaction of an engine under a tag. -/
def State.xact (s : State) (die eng tag : Nat) : Option Xact :=
  s.xacts.find? (fun x => x.die == die && x.eng == eng && x.tag == tag)

/-- A response has reached its requester. -/
def State.takeResp (s : State) (r : Resp) : State := { s with resps := s.resps.filter (fun x => x.id != r.id) }

/-- The response for an engine's tag, a read's or a write's, that has crossed the bands. -/
def State.readyResp (s : State) (die eng tag : Nat) (read : Bool) : Option Resp :=
  s.resps.find? (fun r => r.sent && pkSrcDie r.header == die && pkSrcEng r.header == eng && pkTag r.header == tag
    && ((pkCmd r.header == 0x01) == read))

/-- The pair-link engine answers a request of the partner that it had passed on (R335): the response returns through the
group that carried the request, under the partner's partition number. -/
def State.pairAnswer (s : State) (x : Xact) (status : Nat) (data : List Byte) : State :=
  match x.link with
  | some (g, true) =>
    let h := setBits (responseHead x.header status) 260 256 (s.reg (key (0x5800 + pkPart x.header) 3))
    s.pairSend g (setBits h 266 266 1) data
  | _ => s

/-- A response at its requester (R195, R196, R268): for no outstanding transaction it is stale and discarded; for one of an
old epoch it ends that transaction with TENANT_GONE. -/
def State.respond (s : State) (die eng tag : Nat) (act : Xact → State → State) : State :=
  match s.xact die eng tag with
  | none => s.bump (rSwitch die 0xD) 1
  | some x =>
    let s := { s with xacts := s.xacts.erase x }
    let p := pkPart x.header
    if p ≠ 0 ∧ x.epoch ≠ s.reg (rEpoch p) % 256 then
      let s := s.bump (key (0x5200 + p) 6) 1
      match x.stream with
      | none => s.pairAnswer x 0x30 []
      | some i => s.modCmd i.p i.run i.cmd (fun c => c.fail i.die 0x30 (pkQid x.header))
    else act x s

/-- READ_DATA (R188, R196): the units reach the requester, those lost on the way poisoned. -/
def execReadData (die : DieN) (eng : Fin 16) (tag : BitVec 16) (lost : List (Fin 32)) (s : State) : Res :=
  .next (
    match s.readyResp die.val eng.val tag.toNat true with
    | none => s
    | some r =>
      let s := (s.takeResp r).bump (rSwitch die.val 0xA) lost.length
      s.respond die.val eng.val tag.toNat (fun x s =>
        let bad := r.bad ++ lost.map Fin.val
        (s.deliver x r.data bad r.status).pairAnswer x (if r.status = 0 ∧ bad ≠ [] then 0x20 else r.status) r.data))

/-- SETTLE (R195). -/
def execSettle (die : DieN) (eng : Fin 16) (tag : BitVec 16) (s : State) : Res :=
  .next (
    match s.readyResp die.val eng.val tag.toNat false with
    | none => s
    | some r => (s.takeResp r).respond die.val eng.val tag.toNat (fun x s =>
        (s.settled x r.status).pairAnswer x r.status []))

/-- XACT_TIMEOUT in ns of the transaction's partition; milliner traffic takes the default (R196, R201). -/
def State.xactLimit (s : State) (p : Nat) : Nat := 1000 * (if p = 0 then 100 else s.reg (rBand p 0x23))

/-- XACT_TIMEOUT (R196, R197): the transaction ends at its source, and its tag is retired. -/
def execXactTimeout (die : DieN) (eng : Fin 16) (tag : BitVec 16) (s : State) : Res :=
  .next (
    match s.xact die.val eng.val tag.toNat with
    | none => s
    | some x =>
      let lim := s.xactLimit (pkPart x.header)
      let s := s.reach (x.at_ + lim)
      let gone : Retired := ⟨x.die, x.eng, x.tag, s.now + 2 * lim⟩
      let kept := s.retired.filter (fun (r : Retired) => decide (s.now < r.till))
      let ws := s.waiting.filter (fun w => !(w.stream.isSome && w.stream == x.stream && w.header == x.header))
      let s := { s with xacts := s.xacts.erase x, waiting := ws, retired := kept ++ [gone] }
      let s := s.bump (rSwitch die.val 0xC) 1
      if x.link.any (fun l => l.2) then s.pairAnswer x (if pkCmd x.header = 0x01 then 0x20 else 0x21) []
      else if pkCmd x.header = 0x04 then s.ffResolve x.header 0x21 x.at_
      else if pkCmd x.header = 0x01 then s.deliver x [] (allUnits x.header) 0
      else s.settled x 0x21)

/-- A reason of R143 can hold of a stream: its producer's for an internal queue, a transfer's where transfers feed it. -/
def Stream.lateFits (x : Stream) (reason : Nat) : Bool :=
  if reason = 0 then x.home == 3 else if reason = 8 then true else x.home != 3 || x.back.isSome

/-- RATE_WINDOW (R142, R143, R145): the window ends, after the last bytes popped or pushed in it and the last arrivals; its
count enters the estimate, and the late cycles of the queue their reasons. -/
def execRateWindow (c : CmdRef) (fin : Fin 256) (die : DieC) (popped back : W32) (late : List (Fin 10 × W32)) (s : State) : Res :=
  let s := s.onStream c fin.val die.val (fun s f st => s.popStream f c st popped.toNat back.toNat)
  .next (s.onStream c fin.val die.val (fun s f st =>
    let s := s.modRef c (fun x => x.modStream fin.val die.val Stream.window)
    (late.filter (fun e => st.lateFits e.1.val)).foldl (fun s e =>
      s.monitor f.p (sQid (endSlot f.prog.descs f.cmd.idx fin.val)) (0x10 + e.1.val) e.2.toNat) s))

/-- An MCLK change invalidates the estimates of all a partition's streams (R145, R148). -/
def State.spoilRates (s : State) (p : Nat) : State :=
  s.modPr p (fun r => { r with runs := r.runs.map (fun x => { x with cmds := x.cmds.map (fun c =>
    { c with streams := c.streams.map Stream.spoil }) }) })

/-! ### Host completions of the data path (R350) -/

/-- The host read of a function that waits under a tag: its response is still open and no longer waits at the port. -/
def State.hostResp (s : State) (f : Fn) (tag : Nat) : Option Resp :=
  s.resps.find? (fun r => r.left == 1 && pkCmd r.header == 0x01 && pkDstDie r.header == hostPortDie f.port.val
    && pkDstEng r.header == 2 && decide (s.fnOf (pkPart r.header) = f) && pkTag r.header == tag
    && !s.waiting.any (fun w => w.resp == r.id && w.point == .host f))

/-- HOST_READ_COMPLETION (R350): the data of a host read, or every unit poisoned on UR, CA, a poisoned TLP or a completion
timeout. -/
def execHostReadCompletion (f : Fn) (tag : BitVec 16) (c : Cpl) (data : List Byte) (s : State) : Res :=
  .next (
    match s.hostResp f tag.toNat with
    | none => s
    | some r =>
      s.modResp r.id (fun x =>
        if c = .ok then { x with left := 0, data := splice x.data 0 data }
        else { x with left := 0, bad := allUnits x.header }))

end Sys2Proof.Machine
end

