-- ==== Sys2Proof/Machine/Verifier.lean ====
section
/-! DEFINITION. The program verifier (R118–R123): every check of the image, in the order that R118 gives. -/

namespace Sys2Proof.Machine

/-- What the verifier must know of the partition: whether pinning is enabled, its dies as a mask, and for each collective
group its member count when the partition is a member (0 otherwise). -/
structure VerifyEnv where
  pin : Bool
  dies : Nat
  members : Nat → Nat

/-- A rejection at a descriptor, with no slot or queue. -/
def rejectAt (detail desc : Nat) : LoadResult := ⟨0x50, detail, 0xFF, 0x3FF, desc, 0xFFFF⟩
def rejectSlot (detail desc slot : Nat) : LoadResult := ⟨0x50, detail, slot, 0x3FF, desc, 0xFFFF⟩
def loadDone : LoadResult := ⟨0, 0, 0xFF, 0x3FF, 0xFFFF, 0xFFFF⟩

/-- The first of a list of checks that fails. -/
def firstFail (l : List (Option LoadResult)) : Option LoadResult := l.findSome? id

/-- Report `r` when `b` holds. -/
def failIf (b : Bool) (r : LoadResult) : Option LoadResult := if b then some r else none

/-! ### Opcodes, slots and formats (R86) -/

/-- The opcodes of R86. -/
def opDefined (op : Nat) : Bool :=
  [0x00, 0x01, 0x02, 0x03, 0x04, 0x10, 0x11, 0x12, 0x13, 0x14, 0x15, 0x16, 0x20, 0x21, 0x30, 0x31, 0x32, 0x33, 0x40, 0x41,
   0x42, 0x43, 0x50, 0x60].contains op

/-- Slots that must be used, and slots that may be used, as masks over slots 0–7 (R86). -/
def slotsOf (op sub : Nat) : Nat × Nat :=
  match op with
  | 0x03 => (0x01, 0x01)
  | 0x10 | 0x11 | 0x32 | 0x33 | 0x40 | 0x41 | 0x42 | 0x43 => (0x11, 0x11)
  | 0x12 | 0x13 | 0x20 | 0x21 => (0x13, 0x13)
  | 0x14 => (0x17, 0x17)
  | 0x15 => (0x01, 0xF1)
  | 0x16 => (0x10, 0x10)
  | 0x30 => (0x11, 0x13)
  | 0x31 => if sub = 4 then (0x17, 0x17) else if sub = 5 then (0x13, 0x13) else (0x11, 0x11)
  | 0x50 => (0x00, 0xFF)
  | _ => (0x00, 0x00)

/-- Whether SUBOP holds a value that the opcode defines (R86, 0x14). -/
def subopOk (op sub : Nat) : Bool :=
  match op with
  | 0x01 | 0x02 | 0x03 => decide (sub < 16)
  | 0x12 => decide (sub ≤ 1)
  | 0x20 | 0x21 =>
    let hi := sub / 16
    match sub % 16 with
    | 0 => hi == 0
    | 1 => hi == 2 || hi == 3
    | 2 => decide (1 ≤ hi ∧ hi ≤ 8)
    | _ => false
  | 0x30 => decide (sub ≤ 1)
  | 0x31 => decide (sub ≤ 5)
  | 0x32 | 0x40 | 0x42 => decide (sub ≤ 2)
  | 0x60 => decide (1 ≤ sub ∧ sub ≤ 8)
  | _ => sub == 0

/-- The immediates that hold the lane operations of a chain, as one number (R88). -/
def chainImm (d : Nat) : Nat := bits d 959 768

/-- The lane operation codes of R88. -/
def lopOk (op : Nat) : Bool := decide (op ≤ 0x0E) || decide (0x10 ≤ op ∧ op ≤ 0x1A)

/-- Whether an immediate lies in its range, and the group is defined (0x15). -/
def immOk (env : VerifyEnv) (d : Nat) : Bool :=
  let op := dOpcode d
  match op with
  | 0x21 => decide (1 ≤ dImm d 0 ∧ dImm d 0 ≤ 65535)
  | 0x33 => decide (1 ≤ dImm d 0 ∧ dImm d 0 ≤ 65535)
  | 0x30 =>
    let ch := chainOf (chainImm d)
    let work := if dSubop d % 2 = 1 then 0x0B else 0x0A
    ch.all (fun o => lopOk o.op) && !(ch.length == 16 && sFormat (dSlot d 4) != work)
  | 0x40 | 0x41 | 0x42 => env.members (dImm d 0 % 16) != 0
  | 0x43 => decide (dImm d 1 < env.members (dImm d 0 % 16))
  | _ => true

/-- The first slot at fault under 0x16. -/
def slotFault (d : Nat) : Option Nat :=
  let op := dOpcode d
  let sl := slotsOf op (dSubop d)
  let bad := (List.range 8).find? (fun i =>
    let x := dSlot d i
    (bit sl.1 i && !sUsed x) || (!bit sl.2 i && sUsed x) || (!sUsed x && x != 0))
  match bad with
  | some i => some i
  | none =>
    if op = 0x15 ∧ (outSlots d).length < 2 then some 0xFF
    else if op = 0x50 ∧ usedSlots d = [] then some 0xFF
    else if op = 0x30 ∧ !sUsed (dSlot d 1) ∧
        (chainOf (chainImm d)).any (fun o =>
          (o.a == 1) || (o.b == 1 && ([0x01, 0x02, 0x03, 0x04, 0x05, 0x06, 0x0A, 0x0B, 0x0C, 0x0D, 0x0E].contains o.op))
            || (o.c == 1 && (o.op == 0x04 || o.op == 0x0D))) then some 1
    else none

/-- The class of a matrix operand by its format (R21): 1 E4M3/E5M2, 2 MXFP8/6, 3 MXFP4, 4 BF16, 5 FP16, 6 INT8, 7 INT4. -/
def matClass (f : Fmt) : Nat :=
  match f with
  | .e4m3 | .e5m2 => 1
  | .mx8e4m3 | .mx8e5m2 | .mx6e3m2 | .mx6e2m3 => 2
  | .mx4 => 3
  | .bf16 => 4
  | .fp16 => 5
  | .int8 | .uint8 => 6
  | .int4 | .uint4 => 7
  | _ => 0

/-- The operand pairs of R21. -/
def matPair (sub : Nat) (a b : Fmt) : Bool :=
  match sub % 4 with
  | 1 => a == .fp32 && b == .fp32
  | 2 => (a == .fp32 || a == .fp64) && (b == .fp32 || b == .fp64)
  | _ =>
    let x := matClass a
    let y := matClass b
    x != 0 && y != 0 && (x == y || (x == 2 && y == 3) || (x == 3 && y == 2) || (x == 6 && y == 7) || (x == 7 && y == 6))

/-- IN0's format belongs to some operand pair of a matrix operation (R21, R86). -/
def matFirst (sub : Nat) (a : Fmt) : Bool :=
  match sub % 4 with
  | 1 => a == .fp32
  | 2 => a == .fp32 || a == .fp64
  | _ => matClass a != 0

/-- The first slot whose format the operation does not accept (0x19), if any.  Of a pair of formats that R21 does not list,
IN0 is at fault when no pair holds its format, and otherwise IN1 (log 99). -/
def formatFault (d : Nat) : Option Nat :=
  let f := fun i => sFmt (dSlot d i)
  match dOpcode d with
  | 0x03 => if f 0 = .int32 then none else some 0
  | 0x10 => if f 0 = f 4 then none else some 4
  | 0x15 => ((outSlots d).find? (fun e => sFormat e.2 != sFormat (dSlot d 0))).map (·.1)
  | 0x13 | 0x14 => if f 1 = .int32 then none else some 1
  | 0x20 | 0x21 => if matPair (dSubop d) (f 0) (f 1) then none else if matFirst (dSubop d) (f 0) then some 1 else some 0
  | 0x30 => if dSubop d % 2 = 1 ∧ (chainOf (chainImm d)).any (fun o => decide (0x10 ≤ o.op)) then some 0xFF else none
  | 0x33 => if f 0 = .int32 ∨ f 0 = .int48 then none else some 0
  | _ => none

/-- Rows of one problem of an operand, as used (R87). -/
def problemShape (x b : Nat) : Nat × Nat :=
  let r := sRows x / b
  if sTransposed x then (sCols x, r) else (r, sCols x)

/-- Whether the shapes of the slots agree (0x1A). -/
def shapesOk (env : VerifyEnv) (d : Nat) : Bool :=
  let s := fun i => sShape (dSlot d i)
  let i0 := s 0
  let i1 := s 1
  let o := s 4
  match dOpcode d with
  | 0x03 => i0 == (1, 1)
  | 0x10 => o == i0
  | 0x11 => decide (dImm d 0 + o.1 ≤ i0.1 ∧ dImm d 1 + o.2 ≤ i0.2)
  | 0x12 =>
    if dSubop d = 0 then i0.2 == i1.2 && o == (i0.1 + i1.1, i0.2) else i0.1 == i1.1 && o == (i0.1, i0.2 + i1.2)
  | 0x13 => i1.1 == 1 && o == (i1.2, i0.2)
  | 0x14 => i1 == (1, i0.1) && i0.2 == (s 2).2 && o == s 2
  | 0x15 => (outSlots d).all (fun e => sShape e.2 == i0)
  | 0x20 => i0.2 == i1.1 && o == (i0.1, i1.2)
  | 0x21 =>
    let b := dImm d 0
    let x := problemShape (dSlot d 0) b
    let y := problemShape (dSlot d 1) b
    sRows (dSlot d 0) % b == 0 && sRows (dSlot d 1) % b == 0 && x.2 == y.1 && o == (b * x.1, y.2)
  | 0x30 => o == i0 && (!sUsed (dSlot d 1) || i1 == i0 || i1 == (1, i0.2) || i1 == (i0.1, 1))
  | 0x31 =>
    let k := dSubop d
    decide (i0.2 ≤ 1024) && (decide (k < 4) || i1 == (1, i0.2)) && (k != 4 || s 2 == (1, i0.2))
      && o == (if k < 3 then (i0.1, 1) else i0)
  | 0x32 => o == (1, i0.2)
  | 0x33 => o == i0 && decide (i0.1 * i0.2 ≤ 131072)
  | 0x40 | 0x43 => o == i0
  | 0x41 => o == (env.members (dImm d 0 % 16) * i0.1, i0.2)
  | 0x42 =>
    let g := env.members (dImm d 0 % 16)
    i0.1 % g == 0 && o == (i0.1 / g, i0.2)
  | _ => true

/-- Stationary bytes per chunk (R41, R121). -/
def chunkBytes (d : Nat) : Nat :=
  let sub := dSubop d
  match sub % 4 with
  | 1 => 32768 * (sub / 16)
  | 2 => 16384 * (sub / 16)
  | _ =>
    match sFmt (dSlot d 0) with
    | .mx8e4m3 | .mx8e5m2 => 16896
    | .mx6e3m2 | .mx6e2m3 => 12800
    | .mx4 => 8704
    | .int4 | .uint4 => 8192
    | .bf16 | .fp16 => 32768
    | _ => 16384

/-- K of a matrix operation. -/
def matK (d : Nat) : Nat :=
  if dOpcode d = 0x21 then (problemShape (dSlot d 0) (dImm d 0)).2 else (sShape (dSlot d 0)).2

/-- The stationary data of one m-block fit the staging area (R121). -/
def stagingOk (d : Nat) : Bool :=
  if dOpcode d = 0x20 ∨ dOpcode d = 0x21 then decide (cdiv (matK d) 128 * chunkBytes d ≤ 4194304) else true

/-! ### Fused commands (R99, R100) -/

/-- For each descriptor, the index of the fused head whose stage it is by position (R120, 0x1D). -/
def stageHeads : Nat → List Nat → List (Option Nat)
  | _, [] => []
  | i, d :: ds =>
    let rec stages (head : Nat) : Nat → List Nat → Nat → List (Option Nat)
      | _, [], _ => []
      | j, e :: es, 0 =>
        if dOpcode e = 0x60 ∧ subopOk 0x60 (dSubop e) then none :: stages j (j + 1) es (dSubop e)
        else none :: stages head (j + 1) es 0
      | j, _ :: es, n + 1 => some head :: stages head (j + 1) es n
    stages i i (d :: ds) 0

/-- Whether a stage descriptor obeys R99. -/
def stageOk (head d : Nat) : Bool :=
  let fam := dOpcode d / 16
  (fam == 1 || fam == 2 || (fam == 3 && dOpcode d != 0x33) || fam == 5) && dSeq d == dSeq head && dNdep d == 0
    && !dPredEn d && !dRec d && !dReplay d && !dIrq d && !dPin d && dAffinity d == 0 && !dHeavyAhead d
    && dHeavyLead d == 0 && dLatClass d == 0

/-- Links of a fused command: (stage index, slot number, slot). -/
def linkEnds (descs : List Nat) (heads : List (Option Nat)) (head : Nat) (out : Bool) : List (Nat × Nat × Nat) :=
  ((descs.zip heads).mapIdx (fun i e => (i, e))).flatMap (fun e =>
    if e.2.2 = some head then
      ((if out then outSlots e.2.1 else inSlots e.2.1).filter (fun x => sLink x.2)).map (fun x => (e.1, x.1, x.2))
    else [])

/-- The link check of one slot of a stage (0x1E). -/
def linkFault (descs : List Nat) (heads : List (Option Nat)) (i slot x : Nat) : Option LoadResult :=
  match heads.getD i none with
  | none => some (rejectSlot 0x1E i slot)
  | some h =>
    let push := (linkEnds descs heads h true).filter (fun e => sQid e.2.2 == sQid x)
    let pop := (linkEnds descs heads h false).filter (fun e => sQid e.2.2 == sQid x)
    match push, pop with
    | [p], [c] =>
      if sQid x > 7 ∨ c.1 ≤ p.1 then some (rejectSlot 0x1E i slot)
      else if sFormat p.2.2 = sFormat c.2.2 ∧ sRows p.2.2 = sRows c.2.2 ∧ sCols p.2.2 = sCols c.2.2 then none
      else if slot < 4 then some ⟨0x50, 0x1E, slot, sQid x, i, 0xFFFF⟩ else none
    | _, _ => some (rejectSlot 0x1E i slot)

/-! ### The descriptor checks (R120) -/

/-- The reserved fields of a descriptor. -/
def dReserved (d : Nat) : Bool :=
  bits d 255 240 != 0 || bits d 231 230 != 0 || bits d 215 212 != 0 || bits d 207 203 != 0 || bits d 31 28 != 0
    || bits d 23 22 != 0

/-- Every check of one descriptor, in ascending subcode. -/
def checkDescriptor (env : VerifyEnv) (descs : List Nat) (heads : List (Option Nat)) (i : Nat) : Option LoadResult :=
  let d := descs.getD i 0
  let at_ := fun c => rejectAt c i
  let op := dOpcode d
  let used := usedSlots d
  let slotCheck := fun (c : Nat) (bad : Nat × Nat → Bool) => (used.find? bad).map (fun e => rejectSlot c i e.1)
  firstFail [
    failIf (!opDefined op) (at_ 0x10),
    failIf (dReserved d) (at_ 0x11),
    slotCheck 0x11 (fun e => bits e.2 23 20 != 0),
    failIf (decide (dNdep d > 4)) (at_ 0x12),
    failIf ((!dPredEn d && (dPredCtr d != 0 || dPredCmp d != 0 || dPredSense d))
      || (!dPin d && (dPinDie d != 0 || dPinTiles d != 0))
      || (dPin d && (!env.pin || !bit env.dies (dPinDie d) || decide (dPinDie d ≥ 48) || dPinTiles d == 0))) (at_ 0x13),
    failIf (!subopOk op (dSubop d)) (at_ 0x14),
    failIf (!immOk env d) (at_ 0x15),
    (slotFault d).map (fun sl => rejectSlot 0x16 i sl),
    slotCheck 0x17 (fun e => sRows e.2 == 0 || sCols e.2 == 0),
    slotCheck 0x18 (fun e => (fmtOf (sFormat e.2)).isNone),
    (formatFault d).map (fun sl => rejectSlot 0x19 i sl),
    failIf (!shapesOk env d) (at_ 0x1A),
    slotCheck 0x1B (fun e => sTransposed e.2 && (decide (4 ≤ e.1) || (op / 16 == 1 && fmtMx (sFmt e.2)))),
    failIf (!stagingOk d) (rejectSlot 0x1C i 0),
    match heads.getD i none with
    | some h => failIf (!stageOk (descs.getD h 0) d) (at_ 0x1D)
    | none =>
      -- a descriptor that is no stage, a head among them, may not carry the SEQ of a fused head beside it
      let fused := (idxs descs.length (fun j => j != i && (heads.getD j none).isNone && dOpcode (descs.getD j 0) == 0x60)).map
        (fun j => dSeq (descs.getD j 0))
      failIf ((op == 0x60 && decide (i + dSubop d ≥ descs.length)) || fused.contains (dSeq d)) (at_ 0x1D),
    firstFail ((used.filter (fun e => sLink e.2)).map (fun e => linkFault descs heads i e.1 e.2))]

/-! ### The program checks (R122, R123) -/

/-- The nodes reachable from a list of nodes by one or more steps of a successor function, with those given as seen: each node
is followed once (fuel: two more than the number of nodes). -/
def reachable (succ : Nat → List Nat) : Nat → List Nat → List Nat → List Nat
  | 0, _, seen => seen
  | _ + 1, [], seen => seen
  | fuel + 1, x :: todo, seen =>
    let new := ((succ x).filter (fun y => !seen.contains y && !todo.contains y)).eraseDups
    reachable succ fuel (todo ++ new) (seen ++ new)

/-- The commands: descriptors that are no stage, by index. -/
def commandIdx (heads : List (Option Nat)) : List Nat := idxs heads.length (fun i => (heads.getD i none).isNone)

/-- The command a descriptor belongs to: itself, or its fused head. -/
def ownerOf (heads : List (Option Nat)) (i : Nat) : Nat := (heads.getD i none).getD i

/-- Queue ends of the program: (queue, descriptor, slot number, slot), by descriptor and slot. -/
def queueEnds (descs : List Nat) (out : Bool) : List (Nat × Nat × Nat × Nat) :=
  (descs.mapIdx (fun i d => (i, d))).flatMap (fun e =>
    ((if out then outSlots e.2 else inSlots e.2).filter (fun x => !sLink x.2)).map (fun x => (sQid x.2, e.1, x.1, x.2)))

/-- The first end that repeats a queue of an earlier end, with that earlier end. -/
def dupEnd : List (Nat × Nat × Nat × Nat) → List (Nat × Nat × Nat × Nat) → Option ((Nat × Nat × Nat × Nat) × (Nat × Nat × Nat × Nat))
  | _, [] => none
  | seen, e :: es =>
    match seen.find? (fun x => x.1 == e.1) with
    | some x => some (e, x)
    | none => dupEnd (seen ++ [e]) es

/-- Counters that a command writes, and that its predicate reads (R94, R96). -/
def ctrWrites (d : Nat) : List Nat := if 1 ≤ dOpcode d ∧ dOpcode d ≤ 3 then [dSubop d % 16] else []
def ctrReads (header d : Nat) : List Nat :=
  if dPredEn d then
    let c := hCmp header (dPredCmp d)
    dPredCtr d :: (if bit c 4 then [bits c 11 8] else [])
  else []

/-- Every program check, in ascending subcode (R122, R123; log 98). -/
def checkProgram (header : Nat) (descs : List Nat) (heads : List (Option Nat)) : Option LoadResult :=
  let n := descs.length
  let cmds := commandIdx heads
  let d := fun i => descs.getD i 0
  let ofSeq := fun q => cmds.find? (fun i => dSeq (d i) == q)
  let deps := fun i => (dDeps (d i)).filterMap ofSeq
  let reach := fun i => reachable deps (n + 2) [i] []          -- commands reached by one or more dependencies
  let prod := queueEnds descs true
  let cons := queueEnds descs false
  -- internal queues as (queue, producer end, consumer end)
  let internal := cons.filterMap (fun c => (prod.find? (fun p => p.1 == c.1)).map (fun p => (c.1, p, c)))
  let isInternal := fun q => internal.any (fun x => x.1 == q)
  let own := ownerOf heads
  let next := fun i => (internal.filter (fun x => own x.2.1.2.1 == i)).map (fun x => own x.2.2.2.1)
  let prev := fun i => (internal.filter (fun x => own x.2.2.2.1 == i)).map (fun x => own x.2.1.2.1)
  let group := fun i => i :: reachable (fun j => next j ++ prev j) (n + 2) [i] [i]
  let grp := fun i => (group i).foldl min i
  -- group graph: from a group to the groups its commands depend on
  let gsucc := fun g => ((cmds.filter (fun i => grp i == g)).flatMap deps).map grp
  let greach := fun g => reachable gsucc (n + 2) [g] []
  let edges := cmds.flatMap (fun u => (deps u).map (fun v => (u, v)))
  -- the dependency to report (R123): of the cycles that hold the lowest command, the lowest OTHER_INDEX, then DESC_INDEX
  let lowest := fun (es : List (Nat × Nat)) => argmin (fun e => e.2 * 65536 + e.1) es
  let least := fun (es : List (Nat × Nat)) => es.foldl (fun m e => min m (min e.1 e.2)) 65535
  -- chains of dependencies inside a queue group, and those that end at a command `m`, from commands of its group, through
  -- commands of which `d` is the lowest
  let chain := edges.filter (fun e => cmds.any (fun a =>
    (a == e.1 || (reach a).contains e.1) && (e.2 :: reach e.2).any (fun b => grp b == grp a)))
  let m := least chain
  let endsAt := fun (e : Nat × Nat) =>
    cmds.any (fun a => grp a == grp m && decide (e.1 ≤ a)
      && (a :: reachable (fun j => (deps j).filter (fun k => decide (e.1 ≤ k))) (n + 2) [a] []).contains e.1)
      && (e.2 :: reachable (fun j => if j < e.1 then [] else deps j) (n + 2) [e.2] []).contains m
  -- cycles of groups, and those through a dependency on `w` whose commands that depend are no lower than `d`
  let ring := edges.filter (fun e => (grp e.2 :: greach (grp e.2)).contains (grp e.1))
  let w := least ring
  let from_ := fun d g => g :: reachable (fun h =>
    ((cmds.filter (fun i => grp i == h && decide (d ≤ i))).flatMap deps).map grp) (n + 2) [g] []
  let through := fun (e : Nat × Nat) => ring.any (fun x => x.2 == w && decide (e.1 ≤ x.1)
    && (from_ e.1 (grp e.2)).contains (grp x.1) && (from_ e.1 (grp w)).contains (grp e.1))
  let two := fun c (a b : Nat) => (⟨0x50, c, 0xFF, 0x3FF, a, b⟩ : LoadResult)
  firstFail [
    -- 0x50 two commands with one SEQ
    cmds.findSome? (fun i => (cmds.find? (fun j => decide (j < i) && dSeq (d j) == dSeq (d i))).map (fun j => two 0x50 i j)),
    -- 0x51 a dependency on no command, or on itself
    (cmds.find? (fun i => (dDeps (d i)).any (fun q => ofSeq q == none || ofSeq q == some i))).map (fun i => rejectAt 0x51 i),
    -- 0x52 two ends of one kind
    (match dupEnd [] prod, dupEnd [] cons with
     | none, none => none
     | some (e, x), none => some ⟨0x50, 0x52, e.2.2.1, e.1, e.2.1, x.2.1⟩
     | none, some (e, x) => some ⟨0x50, 0x52, e.2.2.1, e.1, e.2.1, x.2.1⟩
     | some (e, x), some (e', x') =>
       if e.2.1 < e'.2.1 then some ⟨0x50, 0x52, e.2.2.1, e.1, e.2.1, x.2.1⟩
       else some ⟨0x50, 0x52, e'.2.2.1, e'.1, e'.2.1, x'.2.1⟩),
    -- 0x53 producer and consumer disagree
    (internal.find? (fun x =>
        let p := x.2.1.2.2.2
        let c := x.2.2.2.2.2
        sFormat p != sFormat c || sRows p != sRows c || sCols p != sCols c)).map
      (fun x => ⟨0x50, 0x53, x.2.2.2.2.1, x.1, x.2.2.2.1, x.2.1.2.1⟩),
    -- 0x54 hints off memory-bound inputs; LACC_SUM's input internal
    firstFail ((List.range n).map (fun i =>
      ((usedSlots (d i)).find? (fun e =>
        ((sKeep e.2 || sMeasured e.2) && (decide (4 ≤ e.1) || sLink e.2 || isInternal (sQid e.2)))
          || (dOpcode (d i) == 0x33 && decide (e.1 < 4) && isInternal (sQid e.2)))).map
        (fun e => ⟨0x50, 0x54, e.1, sQid e.2, i, 0xFFFF⟩))),
    -- 0x55 a cycle of dependencies
    (cmds.find? (fun i => (reach i).contains i)).map (fun i =>
      let v := ((deps i).filter (fun j => j == i || (reach j).contains i)).foldl min 65535
      two 0x55 i v),
    -- 0x56 counter ordering
    cmds.findSome? (fun i => (cmds.find? (fun j => decide (j < i) &&
        ((ctrWrites (d i)).any (fun c => (ctrWrites (d j)).contains c || (ctrReads header (d j)).contains c)
          || (ctrWrites (d j)).any (fun c => (ctrReads header (d i)).contains c))
        && !(reach i).contains j && !(reach j).contains i)).map (fun j => two 0x56 i j)),
    -- 0x57 static buffer cycles: dependency chain inside a queue group
    (lowest (chain.filter (fun e => e.1 == m || endsAt e))).map (fun e => two 0x57 e.1 e.2),
    -- groups in a cycle
    (lowest (ring.filter (fun e => e.1 == w || through e))).map (fun e => two 0x57 e.1 e.2),
    -- a cycle of internal queues
    (argmin (fun x => (own x.2.2.2.1 * 65536 + own x.2.1.2.1) * 1024 + x.1)
      (internal.filter (fun x =>
        let c := own x.2.2.2.1
        let p := own x.2.1.2.1
        c == p || (reachable next (n + 2) [c] []).contains p))).map
      (fun x => ⟨0x50, 0x57, x.2.2.2.2.1, x.1, x.2.2.2.1, x.2.1.2.1⟩)]

/-! ### The whole verification -/

/-- The header checks 0x02–0x04 of the copied header (R119); 0x05 needs the partition's programs. -/
def checkHeader (header held heldDescs : Nat) (reqReserved : Bool) : Option LoadResult :=
  firstFail [
    failIf (hVersion header != 1) (rejectAt 0x02 0xFFFF),
    failIf (hCount header == 0 || decide (hCount header > 4096)) (rejectAt 0x03 0xFFFF),
    failIf (reqReserved || bits header 1023 640 != 0 || bits header 127 45 != 0 || bits header 31 16 != 0
      || (List.range 8).any (fun j =>
          let c := hCmp header j
          decide (bits c 2 0 ≥ 6) || bits c 31 12 != 0 || bits c 7 5 != 0)) (rejectAt 0x04 0xFFFF),
    failIf (decide (held ≥ 64) || decide (heldDescs + hCount header > 16384)) (rejectAt 0x05 0xFFFF)]

/-- Phases 2 and 3 over the descriptors (R118). -/
def verifyDescriptors (env : VerifyEnv) (header : Nat) (descs : List Nat) : Option LoadResult :=
  let heads := stageHeads 0 descs
  match firstFail ((List.range descs.length).map (checkDescriptor env descs heads)) with
  | some r => some r
  | none => checkProgram header descs heads

end Sys2Proof.Machine
end

