-- ==== Sys2Proof/Machine/Tiles.lean ====
section
/-! DEFINITION. Work on the tiles (R40–R75, R140, R157): the blocks a work unit streams, the choice of the next block, and the
counters it moves. -/

namespace Sys2Proof.Machine

/-! ### The blocks of a work unit -/

/-- The rate class of a matrix operation (R41): 0 FP8 and INT8, 1 FP4 and INT4 (two columns a step), 2 BF16 (two cycles a
step). -/
def rateClass (d : Nat) : Nat :=
  let a := sFmt (dSlot d 0)
  let b := sFmt (dSlot d 1)
  match dSubop d % 4 with
  | 1 => 2
  | 2 => 0
  | _ =>
    if matClass a = 3 ∧ matClass b = 3 then 1
    else if matClass a = 7 ∧ matClass b = 7 then 1
    else if matClass a = 4 ∨ matClass a = 5 then 2
    else 0

/-- MCLK cycles of a block that streams n columns (R41). -/
def streamCycles (cls n : Nat) : Nat := if cls = 1 then cdiv n 2 else if cls = 2 then 2 * n else n
/-- MCLK cycles of the drain of 256 steps (R45). -/
def drainCycles (cls : Nat) : Nat := if cls = 2 then 512 else 256

/-- Passes of a split-precision product per chunk and column group (R33, R36, R57). -/
def passesOf (d : Nat) : Nat :=
  let n := dSubop d / 16
  if dSubop d % 4 = 0 then 1 else n * (n + 1) / 2

/-- The format that a matrix operation accumulates in (R21, R36). -/
def accFmt (d : Nat) : Fmt :=
  if dSubop d % 4 = 2 then .fp64 else if fmtInt (sFmt (dSlot d 0)) then .int32 else .fp32

/-- Bytes of the stationary values of one block (R41). -/
def stationaryBytes (d : Nat) : Nat := if dSubop d % 4 = 0 then chunkBytes d else chunkBytes d / max 1 (dSubop d / 16)
/-- MCLK cycles of a stationary load at 512 bytes per cycle (R41, R47). -/
def loadCycles (bytes : Nat) : Nat := cdiv bytes 512

/-- Columns of a column group at most: 1,024, and of a split-precision product what a stream buffer of some bytes holds for one
chunk (R49, R57). -/
def groupWidth (d room : Nat) : Nat :=
  match dSubop d % 4 with
  | 1 => max 1 (min 1024 (room / 512))
  | 2 => max 1 (min 1024 (room / 1024))
  | _ => 1024

/-- Lane cycles per element of a conversion from one format to another (R64, R88). -/
def convCost (src dst : Fmt) : Nat := if src = dst then 0 else if fmtMx dst then 2 else 1

/-- What the blocks of one matrix stage share: the descriptor, its place among the stages, whether it is dependent (R53), the
width of its column groups and the lanes' cost of converting a result. -/
structure Stage where
  desc : Nat
  index : Nat
  dependent : Bool
  width : Nat
  cost : Nat

/-- The blocks of m-block `mb` of `m` rows over K and N, in the order of R50: column groups, chunks, passes.  `rows` is how many
feeder rows a full chunk uses of `q` packed problems; `macs` counts the products of one column (R62); the lanes convert the
results after the last chunk.  INT8 slices leave the 32-bit accumulators alone (R57, R72). -/
def matBlocks (x : Stage) (mb q m k n : Nat) : List Block :=
  let d := x.desc
  let cls := rateClass d
  let ps := passesOf d
  let ch := cdiv k 128
  (List.range (cdiv n x.width)).flatMap (fun g =>
    let ng := min x.width (n - x.width * g)
    (List.range ch).flatMap (fun c => (List.range ps).map (fun i =>
      let kc := min 128 (k - 128 * c)
      let fin := c + 1 == ch && i + 1 == ps
      { array := true, stage := x.index, dependent := x.dependent, mblock := mb, col := x.width * g, cols := ng, chunk := c,
        rows := min 128 (q * kc), load := stationaryBytes d, sums := i + 1 == ps, macs := q * m * kc * ng,
        cycles := streamCycles cls ng, first := c == 0 && i == 0, last := fin, half := dSubop d % 4 != 2, packed := decide (2 ≤ q),
        drain := drainCycles cls, lane := if fin then q * m * ng * x.cost else 0, special := 0, rowOp := false })))

/-- The blocks of one problem, or of one packed block of `q` problems (R56, R159). -/
def problemBlocks (x : Stage) (q m k n : Nat) : List Block :=
  if 2 ≤ q then matBlocks x 0 q m k n
  else (List.range (cdiv m 128)).flatMap (fun i => matBlocks x i 1 (min 128 (m - 128 * i)) k n)

/-- Lane cycles and special functions of a row operation on a row of n elements (R68, R75; log 32). -/
def rowCost (kind n : Nat) : Nat × Nat :=
  match kind with
  | 3 => (8 * n + 24, n + 1)
  | 4 => (6 * n + 24, 2)
  | 5 => (3 * n + 12, 2)
  | _ => (n, 0)

/-- One vector unit's pass of a stage. -/
def laneBlock (stage : Nat) (rowOp : Bool) (lane special : Nat) : Block :=
  { array := false, stage := stage, dependent := false, mblock := 0, col := 0, cols := 0, chunk := 0, rows := 0, load := 0,
    sums := false, macs := 0, cycles := 0, first := false, last := false, half := false, packed := false, drain := 0,
    lane := lane, special := special, rowOp := rowOp }

/-- The format in which a column reduction holds its sums (R89). -/
def reduceFmt (f : Fmt) : Fmt := if f = .int48 then .int48 else if fmtInt f then .int32 else if f = .fp64 then .fp64 else .fp32

/-- The blocks of one work unit of a stage that runs on tiles (R154). -/
def stageBlocks (x : Stage) (unit : Nat) : List Block :=
  let d := x.desc
  let o := sFmt (dSlot d 4)
  let sh := sShape (dSlot d 0)
  let rows := min 128 (sh.1 - 128 * unit)
  match dOpcode d with
  | 0x20 => matBlocks x unit 1 rows sh.2 (sShape (dSlot d 1)).2
  | 0x21 =>
    let b := dImm d 0
    let q := packOf d
    let y := problemShape (dSlot d 0) b
    problemBlocks x (min q (b - unit * q)) y.1 y.2 (problemShape (dSlot d 1) b).2
  | 0x30 =>
    let fp64 := dSubop d % 2 == 1
    let ops := chainOf (chainImm d)
    let e := rows * sh.2
    let w := if fp64 then Fmt.fp64 else Fmt.fp32
    [laneBlock x.index false (e * (sumL (ops.map (fun y => laneCost y.op fp64)) + convCost w o))
      (e * sumL (ops.map (fun y => specialCount y.op)))]
  | 0x31 =>
    let r := rowCost (dSubop d) sh.2
    let out := if dSubop d < 3 then 1 else sh.2
    [laneBlock x.index true (rows * (r.1 + out * convCost .fp32 o)) (rows * r.2)]
  | 0x32 => [laneBlock x.index false (if unit = 0 then sh.2 * convCost (reduceFmt (sFmt (dSlot d 0))) o else 0) 0]
  | 0x33 => [laneBlock x.index false (sh.1 * sh.2 * (dImm d 0 + convCost .int48 o)) 0]
  | _ => []

/-- A stage's slot receives, through links, what an earlier matrix stage pushed (R53); fuel: the number of stages. -/
def fromMatrix (stages : List Nat) : Nat → Nat → Bool
  | 0, _ => false
  | n + 1, x =>
    sLink x && stages.any (fun d => (outSlots d).any (fun e => sLink e.2 && sQid e.2 == sQid x)
      && (dOpcode d / 16 == 2 || (inSlots d).any (fun e => fromMatrix stages n e.2)))

/-- What the blocks of a stage of a command share; `room` is the bytes of the stream buffer at its IN1 (R53, R57). -/
def stageOf (stages : List Nat) (i d room : Nat) : Stage :=
  ⟨d, i, decide (dOpcode d / 16 = 2) && fromMatrix stages stages.length (dSlot d 0), groupWidth d room,
   convCost (accFmt d) (sFmt (dSlot d 4))⟩

/-- The blocks of one work unit of a command: those of its tile stages in order (R100, R154); `room` gives the bytes of the
stream buffer at the IN1 of each stage. -/
def planOf (descs : List Nat) (idx unit : Nat) (room : Nat → Nat) : List Block :=
  let stages := stagesOf descs idx
  (stages.mapIdx (fun i d =>
    let x := stageOf stages i d (room i)
    if dOpcode d = 0x21 ∧ dOpcode (descs.getD idx 0) = 0x60 then
      matBlocks x unit 1 (min 128 (sRows (dSlot d 4) - 128 * unit)) (problemShape (dSlot d 0) (dImm d 0)).2
        (problemShape (dSlot d 1) (dImm d 0)).2
    else stageBlocks x unit)).flatten

/-- Bytes of the stream buffer that a command has on a die at the IN1 of one of its stages; a link's is as large as a tile store's
buffers go (R57, R129, R130). -/
def State.roomAt (s : State) (c : CmdRef) (die stage : Nat) : Nat :=
  ((s.find c).bind (fun f => f.cmd.stream (stage * 8 + 1) die)).elim 1048576 Stream.room

/-- Whether the work units of a command run on tiles (R154). -/
def onTiles (d : Nat) : Bool := dOpcode d / 16 == 2 || dOpcode d / 16 == 3 || dOpcode d == 0x60

/-! ### Tile and engine counters (R62, R75, R141) -/

def rTile (c t sub : Nat) : Nat := key (0x6200 + c) (0x10 * t + sub)
def rStall (c t cause : Nat) : Nat := key (0x6300 + c) (0x10 * t + 1 + cause)

/-- Stall cycles of an engine part counted to a die and to its command (R140); tile 8 stands for the die's other engines. -/
def State.stall (s : State) (p run cmd c t cause n : Nat) : State :=
  (s.bump (rStall c t cause) n).modCmd p run cmd (fun x => { x with stalls := updAt x.stalls cause (· + n) })

/-- MCLK cycles of a die in a time in ns (R359). -/
def State.mclkCycles (s : State) (c ns : Nat) : Nat := ns * (sget (fun _ => DiePower.blank) s.power.dies c).mhz / 1000

/-- A command holds work on engines of its dies that are not tiles: data-movement, collective and brim-stage engines, and the one
that reads for CTR_LOAD (R102, R140). -/
def usesEngines (descs : List Nat) (i : Nat) : Bool :=
  (stagesOf descs i).any (fun d => dOpcode d == 3 || [1, 4, 5].contains (dOpcode d / 16))

/-- The dies whose engines hold work of a command (R102, R140). -/
def Cmd.engineDies (c : Cmd) (descs : List Nat) : List Nat :=
  if usesEngines descs c.idx then
    ((c.parts.map Part.die).filter (fun x => decide (x < 48))
      ++ (c.streams.filter (fun x => decide (x.id < 128))).map Stream.die).eraseDups
  else []

/-- The commands of a partition that hold an engine part on a die. -/
def State.engineParts (s : State) (p c : Nat) : List Found :=
  ((s.prn p).runs.flatMap (fun r => (r.cmds.filter (fun x => x.phase == .issued && x.fixed.isNone)).filterMap
    (fun x => s.find (refOf p r.id x.idx)))).filter (fun f => (f.cmd.engineDies f.prog.descs).contains c)

/-- A die's engines take work: from here on they hold some (R141). -/
def State.engineTakes (s : State) (p : Nat) (dies : List Nat) : State :=
  dies.foldl (fun s c =>
    if s.engineParts p c = [] then { s with engines := sput (fun _ => 0) s.engines c s.now } else s) s

/-- The cycles for which a die's engines have held work since they were last counted (R141). -/
def State.engineBusy (s : State) (c : Nat) : State :=
  let s := s.bump (key (0x6300 + c) 0x90) (s.mclkCycles c (s.now - sget (fun _ => 0) s.engines c))
  { s with engines := sput (fun _ => 0) s.engines c s.now }

/-- An input of a command has not wholly arrived. -/
def Cmd.waitsForInput (c : Cmd) : Bool := c.ends.any (fun e => decide (e.id % 8 < 4) && !e.full)

/-- The command to which an engine cycle of a die belongs: that of its oldest waiting engine part (R140). -/
def State.engineOwner (s : State) (f : Found) (c : Nat) : Found :=
  let mine (g : Found) : Bool := g.run.id == f.run.id && g.cmd.idx == f.cmd.idx
  (argmin (fun g => g.cmd.order) ((s.engineParts f.p c).filter (fun g => g.cmd.waitsForInput || mine g))).getD f

/-- Stalls of the die engines on which a command runs, as its part ends (R139, R140). -/
def State.engineStalls (s : State) (f : Found) (l : List (DieC × Fin 9 × W32)) : State :=
  let dies := f.cmd.engineDies f.prog.descs
  (l.filter (fun e => dies.contains e.1.val)).foldl (fun s e =>
    let g := s.engineOwner f e.1.val
    s.stall g.p g.run.id g.cmd.idx e.1.val 8 e.2.1.val e.2.2.toNat) s

/-! ### The next block (R157) -/

/-- A work unit is ready when each input of its command has begun to arrive on its die (R136, R157; log 33); a duplicate or a
replay reads streams of its own (R230, R236). -/
def State.workReady (s : State) (w : Work) : Bool :=
  match s.run w.p w.run with
  | none => false
  | some r =>
    match r.cmd w.cmd with
    | none => false
    | some c =>
      c.ends.all (fun e => decide (4 ≤ e.id % 8)
        || (match c.stream (if w.dup || w.replay then 128 + e.id else e.id) w.die with
          | some x => decide (0 < x.ended) || x.moves == []
          | none => e.full))

/-- The order of R157 among batts of a tile: latency class, then issue, then work-unit number. -/
def State.workKey (s : State) (w : Work) : Nat :=
  match s.run w.p w.run with
  | none => 0
  | some r =>
    let d := ((s.program w.p r.handle).elim 0 (fun g => g.descs.getD w.cmd 0))
    ((s.latOf w.p d) * 2 ^ 64 + ((r.cmd w.cmd).elim 0 Cmd.order)) * 2 ^ 40 + w.unit

/-- The array of a tile. -/
def State.array (s : State) (c t : Nat) : TileArray := sget (fun _ => TileArray.blank) s.arrays (c * 8 + t)
def State.modArray (s : State) (c t : Nat) (g : TileArray → TileArray) : State :=
  { s with arrays := smod (fun _ => TileArray.blank) s.arrays (c * 8 + t) g }

/-- Two work units belong to one batt (R53). -/
def Work.batt (w v : Work) : Bool :=
  w.p == v.p && w.run == v.run && w.cmd == v.cmd && w.die == v.die && w.tile == v.tile && w.dup == v.dup && w.replay == v.replay

/-- The works of a tile that still have blocks to begin. -/
def State.worksOn (s : State) (c t : Nat) : List Work := s.works.filter (fun w => w.die == c && w.tile == t && w.plan != [])

/-- A work unit's next block may be considered: one of a dependent stage once every m-block of its batt has begun all blocks of
the stages before (R53). -/
def State.stageOpen (s : State) (w : Work) : Bool :=
  match w.plan with
  | [] => false
  | b :: _ => !b.dependent || s.works.all (fun v => !w.batt v || v.plan.all (fun x => !x.array || decide (b.stage ≤ x.stage)))

/-- The advance count at which a work unit's next block may begin at the earliest (R53): 256 steps after the last release of the
preceding matrix stage of its batt, for the first block of a dependent stage. -/
def State.earliest (s : State) (w : Work) : Nat :=
  match w.plan with
  | [] => 0
  | b :: _ =>
    if b.dependent && !s.works.any (fun v => w.batt v && v.active.any (fun x => x.array && x.stage == b.stage)) then
      maxL ((s.works.filter w.batt).map Work.released) + b.drain
    else 0

/-- The batt that a tile runs next (R157); one that waits behind an exposed drain only when no other is ready (R54). -/
def State.nextWork (s : State) (c t : Nat) : Option Work :=
  let ready := (s.worksOn c t).filter (fun w => s.workReady w && s.stageOpen w)
  (argmin s.workKey (ready.filter (fun w => decide (s.earliest w ≤ (s.array c t).clock)))).orElse (fun _ => argmin s.workKey ready)

end Sys2Proof.Machine
end

