-- ==== Sys2Proof/Machine/Blocker.lean ====
section
/-! DEFINITION. The blocker (R129, R154–R176): which dies, tiles and stacks serve a command, what each part reads and writes,
resident copies, their migration, and rebalancing. -/

namespace Sys2Proof.Machine

/-! ### The ends of a command -/

/-- The direction of the MX blocks at a slot that names a queue (R79). -/
def slotAlong (descs : List Nat) (x : Nat) : Bool := alongOf descs [] x
/-- Bytes of a packed item of a slot that names a queue. -/
def slotSize (descs : List Nat) (x : Nat) : Nat := slotBytes' descs x 0
/-- Bytes of a packed item at a slot of command `i`, which may name a link of it (R79, R100). -/
def endSize (descs : List Nat) (i x : Nat) : Nat :=
  itemSpan (sFmt x) (sRows x) (sCols x) 0 (alongOf descs (stagesOf descs i) x)

/-- The binding of a queue in a run (R104). -/
def Run.binding (r : Run) (q : Nat) : Nat := (r.binds.find? (fun b => bQid b == q)).getD 0

/-- Stored rows that the units of a part take at an end, none when they are not a range of rows (R154; log 34).  `first` and
`count` number work units. -/
def partRows (descs : List Nat) (idx id d x first count : Nat) : Option (Nat × Nat) :=
  let slot := id % 8
  let op := dOpcode (descs.getD idx 0)
  let rows := (128 * first, 128 * count)
  if op = 0x60 then
    let e := descs.getD (idx + 1) 0
    let lead := leadSlot e
    if slot < 4 then
      if id / 8 = 0 ∧ lead.1 = slot ∧ !sTransposed x then some rows else none
    else if sRows x = (sShape lead.2).1 then some rows else none
  else
    match op with
    | 0x20 => if slot = 4 ∨ (slot = 0 ∧ !sTransposed x) then some rows else none
    | 0x21 =>
      let h := sRows x / dImm d 0 * packOf d
      some (h * first, h * count)
    | 0x30 =>
      if slot = 4 ∨ (slot = 0 ∧ !sTransposed x) ∨ (slot = 1 ∧ !sTransposed x ∧ 1 < sRows x) then some rows else none
    | 0x31 => if slot = 4 ∨ (slot = 0 ∧ !sTransposed x) then some rows else none
    | 0x32 => if slot = 0 ∧ !sTransposed x then some rows else none
    | _ => none

/-- The spans of one packed item that a part reads or writes at an end: its rows; for MOVE and TEE the bytes of its work
units; an output of the data-movement family by work units of 64 KiB; any other output wholly by the part that holds unit 0,
any other input wholly by every part (R154, R156; log 34). -/
def partSpans (descs : List Nat) (idx id d x first count : Nat) : List (Nat × Nat) :=
  let size := slotSize descs x
  match partRows descs idx id d x first count with
  | some (r, n) => rowSpans (sFmt x) (sRows x) (sCols x) (slotAlong descs x) r n
  | none =>
    let op := dOpcode (descs.getD idx 0)
    let byBytes := decide (op / 16 = 1) && (decide (4 ≤ id % 8) || ((op == 0x10 || op == 0x15) && !sTransposed x))
    if byBytes then [(65536 * first, min (65536 * count) (size - 65536 * first))]
    else if id % 8 < 4 ∨ first = 0 then [(0, size)]
    else []

/-- Two spans share a byte. -/
def spansMeet (a b : Nat × Nat) : Bool :=
  decide (a.1 < b.1 + b.2) && decide (b.1 < a.1 + a.2) && decide (0 < a.2) && decide (0 < b.2)

/-- Spans that repeat in each of n items of a size. -/
def repeatSpans (n size : Nat) (l : List (Nat × Nat)) : List (Nat × Nat) :=
  (List.range n).flatMap (fun i => l.map (fun e => (i * size + e.1, e.2)))

/-! ### Dies (R155, R156, R168, R171, R174) -/

def rWeight (c : Nat) : Nat := key (0x6500 + c) 1

/-- A die takes part: it is live and has a tile in service (R155, R200). -/
def State.dieUp (s : State) (c : Nat) : Bool := s.live c && s.tilesUp c != []
def State.diesUp (s : State) (p : Nat) : List Nat := (s.diesOf p).filter s.dieUp

/-- The affinity set of a tag in a run, less the dies that have left service (R171). -/
def State.affinitySet (s : State) (r : Run) (tag : Nat) : List Nat :=
  (idxs 48 (bit (sget (fun _ => 0) r.affinity tag))).filter s.dieUp

/-- The port numbers and signatures that a command's brim stages name (R91). -/
def brimPorts (descs : List Nat) (i : Nat) : List (Nat × Nat) :=
  ((stagesOf descs i).filter (fun d => dOpcode d == 0x50)).map (fun d => (dImm d 0 % 256, dImm d 1))

/-- Dies eligible for a command (R155, R171, R91); an affinity set none of whose dies can run it is not followed (R170). -/
def State.eligible (s : State) (p : Nat) (r : Run) (descs : List Nat) (i : Nat) : List Nat :=
  let d := descs.getD i 0
  let all := (s.diesUp p).filter (fun c => (brimPorts descs i).all (fun e => s.declares c e.1 e.2))
  let set := all.filter (fun c => (s.affinitySet r (dAffinity d)).contains c)
  if dAffinity d = 0 ∨ set = [] then all else set

/-- The affinity hint of a command cannot be followed: no die of its set can run it (R91, R170). -/
def State.affinityIgnored (s : State) (p : Nat) (r : Run) (descs : List Nat) (i : Nat) : Bool :=
  let d := descs.getD i 0
  let set := s.affinitySet r (dAffinity d)
  dAffinity d != 0 && !dPin d && set != [] && !(s.eligible p r descs i).any (fun c => set.contains c)

/-- The `n` dies of highest weight, ties to the lower number, in ascending number (R155). -/
def State.heaviest (s : State) (l : List Nat) (n : Nat) : List Nat :=
  let better (a b : Nat) : Bool :=
    decide (s.reg (rWeight b) < s.reg (rWeight a) ∨ (s.reg (rWeight a) = s.reg (rWeight b) ∧ a < b))
  l.filter (fun c => decide (l.countP (fun e => better e c) < n))

/-- The die of a collective's part: that with the largest share of IN0's producer, or the lowest eligible (R154). -/
def State.collectiveDie (_s : State) (r : Run) (descs : List Nat) (i : Nat) (l : List Nat) : Nat :=
  let q := sQid (dSlot (descs.getD i 0) 0)
  let low := l.headD 0
  match r.cmds.find? (fun c => (cmdEnds descs c.idx).any (fun e => decide (4 ≤ e.1 % 8) && sQid e.2.2 == q)) with
  | none => low
  | some c =>
    match argmin (fun (x : Part) => 2 ^ 40 - x.count) (c.parts.filter (fun x => decide (x.die < 48))) with
    | some x => if l.contains x.die then x.die else low
    | none => low

/-- Tiles of a part: those in service, of a pinned command those of PIN_TILES only (R156, R174). -/
def State.partTiles (s : State) (d c : Nat) : List Nat :=
  (s.tilesUp c).filter (fun t => !dPin d || bit (dPinTiles d) t)

/-- The parts of a command (R102, R154–R156, R174); none when it can have none. -/
def State.partsOf (s : State) (p : Nat) (r : Run) (descs : List Nat) (i : Nat) : List Part :=
  let d := descs.getD i 0
  let u := unitsOf descs i
  let el := s.eligible p r descs i
  if dOpcode d / 16 = 0 then (if s.diesUp p = [] then [] else [⟨63, 0, 1, [], false⟩])
  else if dPin d then (if s.dieUp (dPinDie d) && s.partTiles d (dPinDie d) != [] then [⟨dPinDie d, 0, u, [], false⟩] else [])
  else if el = [] then []
  else if dOpcode d / 16 = 4 then [⟨s.collectiveDie r descs i el, 0, 1, [], false⟩]
  else
    let chosen := s.heaviest el (min el.length (cdiv u 8))
    dealParts u (chosen.map (fun c => (c, s.reg (rWeight c) * (s.tilesUp c).length)))

/-- A stage whose stream buffers stand in tile store: of the matrix or vector family (R129). -/
def inTiles (d : Nat) : Bool := dOpcode d / 16 == 2 || dOpcode d / 16 == 3

/-- The engine that moves the transfers of a stage (R129, R179): the first of its tiles for tile work, the brim ports, the load
engine of the die for the rest. -/
def engineOf (d tiles : Nat) : Nat :=
  if dOpcode d = 0x50 then 11 else if inTiles d then (idxs 8 (bit tiles)).headD 0 else 10

/-! ### Resident copies (R105, R160, R161, R221) -/

/-- The key of a region: address, length, kind (R105). -/
def Copy.region (x : Copy) (b : Nat) : Bool := x.addr == bAddress b && x.len == bLength b && x.kind == bKind b

/-- Bytes of die store that a copy occupies: whole units of 128 bytes of each span (R160). -/
def Copy.size (x : Copy) : Nat := sumL (x.spans.map (fun e => cdiv (e.1 % 128 + e.2) 128 * 128))

/-- A copy holds a span of its region. -/
def Copy.holds (x : Copy) (e : Nat × Nat) : Bool :=
  e.2 == 0 || x.spans.any (fun f => decide (f.1 ≤ e.1) && decide (e.1 + e.2 ≤ f.1 + f.2))

/-- Copies of the partition's region that hold some spans and are not being dropped. -/
def State.copiesFor (s : State) (p b : Nat) (need : List (Nat × Nat)) : List Copy :=
  (s.prn p).copies.filter (fun x => x.region b && !x.dropped && need.all x.holds)

/-- The copy that a die binds: its own, or the nearest by cross-die hops, ties to the lower die (R160; log 35). -/
def State.bindCopy (s : State) (p b die : Nat) (need : List (Nat × Nat)) : Option Copy :=
  argmin (fun x => s.hops x.die die * 64 + x.die) (s.copiesFor p b need)

/-- KEEP_BYTES and COPIES of a partition's dies (R176). -/
def State.countCopies (s : State) (p : Nat) : State :=
  (s.diesOf p).foldl (fun s c =>
    let l := (s.prn p).copies.filter (fun x => x.die == c)
    (s.setReg (key (0x6500 + c) 3) (sumL (l.map Copy.size))).setReg (key (0x6500 + c) 4) l.length) s

/-- Release the copies that a condition selects; eviction, REFRESH and expiry count them, a committed move does not (R161,
R175). -/
def State.freeCopies (s : State) (p : Nat) (q : Copy → Bool) : State :=
  let n := (s.prn p).copies.countP (fun x => q x && !x.moved)
  let s := s.modPr p (fun r => { r with copies := r.copies.filter (fun x => !q x) })
  (s.bump (rBlk p 0x15) n).countCopies p

/-- Copies that REFRESH or a move has discarded and to which no part is bound are freed (R164, R166). -/
def State.sweepCopies (s : State) (p : Nat) : State := s.freeCopies p (fun x => x.dropped && x.bound == [])

/-- KEEP_SHARE in bytes (R161, R175). -/
def State.keepShare (s : State) (p : Nat) : Nat := s.reg (rBlk p 8) * 1048576

/-- A copy was created or moved in the last four residency periods (rule 3 of R162). -/
def Copy.isHeld (x : Copy) : Bool := decide (x.held ≤ 4)

/-- A copy may be evicted: no run in flight has it bound, and it is not held (R161, R162). -/
def State.evictable (s : State) (p : Nat) (x : Copy) : Bool :=
  x.bound == [] && !x.isHeld
    && !(s.prn p).runs.any (fun r => r.binds.any (fun b => x.region b))

/-- Bytes of a die that resident copies take, with the space reserved for a migration to it (R161, R164). -/
def State.keepUsed (s : State) (p die : Nat) : Nat :=
  sumL (((s.prn p).copies.filter (fun x => x.die == die)).map Copy.size)
    + sumL (((s.prn p).migs.filter (fun g => g.dst == die)).map Migration.size)

/-- Whether some bytes fit on a die under KEEP_SHARE. -/
def State.keepFits (s : State) (p die size : Nat) : Bool := decide (s.keepUsed p die + size ≤ s.keepShare p)

/-- Evict the least recently read copies of a die until some bytes fit (R161); `n` bounds the evictions. -/
def State.makeRoom (p die size : Nat) : Nat → State → State
  | 0, s => s
  | n + 1, s =>
    if s.keepFits p die size then s else
    match argmin Copy.lastRead ((s.prn p).copies.filter (fun x => x.die == die && s.evictable p x)) with
    | none => s
    | some v => State.makeRoom p die size n (s.freeCopies p (fun x => x == v))

/-- Bring a partition's copies back within KEEP_SHARE, as far as they can be evicted (R161). -/
def State.trimCopies (s : State) (p : Nat) : State :=
  (s.diesOf p).foldl (fun s c => State.makeRoom p c 0 ((s.prn p).copies.length) s) s

/-- The bytes of a region as an end received them: each transfer's bytes at its place in the region. -/
def regionImage (len base : Nat) (moves : List (Nat × Nat × Nat)) (data : List Byte) : List Byte :=
  moves.foldl (fun bs m => splice bs (m.1 - base) (slice data m.2.1 m.2.2)) (List.replicate len 0)

/-- Keep what a part has read as its die's resident copy, when KEEP_SHARE allows it (R160, R161). -/
def State.keepCopy (s : State) (p handle b die : Nat) (moves : List (Nat × Nat × Nat)) (data : List Byte) : State :=
  let x : Copy := ⟨bAddress b, bLength b, bKind b, die, regionImage (bLength b) (bAddress b) moves data,
    moves.map (fun m => (m.1 - bAddress b, m.2.2)), [], [], 0, 0, s.now, [handle], false, false, []⟩
  if (s.prn p).copies.any (fun y => y.region b && y.die == die && !y.dropped) then s
  else if s.keepShare p < x.size then s.bump (rBlk p 0x1A) 1
  else
    let s := State.makeRoom p die x.size 64 s
    if s.keepFits p die x.size then
      (((s.modPr p (fun r => { r with copies := r.copies ++ [x] })).bump (rBlk p 0x14) 1)).countCopies p
    else s.bump (rBlk p 0x1A) 1

/-! ### Streams of a command at issue (R128–R136, R160) -/

/-- The end of a command as it is created: the bytes of all its items, none arrived (R77). -/
def freshEnd (descs : List Nat) (i : Nat) (e : Nat × Nat × Nat) : End :=
  let n := if e.1 % 8 < 4 then itemsOf e.2.1 else 1
  ⟨e.1, List.replicate (n * endSize descs i e.2.2) 0, [], false⟩

/-- j of R130 that the blocker chose for an end, within the store's limit; a brim port's is its gang (R290). -/
def chosenLog (logs : List (Fin 128 × Fin 17)) (id lim : Nat) : Nat :=
  min lim ((logs.find? (fun e => e.1.val == id)).elim 0 (fun e => e.2.val))

/-- What the streams of one part need: its command, its part and where it runs. -/
structure Placing where
  p : Nat
  r : Run
  descs : List Nat
  idx : Nat
  part : Part
  /-- The engine, the tiles whose stores hold the buffer (0: the die store), the j that the blocker wants and the largest the
  store's buffers have, the staging address of an output of a guarded command (R237), and whether a duplicate or a replay
  reads (R230, R236). -/
  eng : Nat
  tiles : Nat
  want : Nat
  cap : Nat
  stage : Option Nat
  twin : Bool

/-- A stream as it is placed (R128–R130): its buffer has the largest size up to the one wanted for which its store has space, or
waits for space; an internal queue whose wanted depth the store cannot give has an HBM buffer behind it when its ends are on
different dies. -/
def State.newStream (s : State) (x : Placing) (id home src : Nat) (moves : List (Nat × Nat × Nat)) (limit : Nat) (across : Bool) :
    Stream :=
  let fit := s.fitLog x.p x.part.die x.tiles (min x.cap x.want)
  let back := if home = 3 ∧ across ∧ fit.getD 0 < x.want then some x.want else none
  { id := if x.twin then 128 + id else id, die := x.part.die, eng := x.eng, home := home, src := src, moves := moves, issued := 0,
    came := [], popped := 0, taken := 0, log2 := fit.getD (min x.cap x.want), limit := limit, tiles := x.tiles,
    placed := fit.isSome, back := back, rateNum := 0, rateExp := 0, windows := 0, started := false, counted := false }

/-- The transfers of an internal queue's item into a buffer of its consumer: granule by granule, at no address of the partition
(R128, R130). -/
def innerMoves (n size : Nat) (spans : List (Nat × Nat)) : List (Nat × Nat × Nat) :=
  (repeatSpans n size spans).flatMap (fun e => (cut4k (e.2 / 4096 + 2) 0 e.1 e.2).map (fun m => (0, m.2.1, m.2.2)))

/-- Add a stream to a command; what a duplicate or a replay reads on a die beside another is one stream more for that die. -/
def Cmd.addStream (c : Cmd) (x : Stream) : Cmd :=
  if x.id < 128 ∨ (c.stream x.id x.die).isNone then { c with streams := c.streams ++ [x] }
  else c.modStream x.id x.die (fun y => { y with moves := y.moves ++ x.moves })

/-- Add the stream of one part at one end (R105, R128, R133, R136, R160): of an internal queue the buffer that its producer fills,
else the transfers of its region or of a resident copy; the part's own copy is read in place. -/
def State.addStream (s : State) (x : Placing) (e : Nat × Nat × Nat) : State :=
  let b := x.r.binding (sQid e.2.2)
  let n := if e.1 % 8 < 4 then itemsOf e.2.1 else 1
  let spans := partSpans x.descs x.idx e.1 e.2.1 e.2.2 x.part.first x.part.count
  let put (y : Stream) (s : State) : State := s.modCmd x.p x.r.id x.idx (fun c => c.addStream y)
  if isInternalQ x.descs (sQid e.2.2) && x.stage.isNone then
    let across := ((s.run x.p x.r.id).bind (fun r => r.cmds.find? (fun c => (cmdEnds x.descs c.idx).any (fun o =>
      decide (4 ≤ o.1 % 8) && sQid o.2.2 == sQid e.2.2)))).all (fun c => c.parts.any (fun y => y.die != x.part.die) || c.parts == [])
    put (s.newStream x e.1 3 0 (innerMoves n (slotSize x.descs e.2.2) spans) (s.reg (rArb x.p 6) + 1) across) s
  else
  let base := x.stage.getD (bAddress b)
  let moves := movesOf e.2.2 (slotAlong x.descs e.2.2) n base (if x.stage.isSome then 0 else bPitch b) spans
  let need := moves.map (fun m => (m.1 - bAddress b, m.2.2))
  let units := sumL (moves.map (fun m => cdiv m.2.2 128))
  let keep := sKeep e.2.2 && decide (e.1 % 8 < 4) && bKind b != 0
  let copy := if keep then s.bindCopy x.p b x.part.die need else none
  let made (home src : Nat) : Stream := s.newStream x e.1 home src moves (bOutLimit b + 1) false
  match copy with
  | some y =>
    let used := if y.handles.contains x.r.handle then y.handles else y.handles ++ [x.r.handle]
    let fresh := smod (fun _ => 0) y.fresh x.part.die (· + units)
    let mark (z : Copy) : Copy :=
      { z with fresh := fresh, unread := 0, lastRead := s.now, handles := used, bound := z.bound ++ [(x.r.id, x.idx)] }
    let s := (s.modPr x.p (fun q => { q with copies := updWhere (fun z => z == y) mark q.copies })).bump (rBlk x.p 0x12) 1
    if y.die = x.part.die then
      let s := s.modCmd x.p x.r.id x.idx (fun c => c.modEnd e.1 (fun f =>
        { f with data := moves.foldl (fun bs m => splice bs m.2.1 (slice y.bytes (m.1 - y.addr) m.2.2)) f.data }))
      put { made 2 y.die with issued := moves.length, came := List.range moves.length, placed := true } s
    else put (made 2 y.die) s
  | none =>
    let s := if sKeep e.2.2 && decide (e.1 % 8 < 4) && !x.twin then s.bump (rBlk x.p 0x13) 1 else s
    put (made (if x.stage.isSome then 0 else bKind b - 1) 0) s

/-- HOME of a queue as R142 codes it: of an internal queue the consumer's buffer, or the HBM buffer behind it. -/
def homeCode (descs : List Nat) (r : Run) (y : Stream) (x : Nat) : Nat :=
  if isInternalQ descs (sQid x) then (if y.back.isSome then 2 else if y.tiles = 0 then 1 else 0)
  else if bKind (r.binding (sQid x)) = 2 then 3 else 2

/-- The stacks that hold ranks of a partition. -/
def State.stacksOf (s : State) (p : Nat) : List Nat := idxs 32 (fun m => (List.range 128).any (s.hasRank p m))

/-- The order of the stacks for an internal queue's HBM buffer: those of the consumer die's column, fewer buffers first, then the
others by cross-die hops; ties to the lower number (R163). -/
def State.stackKey (s : State) (p die m : Nat) : Nat :=
  let port := if die / 8 < 3 then die % 8 else 8 + die % 8
  let load := (s.prn p).bufs.countP (fun b => b.stack == m || b.old == some m)
  if m / 2 = port then load * 64 + m else 2 ^ 64 + s.hops die (48 + m / 2) * 64 + m

/-- The stack that holds an internal queue's HBM buffer (R163). -/
def State.bufferStack (s : State) (p die : Nat) : Nat := (argmin (s.stackKey p die) (s.stacksOf p)).getD 0

/-! ### Sampled duplicates and replays (R229, R230, R236) -/

/-- The next element of a rising list after `x`, wrapping. -/
def nextOf (l : List Nat) (x : Nat) : Option Nat := (l.find? (fun y => decide (x < y))).orElse (fun _ => l.head?)

/-- The check tile of a tile (R230), as die × 8 + tile. -/
def State.checkTile (s : State) (p c t : Nat) : Option Nat :=
  let ds := s.diesUp p
  if 2 ≤ ds.length then
    (nextOf ds c).bind (fun d => ((if s.tileUp d t then some t else nextOf (s.tilesUp d) t)).map (fun u => d * 8 + u))
  else ((nextOf ((s.tilesUp c).filter (· != t)) t)).map (fun u => c * 8 + u)

/-- Whether the draw of R229 selects a unit: with probability 2^−DUP_K, by a free value (log 3). -/
def selected (k draw : Nat) : Bool := if k = 0 then true else if 31 ≤ k then false else Config.freeNat k draw % 2 ^ k == 0

/-- Whether the units of a command are eligible for duplicates (R229). -/
def sampleable (descs : List Nat) (i : Nat) : Bool :=
  let d := descs.getD i 0
  !dReplay d && (dOpcode d / 16 == 2 || [0x30, 0x31, 0x32].contains (dOpcode d)
    || (dOpcode d == 0x60 && brimPorts descs i == []))

/-- Place one work unit of a part on its tile, with its duplicate when it is selected (R156, R229, R230). -/
def State.placeUnit (s : State) (p : Nat) (r : Run) (descs : List Nat) (i : Nat) (part : Part) (tiles : List Nat) (j : Nat) : State :=
  let t := tiles.getD (j % tiles.length) 0
  let unit := part.first + j
  let plan := planOf descs i unit (s.roomAt (refOf p r.id i) part.die)
  let w : Work := ⟨p, r.id, i, part.die, t, unit, false, false, plan, 0, none, 0, false⟩
  let s := { s with works := s.works ++ [w] }
  if !sampleable descs i then s else
  let sel := selected (s.reg (key 0x2300 1)) s.drawn
  let s := s.draw
  if !sel then s else
  let s := s.bump (rRel p 0x10) 1
  match s.checkTile p part.die t with
  | none => s.bump (rRel p 0x12) 1
  | some k =>
    let s := { s with works := s.works ++ [{ w with die := k / 8, tile := k % 8, dup := true }] }
    s.modCmd p r.id i (fun c => { c with samples := c.samples ++ [⟨unit, part.die * 8 + t, k⟩] })

/-- A pair-link group that the partition may use is UP (R236, R335). -/
def State.linkUp (s : State) (p : Nat) : Bool :=
  (List.range 16).any (fun g => bit (s.reg (key (0x5900 + p) 1)) g && s.reg (key (0x2510 + g) 1) == 1
    && s.reg (key (0x2510 + g) 3) == 2)

/-- The parts of a replay, one for each original part (R236): on the partner (die 64), on the next die of the partition, or on
the same die; none when item 3 finds no tile. -/
def State.replayParts (s : State) (p d : Nat) (parts : List Part) : Option (List Part) :=
  let ds := s.diesUp p
  if s.reg (rRel p 2) = 1 ∧ s.reg (key 0x2300 3) = 2 ∧ s.linkUp p then some (parts.map (fun x => { x with die := 64 }))
  else if 2 ≤ ds.length then some (parts.map (fun x => { x with die := (nextOf ds x.die).getD x.die }))
  else if onTiles d && parts.any (fun x => decide ((s.tilesUp x.die).length < 2)) then none
  else some parts

/-- The work units of a replay on tiles: on another die as R156 places them, on the same die one tile further (R236). -/
def State.placeReplay (s : State) (p : Nat) (r : Run) (descs : List Nat) (i : Nat) (orig x : Part) : State :=
  let tiles := s.tilesUp x.die
  let shift := if orig.die = x.die then 1 else 0
  if 48 ≤ x.die ∨ tiles = [] then s else
  (List.range x.count).foldl (fun s j =>
    let w : Work := ⟨p, r.id, i, x.die, tiles.getD ((j + shift) % tiles.length) 0, x.first + j, false, true,
      planOf descs i (x.first + j) (s.roomAt (refOf p r.id i) x.die), 0, none, 0, false⟩
    { s with works := s.works ++ [w] }) s

/-! ### The heavy-phase hint (R173, R370) -/

/-- Notice of heavy work to the power manager: HEAVY_NOTICES, and the guard on every die of the partition (R370). -/
def State.heavyNotice (s : State) (p run cmd : Nat) : State :=
  let s := s.modCmd p run cmd (fun c => { c with heavy := true })
  let s := s.bump (rPow p 0xB) 1
  (s.modPp p (fun x => { x with notices := x.notices ++ [(run, cmd, true)] })).avsFrom s (s.diesOf p)

/-! ### Residency periods and migration (R162, R164–R167) -/

/-- Migrations that a die takes part in (R162). -/
def PartRun.busyDie (r : PartRun) (c : Nat) : Bool := r.migs.any (fun g => g.src == c || g.dst == c)

/-- One transfer of a migration (R164, R167): a read of the source die's store by the destination's load engine, of no command,
of background class and best-effort. -/
def State.moveUnits (s : State) (p : Nat) (x : Copy) (dst : Nat) (m : Nat × Nat × Nat) : State :=
  let tag := s.freeTag dst 10
  let e := s.reg (rEpoch p) % 256
  let h := Head.unit
    { inline := 0, address := m.1, byteEn := 0, cmdSeq := 0xFFFFFFFF, runSeq := 0xFFFFFFFF, tag := tag, epoch := e, status := 0,
      cmd := 0x01, len := cdiv (m.1 % 128 + m.2.2) 128, inlineLen := 0, pkg := false, part := p, dstDie := x.die, dstEng := 8,
      srcDie := dst, srcEng := 10, orig := 63, qid := 0x3FF }
  let t : Xact := ⟨dst, 10, tag, h, s.now, none, m.2.1, m.2.2, e, none, false, [], true⟩
  let w : Waiting := ⟨.inject (Fin.ofNat 64 dst) false, p, h, [], 0, none, 2, 3, 0x3FF, s.now, true, s.clock.cycles, none, false⟩
  { s with xacts := s.xacts ++ [t], waiting := s.waiting ++ [w] }

/-- Start a migration of a copy, when its die, the destination and the partition are free for one (R162): space is reserved at the
destination and its transfers are issued (R164). -/
def State.migrate (s : State) (p : Nat) (x : Copy) (dst : Nat) (move : Bool) : State :=
  let r := s.prn p
  if r.busyDie x.die || r.busyDie dst || decide (4 ≤ r.migs.length) || r.copies.any (fun y => y.die == dst && !y.dropped
      && y.addr == x.addr && y.len == x.len && y.kind == x.kind) then s
  else
    let s := State.makeRoom p dst x.size 64 s
    if s.keepFits p dst x.size then
      let moves := x.spans.flatMap (fun e => cut4k (e.2 / 4096 + 2) (x.addr + e.1) e.1 e.2)
      let g : Migration := ⟨x.addr, x.len, x.kind, x.die, dst, move, digest64 x.bytes, x.size, moves.length, false⟩
      moves.foldl (fun s m => s.moveUnits p x dst m) (s.modPr p (fun r => { r with migs := r.migs ++ [g] }))
    else s

/-- Rules 1 to 3 of R162 for one copy, with the decayed counts of the period. -/
def State.residency (s : State) (p : Nat) (x : Copy) : State :=
  let thr := s.reg (rBlk p 7)
  let count (c : Nat) : Nat := sget (fun _ => 0) x.reads c
  let bare := (s.diesUp p).filter (fun c =>
    !(s.prn p).copies.any (fun y => y.die == c && !y.dropped && y.addr == x.addr && y.len == x.len && y.kind == x.kind))
  if x.dropped then s else
  let s := (bare.filter (fun c => decide (thr ≤ count c) && c != x.die && decide (0 < count c))).foldl
    (fun s c => s.migrate p x c false) s
  if 16 * count x.die < thr ∧ x.isHeld = false then
    match argmin (fun c => (2 ^ 64 - count c) * 64 + c) (s.diesUp p) with
    | some c => if c ≠ x.die ∧ bare.contains c ∧ 0 < count c then s.migrate p x c true else s
    | none => s
  else s

/-- The counts and ages of a copy at the end of a period: a ← a ÷ 2 + new (R162). -/
def Copy.aged (x : Copy) : Copy :=
  let reads := (List.range 48).foldl (fun m c =>
    sput (fun _ => 0) m c (sget (fun _ => 0) x.reads c / 2 + sget (fun _ => 0) x.fresh c)) []
  { x with reads := reads, fresh := [], unread := if x.fresh = [] then x.unread + 1 else 0, held := x.held + 1 }

/-- RESIDENCY_PERIOD (R161, R162): counts halve, unread copies are freed, and copies replicate or move. -/
def execResidencyPeriod (p : PartN) (s : State) : Res :=
  let q := p.val + 1
  let s := s.modPr q (fun r => { r with copies := r.copies.map Copy.aged })
  let s := (s.freeCopies q (fun x => decide (s.reg (rBlk q 6) ≤ x.unread) && s.evictable q x)).trimCopies q
  .next ((s.prn q).copies.foldl (fun s x => s.residency q x) s)

/-- End a migration without a commit (R166). -/
def State.cancelMig (s : State) (p : Nat) (g : Migration) : State :=
  (s.modPr p (fun r => { r with migs := r.migs.erase g })).bump (rBlk p 0x17) 1

/-- Commit a migration (R164): the destination's residency entry switches to its own copy, which no die has read yet; of a move, the
old copy stays until no part is bound to it. -/
def State.commitCopy (s : State) (p : Nat) (g : Migration) (x : Copy) : State :=
  let new : Copy :=
    { x with die := g.dst, held := 0, unread := 0, reads := [], fresh := [], bound := [], dropped := false, moved := false }
  let leave (y : Copy) : Copy := { y with dropped := true, moved := true }
  let s := s.modPr p (fun r =>
    { r with migs := r.migs.erase g, copies := updWhere (fun y => g.move && y == x) leave r.copies ++ [new] })
  let s := (s.bump (rBlk p 0x16) (b2n g.move)).bump (rBlk p 0x14) (b2n (!g.move))
  (((s.bump (key (0x6500 + g.dst) 6) 1).bump (key (0x6500 + g.src) 7) 1).sweepCopies p).countCopies p

/-- MIGRATION_READBACK_DONE (R164, R166): the read-back of the oldest migration all of whose units have arrived ends; it commits when
the digest agrees, and is cancelled when the source read poisoned or the digests differ. -/
def execMigrationReadbackDone (p : PartN) (poisoned differ : Bool) (s : State) : Res :=
  let q := p.val + 1
  .next (
    match (s.prn q).migs.find? (fun g => g.left == 0) with
    | none => s
    | some g =>
      match (s.prn q).copies.find? (fun x => x.die == g.src && x.addr == g.addr && x.len == g.len && x.kind == g.kind && !x.dropped) with
      | none => s.cancelMig q g
      | some x =>
        if poisoned || differ || g.bad || digest64 x.bytes != g.digest || !s.live g.dst then s.cancelMig q g
        else s.commitCopy q g x)

/-! ### Rebalancing (R163, R165, R168, R169) -/

/-- The middle of a sorted list of fractions n ÷ d, doubled: the mean of the middle two, or twice the middle one (R168). -/
def twiceMedian (l : List (Nat × Nat)) : Nat × Nat :=
  let less (a b : Nat × Nat) : Bool := decide (a.1 * b.2 < b.1 * a.2)
  let at_ (k : Nat) : Nat × Nat := (l.find? (fun x => decide (l.countP (fun y => less y x) ≤ k)
    && decide (k < l.countP (fun y => less y x) + l.countP (fun y => !less y x && !less x y)))).getD (0, 1)
  let n := l.length
  let a := at_ ((n - 1) / 2)
  let b := at_ (n / 2)
  (a.1 * b.2 + b.1 * a.2, a.2 * b.2)

/-- The weight of a die after a period (R168): h = n ÷ d. -/
def weighed (thr w n d : Nat) (med : Nat × Nat) : Nat :=
  if thr * d < 128 * n ∧ med.1 * d < n * med.2 then max 16 (w - w / 8)
  else if w < 64 then min 64 (w + 4) else w

/-- The consumer's buffer of an internal queue that has an HBM buffer behind it, with its command and descriptor. -/
def State.bufferUser (s : State) (p : Nat) (b : HbmBuf) : Option (Stream × Nat × Nat) :=
  (s.run p b.run).bind (fun r => (s.program p r.handle).bind (fun g => (r.consumer g.descs b.qid).bind (fun c =>
    ((c.inputs g.descs b.qid).find? (fun x => x.back.isSome)).map (fun x => (x, c.idx, g.descs.getD c.idx 0)))))

/-- Move an internal queue's HBM buffer to the next stack in R163's order that showed less than half its LATE_MEMORY cycles; new
transfers go there while the consumer empties the old one, and the rate estimate is invalid (R163, R165).  A pinned command's
does not move (R174), nor one that still drains its old stack. -/
def State.moveBuffer (s : State) (p : Nat) (b : HbmBuf) (late cons : Nat) (lateOn : Nat → Nat) : State :=
  match s.bufferUser p b with
  | none => s
  | some (x, i, d) =>
    let better := (s.stacksOf p).filter (fun m => m != b.stack && decide (2 * lateOn m < late))
    match argmin (s.stackKey p x.die) better with
    | none => s
    | some m =>
      if late * 8 ≤ cons ∨ dPin d = true ∨ b.old.isSome = true then s
      else
        let go (y : HbmBuf) : HbmBuf :=
          { y with stack := m, old := if x.ended < x.pushed then some b.stack else none, upto := x.pushed }
        let s := (s.modPr p (fun r => { r with bufs := updWhere (fun y => y == b) go r.bufs })).bump (rBlk p 0x16) 1
        s.modCmd p b.run i (fun c =>
          { c with streams := updWhere (fun y => y.id == x.id && y.back.isSome) Stream.spoil c.streams })

/-- Weights of every die of a partition at 64 (R168). -/
def State.levelWeights (s : State) (p : Nat) : State := (s.diesOf p).foldl (fun s c => s.setReg (rWeight c) 64) s

/-- The new weight and heavy fraction of one die: h = n ÷ d (R168, R176). -/
def State.weigh (s : State) (p : Nat) (med : Nat × Nat) (c n d : Nat) : State :=
  let s := s.setReg (key (0x6500 + c) 2) (min 255 (256 * n / d))
  if s.reg (rBlk p 5) = 0 then s
  else
    let w := s.reg (rWeight c)
    let v := weighed (s.reg (rBlk p 4)) w n d med
    (s.setReg (rWeight c) v).bump (rBlk p 0x19) (b2n (decide (v < w)))

/-- REBALANCE_PERIOD (R163, R168): `heavy` gives for each die that held work its cause-2 and cause-3 cycles and the cycles in
which it held work; `memory` for each buffered queue, as run and queue, its LATE_MEMORY cycles and its consumer's cycles. -/
def execRebalancePeriod (p : PartN) (heavy : List (DieC × W64 × W64)) (memory : List (Nat × Fin 1024 × W64 × W64)) (s : State) : Res :=
  let q := p.val + 1
  let held := (heavy.map (fun e => (e.1.val, e.2.1.toNat, e.2.2.toNat))).filter (fun e => decide (0 < e.2.2)
    && (s.diesOf q).contains e.1)
  let med := twiceMedian (held.map (fun e => (e.2.1, e.2.2)))
  let s := held.foldl (fun s e => s.weigh q med e.1 e.2.1 e.2.2) s
  let s := if s.reg (rBlk q 5) = 0 then s.levelWeights q else s
  let lateOn (m : Nat) : Nat := sumL ((memory.filter (fun e => (s.prn q).bufs.any (fun b =>
    b.run == e.1 && b.qid == e.2.1.val && b.stack == m))).map (fun e => e.2.2.1.toNat))
  .next (memory.foldl (fun s e =>
    match (s.prn q).bufs.find? (fun b => b.run == e.1 && b.qid == e.2.1.val) with
    | none => s
    | some b => s.moveBuffer q b e.2.2.1.toNat e.2.2.2.toNat lateOn) s)

end Sys2Proof.Machine
end

