-- ==== Sys2Proof/Machine/Items.lean ====
section
/-! DEFINITION. What each opcode computes from the bytes of its items (R85–R100). -/

namespace Sys2Proof.Machine

/-! ### What an operation computes (R86–R90) -/

/-- The item of a slot from its bytes. -/
def slotItem (x : Nat) (along : Bool) (bytes : List Byte) : Item := unpackItem (sFmt x) (sRows x) (sCols x) along bytes

/-- The conversion to a format that SAT, STOCH and the seed select (R28–R30, R86). -/
def convOf (d seed : Nat) : Conv := ⟨dSat d, dStoch d, seed⟩

/-- Results in an accumulation or working format, converted to the slot's format; equal formats are not converted (R86). -/
def encResult (d seed x : Nat) (src : Fmt) (rows : List (List Val)) : List Byte :=
  let cv : Conv := if sFmt x = src then ⟨false, false, seed⟩ else convOf d seed
  packItem (encodeRows (sFmt x) cv (sCols x) rows)

/-- Bytes that nothing determines (R126). -/
def freeBytes (draw n : Nat) : List Byte := (List.range n).map (Config.freeByte draw)

/-- The mode of a matrix operation (R86). -/
def matMode (d : Nat) : MatMode :=
  match dSubop d % 4 with
  | 1 => .bf16 (dSubop d / 16)
  | 2 => .int8 (dSubop d / 16)
  | _ => .normal

/-- LACC_SUM (R71): the sums over the items that its input holds one after another, and their overflows. -/
def laccOf (d : Nat) (along : Bool) (bytes : List Byte) : List (List Val) × Nat :=
  let n := bytes.length / dImm d 0
  opLaccSum (dSat d) ((List.range (dImm d 0)).map (fun k => slotItem (dSlot d 0) along (slice bytes (k * n) n)))
    (sTransposed (dSlot d 0))

/-- The operation of one descriptor on the bytes of its inputs by slot (R86–R89); `along` gives the block direction of each
slot's MX item.  Collectives and brim stages are not computed here. -/
def made (d seed : Nat) (along : Nat → Bool) (ins : Nat → List Byte) : List (Nat × List Byte) :=
  let it (i : Nat) : Item := slotItem (dSlot d i) (along i) (ins i)
  let tr (i : Nat) : Bool := sTransposed (dSlot d i)
  let o := dSlot d 4
  let cv := convOf d seed
  let one (bs : List Byte) : List (Nat × List Byte) := [(4, bs)]
  let moved (f : Item) : List (Nat × List Byte) := one (packItem f)
  let of := sFmt o
  match dOpcode d with
  | 0x10 => moved (opMove (it 0) (tr 0))
  | 0x11 => moved (opSlice (it 0) (tr 0) of (sRows o) (sCols o) (dImm d 0) (dImm d 1) (along 4) cv)
  | 0x12 => moved (opConcat (it 0) (it 1) (tr 0) (tr 1) (dSubop d == 1) of (sRows o) (sCols o) (along 4) cv)
  | 0x13 => moved (opGather (it 0) (it 1) (tr 0) (tr 1) of (sRows o) (sCols o) (along 4) cv)
  | 0x14 => moved (opScatter (it 0) (it 1) (it 2) (tr 0) (tr 1) (tr 2) of (sRows o) (sCols o) (along 4) cv)
  | 0x15 => (outSlots d).map (fun e => (e.1, packItem (opMove (it 0) (tr 0))))
  | 0x16 => moved (opFill of (sRows o) (sCols o) (along 4) (dImm d 0 + 2 ^ 32 * dImm d 1))
  | 0x20 =>
    let r := opMatmul (it 0) (it 1) (tr 0) (tr 1) (matMode d) (dSat d) 1
    one (encResult d seed o (accFmt d) r.1)
  | 0x21 =>
    let r := opMatmul (it 0) (it 1) (tr 0) (tr 1) (matMode d) (dSat d) (dImm d 0)
    one (encResult d seed o (accFmt d) r.1)
  | 0x30 =>
    let fp64 := dSubop d % 2 == 1
    let b := if sUsed (dSlot d 1) then some (it 1) else none
    let r := opVecChain (it 0) (tr 0) b (tr 1) fp64 (dSat d) (chainImm d) (dImm d 6) (dImm d 7)
    one (encResult d seed o (if fp64 then .fp64 else .fp32) r)
  | 0x31 =>
    let g := if sUsed (dSlot d 1) then some (it 1, tr 1) else none
    let b := if sUsed (dSlot d 2) then some (it 2, tr 2) else none
    one (encResult d seed o .fp32 (opRowOp (dSubop d) (dSat d) (f32 (dImm d 6)) (it 0) (tr 0) g b))
  | 0x32 =>
    one (encResult d seed o (reduceFmt (sFmt (dSlot d 0))) (opColReduce (dSubop d) (dSat d) (it 0) (tr 0)))
  | 0x33 =>
    one (encResult d seed o .int48 (laccOf d (along 0) (ins 0)).1)
  | _ => []

/-- The block direction of a slot of a stage: its queue's or its link's (R79, R100). -/
def stageAlong (descs stages : List Nat) (d slot : Nat) : Bool :=
  alongOf descs stages (dSlot d slot)

/-- The bytes that a stage's input slot takes: its link's, or its end's (R100). -/
def stageIn (ends : List End) (links : List (Nat × List Byte)) (st d i : Nat) : List Byte :=
  let x := dSlot d i
  if sLink x then (links.find? (fun l => l.1 == sQid x)).elim [] (·.2)
  else (ends.find? (fun e => e.id == st * 8 + i)).elim [] End.data

/-- What a stage puts out at each output slot: its operation's results, or, of a brim stage, what the fabric gave (R99). -/
def stageOut (descs stages : List Nat) (seed : Nat) (ends : List End) (links : List (Nat × List Byte)) (st d : Nat) :
    List (Nat × List Byte) :=
  if dOpcode d = 0x50 then (outSlots d).map (fun e => (e.1, (ends.find? (fun x => x.id == st * 8 + e.1)).elim [] End.data))
  else made d seed (stageAlong descs stages d) (stageIn ends links st d)

/-- The links that a list of stages has pushed, the latest first (R100). -/
def linksAfter (descs stages : List Nat) (seed : Nat) (ends : List End) : List (Nat × Nat) → List (Nat × List Byte) →
    List (Nat × List Byte)
  | [], links => links
  | (st, d) :: rest, links =>
    linksAfter descs stages seed ends rest
      (((stageOut descs stages seed ends links st d).filter (fun e => sLink (dSlot d e.1))).map
        (fun e => (sQid (dSlot d e.1), e.2)) ++ links)

/-- The stages of a command in order (R99, R100): the bytes at each output end.  `links` holds the links pushed so far. -/
def runStages (descs stages : List Nat) (seed : Nat) (ends : List End) :
    List (Nat × Nat) → List (Nat × List Byte) → List (Nat × List Byte)
  | [], _ => []
  | (st, d) :: rest, links =>
    let outs := stageOut descs stages seed ends links st d
    let pushed := (outs.filter (fun e => sLink (dSlot d e.1))).map (fun e => (sQid (dSlot d e.1), e.2))
    let queued := (outs.filter (fun e => !sLink (dSlot d e.1))).map (fun e => (st * 8 + e.1, e.2))
    queued ++ runStages descs stages seed ends rest (pushed ++ links)

/-- What a command puts out at its output ends, from its input ends. -/
def outsOf (f : Found) (ends : List End) : List (Nat × List Byte) :=
  let stages := stagesOf f.prog.descs f.cmd.idx
  runStages f.prog.descs stages f.run.seed ends (stages.mapIdx (fun i d => (i, d))) []

/-- The bytes of an input slot of stage `st` of a command. -/
def inputOf (f : Found) (ends : List End) (st i : Nat) : List Byte :=
  let stages := stagesOf f.prog.descs f.cmd.idx
  let before := (stages.mapIdx (fun i d => (i, d))).take st
  stageIn ends (linksAfter f.prog.descs stages f.run.seed ends before []) st (stages.getD st 0) i

/-- The item at an input slot of stage `st` of a command. -/
def itemOf (f : Found) (ends : List End) (st i : Nat) : Item :=
  let stages := stagesOf f.prog.descs f.cmd.idx
  let d := stages.getD st 0
  slotItem (dSlot d i) (stageAlong f.prog.descs stages d i) (inputOf f ends st i)

end Sys2Proof.Machine
end

