-- ==== Sys2Proof/Machine/Blocks.lean ====
section
/-! DEFINITION. The blocks of the tiles (R40–R62, R69, R73, R157): how a block begins and ends, what the array, its feeder queues,
stationary buffers and column accumulators hold, and the waits that it counts. -/

namespace Sys2Proof.Machine

/-! ### What a block needs and what it gives -/

/-- The spans of a stage's input that a block of a work unit takes: of a product's untransposed IN1 the rows of its K chunk, else
the unit's (R50, R154). -/
def blockSpans (descs : List Nat) (i unit : Nat) (b : Block) (e : Nat × Nat × Nat) : List (Nat × Nat) :=
  let x := e.2.2
  if b.array && e.1 % 8 == 1 && dOpcode e.2.1 == 0x20 && !sTransposed x then
    rowSpans (sFmt x) (sRows x) (sCols x) (slotAlong descs x) (128 * b.chunk) 128
  else repeatSpans (itemsOf e.2.1) (slotSize descs x) (partSpans descs i e.1 e.2.1 x unit 1)

/-- A span of an input has arrived for a part on a die, or for a duplicate or replay that reads a stream of its own. -/
def Cmd.holds (c : Cmd) (id own die : Nat) (span : Nat × Nat) : Bool :=
  match c.stream own die with
  | some y => decide (span.2 ≤ spanCover y span)
  | none => (c.finish id).any End.full

/-- What a work unit's block takes from the queues has arrived: the block has been able to stream to its end. -/
def blockArrived (f : Found) (w : Work) (b : Block) : Bool :=
  (cmdEnds f.prog.descs w.cmd).all (fun e => decide (4 ≤ e.1 % 8) || e.1 / 8 != b.stage
    || (blockSpans f.prog.descs w.cmd w.unit b e).all
        (f.cmd.holds e.1 (if w.dup || w.replay then 128 + e.1 else e.1) w.die))

/-- The column-accumulator entries of a block's columns after the first `chunks` K chunks, by m and then n, and the overflows up to
there (R49–R52). -/
def chunkSums (d : Nat) (a b : Item) (unit : Nat) (x : Block) (chunks : Nat) : List (List Val) × Nat :=
  let ta := sTransposed (dSlot d 0)
  let tb := sTransposed (dSlot d 1)
  let cut (l : List (List Val)) : List (List Val) := l.map (fun r => r.take (128 * chunks))
  let run (rows bt : List (List Val)) : List (List Val) × Nat :=
    matRows (matMode d) (fmtInt a.fmt) (dSat d) (cut rows) (cut ((bt.drop x.col).take x.cols))
  if dOpcode d = 0x20 then
    run (((opRows a ta).drop (128 * unit)).take 128) (transposeL (opShape b tb).2 (opRows b tb))
  else
    let n := dImm d 0
    let q := packOf d
    let per (i : Nat) : List (List Val) × Nat :=
      let br := problemRows b tb n i
      let ar := problemRows a ta n i
      run (if q < 2 then (ar.drop (128 * x.mblock)).take 128 else ar) (transposeL ((br.headD []).length) br)
    let l := (List.range (min q (n - unit * q))).map (fun i => per (unit * q + i))
    (l.flatMap (·.1), sumL (l.map (·.2)))

/-- A half of a tile holds a work unit's column group (R49). -/
def Half.of (h : Half) (w : Work) (b : Block) : Bool :=
  h.p == w.p && h.run == w.run && h.cmd == w.cmd && h.unit == w.unit && h.stage == b.stage && h.mblock == b.mblock
    && h.col == b.col && h.copy == (w.dup || w.replay)

/-- A block has ended (R49–R52, R71): its chunk's sums stand in the half, its overflows are counted on the tile that ran it. -/
def State.blockDone (s : State) (w : Work) (b : Block) : State :=
  match s.find (refOf w.p w.run w.cmd) with
  | none => s
  | some f =>
    let d := (stagesOf f.prog.descs w.cmd).getD b.stage 0
    if b.array then
      if !b.sums then s else
      let a := itemOf f f.cmd.ends b.stage 0
      let y := itemOf f f.cmd.ends b.stage 1
      let now := chunkSums d a y w.unit b (b.chunk + 1)
      let before := if b.chunk = 0 then 0 else (chunkSums d a y w.unit b b.chunk).2
      let s := s.bump (rTile w.die w.tile 6) (now.2 - before)
      let codes := (encodeRows (accFmt d) ⟨false, false, 0⟩ b.cols now.1).codes
      let fill (h : Half) : Half := { h with entries := codes, done := b.last }
      s.modArray w.die w.tile (fun x => { x with halves := updWhere (fun h => h.of w b) fill x.halves })
    else if dOpcode d = 0x33 then
      s.bump (rTile w.die w.tile 0xA) (laccOf d (stageAlong f.prog.descs [] d 0) (inputOf f f.cmd.ends b.stage 0)).2
    else s

/-- A tile whose last work unit has gone has no block before its next one (R48). -/
def State.idleTile (s : State) (c t : Nat) : State :=
  if s.works.any (fun v => v.die == c && v.tile == t) then s
  else s.modArray c t (fun x => { x with last := 0, current := none, loading := none, feed := [], stopped := false })

/-- A work unit leaves its tile with the halves that it holds. -/
def State.takeWork (s : State) (w : Work) : State :=
  let mine (h : Half) : Bool :=
    h.p == w.p && h.run == w.run && h.cmd == w.cmd && h.unit == w.unit && h.copy == (w.dup || w.replay)
  let s := s.modArray w.die w.tile (fun x => { x with halves := x.halves.filter (fun h => !mine h) })
  ({ s with works := s.works.erase w }).idleTile w.die w.tile

/-- A work unit has ended on its tile, its last block with it. -/
def State.endWork (s : State) (w : Work) : State :=
  (match w.active with
    | some b => s.blockDone w b
    | none => s).takeWork w

/-- The work unit whose block is in progress on a tile. -/
def State.activeWork (s : State) (c t : Nat) : Option Work :=
  s.works.find? (fun w => w.die == c && w.tile == t && w.active.isSome)

/-- The block in progress on a tile still waits for what it takes. -/
def State.activeWaits (s : State) (c t : Nat) : Bool :=
  (s.activeWork c t).any (fun w =>
    match w.active, s.find (refOf w.p w.run w.cmd) with
    | some b, some f => !blockArrived f w b
    | _, _ => false)

/-- The block in progress on a tile ends, when what it takes has arrived. -/
def State.endActive (s : State) (c t : Nat) : State :=
  if s.activeWaits c t then s else
  match s.activeWork c t with
  | none => s
  | some w =>
    match w.active with
    | none => s
    | some b =>
      let s := s.blockDone w b
      { s with works := updWhere (fun v => v == w) (fun v => { v with active := none }) s.works }

/-- A work unit is over: every block has begun, and the last has streamed to its end. -/
def workOver (f : Found) (w : Work) : Bool := w.plan == [] && w.active.all (blockArrived f w)

/-! ### Feeder queues and stationary values (R42, R47) -/

/-- The code of B[k, n] of problem `i` of an item of `b` problems, as the operation uses it. -/
def bCode (it : Item) (tr : Bool) (b i k n : Nat) : Nat :=
  let h := it.rows / b
  it.codes.getD (if tr then (i * h + n) * it.cols + k else (i * h + k) * it.cols + n) 0

/-- The feeder queues as a block begins (R42, R56): for each row that it uses, the codes of its first columns, at most 32 and as
far as the chunk's B has arrived. -/
def feedOf (f : Found) (w : Work) (b : Block) : List (List Nat) :=
  if !b.array || !blockArrived f w b then [] else
  let d := (stagesOf f.prog.descs w.cmd).getD b.stage 0
  let it := itemOf f f.cmd.ends b.stage 1
  let n := if dOpcode d = 0x21 then dImm d 0 else 1
  let q := if dOpcode d = 0x21 then packOf d else 1
  let k := if sTransposed (dSlot d 1) then it.cols else it.rows / n
  let first := if dOpcode d = 0x21 then w.unit * q else 0
  (List.range b.rows).map (fun r =>
    let i := if 2 ≤ q then first + r / k else first
    let row := if 2 ≤ q then r % k else 128 * b.chunk + r
    (List.range (min 32 b.cols)).map (fun c => bCode it (sTransposed (dSlot d 1)) n i row (b.col + c)))

/-- The stationary values of a work unit's next block (R41, R47): the vector unit delivers those of a dependent stage. -/
def Work.stationary (w : Work) (b : Block) : Stationary := ⟨w.p, w.run, w.cmd, w.unit, w.begun, b.dependent, b.load⟩

/-- The stationary operand of a work unit's next block stands in the tile's source (R48). -/
def State.hasSource (s : State) (w : Work) : Bool :=
  match w.plan, s.find (refOf w.p w.run w.cmd) with
  | b :: _, some f =>
    (cmdEnds f.prog.descs w.cmd).all (fun e => e.1 != b.stage * 8
      || (blockSpans f.prog.descs w.cmd w.unit b e).all (f.cmd.holds e.1 (if w.dup || w.replay then 128 + e.1 else e.1) w.die))
  | _, _ => false

/-- An internal input of a command comes from a brim stage whose attachment is frozen for reconfiguration (R61). -/
def State.frozenInput (s : State) (f : Found) : Bool :=
  (cmdEnds f.prog.descs f.cmd.idx).any (fun e => decide (e.1 % 8 < 4) && isInternalQ f.prog.descs (sQid e.2.2)
    && f.run.cmds.any (fun c => (cmdEnds f.prog.descs c.idx).any (fun o => decide (4 ≤ o.1 % 8) && sQid o.2.2 == sQid e.2.2)
      && c.parts.any (fun x => (s.brim x.die).attach.any (fun a =>
        a.frozen && a.p == f.p && a.run == f.run.id && a.cmd == c.idx))))

/-! ### BLOCK_START -/

/-- The counters a block moves on its tile (R62, R75); `ends` tells that the tile's matrix work ends with it. -/
def State.blockCounts (s : State) (c t : Nat) (b : Block) (ends : Bool) : State :=
  let s := (s.bump (rTile c t 8) b.lane).bump (rTile c t 9) b.special
  if b.array then
    (((s.bump (rTile c t 1) b.macs).bump (rTile c t 2) (b.cycles + (if ends then b.drain else 0))).bump (rTile c t 3) 1).bump
      (rTile c t 7) (b2n b.packed)
  else s

/-- The waits of a block before and while it streams, each counted to the command (R44, R48, R53, R54, R61, R73, R140): behind an
exposed drain, for its stationary values, for a half of the column accumulators, and for a queue that ran empty. -/
def State.blockWaits (s : State) (w : Work) (exposed load held starved cause : Nat) : State :=
  let c := w.die
  let t := w.tile
  let s := ((s.bump (rTile c t 4) load).bump (rTile c t 5) exposed).bump (rTile c t 2) exposed
  let s := s.bump (rTile c t 0xB) held
  let st (s : State) (k n : Nat) : State := s.stall w.p w.run w.cmd c t k n
  st (st (st (st s 0 load) 4 exposed) 1 held) cause starved

/-- The tile after a work unit has begun its next block: the block in progress, a half taken by a new column group, the buffers
switched and the next load begun (R47, R49). -/
def State.switchBlock (s : State) (w : Work) (b : Block) (feed : List (List Nat)) (clock : Nat) : State :=
  let c := w.die
  let t := w.tile
  let here (v : Work) : Bool := v.die == c && v.tile == t
  let go (v : Work) : Work :=
    if v == w then
      { v with plan := v.plan.tail, begun := v.begun + 1, active := some b, released := if b.array then clock else v.released }
    else v
  let s := { s with works := s.works.map (fun v => if here v then { go v with staged := s.hasSource (go v) } else v) }
  let half : Half := ⟨w.p, w.run, w.cmd, w.unit, b.stage, b.mblock, b.col, w.dup || w.replay, [], false⟩
  let next := (s.nextWork c t).bind (fun v => v.plan.head?.map v.stationary)
  s.modArray c t (fun x =>
    { x with clock := clock, last := if b.array then b.cycles else x.last, at_ := s.now, current := if b.array then some (w.stationary b) else x.current,
             loading := next, feed := feed, stopped := false, halves := if b.half && b.first then x.halves ++ [half] else x.halves })

/-- BLOCK_START (R44, R47–R54, R73, R140, R157): at the end of the block in progress the tile begins a block of the first ready
batt.  The waits for an exposed drain and for stationary values follow from the blocks; `late` are the cycles by which the
stationary values themselves came late, `held` those for which the array stood before a column group with no half free, and
`starved` those for which it waited on the empty queue of each row. -/
def execBlockStart (die : DieC) (tile : TileN) (late held : W32) (starved : List (Fin 128 × W32)) (s : State) : Res :=
  let c := die.val
  let t := tile.val
  .next (
    if !s.tileUp c t then s else
    if s.activeWaits c t then s else
      let s := s.endActive c t
      match s.nextWork c t with
      | none => s
      | some w =>
        match w.plan, s.find (refOf w.p w.run w.cmd) with
        | b :: _, some f =>
          let x := s.array c t
          if b.half && b.first && decide (2 ≤ x.halves.length) then s.modArray c t (fun y => { y with stopped := true })
          else
            let exposed := s.earliest w - x.clock
            let base := if b.array && !b.dependent then loadCycles b.load - x.last else 0
            let load := base + (if b.array && (b.dependent || !w.staged) then late.toNat else 0)
            let stop := if b.half && b.first && x.stopped then held.toNat else 0
            let empty := sumL ((starved.filter (fun e => !b.array || decide (e.1.val < b.rows))).map (fun e => e.2.toNat))
            let ends := b.array && !s.works.any (fun v => v.die == c && v.tile == t
              && ((if v == w then v.plan.tail else v.plan).any Block.array))
            let s := (s.blockCounts c t b ends).blockWaits w exposed load stop empty (if s.frozenInput f then 7 else 0)
            s.switchBlock w b (feedOf f w b) (x.clock + exposed + b.cycles)
        | _, _ => s)

/-! ### HALF_RELEASE -/

/-- A row operation still works, or has yet to work, in a half that delivers (R69). -/
def State.rowOpIn (s : State) (c t : Nat) (h : Half) : Bool :=
  s.works.any (fun w => w.die == c && w.tile == t && w.p == h.p && w.run == h.run && w.cmd == h.cmd && w.unit == h.unit
    && (w.dup || w.replay) == h.copy
    && (w.active.any Block.rowOp || (w.plan.takeWhile (fun b => !b.array)).any Block.rowOp))

/-- HALF_RELEASE (R69, R73): all 128 lanes have finished the entries of the oldest half whose column group is complete and in
which no row operation works. -/
def execHalfRelease (die : DieC) (tile : TileN) (s : State) : Res :=
  let c := die.val
  let t := tile.val
  let ending := s.works.any (fun w => w.die == c && w.tile == t && w.active.any (fun b => b.half && b.last))
  let s := if ending then s.endActive c t else s
  .next (
    match (s.array c t).halves.find? (fun h => h.done && !s.rowOpIn c t h) with
    | none => s
    | some h => s.modArray c t (fun x => { x with halves := x.halves.erase h }))

end Sys2Proof.Machine
end

