-- ==== Sys2Proof/Machine/Engines.lean ====
section
/-! DEFINITION. Issue and execution of commands (R85–R101, R111, R125, R154–R160, R229, R236): what each opcode computes from
its items and where the results go. -/

namespace Sys2Proof.Machine

/-! ### Queues between commands (R77, R78, R97, R111, R128) -/

/-- A producer pushes an item or a marker to an internal queue of a run; it goes into the buffer of a consumer that has issued, as
far as there is space (R78, R128). -/
def Run.push (descs : List Nat) (r : Run) (q : Nat) (v : QState) : Run :=
  Run.flow descs { r with queues := sput (fun _ => QState.empty) r.queues q v }

def State.pushQueue (s : State) (p run : Nat) (descs : List Nat) (q : Nat) (v : QState) : State :=
  s.modRun p run (fun r => r.push descs q v)

/-- Internal queues that a command pushes, with the size of their item. -/
def pushes (descs : List Nat) (i : Nat) : List (Nat × Nat) :=
  ((cmdEnds descs i).filter (fun e => decide (4 ≤ e.1 % 8) && isInternalQ descs (sQid e.2.2))).map
    (fun e => (sQid e.2.2, slotSize descs e.2.2))
/-- The memory-bound outputs of a command (R78). -/
def memoryOutputs (descs : List Nat) (i : Nat) : List (Nat × Nat × Nat) :=
  (cmdEnds descs i).filter (fun e => decide (4 ≤ e.1 % 8) && !isInternalQ descs (sQid e.2.2))
/-- Queues that a command pops. -/
def pops (descs : List Nat) (i : Nat) : List Nat :=
  ((cmdEnds descs i).filter (fun e => decide (e.1 % 8 < 4))).map (fun e => sQid e.2.2)

/-- A command issues nothing more: its inputs release their buffers, and of its outputs only the writes issued are left to
settle (R92, R152). -/
def Cmd.stopStreams (c : Cmd) : Cmd :=
  { c with streams := (c.streams.filter (fun x => decide (4 ≤ x.id % 8))).map (fun x => { x with moves := x.moves.take x.issued }) }

/-- A command ends without doing more work: its streams stop and its works go, copies it bound are released (R97, R152,
R164). -/
def State.dropWork (s : State) (p run i : Nat) : State :=
  let s := s.modCmd p run i (fun c => { c.stopStreams with samples := [] })
  let s := (s.works.filter (fun w => w.p == p && w.run == run && w.cmd == i)).foldl State.takeWork s
  let s := s.modPr p (fun r => { r with copies := r.copies.map (fun x => { x with bound := x.bound.filter (· != (run, i)) }) })
  s.sweepCopies p

/-- Withdraw the heavy-phase notice of a command (R173, R370). -/
def State.endNotice (s : State) (p run i : Nat) : State :=
  (s.modPp p (fun x => { x with notices := x.notices.filter (fun n => !(n.1 == run && n.2.1 == i)) })).avsFrom s (s.diesOf p)

/-- The engines of the dies on which a command held work count it (R141). -/
def State.endEngines (s : State) (f : Found) : State :=
  if f.cmd.phase == .issued then (f.cmd.engineDies f.prog.descs).foldl State.engineBusy s else s

/-- A command is skipped (R97, R98): it computes nothing, pushes a skip marker at each output, and is done but for its record; it
withdraws its heavy-phase hint as it completes (R173).
The markers that it pops, and those at its memory-bound outputs, have passed their queues (R142). -/
def State.skipCmd (s : State) (f : Found) : State :=
  let descs := f.prog.descs
  let s := (s.endEngines f).dropWork f.p f.run.id f.cmd.idx
  let s := (pushes descs f.cmd.idx).foldl (fun s e => s.pushQueue f.p f.run.id descs e.1 .marker) s
  let popped := (pops descs f.cmd.idx).filter (fun q => sget (fun _ => QState.empty) f.run.queues q == .marker)
  let s := (popped ++ (memoryOutputs descs f.cmd.idx).map (fun e => sQid e.2.2)).foldl (fun s q => s.monitor f.p q 2 1) s
  let begun := if f.cmd.phase = .waiting then s.now else f.cmd.start
  s.modCmd f.p f.run.id f.cmd.idx (fun c =>
    { c with fixed := some 0x02, phase := .computed, parts := [], replays := [], start := begun, settledAt := s.now })

/-! ### Eligibility (R92, R96, R101) -/

/-- The dependencies of a command are released (R92). -/
def depsReleased (descs : List Nat) (r : Run) (d : Nat) : Bool :=
  (dDeps d).all (fun q => r.cmds.any (fun x => dSeq (descs.getD x.idx 0) == q && x.phase == .complete))

/-- Commands of a partition in flight (R101). -/
def PartRun.inFlight (r : PartRun) : Nat :=
  sumL (r.runs.map (fun x => x.cmds.countP (fun c => c.phase != .waiting && c.phase != .complete)))

/-- Another replay-guarded command of the partition is in flight (R237). -/
def State.guardBusy (s : State) (p : Nat) : Bool :=
  (s.prn p).runs.any (fun r => (s.program p r.handle).any (fun g =>
    r.cmds.any (fun c => c.phase != .waiting && c.phase != .complete && dReplay (g.descs.getD c.idx 0))))

/-- A port that a brim stage of the command needs serves another part on a die (R291). -/
def State.portBusy (s : State) (descs : List Nat) (i c : Nat) : Bool :=
  (brimPorts descs i).any (fun e => (s.brim c).attach.any (fun a => a.port == e.1))
    || s.prun.any (fun e => e.2.runs.any (fun r => (s.program e.1 r.handle).any (fun g => r.cmds.any (fun x =>
        x.phase == .issued && x.parts.any (fun y => y.die == c)
          && (brimPorts g.descs x.idx).any (fun y => (brimPorts descs i).any (fun z => z.1 == y.1))))))

/-- A SKIP marker stands at an input of the command. -/
def markerAt (descs : List Nat) (r : Run) (i : Nat) : Bool :=
  (pops descs i).any (fun q => sget (fun _ => QState.empty) r.queues q == .marker)

/-- SKIP_MARKER_POP (R98): a command that pops a skip marker is skipped whatever its predicate. -/
def execSkipMarkerPop (c : CmdRef) (s : State) : Res :=
  .next (
    match s.find c with
    | none => s
    | some f =>
      if markerAt f.prog.descs f.run c.cmd && (f.cmd.phase == .issued || (f.cmd.phase == .waiting
          && depsReleased f.prog.descs f.run f.desc)) then s.skipCmd f
      else s)

/-! ### Collective groups (R90, R418) -/

/-- Valid members of a group: number, package, partition (R418). -/
def State.members (s : State) (g : Nat) : List (Nat × Nat × Nat) :=
  ((List.range 16).map (fun j => (j, s.reg (key (0x2800 + g) (0x10 + j))))).filterMap (fun e =>
    if bit e.2 7 then some (e.1, b2n (bit e.2 6), bits e.2 4 0) else none)

/-- The number of a partition of this package in a group. -/
def State.selfMember (s : State) (g p : Nat) : Option Nat :=
  ((s.members g).find? (fun m => m.2.1 == s.reg (key 0x2500 1) && m.2.2 == p)).map (·.1)

/-- Members of a group that a partition may use: none when it is not listed (R120 0x15, R125). -/
def State.groupSize (s : State) (g p : Nat) : Nat := if (s.selfMember g p).isSome then (s.members g).length else 0

/-! ### Issue (R101, R125, R154–R156, R174, R236, R237) -/

/-- A command refused at issue: it completes with REFUSED 20 µs later (R5). -/
def State.refuseIssue (s : State) (c : CmdRef) (f : Found) : State :=
  let s := s.modCmd f.p f.run.id f.cmd.idx (fun x =>
    { x with fixed := some 0x31, detail := 0, phase := .issued, start := s.now, parts := [] })
  { s with refusals := s.refusals ++ [(s.now + 20000, .command c)] }

/-- Bytes that the outputs of a command take in the staging area, each item at a multiple of 4,096 (R237; log 36). -/
def stageBytes (descs : List Nat) (i : Nat) : Nat :=
  sumL (((cmdEnds descs i).filter (fun e => decide (4 ≤ e.1 % 8))).map (fun e => cdiv (slotSize descs e.2.2) 4096 * 4096))

/-- Where an output of a guarded command is staged: from HBM_BYTES up (R237). -/
def State.stageAddr (s : State) (p : Nat) (descs : List Nat) (i id : Nat) : Nat :=
  s.reg (rPmem p 3) + sumL (((cmdEnds descs i).filter (fun e => decide (4 ≤ e.1 % 8) && decide (e.1 < id))).map
    (fun e => cdiv (slotSize descs e.2.2) 4096 * 4096))

/-- What the checks of R125, R236, R237 and R247 refuse at issue. -/
def State.refusedAtIssue (s : State) (f : Found) (parts : List Part) : Bool :=
  let d := f.desc
  let g := dImm d 0 % 16
  let stages := stagesOf f.prog.descs f.cmd.idx
  (dPin d && s.reg (rBlk f.p 1) == 0)
    || (dOpcode d / 16 == 4 && s.groupSize g f.p == 0)
    || (dOpcode d == 0x43 && decide (s.groupSize g f.p ≤ dImm d 1))
    || (dReplay d && stages.any (fun e => dOpcode e / 16 == 4 || dOpcode e == 0x50))
    || (dReplay d && decide (s.reg (rRel f.p 1) * 1048576 < stageBytes f.prog.descs f.cmd.idx))
    || (dReplay d && (s.replayParts f.p d parts).isNone)
    || parts == []

/-- The streams of one part (R128, R129, R133): at its inputs and its memory-bound outputs, whose items go to the staging area
when the command is guarded (R237); of what a duplicate or a replay reads from memory, streams of its own (R230, R236).
`tiles` are those whose stores hold the buffers of tile work. -/
def State.placePart (s : State) (f : Found) (logs : List (Fin 128 × Fin 17)) (tiles : Nat) (twin : Bool) (x : Part) : State :=
  let descs := f.prog.descs
  let i := f.cmd.idx
  (cmdEnds descs i).foldl (fun s e =>
    let out := decide (4 ≤ e.1 % 8)
    let inner := isInternalQ descs (sQid e.2.2)
    let guarded := dReplay f.desc && out
    if (twin && (out || inner)) || (out && inner && !guarded) then s else
    let here := inTiles e.2.1
    s.addStream { p := f.p, r := f.run, descs := descs, idx := i, part := x, eng := engineOf e.2.1 tiles,
                  tiles := if here then tiles else 0, want := chosenLog logs e.1 16, cap := if here then 8 else 11,
                  stage := if guarded then some (s.stageAddr f.p descs i e.1) else none, twin := twin } e) s

/-- The monitors of the queues at a command's ends take the size and the home of the buffers made, and an internal input that the
store is too small for gets its HBM buffer (R129, R142, R163). -/
def State.placeQueues (s : State) (c : CmdRef) : State :=
  match s.find c with
  | none => s
  | some f =>
    (cmdEnds f.prog.descs f.cmd.idx).foldl (fun s e =>
      match f.cmd.streams.find? (fun x => x.id == e.1) with
      | none => s
      | some x =>
        let q := sQid e.2.2
        let s := if x.placed then s.monitorSet f.p q 5 (x.back.getD x.log2) else s
        let s := s.monitorSet f.p q 6 (homeCode f.prog.descs f.run x e.2.2)
        if x.home == 3 && x.back.isSome then
          s.modPr f.p (fun r => { r with bufs := r.bufs ++ [⟨f.run.id, q, s.bufferStack f.p x.die, none, 0⟩] })
        else s) s

/-- What the duplicates of a command's sampled units, and its replay, read from memory (R230, R236). -/
def State.placeTwins (s : State) (c : CmdRef) (logs : List (Fin 128 × Fin 17)) : State :=
  match s.find c with
  | none => s
  | some f =>
    let s := f.cmd.samples.foldl (fun s x =>
      s.placePart f logs (2 ^ (x.check % 8)) true ⟨x.check / 8, x.unit, 1, [], false⟩) s
    (f.cmd.replays.filter (fun x => decide (x.die < 48))).foldl (fun s x =>
      s.placePart f logs (maskOf (s.tilesUp x.die)) true x) s

/-- Ends of a command as it issues: those that name queues, and the link outputs of brim stages, which the fabric fills. -/
def State.issueEnds (f : Found) : List End :=
  let links := ((stagesOf f.prog.descs f.cmd.idx).mapIdx (fun st d =>
    if dOpcode d = 0x50 then ((outSlots d).filter (fun e => sLink e.2)).map (fun e => (st * 8 + e.1, d, e.2)) else [])).flatten
  (cmdEnds f.prog.descs f.cmd.idx ++ links).map (freshEnd f.prog.descs f.cmd.idx)

/-- Counters of an issue (R62, R175, R176). -/
def State.issueCounts (s : State) (f : Found) (parts : List Part) : State :=
  let d := f.desc
  let s := s.bump (rBlk f.p 0x10) (parts.countP (fun x => decide (x.die < 48)))
  let s := if dOpcode d = 0x21 then
      let q := packOf d
      s.bump (rBlk f.p 0x11) (if q < 2 then 0 else dImm d 0 / q + b2n (decide (2 ≤ dImm d 0 % q)))
    else s
  let s := s.bump (rBlk f.p 0x1B) (b2n (dPin d))
  parts.foldl (fun s x => if x.die < 48 then s.bump (key (0x6500 + x.die) 5) x.count else s) s

/-- The issue of a command whose predicate lets it run. -/
def State.issueCmd (s : State) (c : CmdRef) (f : Found) (logs : List (Fin 128 × Fin 17)) : State :=
  let descs := f.prog.descs
  let i := f.cmd.idx
  let d := f.desc
  let parts := s.partsOf f.p f.run descs i
  if s.refusedAtIssue f parts then s.refuseIssue c f
  else if parts.any (fun x => s.portBusy descs i x.die) then s
  else
    let order := (s.prn f.p).nextOrder
    let s := s.modPr f.p (fun r => { r with nextOrder := order + 1 })
    -- CTR_LOAD reads through an engine of the lowest die, and is attributed to none (R102)
    let low := (s.diesUp f.p).headD 0
    let s := if usesEngines descs i then s.engineTakes f.p (if dOpcode d = 3 then [low] else parts.map Part.die) else s
    let s := s.modCmd f.p f.run.id i (fun x =>
      { x with phase := .issued, parts := parts, ends := State.issueEnds f, order := order, cycle := s.clock.cycles, start := s.now })
    let s := (parts.map (fun x => if 48 ≤ x.die then { x with die := low } else x)).foldl (fun s x =>
      s.placePart f logs (maskOf (s.partTiles d x.die)) false x) s
    let s := s.modCmd f.p f.run.id i (fun x => (cmdEnds descs i).foldl (fun x e =>
      if e.1 % 8 < 4 ∧ !isInternalQ descs (sQid e.2.2) then x.settleEnd e.1 else x) x)
    let s := (s.placeQueues c).modRun f.p f.run.id (Run.flow descs)
    let s := if onTiles d then parts.foldl (fun s x => (List.range x.count).foldl (fun s j =>
        s.placeUnit f.p f.run descs i x (s.partTiles d x.die) j) s) s else s
    let reps := if dReplay d then (s.replayParts f.p d parts).getD [] else []
    let s := s.modCmd f.p f.run.id i (fun x => { x with replays := reps })
    let s := if onTiles d then (parts.zip reps).foldl (fun s e => s.placeReplay f.p f.run descs i e.1 e.2) s else s
    let s := s.placeTwins c logs
    let s := if dReplay d then
        let back := s.reg (rRel f.p 2) == 1 && reps.all (fun x => x.die != 64)
        (s.bump (rRel f.p 0x15) 1).bump (rRel f.p 0x17) (b2n back)
      else s
    let s := (s.issueCounts f parts).bump (rBlk f.p 0x1A) (b2n (s.affinityIgnored f.p f.run descs i))
    let tag := dAffinity d
    let s := if tag ≠ 0 ∧ !dPin d ∧ s.affinitySet f.run tag = [] then
        s.modRun f.p f.run.id (fun r => { r with affinity := sput (fun _ => 0) r.affinity tag (maskOf (parts.map Part.die)) })
      else s
    let s := if dHeavyAhead d && !f.cmd.heavy then s.heavyNotice f.p f.run.id i else s
    s.emit (.microOps c (maskOf ((parts.map Part.die).filter (fun x => decide (x < 48)))))

/-- A command is eligible (R92, R101): it waits for nothing but its issue. -/
def State.mayIssue (_s : State) (f : Found) : Bool :=
  f.cmd.phase == .waiting && depsReleased f.prog.descs f.run f.desc && !f.run.recording

/-- When a command became eligible: when its run started or the last of its dependencies was released, in ns. -/
def eligibleSince (f : Found) : Nat :=
  (f.run.cmds.filter (fun x => (dDeps f.desc).contains (dSeq (f.prog.descs.getD x.idx 0)))).foldl (fun t x => max t x.freed) f.run.start

/-- A command of a lower class number became eligible with this one and can issue too: the blocker places that one first
(R172). -/
def State.yields (s : State) (f : Found) : Bool :=
  (s.prn f.p).runs.any (fun r => r.cmds.any (fun x => (s.find (refOf f.p r.id x.idx)).any (fun g =>
    s.mayIssue g && eligibleSince g == eligibleSince f && decide (s.latOf f.p g.desc < s.latOf f.p f.desc)
      && !(dReplay g.desc && s.guardBusy f.p)
      && !(s.partsOf g.p g.run g.prog.descs x.idx).any (fun y => s.portBusy g.prog.descs x.idx y.die))))

/-- COMMAND_ISSUE (R96, R97, R101, R125, R154): once the dependencies are released the predicate is evaluated; the command is
skipped, refused, or divided into parts and broadcast.  A guarded command waits for another in flight (R237), a brim stage for
its port (R291). -/
def execCommandIssue (c : CmdRef) (logs : List (Fin 128 × Fin 17)) (s : State) : Res :=
  .next (
    match s.find c with
    | none => s
    | some f =>
      if !s.mayIssue f || decide (256 ≤ (s.prn f.p).inFlight) then s
      else if !predicate f.prog.header f.desc f.run.ctrs || markerAt f.prog.descs f.run c.cmd then s.skipCmd f
      else if (dReplay f.desc && s.guardBusy f.p) || s.yields f then s
      else s.issueCmd c f logs)

/-- Work units of a command that have been done (R173). -/
def Cmd.doneUnits (c : Cmd) (f : Found) (s : State) : Nat :=
  if c.phase == .issued then
    sumL (c.parts.map (fun x => ((List.range x.count).filter (fun j => !s.works.any (fun w => w.p == f.p && w.run == f.run.id
      && w.cmd == c.idx && w.unit == x.first + j && !w.dup && !w.replay && (w.plan != [] || w.active.isSome)))).length))
  else sumL (c.parts.map Part.count)

/-- The predicted completion of a dependency in ns: its start plus its elapsed time times its work units over those done; none while
none is done (R173). -/
def State.expected (s : State) (f : Found) (c : Cmd) : Option Nat :=
  let done := if onTiles (f.prog.descs.getD c.idx 0) || c.phase != .issued then c.doneUnits f s else 0
  if c.phase = .waiting ∨ done = 0 then none
  else some (c.start + (s.now - c.start) * sumL (c.parts.map Part.count) / done)

/-- HEAVY_NOTICE (R173): HEAVY_LEAD µs before the predicted issue of a command that has not been issued, the latest predicted
completion among its unreleased dependencies; with HEAVY_LEAD 0 the notice comes with the issue. -/
def execHeavyNotice (c : CmdRef) (s : State) : Res :=
  .next (
    match s.find c with
    | none => s
    | some f =>
      let lead := dHeavyLead f.desc
      let deps := f.run.cmds.filter (fun x => (dDeps f.desc).contains (dSeq (f.prog.descs.getD x.idx 0)) && x.phase != .complete)
      let due := deps.all (fun x => (s.expected f x).any (fun t => decide (t ≤ s.now + 1000 * lead)))
      if dHeavyAhead f.desc && !f.cmd.heavy && f.cmd.phase == .waiting && lead != 0 && due then s.heavyNotice f.p c.run c.cmd
      else s)

/-! ### Failures that travel with the data (R111, R219, R232, R239) -/

/-- The spans of a whole end that a part takes. -/
def partEndSpans (descs : List Nat) (i : Nat) (e : Nat × Nat × Nat) (x : Part) : List (Nat × Nat) :=
  repeatSpans (if e.1 % 8 < 4 then itemsOf e.2.1 else 1) (slotSize descs e.2.2) (partSpans descs i e.1 e.2.1 e.2.2 x.first x.count)

/-- A unit's own spans of an end. -/
def unitSpans (descs : List Nat) (i unit : Nat) (e : Nat × Nat × Nat) : List (Nat × Nat) :=
  repeatSpans (if e.1 % 8 < 4 then itemsOf e.2.1 else 1) (slotSize descs e.2.2) (partSpans descs i e.1 e.2.1 e.2.2 unit 1)

/-- A unit has read a poisoned word: its comparison is dropped (R248). -/
def Cmd.unitPoisoned (c : Cmd) (descs : List Nat) (unit : Nat) : Bool :=
  (cmdEnds descs c.idx).any (fun e => decide (e.1 % 8 < 4)
    && ((c.finish e.1).elim [] End.bad).any (fun b => (unitSpans descs c.idx unit e).any (spansMeet b)))

/-- A part with a sampled unit that reads a poisoned word has no comparison (R6, R248). -/
def Cmd.dropChecks (c : Cmd) (descs : List Nat) : Cmd :=
  let dies := (c.samples.filter (fun x => c.unitPoisoned descs x.unit)).map (fun x => x.tile / 8)
  { c with samples := c.samples.filter (fun x => !dies.contains (x.tile / 8)) }

/-- Units that no tile was left to run leave no results: what was not yet written of them is not (R74, R233). -/
def Cmd.dropLost (c : Cmd) (descs : List Nat) : Cmd :=
  let gone (id : Nat) : List (Nat × Nat) :=
    ((cmdEnds descs c.idx).filter (fun e => e.1 == id)).flatMap (fun e => c.lost.flatMap (fun u => unitSpans descs c.idx u e))
  let cut (x : Stream) : Stream :=
    { x with moves := x.moves.take x.issued ++ (x.moves.drop x.issued).filter (fun m =>
        !(gone x.id).any (fun b => spansMeet b (m.2.1, m.2.2))) }
  if c.lost = [] then c else { c with streams := c.streams.map (fun x => if x.id % 8 < 4 then x else cut x) }

/-- Parts that read a poisoned span of an input report POISONED_DATA (R111, R219). -/
def Cmd.readBad (c : Cmd) (descs : List Nat) : Cmd :=
  (cmdEnds descs c.idx).foldl (fun c e =>
    if 4 ≤ e.1 % 8 then c else
    let bad := (c.finish e.1).elim [] End.bad
    c.parts.foldl (fun c x =>
      if bad.any (fun b => (partEndSpans descs c.idx e x).any (spansMeet b)) then c.fail x.die 0x20 (sQid e.2.2) else c) c) c

/-- The spans of a queue's item that parts with a DUPLICATE_MISMATCH produced (R232). -/
def mismatchSpans (descs : List Nat) (r : Run) (q : Nat) : List (Nat × Nat) :=
  r.cmds.flatMap (fun c => ((cmdEnds descs c.idx).filter (fun e => decide (4 ≤ e.1 % 8) && sQid e.2.2 == q)).flatMap (fun e =>
    (c.parts.filter (fun x => x.fails.contains 0x42)).flatMap (partEndSpans descs c.idx e)))

/-- Parts that have popped data of a mismatching unit report DUPLICATE_MISMATCH too (R232). -/
def Cmd.inherit (c : Cmd) (descs : List Nat) (r : Run) : Cmd :=
  (cmdEnds descs c.idx).foldl (fun c e =>
    if 4 ≤ e.1 % 8 ∨ !isInternalQ descs (sQid e.2.2) then c else
    let sp := mismatchSpans descs r (sQid e.2.2)
    c.parts.foldl (fun c x =>
      if !x.fails.contains 0x42 && sp.any (fun b => (partEndSpans descs c.idx e x).any (spansMeet b)) then
        c.fail x.die 0x42 (sQid e.2.2)
      else c) c) c

/-- Spans of an output that failed parts leave untrusted; the whole output when it combines values across units (R111,
R239). -/
def Cmd.spoiled (c : Cmd) (descs : List Nat) (e : Nat × Nat × Nat) : List (Nat × Nat) :=
  let failed := c.parts.filter (fun x => x.fails != [])
  let combines := (stagesOf descs c.idx).any (fun d => dOpcode d == 0x32 || dOpcode d / 16 == 4)
  if failed = [] then [] else if combines then [(0, slotSize descs e.2.2)] else failed.flatMap (partEndSpans descs c.idx e)

/-! ### Items closed at the point reached (R111) -/

/-- The leading units of a part whose inputs have wholly arrived. -/
def Cmd.arrivedUnits (c : Cmd) (descs : List Nat) (x : Part) : Nat :=
  let here (u : Nat) : Bool := (cmdEnds descs c.idx).all (fun e => decide (4 ≤ e.1 % 8)
    || (c.finish e.1).any End.full
    || (unitSpans descs c.idx u e).all (fun b => c.streams.any (fun y => y.id == e.1 && y.die == x.die
        && decide (b.2 ≤ spanCover y b))))
  (((List.range x.count).map (x.first + ·)).takeWhile here).length

/-- Units of a part whose results can stand: on tiles those that no tile still works on, on an engine those whose inputs have
arrived. -/
def State.unitsMade (s : State) (f : Found) (x : Part) : List Nat :=
  let units := (List.range x.count).map (x.first + ·)
  if onTiles f.desc then
    units.filter (fun u => !f.cmd.lost.contains u && !s.works.any (fun w =>
      w.p == f.p && w.run == f.run.id && w.cmd == f.cmd.idx && w.unit == u && !w.dup && !w.replay
        && (w.plan != [] || w.active.isSome)))
  else units.take (f.cmd.arrivedUnits f.prog.descs x)

/-- Units of a part whose results have been pushed when its command ends early: on tiles those made, on an engine a leading number
of those, how many being free (log 103). -/
def State.unitsDone (s : State) (f : Found) (x : Part) : List Nat :=
  let units := (List.range x.count).map (x.first + ·)
  if onTiles f.desc then s.unitsMade f x
  else units.take (Config.freeNat 32 s.drawn % (f.cmd.arrivedUnits f.prog.descs x + 1))

/-- What stands in an internal output of a command that ends early (R111): its bytes and the spans not written, which read as
poisoned.  A brim stage's bytes and how many there are of them are the fabric's own, so free (R15; log 103). -/
def State.reachedItem (s : State) (f : Found) (e : Nat × Nat × Nat) : List Byte × List (Nat × Nat) :=
  let descs := f.prog.descs
  let n := slotSize descs e.2.2
  let ops := (stagesOf descs f.cmd.idx).map dOpcode
  if f.cmd.phase ≠ .issued ∨ f.cmd.parts = [] ∨ dReplay f.desc ∨ ops.any (fun o => o == 0x32 || o == 0x33 || o / 16 == 4) then
    (List.replicate n 0, [(0, n)])
  else if ops.contains 0x50 then
    if (f.cmd.finish e.1).any End.full then
      let x := (f.cmd.finish e.1).getD ⟨e.1, [], [], true⟩
      (x.data, x.bad)
    else
      let k := Config.freeNat 32 s.drawn % (n + 1)
      (freeBytes s.drawn n, [(k, n - k)])
  else
    let left := f.cmd.parts.flatMap (fun x =>
      let done := s.unitsDone f x
      (((List.range x.count).map (x.first + ·)).filter (fun u => !done.contains u)).flatMap (fun u =>
        unitSpans descs f.cmd.idx u e))
    (slice (((outsOf f f.cmd.ends).find? (fun o => o.1 == e.1)).elim [] (·.2)) 0 n, left)

/-- An output of a command that ends early closes at the point reached: what it has not been able to push reads as poisoned
(R111, R132). -/
def Run.closeQueue (descs : List Nat) (r : Run) (q : Nat) (bytes : List Byte) (bad : List (Nat × Nat)) : Run :=
  let t := r.push descs q (.item bytes bad false)
  t.push descs q (.item bytes (bad ++ t.unpushed descs q) true)

/-- Close every internal output that a command has not wholly pushed, at the point reached (R111). -/
def State.closeOutputs (s : State) (f : Found) : State :=
  let descs := f.prog.descs
  let open_ := (cmdEnds descs f.cmd.idx).filter (fun e => decide (4 ≤ e.1 % 8) && isInternalQ descs (sQid e.2.2))
  open_.foldl (fun s e =>
    let q := sQid e.2.2
    match (s.run f.p f.run.id).elim QState.marker (fun r => sget (fun _ => QState.empty) r.queues q) with
    | .empty =>
      let x := s.reachedItem f e
      (s.modRun f.p f.run.id (fun r => r.closeQueue descs q x.1 x.2)).draw
    | .item bytes bad false => s.modRun f.p f.run.id (fun r => r.closeQueue descs q bytes bad)
    | _ => s) s

/-! ### Writing outputs (R137) -/

/-- The bytes of a transfer of an output stand produced: the whole output, or every unit of the part that gives some of them. -/
def State.moveMade (s : State) (f : Found) (st : Stream) (e : Nat × Nat × Nat) (m : Nat × Nat × Nat) : Bool :=
  let descs := f.prog.descs
  let ops := (stagesOf descs f.cmd.idx).map dOpcode
  (f.cmd.finish st.id).any End.full
    || (f.cmd.phase == .issued && f.cmd.fixed.isNone && !f.run.undef
      && !ops.any (fun o => o == 0x32 || o == 0x33 || o / 16 == 4 || o == 0x50)
      && (f.cmd.parts.filter (fun x => x.die == st.die)).all (fun x =>
        let done := s.unitsMade f x
        ((List.range x.count).map (x.first + ·)).all (fun u => done.contains u
          || !(unitSpans descs f.cmd.idx u e).any (spansMeet (m.2.1, m.2.2)))))

/-- Push what an output's part has produced, and issue its next write transfer once its bytes lie in the buffer (R137). -/
def State.issueWrite (s : State) (f : Found) (c : CmdRef) (st : Stream) : State :=
  match (cmdEnds f.prog.descs f.cmd.idx).find? (fun e => e.1 == st.id) with
  | none => s
  | some e =>
    if st.id % 8 < 4 || !st.placed then s else
    let made := sumL ((st.moves.takeWhile (s.moveMade f st e)).map (fun m => m.2.2))
    let s := s.modRef c (fun x => x.modStream st.id st.die (fun y => y.push made))
    match st.moves[st.issued]? with
    | none => s
    | some m =>
      let fits := decide (st.issuedBytes + m.2.2 ≤ min made (st.done + st.room))
      if fits && decide (st.issued - st.ended < st.limit) && decide (st.issued - st.ended < 2 ^ st.log2) then
        let data := match f.cmd.finish st.id with
          | some y => if y.full then y.data else ((outsOf f f.cmd.ends).find? (fun o => o.1 == st.id)).elim [] (·.2)
          | none => []
        s.issueMove f c st m true (slice data m.2.1 m.2.2)
      else s

/-- OUTPUT_WRITE_ISSUE (R130, R134, R137): the buffer takes its space if it waits for it, the part pushes what it has produced, and
the next write transfer of the output is issued. -/
def execOutputWriteIssue (c : CmdRef) (fin : Fin 128) (die : DieC) (s : State) : Res :=
  let s := s.onStream c fin.val die.val (fun s f st => s.settleSpace f c st)
  .next (s.onStream c fin.val die.val (fun s f st => s.issueWrite f c st))

/-! ### Waits that end early (R7, R140) -/

/-- The cycles that a command has waited for its data, as it ends without having them (R7, R139, R140): on the engines of its dies
since they were last counted, on a tile whose next batt is its own since the tile's last block. -/
def State.endStalls (s : State) (f : Found) : State :=
  let s := (f.cmd.engineDies f.prog.descs).foldl (fun s c =>
    let g := s.engineOwner f c
    -- what its attachment was held for counts as cause 7 (R91)
    let held := maxL (((s.brim c).attach.filter (fun a => a.p == g.p && a.run == g.run.id && a.cmd == g.cmd.idx)).map
      (fun a => a.held + (if a.frozen then s.now - a.frozenAt else 0)))
    if g.cmd.waitsForInput then
      s.stall g.p g.run.id g.cmd.idx c 8 0 (s.mclkCycles c (s.now - max (sget (fun _ => 0) s.engines c) g.cmd.start - held))
    else s) s
  let mine (w : Work) : Bool := w.p == f.p && w.run == f.run.id && w.cmd == f.cmd.idx
  (((s.works.filter mine).map (fun w => w.die * 8 + w.tile)).eraseDups).foldl (fun s k =>
    let c := k / 8
    let t := k % 8
    let x := s.array c t
    match argmin s.workKey (s.works.filter (fun w => w.die == c && w.tile == t && (w.plan != [] || w.active.isSome))) with
    | none => s
    | some w =>
      let n := s.mclkCycles c (s.now - max x.at_ f.cmd.start) - (if f.cmd.start ≤ x.at_ then x.last else 0)
      if !mine w then s
      else if x.stopped then (s.bump (rTile c t 0xB) n).stall f.p f.run.id f.cmd.idx c t 1 n
      else if !s.workReady w || s.activeWaits c t then s.stall f.p f.run.id f.cmd.idx c t 0 n
      else s) s

/-! ### Carrying out an operation -/

/-- The inputs of a command have all arrived and every block of its work units has begun (R77, R157). -/
def State.canCompute (s : State) (f : Found) : Bool :=
  f.cmd.phase == .issued && f.cmd.fixed.isNone && f.cmd.ends.all (fun e => decide (4 ≤ e.id % 8) || e.full)
    && !s.works.any (fun w => w.p == f.p && w.run == f.run.id && w.cmd == f.cmd.idx && !w.dup && !w.replay && w.plan != [])

/-- The work units of a command, or of a unit of it, end on their tiles with their last blocks. -/
def State.endWorks (s : State) (f : Found) (q : Work → Bool) : State :=
  (s.works.filter (fun w => w.p == f.p && w.run == f.run.id && w.cmd == f.cmd.idx && q w)).foldl State.endWork s

/-- Keep the copies of the keep-resident inputs that a command has read from their region (R160). -/
def State.keepInputs (s : State) (f : Found) : State :=
  (cmdEnds f.prog.descs f.cmd.idx).foldl (fun s e =>
    if !(sKeep e.2.2 && decide (e.1 % 8 < 4)) then s else
    let b := f.run.binding (sQid e.2.2)
    match f.cmd.finish e.1 with
    | none => s
    | some x =>
      if x.bad != [] then s else
      (f.cmd.streams.filter (fun y => y.id == e.1 && decide (y.home < 2))).foldl (fun s y =>
        s.keepCopy f.p f.run.handle b y.die y.moves x.data) s) s

/-- Record the measurement of inputs marked measured (R263): SHA-384 of the item's bytes, taken when a region is first read; a
REFRESH replaces the region's digest in place, and beyond 64 items MEASURE_OVERFLOW is set. -/
def State.measureInputs (s : State) (f : Found) : State :=
  (cmdEnds f.prog.descs f.cmd.idx).foldl (fun s e =>
    if !(sMeasured e.2.2 && decide (e.1 % 8 < 4)) then s else
    let b := f.run.binding (sQid e.2.2)
    match f.cmd.finish e.1 with
    | none => s
    | some x =>
      let old := (s.psec f.p).measured
      let same (m : Nat × Nat × List Byte) : Bool := m.1 == bAddress b && m.2.1 == bLength b
      let item := (bAddress b, bLength b, sha384 x.data)
      if x.bad != [] then s
      else if old.any same then
        if bRefresh b then s.modSec f.p (fun y => { y with measured := updWhere same (fun _ => item) old }) else s
      else if 64 ≤ old.length then s.setReg (key (0x5200 + f.p) 5) 1
      else (s.modSec f.p (fun y => { y with measured := old ++ [item] })).setReg (key (0x5200 + f.p) 4) (old.length + 1)) s

/-! ### Undefined runs (R126, R127) -/

/-- A byte is one of the bytes concerned. -/
def Run.concerns (r : Run) (kind addr : Nat) : Bool :=
  r.concern.any (fun x => x.1 == kind && decide (x.2.1 ≤ addr) && decide (addr < x.2.1 + x.2.2))

/-- The regions that a command reads, or writes. -/
def Run.regions (r : Run) (descs : List Nat) (i : Nat) (out : Bool) : List Nat :=
  ((cmdEnds descs i).filter (fun e => (decide (4 ≤ e.1 % 8) == out) && !isInternalQ descs (sQid e.2.2))).map
    (fun e => r.binding (sQid e.2.2))

/-- Two regions share a byte. -/
def regionsMeet (a b : Nat) : Bool :=
  bKind a == bKind b && spansMeet (bAddress a, bLength a) (bAddress b, bLength b)

/-- A command reads bytes concerned. -/
def Run.readsConcern (r : Run) (descs : List Nat) (i : Nat) : Bool :=
  (r.regions descs i false).any (fun b => r.concern.any (fun x => x.1 == bKind b && spansMeet x.2 (bAddress b, bLength b)))

/-- What one command puts out, another takes in: through an internal queue or through a region. -/
def Run.feeds (r : Run) (descs : List Nat) (j i : Nat) : Bool :=
  (pushes descs j).any (fun q => (pops descs i).contains q.1)
    || (r.regions descs j true).any (fun a => (r.regions descs i false).any (regionsMeet a))

/-- The commands whose outputs reach those of a list; fuel: the number of commands. -/
def Run.sources (r : Run) (descs : List Nat) : Nat → List Nat → List Nat
  | 0, l => l
  | n + 1, l =>
    let more := (r.cmds.map Cmd.idx).filter (fun j => !l.contains j && l.any (r.feeds descs j))
    Run.sources r descs n (l ++ more)

/-- A command's outputs are computed from bytes concerned (R126). -/
def Run.tainted (r : Run) (descs : List Nat) (i : Nat) : Bool :=
  r.concern != [] && (r.sources descs r.cmds.length [i]).any (r.readsConcern descs)

/-- The bytes of an item whose places in its region are concerned are free (R126). -/
def Run.loosen (r : Run) (descs : List Nat) (e : Nat × Nat × Nat) (draw : Nat) (bs : List Byte) : List Byte :=
  if r.concern = [] || isInternalQ descs (sQid e.2.2) then bs else
  let b := r.binding (sQid e.2.2)
  (movesOf e.2.2 (slotAlong descs e.2.2) 1 (bAddress b) (bPitch b) [(0, slotSize descs e.2.2)]).foldl (fun bs m =>
    splice bs m.2.1 ((slice bs m.2.1 m.2.2).mapIdx (fun j v =>
      if r.concerns (bKind b) (m.1 + j) then Config.freeByte draw (m.2.1 + j) else v))) bs

/-- A command has taken its inputs in: their items have passed, and what was left in the buffers is popped (R131, R142). -/
def State.popAll (s : State) (f : Found) : State :=
  let descs := f.prog.descs
  let ends := (cmdEnds descs f.cmd.idx).filter (fun e => decide (e.1 % 8 < 4))
  let s := ends.foldl (fun s e =>
    let left := sumL ((f.cmd.streams.filter (fun x => x.id == e.1)).map (fun x => x.total - x.popped))
    (s.monitor f.p (sQid e.2.2) 2 (itemsOf e.2.1)).monitor f.p (sQid e.2.2) 3 left) s
  s.modCmd f.p f.run.id f.cmd.idx (fun c =>
    { c with streams := updWhere (fun x => decide (x.id < 128) && decide (x.id % 8 < 4)) (fun x => x.moveTo x.total) c.streams })

/-- Take the results into the command: outputs produced, internal queues pushed, failures marked, the command computed. -/
def State.finishWork (s : State) (f : Found) (outs : List (Nat × List Byte)) : State :=
  let descs := f.prog.descs
  let i := f.cmd.idx
  let s := s.modCmd f.p f.run.id i (fun c => (((c.readBad descs).inherit descs f.run).dropChecks descs).dropLost descs)
  match (s.run f.p f.run.id).bind (fun r => r.cmd i) with
  | none => s
  | some c =>
    let free := f.run.loose || f.run.tainted descs i
    let bytes (e : Nat × Nat × Nat) (k : Nat) : List Byte :=
      let n := slotSize descs e.2.2
      if free then freeBytes (s.drawn + k) n
      else f.run.loosen descs e (s.drawn + k) (slice ((outs.find? (fun o => o.1 == e.1)).elim [] (·.2)) 0 n)
    let outEnds := (cmdEnds descs i).filter (fun e => decide (4 ≤ e.1 % 8))
    let done := outEnds.mapIdx (fun k e => (e, bytes e k, c.spoiled descs e))
    let s := if f.run.undef then { s with free := s.free + outEnds.length } else s
    let s := s.endEngines f
    let s := s.modCmd f.p f.run.id i (fun c =>
      let c := done.foldl (fun c x => c.modEnd x.1.1 (fun e => { e with data := x.2.1, bad := e.bad ++ x.2.2, full := true })) c
      { c with phase := .computed, settledAt := s.now })
    -- a guarded command's consumers wait for the commit (R238)
    let s := if dReplay f.desc then s else done.foldl (fun s x =>
      let q := sQid x.1.2.2
      if isInternalQ descs q then s.pushQueue f.p f.run.id descs q (.item x.2.1 x.2.2 false) else s) s
    let s := (memoryOutputs descs i).foldl (fun s e => s.monitor f.p (sQid e.2.2) 2 1) s
    s.popAll f

/-- Carry out the command a reference names when its opcode is `op` and its inputs have arrived. -/
def State.execOp (s : State) (c : CmdRef) (op : Nat) (stalls : List (DieC × Fin 9 × W32)) : State :=
  match s.find c with
  | none => s
  | some f =>
    if dOpcode f.desc ≠ op || !s.canCompute f then s else
    let s := (s.engineStalls f stalls).endWorks f (fun w => !w.dup && !w.replay)
    ((s.keepInputs f).measureInputs f).finishWork f (outsOf f f.cmd.ends)

/-- MOVE (R86). -/
def execMove (c : CmdRef) (stalls : List (DieC × Fin 9 × W32)) (s : State) : Res := .next (s.execOp c 0x10 stalls)
/-- SLICE (R79, R86). -/
def execSlice (c : CmdRef) (stalls : List (DieC × Fin 9 × W32)) (s : State) : Res := .next (s.execOp c 0x11 stalls)
/-- CONCAT (R79, R86). -/
def execConcat (c : CmdRef) (stalls : List (DieC × Fin 9 × W32)) (s : State) : Res := .next (s.execOp c 0x12 stalls)
/-- GATHER (R79, R86). -/
def execGather (c : CmdRef) (stalls : List (DieC × Fin 9 × W32)) (s : State) : Res := .next (s.execOp c 0x13 stalls)
/-- SCATTER (R79, R86). -/
def execScatter (c : CmdRef) (stalls : List (DieC × Fin 9 × W32)) (s : State) : Res := .next (s.execOp c 0x14 stalls)
/-- TEE (R77, R86). -/
def execTee (c : CmdRef) (stalls : List (DieC × Fin 9 × W32)) (s : State) : Res := .next (s.execOp c 0x15 stalls)
/-- FILL (R86). -/
def execFill (c : CmdRef) (stalls : List (DieC × Fin 9 × W32)) (s : State) : Res := .next (s.execOp c 0x16 stalls)
/-- MATMUL (R21–R24, R32–R39, R86, R87). -/
def execMatmul (c : CmdRef) (s : State) : Res := .next (s.execOp c 0x20 [])
/-- MATMUL_BATCHED (R56, R86, R87, R159). -/
def execMatmulBatched (c : CmdRef) (s : State) : Res := .next (s.execOp c 0x21 [])
/-- VEC_CHAIN (R64–R67, R88). -/
def execVecChain (c : CmdRef) (s : State) : Res := .next (s.execOp c 0x30 [])
/-- ROW_OP (R68, R86). -/
def execRowOp (c : CmdRef) (s : State) : Res := .next (s.execOp c 0x31 [])
/-- COL_REDUCE (R70, R89). -/
def execColReduce (c : CmdRef) (s : State) : Res := .next (s.execOp c 0x32 [])
/-- LACC_SUM (R71, R86). -/
def execLaccSum (c : CmdRef) (s : State) : Res := .next (s.execOp c 0x33 [])

/-- A command of the control family has done its work (R86, R94, R102). -/
def State.control (s : State) (c : CmdRef) (op : Nat) (g : Found → Option Nat) (stalls : List (DieC × Fin 9 × W32)) : State :=
  match s.find c with
  | none => s
  | some f =>
    if dOpcode f.desc ≠ op || !s.canCompute f then s else
    let s := ((s.engineStalls f stalls).endEngines f).popAll f
    -- a counter loaded from bytes concerned is free (R126)
    let v := if f.run.tainted f.prog.descs f.cmd.idx then (g f).map (fun _ => leNat (freeBytes s.drawn 4)) else g f
    (if f.run.undef then s.draw else s).modRef c (fun x => { x.readBad f.prog.descs with ctr := v, phase := .computed, settledAt := s.now })

/-- NOP (R86). -/
def execNop (c : CmdRef) (s : State) : Res := .next (s.control c 0x00 (fun _ => none) [])
/-- CTR_SET: the counter takes IMM0 when the command completes (R86, R94). -/
def execCtrSet (c : CmdRef) (s : State) : Res := .next (s.control c 0x01 (fun f => some (dImm f.desc 0)) [])
/-- CTR_ADD: the counter plus IMM0 modulo 2^32 (R86, R94). -/
def execCtrAdd (c : CmdRef) (s : State) : Res :=
  .next (s.control c 0x02 (fun f => some ((f.run.ctrs.getD (dSubop f.desc % 16) 0 + dImm f.desc 0) % 2 ^ 32)) [])
/-- CTR_LOAD: the counter takes the popped INT32 element (R86, R94, R102). -/
def execCtrLoad (c : CmdRef) (stalls : List (DieC × Fin 9 × W32)) (s : State) : Res :=
  .next (s.control c 0x03 (fun f => some (leNat (slice ((f.cmd.finish 0).elim [] End.data) 0 4))) stalls)
/-- NOTIFY (R86). -/
def execNotify (c : CmdRef) (s : State) : Res := .next (s.control c 0x04 (fun _ => none) [])

end Sys2Proof.Machine
end

