-- ==== Sys2Proof/Machine/Collective.lean ====
section
/-! DEFINITION. Collective commands (R90, R235), brim stages and fabric ports (R91, R288–R294), and fused commands (R99,
R100). -/

namespace Sys2Proof.Machine

/-! ### Collectives (R86, R90) -/

/-- The group and the tag of a collective command (R86). -/
def dGroup (d : Nat) : Nat := dImm d 0 % 16
def dTag (d : Nat) : Nat := dImm d 2

/-- The collective command of a partition that stands first, by issue, on a group under a tag (R90). -/
def State.collectiveOf (s : State) (p g tag : Nat) : Option Found :=
  let all := (s.prn p).runs.flatMap (fun r => (r.cmds.filter (fun c => c.phase == .issued && c.fixed.isNone)).filterMap
    (fun c => s.find (refOf p r.id c.idx)))
  argmin (fun f => f.cmd.order) (all.filter (fun f => dOpcode f.desc / 16 == 4 && dGroup f.desc == g && dTag f.desc == tag))

/-- Opcode, format and shape of two collective commands match (R90). -/
def collectiveFits (a b : Nat) : Bool :=
  dOpcode a == dOpcode b && sFormat (dSlot a 0) == sFormat (dSlot b 0) && sShape (dSlot a 0) == sShape (dSlot b 0)

/-- What a member of a group brings: the item of its first input, and its command when it is of this package. -/
structure Contribution where
  item : Item
  tr : Bool
  local_ : Option Found

/-- The contribution of one member, if it is there: a matching command of this package whose input has arrived, or the bytes
received from the partner (R90). -/
def State.contribution (s : State) (f : Found) (remote : List (Fin 16 × List Byte)) (m : Nat × Nat × Nat) :
    Option Contribution :=
  if m.2.1 = s.reg (key 0x2500 1) then
    match s.collectiveOf m.2.2 (dGroup f.desc) (dTag f.desc) with
    | none => none
    | some x =>
      if collectiveFits f.desc x.desc && s.canCompute x then
        let sl := dSlot x.desc 0
        some ⟨slotItem sl (slotAlong x.prog.descs sl) ((x.cmd.finish 0).elim [] End.data), sTransposed sl, some x⟩
      else none
  else
    (remote.find? (fun e => e.1.val == m.1)).map (fun e =>
      let sl := dSlot f.desc 0
      ⟨slotItem sl (slotAlong f.prog.descs sl) e.2, sTransposed sl, none⟩)

/-- The contributions of all members in ascending number; none while one is absent. -/
def State.contributions (s : State) (f : Found) (remote : List (Fin 16 × List Byte)) : Option (List Contribution) :=
  (s.members (dGroup f.desc)).mapM (s.contribution f remote)

/-- The format in which a collective accumulates (R90). -/
def collectiveFmt (f : Fmt) : Fmt := if f = .fp64 then .fp64 else if fmtInt f then .int32 else .fp32

/-- The output of the member at place `j` of `g` (R86, R90). -/
def collectiveOut (x : Found) (j : Nat) (l : List Contribution) : List Byte :=
  let d := x.desc
  let o := dSlot d 4
  let along := slotAlong x.prog.descs o
  let fi := sFmt (dSlot d 0)
  let sum := opAllReduce (dSubop d) (dSat d) fi (l.map (fun c => opRows c.item c.tr))
  let items := l.map Contribution.item
  let cv := convOf d x.run.seed
  match dOpcode d with
  | 0x40 => encResult d x.run.seed o (collectiveFmt fi) sum
  | 0x41 =>
    let n := (sShape (dSlot d 0)).1
    packItem (moveItem items (sFmt o) (sRows o) (sCols o) along cv (fun r c =>
      tsrc (r / n) ((l.map Contribution.tr).getD (r / n) false) (r % n) c))
  | 0x42 =>
    let n := (sShape (dSlot d 0)).1 / l.length
    encResult d x.run.seed o (collectiveFmt fi) ((sum.drop (j * n)).take n)
  | _ =>
    let root := dImm d 1
    packItem (moveItem items (sFmt o) (sRows o) (sCols o) along cv (fun r c =>
      tsrc root ((l.map Contribution.tr).getD root false) r c))

/-- A member's digest failures: its part reports DIGEST_MISMATCH, and its partition counts the failed checks (R235). -/
def State.digestFails (s : State) (x : Found) (n : Nat) : State :=
  if n = 0 then s else
  (s.modCmd x.p x.run.id x.cmd.idx (fun c => c.parts.foldl (fun c y => c.fail y.die 0x41 (sQid (dSlot x.desc 0))) c)).bump
    (rRel x.p 0x14) n

/-- A member's share of a collective: its failed digests are noted, its inputs kept and measured, and its result taken in. -/
def State.memberDone (s : State) (x : Found) (fails : Nat) (out : List Byte) : State :=
  (((s.digestFails x fails).keepInputs x).measureInputs x).finishWork x [(4, out)]

/-- Carry out a collective for every member of this package: `lost` names the members whose transmissions to this command's
member failed their digest, `odd` those whose result digest differs from member 0's (R235). -/
def State.collective (s : State) (c : CmdRef) (op : Nat) (remote : List (Fin 16 × List Byte)) (lost odd : List (Fin 16))
    (stalls : List (DieC × Fin 9 × W32)) : State :=
  match s.find c with
  | none => s
  | some f =>
    let first := (s.collectiveOf f.p (dGroup f.desc) (dTag f.desc)).any (fun x => x.run.id == f.run.id && x.cmd.idx == f.cmd.idx)
    if dOpcode f.desc ≠ op || !s.canCompute f || !first then s else
    match s.contributions f remote with
    | none => s
    | some l =>
      let nums := (s.members (dGroup f.desc)).map (·.1)
      let differ := if op = 0x42 then [] else odd.map Fin.val
      let fails (num : Nat) : Nat :=
        if num = 0 then (differ.filter (· != 0)).length else b2n (differ.contains num)
      let s := (s.engineStalls f stalls).digestFails f lost.length
      (l.mapIdx (fun j e => (j, e))).foldl (fun s e =>
        match e.2.local_ with
        | none => s
        | some x => s.memberDone x (fails (nums.getD e.1 0)) (collectiveOut x e.1 l)) s

/-- ALL_REDUCE (R86, R90, R235). -/
def execAllReduce (c : CmdRef) (remote : List (Fin 16 × List Byte)) (lost odd : List (Fin 16))
    (stalls : List (DieC × Fin 9 × W32)) (s : State) : Res := .next (s.collective c 0x40 remote lost odd stalls)
/-- ALL_GATHER (R86, R90, R235). -/
def execAllGather (c : CmdRef) (remote : List (Fin 16 × List Byte)) (lost odd : List (Fin 16))
    (stalls : List (DieC × Fin 9 × W32)) (s : State) : Res := .next (s.collective c 0x41 remote lost odd stalls)
/-- REDUCE_SCATTER (R86, R90, R235). -/
def execReduceScatter (c : CmdRef) (remote : List (Fin 16 × List Byte)) (lost odd : List (Fin 16))
    (stalls : List (DieC × Fin 9 × W32)) (s : State) : Res := .next (s.collective c 0x42 remote lost odd stalls)
/-- BROADCAST (R86, R90, R235). -/
def execBroadcast (c : CmdRef) (remote : List (Fin 16 × List Byte)) (lost odd : List (Fin 16))
    (stalls : List (DieC × Fin 9 × W32)) (s : State) : Res := .next (s.collective c 0x43 remote lost odd stalls)

/-- Fail every part of a command, and end it at the point reached: its outputs close (R111). -/
def State.failCmd (s : State) (f : Found) (code : Nat) : State :=
  let s := (((s.endStalls f).endEngines f).closeOutputs f).modCmd f.p f.run.id f.cmd.idx (fun c =>
    c.parts.foldl (fun c y => c.fail y.die code 0x3FF) { c with phase := .computed, settledAt := s.now })
  s.dropWork f.p f.run.id f.cmd.idx

/-- COLLECTIVE_TIME_LIMIT (R90): a member has not contributed within GROUP_LIMIT µs; the waiting member's part reports
TIMEOUT. -/
def execCollectiveTimeLimit (c : CmdRef) (s : State) : Res :=
  .next (
    match s.find c with
    | none => s
    | some f =>
      if f.cmd.phase = .issued ∧ f.cmd.fixed = none ∧ dOpcode f.desc / 16 = 4 then
        (s.reach (f.cmd.start + 1000 * s.reg (key (0x2800 + dGroup f.desc) 1))).failCmd f 0x11
      else s)

/-! ### Attachments (R291, R293) -/

/-- The attachment of a stage of a command on a die. -/
def State.attachment (s : State) (c : CmdRef) (die stage : Nat) : Option Attach :=
  (s.brim die).attach.find? (fun a => a.p == c.p.val + 1 && a.run == c.run && a.cmd == c.cmd && a.stage == stage)

/-- The descriptor of a stage of a command, when it is a brim stage. -/
def brimStage (f : Found) (stage : Nat) : Option Nat :=
  (stagesOf f.prog.descs f.cmd.idx)[stage]?.bind (fun d => if dOpcode d = 0x50 then some d else none)

/-- Stages of a command that are brim stages: stage number and descriptor. -/
def brimStages (f : Found) : List (Nat × Nat) :=
  ((stagesOf f.prog.descs f.cmd.idx).mapIdx (fun i d => (i, d))).filter (fun e => dOpcode e.2 == 0x50)

/-- Take the attachments of a command off its dies. -/
def State.detach (s : State) (c : CmdRef) (dies : List Nat) : State :=
  dies.foldl (fun s die => s.modBrim die (fun b =>
    { b with attach := b.attach.filter (fun a => !(a.p == c.p.val + 1 && a.run == c.run && a.cmd == c.cmd)) })) s

/-- PORT_ATTACH (R291, R300): the port of an issued brim stage attaches on the die of each part. -/
def execPortAttach (c : CmdRef) (stage : Fin 8) (s : State) : Res :=
  .next (
    match s.find c with
    | none => s
    | some f =>
      match brimStage f stage.val with
      | none => s
      | some d =>
        let port := dImm d 0 % 256
        if f.cmd.phase ≠ .issued then s else
        (f.cmd.parts.filter (fun x => decide (x.die < 48))).foldl (fun s x =>
          if (s.attachment c x.die stage.val).isSome || (s.brim x.die).attach.any (fun a => a.port == port) then s
          else (s.modBrim x.die (fun b => { b with attach := b.attach ++ [⟨port, f.p, c.run, c.cmd, stage.val, false, 0, 0⟩] })).bump
            (rBrim x.die 1) 1) s)

/-- A stage is attached, and not frozen by a load, on the die of each part (R291, R317). -/
def State.stageRuns (s : State) (c : CmdRef) (f : Found) (stage : Nat) : Bool :=
  f.cmd.parts.all (fun x => (s.attachment c x.die stage).any (fun a => !a.frozen))

/-! ### What the fabric sees at a slot (R290–R292) -/

/-- ACTIVE of a port, EMPTY of an input slot, and FULL of an output slot. -/
structure SlotView where
  active : Bool
  empty : Bool
  full : Bool
  deriving DecidableEq, Repr

/-- A slot of a port on a die (R291, R292): while no part is attached an input reads EMPTY and an output FULL; an attached input is
empty once all that has arrived is popped, and an attached output is full once its item is closed. -/
def State.slotView (s : State) (die port slot : Nat) : SlotView :=
  match (s.brim die).attach.find? (fun a => a.port == port) with
  | none => ⟨false, true, true⟩
  | some a =>
    match s.find (refOf a.p a.run a.cmd) with
    | none => ⟨true, true, true⟩
    | some f =>
      let id := 8 * a.stage + slot
      ⟨true, (f.cmd.stream id die).all (fun st => decide (s.popLimit f st ≤ st.popped)), (f.cmd.finish id).all End.full⟩

/-- A word that a slot presents to the fabric, with LAST and POISON (R290, R292). -/
structure FabricWord where
  value : Nat
  last : Bool
  poison : Bool
  deriving DecidableEq, Repr

/-- Fabric word `i` of an item of `size` bytes at a slot of 2^gang memories: byte b of a word at bits [8b + 7:8b] (R290, R292). -/
def End.fabricWord (x : End) (gang size i : Nat) : FabricWord :=
  let w := 8 * 2 ^ gang
  ⟨leNat (slice x.data (w * i) w), i == (size - 1) / w, x.bad.any (spansMeet (w * i, w))⟩

/-- The bits of a fabric word that memory `j` of the gang holds (R290). -/
def gangShare (word j : Nat) : Nat := bits word (64 * j + 63) (64 * j)

/-! ### Items through a port (R292) -/

/-- The slot that an end of a command names, with its descriptor. -/
def endOf (f : Found) (id : Nat) : Nat × Nat :=
  let d := (stagesOf f.prog.descs f.cmd.idx).getD (id / 8) 0
  (d, dSlot d (id % 8))

/-- The spans of an end of a brim stage that a part takes: those of its queue, or its rows of a link (R154). -/
def brimSpans (f : Found) (id : Nat) (x : Part) : List (Nat × Nat) :=
  let e := endOf f id
  if sLink e.2 then
    if f.cmd.parts.length ≤ 1 then [(0, endSize f.prog.descs f.cmd.idx e.2)]
    else rowSpans (sFmt e.2) (sRows e.2) (sCols e.2) (alongOf f.prog.descs (stagesOf f.prog.descs f.cmd.idx) e.2)
      (128 * x.first) (128 * x.count)
  else partSpans f.prog.descs f.cmd.idx id e.1 e.2 x.first x.count

/-- Bytes of some spans that lie below a limit. -/
def spanBytes (l : List (Nat × Nat)) (lim : Nat) : Nat := sumL (l.map (fun e => min (e.1 + e.2) lim - e.1))

/-- ITEM_CLOSE (R91, R292): the bytes pushed to an output have reached the size of its item. -/
def execItemClose (c : CmdRef) (fin : Fin 128) (data : List Byte) (s : State) : Res :=
  .next (
    match s.find c with
    | none => s
    | some f =>
      let e := endOf f fin.val
      let size := endSize f.prog.descs f.cmd.idx e.2
      let fresh := (f.cmd.finish fin.val).any (fun x => !x.full)
      if f.cmd.phase = .issued ∧ dOpcode e.1 = 0x50 ∧ 4 ≤ fin.val % 8 ∧ fresh = true ∧ size ≤ data.length
          ∧ s.stageRuns c f (fin.val / 8) = true then
        let s := s.modRef c (fun x => x.modEnd fin.val (fun y => { y with data := data.take size, full := true }))
        f.cmd.parts.foldl (fun s x =>
          (s.bump (rBrim x.die 3) 1).bump (rBrim x.die 0xB) (spanBytes (brimSpans f fin.val x) size)) s
      else s)

/-- FABRIC_END (R111, R292): the fabric ends an item early; it is closed at the point reached and the part reports
WRITE_ERROR. -/
def execFabricEnd (c : CmdRef) (fin : Fin 128) (data : List Byte) (s : State) : Res :=
  .next (
    match s.find c with
    | none => s
    | some f =>
      let e := endOf f fin.val
      let size := endSize f.prog.descs f.cmd.idx e.2
      let n := data.length
      let fresh := (f.cmd.finish fin.val).any (fun x => !x.full)
      if f.cmd.phase = .issued ∧ dOpcode e.1 = 0x50 ∧ 4 ≤ fin.val % 8 ∧ fresh = true ∧ n < size
          ∧ s.stageRuns c f (fin.val / 8) = true then
        let s := s.modRef c (fun x =>
          let x := x.modEnd fin.val (fun y => { y with data := slice data 0 size, bad := y.bad ++ [(n, size - n)], full := true })
          f.cmd.parts.foldl (fun x y =>
            if (brimSpans f fin.val y).any (spansMeet (n, size - n)) then x.fail y.die 0x21 (if sLink e.2 then 0x3FF else sQid e.2)
            else x) x)
        f.cmd.parts.foldl (fun s x =>
          (s.bump (rBrim x.die 4) (b2n ((brimSpans f fin.val x).any (spansMeet (n, size - n))))).bump (rBrim x.die 0xB)
            (spanBytes (brimSpans f fin.val x) n)) s
      else s)

/-- The cycles for which a frozen attachment has held its stage, counted as cause 7 (R91, R140). -/
def State.holdStalls (s : State) (c : Nat) (a : Attach) : State :=
  if a.frozen then s.stall a.p a.run a.cmd c 8 7 (s.mclkCycles c (s.now - a.frozenAt)) else s

/-- An attachment freezes, and resumes (R317). -/
def Attach.freeze (now : Nat) (a : Attach) : Attach := if a.frozen then a else { a with frozen := true, frozenAt := now }
def Attach.thaw (now : Nat) (a : Attach) : Attach :=
  if a.frozen then { a with frozen := false, held := a.held + (now - a.frozenAt) } else a

/-- Every attachment of a die resumes; the cycles it was held are counted. -/
def State.thawAll (s : State) (c : Nat) : State :=
  ((s.brim c).attach.foldl (fun s a => s.holdStalls c a) s).modBrim c (fun b =>
    { b with attach := b.attach.map (Attach.thaw s.now) })

/-- The ABORT of R293 on one die: raised for a cycle and counted, and the port detached. -/
def State.abortPort (s : State) (c : CmdRef) (die stage : Nat) : State :=
  match s.attachment c die stage with
  | none => s
  | some a =>
    let s := (s.holdStalls die a).modBrim die (fun b => { b with attach := b.attach.erase a })
    (s.bump (rBrim die 6) 1).emit (.abort die a.port)

/-- Every port a command holds detaches before its items end (R293). -/
def State.abortPorts (s : State) (c : CmdRef) (stages : List Nat) (dies : List Nat) : State :=
  dies.foldl (fun s die => stages.foldl (fun s st => s.abortPort c die st) s) s

/-- A failure that ends a part before its items do (R293): an abort, a timeout, the end of the epoch, or the failure of
another part of its command. -/
def Cmd.endsEarly (c : Cmd) : Bool :=
  c.parts.any (fun x => x.fails.contains 0x10 || x.fails.contains 0x11 || x.fails.contains 0x30)
    || (decide (1 < c.parts.length) && c.parts.any (fun x => x.fails != []))

/-- PORT_DETACH (R293): a part has ended before its items; the port detaches and the output items close at the point
reached. -/
def execPortDetach (c : CmdRef) (stage : Fin 8) (s : State) : Res :=
  .next (
    match s.find c with
    | none => s.abortPorts c [stage.val] (List.range 48)
    | some f =>
      if f.cmd.phase = .issued ∧ f.cmd.endsEarly = true ∧ (brimStage f stage.val).isSome = true then
        let s := ((s.endStalls f).abortPorts c [stage.val] (f.cmd.parts.map Part.die)).endEngines f
        let s := s.closeOutputs f
        let s := s.modRef c (fun x => { x with phase := .computed, settledAt := s.now })
        s.dropWork f.p f.run.id f.cmd.idx
      else s)

/-- When the limit of a part of a brim stage passes: the time for which its attached region was being reconfigured does not
count (R91). -/
def State.brimDue (s : State) (c : CmdRef) (f : Found) (stage lim : Nat) (x : Part) : Nat :=
  f.cmd.start + 1000 * lim + (s.attachment c x.die stage).elim 0 Attach.held

/-- BRIM_TIME_LIMIT (R91): IMM2 µs, or the partition's default, have passed since a part issued; the limit is suspended while
an attached region is being reconfigured. -/
def execBrimTimeLimit (c : CmdRef) (stage : Fin 8) (s : State) : Res :=
  .next (
    match s.find c with
    | none => s
    | some f =>
      match brimStage f stage.val with
      | none => s
      | some d =>
        let lim := if dImm d 2 = 0 then s.reg (key (0x5B00 + f.p) 2) else dImm d 2
        if f.cmd.phase = .issued ∧ s.stageRuns c f stage.val = true then
          let due (x : Part) : Nat := s.brimDue c f stage.val lim x
          let t := s.reach ((f.cmd.parts.map due).foldl min (2 ^ 64))
          t.modRef c (fun x =>
            (f.cmd.parts.filter (fun y => decide (due y ≤ t.now))).foldl (fun x y => x.fail y.die 0x11 0x3FF) x)
        else s)

/-! ### The end of a brim stage (R91, R292, R300) -/

/-- Bytes of a fabric word of a slot on a die (R290). -/
def State.fabricWord (s : State) (die d slot : Nat) : Nat :=
  ((s.brim die).decl (dImm d 0 % 256)).elim 8 (fun x => 8 * 2 ^ slotGang (declSlot x slot))

/-- Fabric words of `w` bytes that some spans touch. -/
def wordsTouched (w : Nat) (l : List (Nat × Nat)) : Nat :=
  (((l.filter (fun e => decide (0 < e.2))).flatMap (fun e =>
    (List.range ((e.1 + e.2 - 1) / w + 1 - e.1 / w)).map (fun i => e.1 / w + i))).eraseDups).length

/-- Every output item of the brim stages of a command has ended, and their ports are attached. -/
def State.brimReady (s : State) (c : CmdRef) (f : Found) : Bool :=
  (brimStages f).all (fun e => s.stageRuns c f e.1
    && (outSlots e.2).all (fun o => (f.cmd.finish (e.1 * 8 + o.1)).any End.full))

/-- What a command's brim stages counted on one die (R300): items popped in full, bytes delivered, poisoned words. -/
def State.brimCounts (s : State) (f : Found) (x : Part) : State :=
  (brimStages f).foldl (fun s st =>
    (inSlots st.2).foldl (fun s e =>
      let id := st.1 * 8 + e.1
      let spans := brimSpans f id x
      let bad := ((f.cmd.finish id).elim [] End.bad).filter (fun b => spans.any (spansMeet b))
      let s := (s.bump (rBrim x.die 2) 1).bump (rBrim x.die 0xA) (spanBytes spans (endSize f.prog.descs f.cmd.idx e.2))
      s.bump (rBrim x.die 5) (wordsTouched (s.fabricWord x.die st.2 e.1) bad)) s) s

/-- Queue-memory words that held an uncorrectable error: poisoned, and the parts that take them report POISONED_DATA (R288,
R299). -/
def Cmd.spoilWords (c : Cmd) (f : Found) (ue : List (Fin 128 × W32)) : Cmd :=
  ue.foldl (fun c e =>
    let span := (8 * e.2.toNat, 8)
    let c := c.modEnd e.1.val (fun y => y.spoil span.1 8)
    let x := endOf f e.1.val
    c.parts.foldl (fun c y =>
      if (brimSpans f e.1.val y).any (spansMeet span) then c.fail y.die 0x20 (if sLink x.2 then 0x3FF else sQid x.2) else c) c) c

/-- A command with brim stages, or any fused command, ends its stages (R91, R100); the cycles of cause 7 were counted as its
attachments resumed (R317). -/
def State.stagesEnd (s : State) (c : CmdRef) (op : Nat) (ce : W32) (ue : List (Fin 128 × W32))
    (stalls : List (DieC × Fin 9 × W32)) : State :=
  match s.find c with
  | none => s
  | some f =>
    if dOpcode f.desc ≠ op || !s.canCompute f || !s.brimReady c f then s
    else if brimStages f = [] then s.execOp c op stalls
    else
      let t := s.modRef c (fun x => x.spoilWords f ue)
      match t.find c with
      | none => s
      | some g =>
        let t := g.cmd.parts.foldl (fun t x => t.brimCounts g x) t
        let die := (g.cmd.parts.headD ⟨0, 0, 0, [], false⟩).die
        ((t.bump (rBrim die 7) ce.toNat).bump (rBrim die 8) ue.length).execOp c op (stalls.filter (fun e => e.2.1.val != 7))

/-- BRIM_STAGE (R91, R292): every used output has ended an item and every used input has been popped in full. -/
def execBrimStage (c : CmdRef) (ce : W32) (ue : List (Fin 128 × W32)) (stalls : List (DieC × Fin 9 × W32)) (s : State) : Res :=
  .next (s.stagesEnd c 0x50 ce ue stalls)

/-- FUSED (R99, R100): the stages in order, joined by links. -/
def execFused (c : CmdRef) (ce : W32) (ue : List (Fin 128 × W32)) (stalls : List (DieC × Fin 9 × W32)) (s : State) : Res :=
  .next (s.stagesEnd c 0x60 ce ue stalls)

end Sys2Proof.Machine
end

