-- ==== Sys2Proof/Machine/Runs.lean ====
section
/-! DEFINITION. Requests and runs (R92, R94, R103–R127, R150–R153): loads and unloads, the check of a run request, the end of
commands and of runs, time limits and mutual waits. -/

namespace Sys2Proof.Machine

/-! ### Loads (R112–R122) -/

/-- What the verifier must know of a partition (R82, R90). -/
def State.verifyEnv (s : State) (p : Nat) : VerifyEnv :=
  ⟨s.reg (rBlk p 1) == 1, s.reg (rDies p), fun g => s.groupSize g p⟩

/-- HBM_BYTES: the size of a partition's address space without the staging area (R225, R237). -/
def State.hbmBytes (s : State) (p : Nat) : Nat := s.reg (rPmem p 3)

/-- `n` bytes of partition HBM from an address on, and whether a word of them is poisoned. -/
def State.readHbm (s : State) (p addr n : Nat) : List Byte × Bool :=
  let at_ (a : Nat) : Option Nat := (s.place p a).map (fun x => x.1 * 2 ^ 40 + s.servedBy x.1 x.2.1 x.2.2 * 2 ^ 32 + x.2.2)
  ((List.range n).map (fun i => (at_ (addr + i)).elim 0 (fun k => sget hbmZero s.hbm k)),
   (List.range n).any (fun i => (at_ (addr + i)).any (fun k => s.poisoned (k / 64 * 64))))

/-- Bytes of a program image, as the device reads them: in host memory those the host returned, with a failure beyond their
end; in partition HBM those stored (R112, R119). -/
structure ImageSource where
  bytes : List Byte
  refused : Bool
  bad : Bool

def State.imageSource (s : State) (p req n : Nat) (c : Cpl) (image : List Byte) : ImageSource :=
  if lSource req then
    let r := s.readHbm p (lImage req) n
    ⟨r.1, false, r.2⟩
  else
    let short := decide (image.length < n) && c != .ok
    ⟨slice image 0 n, short && (c == .ur || c == .ca), short && (c == .poisoned || c == .timeout)⟩

/-- The handle after one (R115): 1 to 2^32 − 1, round and round. -/
def handleAfter (h : Nat) : Nat := if h + 1 < 2 ^ 32 then h + 1 else 1

/-- The first handle from one on that no loaded program holds (R115; log 101); fuel: one more than the programs held. -/
def freeHandle (held : List Nat) : Nat → Nat → Nat
  | 0, h => h
  | n + 1, h => if held.contains h then freeHandle held n (handleAfter h) else h

/-- The outcome of a load, with the program it yields (R113, R118, R119). -/
def State.loadOutcome (s : State) (p req : Nat) (c : Cpl) (image : List Byte) : LoadResult × Option Program :=
  let bad (r : LoadResult) : LoadResult × Option Program := (r, none)
  let poison : LoadResult := ⟨0x20, 0, 0xFF, 0x3FF, 0xFFFF, 0xFFFF⟩
  if lImage req % 128 ≠ 0 ∨ lResult req % 32 ≠ 0 then bad (rejectAt 0x01 0xFFFF) else
  -- an image that reaches into the replay staging area lies outside HBM_BYTES, and so outside the ranks (log 100)
  let head := s.imageSource p req 128 c image
  if head.refused then bad (rejectAt 0x01 0xFFFF)
  else if lSource req ∧ s.hbmBytes p < lImage req + 128 then bad (rejectAt 0x01 0xFFFF)
  else if head.bad then bad poison
  else
    let h := leNat head.bytes
    let n := 128 * (1 + hCount h)
    if lSource req ∧ s.hbmBytes p < lImage req + n then bad (rejectAt 0x01 0xFFFF) else
    let progs := (s.prn p).programs
    match checkHeader h progs.length (sumL (progs.map (fun g => g.descs.length)))
        (lReserved req != 0 || lOp req == 0 || lOp req == 3) with
    | some r => bad r
    | none =>
      let all := s.imageSource p req n c image
      -- no read of a descriptor decides a header check (R113): a refused one delivers poison (R350)
      if all.refused || all.bad then bad poison
      else
        let descs := (List.range (hCount h)).map (fun i => leNat (slice all.bytes (128 + 128 * i) 128))
        match verifyDescriptors (s.verifyEnv p) h descs with
        | some r => bad r
        | none =>
          let held := progs.map Program.handle
          (loadDone, some ⟨freeHandle held (held.length + 1) (s.prn p).nextHandle, h, descs, sha384 all.bytes⟩)

/-- The record of a load or an unload (R114). -/
def loadRecord (req fetched now : Nat) (r : LoadResult) (tag : RecTag) : Rec :=
  bareRecord 1 r.status r.detail (lSeq req) r.desc r.qid fetched now false tag

/-- Write a load result, its reserved fields free (R2, R117). -/
def State.writeResult (s : State) (addr : Nat) (bs : List Byte) : State :=
  (s.hostWrite addr (withReserved s.drawn resultHoles bs)).draw

/-- Write a load result where RESULT_ADDR is aligned, then the record (R117, R119). -/
def State.loadAnswer (s : State) (p req fetched handle : Nat) (r : LoadResult) (tag : RecTag) : State :=
  let s := if lResult req % 32 = 0 then s.writeResult (lResult req) (loadResultBytes r (lSeq req) handle) else s
  s.writeRecord p (loadRecord req fetched s.now r tag)

/-- LOAD (R113): the request in progress is carried out; `image` is what the host returned of the image, and `c` how a read
beyond it ended. -/
def execLoad (p : PartN) (c : Cpl) (image : List Byte) (s : State) : Res :=
  let q := p.val + 1
  .next (
    match (s.prn q).loading with
    | none => s
    | some (req, t) =>
      let o := s.loadOutcome q req c image
      let s := s.modPr q (fun r => { r with loading := none })
      match o.2 with
      | none => s.loadAnswer q req t 0 o.1 .load
      | some g =>
        (s.modPr q (fun r => { r with programs := r.programs ++ [g], nextHandle := handleAfter g.handle })).loadAnswer q req t
          g.handle o.1 .load)

/-! ### Unloads (R116) -/

/-- A fetched request is an unload: bits [31:0] are zero (R347). -/
def isUnload (req : Nat) : Bool := bits req 31 0 == 0

/-- The runs of a program that were fetched before an unload: those in flight, those refused whose records are due, and the
requests that stand before it and are not yet checked, by the identifiers they will have. -/
def PartRun.earlier (r : PartRun) (handle : Nat) (before : List (Nat × Nat)) : List Nat :=
  let reqs := (before.filter (fun e => !isUnload e.1)).mapIdx (fun i e => (i, e.1))
  (r.runs.filter (fun x => x.handle == handle)).map Run.id ++ (r.turned.filter (fun x => x.2 == handle)).map (·.1)
    ++ (reqs.filter (fun e => rProgram e.2 == handle)).map (fun e => r.nextRun + e.1)

/-- The request checks of an unload (R119; log 95): its addresses, then its reserved fields. -/
def unloadFault (req : Nat) : Option LoadResult :=
  firstFail [failIf (lImage req % 128 != 0 || lResult req % 32 != 0) (rejectAt 0x01 0xFFFF),
    failIf (lReserved req != 0) (rejectAt 0x04 0xFFFF)]

/-- UNLOAD (R116, R119): the oldest unload fetched is taken; one that fails a request check is rejected, one that names no
loaded program is refused 20 µs after its fetch, and any other waits for the runs fetched before it. -/
def execUnload (p : PartN) (s : State) : Res :=
  let q := p.val + 1
  let r := s.prn q
  let before := r.fetched.takeWhile (fun e => !isUnload e.1)
  .next (
    match r.fetched[before.length]? with
    | none => s
    | some (req, t) =>
      let s := s.modPr q (fun r => { r with fetched := r.fetched.eraseIdx before.length })
      match unloadFault req with
      | some res => s.loadAnswer q req t (lHandle req) res .unload
      | none =>
      if (s.program q (lHandle req)).isSome then
        s.modPr q (fun x => { x with unloads := x.unloads ++ [(req, t, r.earlier (lHandle req) before)] }.wakeUnloads)
      else
        let f := s.fnOf q
        let res : LoadResult := ⟨0x31, 0x01, 0xFF, 0x3FF, 0xFFFF, 0xFFFF⟩
        let rec_ := loadRecord req t (t + 20000) res .unload
        let bytes := loadResultBytes res (lSeq req) (lHandle req)
        let what := if lResult req % 32 = 0 then Refused.loadRefused f rec_ (lResult req) bytes else Refused.record f rec_
        { s with refusals := s.refusals ++ [(t + 20000, what)] })

/-- Remove a program, and release the keep-resident copies that only its runs used (R116). -/
def State.removeProgram (s : State) (p handle : Nat) : State :=
  let s := s.modPr p (fun r => { r with programs := r.programs.filter (fun g => g.handle != handle) })
  let s := s.freeCopies p (fun x => x.handles == [handle] && x.bound == [])
  s.modPr p (fun r => { r with copies := r.copies.map (fun x => { x with handles := x.handles.filter (· != handle) }) })

/-- UNLOAD_COMPLETE (R116): the unload whose last earlier run ended first completes. -/
def execUnloadComplete (p : PartN) (s : State) : Res :=
  let q := p.val + 1
  .next (
    match (s.prn q).idle with
    | [] => s
    | u :: rest =>
      let s := s.modPr q (fun r => { r with idle := rest })
      (s.removeProgram q (lHandle u.1)).loadAnswer q u.1 u.2 (lHandle u.1) loadDone .unload)

/-! ### Run requests (R103–R107) -/

/-- A command as its run starts. -/
def freshCmd (i : Nat) : Cmd :=
  ⟨i, .waiting, none, 0, [], [], [], [], none, 0x3FF, 0, 0, 0, 0, List.replicate 9 0, 0, false, [], none, none, 0, []⟩

/-- Whether command `a` depends on command `b`, directly or through others (R92), both by descriptor index. -/
def dependsOn (descs : List Nat) (a b : Nat) : Bool :=
  let next (i : Nat) : List Nat :=
    (dDeps (descs.getD i 0)).flatMap (fun q => (commandsOf descs).filter (fun j => dSeq (descs.getD j 0) == q))
  (reachable next (descs.length + 2) [a] []).contains b && a != b

/-- The binding of a queue among those of a request. -/
def bindingOf (binds : List Nat) (q : Nat) : Nat := (binds.find? (fun b => bQid b == q)).getD 0

/-- The memory-bound ends of the commands of a program: command, whether it writes, and its region. -/
def regionUses (descs binds : List Nat) : List (Nat × Bool × Nat) :=
  (commandsOf descs).flatMap (fun i => ((cmdEnds descs i).filter (fun e => !isInternalQ descs (sQid e.2.2))).map (fun e =>
    (i, decide (4 ≤ e.1 % 8), bindingOf binds (sQid e.2.2))))

/-- The bytes that two regions share. -/
def overlapOf (a b : Nat) : List (Nat × Nat × Nat) :=
  if !regionsMeet a b then [] else
  let lo := max (bAddress a) (bAddress b)
  [(bKind a, lo, min (bAddress a + bLength a) (bAddress b + bLength b) - lo)]

/-- The bytes concerned by cases 1–3 of R127 in one request.  Where one command writes what another reads, the two must be
ordered, either way (log 37). -/
def misused (descs binds : List Nat) : List (Nat × Nat × Nat) :=
  let uses := regionUses descs binds
  let outs := (uses.filter (fun u => u.2.1)).map (fun u => u.2.2)
  let both := (outs.mapIdx (fun i b => (i, b))).flatMap (fun x => (outs.drop (x.1 + 1)).flatMap (overlapOf x.2))
  both ++ (uses.filter (fun u => u.2.1)).flatMap (fun w => (uses.filter (fun u => !u.2.1)).flatMap (fun r =>
    if !regionsMeet w.2.2 r.2.2 || dependsOn descs w.1 r.1 || dependsOn descs r.1 w.1 then []
    else if w.1 = r.1 then overlapOf w.2.2 r.2.2
    else [(bKind r.2.2, bAddress r.2.2, bLength r.2.2)]))

/-- Case 6 of R127: a reserved field that R106 does not name. -/
def reservedSet (binds : List Nat) (req : Nat) : Bool := rReserved req != 0 || binds.any (fun b => bReserved b != 0)

/-- Output regions of a run in flight. -/
def State.runOutputs (s : State) (p : Nat) (r : Run) : List Nat :=
  (s.program p r.handle).elim [] (fun g => ((regionUses g.descs r.binds).filter (fun u => u.2.1)).map (fun u => u.2.2))

/-- The bytes concerned by case 4 of R127 between two runs: a region of one overlaps an output of the other. -/
def State.runsClash (s : State) (p : Nat) (r : Run) (q : Nat) (x : Run) : List (Nat × Nat × Nat) :=
  let same (b : Nat) : Bool := p == q || bKind b == 2
  ((r.binds.filter same).flatMap (fun b => (s.runOutputs q x).flatMap (overlapOf b)))
    ++ ((x.binds.filter same).flatMap (fun b => (s.runOutputs p r).flatMap (overlapOf b)))

/-- The bytes concerned hold unpredictable values (R126). -/
def State.scramble (s : State) (p : Nat) (l : List (Nat × Nat × Nat)) : State :=
  l.foldl (fun s x =>
    let t :=
      if x.1 = 2 then s.hostWrite x.2.1 (freeBytes s.drawn x.2.2)
      else (List.range x.2.2).foldl (fun t i =>
        match t.place p (x.2.1 + i) with
        | none => t
        | some (m, r, off) =>
          { t with hbm := sput hbmZero t.hbm (m * 2 ^ 40 + t.servedBy m r off * 2 ^ 32 + off) (Config.freeByte s.drawn i) }) s
    t.draw) s

/-- The failed check of R106 with the lowest DETAIL, if any. -/
def State.runRefusal (s : State) (p id req : Nat) (before : List (Nat × Nat)) (binds : List Nat) : Option Nat :=
  let h := rProgram req
  let gone := before.any (fun e => isUnload e.1 && lHandle e.1 == h && (unloadFault e.1).isNone)
    || (s.prn p).unloads.any (fun u => lHandle u.1 == h && !u.2.2.contains id)
    || (s.prn p).idle.any (fun u => lHandle u.1 == h)
  match s.program p h with
  | none => some 0x01
  | some g =>
    if gone then some 0x01 else
    let ends := memoryEnds g.descs
    let boundTo (b : Nat) : List (Nat × Nat × Bool × Nat) := ends.filter (fun e => e.1 == bQid b)
    let dup := (binds.mapIdx (fun i b => (i, b))).any (fun x => (binds.drop (x.1 + 1)).any (fun b => bQid b == bQid x.2))
    let need (b : Nat) (e : Nat × Nat × Bool × Nat) : Nat :=
      (if e.2.2.1 then 1 else itemsOf e.2.2.2) * slotBytes' g.descs e.2.1 (bPitch b)
    let short := binds.any (fun b => (boundTo b).any (fun e => decide (bLength b < need b e)))
    let thin := binds.any (fun b => bPitch b != 0 && (boundTo b).any (fun e =>
      decide (bPitch b < rowBytes (sFmt e.2.1) (sCols e.2.1))))
    let outside := binds.any (fun b => bKind b == 0 || bKind b == 3
      || (bKind b == 1 && decide (s.hbmBytes p < bAddress b + bLength b)))
    [(ends.any (fun e => !binds.any (fun b => bQid b == e.1)), 0x02), (binds.any (fun b => boundTo b == []), 0x03),
     (dup, 0x04), (short, 0x05), (thin, 0x06), (outside, 0x07)].findSome? (fun e => if e.1 then some e.2 else none)

/-- Discard the keep-resident copies of regions bound with REFRESH, and cancel their migrations (R105, R166). -/
def State.refreshCopies (s : State) (p : Nat) (binds : List Nat) : State :=
  let hit (x : Copy) : Bool := binds.any (fun b => bRefresh b && x.region b)
  let drop (x : Copy) : Copy := { x with dropped := true }
  let stale := (s.prn p).migs.filter (fun g => binds.any (fun b =>
    bRefresh b && g.addr == bAddress b && g.len == bLength b && g.kind == bKind b))
  let s := stale.foldl (fun s g => s.cancelMig p g) s
  (s.modPr p (fun r => { r with copies := updWhere hit drop r.copies })).sweepCopies p

/-- A run starts (R107): its counters, tokens and internal queues are its own; a case of R127 makes it, and a run it clashes
with, undefined within the bytes concerned (R126). -/
def State.startRun (s : State) (p id req : Nat) (binds : List Nat) : State :=
  match s.program p (rProgram req) with
  | none => s
  | some g =>
    let lim := if rTimeLimit req = 0 then s.reg (key (0x5B00 + p) 1) else rTimeLimit req
    let r : Run := ⟨id, g.handle, rSeq req, rSeed req, (List.range 16).map (rCtr req), lim, s.now, binds,
      (commandsOf g.descs).map freshCmd, [], [], false, reservedSet binds req, misused g.descs binds, false, 0x3FF⟩
    let clashes := (s.prun.flatMap (fun e => e.2.runs.map (fun x => (e.1, x.id, s.runsClash p r e.1 x)))).filter
      (fun c => c.2.2 != [])
    let all := r.concern ++ clashes.flatMap (fun c => c.2.2)
    let r := { r with concern := all, undef := r.loose || all != [] }
    let s := clashes.foldl (fun s c => s.modRun c.1 c.2.1 (fun x =>
      { x with undef := true, concern := x.concern ++ c.2.2 })) s
    ((s.scramble p all).modPr p (fun x => { x with runs := x.runs ++ [r] })).refreshCopies p binds

/-- RUN_REQUEST (R106, R107): the oldest run request fetched is checked with its bindings; it starts, or is refused 20 µs after
its fetch. -/
def execRunRequest (p : PartN) (bindings : List Byte) (s : State) : Res :=
  let q := p.val + 1
  let r := s.prn q
  let before := r.fetched.takeWhile (fun e => isUnload e.1)
  .next (
    match r.fetched[before.length]? with
    | none => s
    | some (req, t) =>
      let id := r.nextRun
      let binds := (List.range (rBindCount req)).map (fun i => leNat (slice bindings (32 * i) 32))
      let detail := s.runRefusal q id req before binds
      let s := s.modPr q (fun r => { r with fetched := r.fetched.eraseIdx before.length, nextRun := id + 1 })
      match detail with
      | none => s.startRun q id req binds
      | some d =>
        -- the bindings were never applied: START_TIME is the fetch time (log 102)
        let rec_ := bareRecord 0 0x31 d (rSeq req) 0xFFFF 0x3FF t (t + 20000) true (.run id)
        let s := s.modPr q (fun r => { r with turned := r.turned ++ [(id, rProgram req)] })
        { s with refusals := s.refusals ++ [(t + 20000, .record (s.fnOf q) rec_)] })

/-! ### The end of a command (R6, R92, R94, R108, R109) -/

/-- Commands whose pushed data a command has popped, directly or through further internal queues (R232); fuel: the number of
commands. -/
def upstream (descs : List Nat) : Nat → List Nat → List Nat
  | 0, l => l
  | n + 1, l =>
    let prod (i : Nat) : List Nat := (commandsOf descs).filter (fun j => (pushes descs j).any (fun q => (pops descs i).contains q.1))
    upstream descs n ((l ++ l.flatMap prod).eraseDups)

/-- Every comparison that a command waits for has ended (R232). -/
def comparisonsOver (descs : List Nat) (r : Run) (i : Nat) : Bool :=
  let ups := upstream descs r.cmds.length [i]
  r.cmds.all (fun c => !ups.contains c.idx || c.samples == [])

/-- The partition is coupled to one of the other package in mirrored mode (R243, R244). -/
def State.mirrored (s : State) (p : Nat) : Bool := s.reg (key 0x2300 3) == 1 && s.reg (rRel p 3) != 0

/-- The status codes of R5, from which an undefined run's commands may take any (R126). -/
def statusCodes : List Nat := [0x00, 0x01, 0x02, 0x10, 0x11, 0x20, 0x21, 0x30, 0x31, 0x40, 0x41, 0x42, 0x50, 0x60]

/-- The parts of a command that has ended: those without a failure have committed, unless the command is guarded and some part
failed (R238, R239). -/
def Cmd.commits (c : Cmd) (guarded : Bool) : Cmd :=
  let whole := c.parts.all (fun x => x.fails == [])
  { c with parts := c.parts.map (fun x => { x with committed := x.fails == [] && (whole || !guarded) }) }

/-- The status of a guarded command is DONE or a failure, never PARTIAL (R6, R238). -/
def Cmd.guardedStatus (c : Cmd) (guarded : Bool) : Cmd :=
  if guarded && c.fixed.isNone && c.parts.any (fun x => x.fails != []) then
    { c with fixed := some (maxL (c.parts.map Part.status)) }
  else c

/-- Complete a command (R92, R94): its counter takes its value, its record is written, its token is released. -/
def State.completeCmd (s : State) (f : Found) : State :=
  let p := f.p
  let i := f.cmd.idx
  let d := f.desc
  let guarded := dReplay d
  let s := (s.dropWork p f.run.id i).endNotice p f.run.id i
  let s := s.detach (refOf p f.run.id i) (f.cmd.parts.map Part.die)
  let s := s.modCmd p f.run.id i (fun c => (c.commits guarded).guardedStatus guarded)
  let st := statusCodes.getD (Config.freeNat 8 s.drawn % statusCodes.length) 0
  let s := if f.run.undef then (s.modCmd p f.run.id i (fun c => { c with fixed := some st })).draw else s
  match s.find (refOf p f.run.id i) with
  | none => s
  | some g =>
    let s := match g.cmd.ctr with
      | some v => if g.cmd.status = 0 then
          s.modRun p f.run.id (fun r => { r with ctrs := updAt r.ctrs (dSubop d % 16) (fun _ => v) }) else s
      | none => s
    let mine (t : FfTrack) : Bool := t.runSeq == f.run.seq && t.cmdSeq == dSeq d
    let track := (s.prn p).ff.find? mine
    let late := track.any (fun t => decide (0 < t.opened))
    let s := s.modPr p (fun r => { r with ff := updWhere mine (fun t => { t with completed := true }) r.ff })
    let s := s.bump (key (0x5600 + p) 0x26) (b2n late)
    let s := match track with
      | some t => s.ffSettle p { t with completed := true }
      | none => s
    if dRec d || dOpcode d == 0x04 then
      (s.modCmd p f.run.id i (fun c => { c with phase := .recording })).writeRecord p
        (cmdRecord f.prog.descs f.run g.cmd late s.now)
    else s.modCmd p f.run.id i (fun c => { c with phase := .complete, freed := s.now })

/-- Whether a computed command may complete: its items are wholly pushed, its writes have settled, its comparisons have ended, and
its replay has been resolved (R78, R92, R232, R238). -/
def canComplete (f : Found) : Bool :=
  f.cmd.phase == .computed && f.cmd.mirror.isNone && f.cmd.replays == []
    && f.cmd.streams.all (fun x => decide (x.id % 8 < 4) || x.over)
    && (pushes f.prog.descs f.cmd.idx).all (fun e => f.run.unpushed f.prog.descs e.1 == [])
    && comparisonsOver f.prog.descs f.run f.cmd.idx

/-- COMMAND_COMPLETE (R92, R244): every settle count has returned; in mirrored mode a command with a memory-bound output first
waits for the partner's digests. -/
def execCommandComplete (c : CmdRef) (s : State) : Res :=
  .next (
    match s.find c with
    | none => s
    | some f =>
      if !canComplete f then s
      else if s.mirrored f.p && memoryOutputs f.prog.descs c.cmd != [] && f.cmd.parts.all (fun x => x.fails == [])
          && (f.cmd.fixed == none || f.cmd.fixed == some 0x02) then
        s.modRef c (fun x => { x with mirror := some s.now })
      else s.completeCmd f)

/-- RUN_COMPLETE (R109): its last command has completed; the run record is written, and the run ends with it. -/
def execRunComplete (p : PartN) (run : Nat) (s : State) : Res :=
  let q := p.val + 1
  .next (
    match s.run q run with
    | none => s
    | some r =>
      if r.recording || !r.cmds.all (fun c => c.phase == .complete) then s
      else
        let late := (s.prn q).ff.any (fun t => t.runSeq == r.seq)
        let s := s.modPr q (fun x => { x with bufs := x.bufs.filter (fun b => b.run != run) })
        (s.modRun q run (fun x => { x with recording := true })).writeRecord q (runRecord r late s.now))

/-! ### Commands that end early (R107, R150–R153) -/

/-- The part on a die has not committed: it failed, writes are unsettled, or comparisons of its units are open. -/
def Cmd.openPart (c : Cmd) (x : Part) : Bool :=
  x.fails != [] || c.replays != [] || c.mirror.isSome
    || c.streams.any (fun y => y.die == x.die && decide (4 ≤ y.id % 8) && !y.over)
    || c.samples.any (fun y => y.tile / 8 == x.die)

/-- Parts that have popped data of a mismatching unit report it too, through every further queue (R232); fuel: the number of
commands. -/
def Run.spread (descs : List Nat) : Nat → Run → Run
  | 0, r => r
  | n + 1, r =>
    let open_ (c : Cmd) : Bool := c.phase == .computed && c.fixed.isNone
    Run.spread descs n { r with cmds := updWhere open_ (fun c => c.inherit descs r) r.cmds }

/-- A part of a command has popped data of units of other commands whose comparisons are open (R232): a mismatch of every open
comparison would reach it. -/
def Run.awaits (r : Run) (descs : List Nat) (i die : Nat) : Bool :=
  let fails (c : Cmd) : Cmd := (c.samples.map (fun x => x.tile / 8)).foldl (fun c d => c.fail d 0x42 0x3FF) c
  let bare (c : Cmd) : Cmd := { c with parts := c.parts.map (fun x => { x with fails := [] }) }
  let t := Run.spread descs r.cmds.length { r with cmds := r.cmds.map (fun c => fails (bare c)) }
  (t.cmd i).any (fun c => c.parts.any (fun x => x.die == die && x.fails.contains 0x42))

/-- A part has not pushed all of its items: a consumer's buffer is full (R128). -/
def heldBack (f : Found) (x : Part) : Bool :=
  let descs := f.prog.descs
  (cmdEnds descs f.cmd.idx).any (fun e => decide (4 ≤ e.1 % 8) && isInternalQ descs (sQid e.2.2)
    && (f.run.unpushed descs (sQid e.2.2)).any (fun b => (partEndSpans descs f.cmd.idx e x).any (spansMeet b)))

/-- End a command at the point reached (R107, R111, R152, R293): parts that have not committed report a code; a command that
never issued takes it as its status. -/
def State.endCmd (s : State) (f : Found) (code : Nat) : State :=
  let p := f.p
  let i := f.cmd.idx
  let c := refOf p f.run.id i
  match f.cmd.phase with
  | .waiting =>
    let s := s.modRef c (fun x => { x with fixed := some code, phase := .computed, start := s.now, settledAt := s.now })
    (s.endNotice p f.run.id i).closeOutputs f
  | .issued =>
    -- a command refused at issue completes at its time, but for the end of its key epoch (R5, R268; log 94)
    if f.cmd.fixed.isSome then
      if code = 0x30 then
        (s.modRef c (fun x => { x with fixed := some code, phase := .computed, settledAt := s.now })).closeOutputs f
      else s
    else
    let s := ((s.endStalls f).abortPorts c ((brimStages f).map (·.1)) (f.cmd.parts.map Part.die)).endEngines f
    let s := s.closeOutputs f
    let s := s.modRef c (fun x =>
      x.parts.foldl (fun x y => x.fail y.die code 0x3FF) { x with phase := .computed, replays := [], settledAt := s.now })
    s.dropWork p f.run.id i
  | .computed =>
    let s := s.modRef c (fun x =>
      let y := (x.parts.filter (fun z => x.openPart z || heldBack f z || f.run.awaits f.prog.descs i z.die)).foldl
        (fun y z => y.fail z.die code 0x3FF) x
      { y.stopStreams with samples := [], replays := [], mirror := none })
    s.closeOutputs f
  | _ => s

/-- RUN_TIME_LIMIT (R107): every command of the run that has not completed completes under R6. -/
def execRunTimeLimit (p : PartN) (run : Nat) (s : State) : Res :=
  let q := p.val + 1
  .next (
    match s.run q run with
    | none => s
    | some r =>
      if r.recording then s else
      let s := s.reach (r.start + 1000 * r.limit)
      r.cmds.foldl (fun s c =>
        match s.find (refOf q run c.idx) with
        | none => s
        | some f => s.endCmd f 0x11) s)

/-! ### Mutual waits (R150–R153) -/

/-- Whether a command is in flight (R150). -/
def Cmd.flying (c : Cmd) : Bool := c.phase == .issued || c.phase == .computed

/-- The other end of an internal queue holds a command up (R150): it finds its queue empty and waits for the producer, or finds the
consumer's buffer full and waits for the consumer. -/
def queueEdges (descs : List Nat) (r : Run) : List (Nat × Nat) :=
  r.cmds.flatMap (fun c =>
    let empty (e : Nat × Nat × Nat) : Bool := decide (e.1 % 8 < 4) && isInternalQ descs (sQid e.2.2)
      && sget (fun _ => QState.empty) r.queues (sQid e.2.2) == .empty
    let ins := if c.phase == .issued && c.fixed.isNone then (cmdEnds descs c.idx).filter empty else []
    let full := if c.flying then (pushes descs c.idx).filter (fun q => r.unpushed descs q.1 != []) else []
    ins.flatMap (fun e => (r.cmds.filter (fun y => (pushes descs y.idx).any (fun q => q.1 == sQid e.2.2))).map (fun y => (c.idx, y.idx)))
      ++ full.filterMap (fun q => (r.consumer descs q.1).map (fun y => (c.idx, y.idx))))

/-- A store without space holds a command up: it waits for each that holds stream-buffer space there (R150). -/
def State.storeEdges (s : State) (p : Nat) : List ((Nat × Nat) × (Nat × Nat)) :=
  let all := (s.prn p).runs.flatMap (fun r => (r.cmds.filter Cmd.flying).flatMap (fun c => c.streams.map (fun x => ((r.id, c.idx), x))))
  let short := all.filter (fun e => !e.2.placed && (s.fitLog p e.2.die e.2.tiles e.2.log2).isNone)
  short.flatMap (fun e => (all.filter (fun h => decide (0 < h.2.space)
    && storesMeet h.2.die h.2.tiles e.2.die e.2.tiles)).map (fun h => (e.1, h.1)))

/-- The wait-for graph of a partition's commands in flight (R150). -/
def State.waitEdges (s : State) (p : Nat) : List ((Nat × Nat) × (Nat × Nat)) :=
  let inRun := (s.prn p).runs.flatMap (fun r => (s.program p r.handle).elim [] (fun g =>
    (queueEdges g.descs r).map (fun e => ((r.id, e.1), (r.id, e.2)))))
  let flies (x : Nat × Nat) : Bool := ((s.run p x.1).bind (fun r => r.cmd x.2)).any Cmd.flying
  ((inRun ++ s.storeEdges p).filter (fun e => e.1 != e.2 && flies e.1 && flies e.2)).eraseDups

/-- The order of issue (R151): the later has the larger key; commands issued in one cycle by run and descriptor. -/
def State.issueKey (s : State) (p : Nat) (x : Nat × Nat) : Nat :=
  (((s.run p x.1).bind (fun r => r.cmd x.2)).elim 0 Cmd.cycle * 2 ^ 64 + x.1) * 65536 + x.2

/-- Commands that a list of commands leads to along edges; fuel: the number of edges. -/
def leadsTo (edges : List ((Nat × Nat) × (Nat × Nat))) : Nat → List (Nat × Nat) → List (Nat × Nat)
  | 0, l => l
  | n + 1, l =>
    let more := ((edges.filter (fun e => l.contains e.1 && !l.contains e.2)).map (fun e => e.2)).eraseDups
    if more = [] then l else leadsTo edges n (l ++ more)

/-- The commands each of which is the youngest of a cycle of a graph: those that lead back to themselves through commands issued
before them (R151). -/
def State.youngest (s : State) (p : Nat) (edges : List ((Nat × Nat) × (Nat × Nat))) : List (Nat × Nat) :=
  ((edges.map (fun e => e.1)).eraseDups).filter (fun x =>
    let older := edges.filter (fun e => decide (s.issueKey p e.1 ≤ s.issueKey p x) && decide (s.issueKey p e.2 ≤ s.issueKey p x))
    let first := (older.filter (fun e => e.1 == x)).map (fun e => e.2)
    (leadsTo older older.length first).contains x)

/-- A time limit that applies to a command is due: its run's, its collective group's, or that of a brim stage (R153). -/
def State.limitDue (s : State) (f : Found) : Bool :=
  decide (f.run.start + 1000 * f.run.limit ≤ s.now)
    || (dOpcode f.desc / 16 == 4 && decide (f.cmd.start + 1000 * s.reg (key (0x2800 + dGroup f.desc) 1) ≤ s.now))
    || (brimStages f).any (fun e =>
      let lim := if dImm e.2 2 = 0 then s.reg (key (0x5B00 + f.p) 2) else dImm e.2 2
      f.cmd.parts.any (fun x => decide (s.brimDue (refOf f.p f.run.id f.cmd.idx) f e.1 lim x ≤ s.now)))

/-- Abort a command (R152, R153); a time limit that is due takes its place, and TENANT_GONE the abort's in teardown. -/
def State.abortCmd (s : State) (p : Nat) (x : Nat × Nat) : State :=
  match s.find (refOf p x.1 x.2) with
  | none => s
  | some f =>
    if s.limitDue f then s else
    (s.endCmd f (if (s.psec p).ending.isSome then 0x30 else 0x10)).bump (rArb p 0xA) 1

/-- WAIT_FOR_SAMPLE (R150, R151): every 1 µs the detector samples the graph; a cycle each of whose waits has been there for 64
samples in a row loses its youngest command. -/
def execWaitForSample (p : PartN) (s : State) : Res :=
  let q := p.val + 1
  let now := (s.waitEdges q).map (fun e => (e, 1 + ((s.prn q).waits.find? (fun w => w.1 == e)).elim 0 (fun w => w.2)))
  let s := s.modPr q (fun r => { r with waits := now })
  .next ((s.youngest q ((now.filter (fun e => decide (64 ≤ e.2))).map (fun e => e.1))).foldl (fun s x => s.abortCmd q x) s)

end Sys2Proof.Machine
end

