-- ==== Sys2Proof/Machine/Reliability.lean ====
section
/-! DEFINITION. Sampled duplicates, quarantine and tile tests (R229–R234), replay (R236–R238), replicas (R242) and the mirrored
pair (R243, R244). -/

namespace Sys2Proof.Machine

/-! ### Quarantine and tile tests (R233, R234) -/

def rTileMismatches (c t : Nat) : Nat := key (0x6900 + c) (0x11 + t)
def rTestsRun (c : Nat) : Nat := key (0x6900 + c) 0x20

/-- Mismatches of a tile in the last 24 hours (R234, R252); a tile is numbered die × 8 + tile. -/
def State.mismatchCount (s : State) (k : Nat) : Nat :=
  (sget (fun _ => []) s.mismatches k).countP (fun t => decide (s.now < t + 86400000000000))

/-- Set a tile's state, which flash holds (R234, R252). -/
def State.setTileState (s : State) (k v : Nat) : State :=
  let r := rTileState (k / 8) (k % 8)
  ((s.setReg r v).persist r).refreshDomains (k / 8)

/-- A work unit starts again, from its first block, on tile `t` (R233); a duplicate reads there what it needs (R230). -/
def State.startAgain (s : State) (w : Work) (t : Nat) : State :=
  let ref := refOf w.p w.run w.cmd
  let f := s.find ref
  let plan := f.elim [] (fun x => planOf x.prog.descs w.cmd w.unit (s.roomAt ref (t / 8)))
  let v : Work := { w with die := t / 8, tile := t % 8, plan := plan, begun := 0, active := none, released := 0, staged := false }
  let s := { s with works := s.works ++ [v] }
  match w.dup, f with
  | true, some x => s.placePart x [] (2 ^ (t % 8)) true ⟨t / 8, w.unit, 1, [], false⟩
  | _, _ => s

/-- Change the sample of a work unit. -/
def State.modSample (s : State) (w : Work) (g : Sample → Sample) : State :=
  s.modRef (refOf w.p w.run w.cmd) (fun c => { c with samples := updWhere (fun x => x.unit == w.unit) g c.samples })

/-- A duplicate moves to another check tile of its original, or its unit counts as unchecked (R230, R233, R248). -/
def State.moveDuplicate (s : State) (orig : Nat) (w : Work) : State :=
  let s := s.takeWork w
  match s.checkTile w.p (orig / 8) (orig % 8) with
  | some t => ((s.startAgain w t).modSample w (fun x => { x with check := t })).bump (rRel w.p 0x13) 1
  | none => (s.modRef (refOf w.p w.run w.cmd) (fun c => { c with samples := c.samples.filter (fun x => x.unit != w.unit) })).bump
      (rRel w.p 0x12) 1

/-- One more run of a quarantined tile's work unit elsewhere (R233): an original on the next tile in service of its die, where a
duplicate of it that runs there makes way (log 116); a duplicate on another check tile of its original. -/
def State.rerun (s : State) (k : Nat) (w : Work) : State :=
  let ref := refOf w.p w.run w.cmd
  if w.dup then
    s.moveDuplicate (((s.find ref).bind (fun x => x.cmd.samples.find? (fun y => y.unit == w.unit))).elim k Sample.tile) w
  else
    let s := s.takeWork w
    match nextOf (s.tilesUp w.die) w.tile with
    | some t =>
      let s := ((s.startAgain w (w.die * 8 + t)).modSample w (fun x => { x with tile := w.die * 8 + t })).bump (rRel w.p 0x13) 1
      match s.works.find? (fun v => v.p == w.p && v.run == w.run && v.cmd == w.cmd && v.unit == w.unit && v.dup
          && v.die == w.die && v.tile == t && (v.plan != [] || v.active.isSome)) with
      | some v => s.moveDuplicate (w.die * 8 + t) v
      | none => s
    | none => s.modRef ref (fun c => { c.fail w.die 0x42 0x3FF with lost := c.lost ++ [w.unit] })

/-- A tile enters quarantine for a mismatch (R231, R233, R234): its mismatch counts, its work is re-run elsewhere, and its test
is to run. -/
def State.quarantine (s : State) (k : Nat) : State :=
  let now := s.now
  let times := now :: (sget (fun _ => []) s.mismatches k).filter (fun t => decide (now < t + 86400000000000))
  let s := { s with mismatches := sput (fun _ => []) s.mismatches k times }
  let s := s.setReg (rTileMismatches (k / 8) (k % 8)) (min 255 times.length)
  let s := if s.tileUp (k / 8) (k % 8) then { s.setTileState k 1 with tests := s.tests ++ [(k, false)] } else s
  let s := (s.works.filter (fun w => w.die == k / 8 && w.tile == k % 8 && (w.plan != [] || w.active.isSome))).foldl
    (fun s w => s.rerun k w) s
  s.modArray (k / 8) (k % 8) (fun x => { TileArray.blank with clock := x.clock })

/-- TILE_TEST_END (R234): the test ends 3 ms after it began. -/
def execTileTestEnd (die : DieC) (tile : TileN) (pass : Bool) (s : State) : Res :=
  let k := die.val * 8 + tile.val
  .next (
    match s.tests.find? (fun e => e.1 == k) with
    | none => s
    | some e =>
      let s := ({ s with tests := s.tests.erase e }).bump (rTestsRun die.val) 1
      let worn := !e.2 && decide (s.reg (key 0x2300 2) ≤ s.mismatchCount k)
      s.setTileState k (if pass && !worn then 0 else 2))

/-- The operator orders a test of a retired tile (R234). -/
def State.orderTest (s : State) (k : Nat) : State := { s.setTileState k 1 with tests := s.tests ++ [(k, true)] }

/-! ### Comparison (R231, R232, R248) -/

/-- The cycles in which parts that had finished their work waited only for a comparison count as cause 6 (R232): parts of the
unit's command, and of commands that have popped what it pushed. -/
def State.comparisonStalls (s : State) (f : Found) (waited : List (Nat × DieC × W32)) : State :=
  waited.foldl (fun s e =>
    let waits (x : Cmd) : Bool := x.phase == .computed && x.parts.any (fun y => y.die == e.2.1.val)
      && (upstream f.prog.descs f.run.cmds.length [e.1]).contains f.cmd.idx
    if ((s.run f.p f.run.id).bind (fun r => r.cmd e.1)).any waits then s.stall f.p f.run.id e.1 e.2.1.val 8 6 e.2.2.toNat else s) s

/-- DUPLICATE_COMPARE (R231, R232, R248): both executions of a sampled unit have ended; `differ` tells whether their digests
differ, `waited` how many cycles the parts of which commands waited only for this comparison. -/
def execDuplicateCompare (c : CmdRef) (unit : Nat) (differ : Bool) (waited : List (Nat × DieC × W32)) (s : State) : Res :=
  .next (
    match s.find c with
    | none => s
    | some f =>
      match f.cmd.samples.find? (fun x => x.unit == unit) with
      | none => s
      | some x =>
        let left := s.works.any (fun w => w.p == f.p && w.run == c.run && w.cmd == c.cmd && w.unit == unit && !workOver f w)
        if f.cmd.phase ≠ .computed || left then s else
        let s := s.endWorks f (fun w => w.unit == unit)
        let s := s.modRef c (fun y => { y with samples := y.samples.filter (fun z => z.unit != unit) })
        let s := s.comparisonStalls f waited
        if f.cmd.unitPoisoned f.prog.descs unit || !differ then s else
        let s := (s.bump (rRel f.p 0x11) 1).modRef c (fun y => y.fail (x.tile / 8) 0x42 0x3FF)
        let s := s.modRun f.p c.run (fun r => Run.spread f.prog.descs r.cmds.length r)
        (s.quarantine x.tile).quarantine x.check)

/-! ### Replay (R236–R238) -/

/-- Write bytes to a partition address, word by word (R206, R211). -/
def State.putHbm (s : State) (p addr : Nat) (bs : List Byte) : State :=
  (writeWords addr bs).foldl (fun s w =>
    match s.place p w.addr with
    | none => s
    | some (m, r, off) => s.writeWord p m (s.servedBy m r off) off w.first w.data ⟨0, false⟩) s

/-- Old and new bytes in any mix, by a free choice for each (R238). -/
def mixBytes (draw : Nat) (old new : List Byte) : List Byte :=
  (new.zip old).mapIdx (fun i e => if (Config.freeByte draw i).toNat % 2 = 0 then e.1 else e.2)

/-- Copy one staged item to its region (R104, R238): whole, or in any mix when copies fail. -/
def State.copyOut (s : State) (f : Found) (e : Nat × Nat × Nat) (data : List Byte) (mix : Bool) : State :=
  let b := f.run.binding (sQid e.2.2)
  let moves := movesOf e.2.2 (slotAlong f.prog.descs e.2.2) 1 (bAddress b) (bPitch b) [(0, slotSize f.prog.descs e.2.2)]
  moves.foldl (fun s m =>
    let new := slice data m.2.1 m.2.2
    if bKind b = 2 then
      let old := (List.range m.2.2).map (fun i => sget hostDefault s.hostMem (m.1 + i))
      if mix then (s.hostWrite m.1 (mixBytes s.drawn old new)).draw else s.hostWrite m.1 new
    else
      let old := (s.readHbm f.p m.1 m.2.2).1
      if mix then (s.putHbm f.p m.1 (mixBytes s.drawn old new)).draw else s.putHbm f.p m.1 new) s

/-- Copy every staged item to its destination (R238). -/
def State.copyAll (s : State) (f : Found) (mix : Bool) : State :=
  let descs := f.prog.descs
  ((cmdEnds descs f.cmd.idx).filter (fun e => decide (4 ≤ e.1 % 8))).foldl (fun s e =>
    let data := (f.cmd.finish e.1).elim [] End.data
    if isInternalQ descs (sQid e.2.2) then
      s.pushQueue f.p f.run.id descs (sQid e.2.2)
        (.item data (if mix then [(0, slotSize descs e.2.2)] else []) mix)
    else s.copyOut f e data mix) s

/-- Both executions of a guarded command have ended: its items are computed and staged, and no unit of the replay is left. -/
def State.replayOver (s : State) (f : Found) : Bool :=
  dReplay f.desc && f.cmd.phase == .computed && f.cmd.replays != []
    && f.cmd.streams.all (fun x => (decide (x.id < 128) && decide (x.id % 8 < 4)) || x.over)
    && !s.works.any (fun w => w.p == f.p && w.run == f.run.id && w.cmd == f.cmd.idx && !workOver f w)

/-- REPLAY_COMMIT (R238): `fails` gives failures of the replay by the die of the original part, `differ` whether an item digest
differs, `copyFails` whether a copy failed at its destination. -/
def execReplayCommit (c : CmdRef) (fails : List (DieC × Byte)) (differ copyFails : Bool) (s : State) : Res :=
  .next (
    match s.find c with
    | none => s
    | some f =>
      if !s.replayOver f then s else
      let s := s.endWorks f (fun _ => true)
      let own := (f.cmd.parts.zip f.cmd.replays).flatMap (fun e => e.2.fails.map (fun v => (e.1.die, v)))
      let bad := own ++ (fails.map (fun e => (e.1.val, e.2.toNat))).filter (fun e => statusCodes.contains e.2 && decide (0x10 ≤ e.2))
      let s := s.modRef c (fun x => bad.foldl (fun x e => x.fail e.1 e.2 0x3FF) { x with replays := [] })
      let failed := bad != [] || f.cmd.parts.any (fun x => x.fails != [])
      if differ then
        let s := (s.modRef c (fun x => (x.parts.filter (fun y => y.fails == [])).foldl (fun x y => x.fail y.die 0x40 0x3FF) x)).bump
          (rRel f.p 0x16) 1
        s.closeOutputs f
      else if failed then s.closeOutputs f
      else if copyFails then
        (s.modRef c (fun x => x.parts.foldl (fun x y => x.fail y.die 0x21 0x3FF) x)).copyAll f true
      else s.copyAll f false)

/-! ### Replicas (R242, R250) -/

def rReplica (g sub : Nat) : Nat := key (0x2320 + g) sub

/-- Valid members of a replica group: number, package, partition, address. -/
def State.replicaMembers (s : State) (g : Nat) : List (Nat × Nat × Nat × Nat) :=
  ((List.range 16).map (fun j => (j, s.reg (rReplica g (0x10 + j))))).filterMap (fun e =>
    if bit e.2 63 then some (e.1, b2n (bit e.2 62), bits e.2 60 56, bits e.2 47 0) else none)

/-- A run of the partition that binds an overlapping output region is in flight (R242). -/
def State.replicaBusy (s : State) (p addr len : Nat) : Bool :=
  (s.prn p).runs.any (fun r => (s.runOutputs p r).any (fun b => bKind b == 1 && spansMeet (bAddress b, bLength b) (addr, len)))

/-- The digest of a member: read here when its package is this one, else the partner's. -/
def State.replicaDigest (s : State) (g : Nat) (remote : List (Fin 16 × W64)) (m : Nat × Nat × Nat × Nat) : Option (Nat × Nat) :=
  let n := s.reg (rReplica g 2)
  if m.2.1 = s.reg (key 0x2500 1) then
    if s.reg (rState m.2.2.1) ≠ 2 || s.replicaBusy m.2.2.1 m.2.2.2 n then none
    else some (m.1, (digest64 (s.readHbm m.2.2.1 m.2.2.2 n).1))
  else (remote.find? (fun e => e.1.val == m.1)).map (fun e => (m.1, e.2.toNat))

/-- REPLICA_SAMPLE (R242): every member's region is digested and compared with member 0's; `remote` gives the digests of the
partner's members, and a member without one misses the sample. -/
def execReplicaSample (g : GroupN) (remote : List (Fin 16 × W64)) (missed : Bool) (s : State) : Res :=
  let n := g.val
  .next (
    if s.reg (rReplica n 1) = 0 ∨ s.replicaMembers n = [] then s else
    match (if missed then none else (s.replicaMembers n).mapM (s.replicaDigest n remote)) with
    | none => s.bump (rReplica n 0x31) 1
    | some l =>
      let s := (l.foldl (fun s e => s.setReg (rReplica n (0x20 + e.1)) e.2) s).bump (rReplica n 0x30) 1
      let first := (l.headD (0, 0)).2
      if l.any (fun e => e.2 != first) then
        ((s.bump (rReplica n 0x32) 1).setReg (rReplica n 0x33) s.now).raise 0x0301 (some n)
      else s)

/-! ### The mirrored pair (R243, R244) -/

/-- The digests of the memory-bound outputs of a command; a skip marker has digest 0 (R228, R244). -/
def mirrorDigests (f : Found) : List Nat :=
  (memoryOutputs f.prog.descs f.cmd.idx).map (fun e =>
    if f.cmd.fixed = some 0x02 then 0 else (f.cmd.finish e.1).elim 0 (fun x => (digest64 x.data)))

/-- A failure of the whole command: every part, or the command itself when it has none (R244). -/
def Cmd.failAll (c : Cmd) (code : Nat) : Cmd :=
  if c.parts = [] then { c with fixed := some code } else c.parts.foldl (fun c x => c.fail x.die code 0x3FF) c

/-- The cycles that a command waited for the partner, counted as cause 6 on the die of each part (R244). -/
def State.mirrorStalls (s : State) (c : CmdRef) : State :=
  match s.find c with
  | none => s
  | some f =>
    let n (die : Nat) : Nat := s.mclkCycles die (s.now - f.cmd.mirror.getD s.now)
    (f.cmd.parts.filter (fun x => decide (x.die < 48))).foldl (fun s x => s.stall f.p c.run c.cmd x.die 8 6 (n x.die)) s

/-- Resolve a command that waits for the partner, and complete it. -/
def State.mirrorEnds (s : State) (c : CmdRef) (code : Option Nat) : State :=
  let s := s.mirrorStalls c
  let s := s.modRef c (fun x => match code with
    | some v => { x.failAll v with mirror := none }
    | none => { x with mirror := none })
  match s.find c with
  | none => s
  | some f => s.completeCmd f

/-- MIRROR_DIGESTS (R244): the partner's digests arrive, in the order of the memory-bound outputs. -/
def execMirrorDigests (c : CmdRef) (digests : List W64) (s : State) : Res :=
  .next (
    match s.find c with
    | none => s
    | some f =>
      if f.cmd.mirror.isNone || f.cmd.phase != .computed then s else
      let s := s.setReg (rRel f.p 5) 0
      if digests.map BitVec.toNat = mirrorDigests f then s.mirrorEnds c none
      else (s.bump (rRel f.p 0x18) 1).mirrorEnds c (some 0x41))

/-- MIRROR_WAIT (R244): no digests within MIRROR_WAIT µs: LANE_DOWN when the pair link is down, else TIMEOUT; a down link makes
MIRROR_STATE read 1. -/
def execMirrorWait (c : CmdRef) (s : State) : Res :=
  .next (
    match s.find c with
    | none => s
    | some f =>
      match f.cmd.mirror with
      | none => s
      | some t =>
        let s := s.reach (t + 1000 * s.reg (key 0x2300 4))
        if s.linkUp f.p then s.mirrorEnds c (some 0x11) else (s.setReg (rRel f.p 5) 1).mirrorEnds c (some 0x60))

end Sys2Proof.Machine
end

