-- ==== Sys2Proof/Machine/Images.lean ====
section
/-! DEFINITION. Hoods and trims (R301–R324): the checks of an image, the load of a die step by step, the configuration slave port,
the trim port, and the pounce scrubber. -/

namespace Sys2Proof.Machine

/-! ### The image (R302–R305) -/

def ihMagic (h : Nat) : Nat := bits h 31 0
def ihVersion (h : Nat) : Nat := bits h 47 32
def ihKind (h : Nat) : Nat := bits h 55 48
def ihDevice (h : Nat) : Nat := bits h 95 64
def ihDiePos (h : Nat) : Nat := bits h 101 96
def ihRevision (h : Nat) : Nat := bits h 111 104
def ihGrade (h : Nat) : Nat := bits h 113 112
def ihMask (h : Nat) : Nat := bits h 139 128
def ihTrimRegion (h : Nat) : Nat := bits h 143 140
def ihPorts (h : Nat) : Nat := bits h 148 144
def ihFrames (h : Nat) : Nat := bits h 191 160
def ihLength (h : Nat) : Nat := bits h 255 192
def ihDigest (h : Nat) : Nat := bits h 639 256
def ihCrc (h : Nat) : Nat := bits h 4095 4064
def ihReserved (h : Nat) : List Nat := [bits h 4063 640, bits h 159 149, bits h 127 114, bits h 103 102, bits h 63 56]

/-- The declarations and the boundary maps of an image (R302). -/
def imageDecls (h : Nat) (bs : List Byte) : List Nat :=
  (List.range (ihPorts h)).map (fun i => leNat (slice bs (512 + 32 * i) 32))
def imageMap (h : Nat) (bs : List Byte) (i : Nat) : Nat := leNat (slice bs (512 + 32 * ihPorts h + 256 * i) 256)

/-- The place of frame record `n` in an image (R302). -/
def recordAt (h n : Nat) : Nat := 512 + 32 * ihPorts h + 256 * popcount 12 (ihMask h) + 520 * n

/-- KIND, REGION_MASK and TRIM_PORT_REGION agree, and suit the path; `own` is the die's present TRIM_PORT_REGION (R303, R307). -/
def kindOk (h path own : Nat) : Bool :=
  if ihKind h = 1 then ihMask h == 0xFFF && (decide (ihTrimRegion h < 12) || ihTrimRegion h == 15) && path != 3
  else if ihKind h = 2 then ihMask h != 0 && ihMask h != 0xFFF && ihTrimRegion h == 15 && !(path == 3 && bit (ihMask h) own)
  else false

/-- The declarations pass R289 as far as they can be read before the frames: port numbers and queue memories named once, gangs
aligned and within one region; a trim's memories lie in its regions, and its port numbers are not declared elsewhere. -/
def declsOk (h : Nat) (ds others : List Nat) : Bool :=
  let mems := ds.flatMap (fun d => (declSlots d).flatMap slotMemories)
  let outside := others.filter (fun d => !declTouches d (ihMask h))
  (ds.map declPort).eraseDups.length == ds.length && mems.eraseDups.length == mems.length
    && ds.all (fun d => (declSlots d).all (fun x =>
      slotQm x % 2 ^ slotGang x == 0 && (slotMemories x).all (fun m => m / 40 == slotQm x / 40 && bit (ihMask h) (m / 40))))
    && ds.all (fun d => outside.all (fun o => declPort o != declPort d))

/-- A boundary map holds no entry 3 (R305). -/
def mapOk (m : Nat) : Bool := (List.range 1024).all (fun i => bits m (2 * i + 1) (2 * i) != 3)

/-- The header checks 0x01–0x0B, the first failure (R307); `want` is LOAD_LENGTH on the host-staged path. -/
def State.headerFails (s : State) (c path : Nat) (want : Option Nat) (bs : List Byte) : Option Nat :=
  let h := leNat (slice bs 0 512)
  let b := s.brim c
  let n := popcount 12 (ihMask h)
  let rev := s.reg (key 0x1000 5)
  let checks : List (Nat × Bool) := [
    (0x01, ihMagic h == 0x4D495242 && ihVersion h == 1),
    (0x02, crc32c (slice bs 0 508) == ihCrc h),
    (0x03, ihDevice h == 0x4E534816),
    (0x04, ihDiePos h == c || (ihDiePos h == 63 && path != 1)),
    (0x05, ihRevision h / 16 == rev / 16 && decide (ihRevision h % 16 ≤ rev % 16)),
    (0x06, !(ihGrade h == 2 && !Config.gradeTwo)),
    (0x07, kindOk h path b.trimRegion),
    (0x08, ihFrames h == 2560 * n && ihLength h == 512 + 32 * ihPorts h + 256 * n + 1331200 * n && want.all (· == ihLength h)),
    (0x09, (ihReserved h).all (· == 0)),
    (0x0A, decide (ihPorts h ≤ 16) && declsOk h (imageDecls h bs) b.ports),
    (0x0B, (List.range n).all (fun i => mapOk (imageMap h bs i)))]
  (checks.find? (fun e => !e.2)).map (·.1)

/-! ### DSP sequences (R284) -/

/-- A DSP sequence of 8 words passes R284: no reserved OP, and no REPEAT before a REPEAT or an END. -/
def sequenceOk (ws : List Nat) : Bool :=
  (List.range 8).all (fun i =>
    let op := iOp (ws.getD i 0)
    let next := iOp (ws.getD ((i + 1) % 8) 0)
    (decide (op < 9) || op == 15) && !(op == 8 && (next == 8 || next == 15)))

/-! ### Attachments under a load (R293, R314, R317) -/

/-- A port detaches and its part reports WRITE_ERROR (R293, R317, R321): the command ends, and its ports on its other dies
detach with it. -/
def State.detachFails (s : State) (c : Nat) (a : Attach) : State :=
  let ref := refOf a.p a.run a.cmd
  match s.find ref with
  | none => s.modBrim c (fun b => { b with attach := b.attach.erase a })
  | some f =>
    let s := s.modRef ref (fun x => x.fail c 0x21 0x3FF)
    let s := s.abortPorts ref ((brimStages f).map (·.1)) (f.cmd.parts.map Part.die)
    if f.cmd.phase = .issued then
      let s := (s.closeOutputs f).modRef ref (fun x => { x with phase := .computed, settledAt := s.now })
      s.dropWork a.p a.run a.cmd
    else s

/-- The attachments of a die whose ports have a gang in a mask of regions. -/
def Brim.attachedIn (b : Brim) (mask : Nat) : List Attach :=
  b.attach.filter (fun a => (b.decl a.port).any (fun d => declTouches d mask))

/-- Whether new declarations let a frozen attachment resume: the same PORT and SIGNATURE, and each slot it uses used with the
same GANG (R317). -/
def resumes (new : List Nat) (old : Nat) : Bool :=
  new.any (fun d => declPort d == declPort old && declSig d == declSig old
    && (List.range 8).all (fun i => !slotServed (declSlot old i)
      || (slotServed (declSlot d i) && slotGang (declSlot d i) == slotGang (declSlot old i))))

/-! ### The outcome of a load (R307, R308, R310, R312, R319) -/

/-- The load a die is serving. -/
def State.loadOf (s : State) (c : Nat) : Option Load := (s.brim c).loads.head?
def State.modLoad (s : State) (c : Nat) (g : Load → Load) : State :=
  s.modBrim c (fun b => { b with loads := updAt b.loads 0 g })

/-- Tell the path of an outcome, and record it in the die's entries. -/
def State.loadEnds (s : State) (c : Nat) (l : Load) (st code : Nat) : State :=
  let s := (((s.setReg (rLoad c 4) st).setReg (rLoad c 5) code).setReg (rLoad c 6) l.path).setReg (rLoad c 7) s.now
  let s := s.modBrim c (fun b => { b with loads := b.loads.erase l })
  if l.path = 1 then { s.emit (.cfgDone (code == 0)) with cfg := { s.cfg with selected := false, die := none, err := code != 0 } }
  else if l.path = 3 then s.emit (.tpDone c code) else s

/-- Clear the bits of a mask. -/
def less (x mask : Nat) : Nat := x - (x &&& mask)

/-- The regions that a held or blank state keeps closed: those held by pounce (R321). -/
def State.heldMask (s : State) (c : Nat) : Nat := s.reg (rLoad c 9)

/-- A load fails (R308): before its first frame it is rejected, and the border is as it was; later its covered regions are
blank, gated and driven under the incoming map, and their ports are no longer declared. -/
def State.loadFails (s : State) (c code : Nat) : State :=
  match s.loadOf c with
  | none => s
  | some l =>
    let mask := if 2 ≤ l.stage then ihMask l.header else 0
    if l.frames = 0 then
      let held := s.heldMask c
      let s := (s.thawAll c).modBrim c (fun b =>
        { b.reopen mask with
          incoming := [], gsr := less b.gsr mask, closed := less b.closed mask ||| (mask &&& held),
          gated := less b.gated mask ||| (mask &&& held) })
      s.loadEnds c l 3 code
    else
      let t := ((s.brim c).attachedIn mask).foldl (fun t a => t.detachFails c a) s
      let t := (t.blankRegions c mask).modBrim c (fun b =>
        { b with incoming := [], gsr := less b.gsr mask, gated := b.gated ||| mask, closed := b.closed ||| mask,
                 ports := b.ports.filter (fun d => !declTouches d mask) })
      let t := (t.setReg (rLoad c 8) (less (t.regionsLoaded c) mask)).setReg (rLoad c 9) (less (t.heldMask c) mask)
      (t.loadEnds c l 4 code).avsFrom s [c]

/-- Abandon every load of a die with LOAD_DETAIL 0x12 (R322), those that wait included. -/
def State.abandonLoads (c : Nat) (keep : Load → Bool) : Nat → State → State
  | 0, s => s
  | n + 1, s =>
    match (s.brim c).loads.find? (fun l => !keep l) with
    | none => s
    | some l => State.abandonLoads c keep n (if s.loadOf c = some l then s.loadFails c 0x12 else s.loadEnds c l 3 0x12)

/-! ### Starting a load (R309–R313) -/

/-- A die's partition may load through a path (R309). -/
def State.mayLoad (s : State) (c path : Nat) : Bool :=
  match s.dieOwner c with
  | some p => s.reg (rState p) == 2 && (path != 1 || s.reg (rConfidential p) == 0)
  | none => false

/-- LOAD_COMMAND 1 on a die (R311). -/
def State.queueLoad (s : State) (c path : Nat) : State :=
  let s := s.modBrim c (fun b => { b with loads := b.loads ++ [⟨path, 0, s.now, 0, [], 0⟩] })
  (s.setReg (rLoad c 4) 1).setReg (rLoad c 6) path

/-- CFG_IMAGE_START (R310): CFG_CS_N falls on the active milliner's port die; CFG_MODE is sampled. -/
def execCfgImageStart (parallel : Bool) (s : State) : Res :=
  .next (if s.cfg.selected then s else { s with cfg := ⟨true, parallel, none, false⟩ })

/-- CFG_CS_N_RISE (R310): an image that ends before LENGTH bytes fails. -/
def execCfgCsNRise (s : State) : Res :=
  .next (
    if !s.cfg.selected then s
    else
      match s.cfg.die with
      | none => { s.emit (.cfgDone false) with cfg := { s.cfg with selected := false, err := true } }
      | some c =>
        match s.loadOf c with
        | some l => if l.path = 1 ∧ l.stage < 4 then s.loadFails c 0x10 else s
        | none => s)

/-- TP_START (R312): the next word of the trim port is word 0 of an image. -/
def execTpStart (die : DieC) (s : State) : Res :=
  let c := die.val
  let b := s.brim c
  .next (
    if b.trimRegion = 15 || !s.regionRuns c b.trimRegion || b.loads.any (fun l => l.path == 3) then s
    else s.queueLoad c 3)

/-- TP_ABORT (R312). -/
def execTpAbort (die : DieC) (s : State) : Res :=
  let c := die.val
  .next (
    match (s.brim c).loads.find? (fun l => l.path == 3) with
    | none => s
    | some l => if s.loadOf c = some l then s.loadFails c 0x10 else s.loadEnds c l 3 0x10)

/-- Host-staged loads being served (R309, R313). -/
def State.stagedLoads (s : State) : Nat :=
  (List.range 48).countP (fun c => (s.loadOf c).any (fun l => l.path == 2 && decide (1 ≤ l.stage)))

/-- LOAD_START (R309, R313): the first load that waits at a die is served once the one before has ended; host-staged loads
beyond eight in the package wait. -/
def execLoadStart (die : DieC) (s : State) : Res :=
  let c := die.val
  .next (
    match s.loadOf c with
    | none => s
    | some l =>
      if l.stage ≠ 0 ∨ (l.path = 2 ∧ 8 ≤ s.stagedLoads) then s
      else
        let s := s.modLoad c (fun x => { x with stage := 1, at_ := s.now })
        let s := (s.setReg (rLoad c 4) 1).setReg (rLoad c 6) l.path
        if s.mayLoad c l.path then s else s.loadFails c 0x11)

/-- Bytes of an image: from partition HBM on the host-staged path, with whether the read was poisoned; else as delivered. -/
def State.imageBytes (s : State) (c path off n : Nat) (bytes : List Byte) : List Byte × Bool :=
  if path = 2 then s.readHbm ((s.dieOwner c).getD 0) (s.reg (rLoad c 1) + off) n else (bytes, false)

/-- Header checks passed at t_s (R314): attachments freeze, the declarations count for placement, the boundary latches of the
covered regions capture, and their clocks are gated. -/
def State.borderBegins (s : State) (c path : Nat) (bs : List Byte) : State :=
  let h := leNat (slice bs 0 512)
  let ps := imageDecls h bs
  let touched := (s.brim c).attachedIn (ihMask h)
  let now := s.now
  let freeze (a : Attach) : Attach := if touched.contains a then a.freeze now else a
  let l : Load := ⟨path, 2, s.now, h, bs.take (recordAt h 0), 0⟩
  let put (_ : Load) : Load := l
  let covered := regionsIn (ihMask h)
  s.modBrim c (fun b =>
    { b.capture c (ihMask h) (fun r => imageMap h bs (covered.idxOf r)) with
      loads := updAt b.loads 0 put, incoming := ps, attach := b.attach.map freeze,
      closed := b.closed ||| ihMask h, gated := b.gated ||| ihMask h })

/-- HEADER_CHECK (R307, R309, R310): the first 4,096 bytes have arrived.  An image on the slave port is known to be for its
DIE_POS here, and waits while that die serves another load; one that names no crown die has no die to record its outcome. -/
def execHeaderCheck (die : DieC) (bytes : List Byte) (s : State) : Res :=
  let c := die.val
  .next (
    match s.loadOf c with
    | some l =>
      if l.stage ≠ 1 then s
      else
        let want := s.reg (rLoad c 2)
        let r := s.imageBytes c l.path 0 (min 4096 want) bytes
        let why := if r.2 then some 0x10
          else s.headerFails c l.path (if l.path = 2 then some want else none) r.1
        match why with
        | some code => s.loadFails c code
        | none => s.borderBegins c l.path r.1
    | none =>
      if s.cfg.selected = false ∨ s.cfg.die.isSome then s
      else
        let pos := ihDiePos (leNat (slice bytes 0 512))
        if pos = c then
          let s := (s.queueLoad c 1).modLoad c (fun x => { x with stage := 1 })
          let s := { s with cfg := { s.cfg with die := some c } }
          match s.headerFails c 1 none bytes with
          | some code => s.loadFails c code
          | none => if s.mayLoad c 1 then s.borderBegins c 1 bytes else s.loadFails c 0x11
        else if 48 ≤ pos then { s.emit (.cfgDone false) with cfg := { s.cfg with selected := false, err := true } }
        else s)

/-! ### Frames, digest and release (R304, R314) -/

/-- The correction of a pounce frame ends (R320): the frame reads as it was written. -/
def State.pounceCorrect (s : State) (c : Nat) : State :=
  match (s.brim c).correct with
  | none => s
  | some _ => (s.bump (rLoad c 0x12) 1).modBrim c (fun b => { b with correct := none })

/-- GSR_ASSERT (R282, R314 step 4). -/
def execGsrAssert (die : DieC) (s : State) : Res :=
  let c := die.val
  .next (
    match s.loadOf c with
    | none => s
    | some l =>
      if l.stage ≠ 2 then s
      else
        let s := (s.reach (l.at_ + 2000)).pounceCorrect c
        ((s.modBrim c (fun b => { b with gsr := b.gsr ||| ihMask l.header })).setReset c (ihMask l.header)).modLoad c
          (fun x => { x with stage := 3 }))

/-- The region and index that record `n` must name (R304). -/
def recordPlace (h n : Nat) : Nat × Nat := ((regionsIn (ihMask h)).getD (n / 2560) 0, n % 2560)

/-- FRAME_RECORD (R304, R307): the record is checked, then written; with the first frame the maps of the covered regions take
effect for good (R305). -/
def execFrameRecord (die : DieC) (bytes : List Byte) (s : State) : Res :=
  let c := die.val
  .next (
    match s.loadOf c with
    | none => s
    | some l =>
      if l.stage ≠ 3 then s
      else
        let r := s.imageBytes c l.path (recordAt l.header l.frames) 520 bytes
        let bs := slice r.1 0 520
        let w := leNat (slice bs 0 8)
        let data := slice bs 8 512
        let at_ := recordPlace l.header l.frames
        if r.2 then s.loadFails c 0x10
        else if crc32c data ≠ bits w 63 32 then s.loadFails c 0x0C
        else if (bits w 15 12, bits w 11 0) ≠ at_ then s.loadFails c 0x0D
        else
          let covered := (regionsIn (ihMask l.header)).mapIdx (fun i r => (i, r))
          let maps (old : Sparse Nat) : Sparse Nat :=
            covered.foldl (fun m e => sput (fun _ => 0) m e.2 (imageMap l.header l.image e.1)) old
          let s := if l.frames = 0 then s.modBrim c (fun b => { b with maps := maps b.maps }) else s
          let n := l.frames + 1
          (s.setFrame c at_.1 at_.2 data).modLoad c (fun x =>
            { x with frames := n, image := x.image ++ bs, stage := if n = ihFrames l.header then 4 else 3,
                     at_ := if n = ihFrames l.header then s.now else x.at_ }))

/-- The checks of a whole image: DSP sequences, PORT mode of the memories of used slots, and the digest (R284, R289, R307). -/
def State.imageFails (s : State) (c : Nat) (l : Load) : Option Nat :=
  let rs := regionsIn (ihMask l.header)
  let seqs := rs.all (fun r => (List.range 128).all (fun i => sequenceOk (Config.dspWords (s.regionFrames c r) i)))
  let modes := (s.brim c).incoming.all (fun d => (declSlots d).all (fun x => (slotMemories x).all (fun m =>
    s.queueMode c m == .port)))
  if !seqs then some 0x0E
  else if !modes then some 0x0A
  else if leNat (sha384 (l.image.drop 512)) ≠ ihDigest l.header then some 0x0F else none

/-- IMAGE_DIGEST_CHECK (R314 step 5). -/
def execImageDigestCheck (die : DieC) (s : State) : Res :=
  let c := die.val
  .next (
    match s.loadOf c with
    | none => s
    | some l =>
      if l.stage ≠ 4 then s
      else
        let s := s.reach (l.at_ + 1000)
        match s.imageFails c l with
        | some code => s.loadFails c code
        | none => s.modLoad c (fun x => { x with stage := 5 }))

/-- GSR_RELEASE (R314 steps 6–8, R317, R319): the regions run with the new design, the new declarations take effect, frozen
attachments resume or detach, and the digest joins measurement block 8. -/
def execGsrRelease (die : DieC) (s : State) : Res :=
  let c := die.val
  .next (
    match s.loadOf c with
    | none => s
    | some l =>
      if l.stage ≠ 5 then s
      else
        let s := s.reach (l.at_ + 51000)
        let mask := ihMask l.header
        let b := s.brim c
        let lost := (b.attachedIn mask).filter (fun a => !(b.decl a.port).any (resumes b.incoming))
        let t := lost.foldl (fun t a => t.detachFails c a) s
        let t := ((t.thawAll c).initRegions c mask).modBrim c (fun b =>
          { b with ports := b.ports.filter (fun d => !declTouches d mask) ++ b.incoming, incoming := [],
                   gsr := less b.gsr mask, gated := less b.gated mask, closed := less b.closed mask,
                   trimRegion := if ihKind l.header = 1 then ihTrimRegion l.header else b.trimRegion })
        let t := (t.setReg (rLoad c 8) (t.regionsLoaded c ||| mask)).setReg (rLoad c 9) (less (t.heldMask c) mask)
        let t := match t.dieOwner c with
          | some p => t.modSec p (fun x => { x with images := x.images ++ [(c, leBytes 48 (ihDigest l.header))] })
          | none => t
        (t.loadEnds c l 2 0).avsFrom s [c])

/-! ### Pounce (R320, R321) -/

/-- The frame the scrubber reads next from a place on: the loaded regions that are not under load. -/
def State.pounceAt (s : State) (c from_ : Nat) : Option Nat :=
  let rs := (regionsIn (s.regionsLoaded c)).filter (fun r => !bit (s.brim c).loadMask r)
  match rs.find? (fun r => decide (from_ < 2560 * (r + 1))) with
  | some r => some (max from_ (2560 * r))
  | none => none

/-- Hold a region (R321): its border closes under its retained map, its clock is gated, and its ports detach. -/
def State.holdRegion (s : State) (c r : Nat) : State :=
  let t := ((s.brim c).attachedIn (2 ^ r)).foldl (fun t a => t.detachFails c a) s
  let t := t.modBrim c (fun b =>
    { b.capture c (2 ^ r) (sget (fun _ => 0) b.maps) with
      closed := setBit b.closed r true, gated := setBit b.gated r true })
  t.setReg (rLoad c 9) (setBit (t.heldMask c) r true)

/-- POUNCE_FRAME_READ (R320, R321): the next frame is read back and its CRC-32C compared. -/
def execPounceFrameRead (die : DieC) (cond : WordCond) (s : State) : Res :=
  let c := die.val
  .next (
    if (s.brim c).correct.isSome then s
    else
      match s.pounceAt c (s.brim c).pounce with
      | none => s
      | some k =>
        let s := s.bump (rLoad c 0x10) 1
        let wraps := (s.pounceAt c (k + 1)).isNone
        let s := s.modBrim c (fun b => { b with pounce := if wraps then 0 else k + 1 })
        let s := if wraps then s.bump (rLoad c 0x11) 1 else s
        match cond with
        | .good => s
        | .correctable => s.modBrim c (fun b => { b with correct := some k })
        | .uncorrectable =>
          let s := (s.bump (rLoad c 0x13) 1).setReg (rLoad c 0x14) (k / 2560 * 4096 + k % 2560)
          let s := s.raise 0x0401 (some c)
          if s.reg (key 0x2400 2) = 1 then s.holdRegion c (k / 2560) else s)

/-- POUNCE_CORRECT (R320): the frame is rewritten within 2 µs of the read. -/
def execPounceCorrect (die : DieC) (s : State) : Res := .next (s.pounceCorrect die.val)

/-! ### Clearing a brim (R270, R322) -/

/-- A brim left blank: no hood, no ports, every frame zero, loads abandoned. -/
def State.clearBrim (s : State) (c : Nat) : State :=
  let s := State.abandonLoads c (fun _ => false) (s.brim c).loads.length s
  let s := { s.blankRegions c 0xFFF with brims := sput (fun _ => Brim.blank) s.brims c Brim.blank }
  (s.setReg (rLoad c 8) 0).setReg (rLoad c 9) 0

end Sys2Proof.Machine
end

