-- ==== Sys2Proof/Machine/Lanes.lean ====
section
/-! DEFINITION. The pairing lanes (R325–R342): bring-up lane by lane, groups, the receiver of the pair link, replay and
restriping, and what a lost group ends. -/

namespace Sys2Proof.Machine

/-! ### Lane states (R328–R331) -/

/-- LANE_STATE codes (R329, R341). -/
def lnOff : Nat := 0
def lnSend : Nat := 1
def lnAlign : Nat := 2
def lnEq : Nat := 3
def lnCheck : Nat := 4
def lnUp : Nat := 5
def lnMiswired : Nat := 6
def lnTest : Nat := 7

def rLaneState (g l : Nat) : Nat := rLane g (0x40 + l)
def State.laneState (s : State) (g l : Nat) : Nat := s.reg (rLaneState g l) % 16

/-- The lanes of a group that are UP, and the group's use and state. -/
def State.lanesUp (s : State) (g : Nat) : Nat := s.reg (rLane g 5)
def State.laneUse (s : State) (g : Nat) : Nat := s.reg (rLane g 1)
def State.groupState (s : State) (g : Nat) : Nat := s.reg (rLane g 3)

/-- A lane enters a state (R329). -/
def State.laneTo (s : State) (g l st : Nat) : State :=
  let v := s.reg (rLaneState g l)
  let s := s.setReg (rLaneState g l) (v - v % 16 + st)
  let s := s.modLg g (fun x => { x with lanes := sput (fun _ => ((0 : Nat), (0 : Nat))) x.lanes l (s.now, 0) })
  s.setReg (rLane g 5) (setBit (s.lanesUp g) l (st == lnUp))

/-- When a lane entered its state, and the consistent TS2 in a row since. -/
def State.laneSince (s : State) (g l : Nat) : Nat × Nat := sget (fun _ => ((0 : Nat), (0 : Nat))) (s.lg g).lanes l

/-- Change a lane that stands in a state, on a live port die; otherwise nothing happens. -/
def State.fromLane (s : State) (g : GroupN) (l : LaneN) (st : Nat) (f : State → State) : State :=
  if s.live (48 + g.val) && s.laneState g.val l.val == st then f s else s

/-- A lane reaches UP: the first of its group starts the wait of R331; a group in use 2 reads UP from its first lane on
(log 43). -/
def State.laneReady (s : State) (g l : Nat) : State :=
  let s := s.laneTo g l lnUp
  let s := s.modLg g (fun x => { x with firstUp := some (x.firstUp.getD s.now) })
  if s.laneUse g = 2 then s.setReg (rLane g 3) 2 else s

/-- CLOCK_LOCK (R329). -/
def execClockLock (g : GroupN) (lane : LaneN) (s : State) : Res :=
  .next (s.fromLane g lane lnSend (fun s => s.laneTo g.val lane.val lnAlign))

/-- COMMA_ALIGN (R329): an inverted polarity is corrected. -/
def execCommaAlign (g : GroupN) (lane : LaneN) (inverted : Bool) (s : State) : Res :=
  .next (s.fromLane g lane lnAlign (fun s =>
    let k := rLaneState g.val lane.val
    (s.setReg k (setBit (s.reg k) 8 inverted)).laneTo g.val lane.val lnEq))

/-- ALIGN_TIMEOUT (R329): 100 µs without alignment. -/
def execAlignTimeout (g : GroupN) (lane : LaneN) (s : State) : Res :=
  .next (s.fromLane g lane lnAlign (fun s =>
    (s.reach ((s.laneSince g.val lane.val).1 + 100000)).laneTo g.val lane.val lnSend))

/-- EQ_DONE (R329): the CTLE setting it converged to is a free value (log 3). -/
def execEqDone (g : GroupN) (lane : LaneN) (s : State) : Res :=
  .next (s.fromLane g lane lnEq (fun s =>
    let s := s.reach ((s.laneSince g.val lane.val).1 + 200000)
    let k := rLaneState g.val lane.val
    let v := s.reg k
    let s := (s.setReg k (v - field (bits v 7 4) 7 4 + field (Config.freeNat 4 s.drawn) 7 4)).draw
    if s.laneUse g.val = 2 then s.laneReady g.val lane.val else s.laneTo g.val lane.val lnCheck))

/-- TS1 (R328): a TS1 ends a row of consistent TS2. -/
def execTs1 (g : GroupN) (lane : LaneN) (s : State) : Res :=
  .next (s.fromLane g lane lnCheck (fun s =>
    let t := (s.laneSince g.val lane.val).1
    s.modLg g.val (fun x => { x with lanes := sput (fun _ => ((0 : Nat), (0 : Nat))) x.lanes lane.val (t, 0) })))

/-- TS2 (R327, R329, R330): bytes 2–6 of the set. -/
def execTs2 (g : GroupN) (lane : LaneN) (rlane rgroup role : Byte) (pair : BitVec 16) (s : State) : Res :=
  .next (s.fromLane g lane lnCheck (fun s =>
    let e := s.laneSince g.val lane.val
    let count (n : Nat) (s : State) : State :=
      s.modLg g.val (fun x => { x with lanes := sput (fun _ => ((0 : Nat), (0 : Nat))) x.lanes lane.val (e.1, n) })
    if rlane.toNat ≠ lane.val ∨ rgroup.toNat ≠ g.val then s.laneTo g.val lane.val lnMiswired
    else if s.laneUse g.val = 1 ∧ (role.toNat = s.reg (rLink 1) ∨ pair.toNat ≠ s.reg (rLink 2)) then
      let s := count 0 s
      if (s.lg g.val).mismatch then s else (s.modLg g.val (fun x => { x with mismatch := true })).raise 0x0501 (some g.val)
    else if e.2 + 1 < 16 then count (e.2 + 1) s
    else s.laneReady g.val lane.val))

/-- LANE_ERROR_LOSS (R329, R341): a lane in UP loses lock or alignment, or has had too many code or disparity errors. -/
def execLaneErrorLoss (g : GroupN) (lane : LaneN) (errors : W32) (s : State) : Res :=
  .next (s.fromLane g lane lnUp (fun s =>
    ((s.bump (rLane g.val (0x80 + lane.val)) errors.toNat).bump (rLane g.val 0x11) 1).laneTo g.val lane.val lnSend))

/-! ### Groups (R331, R335, R336) -/

/-- End every transaction outstanding through a group with LANE_DOWN (R336); requests of the partner are the partner's to
end. -/
def State.endLink (s : State) (g : Nat) : State :=
  let mine (x : Xact) : Bool := x.link.any (fun l => l.1 == g)
  let gone := s.xacts.filter mine
  let s := { s with xacts := s.xacts.filter (fun x => !mine x), pairTx := s.pairTx.filter (fun e => e.1 != g) }
  let s := s.modLg g (fun x => { x with unacked := [], replays := 0, nak := false, owed := none })
  gone.foldl (fun s x =>
    if x.link.any (fun l => l.2) then s
    else if pkCmd x.header = 0x04 then s.ffResolve x.header 0x60 x.at_
    else if pkCmd x.header = 0x01 then s.deliver x [] (allUnits x.header) 0x60
    else s.settled x 0x60) s

/-- A pair-link group becomes DOWN (R336). -/
def State.groupDown (s : State) (g : Nat) : State :=
  let s := if s.laneUse g = 1 ∧ s.groupState g ≠ 0 then
      (((s.setReg (rLane g 3) 0).setReg (rLane g 4) 0).bump (rLane g 0x12) 1).raise 0x0502 (some g)
    else s
  (s.modLg g (fun x => { x with stripe := 0 })).endLink g

/-- A write of LANE_USE takes the group through DOWN into its new use (R326, R329, R337). -/
def State.useLanes (s : State) (g v : Nat) : State :=
  let s := (s.groupDown g).setReg (rLane g 1) v
  let test := s.reg (rLane g 7)
  let s := (List.range 64).foldl (fun s l =>
    (s.setReg (rLaneState g l) 0).laneTo g l (if v = 0 then lnOff else if v = 3 ∧ bit test l then lnTest else lnSend)) s
  let s := (s.setReg (rLane g 3) (if v = 0 then 0 else if v = 3 then 3 else 1)).setReg (rLane g 4) 0
  let now := s.now
  (s.modLg g (fun x => { x with firstUp := none, wasUp := false, since := now, stripe := 0, txSeq := 0, rxSeq := 0,
                                mismatch := false, partner := 0, clean := [], elastic := [] })).refreshDomains (48 + g)

/-- Stripe over the lanes that are UP at both ends (R332, R335). -/
def State.stripeOver (s : State) (g : Nat) : State :=
  let m := s.lanesUp g &&& (s.lg g).partner
  (s.modLg g (fun x => { x with stripe := m })).setReg (rLane g 4) (popcount 64 m)

/-- Every unacknowledged frame again, in order (R334). -/
def State.resend (s : State) (g : Nat) : State :=
  let s := s.modLg g (fun x => { x with advanced := s.now })
  ((s.lg g).unacked).foldl (fun s f => s.sendFrame g f) s

/-- GROUP_UP (R331): all lanes that are not MISWIRED are UP, or 100 µs have passed since the first with MIN_LANES UP. -/
def execGroupUp (g : GroupN) (s : State) : Res :=
  let n := g.val
  let all := (List.range 64).all (fun l => s.laneState n l == lnUp || s.laneState n l == lnMiswired) && s.lanesUp n != 0
  let enough := decide (s.reg (rLink 6) ≤ popcount 64 (s.lanesUp n))
  .next (
    match (s.lg n).firstUp with
    | none => s
    | some t =>
      if s.laneUse n ≠ 1 ∨ s.groupState n = 2 ∨ s.live (48 + n) = false ∨ (all = false ∧ enough = false) then s
      else
        let s := if all then s else s.reach (t + 100000)
        let s := s.modLg n (fun x => { x with wasUp := true, partner := s.lanesUp n, replays := 0 })
        let s := ((s.setReg (rLane n 3) 2).stripeOver n).resend n
        State.pump n s.pairTx.length s)

/-- GROUP_DOWN (R331, R334): training has lasted RETRAIN_MS. -/
def execGroupDown (g : GroupN) (s : State) : Res :=
  let n := g.val
  .next (
    if s.laneUse n = 1 ∧ s.groupState n = 1 then
      (s.reach ((s.lg n).since + 1000000 * s.reg (rLink 5))).groupDown n
    else s)

/-- A group that retrains (R334, R335): it must be UP again within RETRAIN_MS. -/
def State.training (s : State) (g : Nat) : State :=
  let s := s.modLg g (fun x => { x with since := s.now, firstUp := none, stripe := 0, replays := 0 })
  (s.setReg (rLane g 3) 1).setReg (rLane g 4) 0

/-- RESTRIPE (R335): a lane of the stripe has left UP, here or at the partner; with fewer than MIN_LANES left the group trains
(log 44). -/
def execRestripe (g : GroupN) (s : State) : Res :=
  let n := g.val
  let left := (s.lg n).stripe &&& s.lanesUp n &&& (s.lg n).partner
  .next (
    if s.groupUp n = false ∨ left = (s.lg n).stripe then s
    else if s.reg (rLink 6) ≤ popcount 64 (s.lanesUp n &&& (s.lg n).partner) then ((s.stripeOver n).resend n).sendControl n false false
    else s.training n)

/-- SKIP_WORD (R325, R335): lanes that have returned to UP rejoin the stripe; a bit inversion in store has gone out with a
word (R337). -/
def execSkipWord (g : GroupN) (s : State) : Res :=
  let n := g.val
  let s := s.modLg n (fun x => { x with inject := 0 })
  .next (
    if s.groupUp n then
      let s := s.modLg n (fun x => { x with partner := x.partner ||| s.lanesUp n })
      if (s.lg n).stripe = s.lanesUp n &&& (s.lg n).partner then s else (s.stripeOver n).sendControl n false false
    else s)

/-! ### The receiver and replay (R333, R334) -/

/-- After REPLAY_LIMIT replays without progress every lane returns to SEND; until then the unacknowledged frames are sent
again (R334). -/
def State.linkReplay (s : State) (g : Nat) : State :=
  if (s.lg g).unacked = [] then s
  else if s.reg (rLink 4) ≤ (s.lg g).replays then
    (((List.range 64).foldl (fun s l => s.laneTo g l lnSend) s).bump (rLane g 0x11) 1).training g
  else ((s.bump (rLane g 0x10) 1).modLg g (fun x => { x with replays := x.replays + 1 })).resend g

/-- A header's acknowledgement: frames up to ACK_SEQ leave the replay buffer (R333, R334). -/
def State.acks (s : State) (g head : Nat) : State :=
  if !bit head 33 then s else
  let x := s.lg g
  match x.unacked.findIdx? (fun f => f.seq % 65536 == bits head 31 16) with
  | none => s
  | some i =>
    let s := s.modLg g (fun y => { y with unacked := x.unacked.drop (i + 1), replays := 0, advanced := s.now })
    State.pump g s.pairTx.length s

/-- Whether a header's HDR_CRC checks (R332). -/
def headOk (head : BitVec 256) : Bool := crc32c (leBytes 28 head.toNat) == bits head.toNat 255 224

/-- The partition here that is coupled with the partner's (R243, R265). -/
def State.coupled (s : State) (part : Nat) : Option Nat :=
  if part = 0 then none else partNums.find? (fun q => s.reg (key (0x5800 + q) 3) == part && s.reg (rState q) != 0)

/-- A response of the partner at its requester: it waits to be delivered as READ_DATA or SETTLE; one for a fire-forward write
resolves it (R197, R335). -/
def State.pairResponse (s : State) (g pk : Nat) (data : List Byte) (ok : Bool) : State :=
  match s.xact (pkDstDie pk) (pkDstEng pk) (pkTag pk) with
  | none => s.bump (rSwitch (48 + g) 0xD) 1
  | some x =>
    let st := if ok then pkStatus pk else if pkCmd x.header = 0x01 then 0 else 0x21
    if pkCmd x.header = 0x04 then ({ s with xacts := s.xacts.erase x }).ffResolve x.header st x.at_
    else
      let h := setBits (setBits x.header 255 250 (48 + g)) 249 246 3
      let bad := if ok && pkStatus pk == 0 then [] else allUnits x.header
      s.answerNow h st data (if pkCmd x.header = 0x01 then bad else [])

/-- A request of the partner: the pair-link engine passes it on to its destination under a tag of its own, or answers it when it
failed its tag or no partition is coupled (R265, R335). -/
def State.pairRequest (s : State) (g pk : Nat) (data : List Byte) (ok : Bool) : State :=
  let q := s.coupled (pkPart pk)
  let e := q.elim 0 (fun q => s.reg (rEpoch q) % 256)
  let h := setBits (setBits pk 260 256 (q.getD 0)) 303 296 e
  let tag := s.freeTag (48 + g) 3
  let x : Xact := ⟨48 + g, 3, tag, h, s.now, none, 0, 0, e, some (g, true), false, [], false⟩
  let read := decide (pkCmd pk = 0x01)
  if !ok || (q.isNone && pkPart pk != 0) then s.pairAnswer x (if read then 0x20 else 0x21) (List.replicate (if read then 128 * pkLen pk else 0) 0)
  else
    let p := q.getD 0
    let dest := if pkPkg pk then (pkDstDie pk, pkDstEng pk) else s.target p 0 0 (pkAddress pk)
    let f := fromEngine (setBits (setBits (setBits h 266 266 0) 255 250 dest.1) 249 246 dest.2) (48 + g) 3 tag
    let f := if pkCmd pk = 0x04 then setBits f 287 280 0x02 else f
    let w : Waiting := ⟨.inject (Fin.ofNat 64 (48 + g)) false, p, f, data, 0, none, 2, s.reg (rLatClass p), pkQid pk, s.now, false,
      s.clock.cycles, none, false⟩
    { s with xacts := s.xacts ++ [x], waiting := s.waiting ++ [w] }

/-- TRANSFER_FRAME (R265, R333): accepted in FSEQ order once both checks pass, then handled under R265; anything else is
discarded, with one NAK until an in-order frame arrives. -/
def execTransferFrame (g : GroupN) (head : BitVec 256) (packet : Desc) (data : List Byte) (crcOk gcmOk : Bool) (s : State) : Res :=
  let n := g.val
  let h := head.toNat
  let pk := packet.toNat
  .next (
    if !s.groupUp n then s
    else if !(crcOk && headOk head) || bits h 35 34 != 0 || bits h 15 0 != (s.lg n).rxSeq % 65536 then
      let s := s.bump (rLane n 0x14) 1
      if (s.lg n).nak then s else (s.modLg n (fun x => { x with nak := true })).sendControl n true false
    else
      let s := s.modLg n (fun x => { x with rxSeq := x.rxSeq + 1, nak := false, owed := some (x.owed.getD s.now) })
      let s := s.acks n h
      let s := if bit h 36 then s.linkReplay n else s
      let s := if gcmOk then s else
        match s.coupled (bits h 44 40) with
        | some q => s.bump (key (0x5200 + q) 8) 1
        | none => s
      if pkCmd pk = 0x10 ∨ pkCmd pk = 0x11 then s.pairResponse n pk data gcmOk else s.pairRequest n pk data gcmOk)

/-- RESYNC (R339): after a warm reset both sides end their outstanding transactions under R336 and restart FSEQ at 0. -/
def State.resync (s : State) (g : Nat) : State :=
  (s.endLink g).modLg g (fun x => { x with txSeq := 0, rxSeq := 0 })

/-- CONTROL_FRAME (R333, R335): acknowledgements, NAK, and the partner's lanes. -/
def execControlFrame (g : GroupN) (head : BitVec 256) (lanes : Option W64) (s : State) : Res :=
  let n := g.val
  .next (
    if !s.groupUp n then s
    else if !headOk head then s.bump (rLane n 0x14) 1
    else if bit head.toNat 37 then s.resync n
    else
      let s := s.acks n head.toNat
      let s := match lanes with
        | some m => s.modLg n (fun x => { x with partner := m.toNat })
        | none => s
      if bit head.toNat 36 then s.linkReplay n else s)

/-- ACK_DUE (R333): with nothing to send, a control frame within 1 µs of accepting a transfer frame. -/
def execAckDue (g : GroupN) (s : State) : Res :=
  .next (
    match (s.lg g.val).owed with
    | some t => (s.reach (t + 1000)).sendControl g.val false false
    | none => s)

/-- NAK (R334): replay from ACK_SEQ + 1. -/
def execNak (g : GroupN) (head : BitVec 256) (s : State) : Res :=
  .next (
    if !s.groupUp g.val then s
    else if !headOk head then s.bump (rLane g.val 0x14) 1
    else (s.acks g.val head.toNat).linkReplay g.val)

/-- ACK_TIMEOUT (R334). -/
def execAckTimeout (g : GroupN) (s : State) : Res :=
  let x := s.lg g.val
  .next (
    if x.unacked = [] ∨ s.groupUp g.val = false then s
    else (s.reach (x.advanced + 1000 * s.reg (rLink 3))).linkReplay g.val)

/-- RESYNC (R339). -/
def execResync (g : GroupN) (s : State) : Res := .next (if s.laneUse g.val = 1 then s.resync g.val else s)

/-! ### What a lane carries (R328, R329, R332) -/

/-- What the transmitter of a lane sends. -/
inductive LaneSends where
  | idle
  | set (bytes : List Byte)
  | stripe
  | pattern (n : Nat)
  | fabric
  deriving DecidableEq, Repr

/-- A training set (R328): TS2 once aligned, TS1 before. -/
def State.trainingSet (s : State) (g l : Nat) (aligned : Bool) : List Byte :=
  leBytes 1 0xBC ++ leBytes 1 (if aligned then 0x45 else 0x4A) ++ leBytes 1 l ++ leBytes 1 g ++ leBytes 1 (s.reg (rLink 1))
    ++ leBytes 2 (s.reg (rLink 2)) ++ leBytes 1 (s.laneUse g) ++ List.replicate 8 0x4A

/-- The column 'Sends' of R329, with the pattern of R337 in TEST; a lane that is UP in use 3 has no traffic. -/
def State.laneSends (s : State) (g l : Nat) : LaneSends :=
  let st := s.laneState g l
  let use := s.laneUse g
  if st = lnOff then .idle
  else if st = lnCheck then .set (s.trainingSet g l true)
  else if st = lnUp then (if use = 1 then .stripe else if use = 2 then .fabric else .idle)
  else if st = lnTest then .pattern (s.reg (rLane g 6))
  else .set (s.trainingSet g l false)

/-- The lane that byte `i` of the stream goes to: the lanes of the stripe in ascending order, counted modulo the width (R332). -/
def LaneGroup.laneOf (x : LaneGroup) (i : Nat) : Nat :=
  let l := idxs 64 (bit x.stripe)
  l.getD (i % max 1 l.length) 0

/-! ### Test patterns (R337) -/

/-- Length and second tap of a PRBS pattern. -/
def prbsTaps (n : Nat) : Nat × Nat :=
  match n with
  | 0 => (7, 6)
  | 1 => (15, 14)
  | 2 => (23, 18)
  | _ => (31, 28)

/-- One bit of a pattern: the register after it, newest bit lowest, and the bit. -/
def prbsNext (n x : Nat) : Nat × Bool :=
  let t := prbsTaps n
  let b := bit x (t.1 - 1) != bit x (t.2 - 1)
  ((2 * x + b2n b) % 2 ^ t.1, b)

/-- Bits that a lane carries in a band cycle: 32 Gbaud against 2.4 GHz, 40 bits in three cycles. -/
def lineBits (cycle : Nat) : Nat := 40 * (cycle + 1) / 3 - 40 * cycle / 3

/-- The checker over `n` bits of which `errs` marks those in error: it locks after 64 error-free bits in a row and then counts
errored bits.  Answers the error-free bits in a row, 64 once locked, and the errors counted. -/
def checkBits (errs : Nat) : Nat → Nat → Nat × Nat
  | 0, clean => (clean, 0)
  | n + 1, clean =>
    let bad := bit errs n
    let r := checkBits errs n (if clean = 64 then 64 else if bad then 0 else clean + 1)
    (r.1, r.2 + b2n (bad && clean == 64))

/-- The checker of a lane in TEST over a band cycle; which of the bits that arrive are in error is free (R337; log 119). -/
def State.testLane (g : Nat) (s : State) (l : Nat) : State :=
  let r := checkBits (Config.freeNat 14 s.drawn) (lineBits s.clock.cycles) (sget (fun _ => 0) (s.lg g).clean l)
  let s := s.draw.modLg g (fun x => { x with clean := sput (fun _ => 0) x.clean l r.1 })
  s.bump (rLane g (0xC0 + l)) r.2

/-! ### Fabric lanes (R338) -/

/-- The crown die that a group's fabric lanes are wired to, and a lane's region of it. -/
def laneDie (g : Nat) : Nat := if g < 8 then g else 32 + g
def laneRegion (g l : Nat) : Nat := if g < 8 then l / 16 else 6 + l / 16

def LaneGroup.held (x : LaneGroup) (l : Nat) : List Nat := sget (fun _ => ([] : List Nat)) x.elastic l

/-- A fabric lane over a band cycle: a word of the 800 MHz word clock arrives in every third; what it is, and whether the receiver
passes it, is free (log 119).  The region takes the oldest word on a rise of its clock; a word that finds 16 held is lost. -/
def State.fabricLane (g : Nat) (s : State) (l : Nat) : State :=
  let here := s.clock.cycles % 3 == 0 && Config.freeBool s.drawn
  let word := Config.freeNat 36 (s.drawn + 1) % 2 ^ 36
  let old := (s.lg g).held l
  let old := if s.rises (laneDie g) (laneRegion g l) then old.drop 1 else old
  let lost := here && decide (16 ≤ old.length)
  let new := if here && !lost then old ++ [word] else old
  let s := s.draw.draw.modLg g (fun x => { x with elastic := sput (fun _ => ([] : List Nat)) x.elastic l new })
  s.bump (rLane g 0x15) (b2n lost)

/-- What a fabric lane presents to its region: the word of RX_DATA and RX_K where RX_VALID is high, and RX_UP. -/
def State.fabricRx (s : State) (g l : Nat) : Option Nat × Bool := (((s.lg g).held l).head?, s.laneState g l == lnUp)

/-- The lanes over a band cycle: the checkers of lanes in TEST, and the fabric lanes that are UP of a die with a hood loaded
(R337, R338). -/
def State.clockLanes (s : State) : State :=
  (List.range 16).foldl (fun s g =>
    if !s.live (48 + g) then s
    else if s.laneUse g = 3 then ((List.range 64).filter (fun l => s.laneState g l == lnTest)).foldl (State.testLane g) s
    else if s.laneUse g = 2 ∧ s.regionsLoaded (laneDie g) ≠ 0 then
      ((List.range 64).filter (fun l => s.laneState g l == lnUp)).foldl (State.fabricLane g) s
    else s) s

/-- INJECT (R337): one inverted bit in the next word of each lane set. -/
def State.injectBits (s : State) (g v : Nat) : State := s.modLg g (fun x => { x with inject := v })

end Sys2Proof.Machine
end

