-- ==== Sys2Proof/Machine/Power.lean ====
section
/-! DEFINITION. Power, clocks and thermal control (R357–R377): bubbles, the voltage loop, MCLK steps, the power manager, the
floor state, throttling and the coolant fallback. -/

namespace Sys2Proof.Machine

/-! ### Energy (R376) -/

/-- Add energy in nJ to the package and, when given, to a partition; the entries count µJ. -/
def State.spend (s : State) (p : Option Nat) (nj : Nat) : State :=
  match p with
  | none => s
  | some p =>
    let s := s.modPp p (fun x => { x with energy := x.energy + nj })
    s.setReg (rPow p 7) ((s.pp p).energy / 1000)

def State.spendPackage (s : State) (nj : Nat) : State :=
  let s := { s with power := { s.power with energy := s.power.energy + nj } }
  s.setReg (rPkg 0x14) (s.power.energy / 1000)

/-- The commands that hold a part on a die. -/
def State.activeOn (s : State) (p c : Nat) : List CmdRef :=
  (s.prn p).runs.flatMap (fun r => (r.cmds.filter (fun x => x.phase == .issued && x.parts.any (fun y => y.die == c))).map
    (fun x => refOf p r.id x.idx))

/-- Divide a die's energy among the parts active on it: in proportion to the cycles each advanced, or equally when none did
(R376). -/
def State.divideEnergy (s : State) (c nj : Nat) (advanced : List (CmdRef × W32)) : State :=
  match s.dieOwner c with
  | none => s
  | some p =>
    let tot := sumL (advanced.map (fun e => e.2.toNat))
    let l := s.activeOn p c
    let shares : List (CmdRef × Nat) :=
      if tot = 0 then l.map (fun x => (x, nj / l.length)) else advanced.map (fun e => (e.1, nj * e.2.toNat / tot))
    shares.foldl (fun s e => s.modRef e.1 (fun x => { x with energy := x.energy + e.2 })) s

/-! ### Bubbles (R365, R366) -/

/-- The mean demand over the window, as sum and count of the intervals present (R365). -/
def State.meanDemand (s : State) (c : Nat) : Nat × Nat :=
  let l := (s.dp c).demand.take (10 * s.reg (rPkg 3))
  (sumL l, l.length)

/-- The bubble fraction of the next 100 ns, as numerator and denominator: min((Ī − ILIM) ÷ Ī, 15/16) (R365). -/
def State.bubbleFraction (s : State) (c : Nat) : Nat × Nat :=
  let m := s.meanDemand c
  let lim := 10 * s.reg (rDiePow c 1) * m.2
  if m.1 ≤ lim then (0, 1) else if 16 * (m.1 - lim) ≤ 15 * m.1 then (m.1 - lim, m.1) else (15, 16)

/-- The bubbles of a die count as cause 5 on each tile that holds work, for the command of the batt that the tile runs next (R58,
R140, R366). -/
def State.bubbleStalls (s : State) (c n : Nat) : State :=
  (List.range 8).foldl (fun s t =>
    match argmin s.workKey (s.works.filter (fun w => w.die == c && w.tile == t && (w.plan != [] || w.active.isSome))) with
    | none => s
    | some w => s.stall w.p w.run w.cmd c t 5 n) s

/-- CURRENT_LIMIT_TICK (R365, R366, R376): the demand current of the interval in 0.1 A, the bubbles it brings to the next 100
ns, and the die's energy of the interval in nJ with the cycles each command's part advanced. -/
def execCurrentLimitTick (die : DieC) (demand : BitVec 16) (energy : W32) (advanced : List (CmdRef × W32)) (s : State) : Res :=
  let c := die.val
  let s := s.modDp c (fun x => { x with demand := (demand.toNat :: x.demand).take 640, energy := x.energy + energy.toNat })
  let f := s.bubbleFraction c
  let x := s.dp c
  let due := x.deficit + f.1 * x.mhz * 2 ^ 32 / (10 * f.2)
  let n := due / 2 ^ 32
  let s := s.modDp c (fun x => { x with deficit := due % 2 ^ 32, bubbles := x.bubbles + n, cycles := x.cycles + x.mhz })
  let s := (s.bump (rDiePow c 7) n).bubbleStalls c n
  let s := (s.divideEnergy c energy.toNat advanced).spend (s.dieOwner c) energy.toNat
  .next ((s.setReg (rDiePow c 0xA) (x.energy / 1000)).spendPackage energy.toNat)

/-! ### The voltage loop and MCLK steps (R359, R360, R363) -/

/-- VOLTAGE_LOOP_TICK (R363): `low`, some monitor is below its lower band; `high`, every monitor is above its upper band.
The floor state commands its own voltage, and a guarded voltage is not lowered (R370, R371). -/
def execVoltageLoopTick (die : DieC) (low high : Bool) (s : State) : Res :=
  let c := die.val
  .next (
    if s.inFloor c || !s.live c then s
    else
      let x := s.dp c
      let passed := if low then x.table else sput typicalMv x.table x.mhz x.target
      let goal :=
        if low then min 900 (x.target + 5)
        else if high && s.guardMv c == 0 then max (s.lowestMv c) (x.target - 5) else x.target
      (s.modDp c (fun y => { y with table := passed, target := goal })).avsFrom s [c])

/-- REGULATOR_SETTLED (R363): the rail reports the voltage it was raised to. -/
def execRegulatorSettled (die : DieC) (s : State) : Res :=
  .next (s.modDp die.val (fun x => { x with settled := true }))

/-- The dies of a partition that are in service. -/
def State.liveDies (s : State) (p : Nat) : List Nat := (s.diesOf p).filter s.live

/-- Whether every die's rail stands where a step up needs it (R363). -/
def State.raised (s : State) (p next : Nat) : Bool :=
  (s.liveDies p).all (fun c => (s.dp c).settled && decide (min 900 (s.tableMv c next + 10) ≤ (s.dp c).target))

/-- Set the MCLK of all a partition's dies, which ends its rate estimates (R145, R360). -/
def State.clockAt (s : State) (p f : Nat) : State :=
  (((s.diesOf p).foldl (fun s c => s.setMhz c f) s).setReg (rPow p 5) f).spoilRates p

/-- MCLK_STEP (R359, R360, R363): at a frame boundary all dies of a partition move one step towards the MCLK set for them; a
step up waits for the rails, and a step down lowers them once it has taken effect. -/
def execMclkStep (p : PartN) (s : State) : Res :=
  let q := p.val + 1
  let f := s.reg (rPow q 5)
  let goal := (s.pp q).goal
  .next (
    if s.reg (rState q) = 0 ∨ s.rst.step ≠ 0 ∨ (s.liveDies q).any s.inFloor then s
    else if f < goal then
      if s.raised q (f + 25) then
        let s := s.clockAt q (f + 25)
        if f + 25 < goal then s.raiseRails q (f + 50) else s
      else s
    else if goal < f then
      let t := s.clockAt q (f - 25)
      let u := (t.liveDies q).foldl (fun t c =>
        if t.guardMv c = 0 then t.modDp c (fun x => { x with target := max (t.lowestMv c) (min x.target (t.tableMv c (f - 25))) })
        else t) t
      u.avsFrom t (t.liveDies q)
    else s)

/-! ### The power manager (R367–R369) -/

/-- A partition's claim on the budget, in mW. -/
structure Claim where
  alloc : Nat
  demand : Nat
  dies : Nat
  rank : Nat
  fixed : Bool
  deriving DecidableEq, Repr

/-- A partition's claim before sharing: its floor when fixed, else the lesser of floor and demand (R367). -/
def claimOf (d : Demand) : Claim := ⟨if d.fixed then d.floor else min d.floor d.demand, d.demand, d.dies, d.rank.val, d.fixed⟩

/-- One rank's shares of what is left, in proportion to die count, until the rest or the demand is used up (R367); each pass
uses up the rest or fills a claim, so that as many passes as claims suffice. -/
def shareRank (rank : Nat) : Nat → Nat → List Claim → Nat × List Claim
  | 0, rest, l => (rest, l)
  | n + 1, rest, l =>
    let open_ (x : Claim) : Bool := x.rank == rank && !x.fixed && decide (x.alloc < x.demand)
    let dies := sumL ((l.filter open_).map Claim.dies)
    if rest = 0 ∨ dies = 0 then (rest, l)
    else
      let give (x : Claim) : Nat := if open_ x then min (x.demand - x.alloc) (rest * x.dies / dies) else 0
      shareRank rank n (rest - sumL (l.map give)) (l.map (fun x => { x with alloc := x.alloc + give x }))

/-- The allocations of R367 out of an amount available. -/
def allocate (avail : Nat) (ds : List Demand) : List Nat :=
  let l := ds.map claimOf
  let rest := avail - sumL (l.map Claim.alloc)
  let r := (List.range 4).foldl (fun (a : Nat × List Claim) rank => shareRank rank (l.length + 1) a.1 a.2) (rest, l)
  r.2.map Claim.alloc

/-- The partitions that hold dies. -/
def State.powered (s : State) : List Nat := partNums.filter (fun p => s.reg (rState p) != 0)

/-- Power predicted for a partition at a step from the power measured at the present one: P × (f′ × V(f′)²) ÷ (f × V(f)²), die
by die (R367). -/
def State.predicted (s : State) (power : Nat → Nat) (p f : Nat) : Nat :=
  let now := s.reg (rPow p 5)
  sumL ((s.liveDies p).map (fun c => power c * (f * s.tableMv c f ^ 2) / (now * s.tableMv c now ^ 2)))

/-- A partition's rank (R367, R370; log 41). -/
def State.powerRank (s : State) (p : Nat) : Fin 4 :=
  if (s.pp p).notices != [] ∨ (s.reg (rLatClass p) = 1 ∧ (s.prn p).runs != []) then 0
  else if s.reg (rLatClass p) = 1 then 1 else if s.reg (rLatClass p) = 2 then 2 else 3

/-- The floors in mW, scaled down under the fallback when their sum exceeds FALLBACK_BUDGET − 1,500 W (R375). -/
def State.floorMw (s : State) (p : Nat) : Nat :=
  let own := 1000 * s.reg (rPow p 1)
  let tot := sumL (s.powered.map (fun q => 1000 * s.reg (rPow q 1)))
  let lim := 1000 * (s.reg (rPkg 8) - 1500)
  if s.reg (rPkg 0x12) = 1 ∧ lim < tot then own * lim / tot else own

/-- budget_now in mW (R367, R369, R375, R377). -/
def State.budgetNow (s : State) : Nat :=
  let b := 1000 * s.reg (rPkg 1)
  let b := if s.reg (rPkg 7) = 0 then b else min b (s.power.pair.getD b)
  if s.reg (rPkg 0x12) = 1 then min b (1000 * s.reg (rPkg 8)) else b

/-- The milliner runs the power manager: it has not faulted and no reset is in progress (R377, R394). -/
def State.managing (s : State) : Bool := !s.mill.faulted && !s.mill.halted && s.rst.step == 0

/-- A rail alert, or a trip, still holds some die of a partition (R372, R374). -/
def State.alerted (s : State) (p : Nat) : Bool :=
  (s.liveDies p).any (fun c => s.power.alerts.any (fun r => match r with
    | .core d => d.val == c
    | _ => false))

/-- Dies that may leave the floor state leave it (R372). -/
def State.leaveFloor (s : State) (p : Nat) : State :=
  if s.alerted p then s
  else (s.liveDies p).foldl (fun t c =>
    if t.inFloor c && (t.dp c).leaving then ((t.setReg (rDiePow c 6) 0).modDp c (fun x => { x with leaving := false })).avsFrom t [c]
    else t) s

/-- Change a partition's MCLK (R368): a step down at once, a step up by at most four steps and only when no die bubbled. -/
def State.setGoal (s : State) (p want : Nat) (bubbled : Bool) : State :=
  let goal := (s.pp p).goal
  if want < goal then (s.modPp p (fun x => { x with goal := want })).bump (rPow p 8) 1
  else if goal < want && !bubbled then
    let s := (s.modPp p (fun x => { x with goal := min want (goal + 100) })).bump (rPow p 9) 1
    s.raiseRails p (s.reg (rPow p 5) + 25)
  else s

/-- THROTTLE_MHZ rises a step in a period in which every die is cool again, and ends at MCLK_MAX (R373). -/
def State.throttleRise (s : State) (p : Nat) : State :=
  let v := s.reg (rPow p 6)
  if v = 0xFFFF ∨ (s.liveDies p).any (fun c => (s.dp c).warm) then s
  else s.setReg (rPow p 6) (if s.reg (rPow p 3) ≤ v + 25 then 0xFFFF else v + 25)

/-- One partition's new allocation in mW and MCLK (R367, R368, R373). -/
def State.managePart (s : State) (power : Nat → Nat) (p alloc : Nat) : State :=
  let s := (s.setReg (rPow p 4) (min 65535 (alloc / 1000))).leaveFloor p
  let s := s.throttleRise p
  let bubbled := (s.liveDies p).any (fun c => (s.dp c).bubbles != 0)
  let heavy := (s.liveDies p).any (fun c => decide ((s.dp c).cycles < 640 * (s.dp c).bubbles))
  let top := s.permitted p
  let want := highestStep top (fun f => decide (s.predicted power p f ≤ alloc))
  let want := if heavy then min want (min top (s.pp p).goal) else want
  let want := max 400 (min want (s.reg (rPow p 6)))
  if (s.liveDies p).any s.inFloor then s.modPp p (fun x => { x with goal := 400 }) else s.setGoal p want bubbled

/-- Keep the figures of a period for the next exchange of the pair (R369). -/
def State.keepClaims (s : State) (ds : List Demand) (overhead : Nat) : State :=
  { s with power := { s.power with claims := ds, overhead := overhead } }

/-- BUDGET_PERIOD_END (R367, R368, R372, R373): the measured power of the port dies and stacks and of each crown die over the
period, in mW. -/
def execBudgetPeriodEnd (overhead : W32) (power : List (DieC × W32)) (s : State) : Res :=
  let at_ (c : Nat) : Nat := sumL ((power.filter (fun e => e.1.val == c)).map (fun e => e.2.toNat))
  let total := overhead.toNat + sumL (power.map (fun e => e.2.toNat))
  let outside := sumL ((idxs 48 (fun c => (s.dieOwner c).isNone)).map at_)
  .next (
    if !s.managing then s
    else
      let ds := s.powered.map (fun p =>
        (⟨s.predicted at_ p (s.permitted p), s.floorMw p, (s.liveDies p).length, s.powerRank p, s.reg (rPow p 2) == 1⟩ : Demand))
      let fixed := overhead.toNat + outside
      let allocs := allocate (s.budgetNow - fixed) ds
      let s := s.keepClaims ds fixed
      let s := s.setReg (rPkg 0x13) (min 65535 (total / 1000))
      let s := (s.powered.zip allocs).foldl (fun s e => s.managePart at_ e.1 e.2) s
      -- port dies and their stacks leave the floor state, and the period's counts begin again
      let s := (List.range 16).foldl (fun s n =>
        if s.power.alerts.any (fun r => match r with
          | .port q _ => q.val == n
          | _ => false) then s
        else ((s.modStack (2 * n) (fun x => { x with floor := false })).modStack (2 * n + 1)
          (fun x => { x with floor := false })).setReg (rDiePow (48 + n) 6) 0) s
      (List.range 48).foldl (fun s c => s.modDp c (fun x => { x with bubbles := 0, cycles := 0 })) s)

/-- PAIR_BUDGET_EXCHANGE (R369): the partner's figures join this package's own of the previous period; after two failed exchanges
half the pair budget applies. -/
def execPairBudgetExchange (ok : Bool) (theirs : List Demand) (theirOverhead : W32) (s : State) : Res :=
  let pair := 1000 * s.reg (rPkg 7)
  let cap := 1000 * s.reg (rPkg 1)
  .next (
    if pair = 0 ∨ s.managing = false then s
    else if ok then
      let ours := s.power.claims
      let allocs := allocate (pair - s.power.overhead - theirOverhead.toNat) (ours ++ theirs)
      let mine := sumL (allocs.take ours.length) + s.power.overhead
      { s with power := { s.power with pair := some (min cap mine), pairFails := 0 } }
    else if 1 ≤ s.power.pairFails then
      { s with power := { s.power with pair := some (min cap (pair / 2)), pairFails := s.power.pairFails + 1 } }
    else { s with power := { s.power with pairFails := s.power.pairFails + 1 } })

/-- HEAVY_GUARD_END (R370): the guard of a command's notice is removed after 64 µs of running; completion and withdrawal
remove it with the notice. -/
def execHeavyGuardEnd (c : CmdRef) (s : State) : Res :=
  let p := c.p.val + 1
  let mine (n : Nat × Nat × Bool) : Bool := n.1 == c.run && n.2.1 == c.cmd
  let off (n : Nat × Nat × Bool) : Nat × Nat × Bool := (n.1, n.2.1, false)
  .next ((s.modPp p (fun x => { x with notices := updWhere mine off x.notices })).avsFrom s (s.diesOf p))

/-! ### Alerts and the floor state (R371, R372, R423) -/

/-- One die enters the floor state: 400 MHz, its floor voltage, FLOOR_EVENTS and an operator event. -/
def State.enterFloor (s : State) (n : Nat) : State :=
  if s.inFloor n || !s.live n then s
  else
    let t := (s.setReg (rDiePow n 6) 1).modDp n (fun x =>
      { x with mhz := 400, target := if s.regionsLoaded n = 0 then 600 else 700, leaving := false })
    let t := if n < 48 then t.avsFrom s [n] else t
    let t := match (if n < 48 then s.dieOwner n else none) with
      | some p => t.bump (rPow p 0xA) 1
      | none => t
    t.raise 0x0601 (some n)

/-- A die and then the remaining crown dies of its partition enter the floor state (R372). -/
def State.floorDie (s : State) (c : Nat) : State :=
  match s.dieOwner c with
  | none => s.enterFloor c
  | some p =>
    let s := (s.diesOf p).foldl State.enterFloor (s.enterFloor c)
    (s.modPp p (fun x => { x with goal := 400 })).clockAt p 400

/-- VR_ALERT (R371, R372, R423): the fall of a rail's alert. -/
def execVrAlert (rail : Rail) (s : State) : Res :=
  .next (
    if s.power.alerts.contains rail then s
    else
      let s := { s with power := { s.power with alerts := s.power.alerts ++ [rail] } }
      match rail with
      | .core c => (s.bump (rDiePow c.val 8) 1).floorDie c.val
      | .port p _ =>
        let s := (s.bump (rDiePow (48 + p.val) 8) 1).enterFloor (48 + p.val)
        (s.modStack (2 * p.val) (fun x => { x with floor := true })).modStack (2 * p.val + 1) (fun x => { x with floor := true })
      | .aux => s)

/-- ALERT_CLEAR (R372): the alert has stayed high for 100 µs; the dies may leave the floor state at the next period. -/
def execAlertClear (rail : Rail) (s : State) : Res :=
  .next (
    match rail with
    | .core c =>
      if (s.dp c.val).trip.isSome then s
      else
        let s := { s with power := { s.power with alerts := s.power.alerts.filter (fun r => r != rail) } }
        let dies := (s.dieOwner c.val).elim [c.val] s.diesOf
        if dies.any (fun d => s.power.alerts.any (fun r => match r with
            | .core x => x.val == d
            | _ => false)) then s
        else
          let s := dies.foldl (fun s d => s.modDp d (fun x => { x with leaving := true })) s
          -- a die outside any partition has no period of its own to wait for
          if (s.dieOwner c.val).isNone then s.setReg (rDiePow c.val 6) 0 else s
    | _ => { s with power := { s.power with alerts := s.power.alerts.filter (fun r => r != rail) } })

/-! ### Thermal control (R373–R375) -/

/-- SENSOR_READ (R373, R374): the hottest sensor of a die in 1/16 °C. -/
def execSensorRead (die : DieN) (temp : BitVec 16) (s : State) : Res :=
  let n := die.val
  let t := temp.toInt
  let lim : Int := 16 * s.reg (rPkg 5)
  .next (
    let s := s.setReg (rDiePow n 4) temp.toNat
    if 48 ≤ n ∨ s.live n = false then s
    else
      let s := s.modDp n (fun x => { x with hot := decide (lim < t), warm := decide (lim < t + 32) })
      if t < 16 * 115 then s.modDp n (fun x => { x with trip := none })
      else if (s.dp n).trip.isSome then s
      else
        let s := (s.modDp n (fun x => { x with trip := some s.now })).bump (rDiePow n 9) 1
        let s := if s.power.alerts.contains (.core (Fin.ofNat 48 n)) then s
          else { s with power := { s.power with alerts := s.power.alerts ++ [.core (Fin.ofNat 48 n)] } }
        (s.raise 0x0602 (some n)).floorDie n)

/-- THROTTLE_STEP (R373): 100 µs more with a die of the partition above THROTTLE_C; from no limit the first step is taken from
MCLK_MAX (log 42). -/
def execThrottleStep (p : PartN) (s : State) : Res :=
  let q := p.val + 1
  .next (
    if s.reg (rState q) = 0 ∨ (s.liveDies q).any (fun c => (s.dp c).hot) = false then s
    else
      let v := min (s.reg (rPow q 6)) (s.reg (rPow q 3))
      let v := max 400 (v - 25)
      let s := s.setReg (rPow q 6) v
      if v < (s.pp q).goal then s.setGoal q v false else s)

/-- A coolant reading above its limit in °C. -/
def aboveCoolant (v : BitVec 16) (lim : Nat) : Bool := decide ((16 * lim : Int) < v.toInt)

/-- COOLANT_READ (R375): readings in 1/16 °C; an open or shorted wire gives none, and the entry reads 0x7FFF. -/
def execCoolantRead (inlet outlet : Option (BitVec 16)) (s : State) : Res :=
  let s := (s.setReg (rPkg 0x10) (inlet.elim 0x7FFF BitVec.toNat)).setReg (rPkg 0x11) (outlet.elim 0x7FFF BitVec.toNat)
  let bad (v : Option (BitVec 16)) (lim : Nat) : Bool := match v with
    | none => true
    | some x => x == 0x7FFF || aboveCoolant x lim
  .next (
    if bad inlet (s.reg (rPkg 9)) || bad outlet (s.reg (rPkg 0xA)) then
      let s := { s with power := { s.power with cool := none } }
      if s.reg (rPkg 0x12) = 1 then s else (s.setReg (rPkg 0x12) 1).raise 0x0603 none
    else { s with power := { s.power with cool := some (s.power.cool.getD s.now) } })

/-- FALLBACK_RELEASE (R375): both readings have been valid and within their limits for 10 s. -/
def execFallbackRelease (s : State) : Res :=
  .next (
    match s.power.cool with
    | some t => if s.reg (rPkg 0x12) = 1 then (s.reach (t + 10000000000)).setReg (rPkg 0x12) 0 else s
    | none => s)

end Sys2Proof.Machine
end

