-- ==== Sys2Proof/Machine/Security.lean ====
section
/-! DEFINITION. Partitions and confidential operation (R253–R271): creation, key epochs and their ends, the SPDM responder, IDE
and TDISP. -/

namespace Sys2Proof.Machine

def rSec (p sub : Nat) : Nat := key (0x5200 + p) sub
def rIdeStream (p : Nat) : Nat := rSec p 3

/-! ### The end of a key epoch (R267–R271) -/

/-- Records of an epoch's end are written only while the function is enabled and, for a confidential partition, its IDE stream
is open; for a partition reset none is (R270). -/
def State.endsWithRecords (s : State) (p cause : Nat) : Bool :=
  let x := s.fn (s.fnOf p)
  cause != 2 && x.enable && (s.reg (rConfidential p) == 0 || x.ide.live.isSome)

/-- A command of an ending epoch completes: parts that have not committed report TENANT_GONE (R268). -/
def State.endCommand (records : Bool) (s : State) (c : CmdRef) : State :=
  match s.find c with
  | none => s
  | some f =>
    let s := s.endCmd f 0x30
    match s.find c with
    | none => s
    | some g =>
      if records && g.cmd.phase != .recording && g.cmd.phase != .complete then s.completeCmd g else s

/-- The run record of an ending epoch: every run completes with TENANT_GONE (R268). -/
def State.endRun (p : Nat) (s : State) (id : Nat) : State :=
  match s.run p id with
  | none => s
  | some r =>
    if r.recording then s
    else (s.modRun p id (fun x => { x with recording := true })).writeRecord p (runRecordOf r 0x30 false s.now)

/-- The load result of a request that the epoch's end overtakes (R268). -/
def goneResult : LoadResult := ⟨0x30, 0, 0xFF, 0x3FF, 0xFFFF, 0xFFFF⟩

/-- Requests fetched and loads and unloads in progress end with TENANT_GONE; a load returns no handle (R268). -/
def State.endRequests (s : State) (p : Nat) : State :=
  let r := s.prn p
  let s := r.loading.elim s (fun l => s.loadAnswer p l.1 l.2 0 goneResult .load)
  let s := (r.idle ++ r.unloads.map (fun u => (u.1, u.2.1))).foldl (fun s u =>
    s.loadAnswer p u.1 u.2 (lHandle u.1) goneResult .unload) s
  r.fetched.foldl (fun s e =>
    if isUnload e.1 then s.loadAnswer p e.1 e.2 (lHandle e.1) goneResult .unload
    else s.writeRecord p (bareRecord 0 0x30 0 (rSeq e.1) 0xFFFF 0x3FF e.2 s.now true .refusal)) s

/-- Unresolved fire-forward writes resolve with TENANT_GONE (R271). -/
def State.endForward (s : State) (p : Nat) : State :=
  let mine (x : Xact) : Bool := pkPart x.header == p && pkCmd x.header == 0x04 && !x.link.any (fun l => l.2)
  let gone := s.xacts.filter mine
  let s := { s with xacts := s.xacts.filter (fun x => !mine x) }
  gone.foldl (fun s x => s.ffResolve x.header 0x30 x.at_) s

/-- What a partition's sequencer and blocker keep when its programs, runs and copies are discarded. -/
def PartRun.emptied (r : PartRun) : PartRun :=
  { PartRun.blank with nextHandle := r.nextHandle, nextRun := r.nextRun, nextOrder := r.nextOrder, used := r.used }

/-- Programs, runs, commands, copies, stream buffers and work in flight of a partition are discarded (R267, R268, R271,
R382). -/
def State.dropRuns (s : State) (p : Nat) : State :=
  let dies := s.diesOf p
  let s := s.bump (rBlk p 0x17) (s.prn p).migs.length
  let s := (s.modPr p PartRun.emptied).countCopies p
  let s := { s with works := s.works.filter (fun w => w.p != p), arrays := sclear (fun k => dies.contains (k / 8)) s.arrays }
  s.modPp p (fun x => { x with notices := [] })

/-- What becomes of a partition's refusals still to be answered when its key epoch ends (log 94): a command refused at issue
reports TENANT_GONE with the others in flight (R268), so its refusal falls; a refused run request or unload is answered 20 µs
after its receipt, as R5 says, while records of the epoch's end are written, and falls without a record where none is
(R270). -/
def State.dropRefusals (s : State) (p : Nat) (records : Bool) : State :=
  let f := s.fnOf p
  { s with refusals := s.refusals.filter (fun e =>
      match e.2 with
      | .access _ => true
      | .record g _ => g != f || records
      | .loadRefused g _ _ _ => g != f || records
      | .command c => c.p.val + 1 != p) }

/-- TDI_STATE after an epoch's end (R259, R261): a locked TDI moves to ERROR, but for a STOP. -/
def tdiAfter (cause tdi : Nat) : Nat := if cause = 4 then 0 else if tdi = 1 ∨ tdi = 2 then 3 else tdi

/-- A key epoch ends with a cause (R267, R268, R384): 1 teardown, 2 partition reset, 3 TDI ERROR, 4 TDISP stop.  During an end
a further one has no effect, but a teardown of a partition that re-keys still frees it (log 45). -/
def State.endEpoch (s : State) (p cause : Nat) : State :=
  let st := s.reg (rState p)
  let x := s.psec p
  if x.ending.isSome || x.scrubbing then
    if cause = 1 ∧ st = 4 then (s.setReg (rState p) 3).stopRankMigs p else s
  else if st = 0 then s
  else
    let f := s.fnOf p
    let records := s.endsWithRecords p cause
    let now := s.now
    let s := ((s.bump (rEpoch p) 1).setReg (rSec p 9) now).setReg (rSec p 0xA) cause
    let s := (s.setReg (rState p) (if cause = 1 then 3 else 4)).setReg (rTdi p) (tdiAfter cause (s.reg (rTdi p)))
    let s := s.modSec p (fun y => { y with ending := some (cause, now), measured := [] })
    let s := (s.setReg (rSec p 4) 0).setReg (rSec p 5) 0
    let s := (s.modFn f (fun y => { y with held := [], stopped := none })).dropRefusals p records
    let s := (s.prn p).runs.foldl (fun s r =>
      r.cmds.foldl (fun s c => s.endCommand records (refOf p r.id c.idx)) s) s
    let s := if records then
        let t := s.endForward p
        ((t.prn p).runs.map Run.id |>.foldl (State.endRun p) t).endRequests p
      else { s with xacts := s.xacts.filter (fun y => !(pkPart y.header == p && pkCmd y.header == 0x04 && !y.link.any (fun l => l.2))) }
    let s := ((s.dropRuns p).setReg (rBand p 0x26) 0).modFn f (fun y => { y with held := [] })
    let s := if cause = 2 then
        (s.diesOf p).foldl (fun s c => ((s.setReg (rWeight c) 64).setReg (rLoad c 1) 0).setReg (rLoad c 2) 0) s
      else s
    if cause = 1 then s.stopRankMigs p else s

/-- A locked TDI moves to ERROR, which ends the key epoch (R261). -/
def State.toError (s : State) (p : Nat) : State :=
  let t := s.reg (rTdi p)
  if t = 1 ∨ t = 2 then s.endEpoch p 3 else s

/-- A partition's transactions of an epoch that has ended (R269). -/
def State.oldXacts (s : State) (p : Nat) : List Xact :=
  s.xacts.filter (fun x => pkPart x.header == p && x.epoch != s.reg (rEpoch p) % 256)

/-- Every transfer, access, response and job of a partition is discarded at its source, in the queues and at the controllers
(R269). -/
def State.dropTraffic (s : State) (p : Nat) : State :=
  let ids := (s.resps.filter (fun r => pkPart r.header == p)).map Resp.id
  { s with
    xacts := s.xacts.filter (fun x => pkPart x.header != p)
    waiting := s.waiting.filter (fun w => w.p != p)
    resps := s.resps.filter (fun r => pkPart r.header != p)
    channels := smap (fun _ => []) (fun _ => true) (fun _ l => l.filter (fun (j : Job) => j.p != p && !ids.contains j.resp)) s.channels
    pairTx := s.pairTx.filter (fun e => pkPart e.2.1 != p) }

/-- The end of an epoch completes (R270): keys zeroised, stores zero, brims cleared, and the ranks' scrub or initialisation
begins; a re-keyed partition has drawn new keys (R264, R267). -/
def State.finishEpoch (s : State) (p : Nat) : State :=
  let s := (s.dropTraffic p)
  let s := (s.diesOf p).foldl State.clearBrim s
  let keys := if s.reg (rState p) = 4 then some s.drawn else none
  (s.modSec p (fun x => { x with keys := keys, transfers := 0, images := [], ending := none, scrubbing := true })).draw

/-- EPOCH_END_COMPLETE (R269, R270): every count of old-epoch transactions has reached zero. -/
def execEpochEndComplete (p : PartN) (s : State) : Res :=
  let q := p.val + 1
  .next (if (s.psec q).ending.isSome && s.oldXacts q == [] then s.finishEpoch q else s)

/-- The forced end at 50 µs (R269); with nothing left to discard it is the plain end. -/
def State.forceEnd (s : State) (p : Nat) : State :=
  match (s.psec p).ending with
  | none => s
  | some _ => (if s.oldXacts p = [] then s else s.bump (rSec p 7) 1).finishEpoch p

/-- EPOCH_END_FORCED (R269): 50 µs have passed since the epoch ended. -/
def execEpochEndForced (p : PartN) (s : State) : Res :=
  let q := p.val + 1
  .next (
    match (s.psec q).ending with
    | none => s
    | some e => (s.reach (e.2 + 50000)).forceEnd q)

/-- TEARDOWN_SCRUB_DONE (R270): the last rank is zero; the dies and ranks are free, and the partition's slots become unowned at
the next frame boundary. -/
def execTeardownScrubDone (p : PartN) (s : State) : Res :=
  let q := p.val + 1
  .next (
    if s.reg (rState q) = 3 ∧ (s.psec q).scrubbing then
      let dies := s.diesOf q
      let s := ((s.zeroRanks q).setReg (rState q) 0).setReg (rEpoch q) 0
      let s := { s with resvNext := s.resvNext.filter (fun r => r.p != q), sec := sput (fun _ => PartSec.blank) s.sec q PartSec.blank }
      let s := s.modPp q (fun _ => PartPower.blank)
      dies.foldl (fun s c => (s.setMhz c 400).refreshDomains c) s
    else s)

/-- REKEY_DONE (R267): the ranks are initialised under the new keys. -/
def execRekeyDone (p : PartN) (s : State) : Res :=
  let q := p.val + 1
  .next (
    if s.reg (rState q) = 4 ∧ (s.psec q).scrubbing then
      ((s.zeroRanks q).setReg (rState q) 2).modSec q (fun x => { x with scrubbing := false })
    else s)

/-! ### Creating a partition (R255, R256) -/

/-- The port die of a host port is fused on (R10, R255). -/
def State.portFused (s : State) (n : Nat) : Bool := bit (s.reg (key 0x1000 6)) (16 + (hostPortDie n - 48))

/-- The rank bits of a partition: stack and rank. -/
def State.ranksOf (s : State) (p : Nat) : List (Nat × Nat) :=
  (List.range 32).flatMap (fun m => ((List.range 128).filter (fun r => s.hasRank p m r)).map (fun r => (m, r)))

/-- CREATE_DETAIL of a create, 0 when it passes (R255). -/
def State.createDetail (s : State) (p : Nat) : Nat :=
  let others := partNums.filter (fun q => q != p && s.reg (rState q) != 0)
  let dies := s.diesOf p
  let ranks := s.ranksOf p
  let fn := s.reg (rHostFn p)
  let vf := bits fn 4 0
  if dies = [] ∨ ranks = [] then 0x01
  else if dies.any (fun c => others.any (fun q => bit (s.reg (rDies q)) c) || !s.dieUp c) then 0x02
  else if ranks.any (fun r => others.any (fun q => s.hasRank q r.1 r.2) || (spareList.take (s.stack r.1).spares).contains r.2
      || (s.stack r.1).offline.contains (s.inPlaceOf r.1 r.2) || s.reg (rStack r.1 1) == 2) then 0x03
  else if vf = 0 ∨ 16 < vf ∨ s.portFused (bits fn 9 8) = false ∨ others.any (fun q => s.fnOf q == s.fnOf p) then 0x04
  else if s.reg (rConfidential p) = 1 ∧ s.reg (key 0x1000 7) = 1 then 0x05
  else 0

/-- The die counters of R62 and of the tables that clear with them: tile, stall, blocker, SRAM, brim and configuration entries,
and the power counters of R380; ILIM is a setting. -/
def isDieCounter (c k : Nat) : Bool :=
  [0x6200, 0x6300, 0x6500, 0x6800, 0x6A00].any (fun b => k / 256 == b + c)
    || (k / 256 == 0x6B00 + c && decide (0x10 ≤ k % 256))
    || (k / 256 == 0x6C00 + c && decide (7 ≤ k % 256))

/-- The LOAD entries of a die (R324). -/
def isLoadEntry (c k : Nat) : Bool := k / 256 == 0x6B00 + c && decide (k % 256 ≤ 7)

/-- The partition entries that create returns to their defaults (R256), but its definition. -/
def isPartEntry (p k : Nat) : Bool :=
  [0x5200, 0x5400, 0x5500, 0x5600, 0x5700, 0x5800, 0x5900, 0x5A00, 0x5B00].any (fun b => k / 256 == b + p)
    || (decide (0x6400 + 8 * (p - 1) ≤ k / 256) && decide (k / 256 < 0x6400 + 8 * p))

/-- HBM_BYTES and SETS follow the rank masks, the interleave settings and the staging area (R206, R225, R237). -/
def State.sizeHbm (s : State) (p : Nat) : State :=
  (s.setReg (rPmem p 3) (s.setBytes p - 1048576 * s.reg (rRel p 1))).setReg (rPmem p 4) (s.rankSets p).length

/-- A create that passes its checks (R256). -/
def State.createPartition (s : State) (p : Nat) : State :=
  let dies := s.diesOf p
  let s := s.clearRegs (fun k => isPartEntry p k || dies.any (fun c => isDieCounter c k || isLoadEntry c k))
  let s := dies.foldl (fun s c => (s.clearBrim c).modDp c (fun x => { x with energy := 0 })) s
  let s := ((s.setReg (rPart p 3) 0).setReg (rEpoch p) 1).setReg (rState p) 1
  let s := { s with sec := sput (fun _ => PartSec.blank) s.sec p { PartSec.blank with keys := some s.drawn },
                    prun := sput (fun _ => PartRun.blank) s.prun p PartRun.blank }
  let s := (s.draw.modPp p (fun _ => PartPower.blank)).sizeHbm p
  dies.foldl State.refreshDomains s

/-- PARTITION_CREATE_DONE (R256): the last rank holds zero words under the new key. -/
def execPartitionCreateDone (p : PartN) (s : State) : Res :=
  let q := p.val + 1
  .next (if s.reg (rState q) = 1 then (s.zeroRanks q).setReg (rState q) 2 else s)

/-! ### The SPDM responder (R257) -/

/-- The active milliner answers: it runs, is not in step 1 of a reset, and the image it booted is whole or the transport is one
that R409 leaves. -/
def State.millRuns (s : State) : Bool := !s.mill.faulted && !s.mill.halted && (s.rst.step != 1 || s.rst.held)
def State.millServes (s : State) : Bool := s.millRuns && !s.mill.noImage

/-- A host port's configuration space answers normally (R356, R385). -/
def State.portOpen (s : State) (n : Nat) : Bool := (s.port n).released && (s.port n).perst

/-- The responder answers on a mailbox. -/
def State.spdmServes (s : State) (b : Mailbox) : Bool :=
  s.millServes && (match b with
    | .doe p => s.portOpen p.val
    | .mctp => true)

def boxKey (b : Mailbox) : Nat :=
  match b with
  | .doe p => p.val
  | .mctp => 4

/-- How far a connection has come: 1 version, 2 capabilities, 3 algorithms. -/
def State.conn (s : State) (b : Mailbox) : Nat := sget (fun _ => 0) s.conns (boxKey b)
def State.setConn (s : State) (b : Mailbox) (n : Nat) : State := { s with conns := sput (fun _ => 0) s.conns (boxKey b) n }

/-- Answer a request on a mailbox once its connection has come far enough; before that, and where the request names what the
device does not hold, the answer is ERROR (log 46). -/
def State.spdm (s : State) (b : Mailbox) (need : Nat) (ok : Bool) (name : String) (bytes : List Byte) (act : State → State) : State :=
  if !s.spdmServes b then s
  else if decide (s.conn b < need) || !ok then s.emit (.spdm b "ERROR" [])
  else (act s).emit (.spdm b name bytes)

/-- GET_VERSION (R257): SPDM 1.2. -/
def execGetVersion (box : Mailbox) (s : State) : Res := .next (s.spdm box 0 true "VERSION" [0x12] (fun s => s.setConn box 1))

/-- GET_CAPABILITIES (R257). -/
def execGetCapabilities (box : Mailbox) (s : State) : Res :=
  .next (s.spdm box 1 true "CAPABILITIES" [] (fun s => s.setConn box (max 2 (s.conn box))))

/-- NEGOTIATE_ALGORITHMS (R257). -/
def execNegotiateAlgorithms (box : Mailbox) (s : State) : Res :=
  .next (s.spdm box 2 true "ALGORITHMS" [] (fun s => s.setConn box 3))

/-- GET_DIGESTS (R257): the digest of the slot-0 chain. -/
def execGetDigests (box : Mailbox) (s : State) : Res := .next (s.spdm box 3 true "DIGESTS" (sha384 Config.certChain) id)

/-- GET_CERTIFICATE (R257): a portion of the slot-0 chain; other slots are not supported. -/
def execGetCertificate (box : Mailbox) (slot : Fin 8) (off len : BitVec 16) (s : State) : Res :=
  .next (s.spdm box 3 (slot == 0) "CERTIFICATE" ((Config.certChain.drop off.toNat).take len.toNat) id)

/-- CHALLENGE (R257): a signature by the device identity key. -/
def execChallenge (box : Mailbox) (slot : Fin 8) (nonce : BitVec 256) (s : State) : Res :=
  let head := sha384 Config.certChain ++ leBytes 32 nonce.toNat
  .next (s.spdm box 3 (slot == 0) "CHALLENGE_AUTH" (head ++ Config.identitySign head) id)

/-! ### Measurements (R262, R263) -/

/-- Insert by die, after the loads of the same die (R262 block 8). -/
def byDie (e : Nat × List Byte) : List (Nat × List Byte) → List (Nat × List Byte)
  | [] => [e]
  | x :: l => if e.1 < x.1 then e :: x :: l else x :: byDie e l

/-- Block 7, the partition layout, in the order R262 lists it. -/
def State.layoutBlock (s : State) (p : Nat) : List Byte :=
  let e (n sub base : Nat) : List Byte := leBytes n (s.reg (key (base + p) sub))
  e 8 4 0x5100 ++ e 2 5 0x5100 ++ e 1 6 0x5100 ++ e 1 7 0x5100 ++ e 4 8 0x5100
    ++ (List.range 64).flatMap (fun i => e 8 (0x40 + i) 0x5100) ++ (List.range 16).flatMap (fun i => e 4 (1 + i) 0x5600)
    ++ e 1 0x21 0x5600 ++ e 1 0x22 0x5600 ++ e 1 3 0x5800 ++ e 1 2 0x5800 ++ e 1 1 0x5500 ++ e 1 8 0x5500 ++ e 1 1 0x5200
    ++ e 1 5 0x5200

/-- The measurement blocks of a session bound to a partition, or to none: index and content (R262). -/
def State.blocks (s : State) (tdi : Option Nat) : List (Nat × List Byte) :=
  let img := (s.flash.slot (s.reg rSlotActive)).image
  let base := (1, leBytes 8 (s.reg (key 0x1000 1)) ++ leBytes 16 (s.reg (key 0x1000 2)) ++ leBytes 1 (s.reg (key 0x1000 4))
      ++ leBytes 1 (s.reg (key 0x1000 5)))
    :: [2, 3, 4, 5].map (fun b => (b, Config.fwBlock b img))
    ++ [(6, leBytes 4 (s.reg (key 0x1000 6)) ++ leBytes 1 (s.reg (key 0x1000 7)) ++ leBytes 2 (s.reg (key 0x1000 8)))]
  match tdi with
  | none => base
  | some p =>
    let loads := ((s.psec p).images.foldl (fun l e => byDie e l) []).flatMap (·.2)
    let more := [(7, s.layoutBlock p), (8, sha384 loads)]
    let ext := if s.reg (rSec p 1) = 1 then
        (s.prn p).programs.mapIdx (fun i g => (0x10 + i, g.digest)) ++ (s.psec p).measured.mapIdx (fun i m => (0x50 + i, m.2.2))
      else []
    base ++ more ++ ext

/-- One block as it is sent: index, length, content. -/
def blockBytes (b : Nat × List Byte) : List Byte := leBytes 1 b.1 ++ leBytes 2 b.2.length ++ b.2

/-- A session of a mailbox. -/
def State.session (s : State) (id : Nat) : Option Session := s.sessions.find? (fun x => x.id == id)

/-- Change a session; its traffic is dated. -/
def State.modSession (s : State) (id : Nat) (g : Session → Session) : State :=
  let now := s.now
  { s with sessions := updWhere (fun x => x.id == id) (fun x => { g x with last := now }) s.sessions }

/-- GET_MEASUREMENTS (R262): index 0 asks for the number of blocks, 0xFF for all, any other for one. -/
def execGetMeasurements (box : Mailbox) (session : Option Nat) (index : Byte) (nonce : BitVec 256) (s : State) : Res :=
  let ses := session.bind s.session
  let tdi := ses.bind Session.tdi
  let all := s.blocks tdi
  let want := if index = 0 then [] else if index = 0xFF then all else all.filter (fun b => b.1 == index.toNat)
  let body := leBytes 1 (if index = 0 then all.length else want.length) ++ want.flatMap blockBytes ++ leBytes 32 nonce.toNat
  let known := session.isNone || ses.any (fun x => x.secured && x.box == box)
  let s := if known then session.elim s (fun id => s.modSession id (fun x => x)) else s
  .next (s.spdm box 3 (known && (index == 0 || want != [])) "MEASUREMENTS" (body ++ Config.identitySign body) id)

/-! ### Sessions (R257, R261) -/

/-- Sessions that a mailbox may hold: 4 for DOE, 2 over MCTP (R257). -/
def boxLimit (b : Mailbox) : Nat :=
  match b with
  | .doe _ => 4
  | .mctp => 2

/-- KEY_EXCHANGE (R257): an ECDHE exchange opens a session, signed by the identity key. -/
def execKeyExchange (box : Mailbox) (pub : List Byte) (s : State) : Res :=
  let ok := decide (s.sessions.countP (fun x => x.box == box) < boxLimit box)
  let id := 1 + maxL (s.sessions.map Session.id)
  let n := s.drawn
  let head := leBytes 4 id ++ Config.ecdhePublic n
  let x : Session := ⟨id, box, false, Config.ecdheSecret n pub, 0, s.now, none⟩
  .next (s.spdm box 3 ok "KEY_EXCHANGE_RSP" (head ++ Config.identitySign (head ++ pub))
    (fun s => { s with sessions := s.sessions ++ [x], free := s.free + 1 }))

/-- A message within a session: answered when the session is there and as secured as the message needs. -/
def State.inSession (s : State) (id : Nat) (secured : Bool) (ok : Session → Bool) (name : String) (bytes : Session → List Byte)
    (act : Session → State → State) : State :=
  match s.session id with
  | none => s
  | some x =>
    if x.secured != secured then s
    else
      let s := s.modSession id (fun x => x)
      s.spdm x.box 3 (ok x) name (bytes x) (act x)

/-- FINISH (R257): the session is established when its verify data match. -/
def execFinish (id : Nat) (verify : List Byte) (s : State) : Res :=
  .next (s.inSession id false (fun x => Config.finishOk x.secret verify) "FINISH_RSP" (fun _ => [])
    (fun _ s => s.modSession id (fun x => { x with secured := true })))

/-- KEY_UPDATE (R257). -/
def execKeyUpdate (id : Nat) (s : State) : Res :=
  .next (s.inSession id true (fun _ => true) "KEY_UPDATE_ACK" (fun _ => [])
    (fun _ s => s.modSession id (fun x => { x with updates := x.updates + 1 })))

/-- HEARTBEAT (R257). -/
def execHeartbeat (id : Nat) (s : State) : Res :=
  .next (s.inSession id true (fun _ => true) "HEARTBEAT_ACK" (fun _ => []) (fun _ s => s))

/-- A session ends, and a TDI that it locked moves to ERROR (R261). -/
def State.endSession (s : State) (id : Nat) : State :=
  match s.session id with
  | none => s
  | some x =>
    let s := { s with sessions := s.sessions.filter (fun y => y.id != id) }
    x.tdi.elim s s.toError

/-- END_SESSION (R261). -/
def execEndSession (id : Nat) (s : State) : Res :=
  .next (s.inSession id true (fun _ => true) "END_SESSION_ACK" (fun _ => []) (fun _ s => s.endSession id))

/-- HEARTBEAT_PERIOD_EXPIRY (R261): the session's heartbeat period has passed without traffic. -/
def execHeartbeatPeriodExpiry (id : Nat) (s : State) : Res := .next (if s.millServes then s.endSession id else s)

/-! ### IDE (R258) -/

/-- IDE_KM of a session for a virtual function: its port's link is in Flit mode, and the mailbox is the port's or MCTP. -/
def State.flit (s : State) (n : Nat) : Bool := bit (s.reg (key (0x2600 + n) 2)) 14
def State.kmOk (s : State) (f : Fn) (x : Session) : Bool :=
  f.vf != 0 && s.flit f.port.val && (match x.box with
    | .doe p => p == f.port
    | .mctp => true)

/-- Write IDE_STREAM of the partition that holds a function (R275). -/
def State.showStream (s : State) (f : Fn) : State :=
  match s.partOf f with
  | none => s
  | some p =>
    let x := (s.fn f).ide
    s.setReg (rIdeStream p) (if x.live.isSome then 0x8000 + x.stream else 0xFFFF)

def Ide.key (x : Ide) (set : Nat) : Option Nat := if set = 0 then x.key0 else x.key1

/-- KEY_PROG (R258): a key of a stream's set. -/
def execKeyProg (id : Nat) (f : Fn) (stream : Byte) (set : Fin 2) (key : BitVec 256) (s : State) : Res :=
  let put (x : Ide) : Ide :=
    if set = 0 then { x with stream := stream.toNat, key0 := some key.toNat } else { x with stream := stream.toNat, key1 := some key.toNat }
  .next (s.inSession id true (s.kmOk f) "KP_ACK" (fun _ => leBytes 1 stream.toNat ++ leBytes 1 set.val)
    (fun _ s => s.modFn f (fun y => { y with ide := put y.ide })))

/-- K_SET_GO (R258): the key set is used from now on. -/
def execKSetGo (id : Nat) (f : Fn) (set : Fin 2) (s : State) : Res :=
  let ok (x : Session) : Bool := s.kmOk f x && ((s.fn f).ide.key set.val).isSome
  .next (s.inSession id true ok "K_GOSTOP_ACK" (fun _ => leBytes 1 set.val)
    (fun _ s => (s.modFn f (fun y => { y with ide := { y.ide with live := some set.val } })).showStream f))

/-- K_SET_STOP (R258): the use of the key set ends. -/
def execKSetStop (id : Nat) (f : Fn) (set : Fin 2) (s : State) : Res :=
  let stop (x : Ide) : Ide := if x.live = some set.val then { x with live := none } else x
  .next (s.inSession id true (s.kmOk f) "K_GOSTOP_ACK" (fun _ => leBytes 1 set.val)
    (fun _ s => (s.modFn f (fun y => { y with ide := stop y.ide })).showStream f))

/-- QUERY (R258): the stream of a function, and which key sets are programmed and live. -/
def execQuery (id : Nat) (f : Fn) (s : State) : Res :=
  let x := (s.fn f).ide
  let m := b2n x.key0.isSome + 2 * b2n x.key1.isSome + 4 * b2n x.live.isSome
  .next (s.inSession id true (s.kmOk f) "QUERY_RESP" (fun _ => leBytes 1 x.stream ++ leBytes 1 m) (fun _ s => s))

/-- IDE_FAILURE (R258, R261): the transaction is discarded, and a locked TDI moves to ERROR. -/
def execIdeFailure (f : Fn) (s : State) : Res := .next ((s.partOf f).elim s s.toError)

/-! ### TDISP (R259) -/

/-- A TDISP message for a function: the act is carried out where the TDI's state allows it, else the answer is TDISP_ERROR. -/
def State.tdisp (s : State) (id : Nat) (f : Fn) (ok : Nat → Session → Bool) (name : String) (bytes : Nat → List Byte)
    (act : Nat → State → State) : State :=
  match s.partOf f with
  | none => s.inSession id true (fun _ => true) "TDISP_ERROR" (fun _ => []) (fun _ s => s)
  | some p =>
    match s.session id with
    | none => s
    | some x =>
      let good := ok p x
      s.inSession id true (fun _ => true) (if good then name else "TDISP_ERROR") (fun _ => if good then bytes p else [])
        (fun _ s => if good then act p s else s)

/-- LOCK_INTERFACE_REQUEST (R259, R343): accepted only while STATE is 2, from CONFIG_UNLOCKED, on a link in Flit mode. -/
def execLockInterfaceRequest (id : Nat) (f : Fn) (s : State) : Res :=
  let ok (p : Nat) (_ : Session) : Bool := s.reg (rState p) == 2 && s.reg (rTdi p) == 0 && s.flit f.port.val
  .next (s.tdisp id f ok "LOCK_INTERFACE_RESPONSE" (fun _ => [])
    (fun p s => (s.setReg (rTdi p) 1).modSession id (fun x => { x with tdi := some p })))

/-- GET_DEVICE_INTERFACE_REPORT (R259): BAR0 and BAR2 with their sizes, and the layout block. -/
def execGetDeviceInterfaceReport (id : Nat) (f : Fn) (s : State) : Res :=
  .next (s.tdisp id f (fun _ _ => true) "DEVICE_INTERFACE_REPORT"
    (fun p => leBytes 1 0 ++ leBytes 4 0x10000 ++ leBytes 1 2 ++ leBytes 4 0x1000 ++ s.layoutBlock p) (fun _ s => s))

/-- START_INTERFACE_REQUEST (R259): CONFIG_LOCKED to RUN, by the session that locked it. -/
def execStartInterfaceRequest (id : Nat) (f : Fn) (s : State) : Res :=
  let ok (p : Nat) (x : Session) : Bool := s.reg (rTdi p) == 1 && x.tdi == some p
  .next (s.tdisp id f ok "START_INTERFACE_RESPONSE" (fun _ => []) (fun p s => s.setReg (rTdi p) 2))

/-- STOP_INTERFACE_REQUEST (R259): back to CONFIG_UNLOCKED; from CONFIG_LOCKED or RUN it ends the key epoch with cause 4. -/
def State.stopTdi (s : State) (p : Nat) : State :=
  let t := s.reg (rTdi p)
  let s := if t = 1 ∨ t = 2 then s.endEpoch p 4 else s
  let free (x : Session) : Session := if x.tdi = some p then { x with tdi := none } else x
  { s.setReg (rTdi p) 0 with sessions := s.sessions.map free }

def execStopInterfaceRequest (id : Nat) (f : Fn) (s : State) : Res :=
  .next (s.tdisp id f (fun _ _ => true) "STOP_INTERFACE_RESPONSE" (fun _ => []) (fun p s => s.stopTdi p))

end Sys2Proof.Machine
end

