-- ==== Sys2Proof/Machine/Host.lean ====
section
/-! DEFINITION. Host ports (R343–R356): the link, ring registers and doorbells, submission, flush reads, MSI-X, function resets
and hot resets. -/

namespace Sys2Proof.Machine

def rPort (n sub : Nat) : Nat := key (0x2600 + n) sub

/-- A virtual function answers memory requests: its port is released, VF Enable is set and its number does not exceed NumVFs
(R344, R385). -/
def State.vfAnswers (s : State) (f : Fn) : Bool :=
  f.vf != 0 && s.portOpen f.port.val && (s.port f.port.val).vfEnable && decide (f.vf.val ≤ (s.port f.port.val).numVfs)

/-- Doorbells are taken only while READY is 1 (R356). -/
def State.doorbell (s : State) (f : Fn) (g : FnState → FnState) : State :=
  if s.vfAnswers f && s.ready f then s.modFn f g else s

/-- Slots from a consumer's head to a producer's tail of a ring of `n`. -/
def ringUsed (n head tail : Nat) : Nat := if n = 0 then 0 else (tail + n - head % n) % n

/-- SQ_TAIL (R347); an index beyond the ring is taken modulo its size (log 48). -/
def execSqTail (f : Fn) (v : W64) (s : State) : Res :=
  .next (s.doorbell f (fun x => { x with sqTail := v.toNat % x.sqSize }))

/-- CQ_HEAD (R348): the slots before it are free, and records held back are written. -/
def execCqHead (f : Fn) (v : W64) (s : State) : Res :=
  let s := s.doorbell f (fun x =>
    { x with cqHead := v.toNat % x.cqSize, cqUsed := ringUsed x.cqSize v.toNat x.cqTail })
  .next (
    match s.partOf f with
    | none => s
    | some p => if s.vfAnswers f && s.ready f then State.drainHeld p f (s.fn f).held.length s else s)

/-- LATE_Q_HEAD (R199). -/
def execLateQHead (f : Fn) (v : W64) (s : State) : Res :=
  .next (
    match s.partOf f with
    | none => s
    | some p =>
      let n := s.reg (rBand p 0x25)
      if n = 0 then s
      else s.doorbell f (fun x => { x with lateHead := v.toNat % n, lateUsed := ringUsed n v.toNat x.lateTail }))

/-- A ring size: a power of two from 16 to 4,096 (R345). -/
def ringSize (n : Nat) : Bool := (List.range 9).any (fun i => n == 16 * 2 ^ i)

/-- The conditions of a write of 1 to ENABLE (R346). -/
def FnState.ringsOk (x : FnState) : Bool :=
  [x.sqBase, x.cqBase, x.psaBase].all (fun a => a != 0 && a % 4096 == 0) && ringSize x.sqSize && ringSize x.cqSize

/-- RING_ENABLE (R346, R349): heads and tails return to 0 and the phases to 1; records held back by CQ_ERROR follow (log 49). -/
def execRingEnable (f : Fn) (s : State) : Res :=
  .next (
    if !s.vfAnswers f then s
    else if !(s.fn f).ringsOk then s.modFn f (fun x => { x with configError := true })
    else
      let s := s.modFn f (fun x =>
        { x with enable := true, configError := false, recordsLost := false, sqError := false, cqError := false, sqHead := 0,
                 sqTail := 0, cqHead := 0, cqTail := 0, lateHead := 0, lateTail := 0, cqUsed := 0, lateUsed := 0, written := 0,
                 lateWritten := 0, stopped := none })
      match s.partOf f with
      | none => s
      | some p => State.drainHeld p f (s.fn f).held.length s)

/-- RING_DISABLE (R346): fetching and record writing stop; records held back are discarded and count as written, which sets
RECORDS_LOST (log 49). -/
def execRingDisable (f : Fn) (s : State) : Res :=
  .next (
    if !s.vfAnswers f then s
    else
      let held := (s.fn f).held
      let s := s.modFn f (fun x => 
        { x with enable := false, recordsLost := x.recordsLost || held != [], held := [], stopped := none })
      match s.partOf f with
      | none => s
      | some p => held.foldl (fun s r => s.recordDone p r.tag) s)

/-- RING_REGISTERS (R346): SQ_BASE, SQ_SIZE, CQ_BASE, CQ_SIZE and PSA_BASE, in that order. -/
def execRingRegisters (f : Fn) (reg : Fin 5) (v : W64) (s : State) : Res :=
  let n := v.toNat
  let set (x : FnState) : FnState :=
    match reg with
    | 0 => { x with sqBase := n }
    | 1 => { x with sqSize := n }
    | 2 => { x with cqBase := n }
    | 3 => { x with cqSize := n }
    | 4 => { x with psaBase := n }
  .next (if s.vfAnswers f then s.modFn f (fun x => if x.enable then { x with badWrite := true } else set x) else s)

/-! ### Submission (R347) -/

/-- The device fetches for a function: READY, no SQ_ERROR, entries pending. -/
def State.fetches (s : State) (f : Fn) : Bool :=
  let x := s.fn f
  s.portOpen f.port.val && s.ready f && !x.sqError && x.sqHead != x.sqTail

/-- An entry is taken: SQ_HEAD advances. -/
def State.taken (s : State) (f : Fn) : State :=
  s.modFn f (fun x => { x with sqHead := (x.sqHead + 1) % x.sqSize, stopped := none })

/-- Runs in flight, with the run requests fetched and not yet checked (R107). -/
def PartRun.runsHeld (r : PartRun) : Nat := r.runs.length + (r.fetched.filter (fun e => !isUnload e.1)).length

/-- SUBMISSION_FETCH (R347): the entry at SQ_HEAD is fetched and classified; fetching stops at a run while four are in flight,
and at a load while another is in progress.  A load that later fails still counts as the partition's first (R207, R251; log 108). -/
def execSubmissionFetch (f : Fn) (entry : Desc) (s : State) : Res :=
  .next (
    match s.partOf f with
    | none => s
    | some p =>
      if !s.fetches f then s
      else
        let e := (s.fn f).stopped.getD entry
        let req := e.toNat
        let r := s.prn p
        let stop := s.modFn f (fun x => { x with stopped := some e })
        if isUnload req then
          if lOp req = 2 then (s.modPr p (fun r => { r with fetched := r.fetched ++ [(req, s.now)] })).taken f
          else if r.loading.isSome then stop
          else (s.modPr p (fun r => { r with loading := some (req, s.now), used := true })).taken f
        else if 4 ≤ r.runsHeld then stop
        else (s.modPr p (fun r => { r with fetched := r.fetched ++ [(req, s.now)], used := true })).taken f)

/-- FETCH_ERROR (R347): the entry is lost, and fetching stops until ENABLE is written again. -/
def execFetchError (f : Fn) (c : Cpl) (s : State) : Res :=
  .next (
    if c = .ok ∨ s.fetches f = false ∨ (s.fn f).stopped.isSome then s
    else (s.taken f).modFn f (fun x => { x with sqError := true }))

/-! ### Flush reads (R350, R351) -/

/-- The oldest write of a function at its host port whose flush read is outstanding. -/
def State.hostWriteResp (s : State) (f : Fn) : Option Resp :=
  s.resps.find? (fun r => r.left == 1 && pkCmd r.header != 0x01 && pkDstDie r.header == hostPortDie f.port.val
    && pkDstEng r.header == 2 && decide (s.fnOf (pkPart r.header) = f))

/-- FLUSH_READ_COMPLETION (R350, R351): the flush read of a record, or of a data transfer. -/
def execFlushReadCompletion (f : Fn) (record : Bool) (c : Cpl) (s : State) : Res :=
  let bad := c == .ur || c == .ca || c == .timeout
  let count (s : State) : State := if bad then s.bump (rPort f.port.val 4) 1 else s
  .next (
    if record then
      if (s.fn f).flushes = 0 then s
      else count (s.modFn f (fun x => { x with flushes := x.flushes - 1, cqError := x.cqError || bad }))
    else
      match s.hostWriteResp f with
      | none => s
      | some r => count (s.modResp r.id (fun x => { x with left := 0, status := if bad then 0x21 else x.status })))

/-! ### MSI-X (R354) -/

/-- MSIX_UNMASK (R354): a pending vector sends its message when it is unmasked. -/
def execMsixUnmask (f : Fn) (vec : Fin 4) (s : State) : Res :=
  let x := s.fn f
  let t := s.setFn f { x with mask := setBit x.mask vec.val false, pend := setBit x.pend vec.val false }
  .next (if !s.portOpen f.port.val then s else if bit x.pend vec.val then t.emit (.msix f vec.val) else t)

/-! ### Function reset, hot reset and the link (R343, R344, R355) -/

/-- The registers and MSI-X state of a function return to reset; its IDE keys stay. -/
def State.resetFn (s : State) (f : Fn) : State := s.setFn f { FnState.blank with ide := (s.fn f).ide }

/-- FLR_VF (R355). -/
def execFlrVf (f : Fn) (s : State) : Res :=
  .next (
    if f.vf = 0 ∨ s.portOpen f.port.val = false then s
    else ((s.partOf f).elim s (fun p => s.endEpoch p 2)).resetFn f)

/-- The functions of a port. -/
def portFns (n : Fin 4) : List Fn := (List.finRange 17).map (fun v => ⟨n, v⟩)

/-- Every partition on a port, and every function of the port, is reset; VF Enable reads 0. -/
def State.resetPort (s : State) (n : Fin 4) : State :=
  let parts := partNums.filter (fun p => s.reg (rState p) != 0 && (s.fnOf p).port == n)
  let s := parts.foldl (fun s p => s.endEpoch p 2) s
  let s := (portFns n).foldl State.resetFn s
  s.setPort n.val { s.port n.val with vfEnable := false, numVfs := 0 }

/-- FLR_PF (R355): also a clearing of VF Enable. -/
def execFlrPf (port : PortN) (s : State) : Res := .next (if s.portOpen port.val then s.resetPort port else s)

/-- A hot reset or the link going down (R355): as FLR of PF 0, and the IDE keys of the port are lost. -/
def State.hotReset (s : State) (n : Fin 4) : State :=
  let s := (s.setReg (rPort n.val 2) 0).resetPort n
  (portFns n).foldl (fun s f => (s.modFn f (fun x => { x with ide := Ide.blank })).showStream f) s

/-- During a warm reset a hot reset waits until step 5 ends (R386). -/
def State.linkLost (s : State) (n : Fin 4) : State :=
  if s.rst.step ≠ 0 ∧ s.rst.warm then { s with rst := { s.rst with hotDue := s.rst.hotDue ++ [n.val] } } else s.hotReset n

/-- HOT_RESET (R355). -/
def execHotReset (port : PortN) (s : State) : Res := .next (s.linkLost port)

/-- PCIE_PERST_N (R355): low takes the link down. -/
def execPciePerstN (port : PortN) (level : Bool) (s : State) : Res :=
  let x := s.port port.val
  let t := s.setPort port.val { x with perst := level }
  .next (if x.perst = true ∧ level = false then t.linkLost port else t)

/-- Lanes of a trained width: x1, x4, x8 or x16 (R343). -/
def linkWidth (w : Fin 4) : Nat := [1, 4, 8, 16].getD w.val 16

/-- LINK_UP (R343, R353): the PHYs train from step 2 of a cold reset on. -/
def execLinkUp (port : PortN) (width : Fin 4) (rate : Fin 6) (flit : Bool) (s : State) : Res :=
  let v := 0x8000 + 0x4000 * b2n flit + 256 * linkWidth width + rate.val + 1
  .next (
    if (s.port port.val).perst = false ∨ (s.rst.step = 1 ∧ s.rst.warm = false) ∨ s.portFused port.val = false then s
    else s.setReg (rPort port.val 2) v)

/-- VF_ENABLE (R344, R355): VF Enable and NumVFs; clearing VF Enable resets the port's functions. -/
def execVfEnable (port : PortN) (on : Bool) (num : Fin 17) (s : State) : Res :=
  let x := s.port port.val
  .next (
    if !s.portOpen port.val then s
    else if on then (if x.vfEnable then s else s.setPort port.val { x with vfEnable := true, numVfs := num.val })
    else
      let s := if x.vfEnable then s.resetPort port else s
      s.setPort port.val { s.port port.val with numVfs := num.val })

/-- CQ_FULL_CYCLES (R348, R353): a band cycle in which some ring of a port holds records back. -/
def State.countFull (s : State) : State :=
  (List.finRange 4).foldl (fun s n =>
    if (portFns n).any (fun f => (s.fn f).held != [] && (s.fn f).full) then s.bump (rPort n.val 3) 1 else s) s

end Sys2Proof.Machine
end

