-- ==== Sys2Proof/Machine/Reset.lean ====
section
/-! DEFINITION. Reset and bring-up (R381–R388), and the reference clock fault that begins a held warm reset (R412). -/

namespace Sys2Proof.Machine

def rCause : Nat := key 0x1010 1
def rResetState : Nat := key 0x1010 2
def rWarmCount : Nat := key 0x1010 3
def rResetTime : Nat := key 0x1010 5

/-- A reset begins: its cause, and its TAI time, which is 0 while the counter is not disciplined (R388). -/
def State.resetBegins (s : State) (cause now : Nat) (disciplined : Bool) : State :=
  ((s.setReg rCause cause).setReg rResetState 0).setReg rResetTime (if disciplined then now else 0)

/-- The counter has been disciplined: it has locked at least once (R388, R407). -/
def State.disciplined (s : State) : Bool := s.clock.locked

/-! ### Cold reset (R381, R385) -/

/-- The dictionary after a cold reset (R400): fuses stay, committed flash settings are restored, the rest is at its default. -/
def State.coldDict (s : State) : Sparse Nat :=
  s.mill.flash0.journal.foldl (fun d e => sput regDefault d e.1 (e.2 % 2 ^ (8 * regLen e.1))) (sclear (fun k => !isFuse k) s.dict)

/-- A debug unlock that the vendor service role ordered takes effect (R404). -/
def State.unlockDebug (s : State) : State := (s.setReg (key 0x1000 7) 1).bump (key 0x1000 8) 1

/-- Alerts whose pin is low when a reset begins; the alert of a thermal trip is none (R372, R374, R427). -/
def State.pinAlerts (s : State) : List Rail :=
  s.power.alerts.filter (fun r => match r with
    | .core c => (s.dp c.val).trip.isNone
    | _ => true)

/-- Everything but flash, fuses, the event log, pin levels and what has left the device returns to its reset state (R381). -/
def State.coldReset (s : State) (cause : Nat) : State :=
  let perst (x : PortState) : PortState := { PortState.blank with perst := x.perst }
  let ports := smap (fun _ => PortState.blank) (fun _ => true) (fun _ x => perst x) s.ports
  let t : State :=
    { State.reset with
      pending := s.pending, free := s.free, hostMem := s.hostMem, out := s.out, dict := s.coldDict
      mill := { Mill.blank with flash0 := s.mill.flash0, flash15 := s.mill.flash15, events := s.mill.events,
                                refFault := s.mill.refFault }
      rst := { ResetCtl.blank with porst := s.rst.porst, wrst := s.rst.wrst, wrstAt := s.rst.wrstAt }
      ports := ports
      power := { Power.blank with alerts := s.pinAlerts } }
  let t := if s.mill.unlockNext then t.unlockDebug else t
  t.resetBegins cause s.now s.disciplined

/-- POWER_ON (R381): supplies rise through their thresholds. -/
def execPowerOn (s : State) : Res := .next (s.coldReset 0x01)

/-- PORST_N (R381, R385): low begins a cold reset at once; its rise lets step 1 run. -/
def execPorstN (level : Bool) (s : State) : Res :=
  .next (
    if level then { s with rst := { s.rst with porst := true } }
    else
      let t := { s with rst := { s.rst with porst := false } }
      if s.rst.porst then t.coldReset 0x02 else t)

/-! ### Warm reset (R382, R383, R386) -/

/-- A load of a warm reset is abandoned with 0x12, and its covered regions are blank (R322). -/
def State.abandonBlank (s : State) (c : Nat) : State :=
  let s := match s.loadOf c with
    | some l => if 2 ≤ l.stage then s.modLoad c (fun x => { x with frames := max 1 x.frames }) else s
    | none => s
  State.abandonLoads c (fun _ => false) (s.brim c).loads.length s

/-- A brim in warm reset (R383): flip-flops and cells in their reset state, global set-reset asserted over its loaded designs,
frames kept. -/
def State.haltBrim (s : State) (c : Nat) : State :=
  let s := s.abandonBlank c
  let held := s.regionsLoaded c
  (s.setReset c held).modBrim c (fun b => { b with attach := [], correct := none, gsr := held })

/-- The brim step of a reset exit (R383, R385): global set-reset is released, and what it held has its initial value (log 115). -/
def State.releaseBrim (s : State) (c : Nat) : State :=
  (s.initRegions c (s.brim c).gsr).modBrim c (fun b => { b with gsr := 0 })

/-- A partition in warm reset (R382): programs, runs, measurements of programs and items, and fire-forward writes are gone. -/
def State.warmPart (s : State) (p : Nat) : State :=
  let s := (s.dropRuns p).modSec p (fun x => { x with measured := [] })
  ((s.setReg (rSec p 4) 0).setReg (rSec p 5) 0).setReg (rBand p 0x26) 0

/-- The die and switch counters that a warm reset clears (R62, R202). -/
def isWarmCounter (k : Nat) : Bool :=
  (List.range 48).any (fun c => isDieCounter c k) || (decide (0x6600 ≤ k / 256) && decide (k / 256 ≤ 0x663F))

/-- A warm reset begins (R382, R383): HBM controllers, partitions, keys, settings, brim frames, pins, lanes and links stay; the
bands, the crown dies, programs, runs and accesses in progress are reset.  Accesses that a controller has accepted complete
(R223). -/
def State.warmReset (s : State) (cause : Nat) : State :=
  let s := (partNums.filter (fun p => s.reg (rState p) != 0)).foldl State.warmPart s
  let s := (List.range 48).foldl State.haltBrim s
  let s := s.clearRegs isWarmCounter
  let ports := smap (fun _ => PortState.blank) (fun _ => true) (fun _ (x : PortState) => { x with released := false }) s.ports
  let switches := smap (fun _ => SwitchState.blank) (fun _ => true)
    (fun _ (x : SwitchState) => { x with holds := [], listed := [] }) s.switches
  let parts := smap (fun _ => PartPower.blank) (fun _ => true) (fun _ (x : PartPower) => { x with goal := 400 }) s.power.parts
  let accepted := s.waiting.filter (fun w => match w.point with
    | .channel _ _ => true
    | _ => false)
  let s : State := { s with
    rst := { s.rst with warm := true, step := 1, due := none, held := false }
    refusals := [], xacts := [], retired := [], resps := [], pairTx := [], splits := [], works := [], arrays := [], engines := []
    waiting := accepted, switches := switches, ports := ports
    mill := { s.mill with faulted := false, halted := false, rebooting := false, queue := [], mirrorSent := 0, mirrorAcked := 0 }
    power := { s.power with parts := parts } }
  let s := (List.range 48).foldl (fun s c => s.setMhz c 400) s
  let s := (partNums.filter (fun p => s.reg (rState p) != 0)).foldl (fun s p => s.setReg (rPow p 5) 400) s
  let s := ((s.setReg rStandby 0).setReg rFwStatus 0).setReg rFwOffset 0
  s.resetBegins cause s.now s.disciplined

/-- A source of a warm reset (R386): it waits for the end of a cold reset, has no further effect before step 2 of a warm one,
and begins one again from step 2 on. -/
def State.askWarm (s : State) (cause : Nat) : State :=
  if s.rst.step = 0 ∨ (s.rst.warm = true ∧ 2 ≤ s.rst.step) then s.warmReset cause else s

/-- Step 2 of the exit begins (R385). -/
def State.beginStep (s : State) (n : Nat) : State :=
  { s with rst := { s.rst with step := n, held := false } }.setReg rResetState n

/-- What holds a reset in step 1: PORST_N low and, for a warm reset, WRST_N low, or a reference clock fault (R385, R387,
R412). -/
def State.heldBack (s : State) : Bool := !s.rst.porst || s.mill.refFault || (s.rst.warm && !s.rst.wrst)

/-- A held warm reset goes on to step 2 when nothing holds it any more (R387, R412). -/
def State.unhold (s : State) : State := if s.rst.held && !s.heldBack then s.beginStep 2 else s

/-- WRST_N (R381, R386, R387). -/
def execWrstN (level : Bool) (s : State) : Res :=
  let now := s.now
  .next (
    if level then { s with rst := { s.rst with wrst := true } }.unhold
    else if s.rst.wrst then { s with rst := { s.rst with wrst := false, wrstAt := now } }.askWarm 0x03
    else s)

/-- WARM_RESET_START (R388): 100 µs after the write of WARM_RESET was acknowledged. -/
def execWarmResetStart (s : State) : Res :=
  .next (
    match s.rst.due with
    | none => s
    | some t => { s.reach t with rst := { s.rst with due := none } }.askWarm 0x04)

/-- WARM_RESET_HELD (R387): WRST_N has been low for 2 s. -/
def execWarmResetHeld (s : State) : Res :=
  .next (
    if s.rst.held = true ∧ s.rst.wrst = false ∧ s.reg rCause ≠ 0x06 then
      ((s.reach (s.rst.wrstAt + 2000000000)).setReg rCause 0x06).raise 0x0103 none
    else s)

/-! ### The exit order (R385) -/

/-- The standby milliner begins to copy the mirror, unless it is out of service or its die has left service (R393, R396). -/
def State.standbyStarts (s : State) : State :=
  let other := if s.activeIs0 then 63 else 48
  let out := if s.activeIs0 then s.mill.out15 else s.mill.out0
  if out || !s.live other then s.setReg rStandby 0 else s.setReg rStandby 1

/-- Step 1 ends (R385): a cold reset boots the firmware; a warm one marks erases that it interrupted and forces the epoch ends
in progress (R271, R410). -/
def State.step1 (s : State) : State :=
  if s.rst.warm then
    let s := s.modFlashes Flash.booted
    let s := (s.setReg (key 0x1040 9) (s.flash.incomplete % 2 ^ 64)).setReg (key 0x1040 0xA) (s.flash.incomplete / 2 ^ 64)
    (partNums.foldl State.forceEnd s).standbyStarts
  else s.boot.standbyStarts

/-- Stacks and dies whose alerts are low keep the floor state (R372, R427). -/
def State.floorsHeld (s : State) : State :=
  s.power.alerts.foldl (fun s r =>
    match r with
    | .core c => s.setReg (rDiePow c.val 6) 1
    | .port p _ =>
      let on (x : StackState) : StackState := { x with floor := true }
      ((s.setReg (rDiePow (48 + p.val) 6) 1).modStack (2 * p.val) on).modStack (2 * p.val + 1) on
    | .aux => s) s

/-- Step 2 ends (R385): stacks trained and zeroed, and lane groups begin bring-up, or RESYNC goes out (R222, R328, R339). -/
def State.step2 (s : State) (bad : List (StackN × Fin 128)) : State :=
  if s.rst.warm then
    ((List.range 16).filter (fun g => s.laneUse g == 1)).foldl (fun s g => (s.resync g).sendControl g false true) s
  else
    let s := (s.hbmCold bad).floorsHeld
    (List.range 16).foldl (fun s g => s.useLanes g (s.laneUse g)) s

/-- Step 4 ends (R385): tile states are those of flash, and a tile still under test is tested again; the domains of every die of
a partition are on. -/
def State.step4 (s : State) : State :=
  if s.rst.warm then
    (List.range 48).foldl (fun s c =>
      let s := s.refreshDomains c
      { s.setReg (rDiePow c 5) (s.domainsWanted c) with
        power := { s.power with switching := s.power.switching.filter (fun e => e.1 != c) } }) s
  else
    { s.refreshAll with tests := ((List.range 384).filter (fun k => s.reg (rTileState (k / 8) (k % 8)) == 1)).map (fun k => (k, false)) }

/-- Step 5 ends (R385): global set-reset is released, host ports are released with the ring registers at reset, and events that
had to wait follow (R382, R386). -/
def State.step5 (s : State) : State :=
  let warm := s.rst.warm
  let s := (List.range 48).foldl State.releaseBrim s
  let fuse (s : State) (n : Fin 4) : State :=
    let s := s.setPort n.val { s.port n.val with released := s.portFused n.val && s.live (hostPortDie n.val) }
    (portFns n).foldl (fun s f => s.modFn f (fun x =>
      { FnState.blank with ide := x.ide, mask := x.mask, pend := x.pend, wstatus := x.wstatus, wlen := x.wlen, data := x.data })) s
  let s := (List.finRange 4).foldl fuse s
  let due := (List.finRange 4).filter (fun n => s.rst.hotDue.contains n.val)
  let s := { s with rst := { s.rst with step := 0, warm := false, hotDue := [] } }.setReg rResetState 6
  let s := if warm then s.bump rWarmCount 1 else s
  let s := due.foldl State.hotReset s
  if s.rst.wrst then s else s.warmReset 0x03

/-- RESET_STEP_DONE (R385): the step in progress ends, and the next begins; `bad` names the ranks that failed their read-back
in step 2 of a cold reset. -/
def execResetStepDone (bad : List (StackN × Fin 128)) (s : State) : Res :=
  .next (
    match s.rst.step with
    | 1 =>
      if s.mill.faulted || s.rst.held || !s.rst.porst || (!s.rst.warm && s.mill.refFault) then s
      else
        let s := s.step1
        if s.heldBack then { s with rst := { s.rst with held := true } }.setReg rResetState 1 else s.beginStep 2
    | 2 => (s.step2 bad).beginStep 3
    | 3 => { s with clock := { s.clock with frame := 0, cycles := 0 } }.beginStep 4
    | 4 => s.step4.beginStep 5
    | 5 => s.step5
    | _ => s)

/-! ### The reference clock (R412) -/

/-- REFCLK_CHECK (R412): a deviation above 1,000 ppm or a missing clock is a reference clock fault, which begins a held warm
reset; during step 1 of a cold reset it holds that step. -/
def execRefclkCheck (missing : Bool) (ppm : BitVec 32) (s : State) : Res :=
  .next (
    if s.mill.refFault = true ∨ (missing = false ∧ ppm.toNat ≤ 1000) then s
    else
      let s := { s with mill := { s.mill with refFault := true } }
      let s := s.setReg rTimeState 3
      if s.rst.step ≠ 0 ∧ s.rst.warm = false ∧ s.rst.step = 1 then s
      else if s.rst.step = 1 then (s.setReg rCause 0x07).raise 0x0106 none
      else (s.warmReset 0x07).raise 0x0106 none)

/-- REFCLK_RECOVERED (R412): SYS_REFCLK has been within limits for 100 ms. -/
def execRefclkRecovered (s : State) : Res :=
  .next (if s.mill.refFault then { s with mill := { s.mill with refFault := false } }.unhold else s)

end Sys2Proof.Machine
end

