-- ==== Sys2Proof/Machine/Milliner.lean ====
section
/-! DEFINITION. The milliners (R392–R396): faults, hand-over and the standby, and the answers of every transport (R399, R401,
R403, R413, R352). -/

namespace Sys2Proof.Machine

def rHandovers : Nat := key 0x1020 3
def rLastFault : Nat := key 0x1020 4
def rHandoverTime : Nat := key 0x1020 5

/-! ### Answers (R352, R401, R403, R413) -/

/-- The header bytes 0–15 of R401. -/
def accessHead (op counter entry status len : Nat) : List Byte :=
  leBytes 2 0x01D7 ++ leBytes 1 op ++ leBytes 2 (entry / 256) ++ leBytes 1 (entry % 256) ++ leBytes 1 status ++ leBytes 1 len
    ++ leBytes 8 counter

/-- COBS (R413): each block of up to 254 non-zero bytes is led by its length plus one, and a zero byte ends a shorter block.
`run` is the open block, reversed. -/
def cobsGo : List Byte → List Byte → List Byte
  | run, [] => BitVec.ofNat 8 (run.length + 1) :: run.reverse
  | run, b :: bs =>
    if b = 0 then (BitVec.ofNat 8 (run.length + 1) :: run.reverse) ++ cobsGo [] bs
    else if run.length = 253 then (0xFF :: (b :: run).reverse) ++ cobsGo [] bs
    else cobsGo (b :: run) bs

/-- A frame with its 0x00 delimiter. -/
def cobsEncode (bs : List Byte) : List Byte := cobsGo [] bs ++ [0]

/-- The bytes of a COBS frame without its delimiter; `left` counts the bytes of the open block, and `zero` whether a zero byte
follows it. -/
def cobsDecode : Nat → Bool → List Byte → List Byte
  | _, _, [] => []
  | 0, zero, b :: bs =>
    (if zero then [0] else []) ++ (if b = 0 then [] else cobsDecode (b.toNat - 1) (b != 0xFF) bs)
  | n + 1, zero, b :: bs => b :: cobsDecode n zero bs

/-- The status byte of an answer: DONE or REFUSED (R5). -/
def answerStatus (done : Bool) : Nat := if done then 0x00 else 0x31

/-- A window access ends (R352): BUSY falls, WSTATUS and, for a read, DATA are set, and DONE_IRQ sends the window vector. -/
def State.windowDone (s : State) (f : Fn) (irq read done : Bool) (value : List Byte) : State :=
  let len := if done then value.length else 0
  let s := s.modFn f (fun x => { x with busy := false, wstatus := answerStatus done, wlen := len,
                                        data := if read && done then leNat value else x.data })
  if irq then s.msix f (if f.vf = 0 then 1 else 2) else s

/-- Answer an access over its transport. -/
def State.answer (s : State) (a : Access) (done : Bool) (value : List Byte) : State :=
  let op := if a.write then 2 else 1
  let body := if a.write || !done then [] else value
  let head (counter : Nat) : List Byte := accessHead op counter a.entry (answerStatus done) body.length
  let full (counter : Nat) : List Byte := s.datagram op counter a.entry (answerStatus done) body
  match a.via with
  | .udp c =>
    let d := full c
    let fill (r : Nat × Nat × List Byte) : Nat × Nat × List Byte := (r.1, r.2.1, d)
    { s with mill := { s.mill with responses := updWhere (fun r => r.1 == c) fill s.mill.responses } }.emit (.datagram d)
  | .mctp b => s.emit (.mctp b (leBytes 1 0x7F ++ leBytes 4 (s.reg (key 0x1060 8)) ++ head 0 ++ body))
  | .session _ => s.emit (.answer a.via a.entry done body)
  | .window f irq => s.windowDone f irq (!a.write) done (if a.write then a.value else value)
  | .uart => s.emit (.uart (cobsEncode (full 0)))

/-- Refuse an access whose answer is due at a time in ns. -/
def State.refuseAt (s : State) (a : Access) (due : Nat) : State := { s with refusals := s.refusals ++ [(due, .access a)] }

/-- Refuse an access as it is received: its answer is due 20 µs later (R5, R272). -/
def State.refuse (s : State) (a : Access) : State := s.refuseAt a (s.now + 20000)

/-! ### Faults of the active milliner (R394–R396) -/

/-- The times of a milliner's faults within the last 24 hours (R396). -/
def recentFaults (now : Nat) (l : List Nat) : List Nat := l.filter (fun t => decide (now < t + 86400000000000))

/-- Record a fault of P00's (`is0`) or P15's milliner. -/
def State.noteFault (s : State) (is0 : Bool) : State :=
  let now := s.now
  if is0 then { s with mill := { s.mill with faults0 := now :: recentFaults now s.mill.faults0 } }
  else { s with mill := { s.mill with faults15 := now :: recentFaults now s.mill.faults15 } }

/-- A milliner that has faulted three times within 24 hours stays out of service until the next cold reset (R396); else it
reboots. -/
def State.afterFault (s : State) (is0 : Bool) : State :=
  let worn := decide (3 ≤ (recentFaults s.now (if is0 then s.mill.faults0 else s.mill.faults15)).length)
  let gone := worn || !s.live (if is0 then 48 else 63)
  let m := { s.mill with rebooting := !gone }
  let m := if gone then (if is0 then { m with out0 := true } else { m with out15 := true }) else m
  let s := { s with mill := m }
  if worn then s.raise 0x0102 (some (if is0 then 48 else 63)) else s

/-- A standby can take over: it is in service, or in step 1 of a reset it boots beside the active milliner (R386, R396). -/
def State.standbyReady (s : State) : Bool :=
  let out := if s.activeIs0 then s.mill.out15 else s.mill.out0
  s.reg rStandby == 2 || (s.rst.step == 1 && !out && s.live (if s.activeIs0 then 63 else 48))

/-- The active milliner faults (R394): with a standby it is replaced; without one a warm reset begins (R396).  A watchdog fault
ends a trial (R409). -/
def State.millFault (s : State) (code : Nat) : State :=
  if s.mill.faulted then s
  else
    let s := (s.setReg rLastFault code).noteFault s.activeIs0
    let s := if code ≤ 2 then s.trialReverts else s
    if s.standbyReady then { s with mill := { s.mill with faulted := true } }
    else if s.rst.step = 1 then s
    else s.warmReset 0x05

/-- WATCHDOG_EXPIRY (R394). -/
def execWatchdogExpiry (s : State) : Res := .next (s.millFault 1)

/-- CORE_HALT (R394): the core executes nothing further, and the watchdog takes its halt line as an expiry. -/
def execCoreHalt (s : State) : Res := .next ({ s with mill := { s.mill with halted := true } }.millFault 2)

/-- ROOT_OF_TRUST_FATAL (R394). -/
def execRootOfTrustFatal (s : State) : Res := .next (s.millFault 3)

/-- HEARTBEAT_LOSS (R394): the standby has received no heartbeat for 50 ms. -/
def execHeartbeatLoss (s : State) : Res := .next (if s.reg rStandby = 2 then s.millFault 4 else s)

/-- Accesses in progress at a hand-over (R395): a window access returns REFUSED, any other goes unanswered. -/
def State.dropAccesses (s : State) : State :=
  let waits := s.mill.queue ++ s.refusals.filterMap (fun e => match e.2 with
    | .access a => some a
    | _ => none)
  let s := { s with mill := { s.mill with queue := [] }
                    refusals := s.refusals.filter (fun e => match e.2 with
                      | .access _ => false
                      | _ => true) }
  waits.foldl (fun s a =>
    match a.via with
    | .window f irq => s.windowDone f irq (!a.write) false []
    | _ => s) s

/-- The standby takes the active role (R395, R415): epoch ends are forced, slave-port and host-staged loads and a firmware
update are lost, and the time counter runs on in holdover. -/
def State.takeover (s : State) : State :=
  let is0 := s.activeIs0
  let die := if is0 then 63 else 48
  let s := s.dropAccesses
  let s := (((s.setReg rActiveDie die).setReg rStandby 0).bump rHandovers 1).setReg rHandoverTime s.now
  let s := { s with
    mill := { s.mill with faulted := false, halted := false, mirrorSent := 0, mirrorAcked := 0, responses := [] }
    cfg := CfgPort.blank
    clock := { s.clock with syncWait := false, syncKnown := false, delayKnown := false } }
  let s := ((s.setReg rTimeState 3).setReg rFwStatus 0).setReg rFwOffset 0
  let s := partNums.foldl State.forceEnd s
  let s := (List.range 48).foldl (fun s c => State.abandonLoads c (fun l => l.path == 3) (s.brim c).loads.length s) s
  ((s.emit .announce).raise 0x0101 (some die)).afterFault is0

/-- The faulted milliner has rebooted and copies the mirror as the standby (R396); erases it had running are incomplete (R410). -/
def execMillinerRebootDone (s : State) : Res :=
  .next (
    if s.mill.rebooting then
      ({ s with mill := { s.mill with rebooting := false } }.modOtherFlash Flash.booted).setReg rStandby 1
    else s)

/-- STANDBY_READY (R396): the mirror is copied. -/
def execStandbyReady (s : State) : Res := .next (if s.reg rStandby = 1 then s.setReg rStandby 2 else s)

/-! ### MCTP control (R403) -/

/-- The key of an MCTP binding. -/
def bindingKey (b : Binding) : Nat :=
  match b with
  | .smbus => 0
  | .i3c => 1
  | .vdm p => 2 + p.val

/-- The endpoint answers on a binding: the milliner serves, and PF 0 of a VDM binding's port answers. -/
def State.mctpServes (s : State) (b : Binding) : Bool :=
  s.millServes && (match b with
    | .vdm p => s.portOpen p.val
    | _ => true)

/-- An MCTP control response: command code, completion code 0, and its fields (DSP0236; log 50). -/
def State.mctpAnswer (s : State) (b : Binding) (cmd : Nat) (body : List Byte) : State :=
  if s.mctpServes b then s.emit (.mctp b (leBytes 1 0x00 ++ leBytes 1 cmd ++ leBytes 1 0 ++ body)) else s

/-- The endpoint identifier of a binding, 0 until it is set. -/
def State.eid (s : State) (b : Binding) : Nat := sget (fun _ => 0) s.mill.eids (bindingKey b)

/-- SET_ENDPOINT_ID (R403). -/
def execSetEndpointId (b : Binding) (eid : Byte) (s : State) : Res :=
  .next (
    if s.mctpServes b then
      { s with mill := { s.mill with eids := sput (fun _ => 0) s.mill.eids (bindingKey b) eid.toNat } }.mctpAnswer b 0x01
        [0, eid, 0]
    else s)

/-- GET_ENDPOINT_ID (R403). -/
def execGetEndpointId (b : Binding) (s : State) : Res := .next (s.mctpAnswer b 0x02 (leBytes 1 (s.eid b) ++ [0, 0]))

/-- GET_MCTP_VERSION_SUPPORT (R403): the spec names no version; the answer gives a free value (log 50). -/
def execGetMctpVersionSupport (b : Binding) (s : State) : Res :=
  .next (if s.mctpServes b then (s.mctpAnswer b 0x04 (leBytes 1 1 ++ leBytes 4 (Config.freeNat 32 s.drawn))).draw else s)

/-- GET_MESSAGE_TYPE_SUPPORT (R257, R403): SPDM 0x05, secured messages 0x06 and dictionary messages 0x7F. -/
def execGetMessageTypeSupport (b : Binding) (s : State) : Res := .next (s.mctpAnswer b 0x05 [3, 0x05, 0x06, 0x7F])

/-- GET_VENDOR_DEFINED_MESSAGE_SUPPORT (R403): one set, selector 0, named by the IANA enterprise number. -/
def execGetVendorDefinedMessageSupport (b : Binding) (selector : Byte) (s : State) : Res :=
  let body := if selector = 0 then [0xFF, 1] ++ leBytes 4 (s.reg (key 0x1060 8)) else [0xFF]
  .next (s.mctpAnswer b 0x06 body)

/-! ### Serial ports and the network (R413, R417) -/

/-- XFER_CTRL (R413, R417): a transfer on the bus selected starts; refused while one runs, or beyond 64 bytes either way. -/
def State.startXfer (s : State) (v : Nat) : Option State :=
  let tx := bits v 6 0
  let rx := bits v 14 8
  if s.reg (key 0x1060 6) = 1 ∨ 64 < tx ∨ 64 < rx then none
  else some ((s.setReg (key 0x1060 6) 1).emit (.xfer (s.reg (key 0x1060 2)) ((leBytes 64 (s.reg (key 0x1060 3))).take tx) rx))

/-- XFER_DONE (R413, R417). -/
def execXferDone (nack : Bool) (rx : BitVec 512) (s : State) : Res :=
  .next (
    if s.reg (key 0x1060 6) ≠ 1 then s
    else if nack && bit (s.reg (key 0x1060 2)) 15 then s.setReg (key 0x1060 6) 3
    else (s.setReg (key 0x1060 5) rx.toNat).setReg (key 0x1060 6) 2)

/-- DHCPV4_LEASE (R417): a lease is taken, or lost, while IP_ADDR is all zero and DHCP_ENABLE 1. -/
def execDhcpv4Lease (lease : Option (W32 × Byte × W32)) (s : State) : Res :=
  let l := lease.map (fun e => (e.1.toNat, e.2.1.toNat, e.2.2.toNat))
  .next (
    if s.millServes && s.reg (key 0x1050 2) == 0 && s.reg (key 0x1050 5) == 1 then { s with mill := { s.mill with lease := l } }
    else s)

end Sys2Proof.Machine
end

