-- ==== Sys2Proof/Machine/Service.lean ====
section
/-! DEFINITION. A die leaves service (R200, R246, R247, R374, R423), and the regulator readings that may bring it about
(R364, R376). -/

namespace Sys2Proof.Machine

/-! ### A crown die (R246) -/

/-- The streams of a part on a lost die are over: what had not arrived reads as poisoned (R196, R246). -/
def Cmd.loseStreams (c : Cmd) (die : Nat) : Cmd :=
  let lost := c.streams.filter (fun x => x.die == die && !x.over)
  let c := lost.foldl (fun c x =>
    if x.id % 8 < 4 then c.modEnd x.id (fun e => { e with bad := e.bad ++ x.moves.map (fun m => (m.2.1, m.2.2)) }) else c) c
  let stop (x : Stream) : Stream := { x with issued := x.moves.length, came := List.range x.moves.length }
  let c := { c with streams := updWhere (fun x => x.die == die) stop c.streams }
  (lost.map Stream.id).foldl Cmd.settleEnd c

/-- A command with a part on a lost die (R246): the part fails under R196, with POISONED_DATA or WRITE_ERROR as its transaction
that is lost reads or writes; which of them is lost is a free choice. -/
def Cmd.losePart (c : Cmd) (die : Nat) (reads : Bool) : Cmd :=
  if c.phase != .issued && c.phase != .computed then c
  else if !(c.parts ++ c.replays).any (fun x => x.die == die) then c
  else
    let code := if c.phase == .issued && reads then 0x20 else 0x21
    let c := if c.parts.any (fun x => x.die == die && (c.phase == .issued || c.openPart x)) then c.fail die code 0x3FF else c
    let c := { c with samples := c.samples.filter (fun x => x.tile / 8 != die && x.check / 8 != die) }
    c.loseStreams die

/-- Comparisons that a lost die leaves without their second digest count as unchecked (R230). -/
def Cmd.lostSamples (c : Cmd) (die : Nat) : Nat := c.samples.countP (fun x => x.tile / 8 == die || x.check / 8 == die)

/-- What a partition loses with one of its crown dies (R246): parts in flight, copies, migrations, work. -/
def State.loseDie (s : State) (p c : Nat) : State :=
  let reads := Config.freeBool s.drawn
  let n := sumL ((s.prn p).runs.map (fun r => sumL (r.cmds.map (fun x => x.lostSamples c))))
  let touches (g : Migration) : Bool := g.src == c || g.dst == c
  let gone := (s.prn p).migs.countP touches
  let lose (r : Run) : Run := { r with cmds := r.cmds.map (fun x => x.losePart c reads) }
  let drop (r : PartRun) : PartRun :=
    let runs := r.runs.map lose
    let migs := r.migs.filter (fun g => !touches g)
    let copies := r.copies.filter (fun x => x.die != c)
    { r with runs := runs, migs := migs, copies := copies }
  let s := s.draw.modPr p drop
  ((s.bump (rRel p 0x12) n).bump (rBlk p 0x17) gone).countCopies p

/-- A crown die leaves service. -/
def State.loseCrown (s : State) (c : Nat) : State :=
  let s := (s.dieOwner c).elim s (fun p => s.loseDie p c)
  let works := s.works.filter (fun w => w.die != c)
  let arrays := sclear (fun k => k / 8 == c) s.arrays
  let tests := s.tests.filter (fun e => e.1 / 8 != c)
  let s := { s with works := works, arrays := arrays, tests := tests }
  (s.clearBrim c).modDp c (fun x => { x with trip := none })

/-! ### A port die (R247) -/

/-- A stack is lost with its contents: STATE reads 2, and nothing that waits at its channels is served. -/
def State.loseStack (s : State) (m : Nat) : State :=
  let s := (s.setReg (rStack m 1) 2).setReg (rMigRank m) 0xFFFF
  let hbm := sclear (fun k => k / 2 ^ 40 == m) s.hbm
  let poison := s.poison.filter (fun k => k / 2 ^ 40 != m)
  let channels := sclear (fun k => k / 32 == m) s.channels
  let waiting := s.waiting.filter (fun w => match w.point with
    | .channel x _ => x.val != m
    | _ => true)
  { s with hbm := hbm, poison := poison, channels := channels, waiting := waiting }

/-- A host port is lost with its die: its functions are reset and it answers no more. -/
def State.losePort (s : State) (n : Fin 4) : State :=
  let s := s.hotReset n
  s.setPort n.val { s.port n.val with released := false }

/-- The milliner of a lost die (R247): the active one is replaced, a standby is gone. -/
def State.loseMilliner (s : State) (die : Nat) : State :=
  let s := if die = 48 then { s with mill := { s.mill with out0 := true } } else { s with mill := { s.mill with out15 := true } }
  if s.reg rActiveDie = die then s.millFault 4 else (s.setReg rStandby 0)

/-- A port die leaves service. -/
def State.loseDieP (s : State) (q : Nat) : State :=
  let s := (s.loseStack (2 * q)).loseStack (2 * q + 1)
  let s := s.groupDown q
  let s := (List.range 64).foldl (fun s l => s.laneTo q l lnOff) s
  let s := (s.setReg (rLane q 3) 0).setReg (rLane q 4) 0
  let s := ((List.finRange 4).filter (fun n => hostPortDie n.val == 48 + q)).foldl State.losePort s
  if q = 0 ∨ q = 15 then s.loseMilliner (48 + q) else s

/-- A packet waits at a switch of a die. -/
def Waiting.atDie (w : Waiting) (n : Nat) : Bool :=
  match w.point with
  | .inject d _ => d.val == n
  | _ => false

/-- Packets that a die's failure loses (R200): those in its switches, and of those under way past it the ones that reach it before
the turnarounds close, which a free choice tells. -/
def State.losePackets (s : State) (n : Nat) : State :=
  let s := (s.waiting.filter (fun w => w.atDie n)).foldl (fun s w => s.losePacket (s.packetOf w).1) s
  let hit (i : Nat) : Bool := (Config.freeByte s.drawn i).toNat % 2 == 1
  let xacts := s.xacts.mapIdx (fun i x => if x.path.contains n && hit (2 * i) then { x with lost := true } else x)
  let resps := ((s.resps.mapIdx (fun i r => (i, r))).filter (fun e => !(e.2.sent && e.2.path.contains n && hit (2 * e.1 + 1)))).map (·.2)
  { s with xacts := xacts, resps := resps }.draw

/-- A die leaves service (R200): every switch's live map drops it, and what waits in its switches is lost. -/
def State.leaves (s : State) (n : Nat) : State :=
  if !s.live n then s
  else
    let s := (s.losePackets n).modSwitch n (fun x => { x with dead := true, holds := [], listed := [] })
    let waiting := s.waiting.filter (fun w => !w.atDie n)
    let xacts := s.xacts.filter (fun x => x.die != n)
    let resps := s.resps.filter (fun r => pkDstDie r.header != n)
    let s := { s with waiting := waiting, xacts := xacts, resps := resps }
    let s := if n < 48 then s.loseCrown n else s.loseDieP (n - 48)
    s.refreshDomains n

/-- DIE_LEAVES_SERVICE (R200, R246, R247). -/
def execDieLeavesService (die : DieN) (s : State) : Res := .next (s.leaves die.val)

/-- TRIP_TIMEOUT (R374): 10 ms after its trip the die still reads 115 °C or above; its domains are off. -/
def execTripTimeout (die : DieC) (s : State) : Res :=
  let c := die.val
  .next (
    match (s.dp c).trip with
    | none => s
    | some t => (s.reach (t + 10000000)).leaves c)

/-! ### Regulator readings (R364, R376, R423) -/

/-- REGULATOR_READ (R364, R376, R423): every 1 ms the rails' voltage and current; `energy` is the die's and, on a port die, its
stacks' energy in nJ since the last reading, and `served` the units served for each partition.  A crown die's own energy is
counted in each interval of 100 ns.  A VDD_C below 0.50 V takes the die out of service (log 51). -/
def execRegulatorRead (die : DieN) (mv da : BitVec 16) (energy : W32) (served : List (PartN × W32)) (s : State) : Res :=
  let n := die.val
  .next (
    if n < 48 then
      let s := (s.setReg (rDiePow n 2) mv.toNat).setReg (rDiePow n 3) da.toNat
      if mv.toNat < 500 ∧ s.live n = true ∧ s.rst.step = 0 then (s.bump (rDiePow n 9) 1).leaves n else s
    else
      let tot := sumL (served.map (fun e => e.2.toNat))
      let s := s.modDp n (fun x => { x with energy := x.energy + energy.toNat })
      let s := (s.setReg (rDiePow n 0xA) ((s.dp n).energy / 1000)).spendPackage energy.toNat
      if tot = 0 then s
      else served.foldl (fun s e => s.spend (some (e.1.val + 1)) (energy.toNat * e.2.toNat / tot)) s)

end Sys2Proof.Machine
end

