-- ==== Sys2Proof/Machine/Dictionary.lean ====
section
/-! DEFINITION. The dictionary engine (R397–R400): roles, rights, what a read gives and what a write does.  One engine serves
every transport, one access at a time, in order of arrival. -/

namespace Sys2Proof.Machine

/-! ### Roles and rights (R254, R398, R404) -/

/-- The role that an access carries; `nobody` where its transport grants none. -/
inductive Role where
  | operator
  | owner (p : Nat)
  | vendor
  | nobody
  deriving DecidableEq, Repr

/-- The role of a transport (R352, R398, R404). -/
def State.roleOf (s : State) (via : Transport) : Role :=
  match via with
  | .udp _ => .operator
  | .mctp _ => if s.reg (key 0x1070 5) = 1 then .operator else .nobody
  | .session id => ((s.session id).bind Session.tdi).elim .nobody Role.owner
  | .window f _ =>
    if f.vf = 0 then (if s.reg (rPort f.port.val 1) = 1 then .operator else .nobody)
    else (s.partOf f).elim .nobody Role.owner
  | .uart => if s.mill.vendor then .vendor else if s.reg (key 0x1070 6) = 1 then .operator else .nobody

/-- The partition that an index belongs to: by number, by the die's owner, or by the monitor's place (R416). -/
def State.indexOwner (s : State) (idx : Nat) : Option Nat :=
  let hi := idx / 256
  let lo := idx % 256
  if 0x51 ≤ hi ∧ hi ≤ 0x5B then some lo
  else if hi = 0x64 then some (lo / 8 + 1)
  else if 0x62 ≤ hi ∧ hi ≤ 0x6C ∧ lo < 48 then s.dieOwner lo
  else none

/-- A partition is a member of the replica or collective group at an index (R250, R418). -/
def State.memberAt (s : State) (p idx : Nat) : Bool :=
  if idx / 16 = 0x280 then (s.selfMember (idx % 16) p).isSome
  else (s.replicaMembers (idx % 16)).any (fun m => m.2.1 == s.reg (key 0x2500 1) && m.2.2.1 == p)

/-- An entry MEMBER0–MEMBER15 names a partition of this package (R418). -/
def State.namesSelf (s : State) (p k : Nat) : Bool :=
  let v := s.reg k
  bit v 7 && b2n (bit v 6) == s.reg (key 0x2500 1) && bits v 4 0 == p

/-- Whether a role has a right at an entry (R398). -/
def State.allowed (s : State) (via : Transport) (role : Role) (w : Who) (k : Nat) : Bool :=
  let own (f : Nat → Bool) : Bool :=
    match role with
    | .owner p => f p
    | _ => false
  match w with
  | .nobody => false
  | .everyone => role != .nobody
  | .operator => role == .operator
  | .owner => own (fun p => s.indexOwner (k / 256) == some p)
  | .opOwner => role == .operator || own (fun p => s.indexOwner (k / 256) == some p)
  | .opMember => role == .operator || own (fun p => s.memberAt p (k / 256))
  | .opSelfMember => role == .operator || own (fun p => s.namesSelf p k)
  | .opLane =>
    let g := k / 256 - 0x2510
    role == .operator || own (fun p => s.laneUse g == 2 && s.dieOwner (laneDie g) == some p)
  | .opAnyOwner => role == .operator || own (fun _ => true)
  | .vendor => role == .vendor
  | .uartAny => (match via with
    | .uart => true
    | _ => false)

/-! ### Reads -/

/-- The reserved bits of an entry, which read as undefined (R2): of DIES and HOST_FN of a partition, and of a remap entry. -/
def reservedIn (k : Nat) : Nat :=
  let idx := k / 256
  let sub := k % 256
  if idx / 256 = 0x51 ∧ sub = 4 then 2 ^ 64 - 2 ^ 48
  else if idx / 256 = 0x51 ∧ sub = 5 then 2 ^ 16 - 2 ^ 10 + (2 ^ 8 - 2 ^ 5)
  else if idx / 256 = 0x67 ∧ 0x10 ≤ sub ∧ sub ≤ 0x17 then 2 ^ 7
  else 0

/-- What a read gives beside its register: the entries that are made at the read. -/
def State.readValue (s : State) (role : Role) (k : Nat) : Option (State × Nat) :=
  let idx := k / 256
  let sub := k % 256
  if k = key 0x1030 1 then some (s, s.now)
  else if k = key 0x1070 4 then some (s, (match role with
    | .owner p => p
    | _ => 0))
  else if k = key 0x1070 7 then
    let v := Config.freeNat 256 s.drawn % 2 ^ 256
    some ({ s.draw with mill := { s.mill with challenge := v } }, v)
  else if k = key 0x1080 3 then
    (s.mill.events.find? (fun e => e.seq == s.reg (key 0x1080 2))).map (fun e => (s, leNat e.bytes))
  else if idx / 16 = 0x280 ∧ sub = 2 then some (s, (s.members (idx % 16)).length)
  else if idx / 16 = 0x280 ∧ sub = 3 then some (s, (match role with
    | .owner p => (s.selfMember (idx % 16) p).getD 0xFF
    | _ => 0xFF))
  else if idx / 256 = 0x69 ∧ 0x11 ≤ sub ∧ sub ≤ 0x18 then
    some (s, min 255 (s.mismatchCount (idx % 256 * 8 + (sub - 0x11))))
  else if 0x6C30 ≤ idx ∧ idx ≤ 0x6C3F ∧ sub = 1 then some (s, 0)
  else if reservedIn k ≠ 0 then
    let v := s.reg k
    some (s.draw, v - (v &&& reservedIn k) + (Config.freeNat 64 s.drawn &&& reservedIn k))
  else some (s, s.reg k)

/-- A read of the engine: the state after it and the value, or none where it is refused (R397–R399). -/
def State.readEntry (s : State) (via : Transport) (role : Role) (k : Nat) : Option (State × List Byte) :=
  let idx := k / 256
  if k % 256 = 0 then
    if (rowsOf idx).any (fun r => s.allowed via role r.rd (key idx r.lo)) then some (s, leBytes 1 (highestSub idx)) else none
  else
    match rowOf k with
    | none => none
    | some r =>
      if r.acc == .wo || !s.allowed via role r.rd k then none
      else (s.readValue role k).map (fun e => (e.1, leBytes r.len e.2))

/-! ### Writes -/

/-- The entries that a locked TDI protects (R259). -/
def lockedEntry (k : Nat) : Bool :=
  let hi := k / 65536
  let sub := k % 256
  let named := (hi == 0x56 && (decide (1 ≤ sub ∧ sub ≤ 0x10) || sub == 0x21 || sub == 0x22)) || (hi == 0x58 && (sub == 2 || sub == 3))
    || (hi == 0x55 && (sub == 1 || sub == 8)) || (hi == 0x52 && sub == 1)
  named && (rowOf k).isSome

/-- Writes that start a partition, lane or configuration action, which a held warm reset refuses (R387). -/
def startsAction (k : Nat) : Bool :=
  let hi := k / 65536
  let sub := k % 256
  (hi == 0x51 && sub == 2) || (k / 4096 == 0x251 && (sub == 1 || sub == 8)) || (hi == 0x6B && sub == 3)

/-- The writes that update firmware, which alone are accepted while no image runs (R409). -/
def updatesFirmware (k : Nat) : Bool := k == key 0x1040 4 || k == key 0x1040 5 || k == key 0x1040 6

/-- A plain write: the register takes the value, and a flash setting goes to the journal (R400). -/
def State.store (s : State) (k v : Nat) : State := (s.setReg k v).persist k

/-- A power of two from 16 to 4,096. -/
def lateSize (v : Nat) : Bool := v == 0 || (List.range 9).any (fun i => v == 16 * 2 ^ i)

/-- A write of index 0x1000–0x1080 (R388, R396, R404, R409, R413, R417); none where it is refused. -/
def State.writeControl (s : State) (via : Transport) (k v : Nat) : Option State :=
  if k = key 0x1010 4 then some { s with rst := { s.rst with due := some (s.now + 100000) } }
  else if k = key 0x1020 6 then if s.reg rStandby = 2 then some (s.setReg rLastFault 5) else none
  else if k = key 0x1040 4 then
    if s.reg rFwStatus = 1 then none
    else some (if v = 1 then s.fwErase else if v = 2 then s.fwVerify else if v = 3 then s.fwActivate else s.fwConfirm)
  else if k = rFwOffset then if v % 64 = 0 then some (s.setReg k v) else none
  else if k = key 0x1040 6 then if s.fwDataOk then some (s.fwData v) else none
  else if k = key 0x1060 4 then s.startXfer v
  else if k = key 0x1070 1 then (match via with
    | .udp _ => none
    | _ => some (s.store k (v + 2 ^ 256)))
  else if k = key 0x1070 9 then
    let ok := Config.vendorSigOk s.mill.challenge Config.serial (s.reg (key 0x1070 8)) v
    some { s.setReg k v with mill := { s.mill with vendor := s.mill.vendor || ok } }
  else if k = key 0x1070 0xA then some { s with mill := { s.mill with unlockNext := v == 1 } }
  else some (s.store k v)

/-- A write of a package setting (R205, R224, R250, R326, R337, R340). -/
def State.writePackage (s : State) (k v : Nat) : Option State :=
  let idx := k / 256
  let sub := k % 256
  if k = key 0x2200 1 then
    if (List.range 32).any (fun m => decide (v < (s.stack m).used)) then none else some (s.store k v)
  else if idx / 16 = 0x232 then
    some ((s.store k v).clearRegs (fun j => j / 256 == idx && decide (0x20 ≤ j % 256 ∧ j % 256 ≤ 0x33)))
  else if idx / 16 = 0x251 ∧ sub = 1 then some ((s.useLanes (idx % 16) v).persist k)
  else if idx / 16 = 0x251 ∧ sub = 8 then some (s.injectBits (idx % 16) v)
  else some (s.store k v)

/-- A write of COMMAND (R255, R267): create or tear down; a refused create shows its reason in CREATE_DETAIL. -/
def State.writeCommand (s : State) (p v : Nat) : State × Bool :=
  if v = 2 then (s.endEpoch p 1, true)
  else if s.reg (rState p) ≠ 0 then (s, false)
  else
    let d := s.createDetail p
    if d ≠ 0 then (s.setReg (rPart p 3) d, false) else (s.createPartition p, true)

/-- The sum of the three shares of a partition's arbitration when entry `k` is written with `v` (R149). -/
def State.shareSum (s : State) (p k v : Nat) : Nat := sumL ([2, 3, 4].map (fun i => if rArb p i = k then v else s.reg (rArb p i)))

/-- The sum of the partitions' floors when entry `k` is written with `v` (R368). -/
def State.floorSum (s : State) (k v : Nat) : Nat := sumL (partNums.map (fun p => if rPow p 1 = k then v else s.reg (rPow p 1)))

/-- A write of a partition entry but COMMAND, index 0x5101–0x5B10; none where it is refused. -/
def State.writePart (s : State) (k v : Nat) : Option State :=
  let p := k / 256 % 256
  let hi := k / 65536
  let sub := k % 256
  if hi = 0x51 then if s.reg (rState p) = 0 then some (s.store k v) else none
  else if hi = 0x54 ∧ 2 ≤ sub ∧ sub ≤ 4 then if s.shareSum p k v = 256 then some (s.store k v) else none
  else if hi = 0x55 then
    let s := s.store k v
    some (if sub = 8 then s.trimCopies p else if sub = 5 ∧ v = 0 then s.levelWeights p else s)
  else if hi = 0x56 ∧ sub ≤ 0x10 then if (s.resvTry p (sub - 1) v).isSome then some (s.resvWrite p (sub - 1) v) else none
  else if hi = 0x56 ∧ sub = 0x24 then if v % 64 = 0 then some (s.store k v) else none
  else if hi = 0x56 ∧ sub = 0x25 then if lateSize v then some (s.store k v) else none
  else if hi = 0x57 then
    let grain := if sub = 1 then v else s.reg (rPmem p 1)
    let inter := if sub = 2 then v else s.reg (rPmem p 2)
    if (s.prn p).used || (inter == 1 && decide (grain < 4)) then none else some ((s.store k v).sizeHbm p)
  else if hi = 0x58 ∧ sub = 1 then if (s.prn p).used then none else some ((s.store k v).sizeHbm p)
  else if hi = 0x58 ∧ sub = 4 then if v % 512 = 0 then some (s.store k v) else none
  else if hi = 0x5A ∧ sub = 1 then if s.floorSum k v + 1500 ≤ s.reg (rPkg 1) then some (s.store k v) else none
  else if hi = 0x5A ∧ sub = 3 then if v % 25 = 0 ∧ v ≤ Config.gradeLimit then some (s.store k v) else none
  else some (s.store k v)

/-- A write of a monitor or die entry (R142, R234, R311, R380); none where it is refused. -/
def State.writeDie (s : State) (k v : Nat) : Option State :=
  let idx := k / 256
  let hi := k / 65536
  let c := idx % 256
  let sub := k % 256
  if hi = 0x64 then some ((s.clearRegs (fun j => j / 256 == idx && decide (2 ≤ j % 256))).setReg k v)
  else if hi = 0x69 then if s.reg k = 2 then some (s.orderTest (c * 8 + (sub - 1))) else none
  else if hi = 0x6B ∧ sub = 3 then
    if s.reg (rLoad c 4) = 1 || !s.mayLoad c 2 then none else some (s.queueLoad c 2)
  else if hi = 0x6C then if c < 48 then some (s.store k v) else none
  else some (s.store k v)

/-- A write that has passed the engine's checks: the state after it, and whether it is done or refused. -/
def State.applyWrite (s : State) (via : Transport) (k v : Nat) : State × Bool :=
  let idx := k / 256
  if idx / 256 = 0x51 ∧ k % 256 = 2 then s.writeCommand (idx % 256) v
  else
    let r := if idx < 0x2000 then s.writeControl via k v else if idx < 0x5000 then s.writePackage k v
      else if idx < 0x6000 then s.writePart k v else s.writeDie k v
    match r with
    | some t => (t, true)
    | none => (s, false)

/-- A value lies in an entry's stated range (R399). -/
def inRanges (l : List (Nat × Nat)) (v : Nat) : Bool := l == [] || l.any (fun r => decide (r.1 ≤ v ∧ v ≤ r.2))

/-- A write of the engine (R397–R399): rights, length, range, and the entry's own rules; an attempt to change a locked entry
moves the TDI to ERROR (R261). -/
def State.writeEntry (s : State) (via : Transport) (role : Role) (k : Nat) (bs : List Byte) : State × Bool :=
  let p := k / 256 % 256
  if lockedEntry k && s.reg (rTdi p) != 0 && (role == .operator || role == .owner p) then (s.toError p, false)
  else
    match rowOf k with
    | none => (s, false)
    | some r =>
      let v := leNat bs
      if r.acc == .ro || !s.allowed via role r.wr k || bs.length != r.len || !inRanges r.ranges v then (s, false)
      else if s.rst.held && startsAction k then (s, false)
      else if s.mill.noImage && !updatesFirmware k then (s, false)
      else s.applyWrite via k v

/-! ### The engine (R393, R399) -/

/-- What an access does: the state after it, and its value when it is done.  A held warm reset refuses the owner role (R387). -/
def State.perform (s : State) (a : Access) : State × Option (List Byte) :=
  let role := s.roleOf a.via
  let owner : Bool := match role with
    | .owner _ => true
    | _ => false
  if s.rst.held && owner then (s, none)
  else if a.write then
    let r := s.writeEntry a.via role a.entry a.value
    (r.1, if r.2 then some a.value else none)
  else
    match s.readEntry a.via role a.entry with
    | some r => (r.1, some r.2)
    | none => (s, none)

/-- Carry out an access that has waited and answer it; a refused one is answered 20 µs after it was received (R5, R272).  The write of HANDOVER is answered before
the roles change (R396, R399). -/
def State.serve (s : State) (a : Access) : State :=
  match s.perform a with
  | (t, none) => t.refuseAt a (a.at_ + 20000)
  | (t, some v) =>
    let u := t.answer a true v
    if a.write && a.entry == key 0x1020 6 then u.takeover else u

/-- An access enters the engine: a write whose effect is mirrored waits for the standby while STANDBY_STATE reads 2, and what
arrives behind it waits its turn; a refused access waits for nothing (R272, R393, R399). -/
def State.engine (s : State) (a : Access) : State :=
  match s.perform a with
  | (t, none) => t.refuse a
  | (_, some _) =>
    if s.mill.queue == [] && !(a.write && s.reg rStandby == 2) then s.serve a
    else
      let wait := a.write && s.reg rStandby == 2
      let m := { s.mill with queue := s.mill.queue ++ [{ a with acked := !wait, at_ := s.now }] }
      { s with mill := if wait then { m with mirrorSent := m.mirrorSent + 1 } else m }

/-- Serve the accesses at the head of the queue that wait for no acknowledgement; `all` serves every one. -/
def State.drainFrom (all : Bool) : List Access → State → State
  | [], s => s
  | a :: rest, s =>
    if all || a.acked then State.drainFrom all rest ({ s with mill := { s.mill with queue := rest } }.serve a) else s
def State.drain (s : State) (all : Bool) : State := State.drainFrom all s.mill.queue s

/-- Whether an access's transport reaches the engine: the milliner runs, and the transport's own conditions hold (R352, R386,
R387, R402, R403, R409). -/
def State.transportOpen (s : State) (via : Transport) : Bool :=
  s.millRuns && (match via with
    | .udp c => !s.mill.noImage && s.operatorKeySet && decide (s.reg (key 0x1070 2) < c)
    | .mctp b => s.mctpServes b
    | .session id => !s.mill.noImage && (s.session id).any Session.secured
    | .window f _ => !s.mill.noImage && (if f.vf = 0 then s.portOpen f.port.val else s.vfAnswers f) && !(s.fn f).busy
    | .uart => true)

/-- What its transport does with an access before the engine sees it: UDP takes the counter, with `tag` that of the request
(R402), a session is dated, and a window turns busy with the value in DATA (R352). -/
def State.taken' (s : State) (a : Access) (tag : Nat) : State :=
  match a.via with
  | .udp c =>
    let s := s.setReg (key 0x1070 2) c
    { s with mill := { s.mill with responses := ((c, tag, []) :: s.mill.responses).take 16 } }
  | .session id => s.modSession id (fun x => x)
  | .window f _ =>
    let put (x : FnState) : FnState := { x with busy := true, data := if a.write then leNat a.value else x.data }
    s.modFn f put
  | _ => s

/-- An access arrives. -/
def State.enter (s : State) (a : Access) (tag : Nat) : State :=
  if s.transportOpen a.via then (s.taken' a tag).engine a else s

/-- The tag of an access whose datagram the command does not give: no request can match it. -/
def noTag : Nat := 2 ^ 128

/-- A write of an entry over a transport, and a read. -/
def State.write (s : State) (via : Transport) (k len v : Nat) : State := s.enter ⟨via, true, k, leBytes len v, false, 0⟩ noTag
def State.read (s : State) (via : Transport) (k : Nat) : State := s.enter ⟨via, false, k, [], false, 0⟩ noTag

/-! ### The rows that are writes of one entry -/

/-- DICT_WRITE (R399). -/
def execDictWrite (via : Transport) (entry : BitVec 24) (value : List Byte) (s : State) : Res :=
  .next (s.enter ⟨via, true, entry.toNat, value, false, 0⟩ noTag)

/-- RESV_WRITE (R190). -/
def execResvWrite (via : Transport) (p : PartN) (entry : Fin 16) (v : W32) (s : State) : Res :=
  .next (s.write via (rBand (p.val + 1) (1 + entry.val)) 4 v.toNat)

/-- TILE_STATE (R252): a write of 0. -/
def execTileState (via : Transport) (die : DieC) (tile : TileN) (s : State) : Res :=
  .next (s.write via (rTileState die.val tile.val) 1 0)

/-- QID (R142). -/
def execQid (via : Transport) (mon : Fin 128) (v : BitVec 16) (s : State) : Res :=
  .next (s.write via (key (0x6400 + mon.val) 1) 2 v.toNat)

/-- PARTITION_CREATE (R255): a write of 1 to COMMAND. -/
def execPartitionCreate (via : Transport) (p : PartN) (s : State) : Res := .next (s.write via (rPart (p.val + 1) 2) 1 1)

/-- TEARDOWN (R267): a write of 2 to COMMAND. -/
def execTeardown (via : Transport) (p : PartN) (s : State) : Res := .next (s.write via (rPart (p.val + 1) 2) 1 2)

/-- LOAD_COMMAND (R311). -/
def execLoadCommand (via : Transport) (die : DieC) (v : Byte) (s : State) : Res :=
  .next (s.write via (rLoad die.val 3) 1 v.toNat)

/-- LANE_USE (R326). -/
def execLaneUse (via : Transport) (g : GroupN) (v : Byte) (s : State) : Res := .next (s.write via (rLane g.val 1) 1 v.toNat)

/-- INJECT (R337). -/
def execInject (via : Transport) (g : GroupN) (v : W64) (s : State) : Res := .next (s.write via (rLane g.val 8) 8 v.toNat)

/-- WARM_RESET (R388). -/
def execWarmReset (via : Transport) (v : BitVec 16) (s : State) : Res := .next (s.write via (key 0x1010 4) 2 v.toNat)

/-- HANDOVER (R396). -/
def execHandover (via : Transport) (v : BitVec 16) (s : State) : Res := .next (s.write via (key 0x1020 6) 2 v.toNat)

/-- OPERATOR_KEY (R404). -/
def execOperatorKey (via : Transport) (key' : BitVec 256) (s : State) : Res :=
  .next (s.write via (key 0x1070 1) 32 key'.toNat)

/-- VENDOR_CHALLENGE (R404): a read. -/
def execVendorChallenge (via : Transport) (s : State) : Res := .next (s.read via (key 0x1070 7))

/-- VENDOR_RESPONSE_HI (R404). -/
def execVendorResponseHi (via : Transport) (sig : BitVec 384) (s : State) : Res :=
  .next (s.write via (key 0x1070 9) 48 sig.toNat)

/-- DEBUG_UNLOCK (R404). -/
def execDebugUnlock (via : Transport) (v : Bool) (s : State) : Res := .next (s.write via (key 0x1070 0xA) 1 (b2n v))

/-- FW_ERASE (R409): FW_COMMAND 1. -/
def execFwErase (via : Transport) (s : State) : Res := .next (s.write via (key 0x1040 4) 1 1)

/-- FW_DATA (R409). -/
def execFwData (via : Transport) (data : BitVec 512) (s : State) : Res := .next (s.write via (key 0x1040 6) 64 data.toNat)

/-- FW_VERIFY (R409): FW_COMMAND 2. -/
def execFwVerify (via : Transport) (s : State) : Res := .next (s.write via (key 0x1040 4) 1 2)

/-- FW_ACTIVATE (R409): FW_COMMAND 3. -/
def execFwActivate (via : Transport) (s : State) : Res := .next (s.write via (key 0x1040 4) 1 3)

/-- FW_CONFIRM (R409): FW_COMMAND 4. -/
def execFwConfirm (via : Transport) (s : State) : Res := .next (s.write via (key 0x1040 4) 1 4)

/-- XFER_CTRL (R413). -/
def execXferCtrl (via : Transport) (v : BitVec 16) (s : State) : Res := .next (s.write via (key 0x1060 4) 2 v.toNat)

end Sys2Proof.Machine
end

