-- ==== Sys2Proof/Machine/Transports.lean ====
section
/-! DEFINITION. The transports of the dictionary (R352, R401–R403, R413): datagrams, MCTP messages, UART frames and windows; the
answers that wait (R5, R272, R393); and the hand-over of the milliner (R395, R415). -/

namespace Sys2Proof.Machine

/-! ### The header of R401 -/

def dgMagic (bs : List Byte) : Nat := leNat (slice bs 0 1)
def dgVersion (bs : List Byte) : Nat := leNat (slice bs 1 1)
def dgOp (bs : List Byte) : Nat := leNat (slice bs 2 1) % 16
def dgEntry (bs : List Byte) : Nat := key (leNat (slice bs 3 2)) (leNat (slice bs 5 1))
def dgLen (bs : List Byte) : Nat := leNat (slice bs 7 1)
def dgCounter (bs : List Byte) : Nat := leNat (slice bs 8 8)
def dgTag (bs : List Byte) : Nat := leNat (slice bs 16 16)

/-- MAGIC and VERSION are right (R401). -/
def dgKnown (bs : List Byte) : Bool := dgMagic bs == 0xD7 && dgVersion bs == 0x01

/-- The access that a header and the value bytes after it ask for; none where OP is neither read nor write, or DATA_LEN does not
give the length of the value. -/
def accessOf (via : Transport) (head value : List Byte) : Option Access :=
  if dgLen head ≠ value.length then none
  else if dgOp head = 1 then some ⟨via, false, dgEntry head, [], false, 0⟩
  else if dgOp head = 2 then some ⟨via, true, dgEntry head, value, false, 0⟩
  else none

/-! ### UDP (R401, R402, R404) -/

/-- The tag of a request is right (R401). -/
def State.tagOk (s : State) (bs : List Byte) : Bool :=
  decide (32 ≤ bs.length ∧ bs.length = 32 + dgLen bs)
    && leNat ((hmacSha256 s.operatorKey (bs.take 16 ++ bs.drop 32)).take 16) == dgTag bs

/-- A datagram arrives: it is discarded while no key is set; one whose MAGIC, VERSION or tag fails counts in AUTH_FAILS; one that
matches a stored response has it sent again; one whose counter does not exceed LAST_COUNTER is discarded (R402, R404). -/
def State.udp (s : State) (bs : List Byte) (op : Nat) : State :=
  if !s.millServes || !s.operatorKeySet || dgOp bs != op then s
  else if !(dgKnown bs && s.tagOk bs) then s.bump (key 0x1070 3) 1
  else
    match s.mill.responses.find? (fun r => r.1 == dgCounter bs && r.2.1 == dgTag bs) with
    | some r => if r.2.2 = [] then s else s.emit (.datagram r.2.2)
    | none =>
      match accessOf (.udp (dgCounter bs)) bs (bs.drop 32) with
      | some a => s.enter a (dgTag bs)
      | none => s

/-- UDP_READ (R401, R402): a datagram with OP 1. -/
def execUdpRead (dgram : List Byte) (s : State) : Res := .next (s.udp dgram 1)

/-- UDP_WRITE (R401, R402): a datagram with OP 2. -/
def execUdpWrite (dgram : List Byte) (s : State) : Res := .next (s.udp dgram 2)

/-! ### MCTP and the UART (R403, R413) -/

/-- MCTP_DICTIONARY_MESSAGE (R403): type 0x7F, the enterprise number, header bytes 0–15 and the value; inside a secured session
it is an access of that session. -/
def execMctpDictionaryMessage (b : Binding) (session : Option Nat) (msg : List Byte) (s : State) : Res :=
  let head := (msg.drop 5).take 16
  let via := session.elim (Transport.mctp b) Transport.session
  .next (
    if !s.mctpServes b || leNat (slice msg 0 1) != 0x7F || leNat (slice msg 1 4) != s.reg (key 0x1060 8) || !dgKnown head then s
    else
      match accessOf via head (msg.drop 21) with
      | some a => s.enter a noTag
      | none => s)

/-- UART_FRAME (R413): a datagram in COBS framing up to its 0x00; its tag and counter are ignored. -/
def execUartFrame (frame : List Byte) (s : State) : Res :=
  let bs := cobsDecode 0 false (frame.takeWhile (fun b => b != 0))
  .next (
    if !dgKnown bs then s
    else
      match accessOf .uart bs (bs.drop 32) with
      | some a => s.enter a noTag
      | none => s)

/-! ### Windows (R352) -/

/-- WINDOW_READ (R352): CMD with operation 1. -/
def execWindowRead (f : Fn) (irq : Bool) (entry : BitVec 24) (s : State) : Res :=
  .next (s.read (.window f irq) entry.toNat)

/-- WINDOW_WRITE (R352): DATA, and CMD with operation 2; the value is as long as the entry's type. -/
def execWindowWrite (f : Fn) (irq : Bool) (entry : BitVec 24) (value : BitVec 512) (s : State) : Res :=
  .next (s.write (.window f irq) entry.toNat ((rowOf entry.toNat).elim 64 Row.len) value.toNat)

/-! ### Answers that wait (R5, R272) -/

/-- What a refusal does when its 20 µs have passed: an access is answered, a request's record written, and a command completed
with its dependants released. -/
def State.refused (s : State) (r : Refused) : State :=
  match r with
  | .access a => s.answer a false []
  | .record f x => (s.partOf f).elim s (fun p => s.writeRecord p x)
  | .loadRefused f x addr result => (s.partOf f).elim s (fun p => (s.writeResult addr result).writeRecord p x)
  | .command c =>
    match s.find c with
    | none => s
    | some f =>
      let s := s.closeOutputs f
      match s.find c with
      | none => s
      | some g => s.completeCmd g

/-- A refusal can be answered: an access only while the milliner runs. -/
def State.refusable (s : State) (r : Refused) : Bool :=
  match r with
  | .access _ => s.millRuns
  | _ => true

/-- REFUSAL_ANSWER (R5, R272): the oldest refusal is answered, 20 µs after what it refuses. -/
def execRefusalAnswer (s : State) : Res :=
  .next (
    match s.refusals.find? (fun e => s.refusable e.2) with
    | none => s
    | some e => ({ s with refusals := s.refusals.erase e }.reach e.1).refused e.2)

/-! ### The mirror (R393, R415) -/

/-- The first access in the queue that the standby has not acknowledged is acknowledged. -/
def acknowledge : List Access → List Access
  | [] => []
  | a :: l => if a.acked then a :: acknowledge l else { a with acked := true } :: l

/-- MIRROR_RECORD (R393): the standby receives and acknowledges the next record. -/
def execMirrorRecord (s : State) : Res :=
  .next (
    if s.reg rStandby = 2 ∧ s.mill.mirrorAcked < s.mill.mirrorSent then
      { s with mill := { s.mill with queue := acknowledge s.mill.queue, mirrorAcked := s.mill.mirrorAcked + 1 } }
    else s)

/-- MIRROR_ACK (R393): the acknowledgement reaches the active milliner, and the accesses it releases are answered. -/
def execMirrorAck (s : State) : Res := .next (if s.millRuns then s.drain false else s)

/-- STANDBY_FAULT (R415): STANDBY_STATE falls to 0 and what waits for an acknowledgement is answered at once; with the active
milliner faulted too, a warm reset begins (R396). -/
def execStandbyFault (s : State) : Res :=
  .next (
    if s.reg rStandby = 0 then s
    else
      let other := !s.activeIs0
      let t := ((s.setReg rStandby 0).noteFault other).afterFault other
      if s.mill.faulted then
        let u := t.dropAccesses
        { u with mill := { u.mill with faulted := false } }.warmReset 0x05
      else t.drain true)

/-- MILLINER_TAKEOVER (R395): the standby applies every record it has acknowledged, answering none, and takes the active role. -/
def execMillinerTakeover (s : State) : Res :=
  .next (
    if s.mill.faulted then
      ((s.mill.queue.filter Access.acked).foldl (fun s a => if a.write then (s.perform a).1 else s) s).takeover
    else s)

end Sys2Proof.Machine
end

