-- ==== Sys2Proof/Machine/Dispatch.lean ====
section
/-! DEFINITION. One arm per command: the direct call of its meaning. -/

namespace Sys2Proof.Machine

def exec (i : Instr) (s : State) : Host.Outcome State Fault Refusal :=
  match i with
  | .refusalAnswer => Sys2Proof.Machine.execRefusalAnswer s
  | .dictWrite via entry value => Sys2Proof.Machine.execDictWrite via entry value s
  | .sqTail f v => Sys2Proof.Machine.execSqTail f v s
  | .cqHead f v => Sys2Proof.Machine.execCqHead f v s
  | .lateQHead f v => Sys2Proof.Machine.execLateQHead f v s
  | .ringEnable f => Sys2Proof.Machine.execRingEnable f s
  | .ringDisable f => Sys2Proof.Machine.execRingDisable f s
  | .submissionFetch f entry => Sys2Proof.Machine.execSubmissionFetch f entry s
  | .fetchError f c => Sys2Proof.Machine.execFetchError f c s
  | .runRequest p bindings => Sys2Proof.Machine.execRunRequest p bindings s
  | .load p c image => Sys2Proof.Machine.execLoad p c image s
  | .unload p => Sys2Proof.Machine.execUnload p s
  | .unloadComplete p => Sys2Proof.Machine.execUnloadComplete p s
  | .commandIssue c logs => Sys2Proof.Machine.execCommandIssue c logs s
  | .skipMarkerPop c => Sys2Proof.Machine.execSkipMarkerPop c s
  | .nop c => Sys2Proof.Machine.execNop c s
  | .ctrSet c => Sys2Proof.Machine.execCtrSet c s
  | .ctrAdd c => Sys2Proof.Machine.execCtrAdd c s
  | .ctrLoad c stalls => Sys2Proof.Machine.execCtrLoad c stalls s
  | .notify c => Sys2Proof.Machine.execNotify c s
  | .move c stalls => Sys2Proof.Machine.execMove c stalls s
  | .slice c stalls => Sys2Proof.Machine.execSlice c stalls s
  | .concat c stalls => Sys2Proof.Machine.execConcat c stalls s
  | .gather c stalls => Sys2Proof.Machine.execGather c stalls s
  | .scatter c stalls => Sys2Proof.Machine.execScatter c stalls s
  | .tee c stalls => Sys2Proof.Machine.execTee c stalls s
  | .fill c stalls => Sys2Proof.Machine.execFill c stalls s
  | .matmul c => Sys2Proof.Machine.execMatmul c s
  | .matmulBatched c => Sys2Proof.Machine.execMatmulBatched c s
  | .vecChain c => Sys2Proof.Machine.execVecChain c s
  | .rowOp c => Sys2Proof.Machine.execRowOp c s
  | .colReduce c => Sys2Proof.Machine.execColReduce c s
  | .laccSum c => Sys2Proof.Machine.execLaccSum c s
  | .allReduce c remote lost odd stalls => Sys2Proof.Machine.execAllReduce c remote lost odd stalls s
  | .allGather c remote lost odd stalls => Sys2Proof.Machine.execAllGather c remote lost odd stalls s
  | .reduceScatter c remote lost odd stalls => Sys2Proof.Machine.execReduceScatter c remote lost odd stalls s
  | .broadcast c remote lost odd stalls => Sys2Proof.Machine.execBroadcast c remote lost odd stalls s
  | .brimStage c ce ue stalls => Sys2Proof.Machine.execBrimStage c ce ue stalls s
  | .fused c ce ue stalls => Sys2Proof.Machine.execFused c ce ue stalls s
  | .commandComplete c => Sys2Proof.Machine.execCommandComplete c s
  | .runComplete p run => Sys2Proof.Machine.execRunComplete p run s
  | .runTimeLimit p run => Sys2Proof.Machine.execRunTimeLimit p run s
  | .waitForSample p => Sys2Proof.Machine.execWaitForSample p s
  | .blockStart die tile late held starved => Sys2Proof.Machine.execBlockStart die tile late held starved s
  | .halfRelease die tile => Sys2Proof.Machine.execHalfRelease die tile s
  | .transferIssue c fin die popped back => Sys2Proof.Machine.execTransferIssue c fin die popped back s
  | .outputWriteIssue c fin die => Sys2Proof.Machine.execOutputWriteIssue c fin die s
  | .rateWindow c fin die popped back late => Sys2Proof.Machine.execRateWindow c fin die popped back late s
  | .arbitrationGrant point down ply ecc => Sys2Proof.Machine.execArbitrationGrant point down ply ecc s
  | .residencyPeriod p => Sys2Proof.Machine.execResidencyPeriod p s
  | .rebalancePeriod p heavy memory => Sys2Proof.Machine.execRebalancePeriod p heavy memory s
  | .migrationReadbackDone p poisoned differ => Sys2Proof.Machine.execMigrationReadbackDone p poisoned differ s
  | .heavyNotice c => Sys2Proof.Machine.execHeavyNotice c s
  | .read header room => Sys2Proof.Machine.execRead header room s
  | .write header data room bad => Sys2Proof.Machine.execWrite header data room bad s
  | .writeInline header room => Sys2Proof.Machine.execWriteInline header room s
  | .writeFf header data room bad => Sys2Proof.Machine.execWriteFf header data room bad s
  | .message header data room bad => Sys2Proof.Machine.execMessage header data room bad s
  | .mcast header data full => Sys2Proof.Machine.execMcast header data full s
  | .readData die eng tag lost => Sys2Proof.Machine.execReadData die eng tag lost s
  | .settle die eng tag => Sys2Proof.Machine.execSettle die eng tag s
  | .headerDiscard switch header ecc => Sys2Proof.Machine.execHeaderDiscard switch header ecc s
  | .starveRequest switch row ply down => Sys2Proof.Machine.execStarveRequest switch row ply down s
  | .starveReceived switch row ply down => Sys2Proof.Machine.execStarveReceived switch row ply down s
  | .xactTimeout die eng tag => Sys2Proof.Machine.execXactTimeout die eng tag s
  | .resvWrite via p entry v => Sys2Proof.Machine.execResvWrite via p entry v s
  | .reservationEffect => Sys2Proof.Machine.execReservationEffect s
  | .dieLeavesService die => Sys2Proof.Machine.execDieLeavesService die s
  | .turnaroundClose die => Sys2Proof.Machine.execTurnaroundClose die s
  | .hbmAccess stack ch err => Sys2Proof.Machine.execHbmAccess stack ch err s
  | .ordinaryRefresh stack rank pseudo bank => Sys2Proof.Machine.execOrdinaryRefresh stack rank pseudo bank s
  | .stackTempRead stack celsius => Sys2Proof.Machine.execStackTempRead stack celsius s
  | .patrolAccess stack err => Sys2Proof.Machine.execPatrolAccess stack err s
  | .cmdParityError stack ch retryFails => Sys2Proof.Machine.execCmdParityError stack ch retryFails s
  | .rankMigrationBlock stack bad spareFails => Sys2Proof.Machine.execRankMigrationBlock stack bad spareFails s
  | .remapFlashCommit stack => Sys2Proof.Machine.execRemapFlashCommit stack s
  | .sramScrub die store wrong copy buf => Sys2Proof.Machine.execSramScrub die store wrong copy buf s
  | .duplicateCompare c unit differ waited => Sys2Proof.Machine.execDuplicateCompare c unit differ waited s
  | .tileTestEnd die tile pass => Sys2Proof.Machine.execTileTestEnd die tile pass s
  | .tileState via die tile => Sys2Proof.Machine.execTileState via die tile s
  | .collectiveTimeLimit c => Sys2Proof.Machine.execCollectiveTimeLimit c s
  | .replayCommit c fails differ copyFails => Sys2Proof.Machine.execReplayCommit c fails differ copyFails s
  | .replicaSample g remote missed => Sys2Proof.Machine.execReplicaSample g remote missed s
  | .mirrorDigests c digests => Sys2Proof.Machine.execMirrorDigests c digests s
  | .mirrorWait c => Sys2Proof.Machine.execMirrorWait c s
  | .partitionCreate via p => Sys2Proof.Machine.execPartitionCreate via p s
  | .partitionCreateDone p => Sys2Proof.Machine.execPartitionCreateDone p s
  | .teardown via p => Sys2Proof.Machine.execTeardown via p s
  | .epochEndComplete p => Sys2Proof.Machine.execEpochEndComplete p s
  | .epochEndForced p => Sys2Proof.Machine.execEpochEndForced p s
  | .teardownScrubDone p => Sys2Proof.Machine.execTeardownScrubDone p s
  | .rekeyDone p => Sys2Proof.Machine.execRekeyDone p s
  | .getVersion box => Sys2Proof.Machine.execGetVersion box s
  | .getCapabilities box => Sys2Proof.Machine.execGetCapabilities box s
  | .negotiateAlgorithms box => Sys2Proof.Machine.execNegotiateAlgorithms box s
  | .getDigests box => Sys2Proof.Machine.execGetDigests box s
  | .getCertificate box slot off len => Sys2Proof.Machine.execGetCertificate box slot off len s
  | .challenge box slot nonce => Sys2Proof.Machine.execChallenge box slot nonce s
  | .getMeasurements box session index nonce => Sys2Proof.Machine.execGetMeasurements box session index nonce s
  | .keyExchange box pub => Sys2Proof.Machine.execKeyExchange box pub s
  | .finish id verify => Sys2Proof.Machine.execFinish id verify s
  | .keyUpdate id => Sys2Proof.Machine.execKeyUpdate id s
  | .heartbeat id => Sys2Proof.Machine.execHeartbeat id s
  | .endSession id => Sys2Proof.Machine.execEndSession id s
  | .keyProg id f stream set key => Sys2Proof.Machine.execKeyProg id f stream set key s
  | .kSetGo id f set => Sys2Proof.Machine.execKSetGo id f set s
  | .kSetStop id f set => Sys2Proof.Machine.execKSetStop id f set s
  | .query id f => Sys2Proof.Machine.execQuery id f s
  | .lockInterfaceRequest id f => Sys2Proof.Machine.execLockInterfaceRequest id f s
  | .getDeviceInterfaceReport id f => Sys2Proof.Machine.execGetDeviceInterfaceReport id f s
  | .startInterfaceRequest id f => Sys2Proof.Machine.execStartInterfaceRequest id f s
  | .stopInterfaceRequest id f => Sys2Proof.Machine.execStopInterfaceRequest id f s
  | .ideFailure f => Sys2Proof.Machine.execIdeFailure f s
  | .nopDsp die cell => Sys2Proof.Machine.execNopDsp die cell s
  | .mul die cell a b => Sys2Proof.Machine.execMul die cell a b s
  | .mac die cell a b => Sys2Proof.Machine.execMac die cell a b s
  | .msub die cell a b => Sys2Proof.Machine.execMsub die cell a b s
  | .loadc die cell c => Sys2Proof.Machine.execLoadc die cell c s
  | .addc die cell c => Sys2Proof.Machine.execAddc die cell c s
  | .shr die cell => Sys2Proof.Machine.execShr die cell s
  | .clr die cell => Sys2Proof.Machine.execClr die cell s
  | .dspRepeat die cell => Sys2Proof.Machine.execDspRepeat die cell s
  | .dspEnd die cell => Sys2Proof.Machine.execDspEnd die cell s
  | .dspStart die cell => Sys2Proof.Machine.execDspStart die cell s
  | .dspRst die cell => Sys2Proof.Machine.execDspRst die cell s
  | .portAttach c stage => Sys2Proof.Machine.execPortAttach c stage s
  | .fabricEnd c fin data => Sys2Proof.Machine.execFabricEnd c fin data s
  | .itemClose c fin data => Sys2Proof.Machine.execItemClose c fin data s
  | .portDetach c stage => Sys2Proof.Machine.execPortDetach c stage s
  | .brimTimeLimit c stage => Sys2Proof.Machine.execBrimTimeLimit c stage s
  | .tapWrite port pin output tap elapsed => Sys2Proof.Machine.execTapWrite port pin output tap elapsed s
  | .loadCommand via die v => Sys2Proof.Machine.execLoadCommand via die v s
  | .cfgImageStart parallel => Sys2Proof.Machine.execCfgImageStart parallel s
  | .tpStart die => Sys2Proof.Machine.execTpStart die s
  | .tpAbort die => Sys2Proof.Machine.execTpAbort die s
  | .loadStart die => Sys2Proof.Machine.execLoadStart die s
  | .headerCheck die bytes => Sys2Proof.Machine.execHeaderCheck die bytes s
  | .gsrAssert die => Sys2Proof.Machine.execGsrAssert die s
  | .frameRecord die bytes => Sys2Proof.Machine.execFrameRecord die bytes s
  | .imageDigestCheck die => Sys2Proof.Machine.execImageDigestCheck die s
  | .gsrRelease die => Sys2Proof.Machine.execGsrRelease die s
  | .pounceFrameRead die cond => Sys2Proof.Machine.execPounceFrameRead die cond s
  | .pounceCorrect die => Sys2Proof.Machine.execPounceCorrect die s
  | .laneUse via g v => Sys2Proof.Machine.execLaneUse via g v s
  | .clockLock g lane => Sys2Proof.Machine.execClockLock g lane s
  | .commaAlign g lane inverted => Sys2Proof.Machine.execCommaAlign g lane inverted s
  | .alignTimeout g lane => Sys2Proof.Machine.execAlignTimeout g lane s
  | .eqDone g lane => Sys2Proof.Machine.execEqDone g lane s
  | .ts2 g lane rlane rgroup role pair => Sys2Proof.Machine.execTs2 g lane rlane rgroup role pair s
  | .ts1 g lane => Sys2Proof.Machine.execTs1 g lane s
  | .laneErrorLoss g lane errors => Sys2Proof.Machine.execLaneErrorLoss g lane errors s
  | .skipWord g => Sys2Proof.Machine.execSkipWord g s
  | .groupUp g => Sys2Proof.Machine.execGroupUp g s
  | .groupDown g => Sys2Proof.Machine.execGroupDown g s
  | .transferFrame g head packet data crcOk gcmOk => Sys2Proof.Machine.execTransferFrame g head packet data crcOk gcmOk s
  | .controlFrame g head lanes => Sys2Proof.Machine.execControlFrame g head lanes s
  | .ackDue g => Sys2Proof.Machine.execAckDue g s
  | .nak g head => Sys2Proof.Machine.execNak g head s
  | .ackTimeout g => Sys2Proof.Machine.execAckTimeout g s
  | .restripe g => Sys2Proof.Machine.execRestripe g s
  | .resync g => Sys2Proof.Machine.execResync g s
  | .inject via g v => Sys2Proof.Machine.execInject via g v s
  | .windowRead f irq entry => Sys2Proof.Machine.execWindowRead f irq entry s
  | .windowWrite f irq entry value => Sys2Proof.Machine.execWindowWrite f irq entry value s
  | .hostReadCompletion f tag c data => Sys2Proof.Machine.execHostReadCompletion f tag c data s
  | .flushReadCompletion f record c => Sys2Proof.Machine.execFlushReadCompletion f record c s
  | .msixUnmask f vec => Sys2Proof.Machine.execMsixUnmask f vec s
  | .flrVf f => Sys2Proof.Machine.execFlrVf f s
  | .flrPf port => Sys2Proof.Machine.execFlrPf port s
  | .hotReset port => Sys2Proof.Machine.execHotReset port s
  | .currentLimitTick die demand energy advanced => Sys2Proof.Machine.execCurrentLimitTick die demand energy advanced s
  | .regulatorRead die mv da energy served => Sys2Proof.Machine.execRegulatorRead die mv da energy served s
  | .voltageLoopTick die low high => Sys2Proof.Machine.execVoltageLoopTick die low high s
  | .regulatorSettled die => Sys2Proof.Machine.execRegulatorSettled die s
  | .mclkStep p => Sys2Proof.Machine.execMclkStep p s
  | .budgetPeriodEnd overhead power => Sys2Proof.Machine.execBudgetPeriodEnd overhead power s
  | .pairBudgetExchange ok theirs theirOverhead => Sys2Proof.Machine.execPairBudgetExchange ok theirs theirOverhead s
  | .heavyGuardEnd c => Sys2Proof.Machine.execHeavyGuardEnd c s
  | .domainOn die domain => Sys2Proof.Machine.execDomainOn die domain s
  | .vrAlert rail => Sys2Proof.Machine.execVrAlert rail s
  | .alertClear rail => Sys2Proof.Machine.execAlertClear rail s
  | .sensorRead die temp => Sys2Proof.Machine.execSensorRead die temp s
  | .tripTimeout die => Sys2Proof.Machine.execTripTimeout die s
  | .throttleStep p => Sys2Proof.Machine.execThrottleStep p s
  | .coolantRead inlet outlet => Sys2Proof.Machine.execCoolantRead inlet outlet s
  | .fallbackRelease => Sys2Proof.Machine.execFallbackRelease s
  | .powerOn => Sys2Proof.Machine.execPowerOn s
  | .porstN level => Sys2Proof.Machine.execPorstN level s
  | .wrstN level => Sys2Proof.Machine.execWrstN level s
  | .warmReset via v => Sys2Proof.Machine.execWarmReset via v s
  | .warmResetStart => Sys2Proof.Machine.execWarmResetStart s
  | .resetStepDone bad => Sys2Proof.Machine.execResetStepDone bad s
  | .warmResetHeld => Sys2Proof.Machine.execWarmResetHeld s
  | .watchdogExpiry => Sys2Proof.Machine.execWatchdogExpiry s
  | .coreHalt => Sys2Proof.Machine.execCoreHalt s
  | .rootOfTrustFatal => Sys2Proof.Machine.execRootOfTrustFatal s
  | .heartbeatLoss => Sys2Proof.Machine.execHeartbeatLoss s
  | .handover via v => Sys2Proof.Machine.execHandover via v s
  | .millinerTakeover => Sys2Proof.Machine.execMillinerTakeover s
  | .mirrorRecord => Sys2Proof.Machine.execMirrorRecord s
  | .mirrorAck => Sys2Proof.Machine.execMirrorAck s
  | .millinerRebootDone => Sys2Proof.Machine.execMillinerRebootDone s
  | .udpRead dgram => Sys2Proof.Machine.execUdpRead dgram s
  | .udpWrite dgram => Sys2Proof.Machine.execUdpWrite dgram s
  | .mctpDictionaryMessage b session msg => Sys2Proof.Machine.execMctpDictionaryMessage b session msg s
  | .setEndpointId b eid => Sys2Proof.Machine.execSetEndpointId b eid s
  | .getEndpointId b => Sys2Proof.Machine.execGetEndpointId b s
  | .getMctpVersionSupport b => Sys2Proof.Machine.execGetMctpVersionSupport b s
  | .getMessageTypeSupport b => Sys2Proof.Machine.execGetMessageTypeSupport b s
  | .getVendorDefinedMessageSupport b selector => Sys2Proof.Machine.execGetVendorDefinedMessageSupport b selector s
  | .uartFrame frame => Sys2Proof.Machine.execUartFrame frame s
  | .operatorKey via key => Sys2Proof.Machine.execOperatorKey via key s
  | .vendorChallenge via => Sys2Proof.Machine.execVendorChallenge via s
  | .vendorResponseHi via sig => Sys2Proof.Machine.execVendorResponseHi via sig s
  | .debugUnlock via v => Sys2Proof.Machine.execDebugUnlock via v s
  | .ptpSync domain twoStep seq origin correction => Sys2Proof.Machine.execPtpSync domain twoStep seq origin correction s
  | .ptpFollowUp domain seq origin correction => Sys2Proof.Machine.execPtpFollowUp domain seq origin correction s
  | .ptpDelayResp domain seq receive correction => Sys2Proof.Machine.execPtpDelayResp domain seq receive correction s
  | .ptpPdelayResp domain seq receive transmit => Sys2Proof.Machine.execPtpPdelayResp domain seq receive transmit s
  | .ptpAnnounce domain grandmaster utc => Sys2Proof.Machine.execPtpAnnounce domain grandmaster utc s
  | .ptpManagement domain seq => Sys2Proof.Machine.execPtpManagement domain seq s
  | .announceTimeout => Sys2Proof.Machine.execAnnounceTimeout s
  | .timeStep => Sys2Proof.Machine.execTimeStep s
  | .fwErase via => Sys2Proof.Machine.execFwErase via s
  | .fwData via data => Sys2Proof.Machine.execFwData via data s
  | .fwVerify via => Sys2Proof.Machine.execFwVerify via s
  | .fwActivate via => Sys2Proof.Machine.execFwActivate via s
  | .fwConfirm via => Sys2Proof.Machine.execFwConfirm via s
  | .flashEraseDone standby => Sys2Proof.Machine.execFlashEraseDone standby s
  | .trialTimeout => Sys2Proof.Machine.execTrialTimeout s
  | .journalCommit => Sys2Proof.Machine.execJournalCommit s
  | .flashSync => Sys2Proof.Machine.execFlashSync s
  | .refclkCheck missing ppm => Sys2Proof.Machine.execRefclkCheck missing ppm s
  | .refclkRecovered => Sys2Proof.Machine.execRefclkRecovered s
  | .xferCtrl via v => Sys2Proof.Machine.execXferCtrl via v s
  | .xferDone nack rx => Sys2Proof.Machine.execXferDone nack rx s
  | .qid via mon v => Sys2Proof.Machine.execQid via mon v s
  | .linkUp port width rate flit => Sys2Proof.Machine.execLinkUp port width rate flit s
  | .pciePerstN port level => Sys2Proof.Machine.execPciePerstN port level s
  | .ringRegisters f reg v => Sys2Proof.Machine.execRingRegisters f reg v s
  | .vfEnable port on num => Sys2Proof.Machine.execVfEnable port on num s
  | .standbyFault => Sys2Proof.Machine.execStandbyFault s
  | .standbyReady => Sys2Proof.Machine.execStandbyReady s
  | .cfgCsNRise => Sys2Proof.Machine.execCfgCsNRise s
  | .dhcpv4Lease lease => Sys2Proof.Machine.execDhcpv4Lease lease s
  | .heartbeatPeriodExpiry id => Sys2Proof.Machine.execHeartbeatPeriodExpiry id s

end Sys2Proof.Machine
end

