-- ==== Sys2Proof/Machine/Step.lean ====
section
/-! DEFINITION. The step: the command at the front of the queue is carried out, with the rest of the queue behind it; with an
empty queue one band cycle passes (log 1). -/

namespace Sys2Proof.Machine

/-- One step.  On an empty queue one band cycle passes: the time counter and the frame counter advance, what waits at the switches
has waited one more, full completion rings are counted, and the lanes and the brims' clocks run (R181, R183, R202, R280, R337,
R338, R348, R405; log 1). -/
def step (s : State) : Host.Outcome State Fault Refusal :=
  match s.pending with
  | [] => .next s.bandCycle.countFull.clockLanes.clockBrims
  | c :: rest => exec c { s with pending := rest }

/-- The state with the command that a word spells at the front of its queue; unchanged where the word spells none, as every word
does here (the opcode table gives no row any bits). -/
def State.withFetchWord (s : State) (nbits w : Nat) : State :=
  match Sys2Proof.decodeTableWord nbits w with
  | some c => { s with pending := c :: s.pending }
  | none => s

end Sys2Proof.Machine
end

