-- ==== Sys2Proof/Safety.lean ====
section
/-! DEFINITION. What counts as a sound state, in the terms that claims use: memories and tables in their canonical form, and the
numbers that the spec bounds within their bounds. -/

namespace Sys2Proof.Machine

/-- The canonical form of a memory of bytes: addresses strictly rising, and no entry equal to zero, which an unlisted address
reads as (logs 8 and 9). -/
def Memory.wf (m : List Host.Cell) : Bool := swf (fun _ => (0 : Byte)) m

/-- The HBM contents, the bytes that the device has written to host memory, and the dictionary's registers are in canonical form,
so that equal contents are equal data. -/
def State.canonical (s : State) : Prop :=
  Memory.wf s.hbm = true ∧ Memory.wf s.hostMem = true ∧ swf regDefault s.dict = true

/-- Every register of the dictionary holds a value of its width (R397). -/
def State.registersFit (s : State) : Prop := ∀ e ∈ s.dict, e.2 < 2 ^ (8 * regLen e.1)

/-- The bounds the spec states for what the registers do not show: the frame counter counts modulo 256 (R181), the event log holds
24,576 records (R408), and 16 responses are kept (R402). -/
def State.bounded (s : State) : Prop :=
  s.clock.frame < 256 ∧ s.mill.events.length ≤ 24576 ∧ s.mill.responses.length ≤ 16

/-- The pieces of the state, one for each of its fields, by which a claim says what a command leaves alone. -/
inductive Piece where
  | pending | free | clock | dict | mill | rst | sessions | conns | sec | fns | ports | prun | refusals | hostMem | brims | frames | cfg | taps | lanes | power | waiting | channels | resps | nextResp | xacts | retired | stackSides | switches | resv | resvNext | splits | hbm | poison | works | arrays | engines | mismatches | tests | pairTx | scrub | out
  deriving DecidableEq, Repr

/-- A piece is the same in two states. -/
def State.same (s t : State) : Piece → Prop
  | .pending => t.pending = s.pending
  | .free => t.free = s.free
  | .clock => t.clock = s.clock
  | .dict => t.dict = s.dict
  | .mill => t.mill = s.mill
  | .rst => t.rst = s.rst
  | .sessions => t.sessions = s.sessions
  | .conns => t.conns = s.conns
  | .sec => t.sec = s.sec
  | .fns => t.fns = s.fns
  | .ports => t.ports = s.ports
  | .prun => t.prun = s.prun
  | .refusals => t.refusals = s.refusals
  | .hostMem => t.hostMem = s.hostMem
  | .brims => t.brims = s.brims
  | .frames => t.frames = s.frames
  | .cfg => t.cfg = s.cfg
  | .taps => t.taps = s.taps
  | .lanes => t.lanes = s.lanes
  | .power => t.power = s.power
  | .waiting => t.waiting = s.waiting
  | .channels => t.channels = s.channels
  | .resps => t.resps = s.resps
  | .nextResp => t.nextResp = s.nextResp
  | .xacts => t.xacts = s.xacts
  | .retired => t.retired = s.retired
  | .stackSides => t.stackSides = s.stackSides
  | .switches => t.switches = s.switches
  | .resv => t.resv = s.resv
  | .resvNext => t.resvNext = s.resvNext
  | .splits => t.splits = s.splits
  | .hbm => t.hbm = s.hbm
  | .poison => t.poison = s.poison
  | .works => t.works = s.works
  | .arrays => t.arrays = s.arrays
  | .engines => t.engines = s.engines
  | .mismatches => t.mismatches = s.mismatches
  | .tests => t.tests = s.tests
  | .pairTx => t.pairTx = s.pairTx
  | .scrub => t.scrub = s.scrub
  | .out => t.out = s.out

/-- Every piece of the state but those listed is unchanged. -/
def ChangesOnly (changed : List Piece) (s t : State) : Prop := ∀ p, p ∉ changed → s.same t p

/-- Every register of the dictionary but those listed reads as before. -/
def OnlyRegs (changed : List Nat) (s t : State) : Prop := ∀ k, k ∉ changed → t.reg k = s.reg k

/-- Every function but one is unchanged. -/
def OnlyFn (f : Fn) (s t : State) : Prop := ∀ g, g ≠ f → t.fn g = s.fn g

/-- A dictionary write of entry `k` over `via` reaches the engine, which gives it `role`'s rights: the transport is open, and neither
a held warm reset nor a missing image shuts the entry out (R352, R387, R399, R402, R403, R409). -/
structure State.Reaches (s : State) (via : Transport) (role : Role) (k : Nat) : Prop where
  opened : s.transportOpen via = true
  acts : s.roleOf via = role
  held : s.rst.held = false ∨ (startsAction k = false ∧ ∀ p, role ≠ .owner p)
  image : s.mill.noImage = false ∨ updatesFirmware k = true

/-- Nothing stands before the write, and no standby has to acknowledge it (R393). -/
structure State.Takes (s : State) (via : Transport) (role : Role) (k : Nat) : Prop extends State.Reaches s via role k where
  queue : s.mill.queue = []
  standby : s.reg rStandby ≠ 2

/-- The state in which the engine sees a write: its transport has taken it (R352, R402). -/
def State.took (s : State) (via : Transport) (k len v : Nat) : State := s.taken' ⟨via, true, k, leBytes len v, false, 0⟩ noTag

/-- A write of entry `k` that the engine accepts has its effect, and its answer leaves (R399). -/
def State.writeDone (s : State) (via : Transport) (k len v : Nat) (effect : State → State) : State :=
  (effect (s.took via k len v)).answer ⟨via, true, k, leBytes len v, false, 0⟩ true (leBytes len v)

/-- A write that the engine turns away after `effect`: the refusal is due 20 µs after its receipt (R5, R272). -/
def State.writeRefused (s : State) (via : Transport) (k len v : Nat) (effect : State → State) : State :=
  (effect (s.took via k len v)).refuse ⟨via, true, k, leBytes len v, false, 0⟩

/-- A command completes: it answers a next state, it changes at most the pieces named, and `P` holds of the state it answers. -/
def Completes (c : Instr) (s : State) (changed : List Piece) (P : State → Prop) : Prop :=
  ∃ t, exec c s = .next t ∧ ChangesOnly changed s t ∧ P t

/-! ### Carrying out a command (R77, R83, R86–R90) -/

/-- A command of an operation can be carried out: it is issued and not refused, its inputs have arrived and its blocks have begun
(R77, R157), the ends its descriptors name stand, and its run has no undefined case (R126). -/
structure State.Fed (s : State) (c : CmdRef) (f : Found) (op : Nat) : Prop where
  found : s.find c = some f
  opcode : dOpcode f.desc = op
  inputs : s.canCompute f = true
  ends : ∀ e ∈ cmdEnds f.prog.descs f.cmd.idx, (f.cmd.finish e.1).isSome = true
  defined : f.run.undef = false ∧ f.run.loose = false ∧ f.run.concern = []

/-- A command is computed, and its output at end `id` stands whole with the bytes `bs` (R78). -/
def State.Gave (t : State) (c : CmdRef) (id : Nat) (bs : List Byte) : Prop :=
  ∃ g x, t.find c = some g ∧ g.cmd.phase = .computed ∧ g.cmd.finish id = some x ∧ x.full = true ∧ x.data = bs

/-- What carrying out a command does around its result: the waits of its engines are counted (R140), its work units end on their
tiles (R157), its inputs are kept and measured (R160, R263), and its outputs end. -/
def State.carriedOut (s : State) (f : Found) (stalls : List (DieC × Fin 9 × W32)) (outs : List (Nat × List Byte)) : State :=
  ((((s.engineStalls f stalls).endWorks f (fun w => !w.dup && !w.replay)).keepInputs f).measureInputs f).finishWork f outs

/-- Of a command that is not fused: the item at an input slot, whether the slot transposes it, the direction of a slot's MX
blocks, the conversion of its results, and the bytes of its item at an output slot. -/
def Found.input (f : Found) (i : Nat) : Item := itemOf f f.cmd.ends 0 i
def Found.turned (f : Found) (i : Nat) : Bool := sTransposed (dSlot f.desc i)
def Found.along (f : Found) (i : Nat) : Bool := stageAlong f.prog.descs (stagesOf f.prog.descs f.cmd.idx) f.desc i
def Found.conv (f : Found) : Conv := convOf f.desc f.run.seed
def Found.bytesAt (f : Found) (i : Nat) (bs : List Byte) : List Byte := slice bs 0 (slotSize f.prog.descs (dSlot f.desc i))

/-- What stage `st` of a command, with descriptor `d`, puts out at output slot `i` (R99, R100, R292): what its operation makes of its
inputs, links among them, or, of a brim stage, the bytes the fabric pushed. -/
def Found.stageGives (f : Found) (st d i : Nat) : List Byte :=
  if dOpcode d = 0x50 then (f.cmd.finish (8 * st + i)).elim [] End.data
  else ((made d f.run.seed (stageAlong f.prog.descs (stagesOf f.prog.descs f.cmd.idx) d) (inputOf f f.cmd.ends st)).find?
    (fun o => o.1 == i)).elim [] (·.2)

/-- Every output of a command's stages that names a queue holds, in the end `t` leaves, what its stage put out there (R99, R100). -/
def Found.StagesGave (f : Found) (t : State) (c : CmdRef) : Prop :=
  ∀ st d i, (stagesOf f.prog.descs f.cmd.idx)[st]? = some d → 4 ≤ i → i < 8 → sUsed (dSlot d i) = true → sLink (dSlot d i) = false →
    t.Gave c (8 * st + i) (slice (f.stageGives st d i) 0 (slotSize f.prog.descs (dSlot d i)))

/-- A slot of a command's descriptor is used and names a queue (R83). -/
def Found.names (f : Found) (i : Nat) : Prop := sUsed (dSlot f.desc i) = true ∧ sLink (dSlot f.desc i) = false

/-- Element (r, c) of an operand as its operation sees it (R83), and of problem `q` of `b` of a batched operand (R87). -/
def usedAt (it : Item) (tr : Bool) (r c : Nat) : Val := if tr then valAt it c r else valAt it r c
def problemAt (it : Item) (tr : Bool) (b q r c : Nat) : Val :=
  if tr then valAt it (q * (it.rows / b) + c) r else valAt it (q * (it.rows / b) + r) c

/-- Result (r, c) of rows of results. -/
def cell (rows : List (List Val)) (r c : Nat) : Val := (rows.getD r []).getD c .nan

/-- Rows of results of a shape. -/
def Shaped (rows : List (List Val)) (m n : Nat) : Prop := rows.length = m ∧ ∀ r ∈ rows, r.length = n

/-- An item copied bit for bit, transposed where the slot asks for it (R79, R86 MOVE, TEE). -/
structure Copied (it : Item) (tr : Bool) (y : Item) : Prop where
  kept : y.fmt = it.fmt ∧ y.scales = it.scales ∧ y.along = it.along
  same : tr = false → y = it
  turned : tr = true → y.rows = it.cols ∧ y.cols = it.rows ∧ ∀ r c, r < it.cols → c < it.rows → codeAt y r c = codeAt it c r

/-- An output item of a data-movement command (R79, R86): outside MX each element is its source's, bit for bit where the formats
agree, else converted, and +0 where it has none; the blocks of an MX item are formed from their elements' sources. -/
structure Moved (ins : List Item) (f : Fmt) (rows cols : Nat) (along : Bool) (cv : Conv) (src : Nat → Nat → Source) (y : Item) :
    Prop where
  shape : y.fmt = f ∧ y.rows = rows ∧ y.cols = cols
  copied : fmtMx f = false → ∀ r c i a b, r < rows → c < cols → src r c = some (i, a, b) → (srcItem ins i).fmt = f →
    codeAt y r c = codeAt (srcItem ins i) a b
  converted : fmtMx f = false → ∀ r c i a b, r < rows → c < cols → src r c = some (i, a, b) → (srcItem ins i).fmt ≠ f →
    codeAt y r c = encodeElem f cv.sat (rndAt cv.stoch cv.seed (r * cols + c)) (valAt (srcItem ins i) a b)
  filled : fmtMx f = false → ∀ r c, r < rows → c < cols → src r c = none →
    codeAt y r c = encodeElem f cv.sat (rndAt cv.stoch cv.seed (r * cols + c)) valZero
  blocks : fmtMx f = true → along = true → ∀ r c, r < rows → c < cols →
    (scaleAt y r c, codeAt y r c) =
      (fun (b : Nat × List Nat) => (b.1, b.2.getD (c % 32) 0)) (moveBlock ins f cv true
        ((List.range (min 32 (cols - 32 * (c / 32)))).map (fun k => (r * cols + 32 * (c / 32) + k, src r (32 * (c / 32) + k)))))
  turned : fmtMx f = true → along = false → ∀ r c, r < rows → c < cols →
    (scaleAt y r c, codeAt y r c) =
      (fun (b : Nat × List Nat) => (b.1, b.2.getD (r % 32) 0)) (moveBlock ins f cv false
        ((List.range (min 32 (rows - 32 * (r / 32)))).map (fun k => ((32 * (r / 32) + k) * cols + c, src (32 * (r / 32) + k) c))))

/-- Every member of a collective's group has contributed (R90): the command is the first of its partition by issue under its group and
tag, what the members bring stands in ascending member number, and the members in this package are commands of different partitions
that can be carried out. -/
structure State.Contributed (s : State) (f : Found) (remote : List (Fin 16 × List Byte)) (op : Nat) (l : List Contribution) : Prop where
  opcode : dOpcode f.desc = op
  inputs : s.canCompute f = true
  first : (s.collectiveOf f.p (dGroup f.desc) (dTag f.desc)).any (fun x => x.run.id == f.run.id && x.cmd.idx == f.cmd.idx) = true
  all : s.contributions f remote = some l
  here : ∀ e ∈ l, ∀ x, e.local_ = some x → s.Fed (refOf x.p x.run.id x.cmd.idx) x op ∧ x.names 4
  apart : l.Pairwise (fun a b => ∀ x y, a.local_ = some x → b.local_ = some y → x.p ≠ y.p)

/-- What a collective does around its results: the waits of the engines and the lost transmissions are counted, then each member of
this package in turn notes its failed digests (R235) and takes its result. -/
def State.shared (s : State) (f : Found) (stalls : List (DieC × Fin 9 × W32)) (lost : Nat) (differ : List Nat) (l : List Contribution) :
    State :=
  (l.mapIdx (fun j e => (j, e))).foldl (fun t e =>
    match e.2.local_ with
    | none => t
    | some x =>
      let num := ((s.members (dGroup f.desc)).map (·.1)).getD e.1 0
      t.memberDone x (if num = 0 then (differ.filter (· != 0)).length else b2n (differ.contains num)) (collectiveOut x e.1 l))
    ((s.engineStalls f stalls).digestFails f lost)

/-- The exact number that a value (−1)^neg · m · 2^e stands for (R18). -/
def numVal (neg : Bool) (m : Nat) (e : Int) : ℚ := (if neg then -1 else 1) * m * (2 : ℚ) ^ e

/-- A DSP cell executes a word whose exact result is `v` (R285, R286): the accumulator takes it, clamped or modulo 2^40 when it lies
outside the accumulator's range; OVF and DSP_OVF show an overflow; and every other cell and register is unchanged. -/
structure DspRuns (s t : State) (d k w : Nat) (v : Int) : Prop where
  exact_ : -(2 ^ 39) ≤ v → v < 2 ^ 39 → (t.dsp d k).acc = v ∧ (t.dsp d k).ovf = (s.dsp d k).ovf ∧ t.reg (rBrim d 9) = s.reg (rBrim d 9)
  clamped : iSat w = true → (v < -(2 ^ 39) → (t.dsp d k).acc = -(2 ^ 39)) ∧ (2 ^ 39 ≤ v → (t.dsp d k).acc = 2 ^ 39 - 1)
  wrapped : iSat w = false → -(2 ^ 39) ≤ (t.dsp d k).acc ∧ (t.dsp d k).acc < 2 ^ 39 ∧ ((t.dsp d k).acc - v) % 2 ^ 40 = 0
  counted : v < -(2 ^ 39) ∨ 2 ^ 39 ≤ v → (t.dsp d k).ovf = true ∧ t.reg (rBrim d 9) = (s.reg (rBrim d 9) + 1) % 2 ^ 64
  moves : (t.dsp d k).rep = (s.dsp d k).rep - 1 ∧
    (t.dsp d k).entry = if (s.dsp d k).rep ≤ 1 then ((s.dsp d k).entry + 1) % 8 else (s.dsp d k).entry
  presents : (t.dsp d k).pipe.head? = some ((t.dsp d k).acc, iEmit w && decide ((s.dsp d k).rep ≤ 1))
  others : ∀ c j, c ≠ d ∨ j ≠ k → t.dsp c j = s.dsp c j
  regs : OnlyRegs [rBrim d 9] s t

/-- What the model itself keeps whatever is commanded: free values are drawn in order, what has left the device stays as it left,
and contents keep their form and registers their bounds. -/
structure Flows (s t : State) : Prop where
  free : s.free ≤ t.free
  out : s.out <+: t.out
  canonical : s.canonical → t.canonical
  fits : s.registersFit → t.registersFit
  bounded : s.bounded → t.bounded

end Sys2Proof.Machine
end

