-- ==== Sys2Proof/Certificates/Slice0/Obligations.lean ====
section
/-! DEFINITION. The statements about the device, for the provers: the whole machine first, then values and memory, then every family
of commands. `Completes c s pieces P` says that the command answers a next state in which only the pieces named may differ and
of which `P` holds. -/

section

open Sys2Proof Sys2Proof.Machine

/-- A step carries out the command at the front of the queue, with the rest of the queue behind it. -/
def Obligations.StepRunsTheFrontCommand : Prop :=
  ∀ (c : Instr) (rest : List Instr) (s : State), s.pending = c :: rest → step s = exec c { s with pending := rest }

/-- With nothing to do one band cycle passes (the model's choice, log 1): the counter adds INCR, the frame counter counts modulo
256 (R181, R405), what waits at the switches has waited one cycle more and is counted (R182–R186, R202), full completion rings are
counted (R348), the brims' clocks run (R280), and nothing else changes. -/
def Obligations.EmptyQueueIsOneBandCycle : Prop :=
  ∀ s : State, s.pending = [] → ∃ t, step s = .next t ∧ ChangesOnly [.brims, .clock, .dict, .free, .resps, .waiting] s t ∧
    t.clock = { s.clock with
      tai := s.clock.tai + s.clock.incr, frame := (s.clock.frame + 1) % 256, cycles := s.clock.cycles + 1 }

/-- After power-on: no partition exists (R253, R275), the reset entries read their defaults (R388), the time counter starts at 0
and is not disciplined (R407), every band counter stands at the same cycle (R181), every byte of HBM reads zero (R222), every
brim frame is blank (R301), and no command waits. -/
def Obligations.ResetStateIsPowerOn : Prop :=
  (∀ p ∈ partNums, State.reset.reg (rState p) = 0) ∧
  State.reset.reg rCause = 1 ∧ State.reset.reg rResetState = 0 ∧ State.reset.reg rWarmCount = 0 ∧
  State.reset.reg rResetTime = 0 ∧ State.reset.reg rTimeState = 0 ∧ State.reset.now = 0 ∧ State.reset.clock.frame = 0 ∧
  (∀ k, sget hbmZero State.reset.hbm k = 0) ∧ State.reset.frames = [] ∧ State.reset.pending = []

/-- Every command completes, and none touches the queue of commands. -/
def Obligations.CommandsLeaveTheQueueAlone : Prop :=
  ∀ (c : Instr) (s : State), ∃ t, exec c s = .next t ∧ t.pending = s.pending

/-- The state after reset is sound: its contents are in canonical form, its registers fit their lengths and its counts are within
their bounds. -/
def Obligations.ResetStateIsSound : Prop :=
  State.reset.canonical ∧ State.reset.registersFit ∧ State.reset.bounded

/-- Every step keeps a sound state sound: memories and dictionary in canonical form, every register within the length its table
gives (R397), the frame counter below 256 (R181), at most 24,576 event records (R408) and 16 kept responses (R402). -/
def Obligations.EveryStepKeepsTheStateSound : Prop :=
  ∀ s t : State, s.canonical ∧ s.registersFit ∧ s.bounded → step s = .next t → t.canonical ∧ t.registersFit ∧ t.bounded

/-- No step takes back what has left the device, and free values are drawn in order, none twice. -/
def Obligations.StepsOnlyAddToWhatHasLeft : Prop :=
  ∀ s t : State, step s = .next t → s.out <+: t.out ∧ s.free ≤ t.free

/-- R25: the sign of a zero product, of a sum of zeros and of an exact zero sum, and the products and sums of infinities that are
NaN, in both accumulation formats. -/
def Obligations.SignsOfZeros : Prop :=
  ∀ f ∈ [flt32, flt64], ∀ (a b : Bool) (m n : Nat) (e g : Int),
    (∀ s u, fmul f (.num a m e) (.num b n g) = .num s 0 u → s = (a != b)) ∧
    (m = 0 ∨ n = 0 → ∃ u, fmul f (.num a m e) (.num b n g) = .num (a != b) 0 u) ∧
    (∃ u, fadd f (.num a 0 e) (.num b 0 g) = .num (a && b) 0 u) ∧
    (m ≠ 0 → n ≠ 0 → ∀ s u, vadd (.num a m e) (.num b n g) = .num s 0 u →
      ∃ w, fadd f (.num a m e) (.num b n g) = .num false 0 w) ∧
    fmul f (.num a 0 e) (.inf b) = .nan ∧ fmul f (.inf b) (.num a 0 e) = .nan ∧
    fadd f (.inf a) (.inf (!a)) = .nan

/-- R109: STATUS of a run record is DONE when every command of the run ended DONE or SKIPPED, else the highest status among those
that ended otherwise; FAILED_PARTS is the OR of the commands' bitmaps.  Every command counts, whatever its REC. -/
def Obligations.RunRecordStatus : Prop :=
  ∀ (r : Run) (late : Bool) (now : Nat), (∀ c ∈ r.cmds, c.status ∈ statusCodes) →
    ((∀ c ∈ r.cmds, c.status = 0x00 ∨ c.status = 0x02) → bits (leNat (runRecord r late now).bytes) 71 64 = 0x00) ∧
    (∀ c ∈ r.cmds, c.status ≠ 0x00 → c.status ≠ 0x02 → c.status ≤ bits (leNat (runRecord r late now).bytes) 71 64) ∧
    ((∃ c ∈ r.cmds, c.status ≠ 0x00 ∧ c.status ≠ 0x02) →
      ∃ c ∈ r.cmds, c.status ≠ 0x00 ∧ c.status ≠ 0x02 ∧ c.status = bits (leNat (runRecord r late now).bytes) 71 64) ∧
    ∀ i < 48, bit (bits (leNat (runRecord r late now).bytes) 143 96) i = r.cmds.any (fun c => bit c.failedMask i)

/-- A word written whole reads as written and is not poisoned; every other word reads as before, and keeps its poison (R211). -/
def Obligations.WholeWordWriteReadsBack : Prop :=
  ∀ (s : State) (p m r off m' r' off' : Nat) (bs : List Byte) (err : WordErr), bs.length = 64 →
    (s.writeWord p m r off 0 bs err).word (wordKey m r off) = bs ∧
    (s.writeWord p m r off 0 bs err).poisoned (wordKey m r off) = false ∧
    (off < rankBytes → off' < rankBytes → r < 128 → r' < 128 → wordKey m' r' off' ≠ wordKey m r off →
      (s.writeWord p m r off 0 bs err).word (wordKey m' r' off') = s.word (wordKey m' r' off') ∧
      (s.writeWord p m r off 0 bs err).poisoned (wordKey m' r' off') = s.poisoned (wordKey m' r' off'))

/-- The address mapping of R206 without gaps and without overlap: an address has a place exactly when it lies below the sum of the
sets' capacities, and no two addresses of a partition share a place. -/
def Obligations.AddressesMapOneToOne : Prop :=
  ∀ (s : State) (p : Nat), (∀ a, (s.place p a).isSome = true ↔ a < s.setBytes p) ∧
    ∀ a b x, s.place p a = some x → s.place p b = some x → a = b

/-- A partition owner's access to an entry that no owner may reach but its own partition's is refused, and the refusal alone is
noted: nothing else in the device changes (R254, R272). -/
def Obligations.OwnersAreConfined : Prop :=
  ∀ (s : State) (a : Access) (p : Nat), s.roleOf a.via = .owner p → s.indexOwner (a.entry / 256) ≠ some p →
    (∀ r ∈ rowsOf (a.entry / 256), (r.rd = .owner ∨ r.rd = .opOwner ∨ r.rd = .operator ∨ r.rd = .nobody) ∧
      (r.wr = .owner ∨ r.wr = .opOwner ∨ r.wr = .operator ∨ r.wr = .nobody)) →
    s.engine a = { s with refusals := s.refusals ++ [(s.now + 20000, .access a)] }

/-- R18: every encoding of every floating-point format has the value that its sign, exponent and fraction give, but for the encodings
that the table assigns to infinity and NaN; and NaN is written as the format's canonical NaN. -/
def Obligations.EncodingsHaveTheirValues : Prop :=
  (∀ (f : Fmt) (b w bias : Nat) (s : Bool) (e fr c : Nat), (f, b, w, bias) ∈ [(Fmt.e4m3, 4, 3, 7), (.mx8e4m3, 4, 3, 7), (.e5m2, 5, 2, 15),
      (.mx8e5m2, 5, 2, 15), (.mx6e3m2, 3, 2, 3), (.mx6e2m3, 2, 3, 1), (.mx4, 2, 1, 1), (.bf16, 8, 7, 127), (.fp16, 5, 10, 15),
      (.fp32, 8, 23, 127), (.fp64, 11, 52, 1023)] → e < 2 ^ b → fr < 2 ^ w → c = b2n s * 2 ^ (b + w) + e * 2 ^ w + fr →
    if f ∈ [Fmt.e5m2, .mx8e5m2, .bf16, .fp16, .fp32, .fp64] ∧ e = 2 ^ b - 1 then
      decodeElem f c = if fr = 0 then .inf s else .nan
    else if f ∈ [Fmt.e4m3, .mx8e4m3] ∧ e = 2 ^ b - 1 ∧ fr = 2 ^ w - 1 then decodeElem f c = .nan
    else ∃ m k, decodeElem f c = .num s m k ∧ numVal s m k = (if s then -1 else 1) *
      (if e = 0 then 2 ^ ((1 : Int) - bias) * ((fr : ℚ) / 2 ^ w) else 2 ^ ((e : Int) - bias) * (1 + (fr : ℚ) / 2 ^ w))) ∧
  (∀ e : Nat, e < 255 → ∃ m k, decodeElem .e8m0 e = .num false m k ∧ numVal false m k = 2 ^ ((e : Int) - 127)) ∧
  decodeElem .e8m0 0xFF = .nan ∧
  (∀ (f : Fmt) n sat rnd, (f, n) ∈ [(Fmt.e4m3, 0x7F), (.e5m2, 0x7E), (.e8m0, 0xFF), (.bf16, 0x7FC0), (.fp16, 0x7E00), (.fp32, 0x7FC00000),
      (.fp64, 0x7FF8000000000000)] → encodeElem f sat rnd .nan = n)

/-- R27: comparisons, maximum and minimum over exact values: NaN compares false and gives NaN; numbers compare by their values and
infinities as the table says; zeros are equal, and maximum and minimum take −0 as less than +0; ≤ is < or =. -/
def Obligations.ComparisonsAndExtrema : Prop :=
  (∀ a b : Val, a = .nan ∨ b = .nan → veq a b = false ∧ vlt a b = false ∧ vmax a b = .nan ∧ vmin a b = .nan) ∧
  (∀ (x y : Bool) (m n : Nat) (e g : Int),
    (veq (.num x m e) (.num y n g) = true ↔ numVal x m e = numVal y n g) ∧
    (vlt (.num x m e) (.num y n g) = true ↔ numVal x m e < numVal y n g) ∧
    veq (.inf x) (.inf y) = (x == y) ∧ vlt (.inf x) (.inf y) = (x && !y) ∧
    veq (.num x m e) (.inf y) = false ∧ vlt (.num x m e) (.inf y) = !y ∧
    veq (.inf x) (.num y n g) = false ∧ vlt (.inf x) (.num y n g) = x ∧
    vmax (.num x 0 e) (.num y 0 g) = .num (x && y) 0 (if x then g else e) ∧
    vmin (.num x 0 e) (.num y 0 g) = .num (x || y) 0 (if x then e else g)) ∧
  (∀ a b : Val, (vlt a b = true → vmax a b = b ∧ vmin a b = a) ∧ (vlt b a = true → vmax a b = a ∧ vmin a b = b) ∧
    (veq a b = true → (vmax a b = a ∨ vmax a b = b) ∧ (vmin a b = a ∨ vmin a b = b))) ∧
  (∀ (w : Flt) a b c j, laneExec w 0x05 a b c j = vmin a b ∧ laneExec w 0x06 a b c j = vmax a b ∧
    laneExec w 0x0A a b c j = (if veq a b then valOne else valZero) ∧
    laneExec w 0x0B a b c j = (if vlt a b then valOne else valZero) ∧
    laneExec w 0x0C a b c j = (if vlt a b = true ∨ veq a b = true then valOne else valZero))

/-- SQ_TAIL, CQ_HEAD and LATE_Q_HEAD while READY is 1, and the ring registers, each on its function alone (R346–R349, R199): a
doorbell stores its index modulo the ring's size (log 48), frees the completion slots before it and lets records held back
follow; ENABLE takes effect where the ring's settings are sound and else sets CONFIG_ERROR; a disabled ring loses the records
held; ring registers are written while ENABLE is 0, and else BAD_WRITE is set. -/
def Obligations.RingCommandsComplete : Prop :=
  (∀ f v s, s.vfAnswers f = true → s.ready f = true → Completes (.sqTail f v) s [.fns] (fun t =>
    OnlyFn f s t ∧ t.fn f = { s.fn f with sqTail := v.toNat % (s.fn f).sqSize })) ∧
  (∀ f v s p, s.vfAnswers f = true → s.ready f = true → s.partOf f = some p → Completes (.cqHead f v) s [.fns, .free, .hostMem,
    .out, .prun] (fun t =>
    t = State.drainHeld p f (s.fn f).held.length (s.setFn f { s.fn f with
      cqHead := v.toNat % (s.fn f).cqSize, cqUsed := ringUsed (s.fn f).cqSize v.toNat (s.fn f).cqTail }) ∧
    ((s.fn f).held = [] → OnlyFn f s t ∧ (t.fn f).cqHead = v.toNat % (s.fn f).cqSize ∧ t.hostMem = s.hostMem ∧ t.out = s.out))) ∧
  (∀ f v s p, s.vfAnswers f = true → s.ready f = true → s.partOf f = some p → s.reg (rBand p 0x25) ≠ 0 →
    Completes (.lateQHead f v) s [.fns] (fun t => OnlyFn f s t ∧ t.fn f = { s.fn f with
      lateHead := v.toNat % s.reg (rBand p 0x25), lateUsed := ringUsed (s.reg (rBand p 0x25)) v.toNat (s.fn f).lateTail })) ∧
  (∀ f s, s.vfAnswers f = true → (s.fn f).ringsOk = true → (s.fn f).held = [] → Completes (.ringEnable f) s [.fns, .hostMem, .out,
    .prun] (fun t =>
    OnlyFn f s t ∧ (t.fn f).enable = true ∧ (t.fn f).configError = false ∧ (t.fn f).recordsLost = false ∧
    (t.fn f).sqHead = 0 ∧ (t.fn f).sqTail = 0 ∧ (t.fn f).cqHead = 0 ∧ (t.fn f).cqTail = 0 ∧ (t.fn f).written = 0 ∧
    t.hostMem = s.hostMem ∧ t.prun = s.prun)) ∧
  (∀ f s, s.vfAnswers f = true → (s.fn f).ringsOk = false → Completes (.ringEnable f) s [.fns] (fun t =>
    OnlyFn f s t ∧ t.fn f = { s.fn f with configError := true })) ∧
  (∀ f s, s.vfAnswers f = true → Completes (.ringDisable f) s [.fns, .prun] (fun t =>
    OnlyFn f s t ∧ t.fn f = { s.fn f with
      enable := false, recordsLost := (s.fn f).recordsLost || (s.fn f).held != [], held := [], stopped := none })) ∧
  (∀ f reg v s, s.vfAnswers f = true → (s.fn f).enable = false → Completes (.ringRegisters f reg v) s [.fns] (fun t =>
    OnlyFn f s t ∧
    (t.fn f).sqBase = (if reg = 0 then v.toNat else (s.fn f).sqBase) ∧
    (t.fn f).sqSize = (if reg = 1 then v.toNat else (s.fn f).sqSize) ∧
    (t.fn f).cqBase = (if reg = 2 then v.toNat else (s.fn f).cqBase) ∧
    (t.fn f).cqSize = (if reg = 3 then v.toNat else (s.fn f).cqSize) ∧
    (t.fn f).psaBase = (if reg = 4 then v.toNat else (s.fn f).psaBase) ∧
    (t.fn f).badWrite = (s.fn f).badWrite)) ∧
  (∀ f reg v s, s.vfAnswers f = true → (s.fn f).enable = true → Completes (.ringRegisters f reg v) s [.fns] (fun t =>
    OnlyFn f s t ∧ t.fn f = { s.fn f with badWrite := true }))

/-- A submission entry that is fetched while the function fetches (R347): an unload request and a run request join the requests
fetched, a load becomes the load in progress, and SQ_HEAD advances; a fifth run, or a load while another is in progress, waits in
its slot.  A fetch that ends in error is lost and stops fetching. -/
def Obligations.SubmissionCommandsComplete : Prop :=
  (∀ f entry s p, s.partOf f = some p → s.fetches f = true → (s.fn f).stopped = none → (s.prn p).runsHeld < 4 →
    isUnload entry.toNat = false → Completes (.submissionFetch f entry) s [.fns, .prun] (fun t =>
      OnlyFn f s t ∧ t.fn f = { s.fn f with sqHead := ((s.fn f).sqHead + 1) % (s.fn f).sqSize, stopped := none } ∧
      t.prn p = { s.prn p with fetched := (s.prn p).fetched ++ [(entry.toNat, s.now)], used := true })) ∧
  (∀ f entry s p, s.partOf f = some p → s.fetches f = true → (s.fn f).stopped = none → 4 ≤ (s.prn p).runsHeld →
    isUnload entry.toNat = false → Completes (.submissionFetch f entry) s [.fns] (fun t =>
      OnlyFn f s t ∧ t.fn f = { s.fn f with stopped := some entry })) ∧
  (∀ f entry s p, s.partOf f = some p → s.fetches f = true → (s.fn f).stopped = none → isUnload entry.toNat = true →
    lOp entry.toNat = 2 → Completes (.submissionFetch f entry) s [.fns, .prun] (fun t =>
      OnlyFn f s t ∧ t.fn f = { s.fn f with sqHead := ((s.fn f).sqHead + 1) % (s.fn f).sqSize, stopped := none } ∧
      t.prn p = { s.prn p with fetched := (s.prn p).fetched ++ [(entry.toNat, s.now)] })) ∧
  (∀ f entry s p, s.partOf f = some p → s.fetches f = true → (s.fn f).stopped = none → isUnload entry.toNat = true →
    lOp entry.toNat ≠ 2 → (s.prn p).loading = none → Completes (.submissionFetch f entry) s [.fns, .prun] (fun t =>
      OnlyFn f s t ∧ t.fn f = { s.fn f with sqHead := ((s.fn f).sqHead + 1) % (s.fn f).sqSize, stopped := none } ∧
      t.prn p = { s.prn p with loading := some (entry.toNat, s.now), used := true })) ∧
  (∀ f entry s p l, s.partOf f = some p → s.fetches f = true → (s.fn f).stopped = none → isUnload entry.toNat = true →
    lOp entry.toNat ≠ 2 → (s.prn p).loading = some l → Completes (.submissionFetch f entry) s [.fns] (fun t =>
      OnlyFn f s t ∧ t.fn f = { s.fn f with stopped := some entry })) ∧
  (∀ f c s, c ≠ .ok → s.fetches f = true → (s.fn f).stopped = none → Completes (.fetchError f c) s [.fns] (fun t =>
    OnlyFn f s t ∧ t.fn f = { s.fn f with sqHead := ((s.fn f).sqHead + 1) % (s.fn f).sqSize, stopped := none, sqError := true }))

/-- The requests of a partition (R106, R107, R113, R114, R116, R119): a load that verifies adds its program under the next handle and
answers, one that fails answers alone; an unload that fails a request check answers its rejection (log 95); an unload of a loaded
program waits for the runs before it, and ends when they have; an unload of no program, and a run request that a check refuses, are
noted for their answer 20 µs after the fetch; a run that passes starts with its own counters. -/
def Obligations.RequestsOfAPartitionComplete : Prop :=
  (∀ (p : PartN) c image s req t₀ g, (s.prn (p.val + 1)).loading = some (req, t₀) →
    (s.loadOutcome (p.val + 1) req c image).2 = some g → Completes (.load p c image) s [.fns, .free, .hostMem, .out, .prun] (fun t =>
      t = ((s.modPr (p.val + 1) (fun r => { r with loading := none })).modPr (p.val + 1) (fun r =>
        { r with programs := r.programs ++ [g], nextHandle := handleAfter g.handle })).loadAnswer (p.val + 1) req t₀ g.handle
          (s.loadOutcome (p.val + 1) req c image).1 .load)) ∧
  (∀ (p : PartN) c image s req t₀, (s.prn (p.val + 1)).loading = some (req, t₀) →
    (s.loadOutcome (p.val + 1) req c image).2 = none → Completes (.load p c image) s [.fns, .free, .hostMem, .out, .prun] (fun t =>
      t = (s.modPr (p.val + 1) (fun r => { r with loading := none })).loadAnswer (p.val + 1) req t₀ 0
          (s.loadOutcome (p.val + 1) req c image).1 .load)) ∧
  (∀ (p : PartN) s before req t₀ rest, (s.prn (p.val + 1)).fetched = before ++ (req, t₀) :: rest →
    (∀ e ∈ before, isUnload e.1 = false) → isUnload req = true →
    unloadFault req = none → (s.program (p.val + 1) (lHandle req)).isSome = true → Completes (.unload p) s [.prun] (fun t =>
      t.prn (p.val + 1) = PartRun.wakeUnloads { s.prn (p.val + 1) with fetched := before ++ rest, unloads :=
        (s.prn (p.val + 1)).unloads ++ [(req, t₀, (s.prn (p.val + 1)).earlier (lHandle req) before)] })) ∧
  (∀ (p : PartN) s before req t₀ rest res, (s.prn (p.val + 1)).fetched = before ++ (req, t₀) :: rest →
    (∀ e ∈ before, isUnload e.1 = false) → isUnload req = true → unloadFault req = some res →
    Completes (.unload p) s [.fns, .free, .hostMem, .out, .prun] (fun t =>
      t = (s.modPr (p.val + 1) (fun r => { r with fetched := before ++ rest })).loadAnswer (p.val + 1) req t₀ (lHandle req) res
        .unload)) ∧
  (∀ (p : PartN) s before req t₀ rest, (s.prn (p.val + 1)).fetched = before ++ (req, t₀) :: rest →
    (∀ e ∈ before, isUnload e.1 = false) → isUnload req = true →
    unloadFault req = none → (s.program (p.val + 1) (lHandle req)).isSome = false → Completes (.unload p) s [.prun, .refusals] (fun t =>
      (t.prn (p.val + 1)).fetched = before ++ rest ∧ t.refusals = s.refusals ++ [(t₀ + 20000,
        if lResult req % 32 = 0 then .loadRefused (s.fnOf (p.val + 1)) (loadRecord req t₀ (t₀ + 20000) ⟨0x31, 0x01, 0xFF, 0x3FF, 0xFFFF, 0xFFFF⟩ .unload)
          (lResult req) (loadResultBytes ⟨0x31, 0x01, 0xFF, 0x3FF, 0xFFFF, 0xFFFF⟩ (lSeq req) (lHandle req))
        else .record (s.fnOf (p.val + 1)) (loadRecord req t₀ (t₀ + 20000) ⟨0x31, 0x01, 0xFF, 0x3FF, 0xFFFF, 0xFFFF⟩ .unload))])) ∧
  (∀ (p : PartN) s u rest, (s.prn (p.val + 1)).idle = u :: rest →
    Completes (.unloadComplete p) s [.dict, .fns, .free, .hostMem, .out, .prun] (fun t =>
      t = ((s.modPr (p.val + 1) (fun r => { r with idle := rest })).removeProgram (p.val + 1) (lHandle u.1)).loadAnswer (p.val + 1)
        u.1 u.2 (lHandle u.1) loadDone .unload)) ∧
  (∀ (p : PartN) bindings s before req t₀ rest, (s.prn (p.val + 1)).fetched = before ++ (req, t₀) :: rest →
    (∀ e ∈ before, isUnload e.1 = true) → isUnload req = false →
    s.runRefusal (p.val + 1) (s.prn (p.val + 1)).nextRun req before
      ((List.range (rBindCount req)).map (fun i => leNat (slice bindings (32 * i) 32))) = none →
    Completes (.runRequest p bindings) s [.dict, .free, .hbm, .hostMem, .prun] (fun t =>
      t = (s.modPr (p.val + 1) (fun r => { r with fetched := before ++ rest, nextRun := r.nextRun + 1 })).startRun
        (p.val + 1) (s.prn (p.val + 1)).nextRun req
        ((List.range (rBindCount req)).map (fun i => leNat (slice bindings (32 * i) 32))))) ∧
  (∀ (p : PartN) bindings s before req t₀ rest d, (s.prn (p.val + 1)).fetched = before ++ (req, t₀) :: rest →
    (∀ e ∈ before, isUnload e.1 = true) → isUnload req = false →
    s.runRefusal (p.val + 1) (s.prn (p.val + 1)).nextRun req before
      ((List.range (rBindCount req)).map (fun i => leNat (slice bindings (32 * i) 32))) = some d →
    Completes (.runRequest p bindings) s [.prun, .refusals] (fun t =>
      (t.prn (p.val + 1)).fetched = before ++ rest ∧ (t.prn (p.val + 1)).runs = (s.prn (p.val + 1)).runs ∧
      (t.prn (p.val + 1)).turned = (s.prn (p.val + 1)).turned ++ [((s.prn (p.val + 1)).nextRun, rProgram req)] ∧
      t.refusals = s.refusals ++ [(t₀ + 20000, .record (s.fnOf (p.val + 1)) (bareRecord 0 0x31 d (rSeq req) 0xFFFF 0x3FF t₀
        (t₀ + 20000) true (.run (s.prn (p.val + 1)).nextRun)))]))

/-- A dictionary write that its transport, role, length and range pass (R397–R399) has its entry's effect and is answered; one that
its entry's own rule turns away is refused 20 µs after its receipt.  A monitor's QID clears that monitor's counters and is stored
(R142); the operator's key, which UDP does not carry, is stored with its validity (R404); DEBUG_UNLOCK waits for the next cold
reset; a warm reset is due after 100 µs (R388); and a vendor's signature over the challenge opens the vendor role (R404). -/
def Obligations.ControlWritesComplete : Prop :=
  (∀ via role entry value r u s, s.Takes via role entry.toNat → rowOf entry.toNat = some r → value.length = r.len → r.acc ≠ .ro →
    s.allowed via role r.wr entry.toNat = true → inRanges r.ranges (leNat value) = true → lockedEntry entry.toNat = false →
    entry.toNat ≠ key 0x1020 6 →
    (s.taken' ⟨via, true, entry.toNat, value, false, 0⟩ noTag).applyWrite via entry.toNat (leNat value) = (u, true) →
    Completes (.dictWrite via entry value) s [.brims, .cfg, .channels, .clock, .dict, .fns, .frames, .free, .arrays, .engines, .hostMem,
      .lanes, .mill, .out, .pairTx, .power, .prun, .refusals, .resps, .resvNext, .rst, .sec, .sessions, .stackSides, .tests,
      .waiting, .works, .xacts] (fun t => t = u.answer ⟨via, true, entry.toNat, value, false, 0⟩ true value)) ∧
  (∀ via role entry value r u s, s.Reaches via role entry.toNat → rowOf entry.toNat = some r → value.length = r.len → r.acc ≠ .ro →
    s.allowed via role r.wr entry.toNat = true → inRanges r.ranges (leNat value) = true → lockedEntry entry.toNat = false →
    (s.taken' ⟨via, true, entry.toNat, value, false, 0⟩ noTag).applyWrite via entry.toNat (leNat value) = (u, false) →
    Completes (.dictWrite via entry value) s [.brims, .cfg, .channels, .clock, .dict, .fns, .frames, .free, .arrays, .engines, .hostMem,
      .lanes, .mill, .out, .pairTx, .power, .prun, .refusals, .resps, .resvNext, .rst, .sec, .sessions, .stackSides, .tests,
      .waiting, .works, .xacts] (fun t => t = u.refuse ⟨via, true, entry.toNat, value, false, 0⟩)) ∧
  (∀ via role mon (v : BitVec 16) s, s.Takes via role (key (0x6400 + mon.val) 1) →
    s.allowed via role .opOwner (key (0x6400 + mon.val) 1) = true → v.toNat ≤ 1023 ∨ v.toNat = 65535 →
    Completes (.qid via mon v) s [.brims, .cfg, .channels, .clock, .dict, .fns, .frames, .free, .arrays, .engines, .hostMem, .lanes, .mill,
      .out, .pairTx, .power, .prun, .refusals, .resps, .resvNext, .rst, .sec, .sessions, .stackSides, .tests, .waiting, .works,
      .xacts] (fun t =>
      t = s.writeDone via (key (0x6400 + mon.val) 1) 2 v.toNat (fun u =>
        (u.clearRegs (fun j => j / 256 == 0x6400 + mon.val && decide (2 ≤ j % 256))).setReg (key (0x6400 + mon.val) 1) v.toNat))) ∧
  (∀ via key' s, s.Takes via .operator (key 0x1070 1) → (∀ c, via ≠ .udp c) → Completes (.operatorKey via key') s [.brims, .cfg,
    .channels, .clock, .dict, .fns, .frames, .free, .arrays, .engines, .hostMem, .lanes, .mill, .out, .pairTx, .power, .prun, .refusals,
    .resps, .resvNext, .rst, .sec, .sessions, .stackSides, .tests, .waiting, .works, .xacts] (fun t =>
    t = s.writeDone via (key 0x1070 1) 32 key'.toNat (fun u => u.store (key 0x1070 1) (key'.toNat + 2 ^ 256)))) ∧
  (∀ c key' s, s.Reaches (.udp c) .operator (key 0x1070 1) → Completes (.operatorKey (.udp c) key') s [.brims, .cfg, .channels,
    .clock, .dict, .fns, .frames, .free, .arrays, .engines, .hostMem, .lanes, .mill, .out, .pairTx, .power, .prun, .refusals, .resps,
    .resvNext, .rst, .sec, .sessions, .stackSides, .tests, .waiting, .works, .xacts] (fun t =>
    t = s.writeRefused (.udp c) (key 0x1070 1) 32 key'.toNat id)) ∧
  (∀ v s, s.Takes .uart .vendor (key 0x1070 0xA) → Completes (.debugUnlock .uart v) s [.brims, .cfg, .channels, .clock, .dict,
    .fns, .frames, .free, .arrays, .engines, .hostMem, .lanes, .mill, .out, .pairTx, .power, .prun, .refusals, .resps, .resvNext, .rst,
    .sec, .sessions, .stackSides, .tests, .waiting, .works, .xacts] (fun t => t.mill.unlockNext = v)) ∧
  (∀ via s, s.Takes via .operator (key 0x1010 4) → Completes (.warmReset via 22354) s [.brims, .cfg, .channels, .clock, .dict,
    .fns, .frames, .free, .arrays, .engines, .hostMem, .lanes, .mill, .out, .pairTx, .power, .prun, .refusals, .resps, .resvNext, .rst,
    .sec, .sessions, .stackSides, .tests, .waiting, .works, .xacts] (fun t =>
    t = s.writeDone via (key 0x1010 4) 2 22354 (fun u => { u with rst := { u.rst with due := some (u.now + 100000) } }) ∧
    t.rst = { s.rst with due := some (s.now + 100000) })) ∧
  (∀ role sig s, s.Takes .uart role (key 0x1070 9) → Completes (.vendorResponseHi .uart sig) s [.brims, .cfg, .channels, .clock,
    .dict, .fns, .frames, .free, .arrays, .engines, .hostMem, .lanes, .mill, .out, .pairTx, .power, .prun, .refusals, .resps, .resvNext,
    .rst, .sec, .sessions, .stackSides, .tests, .waiting, .works, .xacts] (fun t =>
    t.reg (key 0x1070 9) = sig.toNat ∧ OnlyRegs [key 0x1070 9] s t ∧ t.mill.vendor = (s.mill.vendor ||
      Config.vendorSigOk s.mill.challenge Config.serial (s.reg (key 0x1070 8)) sig.toNat)))

/-- The operator's and the owner's writes to partitions, dies and reservations (R190, R234, R252, R255, R256, R267, R311): a create
that passes its checks sets the partition creating, one that does not is refused and shows its reason; a teardown ends the epoch;
LOAD_COMMAND queues a load from the load buffer; a retired tile is tested; a reservation takes its slots; and a write of an entry
that a locked TDI protects is refused and moves the TDI to ERROR (R259, R261). -/
def Obligations.PartitionWritesComplete : Prop :=
  (∀ via (p : PartN) s, s.Takes via .operator (rPart (p.val + 1) 2) →
    (s.took via (rPart (p.val + 1) 2) 1 1).reg (rState (p.val + 1)) = 0 →
    (s.took via (rPart (p.val + 1) 2) 1 1).createDetail (p.val + 1) = 0 → Completes (.partitionCreate via p) s [.brims, .cfg,
      .channels, .clock, .dict, .fns, .frames, .free, .arrays, .engines, .hostMem, .lanes, .mill, .out, .pairTx, .power, .prun, .refusals,
      .resps, .resvNext, .rst, .sec, .sessions, .stackSides, .tests, .waiting, .works, .xacts] (fun t =>
      t = s.writeDone via (rPart (p.val + 1) 2) 1 1 (fun u => u.createPartition (p.val + 1)))) ∧
  (∀ via (p : PartN) s d, s.Reaches via .operator (rPart (p.val + 1) 2) → d ≠ 0 →
    (s.took via (rPart (p.val + 1) 2) 1 1).reg (rState (p.val + 1)) = 0 →
    (s.took via (rPart (p.val + 1) 2) 1 1).createDetail (p.val + 1) = d → Completes (.partitionCreate via p) s [.brims, .cfg,
      .channels, .clock, .dict, .fns, .frames, .free, .arrays, .engines, .hostMem, .lanes, .mill, .out, .pairTx, .power, .prun, .refusals,
      .resps, .resvNext, .rst, .sec, .sessions, .stackSides, .tests, .waiting, .works, .xacts] (fun t =>
      t = s.writeRefused via (rPart (p.val + 1) 2) 1 1 (fun u => u.setReg (rPart (p.val + 1) 3) d))) ∧
  (∀ via (p : PartN) s, s.Takes via .operator (rPart (p.val + 1) 2) → Completes (.teardown via p) s [.brims, .cfg, .channels,
    .clock, .dict, .fns, .frames, .free, .arrays, .engines, .hostMem, .lanes, .mill, .out, .pairTx, .power, .prun, .refusals, .resps,
    .resvNext, .rst, .sec, .sessions, .stackSides, .tests, .waiting, .works, .xacts] (fun t =>
    t = s.writeDone via (rPart (p.val + 1) 2) 1 2 (fun u => u.endEpoch (p.val + 1) 1))) ∧
  (∀ via role (die : DieC) s, s.Takes via role (rLoad die.val 3) → s.allowed via role .owner (rLoad die.val 3) = true →
    (s.took via (rLoad die.val 3) 1 1).reg (rLoad die.val 4) ≠ 1 → (s.took via (rLoad die.val 3) 1 1).mayLoad die.val 2 = true →
    Completes (.loadCommand via die 1) s [.brims, .cfg, .channels, .clock, .dict, .fns, .frames, .free, .arrays, .engines, .hostMem, .lanes,
      .mill, .out, .pairTx, .power, .prun, .refusals, .resps, .resvNext, .rst, .sec, .sessions, .stackSides, .tests, .waiting,
      .works, .xacts] (fun t =>
      t = s.writeDone via (rLoad die.val 3) 1 1 (fun u => u.queueLoad die.val 2))) ∧
  (∀ via (die : DieC) (tile : TileN) s, s.Takes via .operator (rTileState die.val tile.val) →
    (s.took via (rTileState die.val tile.val) 1 0).reg (rTileState die.val tile.val) = 2 →
    Completes (.tileState via die tile) s [.brims, .cfg, .channels, .clock, .dict, .fns, .frames, .free, .arrays, .engines, .hostMem,
      .lanes, .mill, .out, .pairTx, .power, .prun, .refusals, .resps, .resvNext, .rst, .sec, .sessions, .stackSides, .tests,
      .waiting, .works, .xacts] (fun t =>
      t = s.writeDone via (rTileState die.val tile.val) 1 0 (fun u => u.orderTest (die.val * 8 + tile.val)))) ∧
  (∀ via (p : PartN) (e : Fin 16) v s, s.Takes via .operator (rBand (p.val + 1) (1 + e.val)) →
    (s.took via (rBand (p.val + 1) (1 + e.val)) 4 v.toNat).reg (rTdi (p.val + 1)) = 0 →
    ((s.took via (rBand (p.val + 1) (1 + e.val)) 4 v.toNat).resvTry (p.val + 1) e.val v.toNat).isSome = true →
    Completes (.resvWrite via p e v) s [.brims, .cfg, .channels, .clock, .dict, .fns, .frames, .free, .arrays, .engines, .hostMem, .lanes,
      .mill, .out, .pairTx, .power, .prun, .refusals, .resps, .resvNext, .rst, .sec, .sessions, .stackSides, .tests, .waiting,
      .works, .xacts] (fun t =>
      t = s.writeDone via (rBand (p.val + 1) (1 + e.val)) 4 v.toNat (fun u => u.resvWrite (p.val + 1) e.val v.toNat))) ∧
  (∀ via (p : PartN) (e : Fin 16) v s, s.Reaches via .operator (rBand (p.val + 1) (1 + e.val)) →
    (s.took via (rBand (p.val + 1) (1 + e.val)) 4 v.toNat).reg (rTdi (p.val + 1)) ≠ 0 →
    Completes (.resvWrite via p e v) s [.brims, .cfg, .channels, .clock, .dict, .fns, .frames, .free, .arrays, .engines, .hostMem, .lanes,
      .mill, .out, .pairTx, .power, .prun, .refusals, .resps, .resvNext, .rst, .sec, .sessions, .stackSides, .tests, .waiting,
      .works, .xacts] (fun t =>
      t = s.writeRefused via (rBand (p.val + 1) (1 + e.val)) 4 v.toNat (fun u => u.toError (p.val + 1))))

/-- The operator's writes to lanes, roles and buses, and the vendor's challenge (R326, R337, R393, R396, R404, R413): LANE_USE takes
its group through DOWN into the new use; INJECT arms the inverted bits; a bus transfer starts; a read of VENDOR_CHALLENGE draws a
fresh value and answers it; and a write made while STANDBY_STATE reads 2, such as HANDOVER, waits in the queue for the standby's
acknowledgement. -/
def Obligations.LaneRoleAndBusWritesComplete : Prop :=
  (∀ via (g : GroupN) (v : Byte) s, s.Takes via .operator (rLane g.val 1) → v.toNat ≤ 3 → Completes (.laneUse via g v) s [.brims,
    .cfg, .channels, .clock, .dict, .fns, .frames, .free, .arrays, .engines, .hostMem, .lanes, .mill, .out, .pairTx, .power, .prun,
    .refusals, .resps, .resvNext, .rst, .sec, .sessions, .stackSides, .tests, .waiting, .works, .xacts] (fun t =>
    t = s.writeDone via (rLane g.val 1) 1 v.toNat (fun u => (u.useLanes g.val v.toNat).persist (rLane g.val 1)))) ∧
  (∀ via (g : GroupN) v s, s.Takes via .operator (rLane g.val 8) → Completes (.inject via g v) s [.brims, .cfg, .channels, .clock,
    .dict, .fns, .frames, .free, .arrays, .engines, .hostMem, .lanes, .mill, .out, .pairTx, .power, .prun, .refusals, .resps, .resvNext,
    .rst, .sec, .sessions, .stackSides, .tests, .waiting, .works, .xacts] (fun t =>
    t = s.writeDone via (rLane g.val 8) 8 v.toNat (fun u => u.modLg g.val (fun x => { x with inject := v.toNat })))) ∧
  (∀ via (v : BitVec 16) s, s.Takes via .operator (key 0x1060 4) →
    (s.took via (key 0x1060 4) 2 v.toNat).reg (key 0x1060 6) ≠ 1 → bits v.toNat 6 0 ≤ 64 → bits v.toNat 14 8 ≤ 64 →
    Completes (.xferCtrl via v) s [.brims, .cfg, .channels, .clock, .dict, .fns, .frames, .free, .arrays, .engines, .hostMem, .lanes, .mill,
      .out, .pairTx, .power, .prun, .refusals, .resps, .resvNext, .rst, .sec, .sessions, .stackSides, .tests, .waiting, .works,
      .xacts] (fun t =>
      t = s.writeDone via (key 0x1060 4) 2 v.toNat (fun u => (u.setReg (key 0x1060 6) 1).emit (.xfer (u.reg (key 0x1060 2))
        ((leBytes 64 (u.reg (key 0x1060 3))).take (bits v.toNat 6 0)) (bits v.toNat 14 8))))) ∧
  (∀ role s, s.Takes .uart role (key 0x1070 7) → Completes (.vendorChallenge .uart) s [.brims, .cfg, .channels, .clock, .dict,
    .fns, .frames, .free, .arrays, .engines, .hostMem, .lanes, .mill, .out, .pairTx, .power, .prun, .refusals, .resps, .resvNext, .rst,
    .sec, .sessions, .stackSides, .tests, .waiting, .works, .xacts] (fun t =>
    t.mill.challenge = Config.freeNat 256 s.drawn % 2 ^ 256 ∧ t.free = s.free + 1 ∧ t.reg = s.reg ∧
    t.out = s.out ++ [Out.uart (cobsEncode (s.datagram 1 0 (key 0x1070 7) (answerStatus true)
      (leBytes 32 (Config.freeNat 256 s.drawn % 2 ^ 256))))])) ∧
  (∀ via s, s.Reaches via .operator (key 0x1020 6) → s.reg rStandby = 2 → Completes (.handover via 18502) s [.brims, .cfg,
    .channels, .clock, .dict, .fns, .frames, .free, .arrays, .engines, .hostMem, .lanes, .mill, .out, .pairTx, .power, .prun, .refusals,
    .resps, .resvNext, .rst, .sec, .sessions, .stackSides, .tests, .waiting, .works, .xacts] (fun t =>
    t.mill.queue = s.mill.queue ++ [⟨via, true, key 0x1020 6, leBytes 2 18502, false, s.now⟩] ∧
    t.mill.mirrorSent = s.mill.mirrorSent + 1 ∧ t.out = s.out)) ∧
  (∀ via s, s.Reaches via .operator (key 0x1020 6) → s.reg rStandby ≠ 2 → Completes (.handover via 18502) s [.brims, .cfg,
    .channels, .clock, .dict, .fns, .frames, .free, .arrays, .engines, .hostMem, .lanes, .mill, .out, .pairTx, .power, .prun, .refusals,
    .resps, .resvNext, .rst, .sec, .sessions, .stackSides, .tests, .waiting, .works, .xacts] (fun t =>
    t = s.writeRefused via (key 0x1020 6) 2 18502 id))

/-- Firmware update by dictionary writes (R409, R410), which pass also while no image runs: FW_ERASE starts the erase of the inactive
slot; FW_DATA programs 64 bytes at FW_OFFSET, which advances; FW_VERIFY checks the slot; FW_ACTIVATE has a verified slot tried at
the next cold reset; and FW_CONFIRM ends a trial.  A command while one runs is refused. -/
def Obligations.FirmwareWritesComplete : Prop :=
  (∀ via s, s.Takes via .operator (key 0x1040 4) → (s.took via (key 0x1040 4) 1 1).reg rFwStatus ≠ 1 →
    Completes (.fwErase via) s [.brims, .cfg, .channels, .clock, .dict, .fns, .frames, .free, .arrays, .engines, .hostMem, .lanes, .mill,
      .out, .pairTx, .power, .prun, .refusals, .resps, .resvNext, .rst, .sec, .sessions, .stackSides, .tests, .waiting, .works,
      .xacts] (fun t => t = s.writeDone via (key 0x1040 4) 1 1 State.fwErase)) ∧
  (∀ via data s, s.Takes via .operator (key 0x1040 6) → (s.took via (key 0x1040 6) 64 data.toNat).fwDataOk = true →
    Completes (.fwData via data) s [.brims, .cfg, .channels, .clock, .dict, .fns, .frames, .free, .arrays, .engines, .hostMem, .lanes,
      .mill, .out, .pairTx, .power, .prun, .refusals, .resps, .resvNext, .rst, .sec, .sessions, .stackSides, .tests, .waiting,
      .works, .xacts] (fun t =>
      t = s.writeDone via (key 0x1040 6) 64 data.toNat (fun u => u.fwData data.toNat))) ∧
  (∀ via s, s.Takes via .operator (key 0x1040 4) → (s.took via (key 0x1040 4) 1 2).reg rFwStatus ≠ 1 →
    Completes (.fwVerify via) s [.brims, .cfg, .channels, .clock, .dict, .fns, .frames, .free, .arrays, .engines, .hostMem, .lanes, .mill,
      .out, .pairTx, .power, .prun, .refusals, .resps, .resvNext, .rst, .sec, .sessions, .stackSides, .tests, .waiting, .works,
      .xacts] (fun t => t = s.writeDone via (key 0x1040 4) 1 2 State.fwVerify)) ∧
  (∀ via s, s.Takes via .operator (key 0x1040 4) → (s.took via (key 0x1040 4) 1 3).reg rFwStatus ≠ 1 →
    Completes (.fwActivate via) s [.brims, .cfg, .channels, .clock, .dict, .fns, .frames, .free, .arrays, .engines, .hostMem, .lanes, .mill,
      .out, .pairTx, .power, .prun, .refusals, .resps, .resvNext, .rst, .sec, .sessions, .stackSides, .tests, .waiting, .works,
      .xacts] (fun t => t = s.writeDone via (key 0x1040 4) 1 3 State.fwActivate)) ∧
  (∀ via s, s.Takes via .operator (key 0x1040 4) → (s.took via (key 0x1040 4) 1 4).reg rFwStatus ≠ 1 →
    Completes (.fwConfirm via) s [.brims, .cfg, .channels, .clock, .dict, .fns, .frames, .free, .arrays, .engines, .hostMem, .lanes, .mill,
      .out, .pairTx, .power, .prun, .refusals, .resps, .resvNext, .rst, .sec, .sessions, .stackSides, .tests, .waiting, .works,
      .xacts] (fun t => t = s.writeDone via (key 0x1040 4) 1 4 State.fwConfirm)) ∧
  (∀ via s, s.Reaches via .operator (key 0x1040 4) → (s.took via (key 0x1040 4) 1 1).reg rFwStatus = 1 →
    Completes (.fwErase via) s [.brims, .cfg, .channels, .clock, .dict, .fns, .frames, .free, .arrays, .engines, .hostMem, .lanes, .mill,
      .out, .pairTx, .power, .prun, .refusals, .resps, .resvNext, .rst, .sec, .sessions, .stackSides, .tests, .waiting, .works,
      .xacts] (fun t => t = s.writeRefused via (key 0x1040 4) 1 1 id))

/-- What a host port's own events do (R343, R350, R351, R353–R356): a completion settles the flush read or the host read it
belongs to, and one that fails counts on the port; unmasking a vector sends the message that was pending; a link that trains
shows its width and rate; a function level reset puts the function back to reset and ends its partition's epoch; VF Enable
follows the configuration write. -/
def Obligations.HostPortEventsComplete : Prop :=
  (∀ f s, (s.fn f).flushes ≠ 0 → Completes (.flushReadCompletion f true .ok) s [.fns] (fun t =>
    OnlyFn f s t ∧ t.fn f = { s.fn f with flushes := (s.fn f).flushes - 1 })) ∧
  (∀ f s c, (s.fn f).flushes ≠ 0 → c = .ur ∨ c = .ca ∨ c = .timeout → Completes (.flushReadCompletion f true c) s [.dict, .fns]
    (fun t => OnlyFn f s t ∧ t.fn f = { s.fn f with flushes := (s.fn f).flushes - 1, cqError := true } ∧
      t.reg (rPort f.port.val 4) = (s.reg (rPort f.port.val 4) + 1) % 2 ^ 64 ∧ OnlyRegs [rPort f.port.val 4] s t)) ∧
  (∀ f s r, s.hostWriteResp f = some r → Completes (.flushReadCompletion f false .ok) s [.resps] (fun t =>
    t = s.modResp r.id (fun x => { x with left := 0 }))) ∧
  (∀ f s c r, s.hostWriteResp f = some r → c = .ur ∨ c = .ca ∨ c = .timeout →
    Completes (.flushReadCompletion f false c) s [.dict, .resps] (fun t =>
      t = (s.modResp r.id (fun x => { x with left := 0, status := 0x21 })).bump (rPort f.port.val 4) 1)) ∧
  (∀ f tag data s r, s.hostResp f tag.toNat = some r → Completes (.hostReadCompletion f tag .ok data) s [.resps] (fun t =>
    t = s.modResp r.id (fun x => { x with left := 0, data := splice x.data 0 data }))) ∧
  (∀ f tag c data s r, s.hostResp f tag.toNat = some r → c ≠ .ok → Completes (.hostReadCompletion f tag c data) s [.resps] (fun t =>
    t = s.modResp r.id (fun x => { x with left := 0, bad := allUnits x.header }))) ∧
  (∀ f vec s, s.portOpen f.port.val = true → Completes (.msixUnmask f vec) s [.fns, .out] (fun t =>
    OnlyFn f s t ∧
    t.fn f = { s.fn f with mask := setBit (s.fn f).mask vec.val false, pend := setBit (s.fn f).pend vec.val false } ∧
    t.out = s.out ++ (if bit (s.fn f).pend vec.val then [Out.msix f vec.val] else []))) ∧
  (∀ port width rate flit s, (s.port port.val).perst = true → s.rst.step = 0 → s.portFused port.val = true →
    Completes (.linkUp port width rate flit) s [.dict] (fun t => OnlyRegs [rPort port.val 2] s t ∧
      t.reg (rPort port.val 2) = 0x8000 + 0x4000 * b2n flit + 256 * linkWidth width + rate.val + 1)) ∧
  (∀ f s, f.vf ≠ 0 → s.portOpen f.port.val = true → s.partOf f = none → Completes (.flrVf f) s [.fns] (fun t =>
    OnlyFn f s t ∧ t.fn f = { FnState.blank with ide := (s.fn f).ide })) ∧
  (∀ f s p, f.vf ≠ 0 → s.portOpen f.port.val = true → s.partOf f = some p → Completes (.flrVf f) s [.brims, .dict, .fns, .free,
    .arrays, .engines, .hostMem, .mill, .out, .power, .prun, .refusals, .sec, .stackSides, .works, .xacts] (fun t =>
    t = (s.endEpoch p 2).resetFn f)) ∧
  (∀ port s, s.portOpen port.val = true → Completes (.flrPf port) s [.brims, .dict, .fns, .free, .arrays, .engines, .hostMem, .mill, .out,
    .ports, .power, .prun, .refusals, .sec, .stackSides, .works, .xacts] (fun t => t = s.resetPort port ∧
    (t.port port.val).vfEnable = false ∧ (t.port port.val).numVfs = 0)) ∧
  (∀ port num s, s.portOpen port.val = true → (s.port port.val).vfEnable = false → Completes (.vfEnable port true num) s [.ports]
    (fun t => t.port port.val = { s.port port.val with vfEnable := true, numVfs := num.val })) ∧
  (∀ port num s, s.portOpen port.val = true → (s.port port.val).vfEnable = false → Completes (.vfEnable port false num) s [.ports]
    (fun t => t.port port.val = { s.port port.val with numVfs := num.val })) ∧
  (∀ port num s, s.portOpen port.val = true → (s.port port.val).vfEnable = true → Completes (.vfEnable port false num) s [.brims,
    .dict, .fns, .free, .arrays, .engines, .hostMem, .mill, .out, .ports, .power, .prun, .refusals, .sec, .stackSides, .works, .xacts]
    (fun t => (t.port port.val).vfEnable = false ∧ (t.port port.val).numVfs = num.val))

/-- A hot reset or the link going down, by a message or by PERST# falling (R355, R386): every partition on the port ends its
epoch, every function of the port is reset and the port shows no link; during a warm reset it waits until step 5 ends. -/
def Obligations.HotResetCompletes : Prop :=
  (∀ port s, ¬(s.rst.step ≠ 0 ∧ s.rst.warm = true) → Completes (.hotReset port) s [.brims, .dict, .fns, .free, .arrays, .engines, .hostMem,
    .mill, .out, .ports, .power, .prun, .refusals, .rst, .sec, .stackSides, .works, .xacts] (fun t => t = s.hotReset port)) ∧
  (∀ port s, s.rst.step ≠ 0 → s.rst.warm = true → Completes (.hotReset port) s [.rst] (fun t =>
    t.rst = { s.rst with hotDue := s.rst.hotDue ++ [port.val] })) ∧
  (∀ port s, (s.port port.val).perst = true → ¬(s.rst.step ≠ 0 ∧ s.rst.warm = true) →
    Completes (.pciePerstN port false) s [.brims, .dict, .fns, .free, .arrays, .engines, .hostMem, .mill, .out, .ports, .power, .prun,
      .refusals, .rst, .sec, .stackSides, .works, .xacts] (fun t =>
      t = (s.setPort port.val { s.port port.val with perst := false }).hotReset port)) ∧
  (∀ port s, (s.port port.val).perst = true → s.rst.step ≠ 0 → s.rst.warm = true →
    Completes (.pciePerstN port false) s [.ports, .rst] (fun t =>
      t.port port.val = { s.port port.val with perst := false } ∧ t.rst.hotDue = s.rst.hotDue ++ [port.val])) ∧
  (∀ port s, Completes (.pciePerstN port true) s [.ports] (fun t => t.port port.val = { s.port port.val with perst := true }))

/-- The transports carry accesses to the engine (R352, R401–R403, R413): an access that the engine grants has its effect and is
answered over its transport, one it turns away is refused 20 µs later, a datagram that matches a stored response has it sent
again, and one whose tag fails counts in AUTH_FAILS.  A refusal that is due is answered (R5, R272). -/
def Obligations.TransportsComplete : Prop :=
  (∀ f irq entry s u v, s.transportOpen (.window f irq) = true → s.mill.queue = [] →
    (s.taken' ⟨.window f irq, false, entry.toNat, [], false, 0⟩ noTag).perform ⟨.window f irq, false, entry.toNat, [], false, 0⟩ = (u, some v) →
    Completes (.windowRead f irq entry) s [.brims, .cfg, .channels, .clock, .dict, .fns, .frames, .free, .arrays, .engines, .hostMem,
      .lanes, .mill, .out, .pairTx, .power, .prun, .refusals, .resps, .resvNext, .rst, .sec, .sessions, .stackSides, .tests,
      .waiting, .works, .xacts] (fun t => t = u.windowDone f irq true true v)) ∧
  (∀ f irq entry s u, s.transportOpen (.window f irq) = true →
    (s.taken' ⟨.window f irq, false, entry.toNat, [], false, 0⟩ noTag).perform ⟨.window f irq, false, entry.toNat, [], false, 0⟩ = (u, none) →
    Completes (.windowRead f irq entry) s [.brims, .cfg, .channels, .clock, .dict, .fns, .frames, .free, .arrays, .engines, .hostMem,
      .lanes, .mill, .out, .pairTx, .power, .prun, .refusals, .resps, .resvNext, .rst, .sec, .sessions, .stackSides, .tests,
      .waiting, .works, .xacts] (fun t => t = u.refuse ⟨.window f irq, false, entry.toNat, [], false, 0⟩)) ∧
  (∀ f irq entry value s u v r a, s.transportOpen (.window f irq) = true → s.mill.queue = [] → s.reg rStandby ≠ 2 →
    rowOf entry.toNat = some r → entry.toNat ≠ key 0x1020 6 →
    a = ⟨.window f irq, true, entry.toNat, leBytes r.len value.toNat, false, 0⟩ →
    (s.taken' a noTag).perform a = (u, some v) →
    Completes (.windowWrite f irq entry value) s [.brims, .cfg, .channels, .clock, .dict, .fns, .frames, .free, .arrays, .engines, .hostMem,
      .lanes, .mill, .out, .pairTx, .power, .prun, .refusals, .resps, .resvNext, .rst, .sec, .sessions, .stackSides, .tests,
      .waiting, .works, .xacts] (fun t => t = u.windowDone f irq false true a.value)) ∧
  (∀ bs s a u v, s.millServes = true → s.operatorKeySet = true → dgOp bs = 1 → dgKnown bs = true → s.tagOk bs = true →
    s.mill.responses.find? (fun r => r.1 == dgCounter bs && r.2.1 == dgTag bs) = none →
    accessOf (.udp (dgCounter bs)) bs (bs.drop 32) = some a → s.transportOpen (.udp (dgCounter bs)) = true → s.mill.queue = [] →
    (s.taken' a (dgTag bs)).perform a = (u, some v) → Completes (.udpRead bs) s [.brims, .cfg, .channels, .clock, .dict, .fns,
      .frames, .free, .arrays, .engines, .hostMem, .lanes, .mill, .out, .pairTx, .power, .prun, .refusals, .resps, .resvNext, .rst, .sec,
      .sessions, .stackSides, .tests, .waiting, .works, .xacts] (fun t => t = u.answer a true v)) ∧
  (∀ bs s a u v, s.millServes = true → s.operatorKeySet = true → dgOp bs = 2 → dgKnown bs = true → s.tagOk bs = true →
    s.mill.responses.find? (fun r => r.1 == dgCounter bs && r.2.1 == dgTag bs) = none →
    accessOf (.udp (dgCounter bs)) bs (bs.drop 32) = some a → s.transportOpen (.udp (dgCounter bs)) = true → s.mill.queue = [] →
    s.reg rStandby ≠ 2 → a.entry ≠ key 0x1020 6 →
    (s.taken' a (dgTag bs)).perform a = (u, some v) → Completes (.udpWrite bs) s [.brims, .cfg, .channels, .clock, .dict, .fns,
      .frames, .free, .arrays, .engines, .hostMem, .lanes, .mill, .out, .pairTx, .power, .prun, .refusals, .resps, .resvNext, .rst, .sec,
      .sessions, .stackSides, .tests, .waiting, .works, .xacts] (fun t => t = u.answer a true v)) ∧
  (∀ bs s r, s.millServes = true → s.operatorKeySet = true → dgOp bs = 2 → dgKnown bs = true → s.tagOk bs = true → r.2.2 ≠ [] →
    s.mill.responses.find? (fun r => r.1 == dgCounter bs && r.2.1 == dgTag bs) = some r →
    Completes (.udpWrite bs) s [.out] (fun t => t.out = s.out ++ [.datagram r.2.2])) ∧
  (∀ bs s, s.millServes = true → s.operatorKeySet = true → dgOp bs = 2 → (dgKnown bs && s.tagOk bs) = false →
    Completes (.udpWrite bs) s [.dict] (fun t => OnlyRegs [key 0x1070 3] s t ∧ t = s.bump (key 0x1070 3) 1)) ∧
  (∀ b session msg s a u v, s.mctpServes b = true → leNat (slice msg 0 1) = 0x7F → leNat (slice msg 1 4) = s.reg (key 0x1060 8) →
    dgKnown ((msg.drop 5).take 16) = true →
    accessOf (session.elim (Transport.mctp b) Transport.session) ((msg.drop 5).take 16) (msg.drop 21) = some a →
    s.transportOpen a.via = true → s.mill.queue = [] → s.reg rStandby ≠ 2 → (a.write && a.entry == key 0x1020 6) = false →
    (s.taken' a noTag).perform a = (u, some v) → Completes (.mctpDictionaryMessage b session msg) s [.brims, .cfg, .channels,
      .clock, .dict, .fns, .frames, .free, .arrays, .engines, .hostMem, .lanes, .mill, .out, .pairTx, .power, .prun, .refusals, .resps,
      .resvNext, .rst, .sec, .sessions, .stackSides, .tests, .waiting, .works, .xacts] (fun t =>
      t = u.answer a true v)) ∧
  (∀ frame s a u v bs, bs = cobsDecode 0 false (frame.takeWhile (fun b => b != 0)) → dgKnown bs = true →
    accessOf .uart bs (bs.drop 32) = some a → s.transportOpen .uart = true → s.mill.queue = [] → s.reg rStandby ≠ 2 →
    (a.write && a.entry == key 0x1020 6) = false → (s.taken' a noTag).perform a = (u, some v) →
    Completes (.uartFrame frame) s [.brims, .cfg, .channels, .clock, .dict, .fns, .frames, .free, .arrays, .engines, .hostMem, .lanes,
      .mill, .out, .pairTx, .power, .prun, .refusals, .resps, .resvNext, .rst, .sec, .sessions, .stackSides, .tests, .waiting,
      .works, .xacts] (fun t => t = u.answer a true v)) ∧
  (∀ s e, s.refusals.find? (fun e => s.refusable e.2) = some e → Completes .refusalAnswer s [.arrays, .brims, .clock, .dict, .fns, .free,
    .hostMem, .mill, .out, .power, .prun, .refusals, .works] (fun t =>
    t = ({ s with refusals := s.refusals.erase e }.reach e.1).refused e.2))

/-- The milliners' own events (R393–R396, R409, R415): a fault of the active milliner is shown and, with a standby that is ready, waits
for the take-over, without one begins a warm reset; a core halt also stops the milliner; heartbeats are watched while a standby is
ready; the take-over changes roles; a rebooted milliner becomes the standby, and the standby ready; the standby acknowledges the
next mirrored record, and what the acknowledgement releases is answered; a faulting standby is left out. -/
def Obligations.MillinerEventsComplete : Prop :=
  (∀ s, s.mill.faulted = false → s.flash.trialOf = none → s.reg rStandby = 2 →
    Completes .watchdogExpiry s [.brims, .cfg, .dict, .fns, .frames, .free, .arrays, .engines, .mill, .out, .pairTx, .ports, .power, .prun,
      .refusals, .resps, .retired, .rst, .sec, .splits, .switches, .waiting, .works, .xacts] (fun t => t.mill.faulted = true ∧
      t.reg rLastFault = 1 ∧ OnlyRegs [rLastFault] s t) ∧
    Completes .coreHalt s [.brims, .cfg, .dict, .fns, .frames, .free, .arrays, .engines, .mill, .out, .pairTx, .ports, .power, .prun,
      .refusals, .resps, .retired, .rst, .sec, .splits, .switches, .waiting, .works, .xacts] (fun t => t.mill.faulted = true ∧
      t.mill.halted = true ∧ t.reg rLastFault = 2 ∧ OnlyRegs [rLastFault] s t) ∧
    Completes .rootOfTrustFatal s [.brims, .cfg, .dict, .fns, .frames, .free, .arrays, .engines, .mill, .out, .pairTx, .ports, .power,
      .prun, .refusals, .resps, .retired, .rst, .sec, .splits, .switches, .waiting, .works, .xacts]
      (fun t => t.mill.faulted = true ∧ t.reg rLastFault = 3 ∧ OnlyRegs [rLastFault] s t) ∧
    Completes .heartbeatLoss s [.brims, .cfg, .dict, .fns, .frames, .free, .arrays, .engines, .mill, .out, .pairTx, .ports, .power, .prun,
      .refusals, .resps, .retired, .rst, .sec, .splits, .switches, .waiting, .works, .xacts] (fun t => t.mill.faulted = true ∧
      t.reg rLastFault = 4 ∧ OnlyRegs [rLastFault] s t)) ∧
  (∀ s u, s.mill.faulted = false → u = ((s.setReg rLastFault 1).noteFault s.activeIs0).trialReverts → u.standbyReady = true →
    Completes .watchdogExpiry s [.brims, .cfg, .dict, .fns, .frames, .free, .arrays, .engines, .mill, .out, .pairTx, .ports, .power, .prun,
      .refusals, .resps, .retired, .rst, .sec, .splits, .switches, .waiting, .works, .xacts]
      (fun t => t = { u with mill := { u.mill with faulted := true } })) ∧
  (∀ s, s.mill.faulted = false → s.standbyReady = false → s.rst.step ≠ 1 → Completes .rootOfTrustFatal s [.brims, .cfg, .dict,
    .fns, .frames, .free, .arrays, .engines, .mill, .out, .pairTx, .ports, .power, .prun, .refusals, .resps, .retired, .rst, .sec, .splits,
    .switches, .waiting, .works, .xacts] (fun t =>
    t = ((s.setReg rLastFault 3).noteFault s.activeIs0).warmReset 0x05)) ∧
  (∀ s, s.mill.faulted = true → Completes .millinerTakeover s [.brims, .cfg, .channels, .clock, .dict, .fns, .frames, .free,
    .arrays, .engines, .hostMem, .lanes, .mill, .out, .pairTx, .power, .prun, .refusals, .resps, .resvNext, .rst, .sec, .sessions,
    .stackSides, .tests, .waiting, .works, .xacts] (fun t =>
    t = ((s.mill.queue.filter Access.acked).foldl (fun s a => if a.write then (s.perform a).1 else s) s).takeover)) ∧
  (∀ s, s.mill.rebooting = true → Completes .millinerRebootDone s [.dict, .mill] (fun t =>
    t.mill.rebooting = false ∧ t.reg rStandby = 1 ∧ OnlyRegs [rStandby] s t)) ∧
  (∀ s, s.reg rStandby = 1 → Completes .standbyReady s [.dict] (fun t => t.reg rStandby = 2 ∧ OnlyRegs [rStandby] s t)) ∧
  (∀ s, s.reg rStandby = 2 → s.mill.mirrorAcked < s.mill.mirrorSent → Completes .mirrorRecord s [.mill] (fun t =>
    t.mill.queue = acknowledge s.mill.queue ∧ t.mill.mirrorAcked = s.mill.mirrorAcked + 1)) ∧
  (∀ s a rest, s.millRuns = true → s.mill.queue = a :: rest → a.acked = true → (∀ b ∈ rest.head?, b.acked = false) →
    Completes .mirrorAck s [.brims, .cfg, .channels, .clock, .dict, .fns, .frames, .free, .arrays, .engines, .hostMem, .lanes, .mill, .out,
      .pairTx, .power, .prun, .refusals, .resps, .resvNext, .rst, .sec, .stackSides, .tests, .waiting, .works, .xacts]
      (fun t => t = { s with mill := { s.mill with queue := rest } }.serve a)) ∧
  (∀ s, s.reg rStandby ≠ 0 → s.mill.faulted = false → Completes .standbyFault s [.brims, .cfg, .channels, .clock, .dict, .fns,
    .frames, .free, .arrays, .engines, .hostMem, .lanes, .mill, .out, .pairTx, .ports, .power, .prun, .refusals, .resps, .resvNext,
    .retired, .rst, .sec, .splits, .stackSides, .switches, .tests, .waiting, .works, .xacts] (fun t =>
    t = (((s.setReg rStandby 0).noteFault (!s.activeIs0)).afterFault (!s.activeIs0)).drain true))

/-- MCTP control requests are answered on their binding while the endpoint serves it (R403): the endpoint identifier is set and read
per binding, versions carry a free value that the spec does not state (log 50), the message types are SPDM, secured messages and
dictionary messages, and the vendor set is named by the enterprise number. -/
def Obligations.MctpControlCompletes : Prop :=
  (∀ b (eid : Byte) (s : State), s.mctpServes b = true → Completes (.setEndpointId b eid) s [.mill, .out] (fun t =>
    t.eid b = eid.toNat ∧ (∀ c, bindingKey c ≠ bindingKey b → t.eid c = s.eid c) ∧
    t.out = s.out ++ [Out.mctp b [0x00, 0x01, 0x00, 0, eid, 0]])) ∧
  (∀ b (s : State), s.mctpServes b = true → Completes (.getEndpointId b) s [.out] (fun t =>
    t.out = s.out ++ [Out.mctp b ([0x00, 0x02, 0x00] ++ leBytes 1 (s.eid b) ++ [0, 0])])) ∧
  (∀ b (s : State), s.mctpServes b = true → Completes (.getMctpVersionSupport b) s [.free, .out] (fun t => t.free = s.free + 1 ∧
    t.out = s.out ++ [Out.mctp b ([0x00, 0x04, 0x00, 1] ++ leBytes 4 (Config.freeNat 32 s.drawn))])) ∧
  (∀ b (s : State), s.mctpServes b = true → Completes (.getMessageTypeSupport b) s [.out] (fun t =>
    t.out = s.out ++ [Out.mctp b [0x00, 0x05, 0x00, 3, 0x05, 0x06, 0x7F]])) ∧
  (∀ b (s : State), s.mctpServes b = true → Completes (.getVendorDefinedMessageSupport b 0) s [.out] (fun t =>
    t.out = s.out ++ [Out.mctp b ([0x00, 0x06, 0x00, 0xFF, 1] ++ leBytes 4 (s.reg (key 0x1060 8)))])) ∧
  (∀ b sel (s : State), s.mctpServes b = true → sel ≠ 0 → Completes (.getVendorDefinedMessageSupport b sel) s [.out] (fun t =>
    t.out = s.out ++ [Out.mctp b [0x00, 0x06, 0x00, 0xFF]]))

/-- Flash, the serial bus and the address lease (R400, R409–R411, R413, R417): a sector whose erase ends is erased and no longer
incomplete; a trial that times out reverts; the oldest unsaved setting goes into both journals; the other flash takes the active
one's sectors; a transfer ends; a lease is taken. -/
def Obligations.FlashAndBusEventsComplete : Prop :=
  (∀ s sec rest, s.flash.erasing = sec :: rest → Completes (.flashEraseDone false) s [.dict, .mill] (fun t =>
    t.flash.erasing = rest ∧ t.flash.incomplete = setBit s.flash.incomplete sec false ∧ t.otherFlash = s.otherFlash)) ∧
  (∀ s sec rest, s.otherFlash.erasing = sec :: rest → Completes (.flashEraseDone true) s [.dict, .mill] (fun t =>
    t.otherFlash.erasing = rest ∧ t.otherFlash.incomplete = setBit s.otherFlash.incomplete sec false ∧ t.flash = s.flash)) ∧
  (∀ s n, s.flash.trialOf = some n → Completes .trialTimeout s [.dict, .fns, .free, .mill, .out] (fun t =>
    t = (((s.modFlashes (fun f => { f with trialOf := none, active := if n = 0 then 1 else 0 })).setSlotState n 1).setReg rSlotActive
      (if n = 0 then 1 else 0)).raise 0x0105 (some (if n = 0 then 1 else 0)))) ∧
  (∀ s k v rest, s.mill.unsaved = (k, v) :: rest → Completes .journalCommit s [.dict, .mill] (fun t =>
    t.mill.unsaved = rest ∧ t.mill.flash0.journal = sput regDefault s.mill.flash0.journal k v ∧
    t.mill.flash15.journal = sput regDefault s.mill.flash15.journal k v ∧ OnlyRegs [rPersistPending] s t ∧
    t.reg rPersistPending = rest.length % 2 ^ (8 * regLen rPersistPending))) ∧
  (∀ s, Completes .flashSync s [.mill] (fun t => t.otherFlash.journal = s.flash.journal ∧ t.flash = s.flash ∧
    (s.otherFlash.slotA.state ≠ 1 → t.otherFlash.slotA = s.flash.slotA) ∧
    (s.otherFlash.slotB.state ≠ 1 → t.otherFlash.slotB = s.flash.slotB))) ∧
  (∀ rx s, s.reg (key 0x1060 6) = 1 → Completes (.xferDone false rx) s [.dict] (fun t =>
    t.reg (key 0x1060 6) = 2 ∧ t.reg (key 0x1060 5) = rx.toNat ∧ OnlyRegs [key 0x1060 5, key 0x1060 6] s t)) ∧
  (∀ rx s, s.reg (key 0x1060 6) = 1 → bit (s.reg (key 0x1060 2)) 15 = true → Completes (.xferDone true rx) s [.dict] (fun t =>
    t.reg (key 0x1060 6) = 3 ∧ OnlyRegs [key 0x1060 6] s t)) ∧
  (∀ lease s, s.millServes = true → s.reg (key 0x1050 2) = 0 → s.reg (key 0x1050 5) = 1 → Completes (.dhcpv4Lease lease) s [.mill]
    (fun t => t.mill = { s.mill with lease := lease.map (fun e => (e.1.toNat, e.2.1.toNat, e.2.2.toNat)) }))

/-- Time (R405–R407): PTP messages of the clock's own domain are taken, a Sync of one or two steps followed by the delay request, and
the mean path delay measured; any other domain's are left; announcements name the grandmaster; management is answered with an error;
loss of announcements is holdover; and a step takes the counter forward to the measured time, never back. -/
def Obligations.TimeEventsComplete : Prop :=
  (∀ domain seq origin correction s, s.ptpMine domain = true → Completes (.ptpSync domain true seq origin correction) s [.clock]
    (fun t => t.clock = { s.clock with syncSeq := seq.toNat, syncAt := s.now, syncWait := true })) ∧
  (∀ domain seq origin correction s, s.ptpMine domain = true → Completes (.ptpSync domain false seq origin correction) s [.clock,
    .dict, .free, .out]
    (fun t => t = s.synced (corrected origin correction) s.now)) ∧
  (∀ domain seq origin correction s, s.ptpMine domain = true → s.clock.syncWait = true → s.clock.syncSeq = seq.toNat →
    Completes (.ptpFollowUp domain seq origin correction) s [.clock, .dict, .free, .out] (fun t =>
      t = s.synced (corrected origin correction) s.clock.syncAt)) ∧
  (∀ domain seq receive correction s, s.ptpMine domain = true → s.reg (key 0x1030 8) = 1 → s.clock.reqSeq = seq.toNat →
    s.clock.syncKnown = true → Completes (.ptpDelayResp domain seq receive correction) s [.clock, .dict, .free] (fun t =>
      t = State.measured { s with clock := { s.clock with delayKnown := true, delay :=
        ((((s.clock.t2 : Int) - s.clock.t1) + ((receive.toNat : Int) - signed 64 correction.toNat - s.clock.reqAt)) / 2).toNat } })) ∧
  (∀ domain seq receive transmit s, s.ptpMine domain = true → s.reg (key 0x1030 8) = 2 → s.clock.reqSeq = seq.toNat →
    Completes (.ptpPdelayResp domain seq receive transmit) s [.clock, .dict, .free] (fun t =>
      t = State.measured { s with clock := { s.clock with delayKnown := true, delay :=
        ((((s.now : Int) - s.clock.reqAt) - ((transmit.toNat : Int) - receive.toNat)) / 2).toNat } })) ∧
  (∀ domain gm utc s, s.ptpMine domain = true → Completes (.ptpAnnounce domain gm utc) s [.dict] (fun t =>
    t.reg (key 0x1030 4) = gm.toNat ∧ t.reg (key 0x1030 5) = utc.toNat ∧ OnlyRegs [key 0x1030 4, key 0x1030 5] s t)) ∧
  (∀ domain seq s, s.ptpMine domain = true → Completes (.ptpManagement domain seq) s [.out] (fun t =>
    t.out = s.out ++ [.ptp "NOT_SUPPORTED" seq.toNat])) ∧
  (∀ domain seq s, s.ptpMine domain = false → Completes (.ptpManagement domain seq) s [] (fun t => t = s)) ∧
  (∀ s, Completes .announceTimeout s [.dict] (fun t => t.reg rTimeState = 3 ∧ OnlyRegs [rTimeState] s t)) ∧
  (∀ s, s.reg rTimeState = 1 → s.clock.locked = false → Completes .timeStep s [.clock, .dict, .fns, .free, .mill, .out] (fun t => t.reg rTimeState = 2 ∧
    OnlyRegs [rTimeState] s t ∧ t.clock.locked = true ∧
    t.clock.tai = s.clock.tai + (-s.clock.offset).toNat * 2 ^ 32 ∧ s.clock.tai ≤ t.clock.tai)) ∧
  (∀ s, s.reg rTimeState = 2 → s.reg rStepLimit < (-s.clock.offset).toNat → Completes .timeStep s [.clock, .dict, .fns, .free,
    .mill, .out] (fun t =>
    s.clock.tai + (-s.clock.offset).toNat * 2 ^ 32 = t.clock.tai ∧ s.clock.tai ≤ t.clock.tai))

/-- Reset and the reference clock (R381, R382, R385–R388, R412): a cold reset at power-on and when PORST_N falls; a warm reset when
WRST_N falls, when WARM_RESET is due, and at a clock fault; a reset held for 2 s is shown; the exit steps follow each other; and a
recovered clock lets a held reset go on. -/
def Obligations.ResetEventsComplete : Prop :=
  (∀ s, Completes .powerOn s [.brims, .cfg, .channels, .clock, .conns, .dict, .fns, .frames, .arrays, .engines, .hbm, .lanes, .mill,
    .mismatches, .nextResp, .pairTx, .poison, .ports, .power, .prun, .refusals, .resps, .resv, .resvNext, .retired, .rst, .scrub,
    .sec, .sessions, .splits, .stackSides, .switches, .taps, .tests, .waiting, .works, .xacts] (fun t => t = s.coldReset 0x01)) ∧
  (∀ s, s.rst.porst = true → Completes (.porstN false) s [.brims, .cfg, .channels, .clock, .conns, .dict, .fns, .frames, .arrays, .engines,
    .hbm, .lanes, .mill, .mismatches, .nextResp, .pairTx, .poison, .ports, .power, .prun, .refusals, .resps, .resv, .resvNext,
    .retired, .rst, .scrub, .sec, .sessions, .splits, .stackSides, .switches, .taps, .tests, .waiting, .works, .xacts] (fun t =>
    t = State.coldReset { s with rst := { s.rst with porst := false } } 0x02)) ∧
  (∀ s, Completes (.porstN true) s [.rst] (fun t => t.rst = { s.rst with porst := true })) ∧
  (∀ s, s.rst.wrst = true → s.rst.step = 0 → Completes (.wrstN false) s [.arrays, .brims, .cfg, .dict, .engines, .frames, .free, .mill, .out, .pairTx, .ports, .power, .prun, .refusals, .resps, .retired, .rst, .sec, .splits, .switches, .waiting, .works, .xacts] (fun t =>
    t = State.warmReset { s with rst := { s.rst with wrst := false, wrstAt := s.now } } 0x03)) ∧
  (∀ s, Completes (.wrstN true) s [.arrays, .brims, .cfg, .dict, .engines, .frames, .free, .mill, .out, .pairTx, .ports, .power, .prun, .refusals, .resps, .retired, .rst, .sec, .splits, .switches, .waiting, .works, .xacts]
    (fun t => t = State.unhold { s with rst := { s.rst with wrst := true } })) ∧
  (∀ s d, s.rst.due = some d → s.rst.step = 0 → Completes .warmResetStart s [.arrays, .brims, .cfg, .clock, .dict, .engines, .frames, .free, .mill, .out, .pairTx, .ports, .power, .prun, .refusals, .resps, .retired, .rst, .sec, .splits, .switches, .waiting, .works, .xacts] (fun t =>
    t = State.warmReset { s.reach d with rst := { s.rst with due := none } } 0x04)) ∧
  (∀ s, s.rst.held = true → s.rst.wrst = false → s.reg rCause ≠ 0x06 → Completes .warmResetHeld s [.clock, .dict, .fns, .free,
    .mill, .out] (fun t =>
    t = ((s.reach (s.rst.wrstAt + 2000000000)).setReg rCause 0x06).raise 0x0103 none)) ∧
  (∀ bad s, s.rst.step = 1 → s.mill.faulted = false → s.rst.held = false → s.rst.porst = true → s.mill.refFault = false →
    s.step1.heldBack = false → Completes (.resetStepDone bad) s [.brims, .cfg, .channels, .clock, .dict, .fns, .frames, .free,
      .arrays, .engines, .hbm, .hostMem, .lanes, .mill, .out, .pairTx, .poison, .ports, .power, .prun, .refusals, .resps, .retired, .rst,
      .sec, .splits, .stackSides, .switches, .tests, .waiting, .works, .xacts] (fun t => t = s.step1.beginStep 2)) ∧
  (∀ bad s, s.rst.step = 2 → Completes (.resetStepDone bad) s [.brims, .cfg, .channels, .clock, .dict, .fns, .frames, .free,
    .arrays, .engines, .hbm, .hostMem, .lanes, .mill, .out, .pairTx, .poison, .ports, .power, .prun, .refusals, .resps, .retired, .rst,
    .sec, .splits, .stackSides, .switches, .tests, .waiting, .works, .xacts] (fun t => t = (s.step2 bad).beginStep 3)) ∧
  (∀ bad s, s.rst.step = 3 → Completes (.resetStepDone bad) s [.brims, .cfg, .channels, .clock, .dict, .fns, .frames, .free,
    .arrays, .engines, .hbm, .hostMem, .lanes, .mill, .out, .pairTx, .poison, .ports, .power, .prun, .refusals, .resps, .retired, .rst,
    .sec, .splits, .stackSides, .switches, .tests, .waiting, .works, .xacts] (fun t =>
    t.clock = { s.clock with frame := 0, cycles := 0 } ∧ t.rst = { s.rst with step := 4, held := false } ∧
    OnlyRegs [rResetState] s t ∧ t.reg rResetState = 4)) ∧
  (∀ bad s, s.rst.step = 4 → Completes (.resetStepDone bad) s [.brims, .cfg, .channels, .clock, .dict, .fns, .frames, .free,
    .arrays, .engines, .hbm, .hostMem, .lanes, .mill, .out, .pairTx, .poison, .ports, .power, .prun, .refusals, .resps, .retired, .rst,
    .sec, .splits, .stackSides, .switches, .tests, .waiting, .works, .xacts] (fun t => t = s.step4.beginStep 5)) ∧
  (∀ bad s, s.rst.step = 5 → Completes (.resetStepDone bad) s [.brims, .cfg, .channels, .clock, .dict, .fns, .frames, .free,
    .arrays, .engines, .hbm, .hostMem, .lanes, .mill, .out, .pairTx, .poison, .ports, .power, .prun, .refusals, .resps, .retired, .rst,
    .sec, .splits, .stackSides, .switches, .tests, .waiting, .works, .xacts] (fun t => t = s.step5)) ∧
  (∀ missing (ppm : BitVec 32) s, s.mill.refFault = false → missing = true ∨ 1000 < ppm.toNat → s.rst.step ≠ 1 →
    Completes (.refclkCheck missing ppm) s [.brims, .cfg, .dict, .fns, .frames, .free, .arrays, .engines, .mill, .out, .pairTx, .ports,
      .power, .prun, .refusals, .resps, .retired, .rst, .sec, .splits, .switches, .waiting, .works, .xacts] (fun t =>
      t = ((State.setReg { s with mill := { s.mill with refFault := true } } rTimeState 3).warmReset 0x07).raise 0x0106 none)) ∧
  (∀ s, s.mill.refFault = true → Completes .refclkRecovered s [.dict, .mill, .rst] (fun t =>
    t = State.unhold { s with mill := { s.mill with refFault := false } }))

/-- The life of a partition and of its epoch (R256, R264, R267, R269, R270): a create that has zeroed its ranks makes the partition
run; an epoch ends when its transactions are gone, or is forced to after 50 µs, which counts when anything was left; the scrub of
a teardown frees the partition; and a re-keyed partition runs again. -/
def Obligations.PartitionEventsComplete : Prop :=
  (∀ (p : PartN) s, s.reg (rState (p.val + 1)) = 1 → Completes (.partitionCreateDone p) s [.dict, .hbm, .poison] (fun t =>
    t = (s.zeroRanks (p.val + 1)).setReg (rState (p.val + 1)) 2 ∧ t.reg (rState (p.val + 1)) = 2)) ∧
  (∀ (p : PartN) s, (s.psec (p.val + 1)).ending.isSome = true → s.oldXacts (p.val + 1) = [] →
    Completes (.epochEndComplete p) s [.arrays, .brims, .cfg, .channels, .dict, .frames, .free, .out, .pairTx, .prun, .resps, .sec, .waiting, .works, .xacts] (fun t => t = s.finishEpoch (p.val + 1))) ∧
  (∀ (p : PartN) s e, (s.psec (p.val + 1)).ending = some e → s.oldXacts (p.val + 1) ≠ [] →
    Completes (.epochEndForced p) s [.arrays, .brims, .cfg, .channels, .clock, .dict, .frames, .free, .out, .pairTx, .prun, .resps, .sec, .waiting, .works, .xacts] (fun t =>
      t = ((s.reach (e.2 + 50000)).bump (rSec (p.val + 1) 7) 1).finishEpoch (p.val + 1))) ∧
  (∀ (p : PartN) s e, (s.psec (p.val + 1)).ending = some e → s.oldXacts (p.val + 1) = [] →
    Completes (.epochEndForced p) s [.arrays, .brims, .cfg, .channels, .clock, .dict, .frames, .free, .out, .pairTx, .prun, .resps, .sec, .waiting, .works, .xacts] (fun t => t = (s.reach (e.2 + 50000)).finishEpoch (p.val + 1))) ∧
  (∀ (p : PartN) s, s.reg (rState (p.val + 1)) = 3 → (s.psec (p.val + 1)).scrubbing = true →
    Completes (.teardownScrubDone p) s [.dict, .hbm, .poison, .power, .resvNext, .sec]
      (fun t => t.psec (p.val + 1) = PartSec.blank ∧
      (∀ r ∈ t.resvNext, r.p ≠ p.val + 1) ∧ t.resv = s.resv ∧ t.prun = s.prun)) ∧
  (∀ (p : PartN) s, s.reg (rState (p.val + 1)) = 4 → (s.psec (p.val + 1)).scrubbing = true →
    Completes (.rekeyDone p) s [.dict, .hbm, .poison, .sec] (fun t => t.reg (rState (p.val + 1)) = 2 ∧
      t = ((s.zeroRanks (p.val + 1)).setReg (rState (p.val + 1)) 2).modSec (p.val + 1) (fun x => { x with scrubbing := false })))

/-- The SPDM responder outside a session (R257, R262, R263): each request that its mailbox serves, in the order of the protocol, is
answered with what the device holds, and a request out of order is answered with an error (log 46). -/
def Obligations.SpdmRequestsComplete : Prop :=
  (∀ b (s : State), s.spdmServes b = true → Completes (.getVersion b) s [.conns, .out] (fun t =>
    t.conn b = 1 ∧ t.out = s.out ++ [Out.spdm b "VERSION" [0x12]])) ∧
  (∀ b (s : State), s.spdmServes b = true → 1 ≤ s.conn b → Completes (.getCapabilities b) s [.conns, .out] (fun t =>
    t.conn b = max 2 (s.conn b) ∧ t.out = s.out ++ [Out.spdm b "CAPABILITIES" []])) ∧
  (∀ b (s : State), s.spdmServes b = true → 2 ≤ s.conn b → Completes (.negotiateAlgorithms b) s [.conns, .out] (fun t =>
    t.conn b = 3 ∧ t.out = s.out ++ [Out.spdm b "ALGORITHMS" []])) ∧
  (∀ b (s : State), s.spdmServes b = true → s.conn b < 2 → Completes (.negotiateAlgorithms b) s [.out] (fun t =>
    t.out = s.out ++ [Out.spdm b "ERROR" []])) ∧
  (∀ b (s : State), s.spdmServes b = true → 3 ≤ s.conn b → Completes (.getDigests b) s [.out] (fun t =>
    t.out = s.out ++ [Out.spdm b "DIGESTS" (sha384 Config.certChain)])) ∧
  (∀ b off len (s : State), s.spdmServes b = true → 3 ≤ s.conn b → Completes (.getCertificate b 0 off len) s [.out] (fun t =>
    t.out = s.out ++ [Out.spdm b "CERTIFICATE" ((Config.certChain.drop off.toNat).take len.toNat)])) ∧
  (∀ b nonce (s : State), s.spdmServes b = true → 3 ≤ s.conn b → Completes (.challenge b 0 nonce) s [.out] (fun t =>
    t.out = s.out ++ [Out.spdm b "CHALLENGE_AUTH" (sha384 Config.certChain ++ leBytes 32 nonce.toNat ++
      Config.identitySign (sha384 Config.certChain ++ leBytes 32 nonce.toNat))])) ∧
  (∀ b nonce (s : State) body, s.spdmServes b = true → 3 ≤ s.conn b →
    body = leBytes 1 (s.blocks none).length ++ (s.blocks none).flatMap blockBytes ++ leBytes 32 nonce.toNat →
    Completes (.getMeasurements b none 0xFF nonce) s [.out, .sessions] (fun t => s.blocks none ≠ [] →
      t.out = s.out ++ [Out.spdm b "MEASUREMENTS" (body ++ Config.identitySign body)])) ∧
  (∀ b pub (s : State), s.spdmServes b = true → 3 ≤ s.conn b → s.sessions.countP (fun x => x.box == b) < boxLimit b →
    Completes (.keyExchange b pub) s [.free, .out, .sessions] (fun t => ∃ x, t.sessions = s.sessions ++ [x] ∧
      x.id = 1 + maxL (s.sessions.map Session.id) ∧
      x.box = b ∧ x.secured = false ∧ x.secret = Config.ecdheSecret s.drawn pub ∧ t.free = s.free + 1))

/-- Within a session (R257, R261): the messages of an open session whose mailbox serves it are answered and date it; FINISH
establishes it where its verify data match, KEY_UPDATE counts, END_SESSION and the lapse of its heartbeat period end it, and a TDI it had locked moves to
ERROR. -/
def Obligations.SessionMessagesComplete : Prop :=
  (∀ id verify x s, s.session id = some x → x.secured = false → s.spdmServes x.box = true → 3 ≤ s.conn x.box →
    Completes (.finish id verify) s [.out, .sessions] (fun t => t = if Config.finishOk x.secret verify
      then ((s.modSession id (fun x => x)).modSession id (fun x => { x with secured := true })).emit (.spdm x.box "FINISH_RSP" [])
      else (s.modSession id (fun x => x)).emit (.spdm x.box "ERROR" []))) ∧
  (∀ id x s, s.session id = some x → x.secured = true → s.spdmServes x.box = true → 3 ≤ s.conn x.box →
    Completes (.keyUpdate id) s [.out, .sessions] (fun t =>
      t = ((s.modSession id (fun x => x)).modSession id (fun x => { x with updates := x.updates + 1 })).emit (.spdm x.box "KEY_UPDATE_ACK" []))) ∧
  (∀ id x s, s.session id = some x → x.secured = true → s.spdmServes x.box = true → 3 ≤ s.conn x.box →
    Completes (.heartbeat id) s [.out, .sessions]
      (fun t => t = (s.modSession id (fun x => x)).emit (.spdm x.box "HEARTBEAT_ACK" []))) ∧
  (∀ id x s, s.session id = some x → x.secured = true → s.spdmServes x.box = true → 3 ≤ s.conn x.box →
    Completes (.endSession id) s [.brims, .dict, .fns, .free, .arrays, .engines, .hostMem, .mill, .out, .power, .prun, .refusals, .sec,
      .sessions, .stackSides, .works, .xacts]
      (fun t => t = ((s.modSession id (fun x => x)).endSession id).emit (.spdm x.box "END_SESSION_ACK" []))) ∧
  (∀ id s, s.millServes = true → Completes (.heartbeatPeriodExpiry id) s [.brims, .dict, .fns, .free, .arrays, .engines, .hostMem, .mill,
    .out, .power, .prun, .refusals, .sec, .sessions, .stackSides, .works, .xacts] (fun t => t = s.endSession id)) ∧
  (∀ id (x : Session) (s : State), s.session id = some x → x.tdi = none → (s.endSession id).session id = none)

/-- IDE key management (R258, R275): within a secured session that may manage a function's stream, a key is programmed into its set,
a set that holds a key goes live and shows on the partition, a set stops, and a query is answered; a request that may not is
answered with an error.  A failing stream moves the locked TDI to ERROR (R261). -/
def Obligations.IdeMessagesComplete : Prop :=
  (∀ id f stream (set : Fin 2) (key : BitVec 256) x s, s.session id = some x → x.secured = true → s.spdmServes x.box = true →
    3 ≤ s.conn x.box → s.kmOk f x = true → Completes (.keyProg id f stream set key) s [.fns, .out, .sessions]
      (fun t => OnlyFn f s t ∧
      (t.fn f).ide.stream = stream.toNat ∧ (t.fn f).ide.key set.val = some key.toNat ∧
      t.out = s.out ++ [.spdm x.box "KP_ACK" (leBytes 1 stream.toNat ++ leBytes 1 set.val)])) ∧
  (∀ id f (set : Fin 2) x s, s.session id = some x → x.secured = true → s.spdmServes x.box = true → 3 ≤ s.conn x.box →
    s.kmOk f x = true → ((s.fn f).ide.key set.val).isSome = true → Completes (.kSetGo id f set) s [.dict, .fns, .out,
      .sessions] (fun t => OnlyFn f s t ∧
      (t.fn f).ide = { (s.fn f).ide with live := some set.val } ∧
      (∀ p, s.partOf f = some p → t.reg (rIdeStream p) = (0x8000 + (s.fn f).ide.stream) % 2 ^ (8 * regLen (rIdeStream p))))) ∧
  (∀ id f (set : Fin 2) x s, s.session id = some x → x.secured = true → s.spdmServes x.box = true → 3 ≤ s.conn x.box →
    s.kmOk f x = true → Completes (.kSetStop id f set) s [.dict, .fns, .out, .sessions] (fun t => OnlyFn f s t ∧
      (t.fn f).ide = (if (s.fn f).ide.live = some set.val then { (s.fn f).ide with live := none } else (s.fn f).ide))) ∧
  (∀ id f x s, s.session id = some x → x.secured = true → s.spdmServes x.box = true → 3 ≤ s.conn x.box → s.kmOk f x = true →
    Completes (.query id f) s [.out, .sessions]
      (fun t => t.out = s.out ++ [.spdm x.box "QUERY_RESP" (leBytes 1 (s.fn f).ide.stream ++
      leBytes 1 (b2n (s.fn f).ide.key0.isSome + 2 * b2n (s.fn f).ide.key1.isSome + 4 * b2n (s.fn f).ide.live.isSome))])) ∧
  (∀ id f x s, s.session id = some x → x.secured = true → s.spdmServes x.box = true → 3 ≤ s.conn x.box → s.kmOk f x = false →
    Completes (.query id f) s [.out, .sessions] (fun t => t.out = s.out ++ [.spdm x.box "ERROR" []])) ∧
  (∀ f p s, s.partOf f = some p → Completes (.ideFailure f) s [.brims, .dict, .fns, .free, .arrays, .engines, .hostMem, .mill, .out, .power,
    .prun, .refusals, .sec, .stackSides, .works, .xacts] (fun t => t = s.toError p))

/-- TDISP (R259, R343): within a secured session, the interface of a function whose partition runs is locked from CONFIG_UNLOCKED on
a link in Flit mode, reported, started by the session that locked it, and stopped, which ends the key epoch of a locked or running
interface; a message that the state does not allow is answered with an error. -/
def Obligations.TdispMessagesComplete : Prop :=
  (∀ id f p x s, s.partOf f = some p → s.session id = some x → x.secured = true → s.spdmServes x.box = true → 3 ≤ s.conn x.box →
    s.reg (rState p) = 2 → s.reg (rTdi p) = 0 → s.flit f.port.val = true → Completes (.lockInterfaceRequest id f) s [.dict, .out,
      .sessions] (fun t =>
      t = (((s.modSession id (fun x => x)).setReg (rTdi p) 1).modSession id (fun x => { x with tdi := some p })).emit
        (.spdm x.box "LOCK_INTERFACE_RESPONSE" []))) ∧
  (∀ id f p x s, s.partOf f = some p → s.session id = some x → x.secured = true → s.spdmServes x.box = true → 3 ≤ s.conn x.box →
    s.reg (rTdi p) ≠ 0 → Completes (.lockInterfaceRequest id f) s [.dict, .out, .sessions] (fun t =>
      t = (s.modSession id (fun x => x)).emit (.spdm x.box "TDISP_ERROR" []))) ∧
  (∀ id f p x s, s.partOf f = some p → s.session id = some x → x.secured = true → s.spdmServes x.box = true → 3 ≤ s.conn x.box →
    Completes (.getDeviceInterfaceReport id f) s [.out, .sessions] (fun t => t = (s.modSession id (fun x => x)).emit
      (.spdm x.box "DEVICE_INTERFACE_REPORT" (leBytes 1 0 ++ leBytes 4 0x10000 ++ leBytes 1 2 ++ leBytes 4 0x1000 ++ s.layoutBlock p)))) ∧
  (∀ id f p x s, s.partOf f = some p → s.session id = some x → x.secured = true → s.spdmServes x.box = true → 3 ≤ s.conn x.box →
    s.reg (rTdi p) = 1 → x.tdi = some p → Completes (.startInterfaceRequest id f) s [.dict, .out, .sessions] (fun t =>
      t = ((s.modSession id (fun x => x)).setReg (rTdi p) 2).emit (.spdm x.box "START_INTERFACE_RESPONSE" []))) ∧
  (∀ id f p x s, s.partOf f = some p → s.session id = some x → x.secured = true → s.spdmServes x.box = true → 3 ≤ s.conn x.box →
    Completes (.stopInterfaceRequest id f) s [.brims, .dict, .fns, .free, .arrays, .engines, .hostMem, .mill, .out, .power, .prun,
      .refusals, .sec, .sessions, .stackSides, .works, .xacts] (fun t =>
      t = ((s.modSession id (fun x => x)).stopTdi p).emit (.spdm x.box "STOP_INTERFACE_RESPONSE" [])))

/-- HBM (R210–R213, R215–R218, R220, R226): the front word of a channel is served in order unless a refresh holds its bank, a read
answering the word's bytes and leaving memory alone, a write storing its bytes and no other byte; refresh, temperature, patrol,
parity errors, the copying of a retired rank and the commit of its remap entry, and the scrub of the on-die stores, each as what the
code finds in the word allows: beyond what it is stated to find, the outcome is free (log 112). -/
def Obligations.MemoryEventsComplete : Prop :=
  (∀ (m : StackN) (ch : Fin 32) err s j rest w ws m' r off k, s.jobs m.val ch.val = j :: rest → j.words = w :: ws →
    j.write = true →
    s.place j.p w.addr = some (m', r, off) → (s.stack m').offline.contains (s.servedBy m' r off) = false →
    s.bankHeld m' (s.servedBy m' r off) off = false → w.first + w.data.length ≤ 64 → (err : WordErr).symbols.val ≤ 3 →
    k = wordKey m' (s.servedBy m' r off) off →
    Completes (.hbmAccess m ch err) s [.channels, .dict, .fns, .free, .hbm, .mill, .out, .poison, .resps, .stackSides] (fun t =>
      t.jobs m.val ch.val = (if ws = [] then rest else { j with words := ws } :: rest) ∧
      (∀ a, k + w.first ≤ a → a < k + w.first + w.data.length → sget hbmZero t.hbm a = w.data.getD (a - (k + w.first)) 0) ∧
      (∀ a, a < k + w.first ∨ k + w.first + w.data.length ≤ a → sget hbmZero t.hbm a = sget hbmZero s.hbm a))) ∧
  (∀ (m : StackN) (ch : Fin 32) s j rest w ws m' r off k, s.jobs m.val ch.val = j :: rest → j.words = w :: ws → j.write = false →
    s.place j.p w.addr = some (m', r, off) → (s.stack m').offline.contains (s.servedBy m' r off) = false →
    s.bankHeld m' (s.servedBy m' r off) off = false →
    k = wordKey m' (s.servedBy m' r off) off → Completes (.hbmAccess m ch ⟨0, false⟩) s [.channels, .dict, .fns,
      .free, .hbm, .mill, .out, .poison, .resps, .stackSides] (fun t =>
      t.jobs m.val ch.val = (if ws = [] then rest else { j with words := ws } :: rest) ∧ t.hbm = s.hbm ∧ t.poison = s.poison ∧
      t.resps = updWhere (fun x => x.id == j.resp) (fun x => x.served false w (s.word k) (s.poisoned k)) s.resps)) ∧
  (∀ (m : StackN) (ch : Fin 32) err s j rest w ws, s.jobs m.val ch.val = j :: rest → j.words = w :: ws → s.wordWaits j.p w = true →
    Completes (.hbmAccess m ch err) s [.channels, .dict, .fns, .free, .hbm, .mill, .out, .poison, .resps, .stackSides]
      (fun t => t = s)) ∧
  (∀ (m : StackN) (rank : Fin 128) (pseudo : Fin 2) (bank : Fin 16) s, Completes (.ordinaryRefresh m rank pseudo bank) s [.dict,
    .stackSides] (fun t => OnlyRegs [rStack m.val 0x25] s t ∧
      t.reg (rStack m.val 0x25) = (s.reg (rStack m.val 0x25) + 200) % 2 ^ 64 ∧
      (∀ off, (rankPlace off).pseudo = pseudo.val → (rankPlace off).bank = bank.val → t.bankHeld m.val rank.val off = true) ∧
      ∀ n x off, n ≠ m.val ∨ bankKey x (rankPlace off).pseudo (rankPlace off).bank ≠ bankKey rank.val pseudo.val bank.val →
        t.bankHeld n x off = s.bankHeld n x off)) ∧
  (∀ (m : StackN) (c : BitVec 8) s, Completes (.stackTempRead m c) s [.stackSides] (fun t => t.stack m.val = { s.stack m.val with
    interval := if c.toNat ≤ 85 then 3900 else 1950
    hot := if s.reg (key 0x2700 6) < c.toNat then true else if c.toNat + 2 ≤ s.reg (key 0x2700 6) then false else (s.stack m.val).hot })) ∧
  (∀ (m : StackN) err s, (err : WordErr).symbols.val ≤ 3 → Completes (.patrolAccess m err) s [.dict, .fns, .free, .hbm, .mill, .out,
    .poison, .stackSides] (fun t => t.hbm = s.hbm ∧ (t.stack m.val).patrol = (s.patrolNext m.val).1)) ∧
  (∀ (m : StackN) (ch : Fin 32) s, Completes (.cmdParityError m ch false) s [.channels, .dict, .fns, .free, .mill, .out, .resps,
    .stackSides] (fun t =>
    t = s.bump (rStack m.val 0x22) 1 ∧ OnlyRegs [rStack m.val 0x22] s t)) ∧
  (∀ (m : StackN) (ch : Fin 32) s u j rest w ws m' r off, s.jobs m.val ch.val = j :: rest → j.words = w :: ws →
    u = s.bump (rStack m.val 0x22) 2 → u.place j.p w.addr = some (m', r, off) →
      Completes (.cmdParityError m ch true) s [.channels, .dict, .fns, .free, .mill, .out, .resps, .stackSides] (fun t =>
      t = ((u.modResp j.resp (fun x => x.served j.write w [] true)).popWord m.val ch.val).commandFailed m' (u.servedBy m' r off))) ∧
  (∀ (m : StackN) bad s, s.reg (rMigRank m.val) ≠ 0xFFFF → s.reg (rMigPointer m.val) + 4096 < rankBytes →
    Completes (.rankMigrationBlock m bad false) s [.dict, .fns, .free, .hbm, .mill, .out, .poison, .stackSides]
      (fun t => t.reg (rMigPointer m.val) = s.reg (rMigPointer m.val) + 4096 ∧
      t = State.setReg ((List.range 64).foldl (fun u i => u.copyWord m.val (s.reg (rMigRank m.val) % 256) (s.reg (rMigRank m.val) / 256)
        (s.reg (rMigPointer m.val) + 64 * i) (((bad.find? (fun e => e.1.val == i)).map (·.2)).getD ⟨0, false⟩)) s)
        (rMigPointer m.val) (s.reg (rMigPointer m.val) + 4096))) ∧
  (∀ (m : StackN) bad s, s.reg (rMigRank m.val) ≠ 0xFFFF → Completes (.rankMigrationBlock m bad true) s [.dict, .fns, .free, .hbm,
    .mill, .out, .poison, .stackSides] (fun t =>
    t = s.spareFailed m.val)) ∧
  (∀ (m : StackN) s i rest, (s.stack m.val).unsavedRemap = i :: rest → Completes (.remapFlashCommit m) s [.mill, .stackSides]
    (fun t =>
    t.stack m.val = { s.stack m.val with unsavedRemap := rest } ∧
    t.mill.flash0.journal = sput regDefault s.mill.flash0.journal (rRemap m.val i) (s.reg (rRemap m.val i)) ∧
    t.mill.flash15.journal = sput regDefault s.mill.flash15.journal (rRemap m.val i) (s.reg (rRemap m.val i)))) ∧
  (∀ (die : DieC) (store : Fin 9) s copy buf n, n = sget (fun _ => 0) s.scrub (die.val * 9 + store.val) →
    Completes (.sramScrub die store 0 copy buf) s [.dict, .free, .prun, .scrub] (fun t =>
      sget (fun _ => 0) t.scrub (die.val * 9 + store.val) = n + 1 ∧ OnlyRegs [rSram die.val 5] s t ∧ t.prun = s.prun)) ∧
  (∀ (die : DieC) (store : Fin 9) s copy buf n k, n = sget (fun _ => 0) s.scrub (die.val * 9 + store.val) →
    k = rSram die.val (if store.val < 8 then 1 else 3) →
    Completes (.sramScrub die store 1 copy buf) s [.dict, .free, .prun, .scrub] (fun t =>
      sget (fun _ => 0) t.scrub (die.val * 9 + store.val) = n + 1 ∧ OnlyRegs [rSram die.val 5, k] s t ∧ t.prun = s.prun ∧
      t.reg k = (s.reg k + 1) % 2 ^ (8 * regLen k))) ∧
  (∀ (die : DieC) (store : Fin 9) s n k, n = sget (fun _ => 0) s.scrub (die.val * 9 + store.val) →
    k = rSram die.val (if store.val < 8 then 2 else 4) →
    Completes (.sramScrub die store 2 none none) s [.dict, .free, .prun, .scrub] (fun t =>
      sget (fun _ => 0) t.scrub (die.val * 9 + store.val) = n + 1 ∧ OnlyRegs [rSram die.val 5, rSram die.val 6, k] s t ∧
      t.reg k = (s.reg k + 1) % 2 ^ (8 * regLen k) ∧
      t.reg (rSram die.val 6) = (field store.val 31 28 + n % storeWords store.val) % 2 ^ (8 * regLen (rSram die.val 6))))

/-- A request that has not been lost on its way, and that its destination's epoch and queue admit (R174, R188, R193–R197, R268): reads
are answered from a copy, from memory or by the host; writes whole or inline are stored, and one that arrives bad is discarded; a
fast-forward write and a message go to the partner package or end here; a multicast reaches every die of its mask.  One of an old
epoch is discarded, and one that finds no room bounces. -/
def Obligations.RequestsComplete : Prop :=
  (∀ (header : Desc) room s h, h = header.toNat → s.isLost h = false → s.epochOk h = true → s.admits h room = true →
    forPair h = true → Completes (.read header room) s [.dict, .lanes, .nextResp, .out, .pairTx, .resps, .sec, .switches, .waiting,
      .xacts] (fun t => t = (s.accepted h).toPair h [])) ∧
  (∀ (header : Desc) room s h bs, h = header.toNat → s.isLost h = false → s.epochOk h = true → s.admits h room = true →
    forPair h = false → pkDstDie h < 48 → (s.accepted h).copyBytes h = some bs →
    Completes (.read header room) s [.dict, .lanes, .nextResp, .out, .pairTx, .resps, .sec, .switches, .waiting, .xacts]
      (fun t => t.resps = s.resps ++ [⟨s.nextResp, h, 0, bs, [], 0, false, false, []⟩] ∧ t.dict = s.dict)) ∧
  (∀ (header : Desc) room s h, h = header.toNat → s.isLost h = false → s.epochOk h = true → s.admits h room = true →
    forPair h = false → pkDstDie h < 48 → (s.accepted h).copyBytes h = none →
    Completes (.read header room) s [.dict, .lanes, .nextResp, .out, .pairTx, .resps, .sec, .switches, .waiting, .xacts]
      (fun t => t.resps = s.resps ++ [⟨s.nextResp, h, 0, List.replicate (128 * pkLen h) 0, List.range (pkLen h), 0, false, false,
        []⟩])) ∧
  (∀ (header : Desc) room s h, h = header.toNat → s.isLost h = false → s.epochOk h = true → s.admits h room = true →
    forPair h = false → 48 ≤ pkDstDie h → pkDstEng h < 2 → Completes (.read header room) s [.dict, .lanes, .nextResp, .out, .pairTx,
      .resps, .sec, .switches, .waiting, .xacts] (fun t =>
      t = (s.accepted h).toChannels h false [] (readWords (pkAddress h) (pkLen h)))) ∧
  (∀ (header : Desc) room s h, h = header.toNat → s.isLost h = false → s.epochOk h = true → s.admits h room = true →
    forPair h = false → 48 ≤ pkDstDie h → 2 ≤ pkDstEng h → Completes (.read header room) s [.dict, .lanes, .nextResp, .out,
      .pairTx, .resps, .sec, .switches, .waiting, .xacts] (fun t =>
      ∃ w, t.waiting = s.waiting ++ [w] ∧ w.point = .host (s.fnOf (pkPart h)) ∧ w.p = pkPart h ∧ w.header = h ∧ w.resp = s.nextResp ∧
        w.data = [] ∧ t.resps = s.resps ++ [⟨s.nextResp, h, 1, List.replicate (128 * pkLen h) 0, [], 0, false, false, []⟩])) ∧
  (∀ (header : Desc) data room s h, h = header.toNat → s.isLost h = false → s.epochOk h = true → s.admits h room = true →
    (s.accepted h).ffOn h = false →
    Completes (.write header data room false) s [.dict, .lanes, .nextResp, .out, .pairTx, .prun, .resps, .sec, .switches, .waiting,
      .xacts] (fun t =>
      t = (s.accepted h).acceptWrite h data (writeWords (pkAddress h) data)) ∧
    Completes (.writeFf header data room false) s [.dict, .lanes, .nextResp, .out, .pairTx, .prun, .resps, .sec, .switches, .waiting,
      .xacts] (fun t =>
      t = (s.accepted h).acceptWrite (setBits h 287 280 0x02) data (writeWords (pkAddress h) data))) ∧
  (∀ (header : Desc) data room s h, h = header.toNat → s.isLost h = false → s.epochOk h = true → s.admits h room = true →
    Completes (.write header data room true) s [.dict, .lanes, .nextResp, .out, .pairTx, .prun, .resps, .sec, .switches, .waiting,
      .xacts] (fun t =>
      t = ((s.accepted h).bump (rSwitch (s.arrivalDie h) 0xA) 1).answerNow h 0x21 [] []) ∧
    Completes (.writeFf header data room true) s [.dict, .lanes, .nextResp, .out, .pairTx, .prun, .resps, .sec, .switches, .waiting,
      .xacts] (fun t =>
      t = ((s.accepted h).bump (rSwitch (s.arrivalDie h) 0xA) 1).answerNow h 0x21 [] []) ∧
    Completes (.message header data room true) s [.dict, .lanes, .nextResp, .out, .pairTx, .resps, .sec, .switches, .xacts]
      (fun t => t = ((s.accepted h).bump (rSwitch (s.arrivalDie h) 0xA) 1).answerNow h 0x21 [] [])) ∧
  (∀ (header : Desc) room s h bs, h = header.toNat → s.isLost h = false → s.epochOk h = true → s.admits h room = true →
    bs = (leBytes 64 (pkInline h)).take (pkInlineLen h) → Completes (.writeInline header room) s [.dict, .lanes, .nextResp, .out,
      .pairTx, .resps, .sec, .switches, .waiting, .xacts] (fun t =>
      t = (s.accepted h).acceptWrite h bs (inlineWords (pkAddress h) (pkByteEn h) bs))) ∧
  (∀ (header : Desc) data room s h, h = header.toNat → s.isLost h = false → s.epochOk h = true → s.admits h room = true →
    (s.accepted h).ffOn h = true → (s.accepted h).pairGroup h = none →
    Completes (.writeFf header data room false) s [.dict, .lanes, .nextResp, .out, .pairTx, .prun, .resps, .sec, .switches, .waiting,
      .xacts] (fun t => t.resps = s.resps ++ [⟨s.nextResp, h, 0, [], [], 0x60, false, false, []⟩])) ∧
  (∀ (header : Desc) data room s h g u h', h = header.toNat → s.isLost h = false → s.epochOk h = true → s.admits h room = true →
    (s.accepted h).ffOn h = true → (s.accepted h).pairGroup h = some g → u = ((s.accepted h).answerNow h 0 [] []).ffOpen h →
    h' = fromEngine (setBits h 287 280 0x04) (48 + g) 3 (u.freeTag (48 + g) 3) →
    Completes (.writeFf header data room false) s [.dict, .lanes, .nextResp, .out, .pairTx, .prun, .resps, .sec, .switches, .waiting,
      .xacts] (fun t =>
      t.resps = s.resps ++ [⟨s.nextResp, h, 0, [], [], 0, false, false, []⟩] ∧
      t = State.pairSend { u with xacts := u.xacts ++ [⟨48 + g, 3, pkTag h', h', u.now, none, 0, 0, pkEpoch h, some (g, false), false,
        [], false⟩] } g h' data)) ∧
  (∀ (header : Desc) data room s h, h = header.toNat → s.isLost h = false → s.epochOk h = true → s.admits h room = true →
    pkPkg h = true → Completes (.message header data room false) s [.dict, .lanes, .nextResp, .out, .pairTx, .resps, .sec, .switches,
      .xacts] (fun t => t = (s.accepted h).toPair h data)) ∧
  (∀ (header : Desc) data room s h, h = header.toNat → s.isLost h = false → s.epochOk h = true → s.admits h room = true →
    pkPkg h = false → Completes (.message header data room false) s [.dict, .lanes, .nextResp, .out, .pairTx, .resps, .sec, .switches,
      .xacts] (fun t => t.resps = s.resps ++ [⟨s.nextResp, h, 0, [], [], 0, false, false, []⟩])) ∧
  (∀ (header : Desc) data s h dies r row, h = header.toNat → s.isLost h = false → s.epochOk h = true → pkSrcDie h < 48 →
    r = pkSrcDie h / 8 → row = s.circuit r (pkSrcDie h) →
    dies = idxs 48 (fun c => bit (pkAddress h % 2 ^ 48) c && (row ++ ((List.range 8).filter (fun c => row.contains (8 * r + c)
      && (List.range 6).any (fun q => q != r && bit (pkAddress h % 2 ^ 48) (8 * q + c)))).flatMap
        (fun c => s.circuit (8 + c) (8 * r + c))).contains c) →
    (∀ c ∈ dies, s.admits (setBits h 255 250 c) true = true) → (dies.map (fun c => s.arrivalDie (setBits h 255 250 c))).Nodup →
    Completes (.mcast header data []) s [.dict, .nextResp, .resps, .switches] (fun t => t.nextResp = s.nextResp + dies.length ∧
      ∃ l, t.resps = s.resps ++ l ∧ l.map Resp.header = dies.map (fun c => setBits h 255 250 c) ∧
      (∀ x ∈ l, x.left = 0 ∧ x.status = 0 ∧ x.bad = []))) ∧
  (∀ (header : Desc) data room s h, h = header.toNat → s.isLost h = false → s.epochOk h = false →
    Completes (.message header data room false) s [.dict, .lanes, .nextResp, .out, .pairTx, .resps, .sec, .switches, .xacts]
      (fun t => t = s.staleRequest h) ∧
    Completes (.writeInline header room) s [.dict, .lanes, .nextResp, .out, .pairTx, .resps, .sec, .switches, .waiting, .xacts]
      (fun t => t = s.staleRequest h) ∧
    Completes (.read header room) s [.dict, .lanes, .nextResp, .out, .pairTx, .resps, .sec, .switches, .waiting, .xacts]
      (fun t => t = s.staleRequest h)) ∧
  (∀ (header : Desc) data room s h, h = header.toNat → s.isLost h = false → s.epochOk h = true → s.admits h room = false →
    Completes (.message header data room false) s [.dict, .lanes, .nextResp, .out, .pairTx, .resps, .sec, .switches, .xacts]
      (fun t => t = s.bounce h) ∧
    Completes (.writeInline header room) s [.dict, .lanes, .nextResp, .out, .pairTx, .resps, .sec, .switches, .waiting, .xacts]
      (fun t => t = s.bounce h) ∧
    Completes (.read header room) s [.dict, .lanes, .nextResp, .out, .pairTx, .resps, .sec, .switches, .waiting, .xacts]
      (fun t => t = s.bounce h))

/-- What a switch and a die do on their own (R182, R184, R188, R190, R196, R200, R419, R425): a header with an uncorrectable error, or a
reserved command, is discarded with its packet and counted; a best-effort injection that has waited 512 band cycles sends a
starvation request the other way, which holds the lower class for 128 cycles; written reservations take effect at the frame; a die
out of service closes the rings beside it; and a die that leaves service takes its state with it. -/
def Obligations.SwitchAndDieEventsComplete : Prop :=
  (∀ (d : DieN) header s, Completes (.headerDiscard d header true) s [.dict, .resps, .xacts] (fun t =>
    OnlyRegs [rSwitch d.val 0xA, rSwitch d.val 0xB] s t ∧
    t.reg (rSwitch d.val 0xB) = (s.reg (rSwitch d.val 0xB) + 1) % 2 ^ 64 ∧
    t.reg (rSwitch d.val 0xA) = (s.reg (rSwitch d.val 0xA) + 1) % 2 ^ 64)) ∧
  (∀ (d : DieN) (header : Desc) s, pkCmd header.toNat ∉ [0x01, 0x02, 0x03, 0x04, 0x05, 0x06, 0x10, 0x11] →
    Completes (.headerDiscard d header false) s [.dict, .resps, .xacts] (fun t => OnlyRegs [rSwitch d.val 0xB] s t ∧
      t.reg (rSwitch d.val 0xB) = (s.reg (rSwitch d.val 0xB) + 1) % 2 ^ 64)) ∧
  (∀ (d : DieN) (header : Desc) s h, h = header.toNat → pkCmd h / 16 ≠ 1 → Completes (.headerDiscard d header true) s [.dict, .resps,
    .xacts] (fun t => t.resps = s.resps ∧
      t.xacts = updWhere (fun x => x.die == pkSrcDie h && x.eng == pkSrcEng h && x.tag == pkTag h) (fun x => { x with lost := true })
        s.xacts)) ∧
  (∀ (d : DieN) row (ply : Fin 12) down s w l rest, w ∈ s.waiting → w.point = .inject d l → w.hop = none →
    w.cycle + 512 ≤ s.clock.cycles → s.wayLeft w = some rest → (∃ st, rest.head? = some st ∧ st.1 = bandAt d.val row ∧
      st.2.1 = down ∧ s.guardedOn w st = false) →
    Completes (.starveRequest d row ply down) s [.dict, .out] (fun t => OnlyRegs [rSwitch d.val 5] s t ∧
      t.reg (rSwitch d.val 5) = (s.reg (rSwitch d.val 5) + 1) % 2 ^ 64 ∧
      t.out = s.out ++ [.starve d.val (bandAt d.val row) ply.val (!down)])) ∧
  (∀ (d : DieN) row (ply : Fin 12) down s, Completes (.starveReceived d row ply down) s [.switches] (fun t =>
    t = s.modSwitch d.val (fun x => { x with holds := x.holds.filter (fun e => e.1 != holdKey row ply.val down) ++
      [(holdKey row ply.val down, s.clock.cycles + 128)] }) ∧
    t.held d.val (holdKey row ply.val down) = true)) ∧
  (∀ s, Completes .reservationEffect s [.resv] (fun t => t.resv = s.resvNext)) ∧
  (∀ (d : DieN) s, s.live d.val = false → Completes (.turnaroundClose d) s [.switches] (fun t =>
    t = (bandsOf d.val).foldl (fun s b => (neighbours b d.val).foldl (fun s n =>
      s.modSwitch n (fun x => { x with turned := setBit x.turned (if b < 8 then 0 else 1) true })) s) s)) ∧
  (∀ (d : DieN) s, Completes (.dieLeavesService d) s [.brims, .cfg, .channels, .dict, .fns, .frames, .free, .arrays, .engines, .hbm,
    .hostMem, .lanes, .mill, .out, .pairTx, .poison, .ports, .power, .prun, .refusals, .resps, .retired, .rst, .sec, .splits,
    .stackSides, .switches, .tests, .waiting, .works, .xacts] (fun t => t = s.leaves d.val)) ∧
  (∀ (c : DieC) s began, (s.dp c.val).trip = some began → Completes (.tripTimeout c) s [.brims, .cfg, .channels, .clock, .dict,
    .fns, .frames, .free, .arrays, .engines, .hbm, .hostMem, .lanes, .mill, .out, .pairTx, .poison, .ports, .power, .prun, .refusals,
    .resps, .retired, .rst, .sec, .splits, .stackSides, .switches, .tests, .waiting, .works, .xacts] (fun t =>
    t = (s.reach (began + 10000000)).leaves c.val))

/-- The transfers of a command's streams (R127, R131, R134–R137, R142–R148, R183, R193, R195–R198): an input transfer and an output
write are issued while the stream, its buffer and its credit allow; a point grants a waiting packet: a band to travel, a channel or
a host port to be served; a response that has crossed the bands delivers or settles its transaction; a transaction that times out
is retired; and a rate window counts what was popped. -/
def Obligations.TransferEventsComplete : Prop :=
  (∀ c (fin : Fin 256) (die : DieC) popped back s u v f st, u = s.onStream c fin.val die.val (fun s f st =>
      s.popStream f c st (popped : W32).toNat (back : W32).toNat) →
    v = u.onStream c fin.val die.val (fun s f st => s.settleSpace f c st) →
    v.find c = some f → f.cmd.stream fin.val die.val = some st →
    Completes (.transferIssue c fin die popped back) s [.dict, .prun, .waiting, .xacts] (fun t => t = v.issueRead f c st ∧
      ∀ m, st.moves[st.issued]? = some m → f.cmd.phase = .issued → st.mayRead = true → st.home ≠ 3 →
        t = v.issueMove f c st m false [])) ∧
  (∀ c (fin : Fin 128) (die : DieC) s u f st, u = s.onStream c fin.val die.val (fun s f st => s.settleSpace f c st) →
    u.find c = some f → f.cmd.stream fin.val die.val = some st → Completes (.outputWriteIssue c fin die) s [.dict,
      .prun, .waiting, .xacts] (fun t => t = u.issueWrite f c st)) ∧
  (∀ (x : DieN) row down (ply : Fin 12) ecc s, Completes (.arbitrationGrant (.inject x row) down ply ecc) s [.channels, .dict, .free,
    .hostMem, .out, .resps, .splits, .waiting, .xacts] (fun t =>
      t = (s.queueReady.bumpSwitches 9 ecc).grantSlot (.inject x row) x.val row down ply.val)) ∧
  (∀ (m : StackN) (ch : Fin 32) down (ply : Fin 12) ecc s r here p q w u v, r = s.queueReady →
    here = r.waiting.filter (fun w => w.point == .channel m ch) → r.channelTurn (pointNum (.channel m ch)) here = (some p, q) →
    q.arbitrate p (pointNum (.channel m ch)) (here.filter (fun w => w.p == p)) = (some w, u) →
    v = (u.unwait w).bump (rStack m.val (0x40 + ch.val)) 1 →
    Completes (.arbitrationGrant (.channel m ch) down ply ecc) s [.channels, .dict, .free, .hostMem, .out, .resps,
      .splits, .waiting, .xacts] (fun t =>
      t = v.setJobs m.val ch.val (v.jobs m.val ch.val ++ [⟨p, w.resp, pkCmd w.header != 0x01, u.channelWords w m.val ch.val⟩]))) ∧
  (∀ (f : Fn) down (ply : Fin 12) ecc s r here e w u, r = s.queueReady →
    here = (r.waiting.filter (fun w => w.point == .host f)).filter (fun w => r.dmaOpen w.p) →
    argmin (fun w => w.since) here = some e → r.arbitrate e.p (pointNum (.host f)) here = (some w, u) →
    Completes (.arbitrationGrant (.host f) down ply ecc) s [.channels, .dict, .free, .hostMem, .out, .resps, .splits, .waiting,
      .xacts] (fun t =>
      (pkCmd w.header = 0x01 → t = (u.unwait w).emit (.hostRead f (pkAddress w.header / 128 * 128) (128 * pkLen w.header))) ∧
      (pkCmd w.header ≠ 0x01 → t = ((u.unwait w).hostWrite (pkAddress w.header) w.data).modResp w.resp
        (fun r => { r with left := 1 })))) ∧
  (∀ (die : DieN) (eng : Fin 16) (tag : BitVec 16) (lost : List (Fin 32)) s r,
    s.readyResp die.val eng.val tag.toNat true = some r → Completes (.readData die eng tag lost) s [.dict, .lanes, .out, .pairTx,
      .prun, .resps, .sec, .xacts] (fun t =>
      t = ((s.takeResp r).bump (rSwitch die.val 0xA) lost.length).respond die.val eng.val tag.toNat (fun x s =>
        (s.deliver x r.data (r.bad ++ lost.map Fin.val) r.status).pairAnswer x
          (if r.status = 0 ∧ r.bad ++ lost.map Fin.val ≠ [] then 0x20 else r.status) r.data))) ∧
  (∀ (die : DieN) (eng : Fin 16) (tag : BitVec 16) s r, s.readyResp die.val eng.val tag.toNat false = some r →
    Completes (.settle die eng tag) s [.dict, .lanes, .out, .pairTx, .prun, .resps, .sec, .xacts] (fun t =>
      t = (s.takeResp r).respond die.val eng.val tag.toNat (fun x s => (s.settled x r.status).pairAnswer x r.status []))) ∧
  (∀ (die : DieN) (eng : Fin 16) (tag : BitVec 16) s x lim v u, s.xact die.val eng.val tag.toNat = some x →
    lim = s.xactLimit (pkPart x.header) → v = s.reach (x.at_ + lim) →
    u = State.bump { v with xacts := s.xacts.erase x, waiting := s.waiting.filter (fun w => !(w.stream.isSome && w.stream == x.stream
      && w.header == x.header)), retired := s.retired.filter (fun r => decide (v.now < r.till)) ++ [⟨x.die, x.eng, x.tag, v.now + 2 * lim⟩] }
      (rSwitch die.val 0xC) 1 → Completes (.xactTimeout die eng tag) s [.clock, .dict, .fns, .free, .hostMem, .lanes, .out, .pairTx,
        .prun, .retired, .sec, .waiting, .xacts] (fun t =>
        t = if x.link.any (fun l => l.2) then u.pairAnswer x (if pkCmd x.header = 0x01 then 0x20 else 0x21) []
          else if pkCmd x.header = 0x04 then u.ffResolve x.header 0x21 x.at_
          else if pkCmd x.header = 0x01 then u.deliver x [] (allUnits x.header) 0 else u.settled x 0x21)) ∧
  (∀ c (fin : Fin 256) (die : DieC) (popped back : W32) late s u f st q, u = s.onStream c fin.val die.val (fun s f st =>
      s.popStream f c st popped.toNat back.toNat) → u.find c = some f →
    f.cmd.stream fin.val die.val = some st → q = sQid (endSlot f.prog.descs f.cmd.idx fin.val) →
    Completes (.rateWindow c fin die popped back late) s [.dict, .prun] (fun t =>
      t = (late.filter (fun e => st.lateFits e.1.val)).foldl (fun s e => s.monitor f.p q (0x10 + e.1.val) e.2.toNat)
        (u.modRef c (fun x => x.modStream fin.val die.val Stream.window))))

/-- The control family (R86, R94, R102, R111, R140, R141): a command whose inputs have arrived is computed, its engines counted; the
counter named takes IMM0, itself plus IMM0 modulo 2^32, or the popped INT32 element when the command completes (R94), and parts that
read poison report it.  In a run that the spec leaves undefined a counter computed from bytes concerned is free (R126; log 52). -/
def Obligations.ControlCommandsComplete : Prop :=
  (∀ c s f, s.find c = some f → dOpcode f.desc = 0x00 → s.canCompute f = true →
    Completes (.nop c) s [.dict, .engines, .free, .prun] (fun t =>
      t = (if f.run.undef then ((s.endEngines f).popAll f).draw else (s.endEngines f).popAll f).modRef c (fun x =>
        { x.readBad f.prog.descs with ctr := none, phase := .computed, settledAt := s.now }))) ∧
  (∀ c s f, s.find c = some f → dOpcode f.desc = 0x04 → s.canCompute f = true →
    Completes (.notify c) s [.dict, .engines, .free, .prun] (fun t =>
      t = (if f.run.undef then ((s.endEngines f).popAll f).draw else (s.endEngines f).popAll f).modRef c (fun x =>
        { x.readBad f.prog.descs with ctr := none, phase := .computed, settledAt := s.now }))) ∧
  (∀ c s f, s.find c = some f → dOpcode f.desc = 0x01 → s.canCompute f = true →
    Completes (.ctrSet c) s [.dict, .engines, .free, .prun] (fun t =>
      t = (if f.run.undef then ((s.endEngines f).popAll f).draw else (s.endEngines f).popAll f).modRef c (fun x =>
        { x.readBad f.prog.descs with
          ctr := some (if f.run.tainted f.prog.descs f.cmd.idx then leNat (freeBytes s.drawn 4) else dImm f.desc 0)
          phase := .computed, settledAt := s.now }))) ∧
  (∀ c s f, s.find c = some f → dOpcode f.desc = 0x02 → s.canCompute f = true →
    Completes (.ctrAdd c) s [.dict, .engines, .free, .prun] (fun t =>
      t = (if f.run.undef then ((s.endEngines f).popAll f).draw else (s.endEngines f).popAll f).modRef c (fun x =>
        { x.readBad f.prog.descs with
          ctr := some (if f.run.tainted f.prog.descs f.cmd.idx then leNat (freeBytes s.drawn 4)
            else (f.run.ctrs.getD (dSubop f.desc % 16) 0 + dImm f.desc 0) % 2 ^ 32)
          phase := .computed, settledAt := s.now }))) ∧
  (∀ c stalls s f e u, s.find c = some f → dOpcode f.desc = 0x03 → s.canCompute f = true →
    f.run.tainted f.prog.descs f.cmd.idx = false → f.cmd.finish 0 = some e → u = ((s.engineStalls f stalls).endEngines f).popAll f →
    Completes (.ctrLoad c stalls) s [.dict, .engines, .free, .prun] (fun t =>
      t = (if f.run.undef then u.draw else u).modRef c (fun x =>
        { x.readBad f.prog.descs with ctr := some (leNat (slice e.data 0 4)), phase := .computed, settledAt := s.now })))

/-- The data movement and the arithmetic families (R79, R86–R89, R111, R126, R140, R157, R160), in every run, one with an undefined
case too: a command whose inputs have arrived is carried out with the outputs that `outsOf` computes from its descriptors, its seed
and its inputs; its engines are counted, its work units end, its inputs are kept and measured, and its outputs end. -/
def Obligations.OperationsComplete : Prop :=
  ∀ c stalls s f i op st, (i, op, st) ∈ [(Instr.move c stalls, 0x10, stalls), (.slice c stalls, 0x11, stalls),
      (.concat c stalls, 0x12, stalls), (.gather c stalls, 0x13, stalls), (.scatter c stalls, 0x14, stalls), (.tee c stalls, 0x15, stalls),
      (.fill c stalls, 0x16, stalls), (.matmul c, 0x20, []), (.matmulBatched c, 0x21, []), (.vecChain c, 0x30, []),
      (.rowOp c, 0x31, []), (.colReduce c, 0x32, []), (.laccSum c, 0x33, [])] →
    s.find c = some f → dOpcode f.desc = op → s.canCompute f = true →
    Completes i s [.arrays, .dict, .engines, .free, .prun, .sec, .works] (fun t =>
      t = s.carriedOut f st (outsOf f f.cmd.ends) ∧ ∀ g, t.find c = some g → g.cmd.phase = .computed)

/-- The data-movement family (R79, R86): a command whose inputs have arrived is carried out, its output stands whole, and each element
of it comes from where R86 says: MOVE and TEE copy, SLICE takes the sub-array at its offsets, CONCAT joins below or to the right,
GATHER takes the indexed row or +0, SCATTER replaces the rows indexed, the highest index winning, and FILL gives every element IMM0
and IMM1's encoding. -/
def Obligations.DataMovementCompletes : Prop :=
  (∀ c stalls s f, s.Fed c f 0x10 → f.names 4 →
    Completes (.move c stalls) s [.arrays, .dict, .engines, .free, .prun, .sec, .works] (fun t =>
      t = s.carriedOut f stalls (outsOf f f.cmd.ends) ∧
      ∃ y, t.Gave c 4 (f.bytesAt 4 (packItem y)) ∧ Copied (f.input 0) (f.turned 0) y)) ∧
  (∀ c stalls s f, s.Fed c f 0x11 → f.names 4 →
    Completes (.slice c stalls) s [.arrays, .dict, .engines, .free, .prun, .sec, .works] (fun t =>
      t = s.carriedOut f stalls (outsOf f f.cmd.ends) ∧
      ∃ y, t.Gave c 4 (f.bytesAt 4 (packItem y)) ∧
        Moved [f.input 0] (sFmt (dSlot f.desc 4)) (sRows (dSlot f.desc 4)) (sCols (dSlot f.desc 4)) (f.along 4) f.conv
          (fun r c => tsrc 0 (f.turned 0) (dImm f.desc 0 + r) (dImm f.desc 1 + c)) y)) ∧
  (∀ c stalls s f sh, s.Fed c f 0x12 → f.names 4 → sh = opShape (f.input 0) (f.turned 0) →
    Completes (.concat c stalls) s [.arrays, .dict, .engines, .free, .prun, .sec, .works] (fun t =>
      t = s.carriedOut f stalls (outsOf f f.cmd.ends) ∧
      ∃ y, t.Gave c 4 (f.bytesAt 4 (packItem y)) ∧
        Moved [f.input 0, f.input 1] (sFmt (dSlot f.desc 4)) (sRows (dSlot f.desc 4)) (sCols (dSlot f.desc 4)) (f.along 4) f.conv
          (fun r c =>
            if dSubop f.desc = 1 then (if c < sh.2 then tsrc 0 (f.turned 0) r c else tsrc 1 (f.turned 1) r (c - sh.2))
            else (if r < sh.1 then tsrc 0 (f.turned 0) r c else tsrc 1 (f.turned 1) (r - sh.1) c)) y)) ∧
  (∀ c stalls s f ix, s.Fed c f 0x13 → f.names 4 → ix = indexAt (f.input 1) (f.turned 1) →
    Completes (.gather c stalls) s [.arrays, .dict, .engines, .free, .prun, .sec, .works] (fun t =>
      t = s.carriedOut f stalls (outsOf f f.cmd.ends) ∧
      ∃ y, t.Gave c 4 (f.bytesAt 4 (packItem y)) ∧
        Moved [f.input 0] (sFmt (dSlot f.desc 4)) (sRows (dSlot f.desc 4)) (sCols (dSlot f.desc 4)) (f.along 4) f.conv
          (fun r c => if 0 ≤ ix r ∧ ix r < ((opShape (f.input 0) (f.turned 0)).1 : Int) then tsrc 0 (f.turned 0) (ix r).toNat c
            else none) y)) ∧
  (∀ c stalls s f ix n, s.Fed c f 0x14 → f.names 4 → ix = indexAt (f.input 1) (f.turned 1) →
    n = (opShape (f.input 0) (f.turned 0)).1 →
    Completes (.scatter c stalls) s [.arrays, .dict, .engines, .free, .prun, .sec, .works] (fun t =>
      t = s.carriedOut f stalls (outsOf f f.cmd.ends) ∧
      ∃ y src, t.Gave c 4 (f.bytesAt 4 (packItem y)) ∧
        Moved [f.input 0, f.input 2] (sFmt (dSlot f.desc 4)) (sRows (dSlot f.desc 4)) (sCols (dSlot f.desc 4)) (f.along 4) f.conv src y ∧
        (∀ i r c : Nat, i < n → ix i = (r : Int) → (∀ j, i < j → j < n → ix j ≠ (r : Int)) → src r c = tsrc 0 (f.turned 0) i c) ∧
        (∀ r c : Nat, (∀ i, i < n → ix i ≠ (r : Int)) → src r c = tsrc 1 (f.turned 2) r c))) ∧
  (∀ c stalls s f, s.Fed c f 0x15 →
    Completes (.tee c stalls) s [.arrays, .dict, .engines, .free, .prun, .sec, .works] (fun t =>
      t = s.carriedOut f stalls (outsOf f f.cmd.ends) ∧
      ∃ y, Copied (f.input 0) (f.turned 0) y ∧ ∀ i, 4 ≤ i → i < 8 → f.names i → t.Gave c i (f.bytesAt i (packItem y)))) ∧
  (∀ c stalls s f o, s.Fed c f 0x16 → f.names 4 → o = dSlot f.desc 4 →
    Completes (.fill c stalls) s [.arrays, .dict, .engines, .free, .prun, .sec, .works] (fun t =>
      t = s.carriedOut f stalls (outsOf f f.cmd.ends) ∧
      ∃ y, t.Gave c 4 (f.bytesAt 4 (packItem y)) ∧ y.fmt = sFmt o ∧ y.rows = sRows o ∧ y.cols = sCols o ∧
        ∀ r c, r < sRows o → c < sCols o →
          codeAt y r c = (dImm f.desc 0 + 2 ^ 32 * dImm f.desc 1) % 2 ^ fmtWidth (sFmt o) ∧
          (fmtMx (sFmt o) = true → scaleAt y r c = 0x7F)))

/-- The matrix products (R24, R33, R36, R86, R87): each element of the result is the product sum of its row of IN0 and its column of
IN1, as the operation uses them, in the mode of SUBOP; a batched product takes its problems from the rows of its operands. -/
def Obligations.MatrixProductsComplete : Prop :=
  (∀ c s f, s.Fed c f 0x20 → f.names 4 → 0 < (opShape (f.input 1) (f.turned 1)).1 →
    Completes (.matmul c) s [.arrays, .dict, .engines, .free, .prun, .sec, .works] (fun t =>
      t = s.carriedOut f [] (outsOf f f.cmd.ends) ∧
      ∃ rows, t.Gave c 4 (f.bytesAt 4 (encResult f.desc f.run.seed (dSlot f.desc 4) (accFmt f.desc) rows)) ∧
        Shaped rows (opShape (f.input 0) (f.turned 0)).1 (opShape (f.input 1) (f.turned 1)).2 ∧
        ∀ i j, i < (opShape (f.input 0) (f.turned 0)).1 → j < (opShape (f.input 1) (f.turned 1)).2 →
          cell rows i j = (dotMode (matMode f.desc) (fmtInt (sFmt (dSlot f.desc 0))) (dSat f.desc)
            ((List.range (opShape (f.input 0) (f.turned 0)).2).map (fun k => usedAt (f.input 0) (f.turned 0) i k))
            ((List.range (opShape (f.input 1) (f.turned 1)).1).map (fun k => usedAt (f.input 1) (f.turned 1) k j))).1)) ∧
  (∀ c s f n a b, s.Fed c f 0x21 → f.names 4 → n = dImm f.desc 0 → a = problemShape (dSlot f.desc 0) n →
    b = problemShape (dSlot f.desc 1) n → 0 < b.1 → 0 < b.2 →
    Completes (.matmulBatched c) s [.arrays, .dict, .engines, .free, .prun, .sec, .works] (fun t =>
      t = s.carriedOut f [] (outsOf f f.cmd.ends) ∧
      ∃ rows, t.Gave c 4 (f.bytesAt 4 (encResult f.desc f.run.seed (dSlot f.desc 4) (accFmt f.desc) rows)) ∧ Shaped rows (n * a.1) b.2 ∧
        ∀ q i j, q < n → i < a.1 → j < b.2 →
          cell rows (q * a.1 + i) j = (dotMode (matMode f.desc) (fmtInt (sFmt (dSlot f.desc 0))) (dSat f.desc)
            ((List.range a.2).map (fun k => problemAt (f.input 0) (f.turned 0) n q i k))
            ((List.range b.1).map (fun k => problemAt (f.input 1) (f.turned 1) n q k j))).1))

/-- The vector family (R68, R70, R71, R86, R88, R89): a chain runs on every element with IN1 spread from one row or one column; a row
operation on every row; a reduction combines each column by the tree of R70; and LACC_SUM adds its items exactly where their sums
fit in 48 bits. -/
def Obligations.VectorCommandsComplete : Prop :=
  (∀ c s f (w : Fmt × Flt) a, s.Fed c f 0x30 → f.names 4 → w = (if dSubop f.desc % 2 = 1 then (.fp64, flt64) else (.fp32, flt32)) →
    a = opShape (f.input 0) (f.turned 0) →
    Completes (.vecChain c) s [.arrays, .dict, .engines, .free, .prun, .sec, .works] (fun t =>
      t = s.carriedOut f [] (outsOf f f.cmd.ends) ∧
      ∃ rows, t.Gave c 4 (f.bytesAt 4 (encResult f.desc f.run.seed (dSlot f.desc 4) w.1 rows)) ∧ Shaped rows a.1 a.2 ∧
        ∀ i j, i < a.1 → j < a.2 → ∃ y,
          cell rows i j = runChain w.2 (toWork w.1 (dSat f.desc) (usedAt (f.input 0) (f.turned 0) i j)) y (dImm f.desc 6) (dImm f.desc 7)
            (chainOf (chainImm f.desc)) ∧
          ∀ k l, sUsed (dSlot f.desc 1) = true → k = (if (opShape (f.input 1) (f.turned 1)).1 = 1 then 0 else i) →
            l = (if (opShape (f.input 1) (f.turned 1)).2 = 1 then 0 else j) → k < (opShape (f.input 1) (f.turned 1)).1 →
            l < (opShape (f.input 1) (f.turned 1)).2 → y = toWork w.1 (dSat f.desc) (usedAt (f.input 1) (f.turned 1) k l))) ∧
  (∀ c s f a (vec : Nat → List Val), s.Fed c f 0x31 → f.names 4 → a = opShape (f.input 0) (f.turned 0) →
    vec = (fun i => if sUsed (dSlot f.desc i) = true ∧ 0 < (opShape (f.input i) (f.turned i)).1 then
      (List.range (opShape (f.input i) (f.turned i)).2).map (fun k => toWork .fp32 (dSat f.desc) (usedAt (f.input i) (f.turned i) 0 k))
      else []) →
    Completes (.rowOp c) s [.arrays, .dict, .engines, .free, .prun, .sec, .works] (fun t =>
      t = s.carriedOut f [] (outsOf f f.cmd.ends) ∧
      ∃ rows, t.Gave c 4 (f.bytesAt 4 (encResult f.desc f.run.seed (dSlot f.desc 4) .fp32 rows)) ∧ rows.length = a.1 ∧
        ∀ i, i < a.1 → rows.getD i [] = rowOp (dSubop f.desc) (f32 (dImm f.desc 6)) (vec 1) (vec 2)
          ((List.range a.2).map (fun k => toWork .fp32 (dSat f.desc) (usedAt (f.input 0) (f.turned 0) i k))))) ∧
  (∀ c s f a, s.Fed c f 0x32 → f.names 4 → a = opShape (f.input 0) (f.turned 0) →
    Completes (.colReduce c) s [.arrays, .dict, .engines, .free, .prun, .sec, .works] (fun t =>
      t = s.carriedOut f [] (outsOf f f.cmd.ends) ∧
      ∃ rows, t.Gave c 4 (f.bytesAt 4 (encResult f.desc f.run.seed (dSlot f.desc 4) (reduceFmt (sFmt (dSlot f.desc 0))) rows)) ∧
        Shaped rows 1 a.2 ∧ ∀ j, j < a.2 →
          cell rows 0 j = (treeGroups (reduceFn (sFmt (dSlot f.desc 0)) (dSubop f.desc) (dSat f.desc) false)
            ((List.range a.1).map (fun i => usedAt (f.input 0) (f.turned 0) i j))).getD .nan)) ∧
  (∀ c s f n bs (item : Nat → Item) a (v : Nat → Nat → Nat → Int), s.Fed c f 0x33 → f.names 4 → n = dImm f.desc 0 → 0 < n →
    bs = inputOf f f.cmd.ends 0 0 →
    item = (fun k => slotItem (dSlot f.desc 0) (f.along 0) (slice bs (k * (bs.length / n)) (bs.length / n))) →
    a = sShape (dSlot f.desc 0) → v = (fun k i j => valToInt (usedAt (item k) (f.turned 0) i j)) →
    Completes (.laccSum c) s [.arrays, .dict, .engines, .free, .prun, .sec, .works] (fun t =>
      t = s.carriedOut f [] (outsOf f f.cmd.ends) ∧
      ∃ rows, t.Gave c 4 (f.bytesAt 4 (encResult f.desc f.run.seed (dSlot f.desc 4) .int48 rows)) ∧ Shaped rows a.1 a.2 ∧
        ∀ i j, i < a.1 → j < a.2 →
          (∀ m, m ≤ n → -(2 ^ 47) ≤ ((List.range m).map (fun k => v k i j)).sum ∧ ((List.range m).map (fun k => v k i j)).sum < 2 ^ 47) →
          cell rows i j = valInt ((List.range n).map (fun k => v k i j)).sum))

/-- The collectives (R86, R90, R235): once every member has contributed, each member in this package receives what the operation gives
its place: the members' elements combined in ascending member number, all of them or its share; the members' items one below the
other; or the root's item.  Failed digests are counted and reported.  A member that waits past GROUP_LIMIT reports TIMEOUT. -/
def Obligations.CollectivesComplete : Prop :=
  (∀ c remote lost odd stalls s f l, s.find c = some f → s.Contributed f remote 0x40 l →
    Completes (.allReduce c remote lost odd stalls) s [.dict, .engines, .free, .prun, .sec] (fun t =>
      t = s.shared f stalls lost.length (odd.map Fin.val) l ∧
      ∀ (j : Nat) (e : Contribution) (x : Found), l[j]? = some e → e.local_ = some x → ∃ rows, t.Gave (refOf x.p x.run.id x.cmd.idx) 4
          (x.bytesAt 4 (encResult x.desc x.run.seed (dSlot x.desc 4) (collectiveFmt (sFmt (dSlot x.desc 0))) rows)) ∧
        ∀ r k, (∀ e ∈ l, r < (opShape e.item e.tr).1 ∧ k < (opShape e.item e.tr).2) →
          cell rows r k = sumFirst (reduceFn (sFmt (dSlot x.desc 0)) (dSubop x.desc) (dSat x.desc) true)
            (l.map (fun e => usedAt e.item e.tr r k)))) ∧
  (∀ c remote lost odd stalls s f l, s.find c = some f → s.Contributed f remote 0x41 l →
    Completes (.allGather c remote lost odd stalls) s [.dict, .engines, .free, .prun, .sec] (fun t =>
      t = s.shared f stalls lost.length (odd.map Fin.val) l ∧
      ∀ (j : Nat) (e : Contribution) (x : Found), l[j]? = some e → e.local_ = some x → ∃ y, t.Gave (refOf x.p x.run.id x.cmd.idx) 4 (x.bytesAt 4 (packItem y)) ∧
        Moved (l.map Contribution.item) (sFmt (dSlot x.desc 4)) (sRows (dSlot x.desc 4)) (sCols (dSlot x.desc 4))
          (slotAlong x.prog.descs (dSlot x.desc 4)) x.conv
          (fun r k => tsrc (r / (sShape (dSlot x.desc 0)).1)
            ((l.map Contribution.tr).getD (r / (sShape (dSlot x.desc 0)).1) false) (r % (sShape (dSlot x.desc 0)).1) k) y)) ∧
  (∀ c remote lost odd stalls s f l, s.find c = some f → s.Contributed f remote 0x42 l →
    Completes (.reduceScatter c remote lost odd stalls) s [.dict, .engines, .free, .prun, .sec] (fun t =>
      t = s.shared f stalls lost.length [] l ∧
      ∀ (j : Nat) (e : Contribution) (x : Found) (n : Nat), l[j]? = some e → e.local_ = some x → n = (sShape (dSlot x.desc 0)).1 / l.length →
        ∃ rows, t.Gave (refOf x.p x.run.id x.cmd.idx) 4
          (x.bytesAt 4 (encResult x.desc x.run.seed (dSlot x.desc 4) (collectiveFmt (sFmt (dSlot x.desc 0))) rows)) ∧
        ∀ r k, r < n → (∀ e ∈ l, j * n + r < (opShape e.item e.tr).1 ∧ k < (opShape e.item e.tr).2) →
          cell rows r k = sumFirst (reduceFn (sFmt (dSlot x.desc 0)) (dSubop x.desc) (dSat x.desc) true)
            (l.map (fun e => usedAt e.item e.tr (j * n + r) k)))) ∧
  (∀ c remote lost odd stalls s f l, s.find c = some f → s.Contributed f remote 0x43 l →
    Completes (.broadcast c remote lost odd stalls) s [.dict, .engines, .free, .prun, .sec] (fun t =>
      t = s.shared f stalls lost.length (odd.map Fin.val) l ∧
      ∀ (j : Nat) (e : Contribution) (x : Found), l[j]? = some e → e.local_ = some x → ∃ y, t.Gave (refOf x.p x.run.id x.cmd.idx) 4 (x.bytesAt 4 (packItem y)) ∧
        Moved (l.map Contribution.item) (sFmt (dSlot x.desc 4)) (sRows (dSlot x.desc 4)) (sCols (dSlot x.desc 4))
          (slotAlong x.prog.descs (dSlot x.desc 4)) x.conv
          (fun r k => tsrc (dImm x.desc 1) ((l.map Contribution.tr).getD (dImm x.desc 1) false) r k) y)) ∧
  (∀ c s f, s.find c = some f → f.cmd.phase = .issued → f.cmd.fixed = none → dOpcode f.desc / 16 = 4 →
    Completes (.collectiveTimeLimit c) s [.arrays, .clock, .dict, .engines, .free, .prun, .works] (fun t =>
      t = (s.reach (f.cmd.start + 1000 * s.reg (key (0x2800 + dGroup f.desc) 1))).failCmd f 0x11))

/-- Issue, markers and the end of commands and runs (R92, R94–R96, R100, R101, R106–R111, R150–R153): a command whose dependencies are released issues
to its engines, or is skipped where its predicate is false or a marker stands at a queue it pops; a skip pops the markers; a
command whose settle counts have returned completes, in mirrored mode after the partner's digests; a run whose commands are complete
writes its record; a run past its limit ends its commands; and the youngest of commands that wait for one another in 64 samples ends. -/
def Obligations.CommandAndRunEventsComplete : Prop :=
  (∀ c logs s f, s.find c = some f → s.mayIssue f = true → (s.prn f.p).inFlight < 256 →
    predicate f.prog.header f.desc f.run.ctrs = true → markerAt f.prog.descs f.run c.cmd = false →
    (dReplay f.desc = false ∨ s.guardBusy f.p = false) → s.yields f = false →
    s.refusedAtIssue f (s.partsOf f.p f.run f.prog.descs f.cmd.idx) = false →
    (∀ x ∈ s.partsOf f.p f.run f.prog.descs f.cmd.idx, s.portBusy f.prog.descs f.cmd.idx x.die = false) →
    Completes (.commandIssue c logs) s [.arrays, .dict, .engines, .free, .out, .power, .prun, .refusals, .works] (fun t =>
      t = s.issueCmd c f logs ∧ ∃ l, t.out = l ++ [.microOps c (maskOf (((s.partsOf f.p f.run f.prog.descs f.cmd.idx).map
        Part.die).filter (fun x => decide (x < 48))))])) ∧
  (∀ c logs s f, s.find c = some f → s.mayIssue f = true → (s.prn f.p).inFlight < 256 →
    predicate f.prog.header f.desc f.run.ctrs = true → markerAt f.prog.descs f.run c.cmd = false →
    (dReplay f.desc = false ∨ s.guardBusy f.p = false) → s.yields f = false →
    s.refusedAtIssue f (s.partsOf f.p f.run f.prog.descs f.cmd.idx) = true →
    Completes (.commandIssue c logs) s [.prun, .refusals] (fun t =>
      t = s.refuseIssue c f ∧ t.refusals = s.refusals ++ [(s.now + 20000, .command c)])) ∧
  (∀ c logs s f, s.find c = some f → s.mayIssue f = true → (s.prn f.p).inFlight < 256 →
    (predicate f.prog.header f.desc f.run.ctrs = false ∨ markerAt f.prog.descs f.run c.cmd = true) →
    Completes (.commandIssue c logs) s [.arrays, .dict, .engines, .prun, .works] (fun t => t = s.skipCmd f)) ∧
  (∀ c s f, s.find c = some f → markerAt f.prog.descs f.run c.cmd = true →
    (f.cmd.phase = .issued ∨ (f.cmd.phase = .waiting ∧ depsReleased f.prog.descs f.run f.desc = true)) →
    Completes (.skipMarkerPop c) s [.arrays, .dict, .engines, .prun, .works] (fun t => t = s.skipCmd f)) ∧
  (∀ c s f, s.find c = some f → canComplete f = true → s.mirrored f.p = false →
    Completes (.commandComplete c) s [.arrays, .brims, .dict, .fns, .free, .hostMem, .out, .power, .prun, .works]
      (fun t => t = s.completeCmd f)) ∧
  (∀ c s f, s.find c = some f → canComplete f = true → s.mirrored f.p = true → memoryOutputs f.prog.descs c.cmd ≠ [] →
    (∀ x ∈ f.cmd.parts, x.fails = []) → f.cmd.fixed = none →
    Completes (.commandComplete c) s [.prun] (fun t => t = s.modRef c (fun x => { x with mirror := some s.now }))) ∧
  (∀ (p : PartN) run s q r, q = p.val + 1 → s.run q run = some r → r.recording = false → (∀ c ∈ r.cmds, c.phase = .complete) →
    Completes (.runComplete p run) s [.fns, .free, .hostMem, .out, .prun] (fun t =>
      t = ((s.modPr q (fun x => { x with bufs := x.bufs.filter (fun b => b.run != run) })).modRun q run
        (fun x => { x with recording := true })).writeRecord q (runRecord r ((s.prn q).ff.any
          (fun t => t.runSeq == r.seq)) s.now))) ∧
  (∀ (p : PartN) run s q r, q = p.val + 1 → s.run q run = some r → r.recording = false →
    Completes (.runTimeLimit p run) s [.arrays, .brims, .clock, .dict, .engines, .free, .out, .power, .prun, .works] (fun t =>
      t = r.cmds.foldl (fun u c => match u.find (refOf q run c.idx) with
        | none => u
        | some f => u.endCmd f 0x11) (s.reach (r.start + 1000 * r.limit)))) ∧
  (∀ (p : PartN) s q u ages, q = p.val + 1 →
    ages = (s.waitEdges q).map (fun e => (e, 1 + ((s.prn q).waits.find? (fun w => w.1 == e)).elim 0 (fun w => w.2))) →
    u = s.modPr q (fun r => { r with waits := ages }) →
    Completes (.waitForSample p) s [.arrays, .brims, .dict, .engines, .free, .out, .power, .prun, .works] (fun t =>
      t = (u.youngest q ((ages.filter (fun e => decide (64 ≤ e.2))).map (fun e => e.1))).foldl (fun v x => v.abortCmd q x) u ∧
      ((∀ e ∈ ages, e.2 < 64) → t = u)))

/-- Brim stages and fused chains (R91, R99, R100, R140, R288, R291–R293, R299, R300, R317): a port attaches on the dies of its parts; an
item closes at its size; an item that the fabric ends early is closed at the point reached and reports WRITE_ERROR; a stage that ends
before its items detaches its ports; a stage past its limit, which a reconfiguration suspends, reports TIMEOUT; a command with brim
stages, when their items have all ended, counts what its ports delivered and each output holds what its stage put out; and a fused
chain runs its stages in order, joined by links. -/
def Obligations.BrimStageCommandsComplete : Prop :=
  (∀ c (stage : Fin 8) s f d, s.find c = some f → brimStage f stage.val = some d → f.cmd.phase = .issued →
    Completes (.portAttach c stage) s [.brims, .dict] (fun t =>
      t = (f.cmd.parts.filter (fun x => decide (x.die < 48))).foldl (fun u x =>
        if (u.attachment c x.die stage.val).isSome || (u.brim x.die).attach.any (fun a => a.port == dImm d 0 % 256) then u
        else (u.modBrim x.die (fun b => { b with
          attach := b.attach ++ [⟨dImm d 0 % 256, f.p, c.run, c.cmd, stage.val, false, 0, 0⟩] })).bump (rBrim x.die 1) 1) s ∧
      ∀ x ∈ f.cmd.parts, x.die < 48 → s.attachment c x.die stage.val = none →
        ∀ slot, (t.slotView x.die (dImm d 0 % 256) slot).active = true)) ∧
  (∀ c (fin : Fin 128) data s f e x size, s.find c = some f → f.cmd.phase = .issued → e = endOf f fin.val → dOpcode e.1 = 0x50 →
    4 ≤ fin.val % 8 → f.cmd.finish fin.val = some x → x.full = false → size = endSize f.prog.descs f.cmd.idx e.2 →
    size ≤ data.length → s.stageRuns c f (fin.val / 8) = true → Completes (.itemClose c fin data) s [.dict, .prun] (fun t =>
      t = f.cmd.parts.foldl (fun u y =>
        (u.bump (rBrim y.die 3) 1).bump (rBrim y.die 0xB) (spanBytes (brimSpans f fin.val y) size))
        (s.modRef c (fun z => z.modEnd fin.val (fun w => { w with data := data.take size, full := true }))) ∧
      ∃ g, t.find c = some g ∧ g.cmd.finish fin.val = some { x with data := data.take size, full := true })) ∧
  (∀ c (fin : Fin 128) data s f e x size, s.find c = some f → f.cmd.phase = .issued → e = endOf f fin.val → dOpcode e.1 = 0x50 →
    4 ≤ fin.val % 8 → f.cmd.finish fin.val = some x → x.full = false → size = endSize f.prog.descs f.cmd.idx e.2 →
    data.length < size → s.stageRuns c f (fin.val / 8) = true → Completes (.fabricEnd c fin data) s [.dict, .prun] (fun t =>
      t = f.cmd.parts.foldl (fun u y =>
        (u.bump (rBrim y.die 4) (b2n ((brimSpans f fin.val y).any (spansMeet (data.length, size - data.length))))).bump
          (rBrim y.die 0xB) (spanBytes (brimSpans f fin.val y) data.length))
        (s.modRef c (fun z => f.cmd.parts.foldl (fun z y =>
          if (brimSpans f fin.val y).any (spansMeet (data.length, size - data.length)) then
            z.fail y.die 0x21 (if sLink e.2 then 0x3FF else sQid e.2) else z)
          (z.modEnd fin.val (fun w => { w with data := slice data 0 size, bad := w.bad ++ [(data.length, size - data.length)],
                                               full := true })))) ∧
      ∃ g, t.find c = some g ∧ g.cmd.finish fin.val =
        some { x with data := slice data 0 size, bad := x.bad ++ [(data.length, size - data.length)], full := true })) ∧
  (∀ c (stage : Fin 8) s f u, s.find c = some f → f.cmd.phase = .issued → f.cmd.endsEarly = true →
    (brimStage f stage.val).isSome = true →
    u = (((s.endStalls f).abortPorts c [stage.val] (f.cmd.parts.map Part.die)).endEngines f).closeOutputs f →
    Completes (.portDetach c stage) s [.arrays, .brims, .dict, .engines, .free, .out, .prun, .works] (fun t =>
      t = (u.modRef c (fun x => { x with phase := .computed, settledAt := u.now })).dropWork f.p f.run.id f.cmd.idx)) ∧
  (∀ c (stage : Fin 8) s, s.find c = none → Completes (.portDetach c stage) s [.brims, .dict, .out] (fun t =>
    t = s.abortPorts c [stage.val] (List.range 48))) ∧
  (∀ c (stage : Fin 8) s f d lim u, s.find c = some f → brimStage f stage.val = some d → f.cmd.phase = .issued →
    s.stageRuns c f stage.val = true → lim = (if dImm d 2 = 0 then s.reg (key (0x5B00 + f.p) 2) else dImm d 2) →
    u = s.reach ((f.cmd.parts.map (s.brimDue c f stage.val lim)).foldl min (2 ^ 64)) →
    Completes (.brimTimeLimit c stage) s [.clock, .prun] (fun t =>
      t = u.modRef c (fun x => (f.cmd.parts.filter (fun y => decide (s.brimDue c f stage.val lim y ≤ u.now))).foldl
        (fun x y => x.fail y.die 0x11 0x3FF) x))) ∧
  (∀ c s f ce ue stalls, s.Fed c f 0x60 → brimStages f = [] →
    Completes (.fused c ce ue stalls) s [.arrays, .dict, .engines, .free, .prun, .sec, .works] (fun t =>
      t = s.carriedOut f stalls (outsOf f f.cmd.ends) ∧ f.StagesGave t c)) ∧
  (∀ c s f g u (ce : W32) ue stalls op (P : State → Prop), s.Fed c f op → s.brimReady c f = true → brimStages f ≠ [] →
    g = { f with run := f.run.modCmd c.cmd (fun x => x.spoilWords f ue), cmd := f.cmd.spoilWords f ue } →
    u = ((g.cmd.parts.foldl (fun t x => t.brimCounts g x) (s.modRef c (fun x => x.spoilWords f ue))).bump
      (rBrim (g.cmd.parts.headD ⟨0, 0, 0, [], false⟩).die 7) ce.toNat).bump
      (rBrim (g.cmd.parts.headD ⟨0, 0, 0, [], false⟩).die 8) ue.length →
    P = (fun t => t = u.carriedOut g (stalls.filter (fun e => e.2.1.val != 7)) (outsOf g g.cmd.ends) ∧ g.StagesGave t c) →
    (op = 0x50 →
      Completes (.brimStage c ce ue stalls) s [.arrays, .dict, .engines, .free, .prun, .sec, .works] P) ∧
    (op = 0x60 →
      Completes (.fused c ce ue stalls) s [.arrays, .dict, .engines, .free, .prun, .sec, .works] P))

/-- The tiles and what checks them (R42, R44, R47–R54, R69, R73, R140, R157, R231–R238, R242–R244, R248, R250): at the end of the block
in progress a tile begins the next block of its first ready batt, with the counters of the block and of its waits, and stops before a
column group while both halves are taken; the oldest half that is finished and in which no row operation works is released; a test
ends the quarantine or takes the tile out of service; a duplicate that differs fails its part and quarantines both tiles; a guarded
command commits when both executions agree; replicas are compared; and a mirrored command completes with the partner's digests. -/
def Obligations.TileAndCheckEventsComplete : Prop :=
  (∀ (die : DieC) (tile : TileN) (late held : W32) starved s u w b rest f x exposed load stop ends, s.tileUp die.val tile.val = true →
    s.activeWaits die.val tile.val = false → u = s.endActive die.val tile.val → u.nextWork die.val tile.val = some w →
    w.plan = b :: rest → u.find (refOf w.p w.run w.cmd) = some f → x = u.array die.val tile.val →
    (b.half = true → b.first = true → x.halves.length < 2) → exposed = u.earliest w - x.clock →
    load = (if b.array && !b.dependent then loadCycles b.load - x.last else 0) +
      (if b.array && (b.dependent || !w.staged) then late.toNat else 0) →
    stop = (if b.half && b.first && x.stopped then held.toNat else 0) →
    ends = (b.array && !u.works.any (fun v => v.die == die.val && v.tile == tile.val &&
      ((if v == w then rest else v.plan).any Block.array))) →
    Completes (.blockStart die tile late held starved) s [.arrays, .dict, .prun, .works] (fun t =>
      t = ((u.blockCounts die.val tile.val b ends).blockWaits w exposed load stop
        (sumL (((starved : List (Fin 128 × W32)).filter (fun e => !b.array || decide (e.1.val < b.rows))).map (fun e => e.2.toNat)))
        (if u.frozenInput f then 7 else 0)).switchBlock w b (feedOf f w b) (x.clock + exposed + b.cycles) ∧
      (t.array die.val tile.val).clock = x.clock + exposed + b.cycles ∧ (t.array die.val tile.val).stopped = false)) ∧
  (∀ (die : DieC) (tile : TileN) late held starved s u w b rest f, s.tileUp die.val tile.val = true →
    s.activeWaits die.val tile.val = false → u = s.endActive die.val tile.val → u.nextWork die.val tile.val = some w →
    w.plan = b :: rest → u.find (refOf w.p w.run w.cmd) = some f → b.half = true → b.first = true →
    2 ≤ (u.array die.val tile.val).halves.length →
    Completes (.blockStart die tile late held starved) s [.arrays, .dict, .prun, .works] (fun t =>
      t = u.modArray die.val tile.val (fun y => { y with stopped := true }))) ∧
  (∀ (die : DieC) (tile : TileN) s u h,
    u = (if s.works.any (fun w => w.die == die.val && w.tile == tile.val && w.active.any (fun b => b.half && b.last)) then
      s.endActive die.val tile.val else s) →
    (u.array die.val tile.val).halves.find? (fun h => h.done && !u.rowOpIn die.val tile.val h) = some h →
    Completes (.halfRelease die tile) s [.arrays, .dict, .works] (fun t =>
      t = u.modArray die.val tile.val (fun x => { x with halves := x.halves.erase h }) ∧
      (t.array die.val tile.val).halves.length + 1 = (u.array die.val tile.val).halves.length)) ∧
  (∀ (die : DieC) (tile : TileN) s u,
    u = (if s.works.any (fun w => w.die == die.val && w.tile == tile.val && w.active.any (fun b => b.half && b.last)) then
      s.endActive die.val tile.val else s) →
    (∀ h ∈ (u.array die.val tile.val).halves, h.done = false ∨ u.rowOpIn die.val tile.val h = true) →
    Completes (.halfRelease die tile) s [.arrays, .dict, .works] (fun t => t = u)) ∧
  (∀ (die : DieC) (tile : TileN) pass s k e u, k = die.val * 8 + tile.val → s.tests.find? (fun e => e.1 == k) = some e →
    u = ({ s with tests := s.tests.erase e }).bump (rTestsRun die.val) 1 → Completes (.tileTestEnd die tile pass) s [.dict, .mill,
      .power, .tests] (fun t =>
      t = u.setTileState k (if pass = true ∧ (e.2 = true ∨ u.mismatchCount k < u.reg (key 0x2300 2)) then 0 else 2))) ∧
  (∀ c unit differ waited s f x u, s.find c = some f → f.cmd.samples.find? (fun x => x.unit == unit) = some x →
    f.cmd.phase = .computed →
    (∀ w ∈ s.works, w.p = f.p → w.run = c.run → w.cmd = c.cmd → w.unit = unit → workOver f w = true) →
    u = ((s.endWorks f (fun w => w.unit == unit)).modRef c (fun y => { y with
      samples := y.samples.filter (fun z => z.unit != unit) })).comparisonStalls f waited →
    Completes (.duplicateCompare c unit differ waited) s [.arrays, .dict, .mill, .mismatches, .power, .prun, .tests, .works] (fun t =>
      t = if f.cmd.unitPoisoned f.prog.descs unit = true ∨ differ = false then u else
        ((((u.bump (rRel f.p 0x11) 1).modRef c (fun y => y.fail (x.tile / 8) 0x42 0x3FF)).modRun f.p c.run
          (fun r => Run.spread f.prog.descs r.cmds.length r)).quarantine x.tile).quarantine x.check)) ∧
  (∀ c s f, s.find c = some f → s.replayOver f = true → (∀ x ∈ f.cmd.parts, x.fails = []) → (∀ x ∈ f.cmd.replays, x.fails = []) →
    Completes (.replayCommit c [] false false) s [.arrays, .dict, .fns, .free, .hbm, .hostMem, .mill, .out, .poison, .prun, .stackSides,
        .works]
      (fun t => t = ((s.endWorks f (fun _ => true)).modRef c (fun x => { x with replays := [] })).copyAll f false)) ∧
  (∀ c s f u, s.find c = some f → s.replayOver f = true → (∀ x ∈ f.cmd.replays, x.fails = []) →
    u = (((s.endWorks f (fun _ => true)).modRef c (fun x => { x with replays := [] })).modRef c (fun x =>
      (x.parts.filter (fun y => y.fails == [])).foldl (fun x y => x.fail y.die 0x40 0x3FF) x)).bump (rRel f.p 0x16) 1 →
    Completes (.replayCommit c [] true false) s [.arrays, .dict, .free, .prun, .works] (fun t => t = u.closeOutputs f)) ∧
  (∀ (g : GroupN) remote s l, s.reg (rReplica g.val 1) ≠ 0 → s.replicaMembers g.val ≠ [] →
    (s.replicaMembers g.val).mapM (s.replicaDigest g.val remote) = some l → (∀ e ∈ l, e.2 = (l.headD (0, 0)).2) →
    Completes (.replicaSample g remote false) s [.dict] (fun t =>
      t = (l.foldl (fun s e => s.setReg (rReplica g.val (0x20 + e.1)) e.2) s).bump (rReplica g.val 0x30) 1)) ∧
  (∀ (g : GroupN) remote s l u, s.reg (rReplica g.val 1) ≠ 0 → s.replicaMembers g.val ≠ [] →
    (s.replicaMembers g.val).mapM (s.replicaDigest g.val remote) = some l → (∃ e ∈ l, e.2 ≠ (l.headD (0, 0)).2) →
    u = (l.foldl (fun s e => s.setReg (rReplica g.val (0x20 + e.1)) e.2) s).bump (rReplica g.val 0x30) 1 →
    Completes (.replicaSample g remote false) s [.dict, .fns, .free, .mill, .out] (fun t =>
      t = ((u.bump (rReplica g.val 0x32) 1).setReg (rReplica g.val 0x33) s.now).raise 0x0301 (some g.val))) ∧
  (∀ (g : GroupN) remote s, s.reg (rReplica g.val 1) ≠ 0 → s.replicaMembers g.val ≠ [] →
    Completes (.replicaSample g remote true) s [.dict] (fun t => t = s.bump (rReplica g.val 0x31) 1)) ∧
  (∀ c digests s f a, s.find c = some f → f.cmd.mirror = some a → f.cmd.phase = .computed →
    Completes (.mirrorDigests c digests) s [.arrays, .brims, .dict, .fns, .free, .hostMem, .out, .power, .prun, .works] (fun t =>
      t = if digests.map BitVec.toNat = mirrorDigests f then (s.setReg (rRel f.p 5) 0).mirrorEnds c none
        else ((s.setReg (rRel f.p 5) 0).bump (rRel f.p 0x18) 1).mirrorEnds c (some 0x41))) ∧
  (∀ c s f a u, s.find c = some f → f.cmd.mirror = some a → u = s.reach (a + 1000 * s.reg (key 0x2300 4)) →
    Completes (.mirrorWait c) s [.arrays, .brims, .clock, .dict, .fns, .free, .hostMem, .out, .power, .prun, .works] (fun t =>
      t = if u.linkUp f.p then u.mirrorEnds c (some 0x11) else (u.setReg (rRel f.p 5) 1).mirrorEnds c (some 0x60)))

/-- Blocker (R161–R169, R173, R174): a heavy notice is given once, HEAVY_LEAD ahead of the predicted issue of its command; at a
residency period the copies age, copies unread too long leave, KEEP_SHARE is kept to, and what is read elsewhere is copied or moved; a
read-back commits or cancels the oldest migration that has arrived; and a rebalancing period weighs the dies, holds every weight at 64
where rebalancing is off, and moves buffers. -/
def Obligations.BlockerPeriodsComplete : Prop :=
  (∀ c s f, s.find c = some f → dHeavyAhead f.desc = true → f.cmd.heavy = false → f.cmd.phase = .waiting → dHeavyLead f.desc ≠ 0 →
    (∀ x ∈ f.run.cmds, (dDeps f.desc).contains (dSeq (f.prog.descs.getD x.idx 0)) = true → x.phase ≠ .complete →
      ∃ a, s.expected f x = some a ∧ a ≤ s.now + 1000 * dHeavyLead f.desc) →
    Completes (.heavyNotice c) s [.dict, .out, .power, .prun] (fun t => t = s.heavyNotice f.p c.run c.cmd)) ∧
  (∀ (p : PartN) s q u v, q = p.val + 1 → u = s.modPr q (fun r => { r with copies := r.copies.map Copy.aged }) →
    v = (u.freeCopies q (fun x => decide (u.reg (rBlk q 6) ≤ x.unread) && u.evictable q x)).trimCopies q →
    Completes (.residencyPeriod p) s [.dict, .prun, .waiting, .xacts] (fun t =>
      t = (v.prn q).copies.foldl (fun s x => s.residency q x) v)) ∧
  (∀ (p : PartN) poisoned differ s q g x, q = p.val + 1 → (s.prn q).migs.find? (fun g => g.left == 0) = some g →
    (s.prn q).copies.find? (fun x => x.die == g.src && x.addr == g.addr && x.len == g.len && x.kind == g.kind && !x.dropped) = some x →
    (poisoned = true ∨ differ = true ∨ g.bad = true ∨ digest64 x.bytes ≠ g.digest ∨ s.live g.dst = false) →
    Completes (.migrationReadbackDone p poisoned differ) s [.dict, .prun] (fun t => t = s.cancelMig q g ∧
      t.reg (rBlk q 0x17) = (s.reg (rBlk q 0x17) + 1) % 2 ^ 64)) ∧
  (∀ (p : PartN) poisoned differ s q g, q = p.val + 1 → (s.prn q).migs.find? (fun g => g.left == 0) = some g →
    (∀ x ∈ (s.prn q).copies, x.die ≠ g.src ∨ x.addr ≠ g.addr ∨ x.len ≠ g.len ∨ x.kind ≠ g.kind ∨ x.dropped = true) →
    Completes (.migrationReadbackDone p poisoned differ) s [.dict, .prun] (fun t => t = s.cancelMig q g ∧
      t.reg (rBlk q 0x17) = (s.reg (rBlk q 0x17) + 1) % 2 ^ 64)) ∧
  (∀ (p : PartN) s q g x u, q = p.val + 1 → (s.prn q).migs.find? (fun g => g.left == 0) = some g →
    (s.prn q).copies.find? (fun x => x.die == g.src && x.addr == g.addr && x.len == g.len && x.kind == g.kind && !x.dropped) = some x →
    g.bad = false → digest64 x.bytes = g.digest → s.live g.dst = true →
    u = ((((s.modPr q (fun r => { r with
      migs := r.migs.erase g
      copies := updWhere (fun y => g.move && y == x) (fun y => { y with dropped := true, moved := true }) r.copies ++
        [{ x with die := g.dst, held := 0, unread := 0, reads := [], fresh := [], bound := [], dropped := false, moved := false }] })).bump
      (rBlk q 0x16) (b2n g.move)).bump (rBlk q 0x14) (b2n (!g.move))).bump (key (0x6500 + g.dst) 6) 1).bump (key (0x6500 + g.src) 7) 1 →
    Completes (.migrationReadbackDone p false false) s [.dict, .prun] (fun t => t = (u.sweepCopies q).countCopies q)) ∧
  (∀ (p : PartN) heavy memory s q held u v lateOn, q = p.val + 1 →
    held = ((heavy : List (DieC × W64 × W64)).map (fun e => (e.1.val, e.2.1.toNat, e.2.2.toNat))).filter (fun e => decide (0 < e.2.2)
      && (s.diesOf q).contains e.1) →
    u = held.foldl (fun s e => s.weigh q (twiceMedian (held.map (fun e => (e.2.1, e.2.2)))) e.1 e.2.1 e.2.2) s →
    v = (if u.reg (rBlk q 5) = 0 then u.levelWeights q else u) →
    lateOn = (fun m => sumL (((memory : List (Nat × Fin 1024 × W64 × W64)).filter (fun e => (v.prn q).bufs.any (fun b =>
      b.run == e.1 && b.qid == e.2.1.val && b.stack == m))).map (fun e => e.2.2.1.toNat))) →
    Completes (.rebalancePeriod p heavy memory) s [.dict, .prun] (fun t =>
      t = memory.foldl (fun t e =>
        match (t.prn q).bufs.find? (fun b => b.run == e.1 && b.qid == e.2.1.val) with
        | none => t
        | some b => t.moveBuffer q b e.2.2.1.toNat e.2.2.2.toNat lateOn) v))

/-- The DSP cells and the delay lines of a brim (R276, R283–R286, R295, R298): each operation of the table of R285 runs on the cell whose
word it is, while its region runs; a shift by 40 to 63 is not defined and leaves a free accumulator (log 31); REPEAT and END move
the entry, START and RST act outside a REPEAT; and a written tap becomes the line's goal. -/
def Obligations.DspCommandsComplete : Prop :=
  (∀ (die : DieC) (cell : Fin 1536) (a b : BitVec 16) s w, s.dspWord die.val cell.val = some w → iOp w = 1 →
    Completes (.mul die cell a b) s [.brims, .dict] (fun t => DspRuns s t die.val cell.val w (dspProduct w a b))) ∧
  (∀ (die : DieC) (cell : Fin 1536) (a b : BitVec 16) s w, s.dspWord die.val cell.val = some w → iOp w = 2 →
    Completes (.mac die cell a b) s [.brims, .dict] (fun t => DspRuns s t die.val cell.val w ((s.dsp die.val cell.val).acc + dspProduct w a b))) ∧
  (∀ (die : DieC) (cell : Fin 1536) (a b : BitVec 16) s w, s.dspWord die.val cell.val = some w → iOp w = 3 →
    Completes (.msub die cell a b) s [.brims, .dict] (fun t => DspRuns s t die.val cell.val w ((s.dsp die.val cell.val).acc - dspProduct w a b))) ∧
  (∀ (die : DieC) (cell : Fin 1536) c s w, s.dspWord die.val cell.val = some w → iOp w = 4 →
    Completes (.loadc die cell c) s [.brims, .dict] (fun t => DspRuns s t die.val cell.val w (s.dspC die.val cell.val c))) ∧
  (∀ (die : DieC) (cell : Fin 1536) c s w, s.dspWord die.val cell.val = some w → iOp w = 5 →
    Completes (.addc die cell c) s [.brims, .dict] (fun t => DspRuns s t die.val cell.val w ((s.dsp die.val cell.val).acc + s.dspC die.val cell.val c))) ∧
  (∀ (die : DieC) (cell : Fin 1536) s w, s.dspWord die.val cell.val = some w → iOp w = 7 →
    Completes (.clr die cell) s [.brims, .dict] (fun t => DspRuns s t die.val cell.val w 0)) ∧
  (∀ (die : DieC) (cell : Fin 1536) s w n acc, s.dspWord die.val cell.val = some w → iOp w = 6 → n = iImm w % 64 → n < 40 →
    acc = (s.dsp die.val cell.val).acc → Completes (.shr die cell) s [.brims, .dict, .free] (fun t =>
      DspRuns s t die.val cell.val w ((if iRnd w = true ∧ 1 ≤ n then acc + 2 ^ (n - 1) else acc) / 2 ^ n))) ∧
  (∀ (die : DieC) (cell : Fin 1536) s w, s.dspWord die.val cell.val = some w → iOp w = 6 → 40 ≤ iImm w % 64 →
    Completes (.shr die cell) s [.brims, .dict, .free] (fun t =>
      DspRuns s t die.val cell.val w (signed 40 (Config.freeNat 40 s.drawn)) ∧ t.free = s.free + 1)) ∧
  (∀ (die : DieC) (cell : Fin 1536) s w x, s.dspWord die.val cell.val = some w → iOp w = 0 → x = s.dsp die.val cell.val →
    Completes (.nopDsp die cell) s [.brims, .dict] (fun t => (∀ c j, c ≠ die.val ∨ j ≠ cell.val → t.dsp c j = s.dsp c j) ∧
      OnlyRegs [] s t ∧
      t.dsp die.val cell.val = { x with entry := if x.rep ≤ 1 then (x.entry + 1) % 8 else x.entry, rep := x.rep - 1
                                        pipe := ((x.acc, iEmit w && decide (x.rep ≤ 1)) :: x.pipe).take 3 })) ∧
  (∀ (die : DieC) (cell : Fin 1536) s w x, s.dspWord die.val cell.val = some w → iOp w = 8 → x = s.dsp die.val cell.val →
    x.rep = 0 →
    Completes (.dspRepeat die cell) s [.brims] (fun t => (∀ c j, c ≠ die.val ∨ j ≠ cell.val → t.dsp c j = s.dsp c j) ∧
      t.dsp die.val cell.val = { x with entry := (x.entry + 1) % 8, rep := iImm w + 1 })) ∧
  (∀ (die : DieC) (cell : Fin 1536) s w x, s.dspWord die.val cell.val = some w → iOp w = 15 → x = s.dsp die.val cell.val →
    x.rep = 0 →
    Completes (.dspEnd die cell) s [.brims] (fun t => (∀ c j, c ≠ die.val ∨ j ≠ cell.val → t.dsp c j = s.dsp c j) ∧
      t.dsp die.val cell.val = if bit (iImm w) 0 then { x with entry := 0 } else { x with busy := false })) ∧
  (∀ (die : DieC) (cell : Fin 1536) s x, s.regionRuns die.val (cell.val / 128) = true → x = s.dsp die.val cell.val → x.rep = 0 →
    Completes (.dspStart die cell) s [.brims] (fun t => (∀ c j, c ≠ die.val ∨ j ≠ cell.val → t.dsp c j = s.dsp c j) ∧
      t.dsp die.val cell.val = { x with entry := 0, busy := true, ovf := false }) ∧
    Completes (.dspRst die cell) s [.brims] (fun t => (∀ c j, c ≠ die.val ∨ j ≠ cell.val → t.dsp c j = s.dsp c j) ∧
      t.dsp die.val cell.val = { x with acc := 0, busy := false, ovf := false })) ∧
  (∀ (die : DieC) (cell : Fin 1536) s, s.regionRuns die.val (cell.val / 128) = true → 0 < (s.dsp die.val cell.val).rep →
    Completes (.dspStart die cell) s [.brims] (fun t => t = s) ∧ Completes (.dspRst die cell) s [.brims] (fun t => t = s)) ∧
  (∀ (port : Fin 16) (pin : Fin 96) output (tap : Fin 128) (elapsed : W32) s k x,
    s.regionRuns (pinDie port.val) (pinRegion port.val pin.val) = true → k = (port.val * 96 + pin.val) * 2 + b2n output →
    x = sget (fun _ => Tap.blank) s.taps k → Completes (.tapWrite port pin output tap elapsed) s [.taps] (fun t =>
      sget (fun _ => Tap.blank) t.taps k = { (x.after elapsed.toNat) with goal := tap.val } ∧
      ∀ j, j ≠ k → sget (fun _ => Tap.blank) t.taps j = sget (fun _ => Tap.blank) s.taps j))

/-- Loading hoods and trims (R302–R317): an image arrives over the configuration pins, over a partition's trim path, or from staged
memory; its header is checked and the border driven; the covered cells are reset; each frame record is checked and written; the
image's digest is checked; and the regions are released with their ports. A load that fails says why. -/
def Obligations.LoadCommandsComplete : Prop :=
  (∀ parallel s, s.cfg.selected = false → Completes (.cfgImageStart parallel) s [.cfg]
    (fun t => t.cfg = ⟨true, parallel, none, false⟩)) ∧
  (∀ s, s.cfg.selected = true → s.cfg.die = none → Completes .cfgCsNRise s [.cfg, .out]
    (fun t =>
    t.cfg.selected = false ∧ t.cfg.err = true ∧ t.out = s.out ++ [.cfgDone false] ∧ t.brims = s.brims)) ∧
  (∀ s c l, s.cfg.selected = true → s.cfg.die = some c → s.loadOf c = some l → l.path = 1 → l.stage < 4 →
    Completes .cfgCsNRise s [.arrays, .brims, .cfg, .dict, .frames, .free, .out, .prun, .works] (fun t => t = s.loadFails c 0x10)) ∧
  (∀ (die : DieC) s, (s.brim die.val).trimRegion ≠ 15 → s.regionRuns die.val (s.brim die.val).trimRegion = true →
    (∀ l ∈ (s.brim die.val).loads, l.path ≠ 3) → Completes (.tpStart die) s [.brims, .dict] (fun t => t = s.queueLoad die.val 3)) ∧
  (∀ (die : DieC) s l, (s.brim die.val).loads.find? (fun l => l.path == 3) = some l → Completes (.tpAbort die) s [.arrays, .brims, .cfg, .dict, .frames, .free, .out, .prun, .works] (fun t =>
    t = if s.loadOf die.val = some l then s.loadFails die.val 0x10 else s.loadEnds die.val l 3 0x10)) ∧
  (∀ (die : DieC) s l u, s.loadOf die.val = some l → l.stage = 0 → (l.path ≠ 2 ∨ s.stagedLoads < 8) →
    u = ((s.modLoad die.val (fun x => { x with stage := 1, at_ := s.now })).setReg (rLoad die.val 4) 1).setReg (rLoad die.val 6) l.path →
    Completes (.loadStart die) s [.arrays, .brims, .cfg, .dict, .frames, .free, .out, .prun, .works]
      (fun t => t = if u.mayLoad die.val l.path then u else u.loadFails die.val 0x11)) ∧
  (∀ (die : DieC) bytes s l r, s.loadOf die.val = some l → l.stage = 1 →
    r = s.imageBytes die.val l.path 0 (min 4096 (s.reg (rLoad die.val 2))) bytes → r.2 = false →
    Completes (.headerCheck die bytes) s [.arrays, .brims, .cfg, .dict, .frames, .free, .out, .prun, .works] (fun t =>
      t = match s.headerFails die.val l.path (if l.path = 2 then some (s.reg (rLoad die.val 2)) else none) r.1 with
        | some code => s.loadFails die.val code
        | none => s.borderBegins die.val l.path r.1)) ∧
  (∀ (die : DieC) bytes s u v, s.loadOf die.val = none → s.cfg.selected = true → s.cfg.die = none →
    ihDiePos (leNat (slice bytes 0 512)) = die.val → u = (s.queueLoad die.val 1).modLoad die.val (fun x => { x with stage := 1 }) →
    v = { u with cfg := { u.cfg with die := some die.val } } → Completes (.headerCheck die bytes) s [.arrays, .brims, .cfg, .dict, .frames, .free, .out, .prun, .works] (fun t =>
      t = match v.headerFails die.val 1 none bytes with
        | some code => v.loadFails die.val code
        | none => if v.mayLoad die.val 1 then v.borderBegins die.val 1 bytes else v.loadFails die.val 0x11)) ∧
  (∀ (die : DieC) s l m, s.loadOf die.val = some l → l.stage = 2 → m = ihMask l.header → Completes (.gsrAssert die) s [.brims,
    .clock, .dict] (fun t =>
    t = ((((s.reach (l.at_ + 2000)).pounceCorrect die.val).modBrim die.val (fun b => { b with gsr := b.gsr ||| m })).setReset die.val
      m).modLoad die.val (fun x => { x with stage := 3 }))) ∧
  (∀ (die : DieC) bytes s l r bs u n last, s.loadOf die.val = some l → l.stage = 3 →
    r = s.imageBytes die.val l.path (recordAt l.header l.frames) 520 bytes → r.2 = false → bs = slice r.1 0 520 →
    crc32c (slice bs 8 512) = bits (leNat (slice bs 0 8)) 63 32 →
    recordPlace l.header l.frames = (bits (leNat (slice bs 0 8)) 15 12, bits (leNat (slice bs 0 8)) 11 0) →
    n = l.frames + 1 → last = decide (n = ihFrames l.header) →
    u = (if l.frames = 0 then s.modBrim die.val (fun b => { b with
      maps := ((regionsIn (ihMask l.header)).mapIdx (fun i r => (i, r))).foldl (fun m e =>
        sput (fun _ => 0) m e.2 (imageMap l.header l.image e.1)) b.maps }) else s) →
    Completes (.frameRecord die bytes) s [.arrays, .brims, .cfg, .dict, .frames, .free, .out, .prun, .works] (fun t =>
      t = (u.setFrame die.val (recordPlace l.header l.frames).1 (recordPlace l.header l.frames).2 (slice bs 8 512)).modLoad die.val
        (fun x => { x with frames := n, image := x.image ++ bs, stage := if last then 4 else 3
                           at_ := if last then u.now else x.at_ }))) ∧
  (∀ (die : DieC) bytes s l r w, s.loadOf die.val = some l → l.stage = 3 →
    r = s.imageBytes die.val l.path (recordAt l.header l.frames) 520 bytes → r.2 = false → w = leNat (slice (slice r.1 0 520) 0 8) →
    Completes (.frameRecord die bytes) s [.arrays, .brims, .cfg, .dict, .frames, .free, .out, .prun, .works] (fun t =>
      (crc32c (slice (slice r.1 0 520) 8 512) ≠ bits w 63 32 → t = s.loadFails die.val 0x0C) ∧
      (crc32c (slice (slice r.1 0 520) 8 512) = bits w 63 32 → (bits w 15 12, bits w 11 0) ≠ recordPlace l.header l.frames →
        t = s.loadFails die.val 0x0D))) ∧
  (∀ (die : DieC) s l u, s.loadOf die.val = some l → l.stage = 4 → u = s.reach (l.at_ + 1000) →
    Completes (.imageDigestCheck die) s [.arrays, .brims, .cfg, .clock, .dict, .frames, .free, .out, .prun, .works] (fun t =>
      t = match u.imageFails die.val l with
        | some code => u.loadFails die.val code
        | none => u.modLoad die.val (fun x => { x with stage := 5 }))) ∧
  (∀ (die : DieC) s l u v w x m, s.loadOf die.val = some l → l.stage = 5 → m = ihMask l.header → u = s.reach (l.at_ + 51000) →
    v = (((u.brim die.val).attachedIn m).filter (fun a =>
      !((u.brim die.val).decl a.port).any (resumes (u.brim die.val).incoming))).foldl (fun t a => t.detachFails die.val a) u →
    w = ((v.thawAll die.val).initRegions die.val m).modBrim die.val (fun b => { b with
      ports := b.ports.filter (fun d => !declTouches d m) ++ b.incoming
      incoming := []
      gsr := less b.gsr m
      gated := less b.gated m
      closed := less b.closed m
      trimRegion := if ihKind l.header = 1 then ihTrimRegion l.header else b.trimRegion }) →
    x = (w.setReg (rLoad die.val 8) (w.regionsLoaded die.val ||| m)).setReg (rLoad die.val 9) (less (w.heldMask die.val) m) →
    Completes (.gsrRelease die) s [.arrays, .brims, .cfg, .clock, .dict, .free, .out, .prun, .sec, .works] (fun t =>
      t = ((match x.dieOwner die.val with
        | some p => x.modSec p (fun y => { y with images := y.images ++ [(die.val, leBytes 48 (ihDigest l.header))] })
        | none => x).loadEnds die.val l 2 0).avsFrom u [die.val]))

/-- Pounce (R320, R321): the next frame is read and counted; a good frame leaves the rest alone, a correctable one waits for its
correction, and an uncorrectable one is counted and raised, and holds its region where the register asks for it. -/
def Obligations.PounceCommandsComplete : Prop :=
  (∀ (die : DieC) cond s k u, (s.brim die.val).correct = none → s.pounceAt die.val (s.brim die.val).pounce = some k →
    u = (if ((s.bump (rLoad die.val 0x10) 1).pounceAt die.val (k + 1)).isNone
      then ((s.bump (rLoad die.val 0x10) 1).modBrim die.val (fun b => { b with pounce := 0 })).bump (rLoad die.val 0x11) 1
      else (s.bump (rLoad die.val 0x10) 1).modBrim die.val (fun b => { b with pounce := k + 1 })) →
    Completes (.pounceFrameRead die cond) s [.arrays, .brims, .dict, .fns, .free, .mill, .out, .prun, .works] (fun t =>
      (cond = .good → t = u) ∧
      (cond = .correctable → t = u.modBrim die.val (fun b => { b with correct := some k })) ∧
      (cond = .uncorrectable →
        ∃ v, v = ((u.bump (rLoad die.val 0x13) 1).setReg (rLoad die.val 0x14) (k / 2560 * 4096 + k % 2560)).raise
        0x0401 (some die.val) ∧ t = if v.reg (key 0x2400 2) = 1 then v.holdRegion die.val (k / 2560) else v))) ∧
  (∀ (die : DieC) s k, (s.brim die.val).correct = some k → Completes (.pounceCorrect die) s [.brims, .dict] (fun t =>
    t = s.pounceCorrect die.val ∧ (t.brim die.val).correct = none))

/-- The training of a lane (R327–R329, R331): from SEND over ALIGN, EQ and CHECK to UP, with its way back to SEND; the number of
consistent TS2 in a row; and the state, the time and LANES_UP that a lane's new state shows. A group in use 2 skips CHECK. -/
def Obligations.LaneTrainingCompletes : Prop :=
  (∀ (g : GroupN) (l : LaneN) st s, st < 16 → (s.laneTo g.val l.val st).laneState g.val l.val = st ∧
    (s.laneTo g.val l.val st).laneSince g.val l.val = (s.now, 0) ∧
    (s.laneTo g.val l.val st).lanesUp g.val = setBit (s.lanesUp g.val) l.val (st == lnUp) % 2 ^ 64 ∧
    OnlyRegs [rLaneState g.val l.val, rLane g.val 5] s (s.laneTo g.val l.val st) ∧
    ∀ m : LaneN, m ≠ l → (s.laneTo g.val l.val st).laneSince g.val m.val = s.laneSince g.val m.val) ∧
  (∀ (g : GroupN) (l : LaneN) s, s.live (48 + g.val) = true → s.laneState g.val l.val = lnSend →
    Completes (.clockLock g l) s [.dict, .lanes] (fun t => t = s.laneTo g.val l.val lnAlign)) ∧
  (∀ (g : GroupN) (l : LaneN) inverted s k, s.live (48 + g.val) = true → s.laneState g.val l.val = lnAlign →
    k = rLaneState g.val l.val →
    Completes (.commaAlign g l inverted) s [.dict, .lanes]
      (fun t => t = (s.setReg k (setBit (s.reg k) 8 inverted)).laneTo g.val l.val lnEq)) ∧
  (∀ (g : GroupN) (l : LaneN) s, s.live (48 + g.val) = true → s.laneState g.val l.val = lnAlign →
    Completes (.alignTimeout g l) s [.clock, .dict, .lanes] (fun t =>
      t = (s.reach ((s.laneSince g.val l.val).1 + 100000)).laneTo g.val l.val lnSend)) ∧
  (∀ (g : GroupN) (l : LaneN) s k u v, s.live (48 + g.val) = true → s.laneState g.val l.val = lnEq → k = rLaneState g.val l.val →
    u = s.reach ((s.laneSince g.val l.val).1 + 200000) → v = u.reg k →
    Completes (.eqDone g l) s [.clock, .dict, .free, .lanes]
      (fun t => ∃ w, w = (u.setReg k (v - field (bits v 7 4) 7 4 + field (Config.freeNat 4 u.drawn) 7 4)).draw ∧
      t = if s.laneUse g.val = 2 then w.laneReady g.val l.val else w.laneTo g.val l.val lnCheck)) ∧
  (∀ (g : GroupN) (l : LaneN) s, s.live (48 + g.val) = true → s.laneState g.val l.val = lnCheck →
    Completes (.ts1 g l) s [.lanes] (fun t => t.laneSince g.val l.val = ((s.laneSince g.val l.val).1, 0) ∧
      ∀ m : LaneN, m ≠ l → t.laneSince g.val m.val = s.laneSince g.val m.val)) ∧
  (∀ (g : GroupN) (l : LaneN) (rlane rgroup role : Byte) (pair : BitVec 16) s, s.live (48 + g.val) = true →
    s.laneState g.val l.val = lnCheck → (rlane.toNat ≠ l.val ∨ rgroup.toNat ≠ g.val) →
    Completes (.ts2 g l rlane rgroup role pair) s [.dict, .fns, .free, .lanes, .mill, .out]
      (fun t => t = s.laneTo g.val l.val lnMiswired)) ∧
  (∀ (g : GroupN) (l : LaneN) (rlane rgroup role : Byte) (pair : BitVec 16) s n, s.live (48 + g.val) = true →
    s.laneState g.val l.val = lnCheck → rlane.toNat = l.val → rgroup.toNat = g.val →
    (s.laneUse g.val ≠ 1 ∨ (role.toNat ≠ s.reg (rLink 1) ∧ pair.toNat = s.reg (rLink 2))) → n = (s.laneSince g.val l.val).2 + 1 →
    Completes (.ts2 g l rlane rgroup role pair) s [.dict, .fns, .free, .lanes, .mill, .out] (fun t => (16 ≤ n →
      t = s.laneReady g.val l.val) ∧
      (n < 16 → t.laneSince g.val l.val = ((s.laneSince g.val l.val).1, n) ∧ t.dict = s.dict))) ∧
  (∀ (g : GroupN) (l : LaneN) (errors : W32) s, s.live (48 + g.val) = true → s.laneState g.val l.val = lnUp →
    Completes (.laneErrorLoss g l errors) s [.dict, .lanes] (fun t =>
      t = ((s.bump (rLane g.val (0x80 + l.val)) errors.toNat).bump (rLane g.val 0x11) 1).laneTo g.val l.val lnSend))

/-- Training mismatches (R330): in use 1, a TS2 that names its receiver's lane and group (one that does not is MISWIRED by the table of R329) and shows the
receiver's own PACKAGE_ROLE, or another PAIR_ID, keeps the lane in CHECK; the first mismatch of the group, and no later one, raises
an event about the group. -/
def Obligations.MismatchedTs2KeepsCheck : Prop :=
  ∀ (g : GroupN) (l : LaneN) (rlane rgroup role : Byte) (pair : BitVec 16) s, s.live (48 + g.val) = true →
    s.laneState g.val l.val = lnCheck → s.laneUse g.val = 1 → rlane.toNat = l.val → rgroup.toNat = g.val →
    (role.toNat = s.reg (rLink 1) ∨ pair.toNat ≠ s.reg (rLink 2)) →
    Completes (.ts2 g l rlane rgroup role pair) s [.dict, .fns, .free, .lanes, .mill, .out]
      (fun t => t.laneState g.val l.val = lnCheck ∧
      t.laneSince g.val l.val = ((s.laneSince g.val l.val).1, 0) ∧ (t.lg g.val).mismatch = true ∧
      ((s.lg g.val).mismatch = true → t.mill = s.mill ∧ t.dict = s.dict ∧ t.out = s.out) ∧
      ((s.lg g.val).mismatch = false → ∃ e, e.code = 0x0501 ∧ e.subject = g.val ∧ e.time = s.now ∧
        e.seq = (s.reg (key 0x1080 1) + 1) % 2 ^ 32 ∧ t.reg (key 0x1080 1) = e.seq ∧
        t.mill.events = (s.mill.events ++ [e]).drop ((s.mill.events ++ [e]).length - 24576)))

/-- Lane groups (R326, R331, R335, R336, R339): a group goes UP with all its lanes or, 100 µs after the first, with MIN_LANES; it is
DOWN when it does not within RETRAIN_MS; a lane that leaves UP restripes it, or makes it train; a skip word ends what was injected
and lets lanes rejoin; and a resynchronisation ends what is outstanding and restarts the sequence. -/
def Obligations.GroupEventsComplete : Prop :=
  (∀ (g : GroupN) s a all u v, (s.lg g.val).firstUp = some a → s.laneUse g.val = 1 → s.groupState g.val ≠ 2 →
    s.live (48 + g.val) = true →
    all = ((List.range 64).all (fun l => s.laneState g.val l == lnUp || s.laneState g.val l == lnMiswired) && s.lanesUp g.val != 0) →
    (all = true ∨ s.reg (rLink 6) ≤ popcount 64 (s.lanesUp g.val)) → u = (if all then s else s.reach (a + 100000)) →
    v = (((u.modLg g.val (fun x => { x with wasUp := true, partner := u.lanesUp g.val, replays := 0 })).setReg (rLane g.val 3) 2).stripeOver
      g.val).resend g.val → Completes (.groupUp g) s [.clock, .dict, .lanes, .out, .pairTx, .sec]
        (fun t => t = State.pump g.val v.pairTx.length v)) ∧
  (∀ (g : GroupN) s, s.laneUse g.val = 1 → s.groupState g.val = 1 → Completes (.groupDown g) s [.clock, .dict, .fns, .free,
    .hostMem, .lanes, .mill, .out, .pairTx, .prun, .xacts] (fun t =>
    t = (s.reach ((s.lg g.val).since + 1000000 * s.reg (rLink 5))).groupDown g.val)) ∧
  (∀ (g : GroupN) s, s.groupUp g.val = true →
    (s.lg g.val).stripe &&& s.lanesUp g.val &&& (s.lg g.val).partner ≠ (s.lg g.val).stripe →
    Completes (.restripe g) s [.dict, .lanes, .out]
      (fun t => t = if s.reg (rLink 6) ≤ popcount 64 (s.lanesUp g.val &&& (s.lg g.val).partner) then
      ((s.stripeOver g.val).resend g.val).sendControl g.val false false else s.training g.val)) ∧
  (∀ (g : GroupN) s u, s.groupUp g.val = true → u = (s.modLg g.val (fun x => { x with inject := 0 })).modLg g.val
      (fun x => { x with partner := x.partner ||| s.lanesUp g.val }) → Completes (.skipWord g) s [.dict, .lanes, .out] (fun t =>
    t = if (u.lg g.val).stripe = u.lanesUp g.val &&& (u.lg g.val).partner then u else (u.stripeOver g.val).sendControl g.val false false)) ∧
  (∀ (g : GroupN) s, s.groupUp g.val = false → Completes (.skipWord g) s [.dict, .lanes, .out]
    (fun t => t.lg g.val = { s.lg g.val with inject := 0 })) ∧
  (∀ (g : GroupN) s, s.laneUse g.val = 1 → Completes (.resync g) s [.dict, .fns, .free, .hostMem, .lanes, .out, .pairTx, .prun, .xacts] (fun t =>
    t = s.resync g.val ∧ (t.lg g.val).txSeq = 0 ∧ (t.lg g.val).rxSeq = 0))

/-- Frames of the pair link (R195, R265, R332–R336): an intact frame in order is taken, its acknowledgement and its NAK handled, and its
packet passed on; any other is counted and answered with one NAK; an owed acknowledgement leaves within 1 µs; and frames are sent
again on a NAK, and when ACK_SEQ has not advanced for ACK_TIMEOUT. -/
def Obligations.FrameEventsComplete : Prop :=
  (∀ (g : GroupN) (head : BitVec 256) (packet : Desc) data gcmOk s u v w, s.groupUp g.val = true → headOk head = true →
    bits head.toNat 35 34 = 0 → bits head.toNat 15 0 = (s.lg g.val).rxSeq % 65536 →
    u = (s.modLg g.val (fun x => { x with rxSeq := x.rxSeq + 1, nak := false, owed := some (x.owed.getD s.now) })).acks g.val head.toNat →
    v = (if bit head.toNat 36 then u.linkReplay g.val else u) →
    w = (if gcmOk then v else match v.coupled (bits head.toNat 44 40) with
      | some q => v.bump (key (0x5200 + q) 8) 1
      | none => v) →
    Completes (.transferFrame g head packet data true gcmOk) s [.dict, .fns, .free, .hostMem, .lanes, .nextResp, .out, .pairTx, .prun, .resps, .sec, .waiting, .xacts] (fun t =>
      t = if pkCmd packet.toNat = 0x10 ∨ pkCmd packet.toNat = 0x11 then w.pairResponse g.val packet.toNat data gcmOk
        else w.pairRequest g.val packet.toNat data gcmOk)) ∧
  (∀ (g : GroupN) (head : BitVec 256) (packet : Desc) data crcOk gcmOk s u, s.groupUp g.val = true →
    (crcOk = false ∨ headOk head = false ∨ bits head.toNat 35 34 ≠ 0 ∨ bits head.toNat 15 0 ≠ (s.lg g.val).rxSeq % 65536) →
    u = s.bump (rLane g.val 0x14) 1 → Completes (.transferFrame g head packet data crcOk gcmOk) s [.dict, .fns, .free, .hostMem, .lanes, .nextResp, .out, .pairTx, .prun, .resps, .sec, .waiting, .xacts] (fun t =>
      ((s.lg g.val).nak = true → t = u) ∧
      ((s.lg g.val).nak = false → t = (u.modLg g.val (fun x => { x with nak := true })).sendControl g.val true false))) ∧
  (∀ (g : GroupN) (head : BitVec 256) lanes s u v, s.groupUp g.val = true → headOk head = true → bit head.toNat 37 = false →
    u = s.acks g.val head.toNat → v = (match (lanes : Option W64) with
      | some m => u.modLg g.val (fun x => { x with partner := m.toNat })
      | none => u) → Completes (.controlFrame g head lanes) s [.dict, .fns, .free, .hostMem, .lanes, .out, .pairTx, .prun, .sec, .xacts] (fun t =>
    t = if bit head.toNat 36 then v.linkReplay g.val else v)) ∧
  (∀ (g : GroupN) (head : BitVec 256) lanes s, s.groupUp g.val = true → headOk head = true → bit head.toNat 37 = true →
    Completes (.controlFrame g head lanes) s [.dict, .fns, .free, .hostMem, .lanes, .out, .pairTx, .prun, .sec, .xacts]
      (fun t => t = s.resync g.val)) ∧
  (∀ (g : GroupN) s a, (s.lg g.val).owed = some a → Completes (.ackDue g) s [.clock, .lanes, .out] (fun t =>
    t = (s.reach (a + 1000)).sendControl g.val false false ∧ (t.lg g.val).owed = none)) ∧
  (∀ (g : GroupN) (head : BitVec 256) s, s.groupUp g.val = true → headOk head = true → Completes (.nak g head) s [.dict, .lanes,
    .out, .pairTx, .sec] (fun t =>
    t = (s.acks g.val head.toNat).linkReplay g.val)) ∧
  (∀ (g : GroupN) (head : BitVec 256) s, s.groupUp g.val = true → headOk head = false → Completes (.nak g head) s [.dict, .lanes,
    .out, .pairTx, .sec] (fun t =>
    OnlyRegs [rLane g.val 0x14] s t ∧ t.reg (rLane g.val 0x14) = (s.reg (rLane g.val 0x14) + 1) % 2 ^ 64)) ∧
  (∀ (g : GroupN) s u, s.groupUp g.val = true → (s.lg g.val).unacked ≠ [] →
    u = s.reach ((s.lg g.val).advanced + 1000 * s.reg (rLink 3)) → Completes (.ackTimeout g) s [.clock, .dict, .lanes, .out]
      (fun t => t =
      if s.reg (rLink 4) ≤ (s.lg g.val).replays then
        (((List.range 64).foldl (fun s l => s.laneTo g.val l lnSend) u).bump (rLane g.val 0x11) 1).training g.val
      else ((u.bump (rLane g.val 0x10) 1).modLg g.val (fun x => { x with replays := x.replays + 1 })).resend g.val))

/-- Clocks, rails and domains (R359–R366, R376, R423): a current interval's demand brings bubbles to the next 100 ns; a regulator's reading is
shown, and a crown die below 0.50 V leaves service; the voltage loop moves a die's target by 5 mV; a clock moves one step towards its
goal, up only on raised rails; and a domain switches on. -/
def Obligations.ClockAndRailEventsComplete : Prop :=
  (∀ (die : DieC) (demand : BitVec 16) (energy : W32) advanced s c u f due v, c = die.val →
    u = s.modDp c (fun x => { x with demand := (demand.toNat :: x.demand).take 640, energy := x.energy + energy.toNat }) →
    f = u.bubbleFraction c → due = (u.dp c).deficit + f.1 * (u.dp c).mhz * 2 ^ 32 / (10 * f.2) →
    v = ((u.modDp c (fun y => { y with deficit := due % 2 ^ 32, bubbles := y.bubbles + due / 2 ^ 32
                                       cycles := y.cycles + y.mhz })).bump (rDiePow c 7) (due / 2 ^ 32)).bubbleStalls c (due / 2 ^ 32) →
    Completes (.currentLimitTick die demand energy advanced) s [.dict, .power, .prun] (fun t => ∃ w,
      w = (v.divideEnergy c energy.toNat advanced).spend (v.dieOwner c) energy.toNat ∧
      t = (w.setReg (rDiePow c 0xA) ((u.dp c).energy / 1000)).spendPackage energy.toNat)) ∧
  (∀ (die : DieN) (mv da : BitVec 16) energy served s, die.val < 48 → 500 ≤ mv.toNat →
    Completes (.regulatorRead die mv da energy served) s [.dict] (fun t => OnlyRegs [rDiePow die.val 2, rDiePow die.val 3] s t ∧
      t.reg (rDiePow die.val 2) = mv.toNat ∧ t.reg (rDiePow die.val 3) = da.toNat)) ∧
  (∀ (die : DieN) (mv da : BitVec 16) energy served s, die.val < 48 → mv.toNat < 500 → s.live die.val = true → s.rst.step = 0 →
    Completes (.regulatorRead die mv da energy served) s [.brims, .cfg, .channels, .dict, .fns, .frames, .free, .arrays, .engines, .hbm,
      .hostMem, .lanes, .mill, .out, .pairTx, .poison, .ports, .power, .prun, .refusals, .resps, .retired, .rst, .sec, .splits,
      .stackSides, .switches, .tests, .waiting, .works, .xacts] (fun t =>
      t = (((s.setReg (rDiePow die.val 2) mv.toNat).setReg (rDiePow die.val 3) da.toNat).bump (rDiePow die.val 9) 1).leaves die.val)) ∧
  (∀ (die : DieN) (mv da : BitVec 16) (energy : W32) (served : List (PartN × W32)) s u tot, 48 ≤ die.val →
    tot = sumL (served.map (fun e => e.2.toNat)) → 0 < tot →
    u = s.modDp die.val (fun x => { x with energy := x.energy + energy.toNat }) →
    Completes (.regulatorRead die mv da energy served) s [.dict, .power] (fun t =>
      t = served.foldl (fun s e => s.spend (some (e.1.val + 1)) (energy.toNat * e.2.toNat / tot))
        ((u.setReg (rDiePow die.val 0xA) ((u.dp die.val).energy / 1000)).spendPackage energy.toNat))) ∧
  (∀ (die : DieC) low high s c x, c = die.val → s.inFloor c = false → s.live c = true → x = s.dp c →
    Completes (.voltageLoopTick die low high) s [.out, .power] (fun t =>
      t = (s.modDp c (fun y => { y with
        table := if low then x.table else sput typicalMv x.table x.mhz x.target
        target := if low then min 900 (x.target + 5)
          else if high && s.guardMv c == 0 then max (s.lowestMv c) (x.target - 5) else x.target })).avsFrom s [c])) ∧
  (∀ (die : DieC) s, Completes (.regulatorSettled die) s [.power] (fun t => (t.dp die.val).settled = true ∧
    ∀ d, d ≠ die.val → t.dp d = s.dp d)) ∧
  (∀ (p : PartN) s q f goal, q = p.val + 1 → f = s.reg (rPow q 5) → goal = (s.pp q).goal → s.reg (rState q) ≠ 0 → s.rst.step = 0 →
    (s.liveDies q).any s.inFloor = false → Completes (.mclkStep p) s [.dict, .out, .power, .prun] (fun t =>
      (f = goal → t = s) ∧
      (f < goal → s.raised q (f + 25) = false → t = s) ∧
      (f < goal → s.raised q (f + 25) = true →
        t = if f + 25 < goal then (s.clockAt q (f + 25)).raiseRails q (f + 50) else s.clockAt q (f + 25)) ∧
      (goal < f → ∃ u, u = s.clockAt q (f - 25) ∧ t = ((u.liveDies q).foldl (fun t c =>
        if t.guardMv c = 0 then t.modDp c (fun x => { x with target := max (t.lowestMv c) (min x.target (t.tableMv c (f - 25))) })
        else t) u).avsFrom u (u.liveDies q)))) ∧
  (∀ (die : DieN) (domain : Fin 4) s, (die.val, domain.val) ∈ s.power.switching.take 4 →
    Completes (.domainOn die domain) s [.dict, .power] (fun t =>
    t.power.switching = s.power.switching.erase (die.val, domain.val) ∧ OnlyRegs [rDiePow die.val 5] s t ∧
    t.reg (rDiePow die.val 5) = setBit (s.reg (rDiePow die.val 5)) domain.val true % 2 ^ 8))

/-- The power manager (R367–R373): a budget period divides what the overhead and the dies outside partitions leave, moves each partition
towards its share, lets port dies leave the floor state, and begins its counts again; the pair divides its budget, and halves its
own share when the exchange fails twice; and a heavy command's guard ends with its notice. -/
def Obligations.PowerManagerEventsComplete : Prop :=
  (∀ (overhead : W32) (power : List (DieC × W32)) s at_ ds n u v, s.managing = true →
    at_ = (fun c => sumL ((power.filter (fun e => e.1.val == c)).map (fun e => e.2.toNat))) →
    ds = s.powered.map (fun p => (⟨s.predicted at_ p (s.permitted p), s.floorMw p, (s.liveDies p).length, s.powerRank p,
      s.reg (rPow p 2) == 1⟩ : Demand)) →
    n = overhead.toNat + sumL ((idxs 48 (fun c => (s.dieOwner c).isNone)).map at_) →
    u = (s.keepClaims ds n).setReg (rPkg 0x13)
      (min 65535 ((overhead.toNat + sumL (power.map (fun e => e.2.toNat))) / 1000)) →
    v = (u.powered.zip (allocate (s.budgetNow - n) ds)).foldl (fun s e => s.managePart at_ e.1 e.2) u →
    Completes (.budgetPeriodEnd overhead power) s [.dict, .out, .power, .stackSides] (fun t => t = (List.range 48).foldl (fun s c =>
        s.modDp c (fun x => { x with bubbles := 0, cycles := 0 }))
      ((List.range 16).foldl (fun s n => if s.power.alerts.any (fun r => match r with
          | .port q _ => q.val == n
          | _ => false) then s
        else ((s.modStack (2 * n) (fun x => { x with floor := false })).modStack (2 * n + 1)
          (fun x => { x with floor := false })).setReg (rDiePow (48 + n) 6) 0) v))) ∧
  (∀ theirs (theirOverhead : W32) s pair, pair = 1000 * s.reg (rPkg 7) → 0 < pair → s.managing = true →
    Completes (.pairBudgetExchange true theirs theirOverhead) s [.power] (fun t => t.power = { s.power with
      pairFails := 0
      pair := some (min (1000 * s.reg (rPkg 1)) (sumL ((allocate (pair - s.power.overhead - theirOverhead.toNat)
        (s.power.claims ++ theirs)).take s.power.claims.length) + s.power.overhead)) })) ∧
  (∀ theirs theirOverhead s pair, pair = 1000 * s.reg (rPkg 7) → 0 < pair → s.managing = true →
    Completes (.pairBudgetExchange false theirs theirOverhead) s [.power] (fun t => t.power = { s.power with
      pairFails := s.power.pairFails + 1
      pair := if s.power.pairFails = 0 then s.power.pair else some (min (1000 * s.reg (rPkg 1)) (pair / 2)) })) ∧
  (∀ c s, Completes (.heavyGuardEnd c) s [.out, .power] (fun t => t = (s.modPp (c.p.val + 1) (fun x => { x with
    notices := updWhere (fun n => n.1 == c.run && n.2.1 == c.cmd) (fun n => (n.1, n.2.1, false)) x.notices })).avsFrom s
      (s.diesOf (c.p.val + 1))))

/-- Alerts and temperatures (R371–R375, R423): an alert counts and puts its die or stacks into the floor state; its clearing lets them leave;
a sensor's reading is shown, and a die at 115 °C trips; a hot partition steps down 25 MHz; and a coolant reading out of range, or an
open wire, falls back until 10 s of good readings. -/
def Obligations.AlertAndThermalEventsComplete : Prop :=
  (∀ s rail u, rail ∉ s.power.alerts → u = { s with power := { s.power with alerts := s.power.alerts ++ [rail] } } →
    Completes (.vrAlert rail) s [.dict, .fns, .free, .mill, .out, .power, .prun, .stackSides] (fun t => t = match rail with
      | .core c => (u.bump (rDiePow c.val 8) 1).floorDie c.val
      | .port p _ => ((((u.bump (rDiePow (48 + p.val) 8) 1).enterFloor (48 + p.val)).modStack (2 * p.val)
          (fun x => { x with floor := true })).modStack (2 * p.val + 1) (fun x => { x with floor := true }))
      | .aux => u)) ∧
  (∀ s (c : DieC) u dies, (s.dp c.val).trip = none →
    u = { s with power := { s.power with alerts := s.power.alerts.filter (fun r => r != Rail.core c) } } →
    dies = (s.dieOwner c.val).elim [c.val] s.diesOf → (∀ d ∈ dies, ∀ x : DieC, Rail.core x ∈ u.power.alerts → x.val ≠ d) →
    Completes (.alertClear (Rail.core c)) s [.dict, .power]
      (fun t => ∃ v, v = dies.foldl (fun s d => s.modDp d (fun x => { x with leaving := true })) u ∧
      t = if (v.dieOwner c.val).isNone then v.setReg (rDiePow c.val 6) 0 else v)) ∧
  (∀ s rail, (∀ c, rail ≠ .core c) → Completes (.alertClear rail) s [.dict, .power] (fun t =>
    t.power = { s.power with alerts := s.power.alerts.filter (fun r => r != rail) } ∧ OnlyRegs [] s t)) ∧
  (∀ (die : DieN) (temp : BitVec 16) s, (48 ≤ die.val ∨ s.live die.val = false) → Completes (.sensorRead die temp) s [.dict, .fns,
    .free, .mill, .out, .power, .prun] (fun t =>
    t = s.setReg (rDiePow die.val 4) temp.toNat)) ∧
  (∀ (die : DieN) (temp : BitVec 16) s, die.val < 48 → s.live die.val = true → temp.toInt < 16 * 115 →
    Completes (.sensorRead die temp) s [.dict, .fns, .free, .mill, .out, .power, .prun]
      (fun t => OnlyRegs [rDiePow die.val 4] s t ∧ t.reg (rDiePow die.val 4) = temp.toNat ∧
      t.dp die.val = { s.dp die.val with hot := decide (16 * (s.reg (rPkg 5) : Int) < temp.toInt)
                                         warm := decide (16 * (s.reg (rPkg 5) : Int) < temp.toInt + 32), trip := none })) ∧
  (∀ (die : DieC) (d : DieN) (temp : BitVec 16) s u v, d.val = die.val → s.live die.val = true → 16 * 115 ≤ temp.toInt →
    (s.dp die.val).trip = none →
    u = ((s.setReg (rDiePow die.val 4) temp.toNat).modDp die.val (fun x => { x with
      hot := decide (16 * (s.reg (rPkg 5) : Int) < temp.toInt)
      warm := decide (16 * (s.reg (rPkg 5) : Int) < temp.toInt + 32) })) →
    v = (u.modDp die.val (fun x => { x with trip := some s.now })).bump (rDiePow die.val 9) 1 →
    Completes (.sensorRead d temp) s [.dict, .fns, .free, .mill, .out, .power, .prun] (fun t =>
      t = ((if v.power.alerts.contains (Rail.core die) then v
        else { v with power := { v.power with alerts := v.power.alerts ++ [Rail.core die] } }).raise 0x0602 (some die.val)).floorDie
          die.val)) ∧
  (∀ (p : PartN) s q v, q = p.val + 1 → s.reg (rState q) ≠ 0 → (s.liveDies q).any (fun c => (s.dp c).hot) = true →
    v = max 400 (min (s.reg (rPow q 6)) (s.reg (rPow q 3)) - 25) → Completes (.throttleStep p) s [.dict, .out, .power] (fun t =>
      t = if v < ((s.setReg (rPow q 6) v).pp q).goal then (s.setReg (rPow q 6) v).setGoal q v false else s.setReg (rPow q 6) v)) ∧
  (∀ (x y : BitVec 16) s u, u = (s.setReg (rPkg 0x10) x.toNat).setReg (rPkg 0x11) y.toNat → x ≠ 0x7FFF → y ≠ 0x7FFF →
    aboveCoolant x (u.reg (rPkg 9)) = false → aboveCoolant y (u.reg (rPkg 0xA)) = false →
    Completes (.coolantRead (some x) (some y)) s [.dict, .fns, .free, .mill, .out, .power] (fun t =>
      t = { u with power := { u.power with cool := some (s.power.cool.getD s.now) } })) ∧
  (∀ inlet outlet s u v, u = (s.setReg (rPkg 0x10) ((inlet : Option (BitVec 16)).elim 0x7FFF BitVec.toNat)).setReg (rPkg 0x11)
      ((outlet : Option (BitVec 16)).elim 0x7FFF BitVec.toNat) → v = { u with power := { u.power with cool := none } } →
    (inlet = none ∨ (∃ x, inlet = some x ∧ (x = 0x7FFF ∨ aboveCoolant x (u.reg (rPkg 9)) = true)) ∨
      outlet = none ∨ ∃ x, outlet = some x ∧ (x = 0x7FFF ∨ aboveCoolant x (u.reg (rPkg 0xA)) = true)) →
    Completes (.coolantRead inlet outlet) s [.dict, .fns, .free, .mill, .out, .power] (fun t =>
      t = if v.reg (rPkg 0x12) = 1 then v else (v.setReg (rPkg 0x12) 1).raise 0x0603 none)) ∧
  (∀ s a, s.power.cool = some a → s.reg (rPkg 0x12) = 1 → Completes .fallbackRelease s [.clock, .dict] (fun t =>
    t = (s.reach (a + 10000000000)).setReg (rPkg 0x12) 0 ∧ t.reg (rPkg 0x12) = 0))

end
end

