-- ==== Sys2Proof/Laws/Sparse.lean ====
section
/-! SUPPORT. Sparse tables: what a key reads after each operation, and that each operation keeps the canonical form. -/

namespace Sys2Proof.Machine

variable {α : Type}

/-! ### Reading after an operation -/

@[simp] theorem sget_nil (d : Nat → α) (k : Nat) : sget d [] k = d k := rfl

@[simp] theorem sget_sinsert_self (d : Nat → α) (k : Nat) (v : α) (m : List (Nat × α)) : sget d (sinsert k v m) k = v := by
  induction m with
  | nil => simp [sinsert, sget]
  | cons e m ih =>
    simp only [sinsert]
    split
    · simp [sget]
    · split
      · simp [sget]
      · rw [sget, if_neg ‹_›, ih]

theorem sget_sinsert_other (d : Nat → α) {j k : Nat} (h : j ≠ k) (v : α) (m : List (Nat × α)) :
    sget d (sinsert k v m) j = sget d m j := by
  induction m with
  | nil => simp [sinsert, sget, Ne.symm h]
  | cons e m ih =>
    simp only [sinsert]
    split
    · simp [sget, Ne.symm h]
    · split
      · rename_i h2; simp only [sget]; rw [if_neg (Ne.symm h), if_neg (h2 ▸ Ne.symm h)]
      · simp only [sget]; rw [ih]

theorem sget_serase_other (d : Nat → α) {j k : Nat} (h : j ≠ k) (m : List (Nat × α)) :
    sget d (serase k m) j = sget d m j := by
  induction m with
  | nil => rfl
  | cons e m ih =>
    unfold serase at ih ⊢
    simp only [List.filter]
    split
    · simp only [sget]; rw [ih]
    · rename_i h2
      have h3 : e.1 = k := by simpa using h2
      simp only [sget]; rw [if_neg (h3 ▸ Ne.symm h), ih]

@[simp] theorem sget_serase_self (d : Nat → α) (k : Nat) (m : List (Nat × α)) : sget d (serase k m) k = d k := by
  induction m with
  | nil => rfl
  | cons e m ih =>
    unfold serase at ih ⊢
    simp only [List.filter]
    split
    · rename_i h2
      simp only [sget]; rw [if_neg (by simpa using h2), ih]
    · exact ih

/-- Keys that rise from above `k` leave `k` unlisted. -/
theorem sget_of_rising (d : Nat → α) {k lo : Nat} (h : k < lo) (m : List (Nat × α)) (hm : srising lo m = true) :
    sget d m k = d k := by
  induction m generalizing lo with
  | nil => rfl
  | cons e m ih =>
    simp only [srising, Bool.and_eq_true, decide_eq_true_eq] at hm
    simp only [sget]
    rw [if_neg (by omega)]
    exact ih (lo := e.1 + 1) (by omega) hm.2

/-- A table reads what was written. -/
theorem sget_sput_self [DecidableEq α] (d : Nat → α) (m : List (Nat × α)) (k : Nat) (v : α) :
    sget d (sput d m k v) k = v := by
  unfold sput
  split
  · rename_i h; rw [sget_serase_self, h]
  · simp

/-- A write leaves every other key alone. -/
theorem sget_sput_other [DecidableEq α] (d : Nat → α) (m : List (Nat × α)) {j k : Nat} (h : j ≠ k) (v : α) :
    sget d (sput d m k v) j = sget d m j := by
  unfold sput
  split
  · exact sget_serase_other d h m
  · exact sget_sinsert_other d h v m

theorem sget_sput [DecidableEq α] (d : Nat → α) (m : List (Nat × α)) (j k : Nat) (v : α) :
    sget d (sput d m k v) j = if j = k then v else sget d m j := by
  split
  · rename_i h; subst h; exact sget_sput_self d m _ v
  · exact sget_sput_other d m ‹_› v

/-! ### The canonical form -/

theorem srising_weaken {lo lo' : Nat} (h : lo' ≤ lo) (m : List (Nat × α)) (hm : srising lo m = true) : srising lo' m = true := by
  cases m with
  | nil => rfl
  | cons e m =>
    simp only [srising, Bool.and_eq_true, decide_eq_true_eq] at hm ⊢
    exact ⟨by omega, hm.2⟩

theorem srising_sinsert {lo k : Nat} (v : α) (h : lo ≤ k) (m : List (Nat × α)) (hm : srising lo m = true) :
    srising lo (sinsert k v m) = true := by
  induction m generalizing lo with
  | nil => simp [sinsert, srising, h]
  | cons e m ih =>
    simp only [srising, Bool.and_eq_true, decide_eq_true_eq] at hm
    simp only [sinsert]
    split
    · simp only [srising, Bool.and_eq_true, decide_eq_true_eq]; exact ⟨h, by omega, hm.2⟩
    · split
      · rename_i h2; simp only [srising, Bool.and_eq_true, decide_eq_true_eq]; exact ⟨h, h2 ▸ hm.2⟩
      · simp only [srising, Bool.and_eq_true, decide_eq_true_eq]; exact ⟨hm.1, ih (by omega) hm.2⟩

theorem srising_filter {lo : Nat} (p : Nat × α → Bool) (m : List (Nat × α)) (hm : srising lo m = true) :
    srising lo (m.filter p) = true := by
  induction m generalizing lo with
  | nil => rfl
  | cons e m ih =>
    simp only [srising, Bool.and_eq_true, decide_eq_true_eq] at hm
    simp only [List.filter]
    split
    · simp only [srising, Bool.and_eq_true, decide_eq_true_eq]; exact ⟨hm.1, ih hm.2⟩
    · exact srising_weaken (by omega) _ (ih hm.2)

theorem srising_serase {lo : Nat} (k : Nat) (m : List (Nat × α)) (hm : srising lo m = true) :
    srising lo (serase k m) = true := srising_filter _ m hm

theorem srising_map {lo : Nat} (f : Nat × α → Nat × α) (hf : ∀ e, (f e).1 = e.1) (m : List (Nat × α))
    (hm : srising lo m = true) : srising lo (m.map f) = true := by
  induction m generalizing lo with
  | nil => rfl
  | cons e m ih =>
    simp only [srising, Bool.and_eq_true, decide_eq_true_eq] at hm
    simp only [List.map, srising, Bool.and_eq_true, decide_eq_true_eq, hf]
    exact ⟨hm.1, ih hm.2⟩

theorem mem_sinsert {k : Nat} {v : α} {m : List (Nat × α)} {e : Nat × α} (h : e ∈ sinsert k v m) : e = (k, v) ∨ e ∈ m := by
  induction m with
  | nil => simpa [sinsert] using h
  | cons x m ih =>
    simp only [sinsert] at h
    split at h
    · simpa using h
    · split at h
      · simp only [List.mem_cons] at h ⊢; tauto
      · simp only [List.mem_cons] at h ⊢
        rcases h with h | h
        · exact .inr (.inl h)
        · rcases ih h with h | h
          · exact .inl h
          · exact .inr (.inr h)

theorem mem_serase {k : Nat} {m : List (Nat × α)} {e : Nat × α} (h : e ∈ serase k m) : e ∈ m := (List.mem_filter.1 h).1

/-- What a table lists after a write: the entry written, or one listed before. -/
theorem mem_sput [DecidableEq α] {d : Nat → α} {m : List (Nat × α)} {k : Nat} {v : α} {e : Nat × α} (h : e ∈ sput d m k v) :
    e = (k, v) ∨ e ∈ m := by
  unfold sput at h
  split at h
  · exact .inr (mem_serase h)
  · exact mem_sinsert h

@[simp] theorem swf_nil [DecidableEq α] (d : Nat → α) : swf d [] = true := rfl

theorem swf_iff [DecidableEq α] (d : Nat → α) (m : List (Nat × α)) : swf d m = true ↔ srising 0 m = true ∧ ∀ e ∈ m, e.2 ≠ d e.1 := by
  simp [swf]

theorem swf_sput [DecidableEq α] (d : Nat → α) (m : List (Nat × α)) (k : Nat) (v : α) (hm : swf d m = true) : swf d (sput d m k v) = true := by
  rw [swf_iff] at hm ⊢
  unfold sput
  split
  · exact ⟨srising_serase k m hm.1, fun e he => hm.2 e (mem_serase he)⟩
  · refine ⟨srising_sinsert v (Nat.zero_le k) m hm.1, fun e he => ?_⟩
    rcases mem_sinsert he with rfl | he
    · assumption
    · exact hm.2 e he

theorem swf_smod [DecidableEq α] (d : Nat → α) (m : List (Nat × α)) (k : Nat) (f : α → α) (hm : swf d m = true) :
    swf d (smod d m k f) = true := swf_sput d m k _ hm

theorem swf_sclear [DecidableEq α] (d : Nat → α) (p : Nat → Bool) (m : List (Nat × α)) (hm : swf d m = true) : swf d (sclear p m) = true := by
  rw [swf_iff] at hm ⊢
  exact ⟨srising_filter _ m hm.1, fun e he => hm.2 e (List.mem_filter.1 he).1⟩

theorem swf_smap [DecidableEq α] (d : Nat → α) (p : Nat → Bool) (f : Nat → α → α) (m : List (Nat × α)) (hm : swf d m = true) :
    swf d (smap d p f m) = true := by
  rw [swf_iff] at hm ⊢
  refine ⟨srising_filter _ _ (srising_map _ (fun e => ?_) m hm.1), fun e he => ?_⟩
  · split <;> rfl
  · simpa using (List.mem_filter.1 he).2

/-- Writing a string of entries keeps the canonical form. -/
theorem swf_foldl_sput [DecidableEq α] {β : Type} (d : Nat → α) (l : List β) (key : β → Nat) (val : β → α) (m : List (Nat × α))
    (hm : swf d m = true) : swf d (l.foldl (fun m e => sput d m (key e) (val e)) m) = true := by
  induction l generalizing m with
  | nil => exact hm
  | cons e l ih => exact ih _ (swf_sput d m _ _ hm)

/-- Writing a string of entries leaves the other keys alone. -/
theorem sget_foldl_sput [DecidableEq α] {β : Type} (d : Nat → α) (l : List β) (key : β → Nat) (val : β → α) (m : List (Nat × α)) (j : Nat)
    (h : ∀ e ∈ l, key e ≠ j) : sget d (l.foldl (fun m e => sput d m (key e) (val e)) m) j = sget d m j := by
  induction l generalizing m with
  | nil => rfl
  | cons e l ih =>
    rw [List.foldl_cons, ih _ (fun x hx => h x (List.mem_cons_of_mem _ hx)),
      sget_sput_other d m (Ne.symm (h e List.mem_cons_self))]

/-- Keys listed are at least the bound. -/
theorem le_of_mem_rising {m : List (Nat × α)} {lo : Nat} (hm : srising lo m = true) {e : Nat × α} (he : e ∈ m) : lo ≤ e.1 := by
  induction m generalizing lo with
  | nil => cases he
  | cons x m ih =>
    simp only [srising, Bool.and_eq_true, decide_eq_true_eq] at hm
    rcases List.mem_cons.1 he with rfl | he
    · exact hm.1
    · have := ih hm.2 he; omega

/-- Equal contents are equal data: two canonical tables that read alike everywhere are the same list. -/
theorem swf_ext [DecidableEq α] (d : Nat → α) {m n : List (Nat × α)} (hm : swf d m = true) (hn : swf d n = true)
    (h : ∀ k, sget d m k = sget d n k) : m = n := by
  rw [swf_iff] at hm hn
  obtain ⟨hm, hmd⟩ := hm
  obtain ⟨hn, hnd⟩ := hn
  generalize 0 = lo at hm hn
  induction m generalizing n lo with
  | nil =>
    cases n with
    | nil => rfl
    | cons e n =>
      have := h e.1
      simp only [sget, if_true] at this
      exact absurd this.symm (hnd e List.mem_cons_self)
  | cons e m ih =>
    cases n with
    | nil =>
      have := h e.1
      simp only [sget, if_true] at this
      exact absurd this (hmd e List.mem_cons_self)
    | cons f n =>
      simp only [srising, Bool.and_eq_true, decide_eq_true_eq] at hm hn
      have key : e.1 = f.1 := by
        rcases Nat.lt_trichotomy e.1 f.1 with hlt | heq | hlt
        · have := h e.1
          simp only [sget, if_true] at this
          rw [if_neg (by omega), sget_of_rising d (by omega) n hn.2] at this
          exact absurd this (hmd e List.mem_cons_self)
        · exact heq
        · have := h f.1
          simp only [sget, if_true] at this
          rw [if_neg (by omega), sget_of_rising d (by omega) m hm.2] at this
          exact absurd this.symm (hnd f List.mem_cons_self)
      have val : e.2 = f.2 := by
        have := h e.1
        simpa [sget, key] using this
      have ef : e = f := Prod.ext key val
      subst ef
      refine congrArg _ (ih (fun k => ?_) (fun x hx => hmd x (List.mem_cons_of_mem _ hx)) (fun x hx => hnd x (List.mem_cons_of_mem _ hx)) (e.1 + 1) hm.2 hn.2)
      by_cases hk : e.1 = k
      · rw [sget_of_rising d (by omega) m hm.2, sget_of_rising d (by omega) n hn.2]
      · have := h k
        simpa [sget, hk] using this

end Sys2Proof.Machine
end

