-- ==== Sys2Proof/Laws/State.lean ====
section
/-! SUPPORT. What each basic update of the state leaves alone, one lemma for each field, and what it makes of the field it
changes. -/

namespace Sys2Proof.Machine

/-! ### setReg -/

@[simp] theorem State.setReg_pending (s : State) (k v : Nat) : (s.setReg k v).pending = s.pending := rfl
@[simp] theorem State.setReg_free (s : State) (k v : Nat) : (s.setReg k v).free = s.free := rfl
@[simp] theorem State.setReg_clock (s : State) (k v : Nat) : (s.setReg k v).clock = s.clock := rfl
@[simp] theorem State.setReg_mill (s : State) (k v : Nat) : (s.setReg k v).mill = s.mill := rfl
@[simp] theorem State.setReg_rst (s : State) (k v : Nat) : (s.setReg k v).rst = s.rst := rfl
@[simp] theorem State.setReg_sessions (s : State) (k v : Nat) : (s.setReg k v).sessions = s.sessions := rfl
@[simp] theorem State.setReg_conns (s : State) (k v : Nat) : (s.setReg k v).conns = s.conns := rfl
@[simp] theorem State.setReg_sec (s : State) (k v : Nat) : (s.setReg k v).sec = s.sec := rfl
@[simp] theorem State.setReg_fns (s : State) (k v : Nat) : (s.setReg k v).fns = s.fns := rfl
@[simp] theorem State.setReg_ports (s : State) (k v : Nat) : (s.setReg k v).ports = s.ports := rfl
@[simp] theorem State.setReg_prun (s : State) (k v : Nat) : (s.setReg k v).prun = s.prun := rfl
@[simp] theorem State.setReg_refusals (s : State) (k v : Nat) : (s.setReg k v).refusals = s.refusals := rfl
@[simp] theorem State.setReg_hostMem (s : State) (k v : Nat) : (s.setReg k v).hostMem = s.hostMem := rfl
@[simp] theorem State.setReg_brims (s : State) (k v : Nat) : (s.setReg k v).brims = s.brims := rfl
@[simp] theorem State.setReg_frames (s : State) (k v : Nat) : (s.setReg k v).frames = s.frames := rfl
@[simp] theorem State.setReg_cfg (s : State) (k v : Nat) : (s.setReg k v).cfg = s.cfg := rfl
@[simp] theorem State.setReg_taps (s : State) (k v : Nat) : (s.setReg k v).taps = s.taps := rfl
@[simp] theorem State.setReg_lanes (s : State) (k v : Nat) : (s.setReg k v).lanes = s.lanes := rfl
@[simp] theorem State.setReg_power (s : State) (k v : Nat) : (s.setReg k v).power = s.power := rfl
@[simp] theorem State.setReg_waiting (s : State) (k v : Nat) : (s.setReg k v).waiting = s.waiting := rfl
@[simp] theorem State.setReg_channels (s : State) (k v : Nat) : (s.setReg k v).channels = s.channels := rfl
@[simp] theorem State.setReg_resps (s : State) (k v : Nat) : (s.setReg k v).resps = s.resps := rfl
@[simp] theorem State.setReg_nextResp (s : State) (k v : Nat) : (s.setReg k v).nextResp = s.nextResp := rfl
@[simp] theorem State.setReg_xacts (s : State) (k v : Nat) : (s.setReg k v).xacts = s.xacts := rfl
@[simp] theorem State.setReg_retired (s : State) (k v : Nat) : (s.setReg k v).retired = s.retired := rfl
@[simp] theorem State.setReg_stackSides (s : State) (k v : Nat) : (s.setReg k v).stackSides = s.stackSides := rfl
@[simp] theorem State.setReg_switches (s : State) (k v : Nat) : (s.setReg k v).switches = s.switches := rfl
@[simp] theorem State.setReg_resv (s : State) (k v : Nat) : (s.setReg k v).resv = s.resv := rfl
@[simp] theorem State.setReg_resvNext (s : State) (k v : Nat) : (s.setReg k v).resvNext = s.resvNext := rfl
@[simp] theorem State.setReg_splits (s : State) (k v : Nat) : (s.setReg k v).splits = s.splits := rfl
@[simp] theorem State.setReg_hbm (s : State) (k v : Nat) : (s.setReg k v).hbm = s.hbm := rfl
@[simp] theorem State.setReg_poison (s : State) (k v : Nat) : (s.setReg k v).poison = s.poison := rfl
@[simp] theorem State.setReg_works (s : State) (k v : Nat) : (s.setReg k v).works = s.works := rfl
@[simp] theorem State.setReg_arrays (s : State) (k v : Nat) : (s.setReg k v).arrays = s.arrays := rfl
@[simp] theorem State.setReg_engines (s : State) (k v : Nat) : (s.setReg k v).engines = s.engines := rfl
@[simp] theorem State.setReg_mismatches (s : State) (k v : Nat) : (s.setReg k v).mismatches = s.mismatches := rfl
@[simp] theorem State.setReg_tests (s : State) (k v : Nat) : (s.setReg k v).tests = s.tests := rfl
@[simp] theorem State.setReg_pairTx (s : State) (k v : Nat) : (s.setReg k v).pairTx = s.pairTx := rfl
@[simp] theorem State.setReg_scrub (s : State) (k v : Nat) : (s.setReg k v).scrub = s.scrub := rfl
@[simp] theorem State.setReg_out (s : State) (k v : Nat) : (s.setReg k v).out = s.out := rfl

/-! ### bump -/

@[simp] theorem State.bump_pending (s : State) (k n : Nat) : (s.bump k n).pending = s.pending := rfl
@[simp] theorem State.bump_free (s : State) (k n : Nat) : (s.bump k n).free = s.free := rfl
@[simp] theorem State.bump_clock (s : State) (k n : Nat) : (s.bump k n).clock = s.clock := rfl
@[simp] theorem State.bump_mill (s : State) (k n : Nat) : (s.bump k n).mill = s.mill := rfl
@[simp] theorem State.bump_rst (s : State) (k n : Nat) : (s.bump k n).rst = s.rst := rfl
@[simp] theorem State.bump_sessions (s : State) (k n : Nat) : (s.bump k n).sessions = s.sessions := rfl
@[simp] theorem State.bump_conns (s : State) (k n : Nat) : (s.bump k n).conns = s.conns := rfl
@[simp] theorem State.bump_sec (s : State) (k n : Nat) : (s.bump k n).sec = s.sec := rfl
@[simp] theorem State.bump_fns (s : State) (k n : Nat) : (s.bump k n).fns = s.fns := rfl
@[simp] theorem State.bump_ports (s : State) (k n : Nat) : (s.bump k n).ports = s.ports := rfl
@[simp] theorem State.bump_prun (s : State) (k n : Nat) : (s.bump k n).prun = s.prun := rfl
@[simp] theorem State.bump_refusals (s : State) (k n : Nat) : (s.bump k n).refusals = s.refusals := rfl
@[simp] theorem State.bump_hostMem (s : State) (k n : Nat) : (s.bump k n).hostMem = s.hostMem := rfl
@[simp] theorem State.bump_brims (s : State) (k n : Nat) : (s.bump k n).brims = s.brims := rfl
@[simp] theorem State.bump_frames (s : State) (k n : Nat) : (s.bump k n).frames = s.frames := rfl
@[simp] theorem State.bump_cfg (s : State) (k n : Nat) : (s.bump k n).cfg = s.cfg := rfl
@[simp] theorem State.bump_taps (s : State) (k n : Nat) : (s.bump k n).taps = s.taps := rfl
@[simp] theorem State.bump_lanes (s : State) (k n : Nat) : (s.bump k n).lanes = s.lanes := rfl
@[simp] theorem State.bump_power (s : State) (k n : Nat) : (s.bump k n).power = s.power := rfl
@[simp] theorem State.bump_waiting (s : State) (k n : Nat) : (s.bump k n).waiting = s.waiting := rfl
@[simp] theorem State.bump_channels (s : State) (k n : Nat) : (s.bump k n).channels = s.channels := rfl
@[simp] theorem State.bump_resps (s : State) (k n : Nat) : (s.bump k n).resps = s.resps := rfl
@[simp] theorem State.bump_nextResp (s : State) (k n : Nat) : (s.bump k n).nextResp = s.nextResp := rfl
@[simp] theorem State.bump_xacts (s : State) (k n : Nat) : (s.bump k n).xacts = s.xacts := rfl
@[simp] theorem State.bump_retired (s : State) (k n : Nat) : (s.bump k n).retired = s.retired := rfl
@[simp] theorem State.bump_stackSides (s : State) (k n : Nat) : (s.bump k n).stackSides = s.stackSides := rfl
@[simp] theorem State.bump_switches (s : State) (k n : Nat) : (s.bump k n).switches = s.switches := rfl
@[simp] theorem State.bump_resv (s : State) (k n : Nat) : (s.bump k n).resv = s.resv := rfl
@[simp] theorem State.bump_resvNext (s : State) (k n : Nat) : (s.bump k n).resvNext = s.resvNext := rfl
@[simp] theorem State.bump_splits (s : State) (k n : Nat) : (s.bump k n).splits = s.splits := rfl
@[simp] theorem State.bump_hbm (s : State) (k n : Nat) : (s.bump k n).hbm = s.hbm := rfl
@[simp] theorem State.bump_poison (s : State) (k n : Nat) : (s.bump k n).poison = s.poison := rfl
@[simp] theorem State.bump_works (s : State) (k n : Nat) : (s.bump k n).works = s.works := rfl
@[simp] theorem State.bump_arrays (s : State) (k n : Nat) : (s.bump k n).arrays = s.arrays := rfl
@[simp] theorem State.bump_engines (s : State) (k n : Nat) : (s.bump k n).engines = s.engines := rfl
@[simp] theorem State.bump_mismatches (s : State) (k n : Nat) : (s.bump k n).mismatches = s.mismatches := rfl
@[simp] theorem State.bump_tests (s : State) (k n : Nat) : (s.bump k n).tests = s.tests := rfl
@[simp] theorem State.bump_pairTx (s : State) (k n : Nat) : (s.bump k n).pairTx = s.pairTx := rfl
@[simp] theorem State.bump_scrub (s : State) (k n : Nat) : (s.bump k n).scrub = s.scrub := rfl
@[simp] theorem State.bump_out (s : State) (k n : Nat) : (s.bump k n).out = s.out := rfl

/-! ### raiseReg -/

@[simp] theorem State.raiseReg_pending (s : State) (k v : Nat) : (s.raiseReg k v).pending = s.pending := rfl
@[simp] theorem State.raiseReg_free (s : State) (k v : Nat) : (s.raiseReg k v).free = s.free := rfl
@[simp] theorem State.raiseReg_clock (s : State) (k v : Nat) : (s.raiseReg k v).clock = s.clock := rfl
@[simp] theorem State.raiseReg_mill (s : State) (k v : Nat) : (s.raiseReg k v).mill = s.mill := rfl
@[simp] theorem State.raiseReg_rst (s : State) (k v : Nat) : (s.raiseReg k v).rst = s.rst := rfl
@[simp] theorem State.raiseReg_sessions (s : State) (k v : Nat) : (s.raiseReg k v).sessions = s.sessions := rfl
@[simp] theorem State.raiseReg_conns (s : State) (k v : Nat) : (s.raiseReg k v).conns = s.conns := rfl
@[simp] theorem State.raiseReg_sec (s : State) (k v : Nat) : (s.raiseReg k v).sec = s.sec := rfl
@[simp] theorem State.raiseReg_fns (s : State) (k v : Nat) : (s.raiseReg k v).fns = s.fns := rfl
@[simp] theorem State.raiseReg_ports (s : State) (k v : Nat) : (s.raiseReg k v).ports = s.ports := rfl
@[simp] theorem State.raiseReg_prun (s : State) (k v : Nat) : (s.raiseReg k v).prun = s.prun := rfl
@[simp] theorem State.raiseReg_refusals (s : State) (k v : Nat) : (s.raiseReg k v).refusals = s.refusals := rfl
@[simp] theorem State.raiseReg_hostMem (s : State) (k v : Nat) : (s.raiseReg k v).hostMem = s.hostMem := rfl
@[simp] theorem State.raiseReg_brims (s : State) (k v : Nat) : (s.raiseReg k v).brims = s.brims := rfl
@[simp] theorem State.raiseReg_frames (s : State) (k v : Nat) : (s.raiseReg k v).frames = s.frames := rfl
@[simp] theorem State.raiseReg_cfg (s : State) (k v : Nat) : (s.raiseReg k v).cfg = s.cfg := rfl
@[simp] theorem State.raiseReg_taps (s : State) (k v : Nat) : (s.raiseReg k v).taps = s.taps := rfl
@[simp] theorem State.raiseReg_lanes (s : State) (k v : Nat) : (s.raiseReg k v).lanes = s.lanes := rfl
@[simp] theorem State.raiseReg_power (s : State) (k v : Nat) : (s.raiseReg k v).power = s.power := rfl
@[simp] theorem State.raiseReg_waiting (s : State) (k v : Nat) : (s.raiseReg k v).waiting = s.waiting := rfl
@[simp] theorem State.raiseReg_channels (s : State) (k v : Nat) : (s.raiseReg k v).channels = s.channels := rfl
@[simp] theorem State.raiseReg_resps (s : State) (k v : Nat) : (s.raiseReg k v).resps = s.resps := rfl
@[simp] theorem State.raiseReg_nextResp (s : State) (k v : Nat) : (s.raiseReg k v).nextResp = s.nextResp := rfl
@[simp] theorem State.raiseReg_xacts (s : State) (k v : Nat) : (s.raiseReg k v).xacts = s.xacts := rfl
@[simp] theorem State.raiseReg_retired (s : State) (k v : Nat) : (s.raiseReg k v).retired = s.retired := rfl
@[simp] theorem State.raiseReg_stackSides (s : State) (k v : Nat) : (s.raiseReg k v).stackSides = s.stackSides := rfl
@[simp] theorem State.raiseReg_switches (s : State) (k v : Nat) : (s.raiseReg k v).switches = s.switches := rfl
@[simp] theorem State.raiseReg_resv (s : State) (k v : Nat) : (s.raiseReg k v).resv = s.resv := rfl
@[simp] theorem State.raiseReg_resvNext (s : State) (k v : Nat) : (s.raiseReg k v).resvNext = s.resvNext := rfl
@[simp] theorem State.raiseReg_splits (s : State) (k v : Nat) : (s.raiseReg k v).splits = s.splits := rfl
@[simp] theorem State.raiseReg_hbm (s : State) (k v : Nat) : (s.raiseReg k v).hbm = s.hbm := rfl
@[simp] theorem State.raiseReg_poison (s : State) (k v : Nat) : (s.raiseReg k v).poison = s.poison := rfl
@[simp] theorem State.raiseReg_works (s : State) (k v : Nat) : (s.raiseReg k v).works = s.works := rfl
@[simp] theorem State.raiseReg_arrays (s : State) (k v : Nat) : (s.raiseReg k v).arrays = s.arrays := rfl
@[simp] theorem State.raiseReg_engines (s : State) (k v : Nat) : (s.raiseReg k v).engines = s.engines := rfl
@[simp] theorem State.raiseReg_mismatches (s : State) (k v : Nat) : (s.raiseReg k v).mismatches = s.mismatches := rfl
@[simp] theorem State.raiseReg_tests (s : State) (k v : Nat) : (s.raiseReg k v).tests = s.tests := rfl
@[simp] theorem State.raiseReg_pairTx (s : State) (k v : Nat) : (s.raiseReg k v).pairTx = s.pairTx := rfl
@[simp] theorem State.raiseReg_scrub (s : State) (k v : Nat) : (s.raiseReg k v).scrub = s.scrub := rfl
@[simp] theorem State.raiseReg_out (s : State) (k v : Nat) : (s.raiseReg k v).out = s.out := rfl

/-! ### clearRegs -/

@[simp] theorem State.clearRegs_pending (s : State) (p : Nat → Bool) : (s.clearRegs p).pending = s.pending := rfl
@[simp] theorem State.clearRegs_free (s : State) (p : Nat → Bool) : (s.clearRegs p).free = s.free := rfl
@[simp] theorem State.clearRegs_clock (s : State) (p : Nat → Bool) : (s.clearRegs p).clock = s.clock := rfl
@[simp] theorem State.clearRegs_mill (s : State) (p : Nat → Bool) : (s.clearRegs p).mill = s.mill := rfl
@[simp] theorem State.clearRegs_rst (s : State) (p : Nat → Bool) : (s.clearRegs p).rst = s.rst := rfl
@[simp] theorem State.clearRegs_sessions (s : State) (p : Nat → Bool) : (s.clearRegs p).sessions = s.sessions := rfl
@[simp] theorem State.clearRegs_conns (s : State) (p : Nat → Bool) : (s.clearRegs p).conns = s.conns := rfl
@[simp] theorem State.clearRegs_sec (s : State) (p : Nat → Bool) : (s.clearRegs p).sec = s.sec := rfl
@[simp] theorem State.clearRegs_fns (s : State) (p : Nat → Bool) : (s.clearRegs p).fns = s.fns := rfl
@[simp] theorem State.clearRegs_ports (s : State) (p : Nat → Bool) : (s.clearRegs p).ports = s.ports := rfl
@[simp] theorem State.clearRegs_prun (s : State) (p : Nat → Bool) : (s.clearRegs p).prun = s.prun := rfl
@[simp] theorem State.clearRegs_refusals (s : State) (p : Nat → Bool) : (s.clearRegs p).refusals = s.refusals := rfl
@[simp] theorem State.clearRegs_hostMem (s : State) (p : Nat → Bool) : (s.clearRegs p).hostMem = s.hostMem := rfl
@[simp] theorem State.clearRegs_brims (s : State) (p : Nat → Bool) : (s.clearRegs p).brims = s.brims := rfl
@[simp] theorem State.clearRegs_frames (s : State) (p : Nat → Bool) : (s.clearRegs p).frames = s.frames := rfl
@[simp] theorem State.clearRegs_cfg (s : State) (p : Nat → Bool) : (s.clearRegs p).cfg = s.cfg := rfl
@[simp] theorem State.clearRegs_taps (s : State) (p : Nat → Bool) : (s.clearRegs p).taps = s.taps := rfl
@[simp] theorem State.clearRegs_lanes (s : State) (p : Nat → Bool) : (s.clearRegs p).lanes = s.lanes := rfl
@[simp] theorem State.clearRegs_power (s : State) (p : Nat → Bool) : (s.clearRegs p).power = s.power := rfl
@[simp] theorem State.clearRegs_waiting (s : State) (p : Nat → Bool) : (s.clearRegs p).waiting = s.waiting := rfl
@[simp] theorem State.clearRegs_channels (s : State) (p : Nat → Bool) : (s.clearRegs p).channels = s.channels := rfl
@[simp] theorem State.clearRegs_resps (s : State) (p : Nat → Bool) : (s.clearRegs p).resps = s.resps := rfl
@[simp] theorem State.clearRegs_nextResp (s : State) (p : Nat → Bool) : (s.clearRegs p).nextResp = s.nextResp := rfl
@[simp] theorem State.clearRegs_xacts (s : State) (p : Nat → Bool) : (s.clearRegs p).xacts = s.xacts := rfl
@[simp] theorem State.clearRegs_retired (s : State) (p : Nat → Bool) : (s.clearRegs p).retired = s.retired := rfl
@[simp] theorem State.clearRegs_stackSides (s : State) (p : Nat → Bool) : (s.clearRegs p).stackSides = s.stackSides := rfl
@[simp] theorem State.clearRegs_switches (s : State) (p : Nat → Bool) : (s.clearRegs p).switches = s.switches := rfl
@[simp] theorem State.clearRegs_resv (s : State) (p : Nat → Bool) : (s.clearRegs p).resv = s.resv := rfl
@[simp] theorem State.clearRegs_resvNext (s : State) (p : Nat → Bool) : (s.clearRegs p).resvNext = s.resvNext := rfl
@[simp] theorem State.clearRegs_splits (s : State) (p : Nat → Bool) : (s.clearRegs p).splits = s.splits := rfl
@[simp] theorem State.clearRegs_hbm (s : State) (p : Nat → Bool) : (s.clearRegs p).hbm = s.hbm := rfl
@[simp] theorem State.clearRegs_poison (s : State) (p : Nat → Bool) : (s.clearRegs p).poison = s.poison := rfl
@[simp] theorem State.clearRegs_works (s : State) (p : Nat → Bool) : (s.clearRegs p).works = s.works := rfl
@[simp] theorem State.clearRegs_arrays (s : State) (p : Nat → Bool) : (s.clearRegs p).arrays = s.arrays := rfl
@[simp] theorem State.clearRegs_engines (s : State) (p : Nat → Bool) : (s.clearRegs p).engines = s.engines := rfl
@[simp] theorem State.clearRegs_mismatches (s : State) (p : Nat → Bool) : (s.clearRegs p).mismatches = s.mismatches := rfl
@[simp] theorem State.clearRegs_tests (s : State) (p : Nat → Bool) : (s.clearRegs p).tests = s.tests := rfl
@[simp] theorem State.clearRegs_pairTx (s : State) (p : Nat → Bool) : (s.clearRegs p).pairTx = s.pairTx := rfl
@[simp] theorem State.clearRegs_scrub (s : State) (p : Nat → Bool) : (s.clearRegs p).scrub = s.scrub := rfl
@[simp] theorem State.clearRegs_out (s : State) (p : Nat → Bool) : (s.clearRegs p).out = s.out := rfl

/-! ### reach -/

@[simp] theorem State.reach_pending (s : State) (ns : Nat) : (s.reach ns).pending = s.pending := rfl
@[simp] theorem State.reach_free (s : State) (ns : Nat) : (s.reach ns).free = s.free := rfl
@[simp] theorem State.reach_dict (s : State) (ns : Nat) : (s.reach ns).dict = s.dict := rfl
@[simp] theorem State.reach_mill (s : State) (ns : Nat) : (s.reach ns).mill = s.mill := rfl
@[simp] theorem State.reach_rst (s : State) (ns : Nat) : (s.reach ns).rst = s.rst := rfl
@[simp] theorem State.reach_sessions (s : State) (ns : Nat) : (s.reach ns).sessions = s.sessions := rfl
@[simp] theorem State.reach_conns (s : State) (ns : Nat) : (s.reach ns).conns = s.conns := rfl
@[simp] theorem State.reach_sec (s : State) (ns : Nat) : (s.reach ns).sec = s.sec := rfl
@[simp] theorem State.reach_fns (s : State) (ns : Nat) : (s.reach ns).fns = s.fns := rfl
@[simp] theorem State.reach_ports (s : State) (ns : Nat) : (s.reach ns).ports = s.ports := rfl
@[simp] theorem State.reach_prun (s : State) (ns : Nat) : (s.reach ns).prun = s.prun := rfl
@[simp] theorem State.reach_refusals (s : State) (ns : Nat) : (s.reach ns).refusals = s.refusals := rfl
@[simp] theorem State.reach_hostMem (s : State) (ns : Nat) : (s.reach ns).hostMem = s.hostMem := rfl
@[simp] theorem State.reach_brims (s : State) (ns : Nat) : (s.reach ns).brims = s.brims := rfl
@[simp] theorem State.reach_frames (s : State) (ns : Nat) : (s.reach ns).frames = s.frames := rfl
@[simp] theorem State.reach_cfg (s : State) (ns : Nat) : (s.reach ns).cfg = s.cfg := rfl
@[simp] theorem State.reach_taps (s : State) (ns : Nat) : (s.reach ns).taps = s.taps := rfl
@[simp] theorem State.reach_lanes (s : State) (ns : Nat) : (s.reach ns).lanes = s.lanes := rfl
@[simp] theorem State.reach_power (s : State) (ns : Nat) : (s.reach ns).power = s.power := rfl
@[simp] theorem State.reach_waiting (s : State) (ns : Nat) : (s.reach ns).waiting = s.waiting := rfl
@[simp] theorem State.reach_channels (s : State) (ns : Nat) : (s.reach ns).channels = s.channels := rfl
@[simp] theorem State.reach_resps (s : State) (ns : Nat) : (s.reach ns).resps = s.resps := rfl
@[simp] theorem State.reach_nextResp (s : State) (ns : Nat) : (s.reach ns).nextResp = s.nextResp := rfl
@[simp] theorem State.reach_xacts (s : State) (ns : Nat) : (s.reach ns).xacts = s.xacts := rfl
@[simp] theorem State.reach_retired (s : State) (ns : Nat) : (s.reach ns).retired = s.retired := rfl
@[simp] theorem State.reach_stackSides (s : State) (ns : Nat) : (s.reach ns).stackSides = s.stackSides := rfl
@[simp] theorem State.reach_switches (s : State) (ns : Nat) : (s.reach ns).switches = s.switches := rfl
@[simp] theorem State.reach_resv (s : State) (ns : Nat) : (s.reach ns).resv = s.resv := rfl
@[simp] theorem State.reach_resvNext (s : State) (ns : Nat) : (s.reach ns).resvNext = s.resvNext := rfl
@[simp] theorem State.reach_splits (s : State) (ns : Nat) : (s.reach ns).splits = s.splits := rfl
@[simp] theorem State.reach_hbm (s : State) (ns : Nat) : (s.reach ns).hbm = s.hbm := rfl
@[simp] theorem State.reach_poison (s : State) (ns : Nat) : (s.reach ns).poison = s.poison := rfl
@[simp] theorem State.reach_works (s : State) (ns : Nat) : (s.reach ns).works = s.works := rfl
@[simp] theorem State.reach_arrays (s : State) (ns : Nat) : (s.reach ns).arrays = s.arrays := rfl
@[simp] theorem State.reach_engines (s : State) (ns : Nat) : (s.reach ns).engines = s.engines := rfl
@[simp] theorem State.reach_mismatches (s : State) (ns : Nat) : (s.reach ns).mismatches = s.mismatches := rfl
@[simp] theorem State.reach_tests (s : State) (ns : Nat) : (s.reach ns).tests = s.tests := rfl
@[simp] theorem State.reach_pairTx (s : State) (ns : Nat) : (s.reach ns).pairTx = s.pairTx := rfl
@[simp] theorem State.reach_scrub (s : State) (ns : Nat) : (s.reach ns).scrub = s.scrub := rfl
@[simp] theorem State.reach_out (s : State) (ns : Nat) : (s.reach ns).out = s.out := rfl

/-! ### emit -/

@[simp] theorem State.emit_pending (s : State) (o : Out) : (s.emit o).pending = s.pending := rfl
@[simp] theorem State.emit_free (s : State) (o : Out) : (s.emit o).free = s.free := rfl
@[simp] theorem State.emit_clock (s : State) (o : Out) : (s.emit o).clock = s.clock := rfl
@[simp] theorem State.emit_dict (s : State) (o : Out) : (s.emit o).dict = s.dict := rfl
@[simp] theorem State.emit_mill (s : State) (o : Out) : (s.emit o).mill = s.mill := rfl
@[simp] theorem State.emit_rst (s : State) (o : Out) : (s.emit o).rst = s.rst := rfl
@[simp] theorem State.emit_sessions (s : State) (o : Out) : (s.emit o).sessions = s.sessions := rfl
@[simp] theorem State.emit_conns (s : State) (o : Out) : (s.emit o).conns = s.conns := rfl
@[simp] theorem State.emit_sec (s : State) (o : Out) : (s.emit o).sec = s.sec := rfl
@[simp] theorem State.emit_fns (s : State) (o : Out) : (s.emit o).fns = s.fns := rfl
@[simp] theorem State.emit_ports (s : State) (o : Out) : (s.emit o).ports = s.ports := rfl
@[simp] theorem State.emit_prun (s : State) (o : Out) : (s.emit o).prun = s.prun := rfl
@[simp] theorem State.emit_refusals (s : State) (o : Out) : (s.emit o).refusals = s.refusals := rfl
@[simp] theorem State.emit_hostMem (s : State) (o : Out) : (s.emit o).hostMem = s.hostMem := rfl
@[simp] theorem State.emit_brims (s : State) (o : Out) : (s.emit o).brims = s.brims := rfl
@[simp] theorem State.emit_frames (s : State) (o : Out) : (s.emit o).frames = s.frames := rfl
@[simp] theorem State.emit_cfg (s : State) (o : Out) : (s.emit o).cfg = s.cfg := rfl
@[simp] theorem State.emit_taps (s : State) (o : Out) : (s.emit o).taps = s.taps := rfl
@[simp] theorem State.emit_lanes (s : State) (o : Out) : (s.emit o).lanes = s.lanes := rfl
@[simp] theorem State.emit_power (s : State) (o : Out) : (s.emit o).power = s.power := rfl
@[simp] theorem State.emit_waiting (s : State) (o : Out) : (s.emit o).waiting = s.waiting := rfl
@[simp] theorem State.emit_channels (s : State) (o : Out) : (s.emit o).channels = s.channels := rfl
@[simp] theorem State.emit_resps (s : State) (o : Out) : (s.emit o).resps = s.resps := rfl
@[simp] theorem State.emit_nextResp (s : State) (o : Out) : (s.emit o).nextResp = s.nextResp := rfl
@[simp] theorem State.emit_xacts (s : State) (o : Out) : (s.emit o).xacts = s.xacts := rfl
@[simp] theorem State.emit_retired (s : State) (o : Out) : (s.emit o).retired = s.retired := rfl
@[simp] theorem State.emit_stackSides (s : State) (o : Out) : (s.emit o).stackSides = s.stackSides := rfl
@[simp] theorem State.emit_switches (s : State) (o : Out) : (s.emit o).switches = s.switches := rfl
@[simp] theorem State.emit_resv (s : State) (o : Out) : (s.emit o).resv = s.resv := rfl
@[simp] theorem State.emit_resvNext (s : State) (o : Out) : (s.emit o).resvNext = s.resvNext := rfl
@[simp] theorem State.emit_splits (s : State) (o : Out) : (s.emit o).splits = s.splits := rfl
@[simp] theorem State.emit_hbm (s : State) (o : Out) : (s.emit o).hbm = s.hbm := rfl
@[simp] theorem State.emit_poison (s : State) (o : Out) : (s.emit o).poison = s.poison := rfl
@[simp] theorem State.emit_works (s : State) (o : Out) : (s.emit o).works = s.works := rfl
@[simp] theorem State.emit_arrays (s : State) (o : Out) : (s.emit o).arrays = s.arrays := rfl
@[simp] theorem State.emit_engines (s : State) (o : Out) : (s.emit o).engines = s.engines := rfl
@[simp] theorem State.emit_mismatches (s : State) (o : Out) : (s.emit o).mismatches = s.mismatches := rfl
@[simp] theorem State.emit_tests (s : State) (o : Out) : (s.emit o).tests = s.tests := rfl
@[simp] theorem State.emit_pairTx (s : State) (o : Out) : (s.emit o).pairTx = s.pairTx := rfl
@[simp] theorem State.emit_scrub (s : State) (o : Out) : (s.emit o).scrub = s.scrub := rfl

/-! ### draw -/

@[simp] theorem State.draw_pending (s : State) : (s.draw).pending = s.pending := rfl
@[simp] theorem State.draw_clock (s : State) : (s.draw).clock = s.clock := rfl
@[simp] theorem State.draw_dict (s : State) : (s.draw).dict = s.dict := rfl
@[simp] theorem State.draw_mill (s : State) : (s.draw).mill = s.mill := rfl
@[simp] theorem State.draw_rst (s : State) : (s.draw).rst = s.rst := rfl
@[simp] theorem State.draw_sessions (s : State) : (s.draw).sessions = s.sessions := rfl
@[simp] theorem State.draw_conns (s : State) : (s.draw).conns = s.conns := rfl
@[simp] theorem State.draw_sec (s : State) : (s.draw).sec = s.sec := rfl
@[simp] theorem State.draw_fns (s : State) : (s.draw).fns = s.fns := rfl
@[simp] theorem State.draw_ports (s : State) : (s.draw).ports = s.ports := rfl
@[simp] theorem State.draw_prun (s : State) : (s.draw).prun = s.prun := rfl
@[simp] theorem State.draw_refusals (s : State) : (s.draw).refusals = s.refusals := rfl
@[simp] theorem State.draw_hostMem (s : State) : (s.draw).hostMem = s.hostMem := rfl
@[simp] theorem State.draw_brims (s : State) : (s.draw).brims = s.brims := rfl
@[simp] theorem State.draw_frames (s : State) : (s.draw).frames = s.frames := rfl
@[simp] theorem State.draw_cfg (s : State) : (s.draw).cfg = s.cfg := rfl
@[simp] theorem State.draw_taps (s : State) : (s.draw).taps = s.taps := rfl
@[simp] theorem State.draw_lanes (s : State) : (s.draw).lanes = s.lanes := rfl
@[simp] theorem State.draw_power (s : State) : (s.draw).power = s.power := rfl
@[simp] theorem State.draw_waiting (s : State) : (s.draw).waiting = s.waiting := rfl
@[simp] theorem State.draw_channels (s : State) : (s.draw).channels = s.channels := rfl
@[simp] theorem State.draw_resps (s : State) : (s.draw).resps = s.resps := rfl
@[simp] theorem State.draw_nextResp (s : State) : (s.draw).nextResp = s.nextResp := rfl
@[simp] theorem State.draw_xacts (s : State) : (s.draw).xacts = s.xacts := rfl
@[simp] theorem State.draw_retired (s : State) : (s.draw).retired = s.retired := rfl
@[simp] theorem State.draw_stackSides (s : State) : (s.draw).stackSides = s.stackSides := rfl
@[simp] theorem State.draw_switches (s : State) : (s.draw).switches = s.switches := rfl
@[simp] theorem State.draw_resv (s : State) : (s.draw).resv = s.resv := rfl
@[simp] theorem State.draw_resvNext (s : State) : (s.draw).resvNext = s.resvNext := rfl
@[simp] theorem State.draw_splits (s : State) : (s.draw).splits = s.splits := rfl
@[simp] theorem State.draw_hbm (s : State) : (s.draw).hbm = s.hbm := rfl
@[simp] theorem State.draw_poison (s : State) : (s.draw).poison = s.poison := rfl
@[simp] theorem State.draw_works (s : State) : (s.draw).works = s.works := rfl
@[simp] theorem State.draw_arrays (s : State) : (s.draw).arrays = s.arrays := rfl
@[simp] theorem State.draw_engines (s : State) : (s.draw).engines = s.engines := rfl
@[simp] theorem State.draw_mismatches (s : State) : (s.draw).mismatches = s.mismatches := rfl
@[simp] theorem State.draw_tests (s : State) : (s.draw).tests = s.tests := rfl
@[simp] theorem State.draw_pairTx (s : State) : (s.draw).pairTx = s.pairTx := rfl
@[simp] theorem State.draw_scrub (s : State) : (s.draw).scrub = s.scrub := rfl
@[simp] theorem State.draw_out (s : State) : (s.draw).out = s.out := rfl

/-! ### hostWrite -/

@[simp] theorem State.hostWrite_pending (s : State) (a : Nat) (bs : List Byte) : (s.hostWrite a bs).pending = s.pending := rfl
@[simp] theorem State.hostWrite_free (s : State) (a : Nat) (bs : List Byte) : (s.hostWrite a bs).free = s.free := rfl
@[simp] theorem State.hostWrite_clock (s : State) (a : Nat) (bs : List Byte) : (s.hostWrite a bs).clock = s.clock := rfl
@[simp] theorem State.hostWrite_dict (s : State) (a : Nat) (bs : List Byte) : (s.hostWrite a bs).dict = s.dict := rfl
@[simp] theorem State.hostWrite_mill (s : State) (a : Nat) (bs : List Byte) : (s.hostWrite a bs).mill = s.mill := rfl
@[simp] theorem State.hostWrite_rst (s : State) (a : Nat) (bs : List Byte) : (s.hostWrite a bs).rst = s.rst := rfl
@[simp] theorem State.hostWrite_sessions (s : State) (a : Nat) (bs : List Byte) : (s.hostWrite a bs).sessions = s.sessions := rfl
@[simp] theorem State.hostWrite_conns (s : State) (a : Nat) (bs : List Byte) : (s.hostWrite a bs).conns = s.conns := rfl
@[simp] theorem State.hostWrite_sec (s : State) (a : Nat) (bs : List Byte) : (s.hostWrite a bs).sec = s.sec := rfl
@[simp] theorem State.hostWrite_fns (s : State) (a : Nat) (bs : List Byte) : (s.hostWrite a bs).fns = s.fns := rfl
@[simp] theorem State.hostWrite_ports (s : State) (a : Nat) (bs : List Byte) : (s.hostWrite a bs).ports = s.ports := rfl
@[simp] theorem State.hostWrite_prun (s : State) (a : Nat) (bs : List Byte) : (s.hostWrite a bs).prun = s.prun := rfl
@[simp] theorem State.hostWrite_refusals (s : State) (a : Nat) (bs : List Byte) : (s.hostWrite a bs).refusals = s.refusals := rfl
@[simp] theorem State.hostWrite_brims (s : State) (a : Nat) (bs : List Byte) : (s.hostWrite a bs).brims = s.brims := rfl
@[simp] theorem State.hostWrite_frames (s : State) (a : Nat) (bs : List Byte) : (s.hostWrite a bs).frames = s.frames := rfl
@[simp] theorem State.hostWrite_cfg (s : State) (a : Nat) (bs : List Byte) : (s.hostWrite a bs).cfg = s.cfg := rfl
@[simp] theorem State.hostWrite_taps (s : State) (a : Nat) (bs : List Byte) : (s.hostWrite a bs).taps = s.taps := rfl
@[simp] theorem State.hostWrite_lanes (s : State) (a : Nat) (bs : List Byte) : (s.hostWrite a bs).lanes = s.lanes := rfl
@[simp] theorem State.hostWrite_power (s : State) (a : Nat) (bs : List Byte) : (s.hostWrite a bs).power = s.power := rfl
@[simp] theorem State.hostWrite_waiting (s : State) (a : Nat) (bs : List Byte) : (s.hostWrite a bs).waiting = s.waiting := rfl
@[simp] theorem State.hostWrite_channels (s : State) (a : Nat) (bs : List Byte) : (s.hostWrite a bs).channels = s.channels := rfl
@[simp] theorem State.hostWrite_resps (s : State) (a : Nat) (bs : List Byte) : (s.hostWrite a bs).resps = s.resps := rfl
@[simp] theorem State.hostWrite_nextResp (s : State) (a : Nat) (bs : List Byte) : (s.hostWrite a bs).nextResp = s.nextResp := rfl
@[simp] theorem State.hostWrite_xacts (s : State) (a : Nat) (bs : List Byte) : (s.hostWrite a bs).xacts = s.xacts := rfl
@[simp] theorem State.hostWrite_retired (s : State) (a : Nat) (bs : List Byte) : (s.hostWrite a bs).retired = s.retired := rfl
@[simp] theorem State.hostWrite_stackSides (s : State) (a : Nat) (bs : List Byte) : (s.hostWrite a bs).stackSides = s.stackSides := rfl
@[simp] theorem State.hostWrite_switches (s : State) (a : Nat) (bs : List Byte) : (s.hostWrite a bs).switches = s.switches := rfl
@[simp] theorem State.hostWrite_resv (s : State) (a : Nat) (bs : List Byte) : (s.hostWrite a bs).resv = s.resv := rfl
@[simp] theorem State.hostWrite_resvNext (s : State) (a : Nat) (bs : List Byte) : (s.hostWrite a bs).resvNext = s.resvNext := rfl
@[simp] theorem State.hostWrite_splits (s : State) (a : Nat) (bs : List Byte) : (s.hostWrite a bs).splits = s.splits := rfl
@[simp] theorem State.hostWrite_hbm (s : State) (a : Nat) (bs : List Byte) : (s.hostWrite a bs).hbm = s.hbm := rfl
@[simp] theorem State.hostWrite_poison (s : State) (a : Nat) (bs : List Byte) : (s.hostWrite a bs).poison = s.poison := rfl
@[simp] theorem State.hostWrite_works (s : State) (a : Nat) (bs : List Byte) : (s.hostWrite a bs).works = s.works := rfl
@[simp] theorem State.hostWrite_arrays (s : State) (a : Nat) (bs : List Byte) : (s.hostWrite a bs).arrays = s.arrays := rfl
@[simp] theorem State.hostWrite_engines (s : State) (a : Nat) (bs : List Byte) : (s.hostWrite a bs).engines = s.engines := rfl
@[simp] theorem State.hostWrite_mismatches (s : State) (a : Nat) (bs : List Byte) : (s.hostWrite a bs).mismatches = s.mismatches := rfl
@[simp] theorem State.hostWrite_tests (s : State) (a : Nat) (bs : List Byte) : (s.hostWrite a bs).tests = s.tests := rfl
@[simp] theorem State.hostWrite_pairTx (s : State) (a : Nat) (bs : List Byte) : (s.hostWrite a bs).pairTx = s.pairTx := rfl
@[simp] theorem State.hostWrite_scrub (s : State) (a : Nat) (bs : List Byte) : (s.hostWrite a bs).scrub = s.scrub := rfl
@[simp] theorem State.hostWrite_out (s : State) (a : Nat) (bs : List Byte) : (s.hostWrite a bs).out = s.out := rfl

/-! ### setFn -/

@[simp] theorem State.setFn_pending (s : State) (f : Fn) (x : FnState) : (s.setFn f x).pending = s.pending := rfl
@[simp] theorem State.setFn_free (s : State) (f : Fn) (x : FnState) : (s.setFn f x).free = s.free := rfl
@[simp] theorem State.setFn_clock (s : State) (f : Fn) (x : FnState) : (s.setFn f x).clock = s.clock := rfl
@[simp] theorem State.setFn_dict (s : State) (f : Fn) (x : FnState) : (s.setFn f x).dict = s.dict := rfl
@[simp] theorem State.setFn_mill (s : State) (f : Fn) (x : FnState) : (s.setFn f x).mill = s.mill := rfl
@[simp] theorem State.setFn_rst (s : State) (f : Fn) (x : FnState) : (s.setFn f x).rst = s.rst := rfl
@[simp] theorem State.setFn_sessions (s : State) (f : Fn) (x : FnState) : (s.setFn f x).sessions = s.sessions := rfl
@[simp] theorem State.setFn_conns (s : State) (f : Fn) (x : FnState) : (s.setFn f x).conns = s.conns := rfl
@[simp] theorem State.setFn_sec (s : State) (f : Fn) (x : FnState) : (s.setFn f x).sec = s.sec := rfl
@[simp] theorem State.setFn_ports (s : State) (f : Fn) (x : FnState) : (s.setFn f x).ports = s.ports := rfl
@[simp] theorem State.setFn_prun (s : State) (f : Fn) (x : FnState) : (s.setFn f x).prun = s.prun := rfl
@[simp] theorem State.setFn_refusals (s : State) (f : Fn) (x : FnState) : (s.setFn f x).refusals = s.refusals := rfl
@[simp] theorem State.setFn_hostMem (s : State) (f : Fn) (x : FnState) : (s.setFn f x).hostMem = s.hostMem := rfl
@[simp] theorem State.setFn_brims (s : State) (f : Fn) (x : FnState) : (s.setFn f x).brims = s.brims := rfl
@[simp] theorem State.setFn_frames (s : State) (f : Fn) (x : FnState) : (s.setFn f x).frames = s.frames := rfl
@[simp] theorem State.setFn_cfg (s : State) (f : Fn) (x : FnState) : (s.setFn f x).cfg = s.cfg := rfl
@[simp] theorem State.setFn_taps (s : State) (f : Fn) (x : FnState) : (s.setFn f x).taps = s.taps := rfl
@[simp] theorem State.setFn_lanes (s : State) (f : Fn) (x : FnState) : (s.setFn f x).lanes = s.lanes := rfl
@[simp] theorem State.setFn_power (s : State) (f : Fn) (x : FnState) : (s.setFn f x).power = s.power := rfl
@[simp] theorem State.setFn_waiting (s : State) (f : Fn) (x : FnState) : (s.setFn f x).waiting = s.waiting := rfl
@[simp] theorem State.setFn_channels (s : State) (f : Fn) (x : FnState) : (s.setFn f x).channels = s.channels := rfl
@[simp] theorem State.setFn_resps (s : State) (f : Fn) (x : FnState) : (s.setFn f x).resps = s.resps := rfl
@[simp] theorem State.setFn_nextResp (s : State) (f : Fn) (x : FnState) : (s.setFn f x).nextResp = s.nextResp := rfl
@[simp] theorem State.setFn_xacts (s : State) (f : Fn) (x : FnState) : (s.setFn f x).xacts = s.xacts := rfl
@[simp] theorem State.setFn_retired (s : State) (f : Fn) (x : FnState) : (s.setFn f x).retired = s.retired := rfl
@[simp] theorem State.setFn_stackSides (s : State) (f : Fn) (x : FnState) : (s.setFn f x).stackSides = s.stackSides := rfl
@[simp] theorem State.setFn_switches (s : State) (f : Fn) (x : FnState) : (s.setFn f x).switches = s.switches := rfl
@[simp] theorem State.setFn_resv (s : State) (f : Fn) (x : FnState) : (s.setFn f x).resv = s.resv := rfl
@[simp] theorem State.setFn_resvNext (s : State) (f : Fn) (x : FnState) : (s.setFn f x).resvNext = s.resvNext := rfl
@[simp] theorem State.setFn_splits (s : State) (f : Fn) (x : FnState) : (s.setFn f x).splits = s.splits := rfl
@[simp] theorem State.setFn_hbm (s : State) (f : Fn) (x : FnState) : (s.setFn f x).hbm = s.hbm := rfl
@[simp] theorem State.setFn_poison (s : State) (f : Fn) (x : FnState) : (s.setFn f x).poison = s.poison := rfl
@[simp] theorem State.setFn_works (s : State) (f : Fn) (x : FnState) : (s.setFn f x).works = s.works := rfl
@[simp] theorem State.setFn_arrays (s : State) (f : Fn) (x : FnState) : (s.setFn f x).arrays = s.arrays := rfl
@[simp] theorem State.setFn_engines (s : State) (f : Fn) (x : FnState) : (s.setFn f x).engines = s.engines := rfl
@[simp] theorem State.setFn_mismatches (s : State) (f : Fn) (x : FnState) : (s.setFn f x).mismatches = s.mismatches := rfl
@[simp] theorem State.setFn_tests (s : State) (f : Fn) (x : FnState) : (s.setFn f x).tests = s.tests := rfl
@[simp] theorem State.setFn_pairTx (s : State) (f : Fn) (x : FnState) : (s.setFn f x).pairTx = s.pairTx := rfl
@[simp] theorem State.setFn_scrub (s : State) (f : Fn) (x : FnState) : (s.setFn f x).scrub = s.scrub := rfl
@[simp] theorem State.setFn_out (s : State) (f : Fn) (x : FnState) : (s.setFn f x).out = s.out := rfl

/-! ### modFn -/

@[simp] theorem State.modFn_pending (s : State) (f : Fn) (g : FnState → FnState) : (s.modFn f g).pending = s.pending := rfl
@[simp] theorem State.modFn_free (s : State) (f : Fn) (g : FnState → FnState) : (s.modFn f g).free = s.free := rfl
@[simp] theorem State.modFn_clock (s : State) (f : Fn) (g : FnState → FnState) : (s.modFn f g).clock = s.clock := rfl
@[simp] theorem State.modFn_dict (s : State) (f : Fn) (g : FnState → FnState) : (s.modFn f g).dict = s.dict := rfl
@[simp] theorem State.modFn_mill (s : State) (f : Fn) (g : FnState → FnState) : (s.modFn f g).mill = s.mill := rfl
@[simp] theorem State.modFn_rst (s : State) (f : Fn) (g : FnState → FnState) : (s.modFn f g).rst = s.rst := rfl
@[simp] theorem State.modFn_sessions (s : State) (f : Fn) (g : FnState → FnState) : (s.modFn f g).sessions = s.sessions := rfl
@[simp] theorem State.modFn_conns (s : State) (f : Fn) (g : FnState → FnState) : (s.modFn f g).conns = s.conns := rfl
@[simp] theorem State.modFn_sec (s : State) (f : Fn) (g : FnState → FnState) : (s.modFn f g).sec = s.sec := rfl
@[simp] theorem State.modFn_ports (s : State) (f : Fn) (g : FnState → FnState) : (s.modFn f g).ports = s.ports := rfl
@[simp] theorem State.modFn_prun (s : State) (f : Fn) (g : FnState → FnState) : (s.modFn f g).prun = s.prun := rfl
@[simp] theorem State.modFn_refusals (s : State) (f : Fn) (g : FnState → FnState) : (s.modFn f g).refusals = s.refusals := rfl
@[simp] theorem State.modFn_hostMem (s : State) (f : Fn) (g : FnState → FnState) : (s.modFn f g).hostMem = s.hostMem := rfl
@[simp] theorem State.modFn_brims (s : State) (f : Fn) (g : FnState → FnState) : (s.modFn f g).brims = s.brims := rfl
@[simp] theorem State.modFn_frames (s : State) (f : Fn) (g : FnState → FnState) : (s.modFn f g).frames = s.frames := rfl
@[simp] theorem State.modFn_cfg (s : State) (f : Fn) (g : FnState → FnState) : (s.modFn f g).cfg = s.cfg := rfl
@[simp] theorem State.modFn_taps (s : State) (f : Fn) (g : FnState → FnState) : (s.modFn f g).taps = s.taps := rfl
@[simp] theorem State.modFn_lanes (s : State) (f : Fn) (g : FnState → FnState) : (s.modFn f g).lanes = s.lanes := rfl
@[simp] theorem State.modFn_power (s : State) (f : Fn) (g : FnState → FnState) : (s.modFn f g).power = s.power := rfl
@[simp] theorem State.modFn_waiting (s : State) (f : Fn) (g : FnState → FnState) : (s.modFn f g).waiting = s.waiting := rfl
@[simp] theorem State.modFn_channels (s : State) (f : Fn) (g : FnState → FnState) : (s.modFn f g).channels = s.channels := rfl
@[simp] theorem State.modFn_resps (s : State) (f : Fn) (g : FnState → FnState) : (s.modFn f g).resps = s.resps := rfl
@[simp] theorem State.modFn_nextResp (s : State) (f : Fn) (g : FnState → FnState) : (s.modFn f g).nextResp = s.nextResp := rfl
@[simp] theorem State.modFn_xacts (s : State) (f : Fn) (g : FnState → FnState) : (s.modFn f g).xacts = s.xacts := rfl
@[simp] theorem State.modFn_retired (s : State) (f : Fn) (g : FnState → FnState) : (s.modFn f g).retired = s.retired := rfl
@[simp] theorem State.modFn_stackSides (s : State) (f : Fn) (g : FnState → FnState) : (s.modFn f g).stackSides = s.stackSides := rfl
@[simp] theorem State.modFn_switches (s : State) (f : Fn) (g : FnState → FnState) : (s.modFn f g).switches = s.switches := rfl
@[simp] theorem State.modFn_resv (s : State) (f : Fn) (g : FnState → FnState) : (s.modFn f g).resv = s.resv := rfl
@[simp] theorem State.modFn_resvNext (s : State) (f : Fn) (g : FnState → FnState) : (s.modFn f g).resvNext = s.resvNext := rfl
@[simp] theorem State.modFn_splits (s : State) (f : Fn) (g : FnState → FnState) : (s.modFn f g).splits = s.splits := rfl
@[simp] theorem State.modFn_hbm (s : State) (f : Fn) (g : FnState → FnState) : (s.modFn f g).hbm = s.hbm := rfl
@[simp] theorem State.modFn_poison (s : State) (f : Fn) (g : FnState → FnState) : (s.modFn f g).poison = s.poison := rfl
@[simp] theorem State.modFn_works (s : State) (f : Fn) (g : FnState → FnState) : (s.modFn f g).works = s.works := rfl
@[simp] theorem State.modFn_arrays (s : State) (f : Fn) (g : FnState → FnState) : (s.modFn f g).arrays = s.arrays := rfl
@[simp] theorem State.modFn_engines (s : State) (f : Fn) (g : FnState → FnState) : (s.modFn f g).engines = s.engines := rfl
@[simp] theorem State.modFn_mismatches (s : State) (f : Fn) (g : FnState → FnState) : (s.modFn f g).mismatches = s.mismatches := rfl
@[simp] theorem State.modFn_tests (s : State) (f : Fn) (g : FnState → FnState) : (s.modFn f g).tests = s.tests := rfl
@[simp] theorem State.modFn_pairTx (s : State) (f : Fn) (g : FnState → FnState) : (s.modFn f g).pairTx = s.pairTx := rfl
@[simp] theorem State.modFn_scrub (s : State) (f : Fn) (g : FnState → FnState) : (s.modFn f g).scrub = s.scrub := rfl
@[simp] theorem State.modFn_out (s : State) (f : Fn) (g : FnState → FnState) : (s.modFn f g).out = s.out := rfl

/-! ### setPort -/

@[simp] theorem State.setPort_pending (s : State) (n : Nat) (x : PortState) : (s.setPort n x).pending = s.pending := rfl
@[simp] theorem State.setPort_free (s : State) (n : Nat) (x : PortState) : (s.setPort n x).free = s.free := rfl
@[simp] theorem State.setPort_clock (s : State) (n : Nat) (x : PortState) : (s.setPort n x).clock = s.clock := rfl
@[simp] theorem State.setPort_dict (s : State) (n : Nat) (x : PortState) : (s.setPort n x).dict = s.dict := rfl
@[simp] theorem State.setPort_mill (s : State) (n : Nat) (x : PortState) : (s.setPort n x).mill = s.mill := rfl
@[simp] theorem State.setPort_rst (s : State) (n : Nat) (x : PortState) : (s.setPort n x).rst = s.rst := rfl
@[simp] theorem State.setPort_sessions (s : State) (n : Nat) (x : PortState) : (s.setPort n x).sessions = s.sessions := rfl
@[simp] theorem State.setPort_conns (s : State) (n : Nat) (x : PortState) : (s.setPort n x).conns = s.conns := rfl
@[simp] theorem State.setPort_sec (s : State) (n : Nat) (x : PortState) : (s.setPort n x).sec = s.sec := rfl
@[simp] theorem State.setPort_fns (s : State) (n : Nat) (x : PortState) : (s.setPort n x).fns = s.fns := rfl
@[simp] theorem State.setPort_prun (s : State) (n : Nat) (x : PortState) : (s.setPort n x).prun = s.prun := rfl
@[simp] theorem State.setPort_refusals (s : State) (n : Nat) (x : PortState) : (s.setPort n x).refusals = s.refusals := rfl
@[simp] theorem State.setPort_hostMem (s : State) (n : Nat) (x : PortState) : (s.setPort n x).hostMem = s.hostMem := rfl
@[simp] theorem State.setPort_brims (s : State) (n : Nat) (x : PortState) : (s.setPort n x).brims = s.brims := rfl
@[simp] theorem State.setPort_frames (s : State) (n : Nat) (x : PortState) : (s.setPort n x).frames = s.frames := rfl
@[simp] theorem State.setPort_cfg (s : State) (n : Nat) (x : PortState) : (s.setPort n x).cfg = s.cfg := rfl
@[simp] theorem State.setPort_taps (s : State) (n : Nat) (x : PortState) : (s.setPort n x).taps = s.taps := rfl
@[simp] theorem State.setPort_lanes (s : State) (n : Nat) (x : PortState) : (s.setPort n x).lanes = s.lanes := rfl
@[simp] theorem State.setPort_power (s : State) (n : Nat) (x : PortState) : (s.setPort n x).power = s.power := rfl
@[simp] theorem State.setPort_waiting (s : State) (n : Nat) (x : PortState) : (s.setPort n x).waiting = s.waiting := rfl
@[simp] theorem State.setPort_channels (s : State) (n : Nat) (x : PortState) : (s.setPort n x).channels = s.channels := rfl
@[simp] theorem State.setPort_resps (s : State) (n : Nat) (x : PortState) : (s.setPort n x).resps = s.resps := rfl
@[simp] theorem State.setPort_nextResp (s : State) (n : Nat) (x : PortState) : (s.setPort n x).nextResp = s.nextResp := rfl
@[simp] theorem State.setPort_xacts (s : State) (n : Nat) (x : PortState) : (s.setPort n x).xacts = s.xacts := rfl
@[simp] theorem State.setPort_retired (s : State) (n : Nat) (x : PortState) : (s.setPort n x).retired = s.retired := rfl
@[simp] theorem State.setPort_stackSides (s : State) (n : Nat) (x : PortState) : (s.setPort n x).stackSides = s.stackSides := rfl
@[simp] theorem State.setPort_switches (s : State) (n : Nat) (x : PortState) : (s.setPort n x).switches = s.switches := rfl
@[simp] theorem State.setPort_resv (s : State) (n : Nat) (x : PortState) : (s.setPort n x).resv = s.resv := rfl
@[simp] theorem State.setPort_resvNext (s : State) (n : Nat) (x : PortState) : (s.setPort n x).resvNext = s.resvNext := rfl
@[simp] theorem State.setPort_splits (s : State) (n : Nat) (x : PortState) : (s.setPort n x).splits = s.splits := rfl
@[simp] theorem State.setPort_hbm (s : State) (n : Nat) (x : PortState) : (s.setPort n x).hbm = s.hbm := rfl
@[simp] theorem State.setPort_poison (s : State) (n : Nat) (x : PortState) : (s.setPort n x).poison = s.poison := rfl
@[simp] theorem State.setPort_works (s : State) (n : Nat) (x : PortState) : (s.setPort n x).works = s.works := rfl
@[simp] theorem State.setPort_arrays (s : State) (n : Nat) (x : PortState) : (s.setPort n x).arrays = s.arrays := rfl
@[simp] theorem State.setPort_engines (s : State) (n : Nat) (x : PortState) : (s.setPort n x).engines = s.engines := rfl
@[simp] theorem State.setPort_mismatches (s : State) (n : Nat) (x : PortState) : (s.setPort n x).mismatches = s.mismatches := rfl
@[simp] theorem State.setPort_tests (s : State) (n : Nat) (x : PortState) : (s.setPort n x).tests = s.tests := rfl
@[simp] theorem State.setPort_pairTx (s : State) (n : Nat) (x : PortState) : (s.setPort n x).pairTx = s.pairTx := rfl
@[simp] theorem State.setPort_scrub (s : State) (n : Nat) (x : PortState) : (s.setPort n x).scrub = s.scrub := rfl
@[simp] theorem State.setPort_out (s : State) (n : Nat) (x : PortState) : (s.setPort n x).out = s.out := rfl

/-! ### modSec -/

@[simp] theorem State.modSec_pending (s : State) (p : Nat) (g : PartSec → PartSec) : (s.modSec p g).pending = s.pending := rfl
@[simp] theorem State.modSec_free (s : State) (p : Nat) (g : PartSec → PartSec) : (s.modSec p g).free = s.free := rfl
@[simp] theorem State.modSec_clock (s : State) (p : Nat) (g : PartSec → PartSec) : (s.modSec p g).clock = s.clock := rfl
@[simp] theorem State.modSec_dict (s : State) (p : Nat) (g : PartSec → PartSec) : (s.modSec p g).dict = s.dict := rfl
@[simp] theorem State.modSec_mill (s : State) (p : Nat) (g : PartSec → PartSec) : (s.modSec p g).mill = s.mill := rfl
@[simp] theorem State.modSec_rst (s : State) (p : Nat) (g : PartSec → PartSec) : (s.modSec p g).rst = s.rst := rfl
@[simp] theorem State.modSec_sessions (s : State) (p : Nat) (g : PartSec → PartSec) : (s.modSec p g).sessions = s.sessions := rfl
@[simp] theorem State.modSec_conns (s : State) (p : Nat) (g : PartSec → PartSec) : (s.modSec p g).conns = s.conns := rfl
@[simp] theorem State.modSec_fns (s : State) (p : Nat) (g : PartSec → PartSec) : (s.modSec p g).fns = s.fns := rfl
@[simp] theorem State.modSec_ports (s : State) (p : Nat) (g : PartSec → PartSec) : (s.modSec p g).ports = s.ports := rfl
@[simp] theorem State.modSec_prun (s : State) (p : Nat) (g : PartSec → PartSec) : (s.modSec p g).prun = s.prun := rfl
@[simp] theorem State.modSec_refusals (s : State) (p : Nat) (g : PartSec → PartSec) : (s.modSec p g).refusals = s.refusals := rfl
@[simp] theorem State.modSec_hostMem (s : State) (p : Nat) (g : PartSec → PartSec) : (s.modSec p g).hostMem = s.hostMem := rfl
@[simp] theorem State.modSec_brims (s : State) (p : Nat) (g : PartSec → PartSec) : (s.modSec p g).brims = s.brims := rfl
@[simp] theorem State.modSec_frames (s : State) (p : Nat) (g : PartSec → PartSec) : (s.modSec p g).frames = s.frames := rfl
@[simp] theorem State.modSec_cfg (s : State) (p : Nat) (g : PartSec → PartSec) : (s.modSec p g).cfg = s.cfg := rfl
@[simp] theorem State.modSec_taps (s : State) (p : Nat) (g : PartSec → PartSec) : (s.modSec p g).taps = s.taps := rfl
@[simp] theorem State.modSec_lanes (s : State) (p : Nat) (g : PartSec → PartSec) : (s.modSec p g).lanes = s.lanes := rfl
@[simp] theorem State.modSec_power (s : State) (p : Nat) (g : PartSec → PartSec) : (s.modSec p g).power = s.power := rfl
@[simp] theorem State.modSec_waiting (s : State) (p : Nat) (g : PartSec → PartSec) : (s.modSec p g).waiting = s.waiting := rfl
@[simp] theorem State.modSec_channels (s : State) (p : Nat) (g : PartSec → PartSec) : (s.modSec p g).channels = s.channels := rfl
@[simp] theorem State.modSec_resps (s : State) (p : Nat) (g : PartSec → PartSec) : (s.modSec p g).resps = s.resps := rfl
@[simp] theorem State.modSec_nextResp (s : State) (p : Nat) (g : PartSec → PartSec) : (s.modSec p g).nextResp = s.nextResp := rfl
@[simp] theorem State.modSec_xacts (s : State) (p : Nat) (g : PartSec → PartSec) : (s.modSec p g).xacts = s.xacts := rfl
@[simp] theorem State.modSec_retired (s : State) (p : Nat) (g : PartSec → PartSec) : (s.modSec p g).retired = s.retired := rfl
@[simp] theorem State.modSec_stackSides (s : State) (p : Nat) (g : PartSec → PartSec) : (s.modSec p g).stackSides = s.stackSides := rfl
@[simp] theorem State.modSec_switches (s : State) (p : Nat) (g : PartSec → PartSec) : (s.modSec p g).switches = s.switches := rfl
@[simp] theorem State.modSec_resv (s : State) (p : Nat) (g : PartSec → PartSec) : (s.modSec p g).resv = s.resv := rfl
@[simp] theorem State.modSec_resvNext (s : State) (p : Nat) (g : PartSec → PartSec) : (s.modSec p g).resvNext = s.resvNext := rfl
@[simp] theorem State.modSec_splits (s : State) (p : Nat) (g : PartSec → PartSec) : (s.modSec p g).splits = s.splits := rfl
@[simp] theorem State.modSec_hbm (s : State) (p : Nat) (g : PartSec → PartSec) : (s.modSec p g).hbm = s.hbm := rfl
@[simp] theorem State.modSec_poison (s : State) (p : Nat) (g : PartSec → PartSec) : (s.modSec p g).poison = s.poison := rfl
@[simp] theorem State.modSec_works (s : State) (p : Nat) (g : PartSec → PartSec) : (s.modSec p g).works = s.works := rfl
@[simp] theorem State.modSec_arrays (s : State) (p : Nat) (g : PartSec → PartSec) : (s.modSec p g).arrays = s.arrays := rfl
@[simp] theorem State.modSec_engines (s : State) (p : Nat) (g : PartSec → PartSec) : (s.modSec p g).engines = s.engines := rfl
@[simp] theorem State.modSec_mismatches (s : State) (p : Nat) (g : PartSec → PartSec) : (s.modSec p g).mismatches = s.mismatches := rfl
@[simp] theorem State.modSec_tests (s : State) (p : Nat) (g : PartSec → PartSec) : (s.modSec p g).tests = s.tests := rfl
@[simp] theorem State.modSec_pairTx (s : State) (p : Nat) (g : PartSec → PartSec) : (s.modSec p g).pairTx = s.pairTx := rfl
@[simp] theorem State.modSec_scrub (s : State) (p : Nat) (g : PartSec → PartSec) : (s.modSec p g).scrub = s.scrub := rfl
@[simp] theorem State.modSec_out (s : State) (p : Nat) (g : PartSec → PartSec) : (s.modSec p g).out = s.out := rfl

/-! ### What the changed field holds -/

@[simp] theorem State.draw_free (s : State) : s.draw.free = s.free + 1 := rfl
@[simp] theorem State.emit_out (s : State) (o : Out) : (s.emit o).out = s.out ++ [o] := rfl
@[simp] theorem State.reach_tai (s : State) (ns : Nat) : (s.reach ns).clock.tai = max s.clock.tai (ns * 2 ^ 32) := rfl
@[simp] theorem State.reach_frame (s : State) (ns : Nat) : (s.reach ns).clock.frame = s.clock.frame := rfl

/-- A register reads what was written, cut to its length (R397). -/
@[simp] theorem State.reg_setReg_self (s : State) (k v : Nat) :
    (s.setReg k v).reg k = v % 2 ^ (8 * regLen k) := sget_sput_self regDefault s.dict k _

/-- Writing a register leaves every other alone. -/
theorem State.reg_setReg_other (s : State) {j k : Nat} (h : j ≠ k) (v : Nat) : (s.setReg k v).reg j = s.reg j :=
  sget_sput_other regDefault s.dict h _

/-- A counter counts, modulo its width (R62, R141, R226). -/
@[simp] theorem State.reg_bump_self (s : State) (k n : Nat) :
    (s.bump k n).reg k = (s.reg k + n) % 2 ^ (8 * regLen k) := s.reg_setReg_self k _

theorem State.reg_bump_other (s : State) {j k : Nat} (h : j ≠ k) (n : Nat) : (s.bump k n).reg j = s.reg j :=
  s.reg_setReg_other h _

/-- A function's state reads what was put there. -/
@[simp] theorem State.fn_setFn_self (s : State) (f : Fn) (x : FnState) : (s.setFn f x).fn f = x :=
  sget_sput_self _ s.fns _ x

theorem State.fn_setFn_other (s : State) {f g : Fn} (h : fnKey g ≠ fnKey f) (x : FnState) : (s.setFn f x).fn g = s.fn g :=
  sget_sput_other _ s.fns h x

/-- The registers of two states with the same dictionary read alike. -/
theorem State.reg_congr {s t : State} (h : t.dict = s.dict) (k : Nat) : t.reg k = s.reg k := by
  unfold State.reg; rw [h]

theorem State.fn_congr {s t : State} (h : t.fns = s.fns) (f : Fn) : t.fn f = s.fn f := by
  unfold State.fn; rw [h]

/-- A byte that the device writes to host memory leaves every other byte alone. -/
theorem State.hostWrite_other (s : State) (a : Nat) (bs : List Byte) (j : Nat) (h : j < a ∨ a + bs.length ≤ j) :
    sget hostDefault (s.hostWrite a bs).hostMem j = sget hostDefault s.hostMem j := by
  refine sget_foldl_sput hostDefault _ (fun e : Nat × Byte => a + e.1) (fun e => e.2) s.hostMem j (fun e he => ?_)
  obtain ⟨i, hi, rfl⟩ := List.mem_mapIdx.1 he
  dsimp only
  omega

/-- Writing to host memory keeps its canonical form. -/
theorem State.hostWrite_wf (s : State) (a : Nat) (bs : List Byte) (h : swf hostDefault s.hostMem = true) :
    swf hostDefault (s.hostWrite a bs).hostMem = true :=
  swf_foldl_sput hostDefault _ (fun e : Nat × Byte => a + e.1) (fun e => e.2) s.hostMem h

end Sys2Proof.Machine
end

