-- ==== Sys2Proof/Laws/Goes.lean ====
section
/-! SUPPORT. The relation that every operation satisfies: it changes at most some pieces of the state, and it keeps what the model
keeps throughout.  One lemma for each operation says so, in a form that chains. -/

namespace Sys2Proof.Machine

/-- From `s` to `t` at most the pieces `F` change, and the model's own promises hold. -/
def Goes (F : List Piece) (s t : State) : Prop := ChangesOnly F s t ∧ Flows s t

theorem Flows.refl (s : State) : Flows s s := ⟨le_rfl, List.prefix_refl _, id, id, id⟩

theorem Flows.trans {s t u : State} (h : Flows s t) (g : Flows t u) : Flows s u :=
  ⟨h.free.trans g.free, h.out.trans g.out, g.canonical ∘ h.canonical, g.fits ∘ h.fits, g.bounded ∘ h.bounded⟩

theorem State.same_refl (s : State) (p : Piece) : s.same s p := by cases p <;> rfl

theorem State.same_trans {s t u : State} {p : Piece} (h : s.same t p) (g : t.same u p) : s.same u p := by
  cases p <;> exact Eq.trans g h

theorem Goes.refl (F : List Piece) (s : State) : Goes F s s := ⟨fun p _ => s.same_refl p, Flows.refl s⟩

theorem Goes.trans {F : List Piece} {s t u : State} (h : Goes F s t) (g : Goes F t u) : Goes F s u :=
  ⟨fun p hp => State.same_trans (h.1 p hp) (g.1 p hp), h.2.trans g.2⟩

/-- More pieces may be named. -/
theorem Goes.mono {F G : List Piece} {s t : State} (h : Goes F s t) (hFG : ∀ p ∈ F, p ∈ G) : Goes G s t :=
  ⟨fun p hp => h.1 p (fun hF => hp (hFG p hF)), h.2⟩

/-- An update of pieces that the promises do not speak of. -/
theorem Goes.plain {F : List Piece} {s₀ s t : State} (h : Goes F s₀ s) (hs : ChangesOnly F s t) (free : t.free = s.free)
    (out : t.out = s.out) (dict : t.dict = s.dict) (hbm : t.hbm = s.hbm) (host : t.hostMem = s.hostMem)
    (frame : t.clock.frame = s.clock.frame) (events : t.mill.events = s.mill.events)
    (responses : t.mill.responses = s.mill.responses) : Goes F s₀ t := by
  refine h.trans ⟨hs, ⟨le_of_eq free.symm, by rw [out], fun c => ?_, fun c => ?_, fun c => ?_⟩⟩
  · unfold State.canonical; rw [dict, hbm, host]; exact c
  · unfold State.registersFit; rw [dict]; exact c
  · unfold State.bounded; rw [frame, events, responses]; exact c

/-! ### Branches and loops -/

theorem Goes.ite {F : List Piece} {s a b : State} {c : Prop} [Decidable c] (ha : Goes F s a) (hb : Goes F s b) :
    Goes F s (if c then a else b) := by split <;> assumption

theorem Goes.foldl {α : Type} {F : List Piece} {s₀ s : State} (l : List α) {f : State → α → State}
    (hf : ∀ s x, Goes F s₀ s → Goes F s₀ (f s x)) (h : Goes F s₀ s) : Goes F s₀ (l.foldl f s) := by
  induction l generalizing s with
  | nil => exact h
  | cons x l ih => exact ih (hf s x h)

theorem Goes.foldl_fst {α β : Type} {F : List Piece} {s₀ : State} (l : List α) {f : State × β → α → State × β}
    (hf : ∀ a x, Goes F s₀ a.1 → Goes F s₀ (f a x).1) (a : State × β) (h : Goes F s₀ a.1) : Goes F s₀ (l.foldl f a).1 := by
  induction l generalizing a with
  | nil => exact h
  | cons x l ih => exact ih _ (hf a x h)

theorem Goes.elim {α : Type} {F : List Piece} {s a : State} (o : Option α) {f : α → State} (ha : Goes F s a)
    (hf : ∀ x, Goes F s (f x)) : Goes F s (o.elim a f) := by
  cases o with
  | none => exact ha
  | some x => exact hf x

/-- Whatever an operation that may refuse answers, it goes there from `s`. -/
def GoesAny (F : List Piece) (s : State) (o : Option State) : Prop := ∀ t, o = some t → Goes F s t

theorem GoesAny.none {F : List Piece} {s : State} : GoesAny F s none := fun _ h => nomatch h

theorem GoesAny.some {F : List Piece} {s t : State} (h : Goes F s t) : GoesAny F s (some t) :=
  fun _ e => Option.some.inj e ▸ h

theorem GoesAny.ite {F : List Piece} {s : State} {a b : Option State} {c : Prop} [Decidable c] (ha : GoesAny F s a)
    (hb : GoesAny F s b) : GoesAny F s (if c then a else b) := by split <;> assumption

/-! ### The basic updates -/

theorem Goes.setReg {F : List Piece} {s₀ s : State} (k v : Nat) (hdict : Piece.dict ∈ F) (h : Goes F s₀ s) :
    Goes F s₀ (s.setReg k v) := by
  refine h.trans ⟨fun p hp => ?_, ⟨le_rfl, List.prefix_refl _, fun c => ⟨c.1, c.2.1, swf_sput _ _ _ _ c.2.2⟩, fun c e he => ?_, id⟩⟩
  · cases p <;> first | rfl | exact absurd hdict hp
  · rcases mem_sput he with rfl | he
    · exact Nat.mod_lt _ (by positivity)
    · exact c e he

theorem Goes.bump {F : List Piece} {s₀ s : State} (k n : Nat) (hdict : Piece.dict ∈ F) (h : Goes F s₀ s) :
    Goes F s₀ (s.bump k n) := h.setReg _ _ hdict

theorem Goes.raiseReg {F : List Piece} {s₀ s : State} (k v : Nat) (hdict : Piece.dict ∈ F) (h : Goes F s₀ s) :
    Goes F s₀ (s.raiseReg k v) := h.setReg _ _ hdict

theorem Goes.clearRegs {F : List Piece} {s₀ s : State} (p : Nat → Bool) (hdict : Piece.dict ∈ F) (h : Goes F s₀ s) :
    Goes F s₀ (s.clearRegs p) := by
  refine h.trans ⟨fun q hq => ?_, ⟨le_rfl, List.prefix_refl _, fun c => ⟨c.1, c.2.1, swf_sclear _ _ _ c.2.2⟩, fun c e he => ?_, id⟩⟩
  · cases q <;> first | rfl | exact absurd hdict hq
  · exact c e (List.mem_filter.1 he).1

theorem Goes.reach {F : List Piece} {s₀ s : State} (ns : Nat) (hclock : Piece.clock ∈ F) (h : Goes F s₀ s) :
    Goes F s₀ (s.reach ns) :=
  h.plain (fun p hp => by cases p <;> first | rfl | exact absurd hclock hp) rfl rfl rfl rfl rfl rfl rfl rfl

theorem Goes.emit {F : List Piece} {s₀ s : State} (o : Out) (hout : Piece.out ∈ F) (h : Goes F s₀ s) :
    Goes F s₀ (s.emit o) := by
  refine h.trans ⟨fun p hp => ?_, ⟨le_rfl, List.prefix_append _ _, id, id, id⟩⟩
  cases p <;> first | rfl | exact absurd hout hp

theorem Goes.draw {F : List Piece} {s₀ s : State} (hfree : Piece.free ∈ F) (h : Goes F s₀ s) : Goes F s₀ s.draw := by
  refine h.trans ⟨fun p hp => ?_, ⟨Nat.le_succ _, List.prefix_refl _, id, id, id⟩⟩
  cases p <;> first | rfl | exact absurd hfree hp

/-- Drawing several free values at once. -/
theorem Goes.drawMany {F : List Piece} {s₀ s : State} (n : Nat) (hfree : Piece.free ∈ F) (h : Goes F s₀ s) :
    Goes F s₀ { s with free := s.free + n } := by
  refine h.trans ⟨fun p hp => ?_, ⟨Nat.le_add_right _ _, List.prefix_refl _, id, id, id⟩⟩
  cases p <;> first | rfl | exact absurd hfree hp

/-- New HBM contents in canonical form. -/
theorem Goes.hbmTo {F : List Piece} {s₀ s : State} (m : List Host.Cell) (hhbm : Piece.hbm ∈ F)
    (hm : Memory.wf s.hbm = true → Memory.wf m = true) (h : Goes F s₀ s) : Goes F s₀ { s with hbm := m } := by
  refine h.trans ⟨fun p hp => ?_, ⟨le_rfl, List.prefix_refl _, fun c => ⟨hm c.1, c.2⟩, id, id⟩⟩
  cases p <;> first | rfl | exact absurd hhbm hp

theorem Goes.hostWrite {F : List Piece} {s₀ s : State} (a : Nat) (bs : List Byte) (hhostMem : Piece.hostMem ∈ F)
    (h : Goes F s₀ s) : Goes F s₀ (s.hostWrite a bs) := by
  refine h.trans ⟨fun p hp => ?_, ⟨le_rfl, List.prefix_refl _, fun c => ⟨c.1, s.hostWrite_wf a bs c.2.1, c.2.2⟩, id, id⟩⟩
  cases p <;> first | rfl | exact absurd hhostMem hp

/-- A new clock whose frame counter still counts modulo 256. -/
theorem Goes.clockTo {F : List Piece} {s₀ s : State} (c : Clock) (hclock : Piece.clock ∈ F)
    (hc : s.clock.frame < 256 → c.frame < 256) (h : Goes F s₀ s) : Goes F s₀ { s with clock := c } := by
  refine h.trans ⟨fun p hp => ?_, ⟨le_rfl, List.prefix_refl _, id, id, fun b => ⟨hc b.1, b.2⟩⟩⟩
  cases p <;> first | rfl | exact absurd hclock hp

/-- A new Milliner state whose event log and kept responses are within their bounds. -/
theorem Goes.millTo {F : List Piece} {s₀ s : State} (m : Mill) (hmill : Piece.mill ∈ F)
    (he : s.mill.events.length ≤ 24576 → m.events.length ≤ 24576)
    (hr : s.mill.responses.length ≤ 16 → m.responses.length ≤ 16) (h : Goes F s₀ s) : Goes F s₀ { s with mill := m } := by
  refine h.trans ⟨fun p hp => ?_, ⟨le_rfl, List.prefix_refl _, id, id, fun b => ⟨b.1, he b.2.1, hr b.2.2⟩⟩⟩
  cases p <;> first | rfl | exact absurd hmill hp

theorem Goes.clock_freeTo {F : List Piece} {s₀ s : State} (c : Clock) (n : Nat) (hclock : Piece.clock ∈ F)
    (hfree : Piece.free ∈ F) (hc : s.clock.frame < 256 → c.frame < 256) (go : Goes F s₀ s) :
    Goes F s₀ { s with clock := c, free := s.free + n } :=
  Goes.clockTo (s := { s with free := s.free + n }) c hclock hc (go.drawMany n hfree)

theorem Goes.free_sessionsTo {F : List Piece} {s₀ s : State} (l : List Session) (n : Nat) (hfree : Piece.free ∈ F)
    (hsessions : Piece.sessions ∈ F) (go : Goes F s₀ s) : Goes F s₀ { s with sessions := l, free := s.free + n } := by
  refine (go.drawMany n hfree).plain (fun p hp => ?_) rfl rfl rfl rfl rfl rfl rfl rfl
  cases p <;> first | rfl | exact absurd hsessions hp

/-! ### New values for a few pieces that the promises do not speak of -/

theorem Goes.rstTo {F : List Piece} {s₀ s : State} {rst' : ResetCtl}
    (hrst : Piece.rst ∈ F) (go : Goes F s₀ s) :
    Goes F s₀ { s with rst := rst' } :=
  go.plain (fun p hp => by cases p <;> first | rfl | exact absurd hrst hp) rfl rfl rfl rfl rfl rfl rfl rfl

theorem Goes.sessionsTo {F : List Piece} {s₀ s : State} {sessions' : List Session}
    (hsessions : Piece.sessions ∈ F) (go : Goes F s₀ s) :
    Goes F s₀ { s with sessions := sessions' } :=
  go.plain (fun p hp => by cases p <;> first | rfl | exact absurd hsessions hp) rfl rfl rfl rfl rfl rfl rfl rfl

theorem Goes.connsTo {F : List Piece} {s₀ s : State} {conns' : Sparse Nat}
    (hconns : Piece.conns ∈ F) (go : Goes F s₀ s) :
    Goes F s₀ { s with conns := conns' } :=
  go.plain (fun p hp => by cases p <;> first | rfl | exact absurd hconns hp) rfl rfl rfl rfl rfl rfl rfl rfl

theorem Goes.secTo {F : List Piece} {s₀ s : State} {sec' : Sparse PartSec}
    (hsec : Piece.sec ∈ F) (go : Goes F s₀ s) :
    Goes F s₀ { s with sec := sec' } :=
  go.plain (fun p hp => by cases p <;> first | rfl | exact absurd hsec hp) rfl rfl rfl rfl rfl rfl rfl rfl

theorem Goes.fnsTo {F : List Piece} {s₀ s : State} {fns' : Sparse FnState}
    (hfns : Piece.fns ∈ F) (go : Goes F s₀ s) :
    Goes F s₀ { s with fns := fns' } :=
  go.plain (fun p hp => by cases p <;> first | rfl | exact absurd hfns hp) rfl rfl rfl rfl rfl rfl rfl rfl

theorem Goes.portsTo {F : List Piece} {s₀ s : State} {ports' : Sparse PortState}
    (hports : Piece.ports ∈ F) (go : Goes F s₀ s) :
    Goes F s₀ { s with ports := ports' } :=
  go.plain (fun p hp => by cases p <;> first | rfl | exact absurd hports hp) rfl rfl rfl rfl rfl rfl rfl rfl

theorem Goes.prunTo {F : List Piece} {s₀ s : State} {prun' : Sparse PartRun}
    (hprun : Piece.prun ∈ F) (go : Goes F s₀ s) :
    Goes F s₀ { s with prun := prun' } :=
  go.plain (fun p hp => by cases p <;> first | rfl | exact absurd hprun hp) rfl rfl rfl rfl rfl rfl rfl rfl

theorem Goes.refusalsTo {F : List Piece} {s₀ s : State} {refusals' : List (Nat × Refused)}
    (hrefusals : Piece.refusals ∈ F) (go : Goes F s₀ s) :
    Goes F s₀ { s with refusals := refusals' } :=
  go.plain (fun p hp => by cases p <;> first | rfl | exact absurd hrefusals hp) rfl rfl rfl rfl rfl rfl rfl rfl

theorem Goes.brimsTo {F : List Piece} {s₀ s : State} {brims' : Sparse Brim}
    (hbrims : Piece.brims ∈ F) (go : Goes F s₀ s) :
    Goes F s₀ { s with brims := brims' } :=
  go.plain (fun p hp => by cases p <;> first | rfl | exact absurd hbrims hp) rfl rfl rfl rfl rfl rfl rfl rfl

theorem Goes.framesTo {F : List Piece} {s₀ s : State} {frames' : Sparse (List Byte)}
    (hframes : Piece.frames ∈ F) (go : Goes F s₀ s) :
    Goes F s₀ { s with frames := frames' } :=
  go.plain (fun p hp => by cases p <;> first | rfl | exact absurd hframes hp) rfl rfl rfl rfl rfl rfl rfl rfl

theorem Goes.cfgTo {F : List Piece} {s₀ s : State} {cfg' : CfgPort}
    (hcfg : Piece.cfg ∈ F) (go : Goes F s₀ s) :
    Goes F s₀ { s with cfg := cfg' } :=
  go.plain (fun p hp => by cases p <;> first | rfl | exact absurd hcfg hp) rfl rfl rfl rfl rfl rfl rfl rfl

theorem Goes.tapsTo {F : List Piece} {s₀ s : State} {taps' : Sparse Tap}
    (htaps : Piece.taps ∈ F) (go : Goes F s₀ s) :
    Goes F s₀ { s with taps := taps' } :=
  go.plain (fun p hp => by cases p <;> first | rfl | exact absurd htaps hp) rfl rfl rfl rfl rfl rfl rfl rfl

theorem Goes.lanesTo {F : List Piece} {s₀ s : State} {lanes' : Sparse LaneGroup}
    (hlanes : Piece.lanes ∈ F) (go : Goes F s₀ s) :
    Goes F s₀ { s with lanes := lanes' } :=
  go.plain (fun p hp => by cases p <;> first | rfl | exact absurd hlanes hp) rfl rfl rfl rfl rfl rfl rfl rfl

theorem Goes.powerTo {F : List Piece} {s₀ s : State} {power' : Power}
    (hpower : Piece.power ∈ F) (go : Goes F s₀ s) :
    Goes F s₀ { s with power := power' } :=
  go.plain (fun p hp => by cases p <;> first | rfl | exact absurd hpower hp) rfl rfl rfl rfl rfl rfl rfl rfl

theorem Goes.waitingTo {F : List Piece} {s₀ s : State} {waiting' : List Waiting}
    (hwaiting : Piece.waiting ∈ F) (go : Goes F s₀ s) :
    Goes F s₀ { s with waiting := waiting' } :=
  go.plain (fun p hp => by cases p <;> first | rfl | exact absurd hwaiting hp) rfl rfl rfl rfl rfl rfl rfl rfl

theorem Goes.channelsTo {F : List Piece} {s₀ s : State} {channels' : Sparse (List Job)}
    (hchannels : Piece.channels ∈ F) (go : Goes F s₀ s) :
    Goes F s₀ { s with channels := channels' } :=
  go.plain (fun p hp => by cases p <;> first | rfl | exact absurd hchannels hp) rfl rfl rfl rfl rfl rfl rfl rfl

theorem Goes.respsTo {F : List Piece} {s₀ s : State} {resps' : List Resp}
    (hresps : Piece.resps ∈ F) (go : Goes F s₀ s) :
    Goes F s₀ { s with resps := resps' } :=
  go.plain (fun p hp => by cases p <;> first | rfl | exact absurd hresps hp) rfl rfl rfl rfl rfl rfl rfl rfl

theorem Goes.xactsTo {F : List Piece} {s₀ s : State} {xacts' : List Xact}
    (hxacts : Piece.xacts ∈ F) (go : Goes F s₀ s) :
    Goes F s₀ { s with xacts := xacts' } :=
  go.plain (fun p hp => by cases p <;> first | rfl | exact absurd hxacts hp) rfl rfl rfl rfl rfl rfl rfl rfl

theorem Goes.stackSidesTo {F : List Piece} {s₀ s : State} {stackSides' : Sparse StackState}
    (hstackSides : Piece.stackSides ∈ F) (go : Goes F s₀ s) :
    Goes F s₀ { s with stackSides := stackSides' } :=
  go.plain (fun p hp => by cases p <;> first | rfl | exact absurd hstackSides hp) rfl rfl rfl rfl rfl rfl rfl rfl

theorem Goes.switchesTo {F : List Piece} {s₀ s : State} {switches' : Sparse SwitchState}
    (hswitches : Piece.switches ∈ F) (go : Goes F s₀ s) :
    Goes F s₀ { s with switches := switches' } :=
  go.plain (fun p hp => by cases p <;> first | rfl | exact absurd hswitches hp) rfl rfl rfl rfl rfl rfl rfl rfl

theorem Goes.resvTo {F : List Piece} {s₀ s : State} {resv' : List Resv}
    (hresv : Piece.resv ∈ F) (go : Goes F s₀ s) :
    Goes F s₀ { s with resv := resv' } :=
  go.plain (fun p hp => by cases p <;> first | rfl | exact absurd hresv hp) rfl rfl rfl rfl rfl rfl rfl rfl

theorem Goes.resvNextTo {F : List Piece} {s₀ s : State} {resvNext' : List Resv}
    (hresvNext : Piece.resvNext ∈ F) (go : Goes F s₀ s) :
    Goes F s₀ { s with resvNext := resvNext' } :=
  go.plain (fun p hp => by cases p <;> first | rfl | exact absurd hresvNext hp) rfl rfl rfl rfl rfl rfl rfl rfl

theorem Goes.splitsTo {F : List Piece} {s₀ s : State} {splits' : Sparse Split}
    (hsplits : Piece.splits ∈ F) (go : Goes F s₀ s) :
    Goes F s₀ { s with splits := splits' } :=
  go.plain (fun p hp => by cases p <;> first | rfl | exact absurd hsplits hp) rfl rfl rfl rfl rfl rfl rfl rfl

theorem Goes.poisonTo {F : List Piece} {s₀ s : State} {poison' : List Nat}
    (hpoison : Piece.poison ∈ F) (go : Goes F s₀ s) :
    Goes F s₀ { s with poison := poison' } :=
  go.plain (fun p hp => by cases p <;> first | rfl | exact absurd hpoison hp) rfl rfl rfl rfl rfl rfl rfl rfl

theorem Goes.worksTo {F : List Piece} {s₀ s : State} {works' : List Work}
    (hworks : Piece.works ∈ F) (go : Goes F s₀ s) :
    Goes F s₀ { s with works := works' } :=
  go.plain (fun p hp => by cases p <;> first | rfl | exact absurd hworks hp) rfl rfl rfl rfl rfl rfl rfl rfl

theorem Goes.arraysTo {F : List Piece} {s₀ s : State} {arrays' : Sparse TileArray}
    (harrays : Piece.arrays ∈ F) (go : Goes F s₀ s) :
    Goes F s₀ { s with arrays := arrays' } :=
  go.plain (fun p hp => by cases p <;> first | rfl | exact absurd harrays hp) rfl rfl rfl rfl rfl rfl rfl rfl

theorem Goes.mismatchesTo {F : List Piece} {s₀ s : State} {mismatches' : Sparse (List Nat)}
    (hmismatches : Piece.mismatches ∈ F) (go : Goes F s₀ s) :
    Goes F s₀ { s with mismatches := mismatches' } :=
  go.plain (fun p hp => by cases p <;> first | rfl | exact absurd hmismatches hp) rfl rfl rfl rfl rfl rfl rfl rfl

theorem Goes.testsTo {F : List Piece} {s₀ s : State} {tests' : List (Nat × Bool)}
    (htests : Piece.tests ∈ F) (go : Goes F s₀ s) :
    Goes F s₀ { s with tests := tests' } :=
  go.plain (fun p hp => by cases p <;> first | rfl | exact absurd htests hp) rfl rfl rfl rfl rfl rfl rfl rfl

theorem Goes.pairTxTo {F : List Piece} {s₀ s : State} {pairTx' : List (Nat × Nat × List Byte)}
    (hpairTx : Piece.pairTx ∈ F) (go : Goes F s₀ s) :
    Goes F s₀ { s with pairTx := pairTx' } :=
  go.plain (fun p hp => by cases p <;> first | rfl | exact absurd hpairTx hp) rfl rfl rfl rfl rfl rfl rfl rfl

theorem Goes.scrubTo {F : List Piece} {s₀ s : State} {scrub' : Sparse Nat}
    (hscrub : Piece.scrub ∈ F) (go : Goes F s₀ s) :
    Goes F s₀ { s with scrub := scrub' } :=
  go.plain (fun p hp => by cases p <;> first | rfl | exact absurd hscrub hp) rfl rfl rfl rfl rfl rfl rfl rfl

theorem Goes.sec_prunTo {F : List Piece} {s₀ s : State} {sec' : Sparse PartSec} {prun' : Sparse PartRun}
    (hsec : Piece.sec ∈ F) (hprun : Piece.prun ∈ F) (go : Goes F s₀ s) :
    Goes F s₀ { s with sec := sec', prun := prun' } :=
  go.plain (fun p hp => by cases p <;> first | rfl | exact absurd hsec hp | exact absurd hprun hp) rfl rfl rfl rfl rfl rfl rfl rfl

theorem Goes.sec_resvNextTo {F : List Piece} {s₀ s : State} {sec' : Sparse PartSec} {resvNext' : List Resv}
    (hsec : Piece.sec ∈ F) (hresvNext : Piece.resvNext ∈ F) (go : Goes F s₀ s) :
    Goes F s₀ { s with sec := sec', resvNext := resvNext' } :=
  go.plain (fun p hp => by cases p <;> first | rfl | exact absurd hsec hp | exact absurd hresvNext hp) rfl rfl rfl rfl rfl rfl rfl rfl

theorem Goes.waiting_xactsTo {F : List Piece} {s₀ s : State} {waiting' : List Waiting} {xacts' : List Xact}
    (hwaiting : Piece.waiting ∈ F) (hxacts : Piece.xacts ∈ F) (go : Goes F s₀ s) :
    Goes F s₀ { s with waiting := waiting', xacts := xacts' } :=
  go.plain (fun p hp => by cases p <;> first | rfl | exact absurd hwaiting hp | exact absurd hxacts hp) rfl rfl rfl rfl rfl rfl rfl rfl

theorem Goes.resps_nextRespTo {F : List Piece} {s₀ s : State} {resps' : List Resp} {nextResp' : Nat}
    (hresps : Piece.resps ∈ F) (hnextResp : Piece.nextResp ∈ F) (go : Goes F s₀ s) :
    Goes F s₀ { s with resps := resps', nextResp := nextResp' } :=
  go.plain (fun p hp => by cases p <;> first | rfl | exact absurd hresps hp | exact absurd hnextResp hp) rfl rfl rfl rfl rfl rfl rfl rfl

theorem Goes.xacts_pairTxTo {F : List Piece} {s₀ s : State} {xacts' : List Xact} {pairTx' : List (Nat × Nat × List Byte)}
    (hxacts : Piece.xacts ∈ F) (hpairTx : Piece.pairTx ∈ F) (go : Goes F s₀ s) :
    Goes F s₀ { s with xacts := xacts', pairTx := pairTx' } :=
  go.plain (fun p hp => by cases p <;> first | rfl | exact absurd hxacts hp | exact absurd hpairTx hp) rfl rfl rfl rfl rfl rfl rfl rfl

theorem Goes.works_arraysTo {F : List Piece} {s₀ s : State} {works' : List Work} {arrays' : Sparse TileArray}
    (hworks : Piece.works ∈ F) (harrays : Piece.arrays ∈ F) (go : Goes F s₀ s) :
    Goes F s₀ { s with works := works', arrays := arrays' } :=
  go.plain (fun p hp => by cases p <;> first | rfl | exact absurd hworks hp | exact absurd harrays hp) rfl rfl rfl rfl rfl rfl rfl rfl

theorem Goes.waiting_resps_xactsTo {F : List Piece} {s₀ s : State} {waiting' : List Waiting} {resps' : List Resp} {xacts' : List Xact}
    (hwaiting : Piece.waiting ∈ F) (hresps : Piece.resps ∈ F) (hxacts : Piece.xacts ∈ F) (go : Goes F s₀ s) :
    Goes F s₀ { s with waiting := waiting', resps := resps', xacts := xacts' } :=
  go.plain (fun p hp => by cases p <;> first | rfl | exact absurd hwaiting hp | exact absurd hresps hp | exact absurd hxacts hp) rfl rfl rfl rfl rfl rfl rfl rfl

theorem Goes.waiting_xacts_retiredTo {F : List Piece} {s₀ s : State} {waiting' : List Waiting} {xacts' : List Xact} {retired' : List Retired}
    (hwaiting : Piece.waiting ∈ F) (hxacts : Piece.xacts ∈ F) (hretired : Piece.retired ∈ F) (go : Goes F s₀ s) :
    Goes F s₀ { s with waiting := waiting', xacts := xacts', retired := retired' } :=
  go.plain (fun p hp => by cases p <;> first | rfl | exact absurd hwaiting hp | exact absurd hxacts hp | exact absurd hretired hp) rfl rfl rfl rfl rfl rfl rfl rfl

theorem Goes.works_arrays_testsTo {F : List Piece} {s₀ s : State} {works' : List Work} {arrays' : Sparse TileArray} {tests' : List (Nat × Bool)}
    (hworks : Piece.works ∈ F) (harrays : Piece.arrays ∈ F) (htests : Piece.tests ∈ F) (go : Goes F s₀ s) :
    Goes F s₀ { s with works := works', arrays := arrays', tests := tests' } :=
  go.plain (fun p hp => by cases p <;> first | rfl | exact absurd hworks hp | exact absurd harrays hp | exact absurd htests hp) rfl rfl rfl rfl rfl rfl rfl rfl

theorem Goes.waiting_channels_resps_xacts_pairTxTo {F : List Piece} {s₀ s : State} {waiting' : List Waiting} {channels' : Sparse (List Job)} {resps' : List Resp} {xacts' : List Xact} {pairTx' : List (Nat × Nat × List Byte)}
    (hwaiting : Piece.waiting ∈ F) (hchannels : Piece.channels ∈ F) (hresps : Piece.resps ∈ F) (hxacts : Piece.xacts ∈ F) (hpairTx : Piece.pairTx ∈ F) (go : Goes F s₀ s) :
    Goes F s₀ { s with waiting := waiting', channels := channels', resps := resps', xacts := xacts', pairTx := pairTx' } :=
  go.plain (fun p hp => by cases p <;> first | rfl | exact absurd hwaiting hp | exact absurd hchannels hp | exact absurd hresps hp | exact absurd hxacts hp | exact absurd hpairTx hp) rfl rfl rfl rfl rfl rfl rfl rfl

theorem Goes.resps_xactsTo {F : List Piece} {s₀ s : State} {resps' : List Resp} {xacts' : List Xact}
    (hresps : Piece.resps ∈ F) (hxacts : Piece.xacts ∈ F) (go : Goes F s₀ s) :
    Goes F s₀ { s with resps := resps', xacts := xacts' } :=
  go.plain (fun p hp => by cases p <;> first | rfl | exact absurd hresps hp | exact absurd hxacts hp) rfl rfl rfl rfl rfl rfl rfl rfl

theorem Goes.waiting_respsTo {F : List Piece} {s₀ s : State} {waiting' : List Waiting} {resps' : List Resp}
    (hwaiting : Piece.waiting ∈ F) (hresps : Piece.resps ∈ F) (go : Goes F s₀ s) :
    Goes F s₀ { s with waiting := waiting', resps := resps' } :=
  go.plain (fun p hp => by cases p <;> first | rfl | exact absurd hwaiting hp | exact absurd hresps hp) rfl rfl rfl rfl rfl rfl rfl rfl

theorem Goes.enginesTo {F : List Piece} {s₀ s : State} {engines' : Sparse Nat}
    (hengines : Piece.engines ∈ F) (go : Goes F s₀ s) :
    Goes F s₀ { s with engines := engines' } :=
  go.plain (fun p hp => by cases p <;> first | rfl | exact absurd hengines hp) rfl rfl rfl rfl rfl rfl rfl rfl

end Sys2Proof.Machine
end

