-- ==== Sys2Proof/Laws/Base.lean ====
section
/-! SUPPORT. What the operations of Machine/Base.lean may change, and that each keeps what the model keeps throughout. -/

namespace Sys2Proof.Machine

theorem Goes.setFn {F : List Piece} {s₀ s : State} (f : Fn) (x : FnState) (hfns : Piece.fns ∈ F)
    (go : Goes F s₀ s) : Goes F s₀ (State.setFn s f x) := by
  unfold State.setFn
  repeat' first
    | with_reducible assumption
    | (intro)
    | with_reducible apply Goes.fnsTo

theorem Goes.modFn {F : List Piece} {s₀ s : State} (f : Fn) (g : FnState → FnState) (hfns : Piece.fns ∈ F)
    (go : Goes F s₀ s) : Goes F s₀ (State.modFn s f g) := by
  unfold State.modFn
  repeat' first | with_reducible assumption | with_reducible apply Goes.setFn

theorem Goes.setPort {F : List Piece} {s₀ s : State} (n : Nat) (x : PortState) (hports : Piece.ports ∈ F)
    (go : Goes F s₀ s) : Goes F s₀ (State.setPort s n x) := by
  unfold State.setPort
  repeat' first
    | with_reducible assumption
    | (intro)
    | with_reducible apply Goes.portsTo

theorem Goes.modSec {F : List Piece} {s₀ s : State} (p : Nat) (g : PartSec → PartSec) (hsec : Piece.sec ∈ F)
    (go : Goes F s₀ s) : Goes F s₀ (State.modSec s p g) := by
  unfold State.modSec
  repeat' first
    | with_reducible assumption
    | (intro)
    | with_reducible apply Goes.secTo

theorem Goes.msix {F : List Piece} {s₀ s : State} (f : Fn) (v : Nat) (hfns : Piece.fns ∈ F) (hout : Piece.out ∈ F)
    (go : Goes F s₀ s) : Goes F s₀ (State.msix s f v) := by
  unfold State.msix
  repeat' first
    | with_reducible assumption
    | (intro)
    | with_reducible apply Goes.emit
    | with_reducible apply Goes.modFn
    | with_reducible apply Goes.ite

theorem Goes.msixAll {F : List Piece} {s₀ s : State} (v : Nat) (hfns : Piece.fns ∈ F) (hout : Piece.out ∈ F)
    (go : Goes F s₀ s) : Goes F s₀ (State.msixAll s v) := by
  unfold State.msixAll
  repeat' first | with_reducible assumption | with_reducible apply Goes.msix

/-- The log keeps its newest records (R408). -/
theorem drop_fits {α : Type} (n : Nat) (l : List α) : (l.drop (l.length - n)).length ≤ n := by
  rw [List.length_drop]; omega

theorem Goes.raise {F : List Piece} {s₀ s : State} (code : Nat) (subject : Option Nat) (hdict : Piece.dict ∈ F)
    (hfns : Piece.fns ∈ F) (hfree : Piece.free ∈ F) (hmill : Piece.mill ∈ F) (hout : Piece.out ∈ F) (h : Goes F s₀ s) :
    Goes F s₀ (s.raise code subject) := by
  have h1 (l : List Event) : Goes F s₀ { s with free := s.free + 3, mill := { s.mill with events := l.drop (l.length - 24576) } } := by
    refine Goes.millTo (s := { s with free := s.free + 3 }) _ hmill (fun _ => ?_) id (h.drawMany 3 hfree)
    dsimp only
    exact drop_fits 24576 l
  have h2 := fun l v => Goes.msixAll 0 hfns hout ((h1 l).setReg (key 0x1080 1) v hdict)
  unfold State.raise
  dsimp only
  split
  · exact h2 _ _
  · exact Goes.emit _ hout (h2 _ _)

end Sys2Proof.Machine
end

