-- ==== Sys2Proof/Laws/RunOps.lean ====
section
/-! SUPPORT. What the operations of Machine/RunOps.lean may change, and that each keeps what the model keeps throughout. -/

namespace Sys2Proof.Machine

theorem Goes.modPr {F : List Piece} {s₀ s : State} (p : Nat) (g : PartRun → PartRun) (hprun : Piece.prun ∈ F)
    (go : Goes F s₀ s) : Goes F s₀ (State.modPr s p g) := by
  unfold State.modPr
  repeat' first
    | with_reducible assumption
    | (intro)
    | with_reducible apply Goes.prunTo

theorem Goes.modRun {F : List Piece} {s₀ s : State} (p id : Nat) (g : Run → Run) (hprun : Piece.prun ∈ F)
    (go : Goes F s₀ s) : Goes F s₀ (State.modRun s p id g) := by
  unfold State.modRun
  repeat' first
    | with_reducible assumption
    | exact fun _ g => g
    | (intro)
    | with_reducible apply Goes.modPr

theorem Goes.modCmd {F : List Piece} {s₀ s : State} (p id i : Nat) (g : Cmd → Cmd) (hprun : Piece.prun ∈ F)
    (go : Goes F s₀ s) : Goes F s₀ (State.modCmd s p id i g) := by
  unfold State.modCmd
  repeat' first
    | with_reducible assumption
    | exact fun _ g => g
    | (intro)
    | with_reducible apply Goes.modRun

theorem Goes.modRef {F : List Piece} {s₀ s : State} (c : CmdRef) (g : Cmd → Cmd) (hprun : Piece.prun ∈ F)
    (go : Goes F s₀ s) : Goes F s₀ (State.modRef s c g) := by
  unfold State.modRef
  repeat' first | with_reducible assumption | with_reducible apply Goes.modCmd

theorem Goes.recordDone {F : List Piece} {s₀ s : State} (p : Nat) (t : RecTag) (hprun : Piece.prun ∈ F)
    (go : Goes F s₀ s) : Goes F s₀ (State.recordDone s p t) := by
  unfold State.recordDone
  repeat' first
    | with_reducible assumption
    | (intro)
    | with_reducible apply Goes.modCmd
    | with_reducible apply Goes.modPr
    | split

theorem Goes.placeRecord {F : List Piece} {s₀ s : State} (p : Nat) (f : Fn) (r : Rec) (hfns : Piece.fns ∈ F) (hfree : Piece.free ∈ F) (hhostMem : Piece.hostMem ∈ F) (hout : Piece.out ∈ F) (hprun : Piece.prun ∈ F)
    (go : Goes F s₀ s) : Goes F s₀ (State.placeRecord s p f r) := by
  unfold State.placeRecord
  dsimp only
  repeat' first
    | with_reducible assumption
    | with_reducible apply Goes.draw
    | with_reducible apply Goes.hostWrite
    | with_reducible apply Goes.msix
    | with_reducible apply Goes.recordDone
    | with_reducible apply Goes.setFn
    | with_reducible apply Goes.ite

theorem Goes.writeRecord {F : List Piece} {s₀ s : State} (p : Nat) (r : Rec) (hfns : Piece.fns ∈ F) (hfree : Piece.free ∈ F) (hhostMem : Piece.hostMem ∈ F) (hout : Piece.out ∈ F) (hprun : Piece.prun ∈ F)
    (go : Goes F s₀ s) : Goes F s₀ (State.writeRecord s p r) := by
  unfold State.writeRecord
  dsimp only
  repeat' first
    | with_reducible assumption
    | with_reducible apply Goes.placeRecord
    | with_reducible apply Goes.recordDone
    | with_reducible apply Goes.setFn
    | with_reducible apply Goes.ite

theorem Goes.drainHeld {F : List Piece} {s₀ s : State} (p : Nat) (f : Fn) (n : Nat) (hfns : Piece.fns ∈ F) (hfree : Piece.free ∈ F) (hhostMem : Piece.hostMem ∈ F) (hout : Piece.out ∈ F) (hprun : Piece.prun ∈ F)
    (h : Goes F s₀ s) :
    Goes F s₀ (State.drainHeld p f n s) := by
  induction n generalizing s with
  | zero => exact h
  | succ n ih =>
    unfold State.drainHeld
    dsimp only
    split
    · exact h
    · split
      · exact h
      · refine ih ?_
        repeat' first
          | with_reducible assumption
          | with_reducible apply Goes.ite
          | with_reducible apply Goes.placeRecord
          | with_reducible apply Goes.setFn

theorem Goes.writeLate {F : List Piece} {s₀ s : State} (p : Nat) (bytes : List Byte) (hdict : Piece.dict ∈ F) (hfns : Piece.fns ∈ F) (hfree : Piece.free ∈ F) (hhostMem : Piece.hostMem ∈ F) (hout : Piece.out ∈ F)
    (go : Goes F s₀ s) : Goes F s₀ (State.writeLate s p bytes) := by
  unfold State.writeLate
  dsimp only
  repeat' first
    | with_reducible assumption
    | with_reducible apply Goes.draw
    | with_reducible apply Goes.bump
    | with_reducible apply Goes.hostWrite
    | with_reducible apply Goes.msix
    | with_reducible apply Goes.setFn
    | with_reducible apply Goes.ite

end Sys2Proof.Machine
end

