-- ==== Sys2Proof/Laws/Hbm.lean ====
section
/-! SUPPORT. What the operations of Machine/Hbm.lean may change, and that each keeps what the model keeps throughout. -/

namespace Sys2Proof.Machine

theorem Goes.modStack {F : List Piece} {s₀ s : State} (m : Nat) (g : StackState → StackState) (hstackSides : Piece.stackSides ∈ F)
    (go : Goes F s₀ s) : Goes F s₀ (State.modStack s m g) := by
  unfold State.modStack
  repeat' first
    | with_reducible assumption
    | (intro)
    | with_reducible apply Goes.stackSidesTo

theorem Goes.putBytes {F : List Piece} {s₀ s : State} (k : Nat) (bs : List Byte) (hhbm : Piece.hbm ∈ F)
    (h : Goes F s₀ s) : Goes F s₀ (State.putBytes s k bs) :=
  h.hbmTo _ hhbm (swf_foldl_sput hbmZero _ (fun e : Nat × Byte => k + e.1) (fun e => e.2) s.hbm)

theorem Goes.setPoison {F : List Piece} {s₀ s : State} (k : Nat) (hpoison : Piece.poison ∈ F)
    (go : Goes F s₀ s) : Goes F s₀ (State.setPoison s k) := by
  unfold State.setPoison
  repeat' first | with_reducible assumption | with_reducible apply Goes.poisonTo

theorem Goes.clearPoison {F : List Piece} {s₀ s : State} (k : Nat) (hpoison : Piece.poison ∈ F)
    (go : Goes F s₀ s) : Goes F s₀ (State.clearPoison s k) := by
  unfold State.clearPoison
  repeat' first | with_reducible assumption | with_reducible apply Goes.poisonTo

theorem Goes.bumpOwner {F : List Piece} {s₀ s : State} (own : Option Nat) (sub n : Nat) (hdict : Piece.dict ∈ F)
    (go : Goes F s₀ s) : Goes F s₀ (State.bumpOwner s own sub n) := by
  unfold State.bumpOwner
  repeat' first
    | with_reducible assumption
    | with_reducible apply Goes.bump
    | split

theorem Goes.retire {F : List Piece} {s₀ s : State} (m r : Nat) (hdict : Piece.dict ∈ F) (hfns : Piece.fns ∈ F) (hfree : Piece.free ∈ F) (hmill : Piece.mill ∈ F) (hout : Piece.out ∈ F) (hstackSides : Piece.stackSides ∈ F)
    (go : Goes F s₀ s) : Goes F s₀ (State.retire s m r) := by
  unfold State.retire
  dsimp only
  repeat' first
    | with_reducible assumption
    | (intro)
    | with_reducible apply Goes.modStack
    | with_reducible apply Goes.raise
    | with_reducible apply Goes.setReg
    | with_reducible apply Goes.ite

theorem Goes.ceFound {F : List Piece} {s₀ s : State} (own : Option Nat) (m r : Nat) (hdict : Piece.dict ∈ F) (hfns : Piece.fns ∈ F) (hfree : Piece.free ∈ F) (hmill : Piece.mill ∈ F) (hout : Piece.out ∈ F) (hstackSides : Piece.stackSides ∈ F)
    (go : Goes F s₀ s) : Goes F s₀ (State.ceFound s own m r) := by
  unfold State.ceFound
  dsimp only
  repeat' first
    | with_reducible assumption
    | (intro)
    | with_reducible apply Goes.bump
    | with_reducible apply Goes.bumpOwner
    | with_reducible apply Goes.modStack
    | with_reducible apply Goes.retire
    | with_reducible apply Goes.ite

theorem Goes.ueFound {F : List Piece} {s₀ s : State} (m r off : Nat) (hdict : Piece.dict ∈ F) (hpoison : Piece.poison ∈ F)
    (go : Goes F s₀ s) : Goes F s₀ (State.ueFound s m r off) := by
  unfold State.ueFound
  dsimp only
  repeat' first
    | with_reducible assumption
    | with_reducible apply Goes.bump
    | with_reducible apply Goes.setPoison
    | with_reducible apply Goes.setReg

theorem Goes.stray {F : List Piece} {s₀ s : State} (k : Nat) (e : WordErr) (hhbm : Piece.hbm ∈ F)
    (go : Goes F s₀ s) : Goes F s₀ (State.stray s k e) := by
  unfold State.stray
  try dsimp only
  repeat' first
    | with_reducible assumption
    | (intro)
    | with_reducible apply Goes.putBytes
    | with_reducible apply Goes.ite
    | split
    | dsimp only

theorem Goes.readWord {F : List Piece} {s₀ s : State} (own : Option Nat) (m r off : Nat) (err : WordErr) (hdict : Piece.dict ∈ F) (hfns : Piece.fns ∈ F) (hfree : Piece.free ∈ F) (hhbm : Piece.hbm ∈ F) (hmill : Piece.mill ∈ F) (hout : Piece.out ∈ F) (hpoison : Piece.poison ∈ F) (hstackSides : Piece.stackSides ∈ F)
    (go : Goes F s₀ s) : Goes F s₀ (State.readWord s own m r off err).1 := by
  unfold State.readWord
  try dsimp only
  repeat' first
    | with_reducible assumption
    | (intro)
    | with_reducible apply Goes.ceFound
    | with_reducible apply Goes.draw
    | with_reducible apply Goes.retire
    | with_reducible apply Goes.stray
    | with_reducible apply Goes.ueFound
    | split
    | dsimp only

theorem Goes.writeWord {F : List Piece} {s₀ s : State} (p m r off first : Nat) (new : List Byte) (err : WordErr) (hdict : Piece.dict ∈ F) (hfns : Piece.fns ∈ F) (hfree : Piece.free ∈ F) (hhbm : Piece.hbm ∈ F) (hmill : Piece.mill ∈ F) (hout : Piece.out ∈ F) (hpoison : Piece.poison ∈ F) (hstackSides : Piece.stackSides ∈ F)
    (go : Goes F s₀ s) : Goes F s₀ (State.writeWord s p m r off first new err) := by
  unfold State.writeWord
  try dsimp only
  repeat' first
    | with_reducible assumption
    | (intro)
    | with_reducible apply Goes.bump
    | with_reducible apply Goes.ceFound
    | with_reducible apply Goes.clearPoison
    | with_reducible apply Goes.draw
    | with_reducible apply Goes.putBytes
    | with_reducible apply Goes.raise
    | with_reducible apply Goes.retire
    | with_reducible apply Goes.stray
    | with_reducible apply Goes.ueFound
    | with_reducible apply Goes.ite
    | split
    | dsimp only

theorem Goes.holdBank {F : List Piece} {s₀ s : State} (m k ns : Nat) (hdict : Piece.dict ∈ F) (hstackSides : Piece.stackSides ∈ F)
    (go : Goes F s₀ s) : Goes F s₀ (State.holdBank s m k ns) := by
  unfold State.holdBank
  try dsimp only
  repeat' first
    | with_reducible assumption
    | (intro)
    | with_reducible apply Goes.bump
    | with_reducible apply Goes.modStack
    | dsimp only

theorem Goes.neighbour {F : List Piece} {s₀ s : State} (m r off : Nat) (hdict : Piece.dict ∈ F) (hfree : Piece.free ∈ F) (hstackSides : Piece.stackSides ∈ F)
    (go : Goes F s₀ s) : Goes F s₀ (State.neighbour s m r off) := by
  unfold State.neighbour
  try dsimp only
  repeat' first
    | with_reducible assumption
    | (intro)
    | with_reducible apply Goes.bump
    | with_reducible apply Goes.draw
    | with_reducible apply Goes.holdBank
    | with_reducible apply Goes.modStack
    | with_reducible apply Goes.ite
    | split
    | dsimp only

theorem Goes.setJobs {F : List Piece} {s₀ s : State} (m ch : Nat) (l : List Job) (hchannels : Piece.channels ∈ F)
    (go : Goes F s₀ s) : Goes F s₀ (State.setJobs s m ch l) := by
  unfold State.setJobs
  repeat' first
    | with_reducible assumption
    | (intro)
    | with_reducible apply Goes.channelsTo

theorem Goes.modResp {F : List Piece} {s₀ s : State} (id : Nat) (g : Resp → Resp) (hresps : Piece.resps ∈ F)
    (go : Goes F s₀ s) : Goes F s₀ (State.modResp s id g) := by
  unfold State.modResp
  repeat' first
    | with_reducible assumption
    | exact fun _ g => g
    | (intro)
    | with_reducible apply Goes.respsTo

theorem Goes.serveWord {F : List Piece} {s₀ s : State} (j : Job) (w : WordAcc) (err : WordErr) (hdict : Piece.dict ∈ F) (hfns : Piece.fns ∈ F) (hfree : Piece.free ∈ F) (hhbm : Piece.hbm ∈ F) (hmill : Piece.mill ∈ F) (hout : Piece.out ∈ F) (hpoison : Piece.poison ∈ F) (hresps : Piece.resps ∈ F) (hstackSides : Piece.stackSides ∈ F)
    (go : Goes F s₀ s) : Goes F s₀ (State.serveWord s j w err) := by
  unfold State.serveWord
  try dsimp only
  repeat' first
    | with_reducible assumption
    | (intro)
    | with_reducible apply Goes.bump
    | with_reducible apply Goes.modResp
    | with_reducible apply Goes.neighbour
    | with_reducible apply Goes.readWord
    | with_reducible apply Goes.setReg
    | with_reducible apply Goes.writeWord
    | with_reducible apply Goes.ite
    | split
    | dsimp only

theorem Goes.popWord {F : List Piece} {s₀ s : State} (m ch : Nat) (hchannels : Piece.channels ∈ F)
    (go : Goes F s₀ s) : Goes F s₀ (State.popWord s m ch) := by
  unfold State.popWord
  repeat' first
    | with_reducible assumption
    | with_reducible apply Goes.setJobs
    | with_reducible apply Goes.ite
    | split

theorem execHbmAccess_goes {F : List Piece} (stack : StackN) (ch : Fin 32) (err : WordErr) (s : State) (hchannels : Piece.channels ∈ F) (hdict : Piece.dict ∈ F) (hfns : Piece.fns ∈ F) (hfree : Piece.free ∈ F) (hhbm : Piece.hbm ∈ F) (hmill : Piece.mill ∈ F) (hout : Piece.out ∈ F) (hpoison : Piece.poison ∈ F) (hresps : Piece.resps ∈ F) (hstackSides : Piece.stackSides ∈ F) :
    ∃ t, execHbmAccess stack ch err s = .next t ∧ Goes F s t := by
  have go := Goes.refl F s
  unfold execHbmAccess
  refine ⟨_, rfl, ?_⟩
  try dsimp only
  repeat' first
    | with_reducible assumption
    | (intro)
    | with_reducible apply Goes.popWord
    | with_reducible apply Goes.serveWord
    | with_reducible apply Goes.ite
    | split
    | dsimp only

theorem execOrdinaryRefresh_goes {F : List Piece} (stack : StackN) (rank : Fin 128) (pseudo : Fin 2) (bank : Fin 16) (s : State) (hdict : Piece.dict ∈ F) (hstackSides : Piece.stackSides ∈ F) :
    ∃ t, execOrdinaryRefresh stack rank pseudo bank s = .next t ∧ Goes F s t := by
  have go := Goes.refl F s
  unfold execOrdinaryRefresh
  refine ⟨_, rfl, ?_⟩
  try dsimp only
  repeat' first
    | with_reducible assumption
    | (intro)
    | with_reducible apply Goes.holdBank
    | dsimp only

theorem execStackTempRead_goes {F : List Piece} (stack : StackN) (celsius : BitVec 8) (s : State) (hstackSides : Piece.stackSides ∈ F) :
    ∃ t, execStackTempRead stack celsius s = .next t ∧ Goes F s t := by
  have go := Goes.refl F s
  unfold execStackTempRead
  try dsimp only
  repeat' first
    | refine ⟨_, rfl, ?_⟩
    | with_reducible assumption
    | with_reducible apply Goes.ite
    | (intro)
    | with_reducible apply Goes.modStack

theorem execPatrolAccess_goes {F : List Piece} (stack : StackN) (err : WordErr) (s : State) (hdict : Piece.dict ∈ F) (hfns : Piece.fns ∈ F) (hfree : Piece.free ∈ F) (hhbm : Piece.hbm ∈ F) (hmill : Piece.mill ∈ F) (hout : Piece.out ∈ F) (hpoison : Piece.poison ∈ F) (hstackSides : Piece.stackSides ∈ F) :
    ∃ t, execPatrolAccess stack err s = .next t ∧ Goes F s t := by
  have go := Goes.refl F s
  unfold execPatrolAccess
  refine ⟨_, rfl, ?_⟩
  try dsimp only
  repeat' first
    | with_reducible assumption
    | (intro)
    | with_reducible apply Goes.bump
    | with_reducible apply Goes.modStack
    | with_reducible apply Goes.readWord
    | with_reducible apply Goes.ite
    | split
    | dsimp only

theorem Goes.commandFailed {F : List Piece} {s₀ s : State} (m x : Nat) (hdict : Piece.dict ∈ F) (hfns : Piece.fns ∈ F) (hfree : Piece.free ∈ F) (hmill : Piece.mill ∈ F) (hout : Piece.out ∈ F) (hstackSides : Piece.stackSides ∈ F)
    (go : Goes F s₀ s) : Goes F s₀ (State.commandFailed s m x) := by
  unfold State.commandFailed
  repeat' first
    | with_reducible assumption
    | (intro)
    | with_reducible apply Goes.modStack
    | with_reducible apply Goes.raise
    | with_reducible apply Goes.retire
    | with_reducible apply Goes.ite

theorem execCmdParityError_goes {F : List Piece} (stack : StackN) (ch : Fin 32) (retryFails : Bool) (s : State) (hchannels : Piece.channels ∈ F) (hdict : Piece.dict ∈ F) (hfns : Piece.fns ∈ F) (hfree : Piece.free ∈ F) (hmill : Piece.mill ∈ F) (hout : Piece.out ∈ F) (hresps : Piece.resps ∈ F) (hstackSides : Piece.stackSides ∈ F) :
    ∃ t, execCmdParityError stack ch retryFails s = .next t ∧ Goes F s t := by
  have go := Goes.refl F s
  unfold execCmdParityError
  try dsimp only
  repeat' first
    | refine ⟨_, rfl, ?_⟩
    | with_reducible assumption
    | (intro)
    | with_reducible apply Goes.bump
    | with_reducible apply Goes.commandFailed
    | with_reducible apply Goes.modResp
    | with_reducible apply Goes.popWord
    | with_reducible apply Goes.ite
    | split

theorem Goes.takeDue {F : List Piece} {s₀ s : State} (m : Nat) (first : List Nat) (hdict : Piece.dict ∈ F) (hfns : Piece.fns ∈ F) (hfree : Piece.free ∈ F) (hmill : Piece.mill ∈ F) (hout : Piece.out ∈ F) (hstackSides : Piece.stackSides ∈ F)
    (go : Goes F s₀ s) : Goes F s₀ (State.takeDue s m first) := by
  unfold State.takeDue
  try dsimp only
  repeat' first
    | with_reducible assumption
    | (intro)
    | with_reducible apply Goes.modStack
    | with_reducible apply Goes.retire
    | with_reducible apply Goes.foldl
    | dsimp only

theorem Goes.commitMig {F : List Piece} {s₀ s : State} (m : Nat) (hdict : Piece.dict ∈ F) (hfns : Piece.fns ∈ F) (hfree : Piece.free ∈ F) (hmill : Piece.mill ∈ F) (hout : Piece.out ∈ F) (hstackSides : Piece.stackSides ∈ F)
    (go : Goes F s₀ s) : Goes F s₀ (State.commitMig s m) := by
  unfold State.commitMig
  dsimp only
  repeat' first
    | with_reducible assumption
    | (intro)
    | with_reducible apply Goes.bump
    | with_reducible apply Goes.modStack
    | with_reducible apply Goes.takeDue
    | with_reducible apply Goes.retire
    | with_reducible apply Goes.setReg
    | split

theorem Goes.copyWord {F : List Piece} {s₀ s : State} (m r spare off : Nat) (err : WordErr) (hdict : Piece.dict ∈ F) (hfns : Piece.fns ∈ F) (hfree : Piece.free ∈ F) (hhbm : Piece.hbm ∈ F) (hmill : Piece.mill ∈ F) (hout : Piece.out ∈ F) (hpoison : Piece.poison ∈ F) (hstackSides : Piece.stackSides ∈ F)
    (go : Goes F s₀ s) : Goes F s₀ (State.copyWord s m r spare off err) := by
  unfold State.copyWord
  try dsimp only
  repeat' first
    | with_reducible assumption
    | (intro)
    | with_reducible apply Goes.ceFound
    | with_reducible apply Goes.clearPoison
    | with_reducible apply Goes.draw
    | with_reducible apply Goes.putBytes
    | with_reducible apply Goes.setPoison
    | with_reducible apply Goes.stray
    | with_reducible apply Goes.ueFound
    | split
    | dsimp only

theorem Goes.spareFailed {F : List Piece} {s₀ s : State} (m : Nat) (hdict : Piece.dict ∈ F) (hfns : Piece.fns ∈ F) (hfree : Piece.free ∈ F) (hmill : Piece.mill ∈ F) (hout : Piece.out ∈ F) (hstackSides : Piece.stackSides ∈ F)
    (go : Goes F s₀ s) : Goes F s₀ (State.spareFailed s m) := by
  unfold State.spareFailed
  dsimp only
  repeat' first
    | with_reducible assumption
    | with_reducible apply Goes.takeDue
    | with_reducible apply Goes.retire
    | with_reducible apply Goes.setReg

theorem execRankMigrationBlock_goes {F : List Piece} (stack : StackN) (bad : List (Fin 64 × WordErr)) (spareFails : Bool) (s : State) (hdict : Piece.dict ∈ F) (hfns : Piece.fns ∈ F) (hfree : Piece.free ∈ F) (hhbm : Piece.hbm ∈ F) (hmill : Piece.mill ∈ F) (hout : Piece.out ∈ F) (hpoison : Piece.poison ∈ F) (hstackSides : Piece.stackSides ∈ F) :
    ∃ t, execRankMigrationBlock stack bad spareFails s = .next t ∧ Goes F s t := by
  have go := Goes.refl F s
  unfold execRankMigrationBlock
  refine ⟨_, rfl, ?_⟩
  try dsimp only
  repeat' first
    | with_reducible assumption
    | (intro)
    | with_reducible apply Goes.commitMig
    | with_reducible apply Goes.copyWord
    | with_reducible apply Goes.setReg
    | with_reducible apply Goes.spareFailed
    | with_reducible apply Goes.ite
    | with_reducible apply Goes.foldl
    | split
    | dsimp only

theorem execRemapFlashCommit_goes {F : List Piece} (stack : StackN) (s : State) (hmill : Piece.mill ∈ F) (hstackSides : Piece.stackSides ∈ F) :
    ∃ t, execRemapFlashCommit stack s = .next t ∧ Goes F s t := by
  have go := Goes.refl F s
  unfold execRemapFlashCommit
  try dsimp only
  repeat' first
    | refine ⟨_, rfl, ?_⟩
    | with_reducible assumption
    | exact id
    | (intro)
    | with_reducible apply Goes.modStack
    | split
    | with_reducible apply Goes.millTo

theorem Goes.zeroRanks {F : List Piece} {s₀ s : State} (p : Nat) (hhbm : Piece.hbm ∈ F) (hpoison : Piece.poison ∈ F)
    (h : Goes F s₀ s) : Goes F s₀ (State.zeroRanks s p) := by
  have h1 (m : Nat → Bool) : Goes F s₀ { s with hbm := sclear m s.hbm } := h.hbmTo _ hhbm (swf_sclear _ _ _)
  unfold State.zeroRanks
  dsimp only
  refine Goes.trans (h1 _) (Goes.plain (Goes.refl _ _) (fun p hp => ?_) rfl rfl rfl rfl rfl rfl rfl rfl)
  cases p <;> first | rfl | exact absurd hpoison hp

theorem Goes.stopRankMigs {F : List Piece} {s₀ s : State} (p : Nat) (hdict : Piece.dict ∈ F) (hfns : Piece.fns ∈ F) (hfree : Piece.free ∈ F) (hmill : Piece.mill ∈ F) (hout : Piece.out ∈ F) (hstackSides : Piece.stackSides ∈ F)
    (go : Goes F s₀ s) : Goes F s₀ (State.stopRankMigs s p) := by
  unfold State.stopRankMigs
  dsimp only
  repeat' first
    | with_reducible assumption
    | (intro)
    | with_reducible apply Goes.commitMig
    | with_reducible apply Goes.ite
    | with_reducible apply Goes.foldl

theorem Goes.hbmCold {F : List Piece} {s₀ s : State} (bad : List (StackN × Fin 128)) (hchannels : Piece.channels ∈ F)
    (hdict : Piece.dict ∈ F) (hfns : Piece.fns ∈ F) (hfree : Piece.free ∈ F) (hhbm : Piece.hbm ∈ F) (hmill : Piece.mill ∈ F)
    (hout : Piece.out ∈ F) (hpoison : Piece.poison ∈ F) (hstackSides : Piece.stackSides ∈ F)
    (h : Goes F s₀ s) : Goes F s₀ (State.hbmCold s bad) := by
  have h1 : Goes F s₀ { s with hbm := [], poison := [], channels := [], stackSides := [] } := by
    refine Goes.trans (h.hbmTo [] hhbm (fun _ => rfl)) (Goes.plain (Goes.refl _ _) (fun p hp => ?_) rfl rfl rfl rfl rfl rfl rfl rfl)
    cases p <;> first | rfl | exact absurd hpoison hp | exact absurd hchannels hp | exact absurd hstackSides hp
  unfold State.hbmCold
  dsimp only
  refine Goes.foldl _ (fun s x g => Goes.retire _ _ hdict hfns hfree hmill hout hstackSides g)
    (Goes.foldl _ (fun s x g => ?_) h1)
  exact Goes.setReg _ _ hdict (Goes.setReg _ _ hdict (Goes.modStack _ _ hstackSides g))

theorem Goes.freeCopyAt {F : List Piece} {s₀ s : State} (p i : Nat) (hdict : Piece.dict ∈ F) (hprun : Piece.prun ∈ F)
    (go : Goes F s₀ s) : Goes F s₀ (State.freeCopyAt s p i) := by
  unfold State.freeCopyAt
  dsimp only
  repeat' first
    | with_reducible assumption
    | (intro)
    | with_reducible apply Goes.bump
    | with_reducible apply Goes.modPr
    | split

theorem Goes.storeUe {F : List Piece} {s₀ s : State} (c store : Nat) (copy : Option Nat) (buf : Option (CmdRef × Nat × Nat)) (hdict : Piece.dict ∈ F) (hprun : Piece.prun ∈ F)
    (go : Goes F s₀ s) : Goes F s₀ (State.storeUe s c store copy buf) := by
  unfold State.storeUe
  try dsimp only
  repeat' first
    | with_reducible assumption
    | (intro)
    | with_reducible apply Goes.bump
    | with_reducible apply Goes.freeCopyAt
    | with_reducible apply Goes.modRef
    | with_reducible apply Goes.setReg
    | with_reducible apply Goes.ite
    | split
    | dsimp only

theorem Goes.scrubbed {F : List Piece} {s₀ s : State} (c store : Nat) (hdict : Piece.dict ∈ F) (hscrub : Piece.scrub ∈ F)
    (go : Goes F s₀ s) : Goes F s₀ (State.scrubbed s c store) := by
  unfold State.scrubbed
  try dsimp only
  repeat' first
    | with_reducible assumption
    | (intro)
    | with_reducible apply Goes.bump
    | with_reducible apply Goes.scrubTo
    | dsimp only

theorem execSramScrub_goes {F : List Piece} (die : DieC) (store : Fin 9) (wrong : Fin 74) (copy : Option Nat) (buf : Option (CmdRef × Nat × Nat)) (s : State) (hdict : Piece.dict ∈ F) (hfree : Piece.free ∈ F) (hprun : Piece.prun ∈ F) (hscrub : Piece.scrub ∈ F) :
    ∃ t, execSramScrub die store wrong copy buf s = .next t ∧ Goes F s t := by
  have go := Goes.refl F s
  unfold execSramScrub
  refine ⟨_, rfl, ?_⟩
  try dsimp only
  repeat' first
    | with_reducible assumption
    | (intro)
    | with_reducible apply Goes.bump
    | with_reducible apply Goes.draw
    | with_reducible apply Goes.scrubbed
    | with_reducible apply Goes.storeUe
    | with_reducible apply Goes.ite
    | split
    | dsimp only

end Sys2Proof.Machine
end

