-- ==== Sys2Proof/Laws/Link.lean ====
section
/-! SUPPORT. What the operations of Machine/Link.lean may change, and that each keeps what the model keeps throughout. -/

namespace Sys2Proof.Machine

theorem Goes.modLg {F : List Piece} {s₀ s : State} (g : Nat) (f : LaneGroup → LaneGroup) (hlanes : Piece.lanes ∈ F)
    (go : Goes F s₀ s) : Goes F s₀ (State.modLg s g f) := by
  unfold State.modLg
  repeat' first
    | with_reducible assumption
    | (intro)
    | with_reducible apply Goes.lanesTo

theorem Goes.sendFrame {F : List Piece} {s₀ s : State} (g : Nat) (f : Frame) (hlanes : Piece.lanes ∈ F) (hout : Piece.out ∈ F)
    (go : Goes F s₀ s) : Goes F s₀ (State.sendFrame s g f) := by
  unfold State.sendFrame
  dsimp only
  repeat' first
    | with_reducible assumption
    | (intro)
    | with_reducible apply Goes.emit
    | with_reducible apply Goes.modLg

theorem Goes.sendControl {F : List Piece} {s₀ s : State} (g : Nat) (nak resync : Bool) (hlanes : Piece.lanes ∈ F) (hout : Piece.out ∈ F)
    (go : Goes F s₀ s) : Goes F s₀ (State.sendControl s g nak resync) := by
  unfold State.sendControl
  dsimp only
  repeat' first
    | with_reducible assumption
    | (intro)
    | with_reducible apply Goes.emit
    | with_reducible apply Goes.modLg

theorem Goes.pump {F : List Piece} {s₀ s : State} (g n : Nat) (hdict : Piece.dict ∈ F) (hlanes : Piece.lanes ∈ F)
    (hout : Piece.out ∈ F) (hpairTx : Piece.pairTx ∈ F) (hsec : Piece.sec ∈ F) (go : Goes F s₀ s) :
    Goes F s₀ (State.pump g n s) := by
  induction n generalizing s with
  | zero => exact go
  | succ n ih =>
    unfold State.pump
    split
    · exact go
    · dsimp only
      split
      · exact go
      · exact ih (Goes.sendFrame _ _ hlanes hout (Goes.bump _ _ hdict (Goes.modLg _ _ hlanes (Goes.modSec _ _ hsec
          (Goes.pairTxTo hpairTx go)))))

theorem Goes.pairSend {F : List Piece} {s₀ s : State} (g header : Nat) (data : List Byte) (hdict : Piece.dict ∈ F) (hlanes : Piece.lanes ∈ F) (hout : Piece.out ∈ F) (hpairTx : Piece.pairTx ∈ F) (hsec : Piece.sec ∈ F)
    (go : Goes F s₀ s) : Goes F s₀ (State.pairSend s g header data) := by
  unfold State.pairSend
  dsimp only
  repeat' first
    | with_reducible assumption
    | with_reducible apply Goes.pump
    | with_reducible apply Goes.pairTxTo

end Sys2Proof.Machine
end

