-- ==== Sys2Proof/Laws/Bands.lean ====
section
/-! SUPPORT. What the operations of Machine/Bands.lean may change, and that each keeps what the model keeps throughout. -/

namespace Sys2Proof.Machine

theorem Goes.modSwitch {F : List Piece} {s₀ s : State} (n : Nat) (g : SwitchState → SwitchState) (hswitches : Piece.switches ∈ F)
    (go : Goes F s₀ s) : Goes F s₀ (State.modSwitch s n g) := by
  unfold State.modSwitch
  repeat' first
    | with_reducible assumption
    | (intro)
    | with_reducible apply Goes.switchesTo

theorem Goes.bumpSwitches {F : List Piece} {s₀ s : State} (sub : Nat) (l : List (DieN × W32)) (hdict : Piece.dict ∈ F)
    (go : Goes F s₀ s) : Goes F s₀ (State.bumpSwitches s sub l) := by
  unfold State.bumpSwitches
  repeat' first
    | with_reducible assumption
    | (intro)
    | with_reducible apply Goes.bump
    | with_reducible apply Goes.foldl

theorem Goes.resvWrite {F : List Piece} {s₀ s : State} (p entry v : Nat) (hdict : Piece.dict ∈ F) (hresvNext : Piece.resvNext ∈ F)
    (go : Goes F s₀ s) : Goes F s₀ (State.resvWrite s p entry v) := by
  unfold State.resvWrite
  dsimp only
  repeat' first
    | with_reducible assumption
    | (intro)
    | with_reducible apply Goes.setReg
    | with_reducible apply Goes.ite
    | split
    | with_reducible apply Goes.resvNextTo

theorem execReservationEffect_goes {F : List Piece} (s : State) (hresv : Piece.resv ∈ F) :
    ∃ t, execReservationEffect s = .next t ∧ Goes F s t := by
  have go := Goes.refl F s
  unfold execReservationEffect
  refine ⟨_, rfl, ?_⟩
  repeat' first | with_reducible assumption | with_reducible apply Goes.resvTo

theorem Goes.addResp {F : List Piece} {s₀ s : State} (r : Resp) (hnextResp : Piece.nextResp ∈ F) (hresps : Piece.resps ∈ F)
    (go : Goes F s₀ s) : Goes F s₀ (State.addResp s r) := by
  unfold State.addResp
  repeat' first
    | with_reducible assumption
    | exact fun _ g => g
    | with_reducible apply Goes.resps_nextRespTo

theorem Goes.answerNow {F : List Piece} {s₀ s : State} (h status : Nat) (data : List Byte) (bad : List Nat) (hnextResp : Piece.nextResp ∈ F) (hresps : Piece.resps ∈ F)
    (go : Goes F s₀ s) : Goes F s₀ (State.answerNow s h status data bad) := by
  unfold State.answerNow
  repeat' first | with_reducible assumption | with_reducible apply Goes.addResp

theorem Goes.staleRequest {F : List Piece} {s₀ s : State} (h : Nat) (hdict : Piece.dict ∈ F) (hnextResp : Piece.nextResp ∈ F) (hresps : Piece.resps ∈ F)
    (go : Goes F s₀ s) : Goes F s₀ (State.staleRequest s h) := by
  unfold State.staleRequest
  repeat' first
    | with_reducible assumption
    | with_reducible apply Goes.ite
    | with_reducible apply Goes.answerNow
    | with_reducible apply Goes.bump

theorem Goes.bounce {F : List Piece} {s₀ s : State} (h : Nat) (hdict : Piece.dict ∈ F) (hswitches : Piece.switches ∈ F)
    (go : Goes F s₀ s) : Goes F s₀ (State.bounce s h) := by
  unfold State.bounce
  dsimp only
  repeat' first
    | with_reducible assumption
    | with_reducible apply Goes.ite
    | (intro)
    | with_reducible apply Goes.bump
    | with_reducible apply Goes.modSwitch

theorem Goes.accepted {F : List Piece} {s₀ s : State} (h : Nat) (hswitches : Piece.switches ∈ F)
    (go : Goes F s₀ s) : Goes F s₀ (State.accepted s h) := by
  unfold State.accepted
  repeat' first
    | with_reducible assumption
    | (intro)
    | with_reducible apply Goes.modSwitch

theorem Goes.losePacket {F : List Piece} {s₀ s : State} (h : Nat) (hresps : Piece.resps ∈ F) (hxacts : Piece.xacts ∈ F)
    (go : Goes F s₀ s) : Goes F s₀ (State.losePacket s h) := by
  unfold State.losePacket
  try dsimp only
  repeat' first
    | with_reducible assumption
    | (intro)
    | with_reducible apply Goes.ite
    | split
    | with_reducible apply Goes.respsTo
    | with_reducible apply Goes.xactsTo
    | dsimp only

theorem Goes.toChannels {F : List Piece} {s₀ s : State} (h : Nat) (write : Bool) (data : List Byte) (ws : List WordAcc) (hnextResp : Piece.nextResp ∈ F) (hout : Piece.out ∈ F) (hresps : Piece.resps ∈ F) (hwaiting : Piece.waiting ∈ F)
    (go : Goes F s₀ s) : Goes F s₀ (State.toChannels s h write data ws) := by
  unfold State.toChannels
  dsimp only
  repeat' first
    | with_reducible assumption
    | exact fun _ g => g
    | (intro)
    | with_reducible apply Goes.addResp
    | with_reducible apply Goes.modResp
    | with_reducible apply Goes.ite
    | with_reducible apply Goes.foldl
    | split
    | with_reducible apply Goes.waitingTo

theorem Goes.toPair {F : List Piece} {s₀ s : State} (h : Nat) (data : List Byte) (hdict : Piece.dict ∈ F) (hlanes : Piece.lanes ∈ F) (hnextResp : Piece.nextResp ∈ F) (hout : Piece.out ∈ F) (hpairTx : Piece.pairTx ∈ F) (hresps : Piece.resps ∈ F) (hsec : Piece.sec ∈ F) (hxacts : Piece.xacts ∈ F)
    (go : Goes F s₀ s) : Goes F s₀ (State.toPair s h data) := by
  unfold State.toPair
  dsimp only
  repeat' first
    | with_reducible assumption
    | (intro)
    | with_reducible apply Goes.answerNow
    | with_reducible apply Goes.pairSend
    | with_reducible apply Goes.ite
    | split
    | with_reducible apply Goes.xactsTo

theorem execRead_goes {F : List Piece} (header : Desc) (room : Bool) (s : State) (hdict : Piece.dict ∈ F) (hlanes : Piece.lanes ∈ F) (hnextResp : Piece.nextResp ∈ F) (hout : Piece.out ∈ F) (hpairTx : Piece.pairTx ∈ F) (hresps : Piece.resps ∈ F) (hsec : Piece.sec ∈ F) (hswitches : Piece.switches ∈ F) (hwaiting : Piece.waiting ∈ F) (hxacts : Piece.xacts ∈ F) :
    ∃ t, execRead header room s = .next t ∧ Goes F s t := by
  have go := Goes.refl F s
  unfold execRead
  try dsimp only
  repeat' first
    | refine ⟨_, rfl, ?_⟩
    | with_reducible assumption
    | exact fun _ g => g
    | with_reducible apply Goes.accepted
    | with_reducible apply Goes.addResp
    | with_reducible apply Goes.answerNow
    | with_reducible apply Goes.bounce
    | with_reducible apply Goes.staleRequest
    | with_reducible apply Goes.toChannels
    | with_reducible apply Goes.toPair
    | with_reducible apply Goes.ite
    | split
    | with_reducible apply Goes.waitingTo

theorem Goes.acceptWrite {F : List Piece} {s₀ s : State} (h : Nat) (data : List Byte) (ws : List WordAcc) (hdict : Piece.dict ∈ F) (hlanes : Piece.lanes ∈ F) (hnextResp : Piece.nextResp ∈ F) (hout : Piece.out ∈ F) (hpairTx : Piece.pairTx ∈ F) (hresps : Piece.resps ∈ F) (hsec : Piece.sec ∈ F) (hwaiting : Piece.waiting ∈ F) (hxacts : Piece.xacts ∈ F)
    (go : Goes F s₀ s) : Goes F s₀ (State.acceptWrite s h data ws) := by
  unfold State.acceptWrite
  dsimp only
  repeat' first
    | with_reducible assumption
    | exact fun _ g => g
    | with_reducible apply Goes.addResp
    | with_reducible apply Goes.answerNow
    | with_reducible apply Goes.toChannels
    | with_reducible apply Goes.toPair
    | with_reducible apply Goes.ite
    | split
    | with_reducible apply Goes.waitingTo

theorem execWriteInline_goes {F : List Piece} (header : Desc) (room : Bool) (s : State) (hdict : Piece.dict ∈ F) (hlanes : Piece.lanes ∈ F) (hnextResp : Piece.nextResp ∈ F) (hout : Piece.out ∈ F) (hpairTx : Piece.pairTx ∈ F) (hresps : Piece.resps ∈ F) (hsec : Piece.sec ∈ F) (hswitches : Piece.switches ∈ F) (hwaiting : Piece.waiting ∈ F) (hxacts : Piece.xacts ∈ F) :
    ∃ t, execWriteInline header room s = .next t ∧ Goes F s t := by
  have go := Goes.refl F s
  unfold execWriteInline
  try dsimp only
  repeat' first
    | refine ⟨_, rfl, ?_⟩
    | with_reducible assumption
    | with_reducible apply Goes.acceptWrite
    | with_reducible apply Goes.accepted
    | with_reducible apply Goes.bounce
    | with_reducible apply Goes.staleRequest
    | with_reducible apply Goes.ite

theorem Goes.ffOpen {F : List Piece} {s₀ s : State} (h : Nat) (hprun : Piece.prun ∈ F)
    (go : Goes F s₀ s) : Goes F s₀ (State.ffOpen s h) := by
  unfold State.ffOpen
  dsimp only
  repeat' first
    | with_reducible assumption
    | with_reducible apply Goes.ite
    | (intro)
    | with_reducible apply Goes.modPr

theorem Goes.acceptFf {F : List Piece} {s₀ s : State} (h : Nat) (data : List Byte) (hdict : Piece.dict ∈ F) (hlanes : Piece.lanes ∈ F) (hnextResp : Piece.nextResp ∈ F) (hout : Piece.out ∈ F) (hpairTx : Piece.pairTx ∈ F) (hprun : Piece.prun ∈ F) (hresps : Piece.resps ∈ F) (hsec : Piece.sec ∈ F) (hxacts : Piece.xacts ∈ F)
    (go : Goes F s₀ s) : Goes F s₀ (State.acceptFf s h data) := by
  unfold State.acceptFf
  try dsimp only
  repeat' first
    | with_reducible assumption
    | (intro)
    | with_reducible apply Goes.answerNow
    | with_reducible apply Goes.ffOpen
    | with_reducible apply Goes.pairSend
    | split
    | with_reducible apply Goes.xactsTo
    | dsimp only

theorem Goes.receive {F : List Piece} {s₀ s : State} (h : Nat) (room bad : Bool) (act : State → State) (hact : ∀ s, Goes F s₀ s → Goes F s₀ (act s)) (hdict : Piece.dict ∈ F) (hnextResp : Piece.nextResp ∈ F) (hresps : Piece.resps ∈ F) (hswitches : Piece.switches ∈ F)
    (go : Goes F s₀ s) : Goes F s₀ (State.receive s h room bad act) := by
  unfold State.receive
  try dsimp only
  repeat' first
    | with_reducible assumption
    | (intro)
    | with_reducible apply hact
    | with_reducible apply Goes.accepted
    | with_reducible apply Goes.answerNow
    | with_reducible apply Goes.bounce
    | with_reducible apply Goes.bump
    | with_reducible apply Goes.staleRequest
    | with_reducible apply Goes.ite
    | split
    | dsimp only

theorem execWrite_goes {F : List Piece} (header : Desc) (data : List Byte) (room bad : Bool) (s : State) (hdict : Piece.dict ∈ F) (hlanes : Piece.lanes ∈ F) (hnextResp : Piece.nextResp ∈ F) (hout : Piece.out ∈ F) (hpairTx : Piece.pairTx ∈ F) (hprun : Piece.prun ∈ F) (hresps : Piece.resps ∈ F) (hsec : Piece.sec ∈ F) (hswitches : Piece.switches ∈ F) (hwaiting : Piece.waiting ∈ F) (hxacts : Piece.xacts ∈ F) :
    ∃ t, execWrite header data room bad s = .next t ∧ Goes F s t := by
  have go := Goes.refl F s
  unfold execWrite
  refine ⟨_, rfl, ?_⟩
  try dsimp only
  repeat' first
    | with_reducible assumption
    | (intro)
    | with_reducible apply Goes.acceptFf
    | with_reducible apply Goes.acceptWrite
    | with_reducible apply Goes.receive
    | with_reducible apply Goes.ite
    | split
    | dsimp only

theorem execWriteFf_goes {F : List Piece} (header : Desc) (data : List Byte) (room bad : Bool) (s : State) (hdict : Piece.dict ∈ F) (hlanes : Piece.lanes ∈ F) (hnextResp : Piece.nextResp ∈ F) (hout : Piece.out ∈ F) (hpairTx : Piece.pairTx ∈ F) (hprun : Piece.prun ∈ F) (hresps : Piece.resps ∈ F) (hsec : Piece.sec ∈ F) (hswitches : Piece.switches ∈ F) (hwaiting : Piece.waiting ∈ F) (hxacts : Piece.xacts ∈ F) :
    ∃ t, execWriteFf header data room bad s = .next t ∧ Goes F s t := by
  have go := Goes.refl F s
  unfold execWriteFf
  refine ⟨_, rfl, ?_⟩
  try dsimp only
  repeat' first
    | with_reducible assumption
    | (intro)
    | with_reducible apply Goes.acceptFf
    | with_reducible apply Goes.acceptWrite
    | with_reducible apply Goes.receive
    | with_reducible apply Goes.ite
    | split
    | dsimp only

theorem execMessage_goes {F : List Piece} (header : Desc) (data : List Byte) (room bad : Bool) (s : State) (hdict : Piece.dict ∈ F) (hlanes : Piece.lanes ∈ F) (hnextResp : Piece.nextResp ∈ F) (hout : Piece.out ∈ F) (hpairTx : Piece.pairTx ∈ F) (hresps : Piece.resps ∈ F) (hsec : Piece.sec ∈ F) (hswitches : Piece.switches ∈ F) (hxacts : Piece.xacts ∈ F) :
    ∃ t, execMessage header data room bad s = .next t ∧ Goes F s t := by
  have go := Goes.refl F s
  unfold execMessage
  refine ⟨_, rfl, ?_⟩
  try dsimp only
  repeat' first
    | with_reducible assumption
    | (intro)
    | with_reducible apply Goes.answerNow
    | with_reducible apply Goes.receive
    | with_reducible apply Goes.toPair
    | with_reducible apply Goes.ite
    | split
    | dsimp only

theorem Goes.deliverCopy {F : List Piece} {s₀ s : State} (h c : Nat) (room : Bool) (hdict : Piece.dict ∈ F) (hnextResp : Piece.nextResp ∈ F) (hresps : Piece.resps ∈ F) (hswitches : Piece.switches ∈ F)
    (go : Goes F s₀ s) : Goes F s₀ (State.deliverCopy s h c room) := by
  unfold State.deliverCopy
  try dsimp only
  repeat' first
    | with_reducible assumption
    | (intro)
    | with_reducible apply Goes.accepted
    | with_reducible apply Goes.answerNow
    | with_reducible apply Goes.bounce
    | with_reducible apply Goes.ite
    | split
    | dsimp only

theorem execMcast_goes {F : List Piece} (header : Desc) (data : List Byte) (full : List DieC) (s : State) (hdict : Piece.dict ∈ F) (hnextResp : Piece.nextResp ∈ F) (hresps : Piece.resps ∈ F) (hswitches : Piece.switches ∈ F) :
    ∃ t, execMcast header data full s = .next t ∧ Goes F s t := by
  have go := Goes.refl F s
  unfold execMcast
  refine ⟨_, rfl, ?_⟩
  try dsimp only
  repeat' first
    | with_reducible assumption
    | (intro)
    | with_reducible apply Goes.bump
    | with_reducible apply Goes.deliverCopy
    | with_reducible apply Goes.staleRequest
    | with_reducible apply Goes.ite
    | with_reducible apply Goes.foldl
    | split
    | dsimp only

theorem execHeaderDiscard_goes {F : List Piece} (switch : DieN) (header : Desc) (ecc : Bool) (s : State) (hdict : Piece.dict ∈ F) (hresps : Piece.resps ∈ F) (hxacts : Piece.xacts ∈ F) :
    ∃ t, execHeaderDiscard switch header ecc s = .next t ∧ Goes F s t := by
  have go := Goes.refl F s
  unfold execHeaderDiscard
  try dsimp only
  repeat' first
    | refine ⟨_, rfl, ?_⟩
    | with_reducible assumption
    | with_reducible apply Goes.losePacket
    | with_reducible apply Goes.bump
    | with_reducible apply Goes.ite

theorem execStarveReceived_goes {F : List Piece} (switch : DieN) (row : Bool) (ply : Fin 12) (down : Bool) (s : State) (hswitches : Piece.switches ∈ F) :
    ∃ t, execStarveReceived switch row ply down s = .next t ∧ Goes F s t := by
  have go := Goes.refl F s
  unfold execStarveReceived
  try dsimp only
  repeat' first
    | refine ⟨_, rfl, ?_⟩
    | with_reducible assumption
    | (intro)
    | with_reducible apply Goes.modSwitch

theorem execTurnaroundClose_goes {F : List Piece} (die : DieN) (s : State) (hswitches : Piece.switches ∈ F) :
    ∃ t, execTurnaroundClose die s = .next t ∧ Goes F s t := by
  have go := Goes.refl F s
  unfold execTurnaroundClose
  refine ⟨_, rfl, ?_⟩
  repeat' first
    | with_reducible assumption
    | (intro)
    | with_reducible apply Goes.modSwitch
    | with_reducible apply Goes.ite
    | with_reducible apply Goes.foldl

end Sys2Proof.Machine
end

