-- ==== Sys2Proof/Laws/Brim.lean ====
section
/-! SUPPORT. What the operations of Machine/Brim.lean may change, and that each keeps what the model keeps throughout. -/

namespace Sys2Proof.Machine

theorem Goes.modBrim {F : List Piece} {s₀ s : State} (c : Nat) (g : Brim → Brim) (hbrims : Piece.brims ∈ F)
    (go : Goes F s₀ s) : Goes F s₀ (State.modBrim s c g) := by
  unfold State.modBrim
  repeat' first
    | with_reducible assumption
    | (intro)
    | with_reducible apply Goes.brimsTo

theorem Goes.setDsp {F : List Piece} {s₀ s : State} (c cell : Nat) (x : Dsp) (hbrims : Piece.brims ∈ F)
    (go : Goes F s₀ s) : Goes F s₀ (State.setDsp s c cell x) := by
  unfold State.setDsp
  repeat' first
    | with_reducible assumption
    | (intro)
    | with_reducible apply Goes.modBrim

theorem Goes.dspExec {F : List Piece} {s₀ s : State} (c cell op : Nat) (f : Nat → Int → Option Int) (hbrims : Piece.brims ∈ F) (hdict : Piece.dict ∈ F)
    (go : Goes F s₀ s) : Goes F s₀ (State.dspExec s c cell op f) := by
  unfold State.dspExec
  dsimp only
  repeat' first
    | with_reducible assumption
    | with_reducible apply Goes.bump
    | with_reducible apply Goes.setDsp
    | with_reducible apply Goes.ite
    | split

theorem execNopDsp_goes {F : List Piece} (die : DieC) (cell : Fin 1536) (s : State) (hbrims : Piece.brims ∈ F) (hdict : Piece.dict ∈ F) :
    ∃ t, execNopDsp die cell s = .next t ∧ Goes F s t := by
  have go := Goes.refl F s
  unfold execNopDsp
  refine ⟨_, rfl, ?_⟩
  repeat' first
    | with_reducible assumption
    | (intro)
    | with_reducible apply Goes.dspExec

theorem execMul_goes {F : List Piece} (die : DieC) (cell : Fin 1536) (a b : BitVec 16) (s : State) (hbrims : Piece.brims ∈ F) (hdict : Piece.dict ∈ F) :
    ∃ t, execMul die cell a b s = .next t ∧ Goes F s t := by
  have go := Goes.refl F s
  unfold execMul
  refine ⟨_, rfl, ?_⟩
  repeat' first
    | with_reducible assumption
    | (intro)
    | with_reducible apply Goes.dspExec

theorem execMac_goes {F : List Piece} (die : DieC) (cell : Fin 1536) (a b : BitVec 16) (s : State) (hbrims : Piece.brims ∈ F) (hdict : Piece.dict ∈ F) :
    ∃ t, execMac die cell a b s = .next t ∧ Goes F s t := by
  have go := Goes.refl F s
  unfold execMac
  refine ⟨_, rfl, ?_⟩
  repeat' first
    | with_reducible assumption
    | (intro)
    | with_reducible apply Goes.dspExec

theorem execMsub_goes {F : List Piece} (die : DieC) (cell : Fin 1536) (a b : BitVec 16) (s : State) (hbrims : Piece.brims ∈ F) (hdict : Piece.dict ∈ F) :
    ∃ t, execMsub die cell a b s = .next t ∧ Goes F s t := by
  have go := Goes.refl F s
  unfold execMsub
  refine ⟨_, rfl, ?_⟩
  repeat' first
    | with_reducible assumption
    | (intro)
    | with_reducible apply Goes.dspExec

theorem execLoadc_goes {F : List Piece} (die : DieC) (cell : Fin 1536) (c : Option (BitVec 40)) (s : State) (hbrims : Piece.brims ∈ F) (hdict : Piece.dict ∈ F) :
    ∃ t, execLoadc die cell c s = .next t ∧ Goes F s t := by
  have go := Goes.refl F s
  unfold execLoadc
  refine ⟨_, rfl, ?_⟩
  repeat' first
    | with_reducible assumption
    | (intro)
    | with_reducible apply Goes.dspExec

theorem execAddc_goes {F : List Piece} (die : DieC) (cell : Fin 1536) (c : Option (BitVec 40)) (s : State) (hbrims : Piece.brims ∈ F) (hdict : Piece.dict ∈ F) :
    ∃ t, execAddc die cell c s = .next t ∧ Goes F s t := by
  have go := Goes.refl F s
  unfold execAddc
  refine ⟨_, rfl, ?_⟩
  repeat' first
    | with_reducible assumption
    | (intro)
    | with_reducible apply Goes.dspExec

theorem execClr_goes {F : List Piece} (die : DieC) (cell : Fin 1536) (s : State) (hbrims : Piece.brims ∈ F) (hdict : Piece.dict ∈ F) :
    ∃ t, execClr die cell s = .next t ∧ Goes F s t := by
  have go := Goes.refl F s
  unfold execClr
  refine ⟨_, rfl, ?_⟩
  repeat' first
    | with_reducible assumption
    | (intro)
    | with_reducible apply Goes.dspExec

theorem execShr_goes {F : List Piece} (die : DieC) (cell : Fin 1536) (s : State) (hbrims : Piece.brims ∈ F) (hdict : Piece.dict ∈ F) (hfree : Piece.free ∈ F) :
    ∃ t, execShr die cell s = .next t ∧ Goes F s t := by
  have go := Goes.refl F s
  unfold execShr
  refine ⟨_, rfl, ?_⟩
  repeat' first
    | with_reducible assumption
    | (intro)
    | with_reducible apply Goes.draw
    | with_reducible apply Goes.dspExec

theorem execDspRepeat_goes {F : List Piece} (die : DieC) (cell : Fin 1536) (s : State) (hbrims : Piece.brims ∈ F) :
    ∃ t, execDspRepeat die cell s = .next t ∧ Goes F s t := by
  have go := Goes.refl F s
  unfold execDspRepeat
  refine ⟨_, rfl, ?_⟩
  try dsimp only
  repeat' first
    | with_reducible assumption
    | with_reducible apply Goes.setDsp
    | with_reducible apply Goes.ite
    | split

theorem execDspEnd_goes {F : List Piece} (die : DieC) (cell : Fin 1536) (s : State) (hbrims : Piece.brims ∈ F) :
    ∃ t, execDspEnd die cell s = .next t ∧ Goes F s t := by
  have go := Goes.refl F s
  unfold execDspEnd
  refine ⟨_, rfl, ?_⟩
  try dsimp only
  repeat' first
    | with_reducible assumption
    | with_reducible apply Goes.setDsp
    | with_reducible apply Goes.ite
    | split

theorem execDspStart_goes {F : List Piece} (die : DieC) (cell : Fin 1536) (s : State) (hbrims : Piece.brims ∈ F) :
    ∃ t, execDspStart die cell s = .next t ∧ Goes F s t := by
  have go := Goes.refl F s
  unfold execDspStart
  try dsimp only
  repeat' first
    | refine ⟨_, rfl, ?_⟩
    | with_reducible assumption
    | with_reducible apply Goes.setDsp
    | with_reducible apply Goes.ite

theorem execDspRst_goes {F : List Piece} (die : DieC) (cell : Fin 1536) (s : State) (hbrims : Piece.brims ∈ F) :
    ∃ t, execDspRst die cell s = .next t ∧ Goes F s t := by
  have go := Goes.refl F s
  unfold execDspRst
  try dsimp only
  repeat' first
    | refine ⟨_, rfl, ?_⟩
    | with_reducible assumption
    | with_reducible apply Goes.setDsp
    | with_reducible apply Goes.ite

theorem execTapWrite_goes {F : List Piece} (port : Fin 16) (pin : Fin 96) (output : Bool) (tap : Fin 128) (elapsed : W32) (s : State) (htaps : Piece.taps ∈ F) :
    ∃ t, execTapWrite port pin output tap elapsed s = .next t ∧ Goes F s t := by
  have go := Goes.refl F s
  unfold execTapWrite
  try dsimp only
  repeat' first
    | refine ⟨_, rfl, ?_⟩
    | with_reducible assumption
    | (intro)
    | with_reducible apply Goes.ite
    | split
    | with_reducible apply Goes.tapsTo

end Sys2Proof.Machine
end

