-- ==== Sys2Proof/Laws/Rails.lean ====
section
/-! SUPPORT. What the operations of Machine/Rails.lean may change, and that each keeps what the model keeps throughout. -/

namespace Sys2Proof.Machine

theorem Goes.modDp {F : List Piece} {s₀ s : State} (c : Nat) (g : DiePower → DiePower) (hpower : Piece.power ∈ F)
    (go : Goes F s₀ s) : Goes F s₀ (State.modDp s c g) := by
  unfold State.modDp
  repeat' first
    | with_reducible assumption
    | (intro)
    | with_reducible apply Goes.powerTo

theorem Goes.modPp {F : List Piece} {s₀ s : State} (p : Nat) (g : PartPower → PartPower) (hpower : Piece.power ∈ F)
    (go : Goes F s₀ s) : Goes F s₀ (State.modPp s p g) := by
  unfold State.modPp
  repeat' first
    | with_reducible assumption
    | (intro)
    | with_reducible apply Goes.powerTo

theorem Goes.avsFrom {F : List Piece} {s₀ s : State} (dies : List Nat) (hout : Piece.out ∈ F)
    (go : Goes F s₀ s) : Goes F s₀ (State.avsFrom s old dies) := by
  unfold State.avsFrom
  repeat' first
    | with_reducible assumption
    | (intro)
    | with_reducible apply Goes.emit
    | with_reducible apply Goes.ite
    | with_reducible apply Goes.foldl

theorem Goes.raiseRails {F : List Piece} {s₀ s : State} (p next : Nat) (hout : Piece.out ∈ F) (hpower : Piece.power ∈ F)
    (go : Goes F s₀ s) : Goes F s₀ (State.raiseRails s p next) := by
  unfold State.raiseRails
  dsimp only
  repeat' first
    | with_reducible assumption
    | (intro)
    | with_reducible apply Goes.avsFrom
    | with_reducible apply Goes.modDp
    | with_reducible apply Goes.ite
    | with_reducible apply Goes.foldl

theorem Goes.setMhz {F : List Piece} {s₀ s : State} (c f : Nat) (hpower : Piece.power ∈ F)
    (go : Goes F s₀ s) : Goes F s₀ (State.setMhz s c f) := by
  unfold State.setMhz
  repeat' first
    | with_reducible assumption
    | (intro)
    | with_reducible apply Goes.modDp

theorem Goes.refreshDomains {F : List Piece} {s₀ s : State} (n : Nat) (hdict : Piece.dict ∈ F) (hpower : Piece.power ∈ F)
    (go : Goes F s₀ s) : Goes F s₀ (State.refreshDomains s n) := by
  unfold State.refreshDomains
  dsimp only
  repeat' first
    | with_reducible assumption
    | (intro)
    | with_reducible apply Goes.setReg
    | with_reducible apply Goes.powerTo

theorem execDomainOn_goes {F : List Piece} (die : DieN) (domain : Fin 4) (s : State) (hdict : Piece.dict ∈ F) (hpower : Piece.power ∈ F) :
    ∃ t, execDomainOn die domain s = .next t ∧ Goes F s t := by
  have go := Goes.refl F s
  unfold execDomainOn
  try dsimp only
  repeat' first
    | refine ⟨_, rfl, ?_⟩
    | with_reducible assumption
    | with_reducible apply Goes.setReg
    | with_reducible apply Goes.ite
    | split
    | with_reducible apply Goes.powerTo

theorem Goes.refreshAll {F : List Piece} {s₀ s : State}  (hdict : Piece.dict ∈ F) (hpower : Piece.power ∈ F)
    (go : Goes F s₀ s) : Goes F s₀ (State.refreshAll s) := by
  unfold State.refreshAll
  repeat' first
    | with_reducible assumption
    | (intro)
    | with_reducible apply Goes.refreshDomains
    | with_reducible apply Goes.foldl

end Sys2Proof.Machine
end

