-- ==== Sys2Proof/Laws/Time.lean ====
section
/-! SUPPORT. What the operations of Machine/Time.lean may change, and that each keeps what the model keeps throughout. -/

namespace Sys2Proof.Machine

theorem Goes.measured {F : List Piece} {s₀ s : State} (hclock : Piece.clock ∈ F) (hdict : Piece.dict ∈ F)
    (hfree : Piece.free ∈ F) (go : Goes F s₀ s) : Goes F s₀ (State.measured s) := by
  unfold State.measured
  refine Goes.ite ?_ go
  dsimp only
  have h (c : Clock) (hc : s.clock.frame < 256 → c.frame < 256) (v : Nat) :=
    (go.clockTo c hclock hc).setReg rOffsetNs v hdict
  split
  · exact (h _ (by exact id) _).setReg _ _ hdict
  · split
    · exact Goes.clock_freeTo (s := State.setReg _ _ _) _ 1 hclock hfree id ((h _ (by exact id) _).setReg _ _ hdict)
    · exact h _ (by exact id) _

theorem Goes.delayRequest {F : List Piece} {s₀ s : State}  (hclock : Piece.clock ∈ F) (hout : Piece.out ∈ F)
    (go : Goes F s₀ s) : Goes F s₀ (State.delayRequest s) := by
  unfold State.delayRequest
  dsimp only
  repeat' first
    | with_reducible assumption
    | exact id
    | with_reducible apply Goes.emit
    | with_reducible apply Goes.ite
    | split
    | with_reducible apply Goes.clockTo

theorem Goes.synced {F : List Piece} {s₀ s : State} (t1 t2 : Nat) (hclock : Piece.clock ∈ F) (hdict : Piece.dict ∈ F) (hfree : Piece.free ∈ F) (hout : Piece.out ∈ F)
    (go : Goes F s₀ s) : Goes F s₀ (State.synced s t1 t2) := by
  unfold State.synced
  dsimp only
  repeat' first
    | with_reducible assumption
    | exact id
    | with_reducible apply Goes.delayRequest
    | with_reducible apply Goes.measured
    | with_reducible apply Goes.clockTo

theorem execPtpSync_goes {F : List Piece} (domain : Byte) (twoStep : Bool) (seq : BitVec 16) (origin correction : W64) (s : State) (hclock : Piece.clock ∈ F) (hdict : Piece.dict ∈ F) (hfree : Piece.free ∈ F) (hout : Piece.out ∈ F) :
    ∃ t, execPtpSync domain twoStep seq origin correction s = .next t ∧ Goes F s t := by
  have go := Goes.refl F s
  unfold execPtpSync
  refine ⟨_, rfl, ?_⟩
  repeat' first
    | with_reducible assumption
    | exact id
    | with_reducible apply Goes.synced
    | with_reducible apply Goes.ite
    | split
    | with_reducible apply Goes.clockTo

theorem execPtpFollowUp_goes {F : List Piece} (domain : Byte) (seq : BitVec 16) (origin correction : W64) (s : State) (hclock : Piece.clock ∈ F) (hdict : Piece.dict ∈ F) (hfree : Piece.free ∈ F) (hout : Piece.out ∈ F) :
    ∃ t, execPtpFollowUp domain seq origin correction s = .next t ∧ Goes F s t := by
  have go := Goes.refl F s
  unfold execPtpFollowUp
  refine ⟨_, rfl, ?_⟩
  repeat' first
    | with_reducible assumption
    | with_reducible apply Goes.synced
    | with_reducible apply Goes.ite

theorem execPtpDelayResp_goes {F : List Piece} (domain : Byte) (seq : BitVec 16) (receive correction : W64) (s : State) (hclock : Piece.clock ∈ F) (hdict : Piece.dict ∈ F) (hfree : Piece.free ∈ F) :
    ∃ t, execPtpDelayResp domain seq receive correction s = .next t ∧ Goes F s t := by
  have go := Goes.refl F s
  unfold execPtpDelayResp
  refine ⟨_, rfl, ?_⟩
  try dsimp only
  repeat' first
    | with_reducible assumption
    | exact id
    | with_reducible apply Goes.measured
    | with_reducible apply Goes.ite
    | split
    | with_reducible apply Goes.clockTo

theorem execPtpPdelayResp_goes {F : List Piece} (domain : Byte) (seq : BitVec 16) (receive transmit : W64) (s : State) (hclock : Piece.clock ∈ F) (hdict : Piece.dict ∈ F) (hfree : Piece.free ∈ F) :
    ∃ t, execPtpPdelayResp domain seq receive transmit s = .next t ∧ Goes F s t := by
  have go := Goes.refl F s
  unfold execPtpPdelayResp
  refine ⟨_, rfl, ?_⟩
  try dsimp only
  repeat' first
    | with_reducible assumption
    | exact id
    | with_reducible apply Goes.measured
    | with_reducible apply Goes.ite
    | split
    | with_reducible apply Goes.clockTo

theorem execPtpAnnounce_goes {F : List Piece} (domain : Byte) (grandmaster : W64) (utc : BitVec 16) (s : State) (hdict : Piece.dict ∈ F) :
    ∃ t, execPtpAnnounce domain grandmaster utc s = .next t ∧ Goes F s t := by
  have go := Goes.refl F s
  unfold execPtpAnnounce
  refine ⟨_, rfl, ?_⟩
  repeat' first
    | with_reducible assumption
    | with_reducible apply Goes.setReg
    | with_reducible apply Goes.ite

theorem execPtpManagement_goes {F : List Piece} (domain : Byte) (seq : BitVec 16) (s : State) (hout : Piece.out ∈ F) :
    ∃ t, execPtpManagement domain seq s = .next t ∧ Goes F s t := by
  have go := Goes.refl F s
  unfold execPtpManagement
  refine ⟨_, rfl, ?_⟩
  repeat' first
    | with_reducible assumption
    | with_reducible apply Goes.emit
    | with_reducible apply Goes.ite

theorem execAnnounceTimeout_goes {F : List Piece} (s : State) (hdict : Piece.dict ∈ F) :
    ∃ t, execAnnounceTimeout s = .next t ∧ Goes F s t := by
  have go := Goes.refl F s
  unfold execAnnounceTimeout
  refine ⟨_, rfl, ?_⟩
  repeat' first | with_reducible assumption | with_reducible apply Goes.setReg

theorem execTimeStep_goes {F : List Piece} (s : State) (hclock : Piece.clock ∈ F) (hdict : Piece.dict ∈ F) (hfns : Piece.fns ∈ F) (hfree : Piece.free ∈ F) (hmill : Piece.mill ∈ F) (hout : Piece.out ∈ F) :
    ∃ t, execTimeStep s = .next t ∧ Goes F s t := by
  have go := Goes.refl F s
  unfold execTimeStep
  try dsimp only
  repeat' first
    | refine ⟨_, rfl, ?_⟩
    | with_reducible assumption
    | exact id
    | with_reducible apply Goes.bump
    | with_reducible apply Goes.raise
    | with_reducible apply Goes.setReg
    | with_reducible apply Goes.ite
    | split
    | with_reducible apply Goes.clockTo

theorem Goes.tick {F : List Piece} {s₀ s : State} (hclock : Piece.clock ∈ F) (go : Goes F s₀ s) :
    Goes F s₀ (State.tick s) := by
  unfold State.tick
  exact go.clockTo _ hclock (fun _ => Nat.mod_lt _ (by decide))

end Sys2Proof.Machine
end

