-- ==== Sys2Proof/Laws/Streams.lean ====
section
/-! SUPPORT. What the operations of Machine/Streams.lean may change, and that each keeps what the model keeps throughout. -/

namespace Sys2Proof.Machine

theorem Goes.monitor {F : List Piece} {s₀ s : State} (p q sub n : Nat) (hdict : Piece.dict ∈ F)
    (go : Goes F s₀ s) : Goes F s₀ (State.monitor s p q sub n) := by
  unfold State.monitor
  repeat' first
    | with_reducible assumption
    | (intro)
    | with_reducible apply Goes.bump
    | with_reducible apply Goes.foldl

theorem Goes.monitorMax {F : List Piece} {s₀ s : State} (p q sub n : Nat) (hdict : Piece.dict ∈ F)
    (go : Goes F s₀ s) : Goes F s₀ (State.monitorMax s p q sub n) := by
  unfold State.monitorMax
  repeat' first
    | with_reducible assumption
    | (intro)
    | with_reducible apply Goes.raiseReg
    | with_reducible apply Goes.foldl

theorem Goes.monitorSet {F : List Piece} {s₀ s : State} (p q sub n : Nat) (hdict : Piece.dict ∈ F)
    (go : Goes F s₀ s) : Goes F s₀ (State.monitorSet s p q sub n) := by
  unfold State.monitorSet
  repeat' first
    | with_reducible assumption
    | (intro)
    | with_reducible apply Goes.setReg
    | with_reducible apply Goes.foldl

theorem Goes.issueMove {F : List Piece} {s₀ s : State} (f : Found) (c : CmdRef) (st : Stream) (m : Nat × Nat × Nat) (write : Bool) (data : List Byte) (hdict : Piece.dict ∈ F) (hprun : Piece.prun ∈ F) (hwaiting : Piece.waiting ∈ F) (hxacts : Piece.xacts ∈ F)
    (go : Goes F s₀ s) : Goes F s₀ (State.issueMove s f c st m write data) := by
  unfold State.issueMove
  dsimp only
  repeat' first
    | with_reducible assumption
    | (intro)
    | with_reducible apply Goes.modRef
    | with_reducible apply Goes.monitorMax
    | with_reducible apply Goes.ite
    | split
    | with_reducible apply Goes.waiting_xactsTo

theorem Goes.drainOld {F : List Piece} {s₀ s : State} (f : Found) (id : Nat) (y : Stream) (hprun : Piece.prun ∈ F)
    (go : Goes F s₀ s) : Goes F s₀ (State.drainOld s f id y) := by
  unfold State.drainOld
  try dsimp only
  repeat' first
    | with_reducible assumption
    | (intro)
    | with_reducible apply Goes.modPr
    | dsimp only

theorem Goes.popStream {F : List Piece} {s₀ s : State} (f : Found) (c : CmdRef) (st : Stream) (n back : Nat) (hdict : Piece.dict ∈ F) (hprun : Piece.prun ∈ F)
    (go : Goes F s₀ s) : Goes F s₀ (State.popStream s f c st n back) := by
  unfold State.popStream
  try dsimp only
  repeat' first
    | with_reducible assumption
    | (intro)
    | with_reducible apply Goes.drainOld
    | with_reducible apply Goes.modRef
    | with_reducible apply Goes.modRun
    | with_reducible apply Goes.monitor
    | with_reducible apply Goes.ite
    | split
    | dsimp only

theorem Goes.settleSpace {F : List Piece} {s₀ s : State} (f : Found) (c : CmdRef) (st : Stream) (hdict : Piece.dict ∈ F) (hprun : Piece.prun ∈ F)
    (go : Goes F s₀ s) : Goes F s₀ (State.settleSpace s f c st) := by
  unfold State.settleSpace
  try dsimp only
  repeat' first
    | with_reducible assumption
    | (intro)
    | with_reducible apply Goes.modRef
    | with_reducible apply Goes.modRun
    | with_reducible apply Goes.monitorSet
    | with_reducible apply Goes.ite
    | split
    | dsimp only

theorem Goes.issueRead {F : List Piece} {s₀ s : State} (f : Found) (c : CmdRef) (st : Stream) (hdict : Piece.dict ∈ F) (hprun : Piece.prun ∈ F) (hwaiting : Piece.waiting ∈ F) (hxacts : Piece.xacts ∈ F)
    (go : Goes F s₀ s) : Goes F s₀ (State.issueRead s f c st) := by
  unfold State.issueRead
  try dsimp only
  repeat' first
    | with_reducible assumption
    | (intro)
    | with_reducible apply Goes.issueMove
    | with_reducible apply Goes.modRef
    | with_reducible apply Goes.monitorMax
    | with_reducible apply Goes.ite
    | split
    | dsimp only

theorem Goes.onStream {F : List Piece} {s₀ s : State} (c : CmdRef) (id die : Nat) (g : State → Found → Stream → State) (hg : ∀ t x1 x2, Goes F s₀ t → Goes F s₀ (g t x1 x2)) 
    (go : Goes F s₀ s) : Goes F s₀ (State.onStream s c id die g) := by
  unfold State.onStream
  try dsimp only
  repeat' first
    | with_reducible assumption
    | (intro)
    | with_reducible apply hg
    | split
    | dsimp only

theorem execTransferIssue_goes {F : List Piece} (c : CmdRef) (fin : Fin 256) (die : DieC) (popped back : W32) (s : State) (hdict : Piece.dict ∈ F) (hprun : Piece.prun ∈ F) (hwaiting : Piece.waiting ∈ F) (hxacts : Piece.xacts ∈ F) :
    ∃ t, execTransferIssue c fin die popped back s = .next t ∧ Goes F s t := by
  have go := Goes.refl F s
  unfold execTransferIssue
  refine ⟨_, rfl, ?_⟩
  try dsimp only
  repeat' first
    | with_reducible assumption
    | (intro)
    | with_reducible apply Goes.issueRead
    | with_reducible apply Goes.onStream
    | with_reducible apply Goes.popStream
    | with_reducible apply Goes.settleSpace
    | dsimp only

theorem Goes.setSplit {F : List Piece} {s₀ s : State} (k : Nat) (x : Split) (hsplits : Piece.splits ∈ F)
    (go : Goes F s₀ s) : Goes F s₀ (State.setSplit s k x) := by
  unfold State.setSplit
  repeat' first
    | with_reducible assumption
    | (intro)
    | with_reducible apply Goes.splitsTo

theorem Goes.fixedGrant {F : List Piece} {s₀ s : State} (p pt : Nat) (l : List Waiting) (hdict : Piece.dict ∈ F) (hsplits : Piece.splits ∈ F)
    (go : Goes F s₀ s) : Goes F s₀ (State.fixedGrant s p pt l).2 := by
  unfold State.fixedGrant
  dsimp only
  repeat' first
    | with_reducible assumption
    | (intro)
    | with_reducible apply Goes.bump
    | with_reducible apply Goes.setSplit
    | with_reducible apply Goes.ite
    | with_reducible apply Goes.foldl
    | split

theorem Goes.arbitrate {F : List Piece} {s₀ s : State} (p pt : Nat) (l : List Waiting) (hdict : Piece.dict ∈ F) (hsplits : Piece.splits ∈ F)
    (go : Goes F s₀ s) : Goes F s₀ (State.arbitrate s p pt l).2 := by
  unfold State.arbitrate
  dsimp only
  repeat' first
    | with_reducible assumption
    | (intro)
    | with_reducible apply Goes.bump
    | with_reducible apply Goes.fixedGrant
    | with_reducible apply Goes.ite
    | split

theorem Goes.unwait {F : List Piece} {s₀ s : State} (w : Waiting) (hwaiting : Piece.waiting ∈ F)
    (go : Goes F s₀ s) : Goes F s₀ (State.unwait s w) := by
  unfold State.unwait
  repeat' first | with_reducible assumption | with_reducible apply Goes.waitingTo

theorem Goes.countStage {F : List Piece} {s₀ s : State} (st : Nat × Bool × List Nat) (u : Nat) (last : Bool) (hdict : Piece.dict ∈ F)
    (go : Goes F s₀ s) : Goes F s₀ (State.countStage s st u last) := by
  unfold State.countStage
  try dsimp only
  repeat' first
    | with_reducible assumption
    | (intro)
    | with_reducible apply Goes.bump
    | with_reducible apply Goes.ite
    | with_reducible apply Goes.foldl
    | split
    | dsimp only

theorem Goes.dropUnreachable {F : List Piece} {s₀ s : State} (n : Nat) (w : Waiting) (hdict : Piece.dict ∈ F) (hresps : Piece.resps ∈ F) (hwaiting : Piece.waiting ∈ F) (hxacts : Piece.xacts ∈ F)
    (go : Goes F s₀ s) : Goes F s₀ (State.dropUnreachable s n w) := by
  unfold State.dropUnreachable
  try dsimp only
  repeat' first
    | with_reducible assumption
    | (intro)
    | with_reducible apply Goes.bump
    | with_reducible apply Goes.losePacket
    | with_reducible apply Goes.unwait
    | dsimp only

theorem Goes.setOut {F : List Piece} {s₀ s : State} (w : Waiting) (r : Route) (hfree : Piece.free ∈ F) (hout : Piece.out ∈ F) (hresps : Piece.resps ∈ F) (hxacts : Piece.xacts ∈ F)
    (go : Goes F s₀ s) : Goes F s₀ (State.setOut s w r) := by
  unfold State.setOut
  try dsimp only
  repeat' first
    | with_reducible assumption
    | (intro)
    | with_reducible apply Goes.draw
    | with_reducible apply Goes.emit
    | with_reducible apply Goes.modResp
    | with_reducible apply Goes.ite
    | split
    | with_reducible apply Goes.xactsTo
    | dsimp only

theorem Goes.arrived {F : List Piece} {s₀ s : State} (w : Waiting) (hresps : Piece.resps ∈ F)
    (go : Goes F s₀ s) : Goes F s₀ (State.arrived s w) := by
  unfold State.arrived
  try dsimp only
  repeat' first
    | with_reducible assumption
    | (intro)
    | with_reducible apply Goes.modResp
    | with_reducible apply Goes.ite
    | split
    | dsimp only

theorem Goes.enterStage {F : List Piece} {s₀ s : State} (w : Waiting) (n ply : Nat) (seam : Bool) (rest : List (Nat × Bool × List Nat)) (hdict : Piece.dict ∈ F) (hwaiting : Piece.waiting ∈ F)
    (go : Goes F s₀ s) : Goes F s₀ (State.enterStage s w n ply seam rest) := by
  unfold State.enterStage
  try dsimp only
  repeat' first
    | with_reducible assumption
    | (intro)
    | with_reducible apply Goes.bump
    | with_reducible apply Goes.ite
    | split
    | with_reducible apply Goes.waitingTo
    | dsimp only

theorem Goes.admitTurns {F : List Piece} {s₀ s : State} (n : Nat) (row : Bool) (hdict : Piece.dict ∈ F) (hwaiting : Piece.waiting ∈ F)
    (go : Goes F s₀ s) : Goes F s₀ (State.admitTurns s n row) := by
  unfold State.admitTurns
  try dsimp only
  repeat' first
    | with_reducible assumption
    | (intro)
    | with_reducible apply Goes.bump
    | with_reducible apply Goes.ite
    | with_reducible apply Goes.foldl
    | split
    | with_reducible apply Goes.waitingTo
    | dsimp only

theorem Goes.depart {F : List Piece} {s₀ s : State} (n : Nat) (row : Bool) (ply : Nat) (w : Waiting) (hdict : Piece.dict ∈ F) (hfree : Piece.free ∈ F) (hout : Piece.out ∈ F) (hresps : Piece.resps ∈ F) (hwaiting : Piece.waiting ∈ F) (hxacts : Piece.xacts ∈ F)
    (go : Goes F s₀ s) : Goes F s₀ (State.depart s n row ply w) := by
  unfold State.depart
  try dsimp only
  repeat' first
    | with_reducible assumption
    | (intro)
    | with_reducible apply Goes.admitTurns
    | with_reducible apply Goes.arrived
    | with_reducible apply Goes.countStage
    | with_reducible apply Goes.enterStage
    | with_reducible apply Goes.setOut
    | with_reducible apply Goes.unwait
    | with_reducible apply Goes.ite
    | with_reducible apply Goes.elim
    | split
    | dsimp only

theorem Goes.departLocal {F : List Piece} {s₀ s : State} (n : Nat) (w : Waiting) (hout : Piece.out ∈ F) (hresps : Piece.resps ∈ F) (hwaiting : Piece.waiting ∈ F)
    (go : Goes F s₀ s) : Goes F s₀ (State.departLocal s n w) := by
  unfold State.departLocal
  try dsimp only
  repeat' first
    | with_reducible assumption
    | (intro)
    | with_reducible apply Goes.arrived
    | with_reducible apply Goes.emit
    | with_reducible apply Goes.unwait
    | dsimp only

theorem Goes.queueReady {F : List Piece} {s₀ s : State} (hresps : Piece.resps ∈ F) (hwaiting : Piece.waiting ∈ F)
    (go : Goes F s₀ s) : Goes F s₀ (State.queueReady s) := by
  unfold State.queueReady
  try dsimp only
  repeat' first
    | with_reducible assumption
    | (intro)
    | with_reducible apply Goes.ite
    | split
    | with_reducible apply Goes.waiting_respsTo
    | dsimp only

theorem Goes.countWaits {F : List Piece} {s₀ s : State} (hdict : Piece.dict ∈ F)
    (go : Goes F s₀ s) : Goes F s₀ (State.countWaits s) := by
  unfold State.countWaits
  try dsimp only
  repeat' first
    | with_reducible assumption
    | (intro)
    | with_reducible apply Goes.bump
    | with_reducible apply Goes.foldl
    | split
    | dsimp only

theorem Goes.bandCycle {F : List Piece} {s₀ s : State} (hclock : Piece.clock ∈ F) (hdict : Piece.dict ∈ F) (hresps : Piece.resps ∈ F) (hwaiting : Piece.waiting ∈ F)
    (go : Goes F s₀ s) : Goes F s₀ (State.bandCycle s) := by
  unfold State.bandCycle
  try dsimp only
  repeat' first
    | with_reducible assumption
    | (intro)
    | with_reducible apply Goes.countWaits
    | with_reducible apply Goes.queueReady
    | with_reducible apply Goes.tick
    | dsimp only

theorem Goes.grantSlot {F : List Piece} {s₀ s : State} (point : Point) (n : Nat) (row down : Bool) (ply : Nat) (hdict : Piece.dict ∈ F) (hfree : Piece.free ∈ F) (hout : Piece.out ∈ F) (hresps : Piece.resps ∈ F) (hsplits : Piece.splits ∈ F) (hwaiting : Piece.waiting ∈ F) (hxacts : Piece.xacts ∈ F)
    (go : Goes F s₀ s) : Goes F s₀ (State.grantSlot s point n row down ply) := by
  unfold State.grantSlot
  try dsimp only
  repeat' first
    | with_reducible assumption
    | (intro)
    | with_reducible apply Goes.arbitrate
    | with_reducible apply Goes.depart
    | with_reducible apply Goes.departLocal
    | with_reducible apply Goes.dropUnreachable
    | with_reducible apply Goes.ite
    | split
    | dsimp only

theorem execStarveRequest_goes {F : List Piece} (switch : DieN) (row : Bool) (ply : Fin 12) (down : Bool) (s : State) (hdict : Piece.dict ∈ F) (hout : Piece.out ∈ F) :
    ∃ t, execStarveRequest switch row ply down s = .next t ∧ Goes F s t := by
  have go := Goes.refl F s
  unfold execStarveRequest
  refine ⟨_, rfl, ?_⟩
  try dsimp only
  repeat' first
    | with_reducible assumption
    | (intro)
    | with_reducible apply Goes.bump
    | with_reducible apply Goes.emit
    | with_reducible apply Goes.ite
    | split
    | dsimp only

theorem Goes.channelTurn {F : List Piece} {s₀ s : State} (pt : Nat) (l : List Waiting) (hsplits : Piece.splits ∈ F)
    (go : Goes F s₀ s) : Goes F s₀ (State.channelTurn s pt l).2 := by
  unfold State.channelTurn
  dsimp only
  repeat' first
    | with_reducible assumption
    | (intro)
    | with_reducible apply Goes.setSplit
    | with_reducible apply Goes.ite
    | split

theorem execArbitrationGrant_goes {F : List Piece} (point : Point) (down : Bool) (ply : Fin 12) (ecc : List (DieN × W32)) (s : State) (hchannels : Piece.channels ∈ F) (hdict : Piece.dict ∈ F) (hfree : Piece.free ∈ F) (hhostMem : Piece.hostMem ∈ F) (hout : Piece.out ∈ F) (hresps : Piece.resps ∈ F) (hsplits : Piece.splits ∈ F) (hwaiting : Piece.waiting ∈ F) (hxacts : Piece.xacts ∈ F) :
    ∃ t, execArbitrationGrant point down ply ecc s = .next t ∧ Goes F s t := by
  have go := Goes.refl F s
  unfold execArbitrationGrant
  refine ⟨_, rfl, ?_⟩
  try dsimp only
  repeat' first
    | with_reducible assumption
    | (intro)
    | with_reducible apply Goes.arbitrate
    | with_reducible apply Goes.bump
    | with_reducible apply Goes.bumpSwitches
    | with_reducible apply Goes.channelTurn
    | with_reducible apply Goes.emit
    | with_reducible apply Goes.grantSlot
    | with_reducible apply Goes.hostWrite
    | with_reducible apply Goes.modResp
    | with_reducible apply Goes.queueReady
    | with_reducible apply Goes.setJobs
    | with_reducible apply Goes.unwait
    | with_reducible apply Goes.ite
    | split
    | dsimp only

theorem Goes.ffSettle {F : List Piece} {s₀ s : State} (p : Nat) (x : FfTrack) (hdict : Piece.dict ∈ F) (hfns : Piece.fns ∈ F) (hfree : Piece.free ∈ F) (hhostMem : Piece.hostMem ∈ F) (hout : Piece.out ∈ F) (hprun : Piece.prun ∈ F)
    (go : Goes F s₀ s) : Goes F s₀ (State.ffSettle s p x) := by
  unfold State.ffSettle
  dsimp only
  repeat' first
    | with_reducible assumption
    | (intro)
    | with_reducible apply Goes.modPr
    | with_reducible apply Goes.writeLate
    | with_reducible apply Goes.ite

theorem Goes.ffResolve {F : List Piece} {s₀ s : State} (h status issuedAt : Nat) (hdict : Piece.dict ∈ F) (hfns : Piece.fns ∈ F) (hfree : Piece.free ∈ F) (hhostMem : Piece.hostMem ∈ F) (hout : Piece.out ∈ F) (hprun : Piece.prun ∈ F)
    (go : Goes F s₀ s) : Goes F s₀ (State.ffResolve s h status issuedAt) := by
  unfold State.ffResolve
  dsimp only
  repeat' first
    | with_reducible assumption
    | (intro)
    | with_reducible apply Goes.ffSettle
    | with_reducible apply Goes.modPr
    | with_reducible apply Goes.setReg
    | with_reducible apply Goes.ite
    | split

theorem Goes.migrated {F : List Piece} {s₀ s : State} (x : Xact) (bad : List Nat) (hdict : Piece.dict ∈ F) (hprun : Piece.prun ∈ F)
    (go : Goes F s₀ s) : Goes F s₀ (State.migrated s x bad) := by
  unfold State.migrated
  try dsimp only
  repeat' first
    | with_reducible assumption
    | (intro)
    | with_reducible apply Goes.bump
    | with_reducible apply Goes.modPr
    | dsimp only

theorem Goes.deliver {F : List Piece} {s₀ s : State} (x : Xact) (data : List Byte) (bad : List Nat) (status : Nat) (hdict : Piece.dict ∈ F) (hprun : Piece.prun ∈ F)
    (go : Goes F s₀ s) : Goes F s₀ (State.deliver s x data bad status) := by
  unfold State.deliver
  dsimp only
  repeat' first
    | with_reducible assumption
    | with_reducible apply Goes.migrated
    | (intro)
    | with_reducible apply Goes.modCmd
    | with_reducible apply Goes.ite
    | split

theorem Goes.settled {F : List Piece} {s₀ s : State} (x : Xact) (status : Nat) (hprun : Piece.prun ∈ F)
    (go : Goes F s₀ s) : Goes F s₀ (State.settled s x status) := by
  unfold State.settled
  dsimp only
  repeat' first
    | with_reducible assumption
    | (intro)
    | with_reducible apply Goes.modCmd
    | with_reducible apply Goes.ite
    | split

theorem Goes.takeResp {F : List Piece} {s₀ s : State} (r : Resp) (hresps : Piece.resps ∈ F)
    (go : Goes F s₀ s) : Goes F s₀ (State.takeResp s r) := by
  unfold State.takeResp
  try dsimp only
  repeat' first
    | with_reducible assumption
    | (intro)
    | with_reducible apply Goes.respsTo
    | dsimp only

theorem Goes.pairAnswer {F : List Piece} {s₀ s : State} (x : Xact) (status : Nat) (data : List Byte) (hdict : Piece.dict ∈ F) (hlanes : Piece.lanes ∈ F) (hout : Piece.out ∈ F) (hpairTx : Piece.pairTx ∈ F) (hsec : Piece.sec ∈ F)
    (go : Goes F s₀ s) : Goes F s₀ (State.pairAnswer s x status data) := by
  unfold State.pairAnswer
  dsimp only
  repeat' first
    | with_reducible assumption
    | with_reducible apply Goes.pairSend
    | split

theorem Goes.respond {F : List Piece} {s₀ s : State} (die eng tag : Nat) (act : Xact → State → State) (hact : ∀ x0 t, Goes F s₀ t → Goes F s₀ (act x0 t)) (hdict : Piece.dict ∈ F) (hlanes : Piece.lanes ∈ F) (hout : Piece.out ∈ F) (hpairTx : Piece.pairTx ∈ F) (hprun : Piece.prun ∈ F) (hsec : Piece.sec ∈ F) (hxacts : Piece.xacts ∈ F)
    (go : Goes F s₀ s) : Goes F s₀ (State.respond s die eng tag act) := by
  unfold State.respond
  try dsimp only
  repeat' first
    | with_reducible assumption
    | (intro)
    | with_reducible apply hact
    | with_reducible apply Goes.bump
    | with_reducible apply Goes.modCmd
    | with_reducible apply Goes.pairAnswer
    | with_reducible apply Goes.ite
    | split
    | with_reducible apply Goes.xactsTo
    | dsimp only

theorem execReadData_goes {F : List Piece} (die : DieN) (eng : Fin 16) (tag : BitVec 16) (lost : List (Fin 32)) (s : State) (hdict : Piece.dict ∈ F) (hlanes : Piece.lanes ∈ F) (hout : Piece.out ∈ F) (hpairTx : Piece.pairTx ∈ F) (hprun : Piece.prun ∈ F) (hresps : Piece.resps ∈ F) (hsec : Piece.sec ∈ F) (hxacts : Piece.xacts ∈ F) :
    ∃ t, execReadData die eng tag lost s = .next t ∧ Goes F s t := by
  have go := Goes.refl F s
  unfold execReadData
  refine ⟨_, rfl, ?_⟩
  try dsimp only
  repeat' first
    | with_reducible assumption
    | (intro)
    | with_reducible apply Goes.bump
    | with_reducible apply Goes.deliver
    | with_reducible apply Goes.pairAnswer
    | with_reducible apply Goes.respond
    | with_reducible apply Goes.takeResp
    | with_reducible apply Goes.ite
    | split
    | dsimp only

theorem execSettle_goes {F : List Piece} (die : DieN) (eng : Fin 16) (tag : BitVec 16) (s : State) (hdict : Piece.dict ∈ F) (hlanes : Piece.lanes ∈ F) (hout : Piece.out ∈ F) (hpairTx : Piece.pairTx ∈ F) (hprun : Piece.prun ∈ F) (hresps : Piece.resps ∈ F) (hsec : Piece.sec ∈ F) (hxacts : Piece.xacts ∈ F) :
    ∃ t, execSettle die eng tag s = .next t ∧ Goes F s t := by
  have go := Goes.refl F s
  unfold execSettle
  refine ⟨_, rfl, ?_⟩
  repeat' first
    | with_reducible assumption
    | with_reducible apply Goes.takeResp
    | (intro)
    | with_reducible apply Goes.pairAnswer
    | with_reducible apply Goes.respond
    | with_reducible apply Goes.sendResp
    | with_reducible apply Goes.settled
    | split

theorem execXactTimeout_goes {F : List Piece} (die : DieN) (eng : Fin 16) (tag : BitVec 16) (s : State) (hclock : Piece.clock ∈ F) (hdict : Piece.dict ∈ F) (hfns : Piece.fns ∈ F) (hfree : Piece.free ∈ F) (hhostMem : Piece.hostMem ∈ F) (hlanes : Piece.lanes ∈ F) (hout : Piece.out ∈ F) (hpairTx : Piece.pairTx ∈ F) (hprun : Piece.prun ∈ F) (hretired : Piece.retired ∈ F) (hsec : Piece.sec ∈ F) (hwaiting : Piece.waiting ∈ F) (hxacts : Piece.xacts ∈ F) :
    ∃ t, execXactTimeout die eng tag s = .next t ∧ Goes F s t := by
  have go := Goes.refl F s
  unfold execXactTimeout
  refine ⟨_, rfl, ?_⟩
  try dsimp only
  repeat' first
    | with_reducible assumption
    | (intro)
    | with_reducible apply Goes.bump
    | with_reducible apply Goes.deliver
    | with_reducible apply Goes.ffResolve
    | with_reducible apply Goes.pairAnswer
    | with_reducible apply Goes.reach
    | with_reducible apply Goes.settled
    | with_reducible apply Goes.ite
    | split
    | with_reducible apply Goes.waiting_xacts_retiredTo
    | dsimp only

theorem execRateWindow_goes {F : List Piece} (c : CmdRef) (fin : Fin 256) (die : DieC) (popped back : W32) (late : List (Fin 10 × W32)) (s : State) (hdict : Piece.dict ∈ F) (hprun : Piece.prun ∈ F) :
    ∃ t, execRateWindow c fin die popped back late s = .next t ∧ Goes F s t := by
  have go := Goes.refl F s
  unfold execRateWindow
  refine ⟨_, rfl, ?_⟩
  try dsimp only
  repeat' first
    | with_reducible assumption
    | (intro)
    | with_reducible apply Goes.modRef
    | with_reducible apply Goes.monitor
    | with_reducible apply Goes.onStream
    | with_reducible apply Goes.popStream
    | with_reducible apply Goes.foldl
    | dsimp only

theorem Goes.spoilRates {F : List Piece} {s₀ s : State} (p : Nat) (hprun : Piece.prun ∈ F)
    (go : Goes F s₀ s) : Goes F s₀ (State.spoilRates s p) := by
  unfold State.spoilRates
  repeat' first
    | with_reducible assumption
    | (intro)
    | with_reducible apply Goes.modPr

theorem execHostReadCompletion_goes {F : List Piece} (f : Fn) (tag : BitVec 16) (c : Cpl) (data : List Byte) (s : State) (hresps : Piece.resps ∈ F) :
    ∃ t, execHostReadCompletion f tag c data s = .next t ∧ Goes F s t := by
  have go := Goes.refl F s
  unfold execHostReadCompletion
  refine ⟨_, rfl, ?_⟩
  repeat' first
    | with_reducible assumption
    | (intro)
    | with_reducible apply Goes.modResp
    | with_reducible apply Goes.ite
    | split

end Sys2Proof.Machine
end

