-- ==== Sys2Proof/Laws/Tiles.lean ====
section
/-! SUPPORT. What the operations of Machine/Tiles.lean may change, and that each keeps what the model keeps throughout. -/

namespace Sys2Proof.Machine

theorem Goes.stall {F : List Piece} {s₀ s : State} (p run cmd c t cause n : Nat) (hdict : Piece.dict ∈ F) (hprun : Piece.prun ∈ F)
    (go : Goes F s₀ s) : Goes F s₀ (State.stall s p run cmd c t cause n) := by
  unfold State.stall
  repeat' first
    | with_reducible assumption
    | (intro)
    | with_reducible apply Goes.bump
    | with_reducible apply Goes.modCmd

theorem Goes.engineTakes {F : List Piece} {s₀ s : State} (p : Nat) (dies : List Nat) (hengines : Piece.engines ∈ F)
    (go : Goes F s₀ s) : Goes F s₀ (State.engineTakes s p dies) := by
  unfold State.engineTakes
  try dsimp only
  repeat' first
    | with_reducible assumption
    | (intro)
    | with_reducible apply Goes.ite
    | with_reducible apply Goes.foldl
    | split
    | with_reducible apply Goes.enginesTo
    | dsimp only

theorem Goes.engineBusy {F : List Piece} {s₀ s : State} (c : Nat) (hdict : Piece.dict ∈ F) (hengines : Piece.engines ∈ F)
    (go : Goes F s₀ s) : Goes F s₀ (State.engineBusy s c) := by
  unfold State.engineBusy
  try dsimp only
  repeat' first
    | with_reducible assumption
    | (intro)
    | with_reducible apply Goes.bump
    | with_reducible apply Goes.enginesTo
    | dsimp only

theorem Goes.engineStalls {F : List Piece} {s₀ s : State} (f : Found) (l : List (DieC × Fin 9 × W32)) (hdict : Piece.dict ∈ F) (hprun : Piece.prun ∈ F)
    (go : Goes F s₀ s) : Goes F s₀ (State.engineStalls s f l) := by
  unfold State.engineStalls
  repeat' first
    | with_reducible assumption
    | (intro)
    | with_reducible apply Goes.bump
    | with_reducible apply Goes.stall
    | with_reducible apply Goes.foldl

theorem Goes.modArray {F : List Piece} {s₀ s : State} (c t : Nat) (g : TileArray → TileArray) (harrays : Piece.arrays ∈ F)
    (go : Goes F s₀ s) : Goes F s₀ (State.modArray s c t g) := by
  unfold State.modArray
  try dsimp only
  repeat' first
    | with_reducible assumption
    | (intro)
    | with_reducible apply Goes.arraysTo
    | dsimp only

end Sys2Proof.Machine
end

