-- ==== Sys2Proof/Laws/Blocker.lean ====
section
/-! SUPPORT. What the operations of Machine/Blocker.lean may change, and that each keeps what the model keeps throughout. -/

namespace Sys2Proof.Machine

theorem Goes.countCopies {F : List Piece} {s₀ s : State} (p : Nat) (hdict : Piece.dict ∈ F)
    (go : Goes F s₀ s) : Goes F s₀ (State.countCopies s p) := by
  unfold State.countCopies
  dsimp only
  repeat' first
    | with_reducible assumption
    | (intro)
    | with_reducible apply Goes.setReg
    | with_reducible apply Goes.foldl

theorem Goes.freeCopies {F : List Piece} {s₀ s : State} (p : Nat) (q : Copy → Bool) (hdict : Piece.dict ∈ F) (hprun : Piece.prun ∈ F)
    (go : Goes F s₀ s) : Goes F s₀ (State.freeCopies s p q) := by
  unfold State.freeCopies
  dsimp only
  repeat' first
    | with_reducible assumption
    | (intro)
    | with_reducible apply Goes.bump
    | with_reducible apply Goes.countCopies
    | with_reducible apply Goes.modPr

theorem Goes.sweepCopies {F : List Piece} {s₀ s : State} (p : Nat) (hdict : Piece.dict ∈ F) (hprun : Piece.prun ∈ F)
    (go : Goes F s₀ s) : Goes F s₀ (State.sweepCopies s p) := by
  unfold State.sweepCopies
  repeat' first
    | with_reducible assumption
    | (intro)
    | with_reducible apply Goes.freeCopies

theorem Goes.makeRoom {F : List Piece} {s₀ s : State} (p die size : Nat) (n : Nat) (hdict : Piece.dict ∈ F) (hprun : Piece.prun ∈ F)
    (go : Goes F s₀ s) : Goes F s₀ (State.makeRoom p die size n s) := by
  induction n generalizing s with
  | zero => exact go
  | succ n ih =>
    unfold State.makeRoom
    try dsimp only
    repeat' first
      | with_reducible assumption
      | with_reducible apply ih
      | (intro)
      | with_reducible apply Goes.freeCopies
      | with_reducible apply Goes.ite
      | split
      | dsimp only

theorem Goes.trimCopies {F : List Piece} {s₀ s : State} (p : Nat) (hdict : Piece.dict ∈ F) (hprun : Piece.prun ∈ F)
    (go : Goes F s₀ s) : Goes F s₀ (State.trimCopies s p) := by
  unfold State.trimCopies
  try dsimp only
  repeat' first
    | with_reducible assumption
    | (intro)
    | with_reducible apply Goes.makeRoom
    | with_reducible apply Goes.foldl
    | dsimp only

theorem Goes.keepCopy {F : List Piece} {s₀ s : State} (p handle b die : Nat) (moves : List (Nat × Nat × Nat)) (data : List Byte) (hdict : Piece.dict ∈ F) (hprun : Piece.prun ∈ F)
    (go : Goes F s₀ s) : Goes F s₀ (State.keepCopy s p handle b die moves data) := by
  unfold State.keepCopy
  dsimp only
  repeat' first
    | with_reducible assumption
    | (intro)
    | with_reducible apply Goes.bump
    | with_reducible apply Goes.countCopies
    | with_reducible apply Goes.makeRoom
    | with_reducible apply Goes.modPr
    | with_reducible apply Goes.ite

theorem Goes.addStream {F : List Piece} {s₀ s : State} (x : Placing) (e : Nat × Nat × Nat) (hdict : Piece.dict ∈ F) (hprun : Piece.prun ∈ F)
    (go : Goes F s₀ s) : Goes F s₀ (State.addStream s x e) := by
  unfold State.addStream
  dsimp only
  repeat' first
    | with_reducible assumption
    | (intro)
    | with_reducible apply Goes.bump
    | with_reducible apply Goes.modCmd
    | with_reducible apply Goes.modPr
    | with_reducible apply Goes.ite
    | with_reducible apply Goes.foldl
    | split

theorem Goes.placeUnit {F : List Piece} {s₀ s : State} (p : Nat) (r : Run) (descs : List Nat) (i : Nat) (part : Part) (tiles : List Nat) (j : Nat) (hdict : Piece.dict ∈ F) (hfree : Piece.free ∈ F) (hprun : Piece.prun ∈ F) (hworks : Piece.works ∈ F)
    (go : Goes F s₀ s) : Goes F s₀ (State.placeUnit s p r descs i part tiles j) := by
  unfold State.placeUnit
  dsimp only
  repeat' first
    | with_reducible assumption
    | (intro)
    | with_reducible apply Goes.bump
    | with_reducible apply Goes.draw
    | with_reducible apply Goes.modCmd
    | with_reducible apply Goes.ite
    | split
    | with_reducible apply Goes.worksTo

theorem Goes.placeReplay {F : List Piece} {s₀ s : State} (p : Nat) (r : Run) (descs : List Nat) (i : Nat) (orig x : Part) (hworks : Piece.works ∈ F)
    (go : Goes F s₀ s) : Goes F s₀ (State.placeReplay s p r descs i orig x) := by
  unfold State.placeReplay
  dsimp only
  repeat' first
    | with_reducible assumption
    | (intro)
    | with_reducible apply Goes.ite
    | with_reducible apply Goes.foldl
    | split
    | with_reducible apply Goes.worksTo

theorem Goes.heavyNotice {F : List Piece} {s₀ s : State} (p run cmd : Nat) (hdict : Piece.dict ∈ F) (hout : Piece.out ∈ F) (hpower : Piece.power ∈ F) (hprun : Piece.prun ∈ F)
    (go : Goes F s₀ s) : Goes F s₀ (State.heavyNotice s p run cmd) := by
  unfold State.heavyNotice
  dsimp only
  repeat' first
    | with_reducible assumption
    | (intro)
    | with_reducible apply Goes.avsFrom
    | with_reducible apply Goes.bump
    | with_reducible apply Goes.modCmd
    | with_reducible apply Goes.modPp

theorem Goes.moveUnits {F : List Piece} {s₀ s : State} (p : Nat) (x : Copy) (dst : Nat) (m : Nat × Nat × Nat) (hwaiting : Piece.waiting ∈ F) (hxacts : Piece.xacts ∈ F)
    (go : Goes F s₀ s) : Goes F s₀ (State.moveUnits s p x dst m) := by
  unfold State.moveUnits
  try dsimp only
  repeat' first
    | with_reducible assumption
    | (intro)
    | with_reducible apply Goes.waiting_xactsTo
    | dsimp only

theorem Goes.migrate {F : List Piece} {s₀ s : State} (p : Nat) (x : Copy) (dst : Nat) (move : Bool) (hdict : Piece.dict ∈ F) (hprun : Piece.prun ∈ F) (hwaiting : Piece.waiting ∈ F) (hxacts : Piece.xacts ∈ F)
    (go : Goes F s₀ s) : Goes F s₀ (State.migrate s p x dst move) := by
  unfold State.migrate
  dsimp only
  repeat' first
    | with_reducible assumption
    | with_reducible apply Goes.foldl
    | with_reducible apply Goes.moveUnits
    | (intro)
    | with_reducible apply Goes.makeRoom
    | with_reducible apply Goes.modPr
    | with_reducible apply Goes.ite

theorem Goes.residency {F : List Piece} {s₀ s : State} (p : Nat) (x : Copy) (hdict : Piece.dict ∈ F) (hprun : Piece.prun ∈ F) (hwaiting : Piece.waiting ∈ F) (hxacts : Piece.xacts ∈ F)
    (go : Goes F s₀ s) : Goes F s₀ (State.residency s p x) := by
  unfold State.residency
  dsimp only
  repeat' first
    | with_reducible assumption
    | (intro)
    | with_reducible apply Goes.migrate
    | with_reducible apply Goes.ite
    | with_reducible apply Goes.foldl
    | split

theorem execResidencyPeriod_goes {F : List Piece} (p : PartN) (s : State) (hdict : Piece.dict ∈ F) (hprun : Piece.prun ∈ F) (hwaiting : Piece.waiting ∈ F) (hxacts : Piece.xacts ∈ F) :
    ∃ t, execResidencyPeriod p s = .next t ∧ Goes F s t := by
  have go := Goes.refl F s
  unfold execResidencyPeriod
  try dsimp only
  repeat' first
    | refine ⟨_, rfl, ?_⟩
    | with_reducible assumption
    | with_reducible apply Goes.trimCopies
    | (intro)
    | with_reducible apply Goes.freeCopies
    | with_reducible apply Goes.modPr
    | with_reducible apply Goes.residency
    | with_reducible apply Goes.foldl

theorem Goes.cancelMig {F : List Piece} {s₀ s : State} (p : Nat) (g : Migration) (hdict : Piece.dict ∈ F) (hprun : Piece.prun ∈ F)
    (go : Goes F s₀ s) : Goes F s₀ (State.cancelMig s p g) := by
  unfold State.cancelMig
  repeat' first
    | with_reducible assumption
    | (intro)
    | with_reducible apply Goes.bump
    | with_reducible apply Goes.modPr

theorem Goes.commitCopy {F : List Piece} {s₀ s : State} (p : Nat) (g : Migration) (x : Copy) (hdict : Piece.dict ∈ F) (hprun : Piece.prun ∈ F)
    (go : Goes F s₀ s) : Goes F s₀ (State.commitCopy s p g x) := by
  unfold State.commitCopy
  try dsimp only
  repeat' first
    | with_reducible assumption
    | (intro)
    | with_reducible apply Goes.bump
    | with_reducible apply Goes.countCopies
    | with_reducible apply Goes.modPr
    | with_reducible apply Goes.sweepCopies
    | dsimp only

theorem execMigrationReadbackDone_goes {F : List Piece} (p : PartN) (poisoned differ : Bool) (s : State) (hdict : Piece.dict ∈ F) (hprun : Piece.prun ∈ F) :
    ∃ t, execMigrationReadbackDone p poisoned differ s = .next t ∧ Goes F s t := by
  have go := Goes.refl F s
  unfold execMigrationReadbackDone
  try dsimp only
  repeat' first
    | refine ⟨_, rfl, ?_⟩
    | with_reducible assumption
    | with_reducible apply Goes.commitCopy
    | (intro)
    | with_reducible apply Goes.bump
    | with_reducible apply Goes.cancelMig
    | with_reducible apply Goes.countCopies
    | with_reducible apply Goes.modPr
    | with_reducible apply Goes.ite
    | split

theorem Goes.moveBuffer {F : List Piece} {s₀ s : State} (p : Nat) (b : HbmBuf) (late cons : Nat) (lateOn : Nat → Nat) (hdict : Piece.dict ∈ F) (hprun : Piece.prun ∈ F)
    (go : Goes F s₀ s) : Goes F s₀ (State.moveBuffer s p b late cons lateOn) := by
  unfold State.moveBuffer
  try dsimp only
  repeat' first
    | with_reducible assumption
    | (intro)
    | with_reducible apply Goes.bump
    | with_reducible apply Goes.modCmd
    | with_reducible apply Goes.modPr
    | with_reducible apply Goes.ite
    | split
    | dsimp only

theorem Goes.levelWeights {F : List Piece} {s₀ s : State} (p : Nat) (hdict : Piece.dict ∈ F)
    (go : Goes F s₀ s) : Goes F s₀ (State.levelWeights s p) := by
  unfold State.levelWeights
  try dsimp only
  repeat' first
    | with_reducible assumption
    | (intro)
    | with_reducible apply Goes.setReg
    | with_reducible apply Goes.foldl
    | dsimp only

theorem Goes.weigh {F : List Piece} {s₀ s : State} (p : Nat) (med : Nat × Nat) (c n d : Nat) (hdict : Piece.dict ∈ F)
    (go : Goes F s₀ s) : Goes F s₀ (State.weigh s p med c n d) := by
  unfold State.weigh
  try dsimp only
  repeat' first
    | with_reducible assumption
    | (intro)
    | with_reducible apply Goes.bump
    | with_reducible apply Goes.setReg
    | with_reducible apply Goes.ite
    | split
    | dsimp only

theorem execRebalancePeriod_goes {F : List Piece} (p : PartN) (heavy : List (DieC × W64 × W64)) (memory : List (Nat × Fin 1024 × W64 × W64)) (s : State) (hdict : Piece.dict ∈ F) (hprun : Piece.prun ∈ F) :
    ∃ t, execRebalancePeriod p heavy memory s = .next t ∧ Goes F s t := by
  have go := Goes.refl F s
  unfold execRebalancePeriod
  try dsimp only
  repeat' first
    | refine ⟨_, rfl, ?_⟩
    | with_reducible assumption
    | with_reducible apply Goes.levelWeights
    | with_reducible apply Goes.weigh
    | (intro)
    | with_reducible apply Goes.bump
    | with_reducible apply Goes.moveBuffer
    | with_reducible apply Goes.setReg
    | with_reducible apply Goes.ite
    | with_reducible apply Goes.foldl
    | split

end Sys2Proof.Machine
end

