-- ==== Sys2Proof/Laws/Blocks.lean ====
section
/-! SUPPORT. What the operations of Machine/Blocks.lean may change, and that each keeps what the model keeps throughout. -/

namespace Sys2Proof.Machine

theorem Goes.blockDone {F : List Piece} {s₀ s : State} (w : Work) (b : Block) (harrays : Piece.arrays ∈ F) (hdict : Piece.dict ∈ F)
    (go : Goes F s₀ s) : Goes F s₀ (State.blockDone s w b) := by
  unfold State.blockDone
  try dsimp only
  repeat' first
    | with_reducible assumption
    | (intro)
    | with_reducible apply Goes.bump
    | with_reducible apply Goes.modArray
    | with_reducible apply Goes.ite
    | split
    | dsimp only

theorem Goes.idleTile {F : List Piece} {s₀ s : State} (c t : Nat) (harrays : Piece.arrays ∈ F)
    (go : Goes F s₀ s) : Goes F s₀ (State.idleTile s c t) := by
  unfold State.idleTile
  try dsimp only
  repeat' first
    | with_reducible assumption
    | (intro)
    | with_reducible apply Goes.modArray
    | with_reducible apply Goes.ite
    | split
    | dsimp only

theorem Goes.takeWork {F : List Piece} {s₀ s : State} (w : Work) (harrays : Piece.arrays ∈ F) (hworks : Piece.works ∈ F)
    (go : Goes F s₀ s) : Goes F s₀ (State.takeWork s w) := by
  unfold State.takeWork
  try dsimp only
  repeat' first
    | with_reducible assumption
    | (intro)
    | with_reducible apply Goes.idleTile
    | with_reducible apply Goes.modArray
    | with_reducible apply Goes.worksTo
    | dsimp only

theorem Goes.endWork {F : List Piece} {s₀ s : State} (w : Work) (harrays : Piece.arrays ∈ F) (hdict : Piece.dict ∈ F) (hworks : Piece.works ∈ F)
    (go : Goes F s₀ s) : Goes F s₀ (State.endWork s w) := by
  unfold State.endWork
  try dsimp only
  repeat' first
    | with_reducible assumption
    | (intro)
    | with_reducible apply Goes.blockDone
    | with_reducible apply Goes.takeWork
    | split
    | dsimp only

theorem Goes.endActive {F : List Piece} {s₀ s : State} (c t : Nat) (harrays : Piece.arrays ∈ F) (hdict : Piece.dict ∈ F) (hworks : Piece.works ∈ F)
    (go : Goes F s₀ s) : Goes F s₀ (State.endActive s c t) := by
  unfold State.endActive
  try dsimp only
  repeat' first
    | with_reducible assumption
    | (intro)
    | with_reducible apply Goes.blockDone
    | with_reducible apply Goes.ite
    | split
    | with_reducible apply Goes.worksTo
    | dsimp only

theorem Goes.blockCounts {F : List Piece} {s₀ s : State} (c t : Nat) (b : Block) (ends : Bool) (hdict : Piece.dict ∈ F)
    (go : Goes F s₀ s) : Goes F s₀ (State.blockCounts s c t b ends) := by
  unfold State.blockCounts
  try dsimp only
  repeat' first
    | with_reducible assumption
    | (intro)
    | with_reducible apply Goes.bump
    | with_reducible apply Goes.ite
    | split
    | dsimp only

theorem Goes.blockWaits {F : List Piece} {s₀ s : State} (w : Work) (exposed load held starved cause : Nat) (hdict : Piece.dict ∈ F) (hprun : Piece.prun ∈ F)
    (go : Goes F s₀ s) : Goes F s₀ (State.blockWaits s w exposed load held starved cause) := by
  unfold State.blockWaits
  try dsimp only
  repeat' first
    | with_reducible assumption
    | (intro)
    | with_reducible apply Goes.bump
    | with_reducible apply Goes.stall
    | dsimp only

theorem Goes.switchBlock {F : List Piece} {s₀ s : State} (w : Work) (b : Block) (feed : List (List Nat)) (clock : Nat) (harrays : Piece.arrays ∈ F) (hworks : Piece.works ∈ F)
    (go : Goes F s₀ s) : Goes F s₀ (State.switchBlock s w b feed clock) := by
  unfold State.switchBlock
  try dsimp only
  repeat' first
    | with_reducible assumption
    | (intro)
    | with_reducible apply Goes.modArray
    | with_reducible apply Goes.ite
    | split
    | with_reducible apply Goes.worksTo
    | dsimp only

theorem execBlockStart_goes {F : List Piece} (die : DieC) (tile : TileN) (late held : W32) (starved : List (Fin 128 × W32)) (s : State) (harrays : Piece.arrays ∈ F) (hdict : Piece.dict ∈ F) (hprun : Piece.prun ∈ F) (hworks : Piece.works ∈ F) :
    ∃ t, execBlockStart die tile late held starved s = .next t ∧ Goes F s t := by
  have go := Goes.refl F s
  unfold execBlockStart
  refine ⟨_, rfl, ?_⟩
  try dsimp only
  repeat' first
    | with_reducible assumption
    | (intro)
    | with_reducible apply Goes.blockCounts
    | with_reducible apply Goes.blockWaits
    | with_reducible apply Goes.endActive
    | with_reducible apply Goes.modArray
    | with_reducible apply Goes.switchBlock
    | with_reducible apply Goes.ite
    | split
    | dsimp only

theorem execHalfRelease_goes {F : List Piece} (die : DieC) (tile : TileN) (s : State) (harrays : Piece.arrays ∈ F) (hdict : Piece.dict ∈ F) (hworks : Piece.works ∈ F) :
    ∃ t, execHalfRelease die tile s = .next t ∧ Goes F s t := by
  have go := Goes.refl F s
  unfold execHalfRelease
  refine ⟨_, rfl, ?_⟩
  try dsimp only
  repeat' first
    | with_reducible assumption
    | (intro)
    | with_reducible apply Goes.endActive
    | with_reducible apply Goes.modArray
    | with_reducible apply Goes.ite
    | split
    | dsimp only

end Sys2Proof.Machine
end

