-- ==== Sys2Proof/Laws/Engines.lean ====
section
/-! SUPPORT. What the operations of Machine/Engines.lean may change, and that each keeps what the model keeps throughout. -/

namespace Sys2Proof.Machine

theorem Goes.pushQueue {F : List Piece} {s₀ s : State} (p run : Nat) (descs : List Nat) (q : Nat) (v : QState) (hprun : Piece.prun ∈ F)
    (go : Goes F s₀ s) : Goes F s₀ (State.pushQueue s p run descs q v) := by
  unfold State.pushQueue
  repeat' first
    | with_reducible assumption
    | (intro)
    | with_reducible apply Goes.modRun

theorem Goes.dropWork {F : List Piece} {s₀ s : State} (p run i : Nat) (harrays : Piece.arrays ∈ F) (hdict : Piece.dict ∈ F) (hprun : Piece.prun ∈ F) (hworks : Piece.works ∈ F)
    (go : Goes F s₀ s) : Goes F s₀ (State.dropWork s p run i) := by
  unfold State.dropWork
  dsimp only
  repeat' first
    | with_reducible assumption
    | with_reducible apply Goes.foldl
    | with_reducible apply Goes.takeWork
    | (intro)
    | with_reducible apply Goes.modCmd
    | with_reducible apply Goes.modPr
    | with_reducible apply Goes.sweepCopies
    | with_reducible apply Goes.worksTo

theorem Goes.endNotice {F : List Piece} {s₀ s : State} (p run i : Nat) (hout : Piece.out ∈ F) (hpower : Piece.power ∈ F)
    (go : Goes F s₀ s) : Goes F s₀ (State.endNotice s p run i) := by
  unfold State.endNotice
  repeat' first
    | with_reducible assumption
    | (intro)
    | with_reducible apply Goes.avsFrom
    | with_reducible apply Goes.modPp

theorem Goes.endEngines {F : List Piece} {s₀ s : State} (f : Found) (hdict : Piece.dict ∈ F) (hengines : Piece.engines ∈ F)
    (go : Goes F s₀ s) : Goes F s₀ (State.endEngines s f) := by
  unfold State.endEngines
  try dsimp only
  repeat' first
    | with_reducible assumption
    | (intro)
    | with_reducible apply Goes.engineBusy
    | with_reducible apply Goes.ite
    | with_reducible apply Goes.foldl
    | split
    | dsimp only

theorem Goes.skipCmd {F : List Piece} {s₀ s : State} (f : Found) (harrays : Piece.arrays ∈ F) (hdict : Piece.dict ∈ F) (hengines : Piece.engines ∈ F) (hout : Piece.out ∈ F) (hpower : Piece.power ∈ F) (hprun : Piece.prun ∈ F) (hworks : Piece.works ∈ F)
    (go : Goes F s₀ s) : Goes F s₀ (State.skipCmd s f) := by
  unfold State.skipCmd
  dsimp only
  repeat' first
    | with_reducible assumption
    | with_reducible apply Goes.endEngines
    | with_reducible apply Goes.monitor
    | (intro)
    | with_reducible apply Goes.dropWork
    | with_reducible apply Goes.endNotice
    | with_reducible apply Goes.modCmd
    | with_reducible apply Goes.pushQueue
    | with_reducible apply Goes.ite
    | with_reducible apply Goes.foldl

theorem execSkipMarkerPop_goes {F : List Piece} (c : CmdRef) (s : State) (harrays : Piece.arrays ∈ F) (hdict : Piece.dict ∈ F) (hengines : Piece.engines ∈ F) (hout : Piece.out ∈ F) (hpower : Piece.power ∈ F) (hprun : Piece.prun ∈ F) (hworks : Piece.works ∈ F) :
    ∃ t, execSkipMarkerPop c s = .next t ∧ Goes F s t := by
  have go := Goes.refl F s
  unfold execSkipMarkerPop
  refine ⟨_, rfl, ?_⟩
  repeat' first
    | with_reducible assumption
    | (intro)
    | with_reducible apply Goes.monitor
    | with_reducible apply Goes.skipCmd
    | with_reducible apply Goes.ite
    | with_reducible apply Goes.foldl
    | split

theorem Goes.refuseIssue {F : List Piece} {s₀ s : State} (c : CmdRef) (f : Found) (hprun : Piece.prun ∈ F) (hrefusals : Piece.refusals ∈ F)
    (go : Goes F s₀ s) : Goes F s₀ (State.refuseIssue s c f) := by
  unfold State.refuseIssue
  dsimp only
  repeat' first
    | with_reducible assumption
    | (intro)
    | with_reducible apply Goes.modCmd
    | with_reducible apply Goes.refusalsTo

theorem Goes.placePart {F : List Piece} {s₀ s : State} (f : Found) (logs : List (Fin 128 × Fin 17)) (tiles : Nat) (twin : Bool) (x : Part) (hdict : Piece.dict ∈ F) (hprun : Piece.prun ∈ F)
    (go : Goes F s₀ s) : Goes F s₀ (State.placePart s f logs tiles twin x) := by
  unfold State.placePart
  try dsimp only
  repeat' first
    | with_reducible assumption
    | (intro)
    | with_reducible apply Goes.addStream
    | with_reducible apply Goes.ite
    | with_reducible apply Goes.foldl
    | split
    | dsimp only

theorem Goes.placeQueues {F : List Piece} {s₀ s : State} (c : CmdRef) (hdict : Piece.dict ∈ F) (hprun : Piece.prun ∈ F)
    (go : Goes F s₀ s) : Goes F s₀ (State.placeQueues s c) := by
  unfold State.placeQueues
  try dsimp only
  repeat' first
    | with_reducible assumption
    | (intro)
    | with_reducible apply Goes.modPr
    | with_reducible apply Goes.monitorSet
    | with_reducible apply Goes.ite
    | with_reducible apply Goes.foldl
    | split
    | dsimp only

theorem Goes.placeTwins {F : List Piece} {s₀ s : State} (c : CmdRef) (logs : List (Fin 128 × Fin 17)) (hdict : Piece.dict ∈ F) (hprun : Piece.prun ∈ F)
    (go : Goes F s₀ s) : Goes F s₀ (State.placeTwins s c logs) := by
  unfold State.placeTwins
  try dsimp only
  repeat' first
    | with_reducible assumption
    | (intro)
    | with_reducible apply Goes.placePart
    | with_reducible apply Goes.foldl
    | split
    | dsimp only

theorem Goes.issueCounts {F : List Piece} {s₀ s : State} (f : Found) (parts : List Part) (hdict : Piece.dict ∈ F)
    (go : Goes F s₀ s) : Goes F s₀ (State.issueCounts s f parts) := by
  unfold State.issueCounts
  dsimp only
  repeat' first
    | with_reducible assumption
    | (intro)
    | with_reducible apply Goes.bump
    | with_reducible apply Goes.ite
    | with_reducible apply Goes.foldl

theorem Goes.issueCmd {F : List Piece} {s₀ s : State} (c : CmdRef) (f : Found) (logs : List (Fin 128 × Fin 17)) (hdict : Piece.dict ∈ F) (hengines : Piece.engines ∈ F) (hfree : Piece.free ∈ F) (hout : Piece.out ∈ F) (hpower : Piece.power ∈ F) (hprun : Piece.prun ∈ F) (hrefusals : Piece.refusals ∈ F) (hworks : Piece.works ∈ F)
    (go : Goes F s₀ s) : Goes F s₀ (State.issueCmd s c f logs) := by
  unfold State.issueCmd
  try dsimp only
  repeat' first
    | with_reducible assumption
    | (intro)
    | with_reducible apply Goes.bump
    | with_reducible apply Goes.emit
    | with_reducible apply Goes.engineTakes
    | with_reducible apply Goes.heavyNotice
    | with_reducible apply Goes.issueCounts
    | with_reducible apply Goes.modCmd
    | with_reducible apply Goes.modPr
    | with_reducible apply Goes.modRun
    | with_reducible apply Goes.placePart
    | with_reducible apply Goes.placeQueues
    | with_reducible apply Goes.placeReplay
    | with_reducible apply Goes.placeTwins
    | with_reducible apply Goes.placeUnit
    | with_reducible apply Goes.refuseIssue
    | with_reducible apply Goes.ite
    | with_reducible apply Goes.foldl
    | split
    | dsimp only

theorem execCommandIssue_goes {F : List Piece} (c : CmdRef) (logs : List (Fin 128 × Fin 17)) (s : State) (harrays : Piece.arrays ∈ F) (hdict : Piece.dict ∈ F) (hengines : Piece.engines ∈ F) (hfree : Piece.free ∈ F) (hout : Piece.out ∈ F) (hpower : Piece.power ∈ F) (hprun : Piece.prun ∈ F) (hrefusals : Piece.refusals ∈ F) (hworks : Piece.works ∈ F) :
    ∃ t, execCommandIssue c logs s = .next t ∧ Goes F s t := by
  have go := Goes.refl F s
  unfold execCommandIssue
  refine ⟨_, rfl, ?_⟩
  try dsimp only
  repeat' first
    | with_reducible assumption
    | (intro)
    | with_reducible apply Goes.issueCmd
    | with_reducible apply Goes.skipCmd
    | with_reducible apply Goes.ite
    | split
    | dsimp only

theorem execHeavyNotice_goes {F : List Piece} (c : CmdRef) (s : State) (hdict : Piece.dict ∈ F) (hout : Piece.out ∈ F) (hpower : Piece.power ∈ F) (hprun : Piece.prun ∈ F) :
    ∃ t, execHeavyNotice c s = .next t ∧ Goes F s t := by
  have go := Goes.refl F s
  unfold execHeavyNotice
  refine ⟨_, rfl, ?_⟩
  try dsimp only
  repeat' first
    | with_reducible assumption
    | (intro)
    | with_reducible apply Goes.heavyNotice
    | with_reducible apply Goes.ite
    | split
    | dsimp only

theorem Goes.closeOutputs {F : List Piece} {s₀ s : State} (f : Found) (hfree : Piece.free ∈ F) (hprun : Piece.prun ∈ F)
    (go : Goes F s₀ s) : Goes F s₀ (State.closeOutputs s f) := by
  unfold State.closeOutputs
  try dsimp only
  repeat' first
    | with_reducible assumption
    | (intro)
    | with_reducible apply Goes.draw
    | with_reducible apply Goes.modRun
    | with_reducible apply Goes.foldl
    | with_reducible apply Goes.elim
    | split
    | dsimp only

theorem Goes.issueWrite {F : List Piece} {s₀ s : State} (f : Found) (c : CmdRef) (st : Stream) (hdict : Piece.dict ∈ F) (hprun : Piece.prun ∈ F) (hwaiting : Piece.waiting ∈ F) (hxacts : Piece.xacts ∈ F)
    (go : Goes F s₀ s) : Goes F s₀ (State.issueWrite s f c st) := by
  unfold State.issueWrite
  try dsimp only
  repeat' first
    | with_reducible assumption
    | (intro)
    | with_reducible apply Goes.issueMove
    | with_reducible apply Goes.modRef
    | with_reducible apply Goes.ite
    | with_reducible apply Goes.elim
    | split
    | dsimp only

theorem execOutputWriteIssue_goes {F : List Piece} (c : CmdRef) (fin : Fin 128) (die : DieC) (s : State) (hdict : Piece.dict ∈ F) (hprun : Piece.prun ∈ F) (hwaiting : Piece.waiting ∈ F) (hxacts : Piece.xacts ∈ F) :
    ∃ t, execOutputWriteIssue c fin die s = .next t ∧ Goes F s t := by
  have go := Goes.refl F s
  unfold execOutputWriteIssue
  refine ⟨_, rfl, ?_⟩
  try dsimp only
  repeat' first
    | with_reducible assumption
    | (intro)
    | with_reducible apply Goes.issueWrite
    | with_reducible apply Goes.onStream
    | with_reducible apply Goes.settleSpace
    | dsimp only

theorem Goes.endStalls {F : List Piece} {s₀ s : State} (f : Found) (harrays : Piece.arrays ∈ F) (hdict : Piece.dict ∈ F) (hprun : Piece.prun ∈ F) (hworks : Piece.works ∈ F)
    (go : Goes F s₀ s) : Goes F s₀ (State.endStalls s f) := by
  unfold State.endStalls
  try dsimp only
  repeat' first
    | with_reducible assumption
    | (intro)
    | with_reducible apply Goes.bump
    | with_reducible apply Goes.endActive
    | with_reducible apply Goes.stall
    | with_reducible apply Goes.ite
    | with_reducible apply Goes.foldl
    | split
    | dsimp only

theorem Goes.endWorks {F : List Piece} {s₀ s : State} (f : Found) (q : Work → Bool) (harrays : Piece.arrays ∈ F) (hdict : Piece.dict ∈ F) (hworks : Piece.works ∈ F)
    (go : Goes F s₀ s) : Goes F s₀ (State.endWorks s f q) := by
  unfold State.endWorks
  try dsimp only
  repeat' first
    | with_reducible assumption
    | (intro)
    | with_reducible apply Goes.endWork
    | with_reducible apply Goes.foldl
    | dsimp only

theorem Goes.keepInputs {F : List Piece} {s₀ s : State} (f : Found) (hdict : Piece.dict ∈ F) (hprun : Piece.prun ∈ F)
    (go : Goes F s₀ s) : Goes F s₀ (State.keepInputs s f) := by
  unfold State.keepInputs
  dsimp only
  repeat' first
    | with_reducible assumption
    | (intro)
    | with_reducible apply Goes.keepCopy
    | with_reducible apply Goes.ite
    | with_reducible apply Goes.foldl
    | split

theorem Goes.measureInputs {F : List Piece} {s₀ s : State} (f : Found) (hdict : Piece.dict ∈ F) (hsec : Piece.sec ∈ F)
    (go : Goes F s₀ s) : Goes F s₀ (State.measureInputs s f) := by
  unfold State.measureInputs
  dsimp only
  repeat' first
    | with_reducible assumption
    | (intro)
    | with_reducible apply Goes.modSec
    | with_reducible apply Goes.setReg
    | with_reducible apply Goes.ite
    | with_reducible apply Goes.foldl
    | split

theorem Goes.popAll {F : List Piece} {s₀ s : State} (f : Found) (hdict : Piece.dict ∈ F) (hprun : Piece.prun ∈ F)
    (go : Goes F s₀ s) : Goes F s₀ (State.popAll s f) := by
  unfold State.popAll
  try dsimp only
  repeat' first
    | with_reducible assumption
    | (intro)
    | with_reducible apply Goes.modCmd
    | with_reducible apply Goes.monitor
    | with_reducible apply Goes.foldl
    | dsimp only

theorem Goes.finishWork {F : List Piece} {s₀ s : State} (f : Found) (outs : List (Nat × List Byte)) (hdict : Piece.dict ∈ F) (hengines : Piece.engines ∈ F) (hfree : Piece.free ∈ F) (hprun : Piece.prun ∈ F)
    (go : Goes F s₀ s) : Goes F s₀ (State.finishWork s f outs) := by
  unfold State.finishWork
  dsimp only
  repeat' first
    | with_reducible assumption
    | with_reducible apply Goes.endEngines
    | with_reducible apply Goes.popAll
    | (intro)
    | with_reducible apply Goes.modCmd
    | with_reducible apply Goes.monitor
    | with_reducible apply Goes.pushQueue
    | with_reducible apply Goes.ite
    | with_reducible apply Goes.foldl
    | with_reducible apply Goes.elim
    | split
    | with_reducible apply Goes.drawMany

theorem Goes.execOp {F : List Piece} {s₀ s : State} (c : CmdRef) (op : Nat) (stalls : List (DieC × Fin 9 × W32)) (harrays : Piece.arrays ∈ F) (hdict : Piece.dict ∈ F) (hengines : Piece.engines ∈ F) (hfree : Piece.free ∈ F) (hprun : Piece.prun ∈ F) (hsec : Piece.sec ∈ F) (hworks : Piece.works ∈ F)
    (go : Goes F s₀ s) : Goes F s₀ (State.execOp s c op stalls) := by
  unfold State.execOp
  dsimp only
  repeat' first
    | with_reducible assumption
    | with_reducible apply Goes.endWorks
    | (intro)
    | with_reducible apply Goes.engineStalls
    | with_reducible apply Goes.finishWork
    | with_reducible apply Goes.keepInputs
    | with_reducible apply Goes.measureInputs
    | with_reducible apply Goes.overflows
    | with_reducible apply Goes.ite
    | with_reducible apply Goes.foldl
    | split

theorem execMove_goes {F : List Piece} (c : CmdRef) (stalls : List (DieC × Fin 9 × W32)) (s : State) (harrays : Piece.arrays ∈ F) (hdict : Piece.dict ∈ F) (hengines : Piece.engines ∈ F) (hfree : Piece.free ∈ F) (hprun : Piece.prun ∈ F) (hsec : Piece.sec ∈ F) (hworks : Piece.works ∈ F) :
    ∃ t, execMove c stalls s = .next t ∧ Goes F s t := by
  have go := Goes.refl F s
  unfold execMove
  refine ⟨_, rfl, ?_⟩
  repeat' first | with_reducible assumption | with_reducible apply Goes.execOp

theorem execSlice_goes {F : List Piece} (c : CmdRef) (stalls : List (DieC × Fin 9 × W32)) (s : State) (harrays : Piece.arrays ∈ F) (hdict : Piece.dict ∈ F) (hengines : Piece.engines ∈ F) (hfree : Piece.free ∈ F) (hprun : Piece.prun ∈ F) (hsec : Piece.sec ∈ F) (hworks : Piece.works ∈ F) :
    ∃ t, execSlice c stalls s = .next t ∧ Goes F s t := by
  have go := Goes.refl F s
  unfold execSlice
  refine ⟨_, rfl, ?_⟩
  repeat' first | with_reducible assumption | with_reducible apply Goes.execOp

theorem execConcat_goes {F : List Piece} (c : CmdRef) (stalls : List (DieC × Fin 9 × W32)) (s : State) (harrays : Piece.arrays ∈ F) (hdict : Piece.dict ∈ F) (hengines : Piece.engines ∈ F) (hfree : Piece.free ∈ F) (hprun : Piece.prun ∈ F) (hsec : Piece.sec ∈ F) (hworks : Piece.works ∈ F) :
    ∃ t, execConcat c stalls s = .next t ∧ Goes F s t := by
  have go := Goes.refl F s
  unfold execConcat
  refine ⟨_, rfl, ?_⟩
  repeat' first | with_reducible assumption | with_reducible apply Goes.execOp

theorem execGather_goes {F : List Piece} (c : CmdRef) (stalls : List (DieC × Fin 9 × W32)) (s : State) (harrays : Piece.arrays ∈ F) (hdict : Piece.dict ∈ F) (hengines : Piece.engines ∈ F) (hfree : Piece.free ∈ F) (hprun : Piece.prun ∈ F) (hsec : Piece.sec ∈ F) (hworks : Piece.works ∈ F) :
    ∃ t, execGather c stalls s = .next t ∧ Goes F s t := by
  have go := Goes.refl F s
  unfold execGather
  refine ⟨_, rfl, ?_⟩
  repeat' first | with_reducible assumption | with_reducible apply Goes.execOp

theorem execScatter_goes {F : List Piece} (c : CmdRef) (stalls : List (DieC × Fin 9 × W32)) (s : State) (harrays : Piece.arrays ∈ F) (hdict : Piece.dict ∈ F) (hengines : Piece.engines ∈ F) (hfree : Piece.free ∈ F) (hprun : Piece.prun ∈ F) (hsec : Piece.sec ∈ F) (hworks : Piece.works ∈ F) :
    ∃ t, execScatter c stalls s = .next t ∧ Goes F s t := by
  have go := Goes.refl F s
  unfold execScatter
  refine ⟨_, rfl, ?_⟩
  repeat' first | with_reducible assumption | with_reducible apply Goes.execOp

theorem execTee_goes {F : List Piece} (c : CmdRef) (stalls : List (DieC × Fin 9 × W32)) (s : State) (harrays : Piece.arrays ∈ F) (hdict : Piece.dict ∈ F) (hengines : Piece.engines ∈ F) (hfree : Piece.free ∈ F) (hprun : Piece.prun ∈ F) (hsec : Piece.sec ∈ F) (hworks : Piece.works ∈ F) :
    ∃ t, execTee c stalls s = .next t ∧ Goes F s t := by
  have go := Goes.refl F s
  unfold execTee
  refine ⟨_, rfl, ?_⟩
  repeat' first | with_reducible assumption | with_reducible apply Goes.execOp

theorem execFill_goes {F : List Piece} (c : CmdRef) (stalls : List (DieC × Fin 9 × W32)) (s : State) (harrays : Piece.arrays ∈ F) (hdict : Piece.dict ∈ F) (hengines : Piece.engines ∈ F) (hfree : Piece.free ∈ F) (hprun : Piece.prun ∈ F) (hsec : Piece.sec ∈ F) (hworks : Piece.works ∈ F) :
    ∃ t, execFill c stalls s = .next t ∧ Goes F s t := by
  have go := Goes.refl F s
  unfold execFill
  refine ⟨_, rfl, ?_⟩
  repeat' first | with_reducible assumption | with_reducible apply Goes.execOp

theorem execMatmul_goes {F : List Piece} (c : CmdRef) (s : State) (harrays : Piece.arrays ∈ F) (hdict : Piece.dict ∈ F) (hengines : Piece.engines ∈ F) (hfree : Piece.free ∈ F) (hprun : Piece.prun ∈ F) (hsec : Piece.sec ∈ F) (hworks : Piece.works ∈ F) :
    ∃ t, execMatmul c s = .next t ∧ Goes F s t := by
  have go := Goes.refl F s
  unfold execMatmul
  refine ⟨_, rfl, ?_⟩
  repeat' first | with_reducible assumption | with_reducible apply Goes.execOp

theorem execMatmulBatched_goes {F : List Piece} (c : CmdRef) (s : State) (harrays : Piece.arrays ∈ F) (hdict : Piece.dict ∈ F) (hengines : Piece.engines ∈ F) (hfree : Piece.free ∈ F) (hprun : Piece.prun ∈ F) (hsec : Piece.sec ∈ F) (hworks : Piece.works ∈ F) :
    ∃ t, execMatmulBatched c s = .next t ∧ Goes F s t := by
  have go := Goes.refl F s
  unfold execMatmulBatched
  refine ⟨_, rfl, ?_⟩
  repeat' first | with_reducible assumption | with_reducible apply Goes.execOp

theorem execVecChain_goes {F : List Piece} (c : CmdRef) (s : State) (harrays : Piece.arrays ∈ F) (hdict : Piece.dict ∈ F) (hengines : Piece.engines ∈ F) (hfree : Piece.free ∈ F) (hprun : Piece.prun ∈ F) (hsec : Piece.sec ∈ F) (hworks : Piece.works ∈ F) :
    ∃ t, execVecChain c s = .next t ∧ Goes F s t := by
  have go := Goes.refl F s
  unfold execVecChain
  refine ⟨_, rfl, ?_⟩
  repeat' first | with_reducible assumption | with_reducible apply Goes.execOp

theorem execRowOp_goes {F : List Piece} (c : CmdRef) (s : State) (harrays : Piece.arrays ∈ F) (hdict : Piece.dict ∈ F) (hengines : Piece.engines ∈ F) (hfree : Piece.free ∈ F) (hprun : Piece.prun ∈ F) (hsec : Piece.sec ∈ F) (hworks : Piece.works ∈ F) :
    ∃ t, execRowOp c s = .next t ∧ Goes F s t := by
  have go := Goes.refl F s
  unfold execRowOp
  refine ⟨_, rfl, ?_⟩
  repeat' first | with_reducible assumption | with_reducible apply Goes.execOp

theorem execColReduce_goes {F : List Piece} (c : CmdRef) (s : State) (harrays : Piece.arrays ∈ F) (hdict : Piece.dict ∈ F) (hengines : Piece.engines ∈ F) (hfree : Piece.free ∈ F) (hprun : Piece.prun ∈ F) (hsec : Piece.sec ∈ F) (hworks : Piece.works ∈ F) :
    ∃ t, execColReduce c s = .next t ∧ Goes F s t := by
  have go := Goes.refl F s
  unfold execColReduce
  refine ⟨_, rfl, ?_⟩
  repeat' first | with_reducible assumption | with_reducible apply Goes.execOp

theorem execLaccSum_goes {F : List Piece} (c : CmdRef) (s : State) (harrays : Piece.arrays ∈ F) (hdict : Piece.dict ∈ F) (hengines : Piece.engines ∈ F) (hfree : Piece.free ∈ F) (hprun : Piece.prun ∈ F) (hsec : Piece.sec ∈ F) (hworks : Piece.works ∈ F) :
    ∃ t, execLaccSum c s = .next t ∧ Goes F s t := by
  have go := Goes.refl F s
  unfold execLaccSum
  refine ⟨_, rfl, ?_⟩
  repeat' first | with_reducible assumption | with_reducible apply Goes.execOp

theorem Goes.control {F : List Piece} {s₀ s : State} (c : CmdRef) (op : Nat) (g : Found → Option Nat) (stalls : List (DieC × Fin 9 × W32)) (hdict : Piece.dict ∈ F) (hengines : Piece.engines ∈ F) (hfree : Piece.free ∈ F) (hprun : Piece.prun ∈ F)
    (go : Goes F s₀ s) : Goes F s₀ (State.control s c op g stalls) := by
  unfold State.control
  dsimp only
  repeat' first
    | with_reducible assumption
    | with_reducible apply Goes.endEngines
    | with_reducible apply Goes.popAll
    | (intro)
    | with_reducible apply Goes.draw
    | with_reducible apply Goes.engineStalls
    | with_reducible apply Goes.modRef
    | with_reducible apply Goes.ite
    | split

theorem execNop_goes {F : List Piece} (c : CmdRef) (s : State) (hdict : Piece.dict ∈ F) (hengines : Piece.engines ∈ F) (hfree : Piece.free ∈ F) (hprun : Piece.prun ∈ F) :
    ∃ t, execNop c s = .next t ∧ Goes F s t := by
  have go := Goes.refl F s
  unfold execNop
  refine ⟨_, rfl, ?_⟩
  repeat' first
    | with_reducible assumption
    | (intro)
    | with_reducible apply Goes.control

theorem execCtrSet_goes {F : List Piece} (c : CmdRef) (s : State) (hdict : Piece.dict ∈ F) (hengines : Piece.engines ∈ F) (hfree : Piece.free ∈ F) (hprun : Piece.prun ∈ F) :
    ∃ t, execCtrSet c s = .next t ∧ Goes F s t := by
  have go := Goes.refl F s
  unfold execCtrSet
  refine ⟨_, rfl, ?_⟩
  repeat' first
    | with_reducible assumption
    | (intro)
    | with_reducible apply Goes.control

theorem execCtrAdd_goes {F : List Piece} (c : CmdRef) (s : State) (hdict : Piece.dict ∈ F) (hengines : Piece.engines ∈ F) (hfree : Piece.free ∈ F) (hprun : Piece.prun ∈ F) :
    ∃ t, execCtrAdd c s = .next t ∧ Goes F s t := by
  have go := Goes.refl F s
  unfold execCtrAdd
  refine ⟨_, rfl, ?_⟩
  repeat' first
    | with_reducible assumption
    | (intro)
    | with_reducible apply Goes.control

theorem execCtrLoad_goes {F : List Piece} (c : CmdRef) (stalls : List (DieC × Fin 9 × W32)) (s : State) (hdict : Piece.dict ∈ F) (hengines : Piece.engines ∈ F) (hfree : Piece.free ∈ F) (hprun : Piece.prun ∈ F) :
    ∃ t, execCtrLoad c stalls s = .next t ∧ Goes F s t := by
  have go := Goes.refl F s
  unfold execCtrLoad
  refine ⟨_, rfl, ?_⟩
  repeat' first
    | with_reducible assumption
    | (intro)
    | with_reducible apply Goes.control

theorem execNotify_goes {F : List Piece} (c : CmdRef) (s : State) (hdict : Piece.dict ∈ F) (hengines : Piece.engines ∈ F) (hfree : Piece.free ∈ F) (hprun : Piece.prun ∈ F) :
    ∃ t, execNotify c s = .next t ∧ Goes F s t := by
  have go := Goes.refl F s
  unfold execNotify
  refine ⟨_, rfl, ?_⟩
  repeat' first
    | with_reducible assumption
    | (intro)
    | with_reducible apply Goes.control

end Sys2Proof.Machine
end

