-- ==== Sys2Proof/Laws/Collective.lean ====
section
/-! SUPPORT. What the operations of Machine/Collective.lean may change, and that each keeps what the model keeps throughout. -/

namespace Sys2Proof.Machine

theorem Goes.digestFails {F : List Piece} {s₀ s : State} (x : Found) (n : Nat) (hdict : Piece.dict ∈ F) (hprun : Piece.prun ∈ F)
    (go : Goes F s₀ s) : Goes F s₀ (State.digestFails s x n) := by
  unfold State.digestFails
  repeat' first
    | with_reducible assumption
    | with_reducible apply Goes.foldl
    | (intro)
    | with_reducible apply Goes.bump
    | with_reducible apply Goes.modCmd
    | with_reducible apply Goes.ite

theorem Goes.memberDone {F : List Piece} {s₀ s : State} (x : Found) (fails : Nat) (out : List Byte) (hdict : Piece.dict ∈ F) (hengines : Piece.engines ∈ F) (hfree : Piece.free ∈ F) (hprun : Piece.prun ∈ F) (hsec : Piece.sec ∈ F)
    (go : Goes F s₀ s) : Goes F s₀ (State.memberDone s x fails out) := by
  unfold State.memberDone
  repeat' first
    | with_reducible assumption
    | with_reducible apply Goes.finishWork
    | with_reducible apply Goes.measureInputs
    | with_reducible apply Goes.keepInputs
    | with_reducible apply Goes.digestFails

theorem Goes.collective {F : List Piece} {s₀ s : State} (c : CmdRef) (op : Nat) (remote : List (Fin 16 × List Byte)) (lost odd : List (Fin 16)) (stalls : List (DieC × Fin 9 × W32)) (hdict : Piece.dict ∈ F) (hengines : Piece.engines ∈ F) (hfree : Piece.free ∈ F) (hprun : Piece.prun ∈ F) (hsec : Piece.sec ∈ F)
    (go : Goes F s₀ s) : Goes F s₀ (State.collective s c op remote lost odd stalls) := by
  unfold State.collective
  dsimp only
  repeat' first
    | with_reducible assumption
    | (intro)
    | with_reducible apply Goes.digestFails
    | with_reducible apply Goes.engineStalls
    | with_reducible apply Goes.memberDone
    | with_reducible apply Goes.ite
    | with_reducible apply Goes.foldl
    | split

theorem execAllReduce_goes {F : List Piece} (c : CmdRef) (remote : List (Fin 16 × List Byte)) (lost odd : List (Fin 16)) (stalls : List (DieC × Fin 9 × W32)) (s : State) (hdict : Piece.dict ∈ F) (hengines : Piece.engines ∈ F) (hfree : Piece.free ∈ F) (hprun : Piece.prun ∈ F) (hsec : Piece.sec ∈ F) :
    ∃ t, execAllReduce c remote lost odd stalls s = .next t ∧ Goes F s t := by
  have go := Goes.refl F s
  unfold execAllReduce
  refine ⟨_, rfl, ?_⟩
  repeat' first | with_reducible assumption | with_reducible apply Goes.collective

theorem execAllGather_goes {F : List Piece} (c : CmdRef) (remote : List (Fin 16 × List Byte)) (lost odd : List (Fin 16)) (stalls : List (DieC × Fin 9 × W32)) (s : State) (hdict : Piece.dict ∈ F) (hengines : Piece.engines ∈ F) (hfree : Piece.free ∈ F) (hprun : Piece.prun ∈ F) (hsec : Piece.sec ∈ F) :
    ∃ t, execAllGather c remote lost odd stalls s = .next t ∧ Goes F s t := by
  have go := Goes.refl F s
  unfold execAllGather
  refine ⟨_, rfl, ?_⟩
  repeat' first | with_reducible assumption | with_reducible apply Goes.collective

theorem execReduceScatter_goes {F : List Piece} (c : CmdRef) (remote : List (Fin 16 × List Byte)) (lost odd : List (Fin 16)) (stalls : List (DieC × Fin 9 × W32)) (s : State) (hdict : Piece.dict ∈ F) (hengines : Piece.engines ∈ F) (hfree : Piece.free ∈ F) (hprun : Piece.prun ∈ F) (hsec : Piece.sec ∈ F) :
    ∃ t, execReduceScatter c remote lost odd stalls s = .next t ∧ Goes F s t := by
  have go := Goes.refl F s
  unfold execReduceScatter
  refine ⟨_, rfl, ?_⟩
  repeat' first | with_reducible assumption | with_reducible apply Goes.collective

theorem execBroadcast_goes {F : List Piece} (c : CmdRef) (remote : List (Fin 16 × List Byte)) (lost odd : List (Fin 16)) (stalls : List (DieC × Fin 9 × W32)) (s : State) (hdict : Piece.dict ∈ F) (hengines : Piece.engines ∈ F) (hfree : Piece.free ∈ F) (hprun : Piece.prun ∈ F) (hsec : Piece.sec ∈ F) :
    ∃ t, execBroadcast c remote lost odd stalls s = .next t ∧ Goes F s t := by
  have go := Goes.refl F s
  unfold execBroadcast
  refine ⟨_, rfl, ?_⟩
  repeat' first | with_reducible assumption | with_reducible apply Goes.collective

theorem Goes.failCmd {F : List Piece} {s₀ s : State} (f : Found) (code : Nat) (harrays : Piece.arrays ∈ F) (hdict : Piece.dict ∈ F) (hengines : Piece.engines ∈ F) (hfree : Piece.free ∈ F) (hprun : Piece.prun ∈ F) (hworks : Piece.works ∈ F)
    (go : Goes F s₀ s) : Goes F s₀ (State.failCmd s f code) := by
  unfold State.failCmd
  dsimp only
  repeat' first
    | with_reducible assumption
    | with_reducible apply Goes.foldl
    | with_reducible apply Goes.endEngines
    | with_reducible apply Goes.endStalls
    | (intro)
    | with_reducible apply Goes.closeOutputs
    | with_reducible apply Goes.dropWork
    | with_reducible apply Goes.modCmd

theorem execCollectiveTimeLimit_goes {F : List Piece} (c : CmdRef) (s : State) (harrays : Piece.arrays ∈ F) (hclock : Piece.clock ∈ F) (hdict : Piece.dict ∈ F) (hengines : Piece.engines ∈ F) (hfree : Piece.free ∈ F) (hprun : Piece.prun ∈ F) (hworks : Piece.works ∈ F) :
    ∃ t, execCollectiveTimeLimit c s = .next t ∧ Goes F s t := by
  have go := Goes.refl F s
  unfold execCollectiveTimeLimit
  refine ⟨_, rfl, ?_⟩
  repeat' first
    | with_reducible assumption
    | with_reducible apply Goes.failCmd
    | with_reducible apply Goes.reach
    | with_reducible apply Goes.ite
    | split

theorem Goes.detach {F : List Piece} {s₀ s : State} (c : CmdRef) (dies : List Nat) (hbrims : Piece.brims ∈ F)
    (go : Goes F s₀ s) : Goes F s₀ (State.detach s c dies) := by
  unfold State.detach
  repeat' first
    | with_reducible assumption
    | (intro)
    | with_reducible apply Goes.modBrim
    | with_reducible apply Goes.foldl

theorem execPortAttach_goes {F : List Piece} (c : CmdRef) (stage : Fin 8) (s : State) (hbrims : Piece.brims ∈ F) (hdict : Piece.dict ∈ F) :
    ∃ t, execPortAttach c stage s = .next t ∧ Goes F s t := by
  have go := Goes.refl F s
  unfold execPortAttach
  refine ⟨_, rfl, ?_⟩
  try dsimp only
  repeat' first
    | with_reducible assumption
    | (intro)
    | with_reducible apply Goes.bump
    | with_reducible apply Goes.modBrim
    | with_reducible apply Goes.ite
    | with_reducible apply Goes.foldl
    | split

theorem execItemClose_goes {F : List Piece} (c : CmdRef) (fin : Fin 128) (data : List Byte) (s : State) (hdict : Piece.dict ∈ F) (hprun : Piece.prun ∈ F) :
    ∃ t, execItemClose c fin data s = .next t ∧ Goes F s t := by
  have go := Goes.refl F s
  unfold execItemClose
  refine ⟨_, rfl, ?_⟩
  try dsimp only
  repeat' first
    | with_reducible assumption
    | (intro)
    | with_reducible apply Goes.bump
    | with_reducible apply Goes.modRef
    | with_reducible apply Goes.ite
    | with_reducible apply Goes.foldl
    | split

theorem execFabricEnd_goes {F : List Piece} (c : CmdRef) (fin : Fin 128) (data : List Byte) (s : State) (hdict : Piece.dict ∈ F) (hprun : Piece.prun ∈ F) :
    ∃ t, execFabricEnd c fin data s = .next t ∧ Goes F s t := by
  have go := Goes.refl F s
  unfold execFabricEnd
  refine ⟨_, rfl, ?_⟩
  try dsimp only
  repeat' first
    | with_reducible assumption
    | (intro)
    | with_reducible apply Goes.bump
    | with_reducible apply Goes.modRef
    | with_reducible apply Goes.ite
    | with_reducible apply Goes.foldl
    | split

theorem Goes.holdStalls {F : List Piece} {s₀ s : State} (c : Nat) (a : Attach) (hdict : Piece.dict ∈ F) (hprun : Piece.prun ∈ F)
    (go : Goes F s₀ s) : Goes F s₀ (State.holdStalls s c a) := by
  unfold State.holdStalls
  try dsimp only
  repeat' first
    | with_reducible assumption
    | (intro)
    | with_reducible apply Goes.stall
    | with_reducible apply Goes.ite
    | split
    | dsimp only

theorem Goes.thawAll {F : List Piece} {s₀ s : State} (c : Nat) (hbrims : Piece.brims ∈ F) (hdict : Piece.dict ∈ F) (hprun : Piece.prun ∈ F)
    (go : Goes F s₀ s) : Goes F s₀ (State.thawAll s c) := by
  unfold State.thawAll
  try dsimp only
  repeat' first
    | with_reducible assumption
    | (intro)
    | with_reducible apply Goes.holdStalls
    | with_reducible apply Goes.modBrim
    | with_reducible apply Goes.foldl
    | dsimp only

theorem Goes.abortPort {F : List Piece} {s₀ s : State} (c : CmdRef) (die stage : Nat) (hbrims : Piece.brims ∈ F) (hdict : Piece.dict ∈ F) (hout : Piece.out ∈ F) (hprun : Piece.prun ∈ F)
    (go : Goes F s₀ s) : Goes F s₀ (State.abortPort s c die stage) := by
  unfold State.abortPort
  dsimp only
  repeat' first
    | with_reducible assumption
    | with_reducible apply Goes.holdStalls
    | (intro)
    | with_reducible apply Goes.bump
    | with_reducible apply Goes.emit
    | with_reducible apply Goes.modBrim
    | split

theorem Goes.abortPorts {F : List Piece} {s₀ s : State} (c : CmdRef) (stages : List Nat) (dies : List Nat) (hbrims : Piece.brims ∈ F) (hdict : Piece.dict ∈ F) (hout : Piece.out ∈ F) (hprun : Piece.prun ∈ F)
    (go : Goes F s₀ s) : Goes F s₀ (State.abortPorts s c stages dies) := by
  unfold State.abortPorts
  repeat' first
    | with_reducible assumption
    | (intro)
    | with_reducible apply Goes.abortPort
    | with_reducible apply Goes.foldl

theorem execPortDetach_goes {F : List Piece} (c : CmdRef) (stage : Fin 8) (s : State) (harrays : Piece.arrays ∈ F) (hbrims : Piece.brims ∈ F) (hdict : Piece.dict ∈ F) (hengines : Piece.engines ∈ F) (hfree : Piece.free ∈ F) (hout : Piece.out ∈ F) (hprun : Piece.prun ∈ F) (hworks : Piece.works ∈ F) :
    ∃ t, execPortDetach c stage s = .next t ∧ Goes F s t := by
  have go := Goes.refl F s
  unfold execPortDetach
  refine ⟨_, rfl, ?_⟩
  try dsimp only
  repeat' first
    | with_reducible assumption
    | with_reducible apply Goes.endEngines
    | with_reducible apply Goes.endStalls
    | (intro)
    | with_reducible apply Goes.abortPorts
    | with_reducible apply Goes.closeOutputs
    | with_reducible apply Goes.dropWork
    | with_reducible apply Goes.modRef
    | with_reducible apply Goes.ite
    | split

theorem execBrimTimeLimit_goes {F : List Piece} (c : CmdRef) (stage : Fin 8) (s : State) (hclock : Piece.clock ∈ F) (hprun : Piece.prun ∈ F) :
    ∃ t, execBrimTimeLimit c stage s = .next t ∧ Goes F s t := by
  have go := Goes.refl F s
  unfold execBrimTimeLimit
  refine ⟨_, rfl, ?_⟩
  try dsimp only
  repeat' first
    | with_reducible assumption
    | (intro)
    | with_reducible apply Goes.modRef
    | with_reducible apply Goes.reach
    | with_reducible apply Goes.ite
    | with_reducible apply Goes.foldl
    | split

theorem Goes.brimCounts {F : List Piece} {s₀ s : State} (f : Found) (x : Part) (hdict : Piece.dict ∈ F)
    (go : Goes F s₀ s) : Goes F s₀ (State.brimCounts s f x) := by
  unfold State.brimCounts
  dsimp only
  repeat' first
    | with_reducible assumption
    | (intro)
    | with_reducible apply Goes.bump
    | with_reducible apply Goes.foldl

theorem Goes.stagesEnd {F : List Piece} {s₀ s : State} (c : CmdRef) (op : Nat) (ce : W32) (ue : List (Fin 128 × W32)) (stalls : List (DieC × Fin 9 × W32)) (harrays : Piece.arrays ∈ F) (hdict : Piece.dict ∈ F) (hengines : Piece.engines ∈ F) (hfree : Piece.free ∈ F) (hprun : Piece.prun ∈ F) (hsec : Piece.sec ∈ F) (hworks : Piece.works ∈ F)
    (go : Goes F s₀ s) : Goes F s₀ (State.stagesEnd s c op ce ue stalls) := by
  unfold State.stagesEnd
  dsimp only
  repeat' first
    | with_reducible assumption
    | (intro)
    | with_reducible apply Goes.brimCounts
    | with_reducible apply Goes.bump
    | with_reducible apply Goes.execOp
    | with_reducible apply Goes.modRef
    | with_reducible apply Goes.ite
    | with_reducible apply Goes.foldl
    | split

theorem execBrimStage_goes {F : List Piece} (c : CmdRef) (ce : W32) (ue : List (Fin 128 × W32)) (stalls : List (DieC × Fin 9 × W32)) (s : State) (harrays : Piece.arrays ∈ F) (hdict : Piece.dict ∈ F) (hengines : Piece.engines ∈ F) (hfree : Piece.free ∈ F) (hprun : Piece.prun ∈ F) (hsec : Piece.sec ∈ F) (hworks : Piece.works ∈ F) :
    ∃ t, execBrimStage c ce ue stalls s = .next t ∧ Goes F s t := by
  have go := Goes.refl F s
  unfold execBrimStage
  refine ⟨_, rfl, ?_⟩
  repeat' first | with_reducible assumption | with_reducible apply Goes.stagesEnd

theorem execFused_goes {F : List Piece} (c : CmdRef) (ce : W32) (ue : List (Fin 128 × W32)) (stalls : List (DieC × Fin 9 × W32)) (s : State) (harrays : Piece.arrays ∈ F) (hdict : Piece.dict ∈ F) (hengines : Piece.engines ∈ F) (hfree : Piece.free ∈ F) (hprun : Piece.prun ∈ F) (hsec : Piece.sec ∈ F) (hworks : Piece.works ∈ F) :
    ∃ t, execFused c ce ue stalls s = .next t ∧ Goes F s t := by
  have go := Goes.refl F s
  unfold execFused
  refine ⟨_, rfl, ?_⟩
  try dsimp only
  repeat' first
    | with_reducible assumption
    | (intro)
    | with_reducible apply Goes.stagesEnd
    | dsimp only

end Sys2Proof.Machine
end

