-- ==== Sys2Proof/Laws/Fabric.lean ====
section
/-! SUPPORT. What the operations of Machine/Fabric.lean may change, and that each keeps what the model keeps throughout. -/

namespace Sys2Proof.Machine

theorem Goes.setFrame {F : List Piece} {s₀ s : State} (c r i : Nat) (bs : List Byte) (hframes : Piece.frames ∈ F)
    (go : Goes F s₀ s) : Goes F s₀ (State.setFrame s c r i bs) := by
  unfold State.setFrame
  try dsimp only
  repeat' first
    | with_reducible assumption
    | (intro)
    | with_reducible apply Goes.framesTo
    | dsimp only

theorem Goes.blankRegions {F : List Piece} {s₀ s : State} (c mask : Nat) (hframes : Piece.frames ∈ F)
    (go : Goes F s₀ s) : Goes F s₀ (State.blankRegions s c mask) := by
  unfold State.blankRegions
  try dsimp only
  repeat' first
    | with_reducible assumption
    | (intro)
    | with_reducible apply Goes.framesTo
    | dsimp only

theorem Goes.clockPins {F : List Piece} {s₀ s : State} (c r : Nat) (rise fall : Bool) (hbrims : Piece.brims ∈ F)
    (go : Goes F s₀ s) : Goes F s₀ (State.clockPins s c r rise fall) := by
  unfold State.clockPins
  try dsimp only
  repeat' first
    | with_reducible assumption
    | (intro)
    | with_reducible apply Goes.modBrim
    | with_reducible apply Goes.ite
    | with_reducible apply Goes.foldl
    | split
    | dsimp only

theorem Goes.queueCheck {F : List Piece} {s₀ s : State} (c wrong : Nat) (hdict : Piece.dict ∈ F)
    (go : Goes F s₀ s) : Goes F s₀ (State.queueCheck s c wrong) := by
  unfold State.queueCheck
  try dsimp only
  repeat' first
    | with_reducible assumption
    | (intro)
    | with_reducible apply Goes.bump
    | split
    | dsimp only

theorem Goes.clockQueue {F : List Piece} {s₀ s : State} (c : Nat) (up : Nat → Bool) (m : Nat) (hbrims : Piece.brims ∈ F) (hdict : Piece.dict ∈ F) (hfree : Piece.free ∈ F)
    (go : Goes F s₀ s) : Goes F s₀ (State.clockQueue s c up m) := by
  unfold State.clockQueue
  try dsimp only
  repeat' first
    | with_reducible assumption
    | (intro)
    | with_reducible apply Goes.modBrim
    | with_reducible apply Goes.queueCheck
    | with_reducible apply Goes.ite
    | split
    | with_reducible apply Goes.drawMany
    | dsimp only

theorem Goes.setReset {F : List Piece} {s₀ s : State} (c mask : Nat) (hbrims : Piece.brims ∈ F)
    (go : Goes F s₀ s) : Goes F s₀ (State.setReset s c mask) := by
  unfold State.setReset
  try dsimp only
  repeat' first
    | with_reducible assumption
    | (intro)
    | with_reducible apply Goes.modBrim
    | with_reducible apply Goes.foldl
    | dsimp only

theorem Goes.initRegions {F : List Piece} {s₀ s : State} (c mask : Nat) (hbrims : Piece.brims ∈ F)
    (go : Goes F s₀ s) : Goes F s₀ (State.initRegions s c mask) := by
  unfold State.initRegions
  try dsimp only
  repeat' first
    | with_reducible assumption
    | (intro)
    | with_reducible apply Goes.modBrim
    | with_reducible apply Goes.setReset
    | with_reducible apply Goes.foldl
    | dsimp only

theorem Goes.clockRegion {F : List Piece} {s₀ s : State} (c r : Nat) (hbrims : Piece.brims ∈ F) (hfree : Piece.free ∈ F)
    (go : Goes F s₀ s) : Goes F s₀ (State.clockRegion s c r) := by
  unfold State.clockRegion
  try dsimp only
  repeat' first
    | with_reducible assumption
    | (intro)
    | with_reducible apply Goes.clockPins
    | with_reducible apply Goes.modBrim
    | with_reducible apply Goes.ite
    | split
    | with_reducible apply Goes.drawMany
    | dsimp only

theorem Goes.clockBrim {F : List Piece} {s₀ s : State} (c : Nat) (hbrims : Piece.brims ∈ F) (hdict : Piece.dict ∈ F) (hfree : Piece.free ∈ F)
    (go : Goes F s₀ s) : Goes F s₀ (State.clockBrim s c) := by
  unfold State.clockBrim
  try dsimp only
  repeat' first
    | with_reducible assumption
    | (intro)
    | with_reducible apply Goes.clockQueue
    | with_reducible apply Goes.clockRegion
    | with_reducible apply Goes.ite
    | with_reducible apply Goes.foldl
    | split
    | dsimp only

theorem Goes.clockBrims {F : List Piece} {s₀ s : State} (hbrims : Piece.brims ∈ F) (hdict : Piece.dict ∈ F) (hfree : Piece.free ∈ F)
    (go : Goes F s₀ s) : Goes F s₀ (State.clockBrims s) := by
  unfold State.clockBrims
  try dsimp only
  repeat' first
    | with_reducible assumption
    | (intro)
    | with_reducible apply Goes.clockBrim
    | with_reducible apply Goes.foldl
    | dsimp only

end Sys2Proof.Machine
end

