-- ==== Sys2Proof/Laws/Firmware.lean ====
section
/-! SUPPORT. What the operations of Machine/Firmware.lean may change, and that each keeps what the model keeps throughout. -/

namespace Sys2Proof.Machine

theorem Goes.modFlashes {F : List Piece} {s₀ s : State} (g : Flash → Flash) (hmill : Piece.mill ∈ F)
    (go : Goes F s₀ s) : Goes F s₀ (State.modFlashes s g) := by
  unfold State.modFlashes
  repeat' first
    | with_reducible assumption
    | exact id
    | with_reducible apply Goes.millTo

theorem Goes.modFlash {F : List Piece} {s₀ s : State} (g : Flash → Flash) (hmill : Piece.mill ∈ F)
    (go : Goes F s₀ s) : Goes F s₀ (State.modFlash s g) := by
  unfold State.modFlash
  repeat' first
    | with_reducible assumption
    | exact id
    | with_reducible apply Goes.ite
    | split
    | with_reducible apply Goes.millTo

theorem Goes.modOtherFlash {F : List Piece} {s₀ s : State} (g : Flash → Flash) (hmill : Piece.mill ∈ F)
    (go : Goes F s₀ s) : Goes F s₀ (State.modOtherFlash s g) := by
  unfold State.modOtherFlash
  repeat' first
    | with_reducible assumption
    | exact id
    | with_reducible apply Goes.ite
    | split
    | with_reducible apply Goes.millTo

theorem Goes.setSlotState {F : List Piece} {s₀ s : State} (n v : Nat) (hdict : Piece.dict ∈ F) (hmill : Piece.mill ∈ F)
    (go : Goes F s₀ s) : Goes F s₀ (State.setSlotState s n v) := by
  unfold State.setSlotState
  repeat' first
    | with_reducible assumption
    | (intro)
    | with_reducible apply Goes.modFlashes
    | with_reducible apply Goes.setReg

theorem Goes.fwErase {F : List Piece} {s₀ s : State}  (hdict : Piece.dict ∈ F) (hmill : Piece.mill ∈ F)
    (go : Goes F s₀ s) : Goes F s₀ (State.fwErase s) := by
  unfold State.fwErase
  dsimp only
  repeat' first
    | with_reducible assumption
    | (intro)
    | with_reducible apply Goes.modFlashes
    | with_reducible apply Goes.setReg

theorem Goes.fwData {F : List Piece} {s₀ s : State} (v : Nat) (hdict : Piece.dict ∈ F) (hmill : Piece.mill ∈ F)
    (go : Goes F s₀ s) : Goes F s₀ (State.fwData s v) := by
  unfold State.fwData
  dsimp only
  repeat' first
    | with_reducible assumption
    | with_reducible apply Goes.foldl
    | (intro)
    | with_reducible apply Goes.modFlashes
    | with_reducible apply Goes.setReg

theorem Goes.fwVerify {F : List Piece} {s₀ s : State}  (hdict : Piece.dict ∈ F) (hmill : Piece.mill ∈ F)
    (go : Goes F s₀ s) : Goes F s₀ (State.fwVerify s) := by
  unfold State.fwVerify
  dsimp only
  repeat' first
    | with_reducible assumption
    | with_reducible apply Goes.setReg
    | with_reducible apply Goes.setSlotState
    | with_reducible apply Goes.ite

theorem Goes.fwActivate {F : List Piece} {s₀ s : State}  (hdict : Piece.dict ∈ F) (hmill : Piece.mill ∈ F)
    (go : Goes F s₀ s) : Goes F s₀ (State.fwActivate s) := by
  unfold State.fwActivate
  repeat' first
    | with_reducible assumption
    | (intro)
    | with_reducible apply Goes.modFlashes
    | with_reducible apply Goes.setReg
    | with_reducible apply Goes.ite

theorem Goes.fwConfirm {F : List Piece} {s₀ s : State}  (hdict : Piece.dict ∈ F) (hmill : Piece.mill ∈ F)
    (go : Goes F s₀ s) : Goes F s₀ (State.fwConfirm s) := by
  unfold State.fwConfirm
  dsimp only
  repeat' first
    | with_reducible assumption
    | (intro)
    | with_reducible apply Goes.modFlashes
    | with_reducible apply Goes.raiseReg
    | with_reducible apply Goes.setReg
    | with_reducible apply Goes.setSlotState
    | with_reducible apply Goes.ite
    | split

theorem Goes.trialReverts {F : List Piece} {s₀ s : State}  (hdict : Piece.dict ∈ F) (hfns : Piece.fns ∈ F) (hfree : Piece.free ∈ F) (hmill : Piece.mill ∈ F) (hout : Piece.out ∈ F)
    (go : Goes F s₀ s) : Goes F s₀ (State.trialReverts s) := by
  unfold State.trialReverts
  dsimp only
  repeat' first
    | with_reducible assumption
    | (intro)
    | with_reducible apply Goes.modFlashes
    | with_reducible apply Goes.raise
    | with_reducible apply Goes.setReg
    | with_reducible apply Goes.setSlotState
    | with_reducible apply Goes.ite
    | split

theorem execFlashEraseDone_goes {F : List Piece} (standby : Bool) (s : State) (hdict : Piece.dict ∈ F) (hmill : Piece.mill ∈ F) :
    ∃ t, execFlashEraseDone standby s = .next t ∧ Goes F s t := by
  have go := Goes.refl F s
  unfold execFlashEraseDone
  try dsimp only
  repeat' first
    | refine ⟨_, rfl, ?_⟩
    | with_reducible assumption
    | (intro)
    | with_reducible apply Goes.modFlash
    | with_reducible apply Goes.modOtherFlash
    | with_reducible apply Goes.setReg
    | with_reducible apply Goes.ite

theorem execTrialTimeout_goes {F : List Piece} (s : State) (hdict : Piece.dict ∈ F) (hfns : Piece.fns ∈ F) (hfree : Piece.free ∈ F) (hmill : Piece.mill ∈ F) (hout : Piece.out ∈ F) :
    ∃ t, execTrialTimeout s = .next t ∧ Goes F s t := by
  have go := Goes.refl F s
  unfold execTrialTimeout
  refine ⟨_, rfl, ?_⟩
  repeat' first | with_reducible assumption | with_reducible apply Goes.trialReverts

theorem Goes.persist {F : List Piece} {s₀ s : State} (k : Nat) (hdict : Piece.dict ∈ F) (hmill : Piece.mill ∈ F)
    (go : Goes F s₀ s) : Goes F s₀ (State.persist s k) := by
  unfold State.persist
  repeat' first
    | with_reducible assumption
    | exact id
    | with_reducible apply Goes.bump
    | with_reducible apply Goes.ite
    | split
    | with_reducible apply Goes.millTo

theorem execJournalCommit_goes {F : List Piece} (s : State) (hdict : Piece.dict ∈ F) (hmill : Piece.mill ∈ F) :
    ∃ t, execJournalCommit s = .next t ∧ Goes F s t := by
  have go := Goes.refl F s
  unfold execJournalCommit
  try dsimp only
  repeat' first
    | refine ⟨_, rfl, ?_⟩
    | with_reducible assumption
    | exact id
    | (intro)
    | with_reducible apply Goes.modFlashes
    | with_reducible apply Goes.setReg
    | split
    | with_reducible apply Goes.millTo

theorem execFlashSync_goes {F : List Piece} (s : State) (hmill : Piece.mill ∈ F) :
    ∃ t, execFlashSync s = .next t ∧ Goes F s t := by
  have go := Goes.refl F s
  unfold execFlashSync
  try dsimp only
  repeat' first
    | refine ⟨_, rfl, ?_⟩
    | with_reducible assumption
    | with_reducible apply Goes.ite
    | (intro)
    | with_reducible apply Goes.modOtherFlash

theorem Goes.sigFailed {F : List Piece} {s₀ s : State} (f : Flash) (l : List Nat) (hdict : Piece.dict ∈ F) (hmill : Piece.mill ∈ F)
    (go : Goes F s₀ s) : Goes F s₀ (State.sigFailed s f l) := by
  unfold State.sigFailed
  try dsimp only
  repeat' first
    | with_reducible assumption
    | (intro)
    | with_reducible apply Goes.setSlotState
    | with_reducible apply Goes.ite
    | with_reducible apply Goes.foldl
    | split
    | dsimp only

theorem Goes.boot {F : List Piece} {s₀ s : State}  (hdict : Piece.dict ∈ F) (hfns : Piece.fns ∈ F) (hfree : Piece.free ∈ F) (hmill : Piece.mill ∈ F) (hout : Piece.out ∈ F)
    (go : Goes F s₀ s) : Goes F s₀ (State.boot s) := by
  unfold State.boot
  dsimp only
  repeat' first
    | with_reducible assumption
    | exact id
    | (intro)
    | with_reducible apply Goes.modFlashes
    | with_reducible apply Goes.raise
    | with_reducible apply Goes.setReg
    | with_reducible apply Goes.sigFailed
    | with_reducible apply Goes.setSlotState
    | with_reducible apply Goes.ite
    | split
    | with_reducible apply Goes.millTo

end Sys2Proof.Machine
end

