-- ==== Sys2Proof/Laws/Runs.lean ====
section
/-! SUPPORT. What the operations of Machine/Runs.lean may change, and that each keeps what the model keeps throughout. -/

namespace Sys2Proof.Machine

theorem Goes.writeResult {F : List Piece} {s₀ s : State} (addr : Nat) (bs : List Byte) (hfree : Piece.free ∈ F) (hhostMem : Piece.hostMem ∈ F)
    (go : Goes F s₀ s) : Goes F s₀ (State.writeResult s addr bs) := by
  unfold State.writeResult
  try dsimp only
  repeat' first
    | with_reducible assumption
    | (intro)
    | with_reducible apply Goes.draw
    | with_reducible apply Goes.hostWrite
    | dsimp only

theorem Goes.loadAnswer {F : List Piece} {s₀ s : State} (p req fetched handle : Nat) (r : LoadResult) (tag : RecTag) (hfns : Piece.fns ∈ F) (hfree : Piece.free ∈ F) (hhostMem : Piece.hostMem ∈ F) (hout : Piece.out ∈ F) (hprun : Piece.prun ∈ F)
    (go : Goes F s₀ s) : Goes F s₀ (State.loadAnswer s p req fetched handle r tag) := by
  unfold State.loadAnswer
  dsimp only
  repeat' first
    | with_reducible assumption
    | with_reducible apply Goes.writeResult
    | with_reducible apply Goes.hostWrite
    | with_reducible apply Goes.writeRecord
    | with_reducible apply Goes.ite

theorem execLoad_goes {F : List Piece} (p : PartN) (c : Cpl) (image : List Byte) (s : State) (hfns : Piece.fns ∈ F) (hfree : Piece.free ∈ F) (hhostMem : Piece.hostMem ∈ F) (hout : Piece.out ∈ F) (hprun : Piece.prun ∈ F) :
    ∃ t, execLoad p c image s = .next t ∧ Goes F s t := by
  have go := Goes.refl F s
  unfold execLoad
  try dsimp only
  repeat' first
    | refine ⟨_, rfl, ?_⟩
    | with_reducible assumption
    | (intro)
    | with_reducible apply Goes.loadAnswer
    | with_reducible apply Goes.modPr
    | split

theorem execUnload_goes {F : List Piece} (p : PartN) (s : State) (hfns : Piece.fns ∈ F) (hfree : Piece.free ∈ F) (hhostMem : Piece.hostMem ∈ F) (hout : Piece.out ∈ F) (hprun : Piece.prun ∈ F) (hrefusals : Piece.refusals ∈ F) :
    ∃ t, execUnload p s = .next t ∧ Goes F s t := by
  have go := Goes.refl F s
  unfold execUnload
  try dsimp only
  repeat' first
    | refine ⟨_, rfl, ?_⟩
    | with_reducible assumption
    | with_reducible apply Goes.loadAnswer
    | (intro)
    | with_reducible apply Goes.modPr
    | with_reducible apply Goes.ite
    | split
    | with_reducible apply Goes.refusalsTo

theorem Goes.removeProgram {F : List Piece} {s₀ s : State} (p handle : Nat) (hdict : Piece.dict ∈ F) (hprun : Piece.prun ∈ F)
    (go : Goes F s₀ s) : Goes F s₀ (State.removeProgram s p handle) := by
  unfold State.removeProgram
  dsimp only
  repeat' first
    | with_reducible assumption
    | (intro)
    | with_reducible apply Goes.freeCopies
    | with_reducible apply Goes.modPr

theorem execUnloadComplete_goes {F : List Piece} (p : PartN) (s : State) (hdict : Piece.dict ∈ F) (hfns : Piece.fns ∈ F) (hfree : Piece.free ∈ F) (hhostMem : Piece.hostMem ∈ F) (hout : Piece.out ∈ F) (hprun : Piece.prun ∈ F) :
    ∃ t, execUnloadComplete p s = .next t ∧ Goes F s t := by
  have go := Goes.refl F s
  unfold execUnloadComplete
  try dsimp only
  repeat' first
    | refine ⟨_, rfl, ?_⟩
    | with_reducible assumption
    | (intro)
    | with_reducible apply Goes.loadAnswer
    | with_reducible apply Goes.modPr
    | with_reducible apply Goes.removeProgram
    | split

theorem Goes.scramble {F : List Piece} {s₀ s : State} (p : Nat) (l : List (Nat × Nat × Nat)) (hfree : Piece.free ∈ F)
    (hhbm : Piece.hbm ∈ F) (hhostMem : Piece.hostMem ∈ F) (go : Goes F s₀ s) : Goes F s₀ (State.scramble s p l) := by
  unfold State.scramble
  refine Goes.foldl _ (fun s x g => Goes.draw hfree (Goes.ite (Goes.hostWrite _ _ hhostMem g) (Goes.foldl _ (fun t i gt => ?_) g))) go
  split
  · exact gt
  · exact gt.hbmTo _ hhbm (swf_sput _ _ _ _)

theorem Goes.refreshCopies {F : List Piece} {s₀ s : State} (p : Nat) (binds : List Nat) (hdict : Piece.dict ∈ F) (hprun : Piece.prun ∈ F)
    (go : Goes F s₀ s) : Goes F s₀ (State.refreshCopies s p binds) := by
  unfold State.refreshCopies
  dsimp only
  repeat' first
    | with_reducible assumption
    | with_reducible apply Goes.foldl
    | with_reducible apply Goes.cancelMig
    | (intro)
    | with_reducible apply Goes.modPr
    | with_reducible apply Goes.sweepCopies

theorem Goes.startRun {F : List Piece} {s₀ s : State} (p id req : Nat) (binds : List Nat) (hdict : Piece.dict ∈ F) (hfree : Piece.free ∈ F) (hhbm : Piece.hbm ∈ F) (hhostMem : Piece.hostMem ∈ F) (hprun : Piece.prun ∈ F)
    (go : Goes F s₀ s) : Goes F s₀ (State.startRun s p id req binds) := by
  unfold State.startRun
  dsimp only
  repeat' first
    | with_reducible assumption
    | exact fun _ g => g
    | (intro)
    | with_reducible apply Goes.modPr
    | with_reducible apply Goes.modRun
    | with_reducible apply Goes.refreshCopies
    | with_reducible apply Goes.scramble
    | with_reducible apply Goes.ite
    | with_reducible apply Goes.foldl
    | split

theorem execRunRequest_goes {F : List Piece} (p : PartN) (bindings : List Byte) (s : State) (hdict : Piece.dict ∈ F) (hfree : Piece.free ∈ F) (hhbm : Piece.hbm ∈ F) (hhostMem : Piece.hostMem ∈ F) (hprun : Piece.prun ∈ F) (hrefusals : Piece.refusals ∈ F) :
    ∃ t, execRunRequest p bindings s = .next t ∧ Goes F s t := by
  have go := Goes.refl F s
  unfold execRunRequest
  try dsimp only
  repeat' first
    | refine ⟨_, rfl, ?_⟩
    | with_reducible assumption
    | exact fun _ g => g
    | (intro)
    | with_reducible apply Goes.modPr
    | with_reducible apply Goes.startRun
    | split
    | with_reducible apply Goes.refusalsTo

theorem Goes.completeCmd {F : List Piece} {s₀ s : State} (f : Found) (harrays : Piece.arrays ∈ F) (hbrims : Piece.brims ∈ F) (hdict : Piece.dict ∈ F) (hfns : Piece.fns ∈ F) (hfree : Piece.free ∈ F) (hhostMem : Piece.hostMem ∈ F) (hout : Piece.out ∈ F) (hpower : Piece.power ∈ F) (hprun : Piece.prun ∈ F) (hworks : Piece.works ∈ F)
    (go : Goes F s₀ s) : Goes F s₀ (State.completeCmd s f) := by
  unfold State.completeCmd
  dsimp only
  repeat' first
    | with_reducible assumption
    | (intro)
    | with_reducible apply Goes.bump
    | with_reducible apply Goes.detach
    | with_reducible apply Goes.draw
    | with_reducible apply Goes.dropWork
    | with_reducible apply Goes.endNotice
    | with_reducible apply Goes.ffSettle
    | with_reducible apply Goes.modCmd
    | with_reducible apply Goes.modPr
    | with_reducible apply Goes.modRun
    | with_reducible apply Goes.writeRecord
    | with_reducible apply Goes.ite
    | split

theorem execCommandComplete_goes {F : List Piece} (c : CmdRef) (s : State) (harrays : Piece.arrays ∈ F) (hbrims : Piece.brims ∈ F) (hdict : Piece.dict ∈ F) (hfns : Piece.fns ∈ F) (hfree : Piece.free ∈ F) (hhostMem : Piece.hostMem ∈ F) (hout : Piece.out ∈ F) (hpower : Piece.power ∈ F) (hprun : Piece.prun ∈ F) (hworks : Piece.works ∈ F) :
    ∃ t, execCommandComplete c s = .next t ∧ Goes F s t := by
  have go := Goes.refl F s
  unfold execCommandComplete
  refine ⟨_, rfl, ?_⟩
  repeat' first
    | with_reducible assumption
    | (intro)
    | with_reducible apply Goes.completeCmd
    | with_reducible apply Goes.modRef
    | with_reducible apply Goes.ite
    | split

theorem execRunComplete_goes {F : List Piece} (p : PartN) (run : Nat) (s : State) (hfns : Piece.fns ∈ F) (hfree : Piece.free ∈ F) (hhostMem : Piece.hostMem ∈ F) (hout : Piece.out ∈ F) (hprun : Piece.prun ∈ F) :
    ∃ t, execRunComplete p run s = .next t ∧ Goes F s t := by
  have go := Goes.refl F s
  unfold execRunComplete
  try dsimp only
  repeat' first
    | refine ⟨_, rfl, ?_⟩
    | with_reducible assumption
    | (intro)
    | with_reducible apply Goes.modPr
    | with_reducible apply Goes.modRun
    | with_reducible apply Goes.writeRecord
    | with_reducible apply Goes.ite
    | split

theorem Goes.endCmd {F : List Piece} {s₀ s : State} (f : Found) (code : Nat) (harrays : Piece.arrays ∈ F) (hbrims : Piece.brims ∈ F) (hdict : Piece.dict ∈ F) (hengines : Piece.engines ∈ F) (hfree : Piece.free ∈ F) (hout : Piece.out ∈ F) (hpower : Piece.power ∈ F) (hprun : Piece.prun ∈ F) (hworks : Piece.works ∈ F)
    (go : Goes F s₀ s) : Goes F s₀ (State.endCmd s f code) := by
  unfold State.endCmd
  dsimp only
  repeat' first
    | with_reducible assumption
    | with_reducible apply Goes.endEngines
    | with_reducible apply Goes.endStalls
    | (intro)
    | with_reducible apply Goes.abortPorts
    | with_reducible apply Goes.closeOutputs
    | with_reducible apply Goes.dropWork
    | with_reducible apply Goes.endNotice
    | with_reducible apply Goes.modRef
    | with_reducible apply Goes.ite
    | with_reducible apply Goes.foldl
    | split

theorem execRunTimeLimit_goes {F : List Piece} (p : PartN) (run : Nat) (s : State) (harrays : Piece.arrays ∈ F) (hbrims : Piece.brims ∈ F) (hclock : Piece.clock ∈ F) (hdict : Piece.dict ∈ F) (hengines : Piece.engines ∈ F) (hfree : Piece.free ∈ F) (hout : Piece.out ∈ F) (hpower : Piece.power ∈ F) (hprun : Piece.prun ∈ F) (hworks : Piece.works ∈ F) :
    ∃ t, execRunTimeLimit p run s = .next t ∧ Goes F s t := by
  have go := Goes.refl F s
  unfold execRunTimeLimit
  try dsimp only
  repeat' first
    | refine ⟨_, rfl, ?_⟩
    | with_reducible assumption
    | (intro)
    | with_reducible apply Goes.endCmd
    | with_reducible apply Goes.reach
    | with_reducible apply Goes.ite
    | with_reducible apply Goes.foldl
    | split

theorem Goes.abortCmd {F : List Piece} {s₀ s : State} (p : Nat) (x : Nat × Nat) (harrays : Piece.arrays ∈ F) (hbrims : Piece.brims ∈ F) (hdict : Piece.dict ∈ F) (hengines : Piece.engines ∈ F) (hfree : Piece.free ∈ F) (hout : Piece.out ∈ F) (hpower : Piece.power ∈ F) (hprun : Piece.prun ∈ F) (hworks : Piece.works ∈ F)
    (go : Goes F s₀ s) : Goes F s₀ (State.abortCmd s p x) := by
  unfold State.abortCmd
  try dsimp only
  repeat' first
    | with_reducible assumption
    | (intro)
    | with_reducible apply Goes.bump
    | with_reducible apply Goes.endCmd
    | with_reducible apply Goes.ite
    | split
    | dsimp only

theorem execWaitForSample_goes {F : List Piece} (p : PartN) (s : State) (harrays : Piece.arrays ∈ F) (hbrims : Piece.brims ∈ F) (hdict : Piece.dict ∈ F) (hengines : Piece.engines ∈ F) (hfree : Piece.free ∈ F) (hout : Piece.out ∈ F) (hpower : Piece.power ∈ F) (hprun : Piece.prun ∈ F) (hworks : Piece.works ∈ F) :
    ∃ t, execWaitForSample p s = .next t ∧ Goes F s t := by
  have go := Goes.refl F s
  unfold execWaitForSample
  refine ⟨_, rfl, ?_⟩
  try dsimp only
  repeat' first
    | with_reducible assumption
    | (intro)
    | with_reducible apply Goes.abortCmd
    | with_reducible apply Goes.modPr
    | with_reducible apply Goes.foldl
    | with_reducible apply Goes.elim
    | dsimp only

end Sys2Proof.Machine
end

