-- ==== Sys2Proof/Laws/Reliability.lean ====
section
/-! SUPPORT. What the operations of Machine/Reliability.lean may change, and that each keeps what the model keeps throughout. -/

namespace Sys2Proof.Machine

theorem Goes.setTileState {F : List Piece} {s₀ s : State} (k v : Nat) (hdict : Piece.dict ∈ F) (hmill : Piece.mill ∈ F) (hpower : Piece.power ∈ F)
    (go : Goes F s₀ s) : Goes F s₀ (State.setTileState s k v) := by
  unfold State.setTileState
  dsimp only
  repeat' first
    | with_reducible assumption
    | with_reducible apply Goes.persist
    | with_reducible apply Goes.refreshDomains
    | with_reducible apply Goes.setReg

theorem Goes.startAgain {F : List Piece} {s₀ s : State} (w : Work) (t : Nat) (hdict : Piece.dict ∈ F) (hprun : Piece.prun ∈ F) (hworks : Piece.works ∈ F)
    (go : Goes F s₀ s) : Goes F s₀ (State.startAgain s w t) := by
  unfold State.startAgain
  try dsimp only
  repeat' first
    | with_reducible assumption
    | (intro)
    | with_reducible apply Goes.placePart
    | with_reducible apply Goes.elim
    | split
    | with_reducible apply Goes.worksTo
    | dsimp only

theorem Goes.modSample {F : List Piece} {s₀ s : State} (w : Work) (g : Sample → Sample) (hprun : Piece.prun ∈ F)
    (go : Goes F s₀ s) : Goes F s₀ (State.modSample s w g) := by
  unfold State.modSample
  try dsimp only
  repeat' first
    | with_reducible assumption
    | (intro)
    | with_reducible apply Goes.modRef
    | dsimp only

theorem Goes.moveDuplicate {F : List Piece} {s₀ s : State} (orig : Nat) (w : Work) (harrays : Piece.arrays ∈ F) (hdict : Piece.dict ∈ F) (hprun : Piece.prun ∈ F) (hworks : Piece.works ∈ F)
    (go : Goes F s₀ s) : Goes F s₀ (State.moveDuplicate s orig w) := by
  unfold State.moveDuplicate
  try dsimp only
  repeat' first
    | with_reducible assumption
    | (intro)
    | with_reducible apply Goes.bump
    | with_reducible apply Goes.modRef
    | with_reducible apply Goes.modSample
    | with_reducible apply Goes.startAgain
    | with_reducible apply Goes.takeWork
    | split
    | dsimp only

theorem Goes.rerun {F : List Piece} {s₀ s : State} (k : Nat) (w : Work) (harrays : Piece.arrays ∈ F) (hdict : Piece.dict ∈ F) (hprun : Piece.prun ∈ F) (hworks : Piece.works ∈ F)
    (go : Goes F s₀ s) : Goes F s₀ (State.rerun s k w) := by
  unfold State.rerun
  try dsimp only
  repeat' first
    | with_reducible assumption
    | (intro)
    | with_reducible apply Goes.moveDuplicate
    | with_reducible apply Goes.bump
    | with_reducible apply Goes.modRef
    | with_reducible apply Goes.modSample
    | with_reducible apply Goes.startAgain
    | with_reducible apply Goes.takeWork
    | with_reducible apply Goes.ite
    | with_reducible apply Goes.elim
    | split
    | dsimp only

theorem Goes.quarantine {F : List Piece} {s₀ s : State} (k : Nat) (hdict : Piece.dict ∈ F) (harrays : Piece.arrays ∈ F) (hmill : Piece.mill ∈ F) (hmismatches : Piece.mismatches ∈ F) (hpower : Piece.power ∈ F) (hprun : Piece.prun ∈ F) (htests : Piece.tests ∈ F) (hworks : Piece.works ∈ F)
    (go : Goes F s₀ s) : Goes F s₀ (State.quarantine s k) := by
  unfold State.quarantine
  dsimp only
  repeat' first
    | with_reducible assumption
    | with_reducible apply Goes.modArray
    | (intro)
    | with_reducible apply Goes.rerun
    | with_reducible apply Goes.setHalves
    | with_reducible apply Goes.setReg
    | with_reducible apply Goes.setTileState
    | with_reducible apply Goes.ite
    | with_reducible apply Goes.foldl
    | split
    | with_reducible apply Goes.mismatchesTo
    | with_reducible apply Goes.testsTo

theorem execTileTestEnd_goes {F : List Piece} (die : DieC) (tile : TileN) (pass : Bool) (s : State) (hdict : Piece.dict ∈ F) (hmill : Piece.mill ∈ F) (hpower : Piece.power ∈ F) (htests : Piece.tests ∈ F) :
    ∃ t, execTileTestEnd die tile pass s = .next t ∧ Goes F s t := by
  have go := Goes.refl F s
  unfold execTileTestEnd
  try dsimp only
  repeat' first
    | refine ⟨_, rfl, ?_⟩
    | with_reducible assumption
    | (intro)
    | with_reducible apply Goes.bump
    | with_reducible apply Goes.setTileState
    | with_reducible apply Goes.ite
    | split
    | with_reducible apply Goes.testsTo

theorem Goes.orderTest {F : List Piece} {s₀ s : State} (k : Nat) (hdict : Piece.dict ∈ F) (hmill : Piece.mill ∈ F) (hpower : Piece.power ∈ F) (htests : Piece.tests ∈ F)
    (go : Goes F s₀ s) : Goes F s₀ (State.orderTest s k) := by
  unfold State.orderTest
  repeat' first
    | with_reducible assumption
    | with_reducible apply Goes.setTileState
    | with_reducible apply Goes.testsTo

theorem Goes.comparisonStalls {F : List Piece} {s₀ s : State} (f : Found) (waited : List (Nat × DieC × W32)) (hdict : Piece.dict ∈ F) (hprun : Piece.prun ∈ F)
    (go : Goes F s₀ s) : Goes F s₀ (State.comparisonStalls s f waited) := by
  unfold State.comparisonStalls
  try dsimp only
  repeat' first
    | with_reducible assumption
    | (intro)
    | with_reducible apply Goes.stall
    | with_reducible apply Goes.ite
    | with_reducible apply Goes.foldl
    | split
    | dsimp only

theorem execDuplicateCompare_goes {F : List Piece} (c : CmdRef) (unit : Nat) (differ : Bool) (waited : List (Nat × DieC × W32)) (s : State) (harrays : Piece.arrays ∈ F) (hdict : Piece.dict ∈ F) (hmill : Piece.mill ∈ F) (hmismatches : Piece.mismatches ∈ F) (hpower : Piece.power ∈ F) (hprun : Piece.prun ∈ F) (htests : Piece.tests ∈ F) (hworks : Piece.works ∈ F) :
    ∃ t, execDuplicateCompare c unit differ waited s = .next t ∧ Goes F s t := by
  have go := Goes.refl F s
  unfold execDuplicateCompare
  refine ⟨_, rfl, ?_⟩
  try dsimp only
  repeat' first
    | with_reducible assumption
    | (intro)
    | with_reducible apply Goes.bump
    | with_reducible apply Goes.comparisonStalls
    | with_reducible apply Goes.endWorks
    | with_reducible apply Goes.modRef
    | with_reducible apply Goes.modRun
    | with_reducible apply Goes.quarantine
    | with_reducible apply Goes.ite
    | split
    | dsimp only

theorem Goes.putHbm {F : List Piece} {s₀ s : State} (p addr : Nat) (bs : List Byte) (hdict : Piece.dict ∈ F) (hfns : Piece.fns ∈ F) (hfree : Piece.free ∈ F) (hhbm : Piece.hbm ∈ F) (hmill : Piece.mill ∈ F) (hout : Piece.out ∈ F) (hpoison : Piece.poison ∈ F) (hstackSides : Piece.stackSides ∈ F)
    (go : Goes F s₀ s) : Goes F s₀ (State.putHbm s p addr bs) := by
  unfold State.putHbm
  repeat' first
    | with_reducible assumption
    | (intro)
    | with_reducible apply Goes.writeWord
    | with_reducible apply Goes.foldl
    | split

theorem Goes.copyOut {F : List Piece} {s₀ s : State} (f : Found) (e : Nat × Nat × Nat) (data : List Byte) (mix : Bool) (hdict : Piece.dict ∈ F) (hfns : Piece.fns ∈ F) (hfree : Piece.free ∈ F) (hhbm : Piece.hbm ∈ F) (hhostMem : Piece.hostMem ∈ F) (hmill : Piece.mill ∈ F) (hout : Piece.out ∈ F) (hpoison : Piece.poison ∈ F) (hstackSides : Piece.stackSides ∈ F)
    (go : Goes F s₀ s) : Goes F s₀ (State.copyOut s f e data mix) := by
  unfold State.copyOut
  dsimp only
  repeat' first
    | with_reducible assumption
    | (intro)
    | with_reducible apply Goes.draw
    | with_reducible apply Goes.hostWrite
    | with_reducible apply Goes.putHbm
    | with_reducible apply Goes.ite
    | with_reducible apply Goes.foldl

theorem Goes.copyAll {F : List Piece} {s₀ s : State} (f : Found) (mix : Bool) (hdict : Piece.dict ∈ F) (hfns : Piece.fns ∈ F) (hfree : Piece.free ∈ F) (hhbm : Piece.hbm ∈ F) (hhostMem : Piece.hostMem ∈ F) (hmill : Piece.mill ∈ F) (hout : Piece.out ∈ F) (hpoison : Piece.poison ∈ F) (hprun : Piece.prun ∈ F) (hstackSides : Piece.stackSides ∈ F)
    (go : Goes F s₀ s) : Goes F s₀ (State.copyAll s f mix) := by
  unfold State.copyAll
  dsimp only
  repeat' first
    | with_reducible assumption
    | (intro)
    | with_reducible apply Goes.copyOut
    | with_reducible apply Goes.pushQueue
    | with_reducible apply Goes.ite
    | with_reducible apply Goes.foldl

theorem execReplayCommit_goes {F : List Piece} (c : CmdRef) (fails : List (DieC × Byte)) (differ copyFails : Bool) (s : State) (harrays : Piece.arrays ∈ F) (hdict : Piece.dict ∈ F) (hfns : Piece.fns ∈ F) (hfree : Piece.free ∈ F) (hhbm : Piece.hbm ∈ F) (hhostMem : Piece.hostMem ∈ F) (hmill : Piece.mill ∈ F) (hout : Piece.out ∈ F) (hpoison : Piece.poison ∈ F) (hprun : Piece.prun ∈ F) (hstackSides : Piece.stackSides ∈ F) (hworks : Piece.works ∈ F) :
    ∃ t, execReplayCommit c fails differ copyFails s = .next t ∧ Goes F s t := by
  have go := Goes.refl F s
  unfold execReplayCommit
  refine ⟨_, rfl, ?_⟩
  try dsimp only
  repeat' first
    | with_reducible assumption
    | with_reducible apply Goes.endWorks
    | (intro)
    | with_reducible apply Goes.bump
    | with_reducible apply Goes.closeOutputs
    | with_reducible apply Goes.copyAll
    | with_reducible apply Goes.modRef
    | with_reducible apply Goes.ite
    | with_reducible apply Goes.foldl
    | split

theorem execReplicaSample_goes {F : List Piece} (g : GroupN) (remote : List (Fin 16 × W64)) (missed : Bool) (s : State) (hdict : Piece.dict ∈ F) (hfns : Piece.fns ∈ F) (hfree : Piece.free ∈ F) (hmill : Piece.mill ∈ F) (hout : Piece.out ∈ F) :
    ∃ t, execReplicaSample g remote missed s = .next t ∧ Goes F s t := by
  have go := Goes.refl F s
  unfold execReplicaSample
  try dsimp only
  repeat' first
    | refine ⟨_, rfl, ?_⟩
    | with_reducible assumption
    | (intro)
    | with_reducible apply Goes.bump
    | with_reducible apply Goes.raise
    | with_reducible apply Goes.setReg
    | with_reducible apply Goes.ite
    | with_reducible apply Goes.foldl
    | split

theorem Goes.mirrorStalls {F : List Piece} {s₀ s : State} (c : CmdRef) (hdict : Piece.dict ∈ F) (hprun : Piece.prun ∈ F)
    (go : Goes F s₀ s) : Goes F s₀ (State.mirrorStalls s c) := by
  unfold State.mirrorStalls
  dsimp only
  repeat' first
    | with_reducible assumption
    | (intro)
    | with_reducible apply Goes.stall
    | with_reducible apply Goes.foldl
    | split

theorem Goes.mirrorEnds {F : List Piece} {s₀ s : State} (c : CmdRef) (code : Option Nat) (harrays : Piece.arrays ∈ F) (hbrims : Piece.brims ∈ F) (hdict : Piece.dict ∈ F) (hfns : Piece.fns ∈ F) (hfree : Piece.free ∈ F) (hhostMem : Piece.hostMem ∈ F) (hout : Piece.out ∈ F) (hpower : Piece.power ∈ F) (hprun : Piece.prun ∈ F) (hworks : Piece.works ∈ F)
    (go : Goes F s₀ s) : Goes F s₀ (State.mirrorEnds s c code) := by
  unfold State.mirrorEnds
  dsimp only
  repeat' first
    | with_reducible assumption
    | (intro)
    | with_reducible apply Goes.completeCmd
    | with_reducible apply Goes.mirrorStalls
    | with_reducible apply Goes.modRef
    | split

theorem execMirrorDigests_goes {F : List Piece} (c : CmdRef) (digests : List W64) (s : State) (harrays : Piece.arrays ∈ F) (hbrims : Piece.brims ∈ F) (hdict : Piece.dict ∈ F) (hfns : Piece.fns ∈ F) (hfree : Piece.free ∈ F) (hhostMem : Piece.hostMem ∈ F) (hout : Piece.out ∈ F) (hpower : Piece.power ∈ F) (hprun : Piece.prun ∈ F) (hworks : Piece.works ∈ F) :
    ∃ t, execMirrorDigests c digests s = .next t ∧ Goes F s t := by
  have go := Goes.refl F s
  unfold execMirrorDigests
  refine ⟨_, rfl, ?_⟩
  try dsimp only
  repeat' first
    | with_reducible assumption
    | with_reducible apply Goes.bump
    | with_reducible apply Goes.mirrorEnds
    | with_reducible apply Goes.setReg
    | with_reducible apply Goes.ite
    | split

theorem execMirrorWait_goes {F : List Piece} (c : CmdRef) (s : State) (harrays : Piece.arrays ∈ F) (hbrims : Piece.brims ∈ F) (hclock : Piece.clock ∈ F) (hdict : Piece.dict ∈ F) (hfns : Piece.fns ∈ F) (hfree : Piece.free ∈ F) (hhostMem : Piece.hostMem ∈ F) (hout : Piece.out ∈ F) (hpower : Piece.power ∈ F) (hprun : Piece.prun ∈ F) (hworks : Piece.works ∈ F) :
    ∃ t, execMirrorWait c s = .next t ∧ Goes F s t := by
  have go := Goes.refl F s
  unfold execMirrorWait
  refine ⟨_, rfl, ?_⟩
  try dsimp only
  repeat' first
    | with_reducible assumption
    | with_reducible apply Goes.mirrorEnds
    | with_reducible apply Goes.reach
    | with_reducible apply Goes.setReg
    | with_reducible apply Goes.ite
    | split

end Sys2Proof.Machine
end

