-- ==== Sys2Proof/Laws/Images.lean ====
section
/-! SUPPORT. What the operations of Machine/Images.lean may change, and that each keeps what the model keeps throughout. -/

namespace Sys2Proof.Machine

theorem Goes.detachFails {F : List Piece} {s₀ s : State} (c : Nat) (a : Attach) (harrays : Piece.arrays ∈ F) (hbrims : Piece.brims ∈ F) (hdict : Piece.dict ∈ F) (hfree : Piece.free ∈ F) (hout : Piece.out ∈ F) (hprun : Piece.prun ∈ F) (hworks : Piece.works ∈ F)
    (go : Goes F s₀ s) : Goes F s₀ (State.detachFails s c a) := by
  unfold State.detachFails
  dsimp only
  repeat' first
    | with_reducible assumption
    | (intro)
    | with_reducible apply Goes.abortPorts
    | with_reducible apply Goes.closeOutputs
    | with_reducible apply Goes.dropWork
    | with_reducible apply Goes.modBrim
    | with_reducible apply Goes.modRef
    | with_reducible apply Goes.ite
    | split

theorem Goes.modLoad {F : List Piece} {s₀ s : State} (c : Nat) (g : Load → Load) (hbrims : Piece.brims ∈ F)
    (go : Goes F s₀ s) : Goes F s₀ (State.modLoad s c g) := by
  unfold State.modLoad
  repeat' first
    | with_reducible assumption
    | (intro)
    | with_reducible apply Goes.modBrim

theorem Goes.loadEnds {F : List Piece} {s₀ s : State} (c : Nat) (l : Load) (st code : Nat) (hbrims : Piece.brims ∈ F) (hcfg : Piece.cfg ∈ F) (hdict : Piece.dict ∈ F) (hout : Piece.out ∈ F)
    (go : Goes F s₀ s) : Goes F s₀ (State.loadEnds s c l st code) := by
  unfold State.loadEnds
  dsimp only
  repeat' first
    | with_reducible assumption
    | (intro)
    | with_reducible apply Goes.emit
    | with_reducible apply Goes.modBrim
    | with_reducible apply Goes.setReg
    | with_reducible apply Goes.ite
    | split
    | with_reducible apply Goes.cfgTo

theorem Goes.loadFails {F : List Piece} {s₀ s : State} (c code : Nat) (harrays : Piece.arrays ∈ F) (hbrims : Piece.brims ∈ F) (hcfg : Piece.cfg ∈ F) (hdict : Piece.dict ∈ F) (hframes : Piece.frames ∈ F) (hfree : Piece.free ∈ F) (hout : Piece.out ∈ F) (hprun : Piece.prun ∈ F) (hworks : Piece.works ∈ F)
    (go : Goes F s₀ s) : Goes F s₀ (State.loadFails s c code) := by
  unfold State.loadFails
  dsimp only
  repeat' first
    | with_reducible assumption
    | with_reducible apply Goes.thawAll
    | (intro)
    | with_reducible apply Goes.avsFrom
    | with_reducible apply Goes.blankRegions
    | with_reducible apply Goes.detachFails
    | with_reducible apply Goes.loadEnds
    | with_reducible apply Goes.modBrim
    | with_reducible apply Goes.setReg
    | with_reducible apply Goes.ite
    | with_reducible apply Goes.foldl
    | split

theorem Goes.abandonLoads {F : List Piece} {s₀ s : State} (c : Nat) (keep : Load → Bool) (n : Nat) (harrays : Piece.arrays ∈ F) (hbrims : Piece.brims ∈ F) (hcfg : Piece.cfg ∈ F) (hdict : Piece.dict ∈ F) (hframes : Piece.frames ∈ F) (hfree : Piece.free ∈ F) (hout : Piece.out ∈ F) (hprun : Piece.prun ∈ F) (hworks : Piece.works ∈ F)
    (go : Goes F s₀ s) : Goes F s₀ (State.abandonLoads c keep n s) := by
  induction n generalizing s with
  | zero => exact go
  | succ n ih =>
    unfold State.abandonLoads
    try dsimp only
    repeat' first
      | with_reducible assumption
      | with_reducible apply ih
      | (intro)
      | with_reducible apply Goes.loadEnds
      | with_reducible apply Goes.loadFails
      | with_reducible apply Goes.ite
      | split

theorem Goes.queueLoad {F : List Piece} {s₀ s : State} (c path : Nat) (hbrims : Piece.brims ∈ F) (hdict : Piece.dict ∈ F)
    (go : Goes F s₀ s) : Goes F s₀ (State.queueLoad s c path) := by
  unfold State.queueLoad
  dsimp only
  repeat' first
    | with_reducible assumption
    | (intro)
    | with_reducible apply Goes.modBrim
    | with_reducible apply Goes.setReg

theorem execCfgImageStart_goes {F : List Piece} (parallel : Bool) (s : State) (hcfg : Piece.cfg ∈ F) :
    ∃ t, execCfgImageStart parallel s = .next t ∧ Goes F s t := by
  have go := Goes.refl F s
  unfold execCfgImageStart
  refine ⟨_, rfl, ?_⟩
  repeat' first
    | with_reducible assumption
    | with_reducible apply Goes.ite
    | split
    | with_reducible apply Goes.cfgTo

theorem execCfgCsNRise_goes {F : List Piece} (s : State) (harrays : Piece.arrays ∈ F) (hbrims : Piece.brims ∈ F) (hcfg : Piece.cfg ∈ F) (hdict : Piece.dict ∈ F) (hframes : Piece.frames ∈ F) (hfree : Piece.free ∈ F) (hout : Piece.out ∈ F) (hprun : Piece.prun ∈ F) (hworks : Piece.works ∈ F) :
    ∃ t, execCfgCsNRise s = .next t ∧ Goes F s t := by
  have go := Goes.refl F s
  unfold execCfgCsNRise
  refine ⟨_, rfl, ?_⟩
  repeat' first
    | with_reducible assumption
    | with_reducible apply Goes.emit
    | with_reducible apply Goes.loadFails
    | with_reducible apply Goes.ite
    | split
    | with_reducible apply Goes.cfgTo

theorem execTpStart_goes {F : List Piece} (die : DieC) (s : State) (hbrims : Piece.brims ∈ F) (hdict : Piece.dict ∈ F) :
    ∃ t, execTpStart die s = .next t ∧ Goes F s t := by
  have go := Goes.refl F s
  unfold execTpStart
  try dsimp only
  repeat' first
    | refine ⟨_, rfl, ?_⟩
    | with_reducible assumption
    | (intro)
    | with_reducible apply Goes.queueLoad
    | with_reducible apply Goes.ite

theorem execTpAbort_goes {F : List Piece} (die : DieC) (s : State) (harrays : Piece.arrays ∈ F) (hbrims : Piece.brims ∈ F) (hcfg : Piece.cfg ∈ F) (hdict : Piece.dict ∈ F) (hframes : Piece.frames ∈ F) (hfree : Piece.free ∈ F) (hout : Piece.out ∈ F) (hprun : Piece.prun ∈ F) (hworks : Piece.works ∈ F) :
    ∃ t, execTpAbort die s = .next t ∧ Goes F s t := by
  have go := Goes.refl F s
  unfold execTpAbort
  try dsimp only
  repeat' first
    | refine ⟨_, rfl, ?_⟩
    | with_reducible assumption
    | (intro)
    | with_reducible apply Goes.loadEnds
    | with_reducible apply Goes.loadFails
    | with_reducible apply Goes.ite
    | split

theorem execLoadStart_goes {F : List Piece} (die : DieC) (s : State) (harrays : Piece.arrays ∈ F) (hbrims : Piece.brims ∈ F) (hcfg : Piece.cfg ∈ F) (hdict : Piece.dict ∈ F) (hframes : Piece.frames ∈ F) (hfree : Piece.free ∈ F) (hout : Piece.out ∈ F) (hprun : Piece.prun ∈ F) (hworks : Piece.works ∈ F) :
    ∃ t, execLoadStart die s = .next t ∧ Goes F s t := by
  have go := Goes.refl F s
  unfold execLoadStart
  try dsimp only
  repeat' first
    | refine ⟨_, rfl, ?_⟩
    | with_reducible assumption
    | (intro)
    | with_reducible apply Goes.loadFails
    | with_reducible apply Goes.modLoad
    | with_reducible apply Goes.setReg
    | with_reducible apply Goes.ite
    | split

theorem Goes.borderBegins {F : List Piece} {s₀ s : State} (c path : Nat) (bs : List Byte) (hbrims : Piece.brims ∈ F)
    (go : Goes F s₀ s) : Goes F s₀ (State.borderBegins s c path bs) := by
  unfold State.borderBegins
  dsimp only
  repeat' first
    | with_reducible assumption
    | with_reducible apply Goes.ite
    | (intro)
    | with_reducible apply Goes.modBrim

theorem execHeaderCheck_goes {F : List Piece} (die : DieC) (bytes : List Byte) (s : State) (harrays : Piece.arrays ∈ F) (hbrims : Piece.brims ∈ F) (hcfg : Piece.cfg ∈ F) (hdict : Piece.dict ∈ F) (hframes : Piece.frames ∈ F) (hfree : Piece.free ∈ F) (hout : Piece.out ∈ F) (hprun : Piece.prun ∈ F) (hworks : Piece.works ∈ F) :
    ∃ t, execHeaderCheck die bytes s = .next t ∧ Goes F s t := by
  have go := Goes.refl F s
  unfold execHeaderCheck
  try dsimp only
  repeat' first
    | refine ⟨_, rfl, ?_⟩
    | with_reducible assumption
    | (intro)
    | with_reducible apply Goes.borderBegins
    | with_reducible apply Goes.emit
    | with_reducible apply Goes.loadFails
    | with_reducible apply Goes.modLoad
    | with_reducible apply Goes.queueLoad
    | with_reducible apply Goes.ite
    | split
    | with_reducible apply Goes.cfgTo

theorem Goes.pounceCorrect {F : List Piece} {s₀ s : State} (c : Nat) (hbrims : Piece.brims ∈ F) (hdict : Piece.dict ∈ F)
    (go : Goes F s₀ s) : Goes F s₀ (State.pounceCorrect s c) := by
  unfold State.pounceCorrect
  repeat' first
    | with_reducible assumption
    | (intro)
    | with_reducible apply Goes.bump
    | with_reducible apply Goes.modBrim
    | split

theorem execGsrAssert_goes {F : List Piece} (die : DieC) (s : State) (hbrims : Piece.brims ∈ F) (hclock : Piece.clock ∈ F) (hdict : Piece.dict ∈ F) :
    ∃ t, execGsrAssert die s = .next t ∧ Goes F s t := by
  have go := Goes.refl F s
  unfold execGsrAssert
  try dsimp only
  repeat' first
    | refine ⟨_, rfl, ?_⟩
    | with_reducible assumption
    | with_reducible apply Goes.setReset
    | (intro)
    | with_reducible apply Goes.modBrim
    | with_reducible apply Goes.modLoad
    | with_reducible apply Goes.pounceCorrect
    | with_reducible apply Goes.reach
    | with_reducible apply Goes.ite
    | split

theorem execFrameRecord_goes {F : List Piece} (die : DieC) (bytes : List Byte) (s : State) (harrays : Piece.arrays ∈ F) (hbrims : Piece.brims ∈ F) (hcfg : Piece.cfg ∈ F) (hdict : Piece.dict ∈ F) (hframes : Piece.frames ∈ F) (hfree : Piece.free ∈ F) (hout : Piece.out ∈ F) (hprun : Piece.prun ∈ F) (hworks : Piece.works ∈ F) :
    ∃ t, execFrameRecord die bytes s = .next t ∧ Goes F s t := by
  have go := Goes.refl F s
  unfold execFrameRecord
  try dsimp only
  repeat' first
    | refine ⟨_, rfl, ?_⟩
    | with_reducible assumption
    | (intro)
    | with_reducible apply Goes.loadFails
    | with_reducible apply Goes.modBrim
    | with_reducible apply Goes.modLoad
    | with_reducible apply Goes.setFrame
    | with_reducible apply Goes.ite
    | with_reducible apply Goes.foldl
    | split

theorem execImageDigestCheck_goes {F : List Piece} (die : DieC) (s : State) (harrays : Piece.arrays ∈ F) (hbrims : Piece.brims ∈ F) (hcfg : Piece.cfg ∈ F) (hclock : Piece.clock ∈ F) (hdict : Piece.dict ∈ F) (hframes : Piece.frames ∈ F) (hfree : Piece.free ∈ F) (hout : Piece.out ∈ F) (hprun : Piece.prun ∈ F) (hworks : Piece.works ∈ F) :
    ∃ t, execImageDigestCheck die s = .next t ∧ Goes F s t := by
  have go := Goes.refl F s
  unfold execImageDigestCheck
  try dsimp only
  repeat' first
    | refine ⟨_, rfl, ?_⟩
    | with_reducible assumption
    | (intro)
    | with_reducible apply Goes.loadFails
    | with_reducible apply Goes.modLoad
    | with_reducible apply Goes.reach
    | with_reducible apply Goes.ite
    | split

theorem execGsrRelease_goes {F : List Piece} (die : DieC) (s : State) (harrays : Piece.arrays ∈ F) (hbrims : Piece.brims ∈ F) (hcfg : Piece.cfg ∈ F) (hclock : Piece.clock ∈ F) (hdict : Piece.dict ∈ F) (hfree : Piece.free ∈ F) (hout : Piece.out ∈ F) (hprun : Piece.prun ∈ F) (hsec : Piece.sec ∈ F) (hworks : Piece.works ∈ F) :
    ∃ t, execGsrRelease die s = .next t ∧ Goes F s t := by
  have go := Goes.refl F s
  unfold execGsrRelease
  try dsimp only
  repeat' first
    | refine ⟨_, rfl, ?_⟩
    | with_reducible assumption
    | with_reducible apply Goes.initRegions
    | with_reducible apply Goes.thawAll
    | (intro)
    | with_reducible apply Goes.avsFrom
    | with_reducible apply Goes.detachFails
    | with_reducible apply Goes.loadEnds
    | with_reducible apply Goes.modBrim
    | with_reducible apply Goes.modSec
    | with_reducible apply Goes.reach
    | with_reducible apply Goes.setReg
    | with_reducible apply Goes.ite
    | with_reducible apply Goes.foldl
    | split

theorem Goes.holdRegion {F : List Piece} {s₀ s : State} (c r : Nat) (harrays : Piece.arrays ∈ F) (hbrims : Piece.brims ∈ F) (hdict : Piece.dict ∈ F) (hfree : Piece.free ∈ F) (hout : Piece.out ∈ F) (hprun : Piece.prun ∈ F) (hworks : Piece.works ∈ F)
    (go : Goes F s₀ s) : Goes F s₀ (State.holdRegion s c r) := by
  unfold State.holdRegion
  dsimp only
  repeat' first
    | with_reducible assumption
    | (intro)
    | with_reducible apply Goes.detachFails
    | with_reducible apply Goes.modBrim
    | with_reducible apply Goes.setReg
    | with_reducible apply Goes.foldl

theorem execPounceFrameRead_goes {F : List Piece} (die : DieC) (cond : WordCond) (s : State) (harrays : Piece.arrays ∈ F) (hbrims : Piece.brims ∈ F) (hdict : Piece.dict ∈ F) (hfns : Piece.fns ∈ F) (hfree : Piece.free ∈ F) (hmill : Piece.mill ∈ F) (hout : Piece.out ∈ F) (hprun : Piece.prun ∈ F) (hworks : Piece.works ∈ F) :
    ∃ t, execPounceFrameRead die cond s = .next t ∧ Goes F s t := by
  have go := Goes.refl F s
  unfold execPounceFrameRead
  try dsimp only
  repeat' first
    | refine ⟨_, rfl, ?_⟩
    | with_reducible assumption
    | (intro)
    | with_reducible apply Goes.bump
    | with_reducible apply Goes.holdRegion
    | with_reducible apply Goes.modBrim
    | with_reducible apply Goes.raise
    | with_reducible apply Goes.setReg
    | with_reducible apply Goes.ite
    | split

theorem execPounceCorrect_goes {F : List Piece} (die : DieC) (s : State) (hbrims : Piece.brims ∈ F) (hdict : Piece.dict ∈ F) :
    ∃ t, execPounceCorrect die s = .next t ∧ Goes F s t := by
  have go := Goes.refl F s
  unfold execPounceCorrect
  refine ⟨_, rfl, ?_⟩
  repeat' first | with_reducible assumption | with_reducible apply Goes.pounceCorrect

theorem Goes.clearBrim {F : List Piece} {s₀ s : State} (c : Nat) (harrays : Piece.arrays ∈ F) (hbrims : Piece.brims ∈ F) (hcfg : Piece.cfg ∈ F) (hdict : Piece.dict ∈ F) (hframes : Piece.frames ∈ F) (hfree : Piece.free ∈ F) (hout : Piece.out ∈ F) (hprun : Piece.prun ∈ F) (hworks : Piece.works ∈ F)
    (go : Goes F s₀ s) : Goes F s₀ (State.clearBrim s c) := by
  unfold State.clearBrim
  dsimp only
  repeat' first
    | with_reducible assumption
    | (intro)
    | with_reducible apply Goes.abandonLoads
    | with_reducible apply Goes.blankRegions
    | with_reducible apply Goes.setReg
    | with_reducible apply Goes.brimsTo

end Sys2Proof.Machine
end

