-- ==== Sys2Proof/Laws/Lanes.lean ====
section
/-! SUPPORT. What the operations of Machine/Lanes.lean may change, and that each keeps what the model keeps throughout. -/

namespace Sys2Proof.Machine

theorem Goes.laneTo {F : List Piece} {s₀ s : State} (g l st : Nat) (hdict : Piece.dict ∈ F) (hlanes : Piece.lanes ∈ F)
    (go : Goes F s₀ s) : Goes F s₀ (State.laneTo s g l st) := by
  unfold State.laneTo
  dsimp only
  repeat' first
    | with_reducible assumption
    | (intro)
    | with_reducible apply Goes.modLg
    | with_reducible apply Goes.setReg

theorem Goes.fromLane {F : List Piece} {s₀ s : State} (g : GroupN) (l : LaneN) (st : Nat) (f : State → State) (hf : ∀ s, Goes F s₀ s → Goes F s₀ (f s)) 
    (go : Goes F s₀ s) : Goes F s₀ (State.fromLane s g l st f) := by
  unfold State.fromLane
  repeat' first
    | with_reducible assumption
    | with_reducible apply hf
    | with_reducible apply Goes.ite

theorem Goes.laneReady {F : List Piece} {s₀ s : State} (g l : Nat) (hdict : Piece.dict ∈ F) (hlanes : Piece.lanes ∈ F)
    (go : Goes F s₀ s) : Goes F s₀ (State.laneReady s g l) := by
  unfold State.laneReady
  dsimp only
  repeat' first
    | with_reducible assumption
    | (intro)
    | with_reducible apply Goes.laneTo
    | with_reducible apply Goes.modLg
    | with_reducible apply Goes.setReg
    | with_reducible apply Goes.ite

theorem execClockLock_goes {F : List Piece} (g : GroupN) (lane : LaneN) (s : State) (hdict : Piece.dict ∈ F) (hlanes : Piece.lanes ∈ F) :
    ∃ t, execClockLock g lane s = .next t ∧ Goes F s t := by
  have go := Goes.refl F s
  unfold execClockLock
  refine ⟨_, rfl, ?_⟩
  repeat' first
    | with_reducible assumption
    | (intro)
    | with_reducible apply Goes.fromLane
    | with_reducible apply Goes.laneTo

theorem execCommaAlign_goes {F : List Piece} (g : GroupN) (lane : LaneN) (inverted : Bool) (s : State) (hdict : Piece.dict ∈ F) (hlanes : Piece.lanes ∈ F) :
    ∃ t, execCommaAlign g lane inverted s = .next t ∧ Goes F s t := by
  have go := Goes.refl F s
  unfold execCommaAlign
  refine ⟨_, rfl, ?_⟩
  try dsimp only
  repeat' first
    | with_reducible assumption
    | (intro)
    | with_reducible apply Goes.fromLane
    | with_reducible apply Goes.laneTo
    | with_reducible apply Goes.setReg

theorem execAlignTimeout_goes {F : List Piece} (g : GroupN) (lane : LaneN) (s : State) (hclock : Piece.clock ∈ F) (hdict : Piece.dict ∈ F) (hlanes : Piece.lanes ∈ F) :
    ∃ t, execAlignTimeout g lane s = .next t ∧ Goes F s t := by
  have go := Goes.refl F s
  unfold execAlignTimeout
  refine ⟨_, rfl, ?_⟩
  repeat' first
    | with_reducible assumption
    | (intro)
    | with_reducible apply Goes.fromLane
    | with_reducible apply Goes.laneTo
    | with_reducible apply Goes.reach

theorem execEqDone_goes {F : List Piece} (g : GroupN) (lane : LaneN) (s : State) (hclock : Piece.clock ∈ F) (hdict : Piece.dict ∈ F) (hfree : Piece.free ∈ F) (hlanes : Piece.lanes ∈ F) :
    ∃ t, execEqDone g lane s = .next t ∧ Goes F s t := by
  have go := Goes.refl F s
  unfold execEqDone
  refine ⟨_, rfl, ?_⟩
  try dsimp only
  repeat' first
    | with_reducible assumption
    | (intro)
    | with_reducible apply Goes.draw
    | with_reducible apply Goes.fromLane
    | with_reducible apply Goes.laneReady
    | with_reducible apply Goes.laneTo
    | with_reducible apply Goes.reach
    | with_reducible apply Goes.setReg
    | with_reducible apply Goes.ite

theorem execTs1_goes {F : List Piece} (g : GroupN) (lane : LaneN) (s : State) (hlanes : Piece.lanes ∈ F) :
    ∃ t, execTs1 g lane s = .next t ∧ Goes F s t := by
  have go := Goes.refl F s
  unfold execTs1
  refine ⟨_, rfl, ?_⟩
  try dsimp only
  repeat' first
    | with_reducible assumption
    | (intro)
    | with_reducible apply Goes.fromLane
    | with_reducible apply Goes.modLg

theorem execTs2_goes {F : List Piece} (g : GroupN) (lane : LaneN) (rlane rgroup role : Byte) (pair : BitVec 16) (s : State) (hdict : Piece.dict ∈ F) (hfns : Piece.fns ∈ F) (hfree : Piece.free ∈ F) (hlanes : Piece.lanes ∈ F) (hmill : Piece.mill ∈ F) (hout : Piece.out ∈ F) :
    ∃ t, execTs2 g lane rlane rgroup role pair s = .next t ∧ Goes F s t := by
  have go := Goes.refl F s
  unfold execTs2
  refine ⟨_, rfl, ?_⟩
  try dsimp only
  repeat' first
    | with_reducible assumption
    | (intro)
    | with_reducible apply Goes.fromLane
    | with_reducible apply Goes.laneReady
    | with_reducible apply Goes.laneTo
    | with_reducible apply Goes.modLg
    | with_reducible apply Goes.raise
    | with_reducible apply Goes.ite

theorem execLaneErrorLoss_goes {F : List Piece} (g : GroupN) (lane : LaneN) (errors : W32) (s : State) (hdict : Piece.dict ∈ F) (hlanes : Piece.lanes ∈ F) :
    ∃ t, execLaneErrorLoss g lane errors s = .next t ∧ Goes F s t := by
  have go := Goes.refl F s
  unfold execLaneErrorLoss
  refine ⟨_, rfl, ?_⟩
  repeat' first
    | with_reducible assumption
    | (intro)
    | with_reducible apply Goes.bump
    | with_reducible apply Goes.fromLane
    | with_reducible apply Goes.laneTo

theorem Goes.endLink {F : List Piece} {s₀ s : State} (g : Nat) (hdict : Piece.dict ∈ F) (hfns : Piece.fns ∈ F) (hfree : Piece.free ∈ F) (hhostMem : Piece.hostMem ∈ F) (hlanes : Piece.lanes ∈ F) (hout : Piece.out ∈ F) (hpairTx : Piece.pairTx ∈ F) (hprun : Piece.prun ∈ F) (hxacts : Piece.xacts ∈ F)
    (go : Goes F s₀ s) : Goes F s₀ (State.endLink s g) := by
  unfold State.endLink
  dsimp only
  repeat' first
    | with_reducible assumption
    | (intro)
    | with_reducible apply Goes.deliver
    | with_reducible apply Goes.ffResolve
    | with_reducible apply Goes.modLg
    | with_reducible apply Goes.settled
    | with_reducible apply Goes.ite
    | with_reducible apply Goes.foldl
    | split
    | with_reducible apply Goes.xacts_pairTxTo

theorem Goes.groupDown {F : List Piece} {s₀ s : State} (g : Nat) (hdict : Piece.dict ∈ F) (hfns : Piece.fns ∈ F) (hfree : Piece.free ∈ F) (hhostMem : Piece.hostMem ∈ F) (hlanes : Piece.lanes ∈ F) (hmill : Piece.mill ∈ F) (hout : Piece.out ∈ F) (hpairTx : Piece.pairTx ∈ F) (hprun : Piece.prun ∈ F) (hxacts : Piece.xacts ∈ F)
    (go : Goes F s₀ s) : Goes F s₀ (State.groupDown s g) := by
  unfold State.groupDown
  dsimp only
  repeat' first
    | with_reducible assumption
    | (intro)
    | with_reducible apply Goes.bump
    | with_reducible apply Goes.endLink
    | with_reducible apply Goes.modLg
    | with_reducible apply Goes.raise
    | with_reducible apply Goes.setReg
    | with_reducible apply Goes.ite

theorem Goes.useLanes {F : List Piece} {s₀ s : State} (g v : Nat) (hdict : Piece.dict ∈ F) (hfns : Piece.fns ∈ F) (hfree : Piece.free ∈ F) (hhostMem : Piece.hostMem ∈ F) (hlanes : Piece.lanes ∈ F) (hmill : Piece.mill ∈ F) (hout : Piece.out ∈ F) (hpairTx : Piece.pairTx ∈ F) (hpower : Piece.power ∈ F) (hprun : Piece.prun ∈ F) (hxacts : Piece.xacts ∈ F)
    (go : Goes F s₀ s) : Goes F s₀ (State.useLanes s g v) := by
  unfold State.useLanes
  dsimp only
  repeat' first
    | with_reducible assumption
    | (intro)
    | with_reducible apply Goes.groupDown
    | with_reducible apply Goes.laneTo
    | with_reducible apply Goes.modLg
    | with_reducible apply Goes.refreshDomains
    | with_reducible apply Goes.setReg
    | with_reducible apply Goes.ite
    | with_reducible apply Goes.foldl

theorem Goes.stripeOver {F : List Piece} {s₀ s : State} (g : Nat) (hdict : Piece.dict ∈ F) (hlanes : Piece.lanes ∈ F)
    (go : Goes F s₀ s) : Goes F s₀ (State.stripeOver s g) := by
  unfold State.stripeOver
  dsimp only
  repeat' first
    | with_reducible assumption
    | (intro)
    | with_reducible apply Goes.modLg
    | with_reducible apply Goes.setReg

theorem Goes.resend {F : List Piece} {s₀ s : State} (g : Nat) (hlanes : Piece.lanes ∈ F) (hout : Piece.out ∈ F)
    (go : Goes F s₀ s) : Goes F s₀ (State.resend s g) := by
  unfold State.resend
  dsimp only
  repeat' first
    | with_reducible assumption
    | (intro)
    | with_reducible apply Goes.modLg
    | with_reducible apply Goes.sendFrame
    | with_reducible apply Goes.foldl

theorem execGroupUp_goes {F : List Piece} (g : GroupN) (s : State) (hclock : Piece.clock ∈ F) (hdict : Piece.dict ∈ F) (hlanes : Piece.lanes ∈ F) (hout : Piece.out ∈ F) (hpairTx : Piece.pairTx ∈ F) (hsec : Piece.sec ∈ F) :
    ∃ t, execGroupUp g s = .next t ∧ Goes F s t := by
  have go := Goes.refl F s
  unfold execGroupUp
  try dsimp only
  repeat' first
    | refine ⟨_, rfl, ?_⟩
    | with_reducible assumption
    | (intro)
    | with_reducible apply Goes.modLg
    | with_reducible apply Goes.pump
    | with_reducible apply Goes.reach
    | with_reducible apply Goes.resend
    | with_reducible apply Goes.setReg
    | with_reducible apply Goes.stripeOver
    | with_reducible apply Goes.ite
    | split

theorem execGroupDown_goes {F : List Piece} (g : GroupN) (s : State) (hclock : Piece.clock ∈ F) (hdict : Piece.dict ∈ F) (hfns : Piece.fns ∈ F) (hfree : Piece.free ∈ F) (hhostMem : Piece.hostMem ∈ F) (hlanes : Piece.lanes ∈ F) (hmill : Piece.mill ∈ F) (hout : Piece.out ∈ F) (hpairTx : Piece.pairTx ∈ F) (hprun : Piece.prun ∈ F) (hxacts : Piece.xacts ∈ F) :
    ∃ t, execGroupDown g s = .next t ∧ Goes F s t := by
  have go := Goes.refl F s
  unfold execGroupDown
  try dsimp only
  repeat' first
    | refine ⟨_, rfl, ?_⟩
    | with_reducible assumption
    | with_reducible apply Goes.groupDown
    | with_reducible apply Goes.reach
    | with_reducible apply Goes.ite

theorem Goes.training {F : List Piece} {s₀ s : State} (g : Nat) (hdict : Piece.dict ∈ F) (hlanes : Piece.lanes ∈ F)
    (go : Goes F s₀ s) : Goes F s₀ (State.training s g) := by
  unfold State.training
  dsimp only
  repeat' first
    | with_reducible assumption
    | (intro)
    | with_reducible apply Goes.modLg
    | with_reducible apply Goes.setReg

theorem execRestripe_goes {F : List Piece} (g : GroupN) (s : State) (hdict : Piece.dict ∈ F) (hlanes : Piece.lanes ∈ F) (hout : Piece.out ∈ F) :
    ∃ t, execRestripe g s = .next t ∧ Goes F s t := by
  have go := Goes.refl F s
  unfold execRestripe
  try dsimp only
  repeat' first
    | refine ⟨_, rfl, ?_⟩
    | with_reducible assumption
    | with_reducible apply Goes.resend
    | with_reducible apply Goes.sendControl
    | with_reducible apply Goes.stripeOver
    | with_reducible apply Goes.training
    | with_reducible apply Goes.ite

theorem execSkipWord_goes {F : List Piece} (g : GroupN) (s : State) (hdict : Piece.dict ∈ F) (hlanes : Piece.lanes ∈ F) (hout : Piece.out ∈ F) :
    ∃ t, execSkipWord g s = .next t ∧ Goes F s t := by
  have go := Goes.refl F s
  unfold execSkipWord
  try dsimp only
  repeat' first
    | refine ⟨_, rfl, ?_⟩
    | with_reducible assumption
    | (intro)
    | with_reducible apply Goes.modLg
    | with_reducible apply Goes.sendControl
    | with_reducible apply Goes.stripeOver
    | with_reducible apply Goes.ite

theorem Goes.linkReplay {F : List Piece} {s₀ s : State} (g : Nat) (hdict : Piece.dict ∈ F) (hlanes : Piece.lanes ∈ F) (hout : Piece.out ∈ F)
    (go : Goes F s₀ s) : Goes F s₀ (State.linkReplay s g) := by
  unfold State.linkReplay
  repeat' first
    | with_reducible assumption
    | (intro)
    | with_reducible apply Goes.bump
    | with_reducible apply Goes.laneTo
    | with_reducible apply Goes.modLg
    | with_reducible apply Goes.resend
    | with_reducible apply Goes.training
    | with_reducible apply Goes.ite
    | with_reducible apply Goes.foldl

theorem Goes.acks {F : List Piece} {s₀ s : State} (g head : Nat) (hdict : Piece.dict ∈ F) (hlanes : Piece.lanes ∈ F) (hout : Piece.out ∈ F) (hpairTx : Piece.pairTx ∈ F) (hsec : Piece.sec ∈ F)
    (go : Goes F s₀ s) : Goes F s₀ (State.acks s g head) := by
  unfold State.acks
  dsimp only
  repeat' first
    | with_reducible assumption
    | (intro)
    | with_reducible apply Goes.modLg
    | with_reducible apply Goes.pump
    | with_reducible apply Goes.ite
    | split

theorem Goes.pairResponse {F : List Piece} {s₀ s : State} (g pk : Nat) (data : List Byte) (ok : Bool) (hdict : Piece.dict ∈ F) (hfns : Piece.fns ∈ F) (hfree : Piece.free ∈ F) (hhostMem : Piece.hostMem ∈ F) (hnextResp : Piece.nextResp ∈ F) (hout : Piece.out ∈ F) (hprun : Piece.prun ∈ F) (hresps : Piece.resps ∈ F) (hxacts : Piece.xacts ∈ F)
    (go : Goes F s₀ s) : Goes F s₀ (State.pairResponse s g pk data ok) := by
  unfold State.pairResponse
  dsimp only
  repeat' first
    | with_reducible assumption
    | with_reducible apply Goes.answerNow
    | with_reducible apply Goes.bump
    | with_reducible apply Goes.ffResolve
    | with_reducible apply Goes.ite
    | split
    | with_reducible apply Goes.xactsTo

theorem Goes.pairRequest {F : List Piece} {s₀ s : State} (g pk : Nat) (data : List Byte) (ok : Bool) (hdict : Piece.dict ∈ F) (hlanes : Piece.lanes ∈ F) (hout : Piece.out ∈ F) (hpairTx : Piece.pairTx ∈ F) (hsec : Piece.sec ∈ F) (hwaiting : Piece.waiting ∈ F) (hxacts : Piece.xacts ∈ F)
    (go : Goes F s₀ s) : Goes F s₀ (State.pairRequest s g pk data ok) := by
  unfold State.pairRequest
  dsimp only
  repeat' first
    | with_reducible assumption
    | (intro)
    | with_reducible apply Goes.inject
    | with_reducible apply Goes.pairAnswer
    | with_reducible apply Goes.ite
    | with_reducible apply Goes.elim
    | split
    | with_reducible apply Goes.waiting_xactsTo

theorem execTransferFrame_goes {F : List Piece} (g : GroupN) (head : BitVec 256) (packet : Desc) (data : List Byte) (crcOk gcmOk : Bool) (s : State) (hdict : Piece.dict ∈ F) (hfns : Piece.fns ∈ F) (hfree : Piece.free ∈ F) (hhostMem : Piece.hostMem ∈ F) (hlanes : Piece.lanes ∈ F) (hnextResp : Piece.nextResp ∈ F) (hout : Piece.out ∈ F) (hpairTx : Piece.pairTx ∈ F) (hprun : Piece.prun ∈ F) (hresps : Piece.resps ∈ F) (hsec : Piece.sec ∈ F) (hwaiting : Piece.waiting ∈ F) (hxacts : Piece.xacts ∈ F) :
    ∃ t, execTransferFrame g head packet data crcOk gcmOk s = .next t ∧ Goes F s t := by
  have go := Goes.refl F s
  unfold execTransferFrame
  try dsimp only
  repeat' first
    | refine ⟨_, rfl, ?_⟩
    | with_reducible assumption
    | (intro)
    | with_reducible apply Goes.acks
    | with_reducible apply Goes.bump
    | with_reducible apply Goes.linkReplay
    | with_reducible apply Goes.modLg
    | with_reducible apply Goes.pairRequest
    | with_reducible apply Goes.pairResponse
    | with_reducible apply Goes.sendControl
    | with_reducible apply Goes.ite
    | split

theorem Goes.resync {F : List Piece} {s₀ s : State} (g : Nat) (hdict : Piece.dict ∈ F) (hfns : Piece.fns ∈ F) (hfree : Piece.free ∈ F) (hhostMem : Piece.hostMem ∈ F) (hlanes : Piece.lanes ∈ F) (hout : Piece.out ∈ F) (hpairTx : Piece.pairTx ∈ F) (hprun : Piece.prun ∈ F) (hxacts : Piece.xacts ∈ F)
    (go : Goes F s₀ s) : Goes F s₀ (State.resync s g) := by
  unfold State.resync
  repeat' first
    | with_reducible assumption
    | (intro)
    | with_reducible apply Goes.endLink
    | with_reducible apply Goes.modLg

theorem execControlFrame_goes {F : List Piece} (g : GroupN) (head : BitVec 256) (lanes : Option W64) (s : State) (hdict : Piece.dict ∈ F) (hfns : Piece.fns ∈ F) (hfree : Piece.free ∈ F) (hhostMem : Piece.hostMem ∈ F) (hlanes : Piece.lanes ∈ F) (hout : Piece.out ∈ F) (hpairTx : Piece.pairTx ∈ F) (hprun : Piece.prun ∈ F) (hsec : Piece.sec ∈ F) (hxacts : Piece.xacts ∈ F) :
    ∃ t, execControlFrame g head lanes s = .next t ∧ Goes F s t := by
  have go := Goes.refl F s
  unfold execControlFrame
  try dsimp only
  repeat' first
    | refine ⟨_, rfl, ?_⟩
    | with_reducible assumption
    | (intro)
    | with_reducible apply Goes.acks
    | with_reducible apply Goes.bump
    | with_reducible apply Goes.linkReplay
    | with_reducible apply Goes.modLg
    | with_reducible apply Goes.resync
    | with_reducible apply Goes.ite
    | split

theorem execAckDue_goes {F : List Piece} (g : GroupN) (s : State) (hclock : Piece.clock ∈ F) (hlanes : Piece.lanes ∈ F) (hout : Piece.out ∈ F) :
    ∃ t, execAckDue g s = .next t ∧ Goes F s t := by
  have go := Goes.refl F s
  unfold execAckDue
  refine ⟨_, rfl, ?_⟩
  repeat' first
    | with_reducible assumption
    | with_reducible apply Goes.reach
    | with_reducible apply Goes.sendControl
    | split

theorem execNak_goes {F : List Piece} (g : GroupN) (head : BitVec 256) (s : State) (hdict : Piece.dict ∈ F) (hlanes : Piece.lanes ∈ F) (hout : Piece.out ∈ F) (hpairTx : Piece.pairTx ∈ F) (hsec : Piece.sec ∈ F) :
    ∃ t, execNak g head s = .next t ∧ Goes F s t := by
  have go := Goes.refl F s
  unfold execNak
  refine ⟨_, rfl, ?_⟩
  repeat' first
    | with_reducible assumption
    | with_reducible apply Goes.acks
    | with_reducible apply Goes.bump
    | with_reducible apply Goes.linkReplay
    | with_reducible apply Goes.ite

theorem execAckTimeout_goes {F : List Piece} (g : GroupN) (s : State) (hclock : Piece.clock ∈ F) (hdict : Piece.dict ∈ F) (hlanes : Piece.lanes ∈ F) (hout : Piece.out ∈ F) :
    ∃ t, execAckTimeout g s = .next t ∧ Goes F s t := by
  have go := Goes.refl F s
  unfold execAckTimeout
  try dsimp only
  repeat' first
    | refine ⟨_, rfl, ?_⟩
    | with_reducible assumption
    | with_reducible apply Goes.linkReplay
    | with_reducible apply Goes.reach
    | with_reducible apply Goes.ite

theorem execResync_goes {F : List Piece} (g : GroupN) (s : State) (hdict : Piece.dict ∈ F) (hfns : Piece.fns ∈ F) (hfree : Piece.free ∈ F) (hhostMem : Piece.hostMem ∈ F) (hlanes : Piece.lanes ∈ F) (hout : Piece.out ∈ F) (hpairTx : Piece.pairTx ∈ F) (hprun : Piece.prun ∈ F) (hxacts : Piece.xacts ∈ F) :
    ∃ t, execResync g s = .next t ∧ Goes F s t := by
  have go := Goes.refl F s
  unfold execResync
  refine ⟨_, rfl, ?_⟩
  repeat' first
    | with_reducible assumption
    | with_reducible apply Goes.resync
    | with_reducible apply Goes.ite

theorem Goes.testLane {F : List Piece} {s₀ s : State} (g : Nat) (l : Nat) (hdict : Piece.dict ∈ F) (hfree : Piece.free ∈ F) (hlanes : Piece.lanes ∈ F)
    (go : Goes F s₀ s) : Goes F s₀ (State.testLane g s l) := by
  unfold State.testLane
  try dsimp only
  repeat' first
    | with_reducible assumption
    | (intro)
    | with_reducible apply Goes.bump
    | with_reducible apply Goes.draw
    | with_reducible apply Goes.modLg
    | dsimp only

theorem Goes.fabricLane {F : List Piece} {s₀ s : State} (g : Nat) (l : Nat) (hdict : Piece.dict ∈ F) (hfree : Piece.free ∈ F) (hlanes : Piece.lanes ∈ F)
    (go : Goes F s₀ s) : Goes F s₀ (State.fabricLane g s l) := by
  unfold State.fabricLane
  try dsimp only
  repeat' first
    | with_reducible assumption
    | (intro)
    | with_reducible apply Goes.bump
    | with_reducible apply Goes.draw
    | with_reducible apply Goes.modLg
    | with_reducible apply Goes.ite
    | split
    | dsimp only

theorem Goes.clockLanes {F : List Piece} {s₀ s : State} (hdict : Piece.dict ∈ F) (hfree : Piece.free ∈ F) (hlanes : Piece.lanes ∈ F)
    (go : Goes F s₀ s) : Goes F s₀ (State.clockLanes s) := by
  unfold State.clockLanes
  try dsimp only
  repeat' first
    | with_reducible assumption
    | (intro)
    | with_reducible apply Goes.fabricLane
    | with_reducible apply Goes.testLane
    | with_reducible apply Goes.ite
    | with_reducible apply Goes.foldl
    | split
    | dsimp only

theorem Goes.injectBits {F : List Piece} {s₀ s : State} (g v : Nat) (hlanes : Piece.lanes ∈ F)
    (go : Goes F s₀ s) : Goes F s₀ (State.injectBits s g v) := by
  unfold State.injectBits
  repeat' first
    | with_reducible assumption
    | (intro)
    | with_reducible apply Goes.modLg

end Sys2Proof.Machine
end

