-- ==== Sys2Proof/Laws/Power.lean ====
section
/-! SUPPORT. What the operations of Machine/Power.lean may change, and that each keeps what the model keeps throughout. -/

namespace Sys2Proof.Machine

theorem Goes.spend {F : List Piece} {s₀ s : State} (p : Option Nat) (nj : Nat) (hdict : Piece.dict ∈ F) (hpower : Piece.power ∈ F)
    (go : Goes F s₀ s) : Goes F s₀ (State.spend s p nj) := by
  unfold State.spend
  dsimp only
  repeat' first
    | with_reducible assumption
    | (intro)
    | with_reducible apply Goes.modPp
    | with_reducible apply Goes.setReg
    | split

theorem Goes.spendPackage {F : List Piece} {s₀ s : State} (nj : Nat) (hdict : Piece.dict ∈ F) (hpower : Piece.power ∈ F)
    (go : Goes F s₀ s) : Goes F s₀ (State.spendPackage s nj) := by
  unfold State.spendPackage
  dsimp only
  repeat' first
    | with_reducible assumption
    | with_reducible apply Goes.setReg
    | with_reducible apply Goes.powerTo

theorem Goes.divideEnergy {F : List Piece} {s₀ s : State} (c nj : Nat) (advanced : List (CmdRef × W32)) (hprun : Piece.prun ∈ F)
    (go : Goes F s₀ s) : Goes F s₀ (State.divideEnergy s c nj advanced) := by
  unfold State.divideEnergy
  dsimp only
  repeat' first
    | with_reducible assumption
    | (intro)
    | with_reducible apply Goes.modRef
    | with_reducible apply Goes.ite
    | with_reducible apply Goes.foldl
    | split

theorem Goes.bubbleStalls {F : List Piece} {s₀ s : State} (c n : Nat) (hdict : Piece.dict ∈ F) (hprun : Piece.prun ∈ F)
    (go : Goes F s₀ s) : Goes F s₀ (State.bubbleStalls s c n) := by
  unfold State.bubbleStalls
  repeat' first
    | with_reducible assumption
    | (intro)
    | with_reducible apply Goes.stall
    | with_reducible apply Goes.foldl
    | split

theorem execCurrentLimitTick_goes {F : List Piece} (die : DieC) (demand : BitVec 16) (energy : W32) (advanced : List (CmdRef × W32)) (s : State) (hdict : Piece.dict ∈ F) (hpower : Piece.power ∈ F) (hprun : Piece.prun ∈ F) :
    ∃ t, execCurrentLimitTick die demand energy advanced s = .next t ∧ Goes F s t := by
  have go := Goes.refl F s
  unfold execCurrentLimitTick
  try dsimp only
  repeat' first
    | refine ⟨_, rfl, ?_⟩
    | with_reducible assumption
    | (intro)
    | with_reducible apply Goes.bubbleStalls
    | with_reducible apply Goes.bump
    | with_reducible apply Goes.divideEnergy
    | with_reducible apply Goes.modDp
    | with_reducible apply Goes.setReg
    | with_reducible apply Goes.spend
    | with_reducible apply Goes.spendPackage
    | split

theorem execVoltageLoopTick_goes {F : List Piece} (die : DieC) (low high : Bool) (s : State) (hout : Piece.out ∈ F) (hpower : Piece.power ∈ F) :
    ∃ t, execVoltageLoopTick die low high s = .next t ∧ Goes F s t := by
  have go := Goes.refl F s
  unfold execVoltageLoopTick
  try dsimp only
  repeat' first
    | refine ⟨_, rfl, ?_⟩
    | with_reducible assumption
    | (intro)
    | with_reducible apply Goes.avsFrom
    | with_reducible apply Goes.modDp
    | with_reducible apply Goes.ite

theorem execRegulatorSettled_goes {F : List Piece} (die : DieC) (s : State) (hpower : Piece.power ∈ F) :
    ∃ t, execRegulatorSettled die s = .next t ∧ Goes F s t := by
  have go := Goes.refl F s
  unfold execRegulatorSettled
  refine ⟨_, rfl, ?_⟩
  repeat' first
    | with_reducible assumption
    | (intro)
    | with_reducible apply Goes.modDp

theorem Goes.clockAt {F : List Piece} {s₀ s : State} (p f : Nat) (hdict : Piece.dict ∈ F) (hpower : Piece.power ∈ F) (hprun : Piece.prun ∈ F)
    (go : Goes F s₀ s) : Goes F s₀ (State.clockAt s p f) := by
  unfold State.clockAt
  repeat' first
    | with_reducible assumption
    | (intro)
    | with_reducible apply Goes.setMhz
    | with_reducible apply Goes.setReg
    | with_reducible apply Goes.spoilRates
    | with_reducible apply Goes.foldl

theorem execMclkStep_goes {F : List Piece} (p : PartN) (s : State) (hdict : Piece.dict ∈ F) (hout : Piece.out ∈ F) (hpower : Piece.power ∈ F) (hprun : Piece.prun ∈ F) :
    ∃ t, execMclkStep p s = .next t ∧ Goes F s t := by
  have go := Goes.refl F s
  unfold execMclkStep
  try dsimp only
  repeat' first
    | refine ⟨_, rfl, ?_⟩
    | with_reducible assumption
    | (intro)
    | with_reducible apply Goes.avsFrom
    | with_reducible apply Goes.clockAt
    | with_reducible apply Goes.modDp
    | with_reducible apply Goes.raiseRails
    | with_reducible apply Goes.ite
    | with_reducible apply Goes.foldl

theorem Goes.leaveFloor {F : List Piece} {s₀ s : State} (p : Nat) (hdict : Piece.dict ∈ F) (hout : Piece.out ∈ F) (hpower : Piece.power ∈ F)
    (go : Goes F s₀ s) : Goes F s₀ (State.leaveFloor s p) := by
  unfold State.leaveFloor
  repeat' first
    | with_reducible assumption
    | (intro)
    | with_reducible apply Goes.avsFrom
    | with_reducible apply Goes.modDp
    | with_reducible apply Goes.setReg
    | with_reducible apply Goes.ite
    | with_reducible apply Goes.foldl

theorem Goes.setGoal {F : List Piece} {s₀ s : State} (p want : Nat) (bubbled : Bool) (hdict : Piece.dict ∈ F) (hout : Piece.out ∈ F) (hpower : Piece.power ∈ F)
    (go : Goes F s₀ s) : Goes F s₀ (State.setGoal s p want bubbled) := by
  unfold State.setGoal
  dsimp only
  repeat' first
    | with_reducible assumption
    | (intro)
    | with_reducible apply Goes.bump
    | with_reducible apply Goes.modPp
    | with_reducible apply Goes.raiseRails
    | with_reducible apply Goes.ite

theorem Goes.throttleRise {F : List Piece} {s₀ s : State} (p : Nat) (hdict : Piece.dict ∈ F)
    (go : Goes F s₀ s) : Goes F s₀ (State.throttleRise s p) := by
  unfold State.throttleRise
  dsimp only
  repeat' first
    | with_reducible assumption
    | (intro)
    | with_reducible apply Goes.setReg
    | with_reducible apply Goes.ite

theorem Goes.managePart {F : List Piece} {s₀ s : State} (power : Nat → Nat) (p alloc : Nat) (hdict : Piece.dict ∈ F) (hout : Piece.out ∈ F) (hpower : Piece.power ∈ F)
    (go : Goes F s₀ s) : Goes F s₀ (State.managePart s power p alloc) := by
  unfold State.managePart
  dsimp only
  repeat' first
    | with_reducible assumption
    | (intro)
    | with_reducible apply Goes.leaveFloor
    | with_reducible apply Goes.modPp
    | with_reducible apply Goes.setGoal
    | with_reducible apply Goes.setReg
    | with_reducible apply Goes.throttleRise
    | with_reducible apply Goes.ite

theorem Goes.keepClaims {F : List Piece} {s₀ s : State} (ds : List Demand) (overhead : Nat) (hpower : Piece.power ∈ F)
    (go : Goes F s₀ s) : Goes F s₀ (State.keepClaims s ds overhead) := by
  unfold State.keepClaims
  try dsimp only
  repeat' first
    | with_reducible assumption
    | (intro)
    | with_reducible apply Goes.powerTo
    | dsimp only

theorem execBudgetPeriodEnd_goes {F : List Piece} (overhead : W32) (power : List (DieC × W32)) (s : State) (hdict : Piece.dict ∈ F) (hout : Piece.out ∈ F) (hpower : Piece.power ∈ F) (hstackSides : Piece.stackSides ∈ F) :
    ∃ t, execBudgetPeriodEnd overhead power s = .next t ∧ Goes F s t := by
  have go := Goes.refl F s
  unfold execBudgetPeriodEnd
  try dsimp only
  repeat' first
    | refine ⟨_, rfl, ?_⟩
    | with_reducible assumption
    | (intro)
    | with_reducible apply Goes.keepClaims
    | with_reducible apply Goes.managePart
    | with_reducible apply Goes.modDp
    | with_reducible apply Goes.modStack
    | with_reducible apply Goes.setReg
    | with_reducible apply Goes.ite
    | with_reducible apply Goes.foldl

theorem execPairBudgetExchange_goes {F : List Piece} (ok : Bool) (theirs : List Demand) (theirOverhead : W32) (s : State) (hpower : Piece.power ∈ F) :
    ∃ t, execPairBudgetExchange ok theirs theirOverhead s = .next t ∧ Goes F s t := by
  have go := Goes.refl F s
  unfold execPairBudgetExchange
  try dsimp only
  repeat' first
    | refine ⟨_, rfl, ?_⟩
    | with_reducible assumption
    | with_reducible apply Goes.ite
    | split
    | with_reducible apply Goes.powerTo

theorem execHeavyGuardEnd_goes {F : List Piece} (c : CmdRef) (s : State) (hout : Piece.out ∈ F) (hpower : Piece.power ∈ F) :
    ∃ t, execHeavyGuardEnd c s = .next t ∧ Goes F s t := by
  have go := Goes.refl F s
  unfold execHeavyGuardEnd
  try dsimp only
  repeat' first
    | refine ⟨_, rfl, ?_⟩
    | with_reducible assumption
    | (intro)
    | with_reducible apply Goes.avsFrom
    | with_reducible apply Goes.modPp

theorem Goes.enterFloor {F : List Piece} {s₀ s : State} (n : Nat) (hdict : Piece.dict ∈ F) (hfns : Piece.fns ∈ F) (hfree : Piece.free ∈ F) (hmill : Piece.mill ∈ F) (hout : Piece.out ∈ F) (hpower : Piece.power ∈ F)
    (go : Goes F s₀ s) : Goes F s₀ (State.enterFloor s n) := by
  unfold State.enterFloor
  dsimp only
  repeat' first
    | with_reducible assumption
    | (intro)
    | with_reducible apply Goes.avsFrom
    | with_reducible apply Goes.bump
    | with_reducible apply Goes.modDp
    | with_reducible apply Goes.raise
    | with_reducible apply Goes.setReg
    | with_reducible apply Goes.ite
    | split

theorem Goes.floorDie {F : List Piece} {s₀ s : State} (c : Nat) (hdict : Piece.dict ∈ F) (hfns : Piece.fns ∈ F) (hfree : Piece.free ∈ F) (hmill : Piece.mill ∈ F) (hout : Piece.out ∈ F) (hpower : Piece.power ∈ F) (hprun : Piece.prun ∈ F)
    (go : Goes F s₀ s) : Goes F s₀ (State.floorDie s c) := by
  unfold State.floorDie
  dsimp only
  repeat' first
    | with_reducible assumption
    | (intro)
    | with_reducible apply Goes.clockAt
    | with_reducible apply Goes.enterFloor
    | with_reducible apply Goes.modPp
    | with_reducible apply Goes.foldl
    | split

theorem execVrAlert_goes {F : List Piece} (rail : Rail) (s : State) (hdict : Piece.dict ∈ F) (hfns : Piece.fns ∈ F) (hfree : Piece.free ∈ F) (hmill : Piece.mill ∈ F) (hout : Piece.out ∈ F) (hpower : Piece.power ∈ F) (hprun : Piece.prun ∈ F) (hstackSides : Piece.stackSides ∈ F) :
    ∃ t, execVrAlert rail s = .next t ∧ Goes F s t := by
  have go := Goes.refl F s
  unfold execVrAlert
  refine ⟨_, rfl, ?_⟩
  try dsimp only
  repeat' first
    | with_reducible assumption
    | (intro)
    | with_reducible apply Goes.bump
    | with_reducible apply Goes.enterFloor
    | with_reducible apply Goes.floorDie
    | with_reducible apply Goes.modStack
    | with_reducible apply Goes.ite
    | split
    | with_reducible apply Goes.powerTo

theorem execAlertClear_goes {F : List Piece} (rail : Rail) (s : State) (hdict : Piece.dict ∈ F) (hpower : Piece.power ∈ F) :
    ∃ t, execAlertClear rail s = .next t ∧ Goes F s t := by
  have go := Goes.refl F s
  unfold execAlertClear
  refine ⟨_, rfl, ?_⟩
  try dsimp only
  repeat' first
    | with_reducible assumption
    | (intro)
    | with_reducible apply Goes.modDp
    | with_reducible apply Goes.setReg
    | with_reducible apply Goes.ite
    | with_reducible apply Goes.foldl
    | with_reducible apply Goes.elim
    | split
    | with_reducible apply Goes.powerTo

theorem execSensorRead_goes {F : List Piece} (die : DieN) (temp : BitVec 16) (s : State) (hdict : Piece.dict ∈ F) (hfns : Piece.fns ∈ F) (hfree : Piece.free ∈ F) (hmill : Piece.mill ∈ F) (hout : Piece.out ∈ F) (hpower : Piece.power ∈ F) (hprun : Piece.prun ∈ F) :
    ∃ t, execSensorRead die temp s = .next t ∧ Goes F s t := by
  have go := Goes.refl F s
  unfold execSensorRead
  try dsimp only
  repeat' first
    | refine ⟨_, rfl, ?_⟩
    | with_reducible assumption
    | (intro)
    | with_reducible apply Goes.bump
    | with_reducible apply Goes.floorDie
    | with_reducible apply Goes.modDp
    | with_reducible apply Goes.raise
    | with_reducible apply Goes.setReg
    | with_reducible apply Goes.ite
    | split
    | with_reducible apply Goes.powerTo

theorem execThrottleStep_goes {F : List Piece} (p : PartN) (s : State) (hdict : Piece.dict ∈ F) (hout : Piece.out ∈ F) (hpower : Piece.power ∈ F) :
    ∃ t, execThrottleStep p s = .next t ∧ Goes F s t := by
  have go := Goes.refl F s
  unfold execThrottleStep
  try dsimp only
  repeat' first
    | refine ⟨_, rfl, ?_⟩
    | with_reducible assumption
    | (intro)
    | with_reducible apply Goes.setGoal
    | with_reducible apply Goes.setReg
    | with_reducible apply Goes.ite

theorem execCoolantRead_goes {F : List Piece} (inlet outlet : Option (BitVec 16)) (s : State) (hdict : Piece.dict ∈ F) (hfns : Piece.fns ∈ F) (hfree : Piece.free ∈ F) (hmill : Piece.mill ∈ F) (hout : Piece.out ∈ F) (hpower : Piece.power ∈ F) :
    ∃ t, execCoolantRead inlet outlet s = .next t ∧ Goes F s t := by
  have go := Goes.refl F s
  unfold execCoolantRead
  try dsimp only
  repeat' first
    | refine ⟨_, rfl, ?_⟩
    | with_reducible assumption
    | (intro)
    | with_reducible apply Goes.raise
    | with_reducible apply Goes.setReg
    | with_reducible apply Goes.ite
    | with_reducible apply Goes.elim
    | split
    | with_reducible apply Goes.powerTo

theorem execFallbackRelease_goes {F : List Piece} (s : State) (hclock : Piece.clock ∈ F) (hdict : Piece.dict ∈ F) :
    ∃ t, execFallbackRelease s = .next t ∧ Goes F s t := by
  have go := Goes.refl F s
  unfold execFallbackRelease
  refine ⟨_, rfl, ?_⟩
  repeat' first
    | with_reducible assumption
    | with_reducible apply Goes.reach
    | with_reducible apply Goes.setReg
    | with_reducible apply Goes.ite
    | split

end Sys2Proof.Machine
end

