-- ==== Sys2Proof/Laws/Security.lean ====
section
/-! SUPPORT. What the operations of Machine/Security.lean may change, and that each keeps what the model keeps throughout. -/

namespace Sys2Proof.Machine

theorem Goes.endCommand {F : List Piece} {s₀ s : State} (records : Bool) (c : CmdRef) (harrays : Piece.arrays ∈ F) (hbrims : Piece.brims ∈ F) (hdict : Piece.dict ∈ F) (hengines : Piece.engines ∈ F) (hfns : Piece.fns ∈ F) (hfree : Piece.free ∈ F) (hhostMem : Piece.hostMem ∈ F) (hout : Piece.out ∈ F) (hpower : Piece.power ∈ F) (hprun : Piece.prun ∈ F) (hworks : Piece.works ∈ F)
    (go : Goes F s₀ s) : Goes F s₀ (State.endCommand records s c) := by
  unfold State.endCommand
  dsimp only
  repeat' first
    | with_reducible assumption
    | with_reducible apply Goes.completeCmd
    | with_reducible apply Goes.endCmd
    | with_reducible apply Goes.ite
    | split

theorem Goes.endRun {F : List Piece} {s₀ s : State} (p : Nat) (id : Nat) (hfns : Piece.fns ∈ F) (hfree : Piece.free ∈ F) (hhostMem : Piece.hostMem ∈ F) (hout : Piece.out ∈ F) (hprun : Piece.prun ∈ F)
    (go : Goes F s₀ s) : Goes F s₀ (State.endRun p s id) := by
  unfold State.endRun
  repeat' first
    | with_reducible assumption
    | exact fun _ g => g
    | (intro)
    | with_reducible apply Goes.modRun
    | with_reducible apply Goes.writeRecord
    | with_reducible apply Goes.ite
    | split

theorem Goes.endRequests {F : List Piece} {s₀ s : State} (p : Nat) (hfns : Piece.fns ∈ F) (hfree : Piece.free ∈ F) (hhostMem : Piece.hostMem ∈ F) (hout : Piece.out ∈ F) (hprun : Piece.prun ∈ F)
    (go : Goes F s₀ s) : Goes F s₀ (State.endRequests s p) := by
  unfold State.endRequests
  dsimp only
  repeat' first
    | with_reducible assumption
    | (intro)
    | with_reducible apply Goes.loadAnswer
    | with_reducible apply Goes.writeRecord
    | with_reducible apply Goes.ite
    | with_reducible apply Goes.foldl
    | with_reducible apply Goes.elim

theorem Goes.endForward {F : List Piece} {s₀ s : State} (p : Nat) (hdict : Piece.dict ∈ F) (hfns : Piece.fns ∈ F) (hfree : Piece.free ∈ F) (hhostMem : Piece.hostMem ∈ F) (hout : Piece.out ∈ F) (hprun : Piece.prun ∈ F) (hxacts : Piece.xacts ∈ F)
    (go : Goes F s₀ s) : Goes F s₀ (State.endForward s p) := by
  unfold State.endForward
  dsimp only
  repeat' first
    | with_reducible assumption
    | (intro)
    | with_reducible apply Goes.ffResolve
    | with_reducible apply Goes.foldl
    | with_reducible apply Goes.xactsTo

theorem Goes.dropRuns {F : List Piece} {s₀ s : State} (p : Nat) (hdict : Piece.dict ∈ F) (harrays : Piece.arrays ∈ F) (hpower : Piece.power ∈ F) (hprun : Piece.prun ∈ F) (hworks : Piece.works ∈ F)
    (go : Goes F s₀ s) : Goes F s₀ (State.dropRuns s p) := by
  unfold State.dropRuns
  dsimp only
  repeat' first
    | with_reducible assumption
    | (intro)
    | with_reducible apply Goes.bump
    | with_reducible apply Goes.countCopies
    | with_reducible apply Goes.modPp
    | with_reducible apply Goes.modPr
    | with_reducible apply Goes.works_arraysTo

theorem Goes.dropRefusals {F : List Piece} {s₀ s : State} (p : Nat) (records : Bool) (hrefusals : Piece.refusals ∈ F)
    (go : Goes F s₀ s) : Goes F s₀ (State.dropRefusals s p records) := by
  unfold State.dropRefusals
  dsimp only
  repeat' first
    | with_reducible assumption
    | (intro)
    | split
    | with_reducible apply Goes.refusalsTo

theorem Goes.endEpoch {F : List Piece} {s₀ s : State} (p cause : Nat) (harrays : Piece.arrays ∈ F) (hbrims : Piece.brims ∈ F) (hdict : Piece.dict ∈ F) (hengines : Piece.engines ∈ F) (hfns : Piece.fns ∈ F) (hfree : Piece.free ∈ F) (hhostMem : Piece.hostMem ∈ F) (hmill : Piece.mill ∈ F) (hout : Piece.out ∈ F) (hpower : Piece.power ∈ F) (hprun : Piece.prun ∈ F) (hrefusals : Piece.refusals ∈ F) (hsec : Piece.sec ∈ F) (hstackSides : Piece.stackSides ∈ F) (hworks : Piece.works ∈ F) (hxacts : Piece.xacts ∈ F)
    (go : Goes F s₀ s) : Goes F s₀ (State.endEpoch s p cause) := by
  unfold State.endEpoch
  dsimp only
  repeat' first
    | with_reducible assumption
    | (intro)
    | with_reducible apply Goes.bump
    | with_reducible apply Goes.dropRefusals
    | with_reducible apply Goes.dropRuns
    | with_reducible apply Goes.endCommand
    | with_reducible apply Goes.endForward
    | with_reducible apply Goes.endRequests
    | with_reducible apply Goes.endRun
    | with_reducible apply Goes.modFn
    | with_reducible apply Goes.modSec
    | with_reducible apply Goes.setReg
    | with_reducible apply Goes.stopRankMigs
    | with_reducible apply Goes.ite
    | with_reducible apply Goes.foldl
    | split
    | with_reducible apply Goes.xactsTo

theorem Goes.toError {F : List Piece} {s₀ s : State} (p : Nat) (harrays : Piece.arrays ∈ F) (hbrims : Piece.brims ∈ F) (hdict : Piece.dict ∈ F) (hengines : Piece.engines ∈ F) (hfns : Piece.fns ∈ F) (hfree : Piece.free ∈ F) (hhostMem : Piece.hostMem ∈ F) (hmill : Piece.mill ∈ F) (hout : Piece.out ∈ F) (hpower : Piece.power ∈ F) (hprun : Piece.prun ∈ F) (hrefusals : Piece.refusals ∈ F) (hsec : Piece.sec ∈ F) (hstackSides : Piece.stackSides ∈ F) (hworks : Piece.works ∈ F) (hxacts : Piece.xacts ∈ F)
    (go : Goes F s₀ s) : Goes F s₀ (State.toError s p) := by
  unfold State.toError
  dsimp only
  repeat' first
    | with_reducible assumption
    | with_reducible apply Goes.endEpoch
    | with_reducible apply Goes.ite

theorem Goes.dropTraffic {F : List Piece} {s₀ s : State} (p : Nat) (hchannels : Piece.channels ∈ F) (hpairTx : Piece.pairTx ∈ F) (hresps : Piece.resps ∈ F) (hwaiting : Piece.waiting ∈ F) (hxacts : Piece.xacts ∈ F)
    (go : Goes F s₀ s) : Goes F s₀ (State.dropTraffic s p) := by
  unfold State.dropTraffic
  dsimp only
  repeat' first
    | with_reducible assumption
    | (intro)
    | with_reducible apply Goes.waiting_channels_resps_xacts_pairTxTo

theorem Goes.finishEpoch {F : List Piece} {s₀ s : State} (p : Nat) (harrays : Piece.arrays ∈ F) (hbrims : Piece.brims ∈ F) (hcfg : Piece.cfg ∈ F) (hchannels : Piece.channels ∈ F) (hdict : Piece.dict ∈ F) (hframes : Piece.frames ∈ F) (hfree : Piece.free ∈ F) (hout : Piece.out ∈ F) (hpairTx : Piece.pairTx ∈ F) (hprun : Piece.prun ∈ F) (hresps : Piece.resps ∈ F) (hsec : Piece.sec ∈ F) (hwaiting : Piece.waiting ∈ F) (hworks : Piece.works ∈ F) (hxacts : Piece.xacts ∈ F)
    (go : Goes F s₀ s) : Goes F s₀ (State.finishEpoch s p) := by
  unfold State.finishEpoch
  dsimp only
  repeat' first
    | with_reducible assumption
    | (intro)
    | with_reducible apply Goes.clearBrim
    | with_reducible apply Goes.draw
    | with_reducible apply Goes.dropTraffic
    | with_reducible apply Goes.modSec
    | with_reducible apply Goes.ite
    | with_reducible apply Goes.foldl

theorem execEpochEndComplete_goes {F : List Piece} (p : PartN) (s : State) (harrays : Piece.arrays ∈ F) (hbrims : Piece.brims ∈ F) (hcfg : Piece.cfg ∈ F) (hchannels : Piece.channels ∈ F) (hdict : Piece.dict ∈ F) (hframes : Piece.frames ∈ F) (hfree : Piece.free ∈ F) (hout : Piece.out ∈ F) (hpairTx : Piece.pairTx ∈ F) (hprun : Piece.prun ∈ F) (hresps : Piece.resps ∈ F) (hsec : Piece.sec ∈ F) (hwaiting : Piece.waiting ∈ F) (hworks : Piece.works ∈ F) (hxacts : Piece.xacts ∈ F) :
    ∃ t, execEpochEndComplete p s = .next t ∧ Goes F s t := by
  have go := Goes.refl F s
  unfold execEpochEndComplete
  try dsimp only
  repeat' first
    | refine ⟨_, rfl, ?_⟩
    | with_reducible assumption
    | with_reducible apply Goes.finishEpoch
    | with_reducible apply Goes.ite

theorem Goes.forceEnd {F : List Piece} {s₀ s : State} (p : Nat) (harrays : Piece.arrays ∈ F) (hbrims : Piece.brims ∈ F) (hcfg : Piece.cfg ∈ F) (hchannels : Piece.channels ∈ F) (hdict : Piece.dict ∈ F) (hframes : Piece.frames ∈ F) (hfree : Piece.free ∈ F) (hout : Piece.out ∈ F) (hpairTx : Piece.pairTx ∈ F) (hprun : Piece.prun ∈ F) (hresps : Piece.resps ∈ F) (hsec : Piece.sec ∈ F) (hwaiting : Piece.waiting ∈ F) (hworks : Piece.works ∈ F) (hxacts : Piece.xacts ∈ F)
    (go : Goes F s₀ s) : Goes F s₀ (State.forceEnd s p) := by
  unfold State.forceEnd
  repeat' first
    | with_reducible assumption
    | with_reducible apply Goes.bump
    | with_reducible apply Goes.finishEpoch
    | with_reducible apply Goes.ite
    | split

theorem execEpochEndForced_goes {F : List Piece} (p : PartN) (s : State) (harrays : Piece.arrays ∈ F) (hbrims : Piece.brims ∈ F) (hcfg : Piece.cfg ∈ F) (hchannels : Piece.channels ∈ F) (hclock : Piece.clock ∈ F) (hdict : Piece.dict ∈ F) (hframes : Piece.frames ∈ F) (hfree : Piece.free ∈ F) (hout : Piece.out ∈ F) (hpairTx : Piece.pairTx ∈ F) (hprun : Piece.prun ∈ F) (hresps : Piece.resps ∈ F) (hsec : Piece.sec ∈ F) (hwaiting : Piece.waiting ∈ F) (hworks : Piece.works ∈ F) (hxacts : Piece.xacts ∈ F) :
    ∃ t, execEpochEndForced p s = .next t ∧ Goes F s t := by
  have go := Goes.refl F s
  unfold execEpochEndForced
  try dsimp only
  repeat' first
    | refine ⟨_, rfl, ?_⟩
    | with_reducible assumption
    | with_reducible apply Goes.forceEnd
    | with_reducible apply Goes.reach
    | split

theorem execTeardownScrubDone_goes {F : List Piece} (p : PartN) (s : State) (hdict : Piece.dict ∈ F) (hhbm : Piece.hbm ∈ F) (hpoison : Piece.poison ∈ F) (hpower : Piece.power ∈ F) (hresvNext : Piece.resvNext ∈ F) (hsec : Piece.sec ∈ F) :
    ∃ t, execTeardownScrubDone p s = .next t ∧ Goes F s t := by
  have go := Goes.refl F s
  unfold execTeardownScrubDone
  try dsimp only
  repeat' first
    | refine ⟨_, rfl, ?_⟩
    | with_reducible assumption
    | (intro)
    | with_reducible apply Goes.modPp
    | with_reducible apply Goes.refreshDomains
    | with_reducible apply Goes.setMhz
    | with_reducible apply Goes.setReg
    | with_reducible apply Goes.zeroRanks
    | with_reducible apply Goes.ite
    | with_reducible apply Goes.foldl
    | split
    | with_reducible apply Goes.sec_resvNextTo

theorem execRekeyDone_goes {F : List Piece} (p : PartN) (s : State) (hdict : Piece.dict ∈ F) (hhbm : Piece.hbm ∈ F) (hpoison : Piece.poison ∈ F) (hsec : Piece.sec ∈ F) :
    ∃ t, execRekeyDone p s = .next t ∧ Goes F s t := by
  have go := Goes.refl F s
  unfold execRekeyDone
  try dsimp only
  repeat' first
    | refine ⟨_, rfl, ?_⟩
    | with_reducible assumption
    | (intro)
    | with_reducible apply Goes.modSec
    | with_reducible apply Goes.setReg
    | with_reducible apply Goes.zeroRanks
    | with_reducible apply Goes.ite

theorem Goes.sizeHbm {F : List Piece} {s₀ s : State} (p : Nat) (hdict : Piece.dict ∈ F)
    (go : Goes F s₀ s) : Goes F s₀ (State.sizeHbm s p) := by
  unfold State.sizeHbm
  repeat' first | with_reducible assumption | with_reducible apply Goes.setReg

theorem Goes.createPartition {F : List Piece} {s₀ s : State} (p : Nat) (harrays : Piece.arrays ∈ F) (hbrims : Piece.brims ∈ F) (hcfg : Piece.cfg ∈ F) (hdict : Piece.dict ∈ F) (hframes : Piece.frames ∈ F) (hfree : Piece.free ∈ F) (hout : Piece.out ∈ F) (hpower : Piece.power ∈ F) (hprun : Piece.prun ∈ F) (hsec : Piece.sec ∈ F) (hworks : Piece.works ∈ F)
    (go : Goes F s₀ s) : Goes F s₀ (State.createPartition s p) := by
  unfold State.createPartition
  dsimp only
  repeat' first
    | with_reducible assumption
    | (intro)
    | with_reducible apply Goes.clearBrim
    | with_reducible apply Goes.clearRegs
    | with_reducible apply Goes.draw
    | with_reducible apply Goes.modDp
    | with_reducible apply Goes.modPp
    | with_reducible apply Goes.refreshDomains
    | with_reducible apply Goes.setReg
    | with_reducible apply Goes.sizeHbm
    | with_reducible apply Goes.foldl
    | with_reducible apply Goes.sec_prunTo

theorem execPartitionCreateDone_goes {F : List Piece} (p : PartN) (s : State) (hdict : Piece.dict ∈ F) (hhbm : Piece.hbm ∈ F) (hpoison : Piece.poison ∈ F) :
    ∃ t, execPartitionCreateDone p s = .next t ∧ Goes F s t := by
  have go := Goes.refl F s
  unfold execPartitionCreateDone
  try dsimp only
  repeat' first
    | refine ⟨_, rfl, ?_⟩
    | with_reducible assumption
    | with_reducible apply Goes.setReg
    | with_reducible apply Goes.zeroRanks
    | with_reducible apply Goes.ite

theorem Goes.setConn {F : List Piece} {s₀ s : State} (b : Mailbox) (n : Nat) (hconns : Piece.conns ∈ F)
    (go : Goes F s₀ s) : Goes F s₀ (State.setConn s b n) := by
  unfold State.setConn
  repeat' first
    | with_reducible assumption
    | (intro)
    | with_reducible apply Goes.connsTo

theorem Goes.spdm {F : List Piece} {s₀ s : State} (b : Mailbox) (need : Nat) (ok : Bool) (name : String) (bytes : List Byte) (act : State → State) (hact : ∀ s, Goes F s₀ s → Goes F s₀ (act s)) (hout : Piece.out ∈ F)
    (go : Goes F s₀ s) : Goes F s₀ (State.spdm s b need ok name bytes act) := by
  unfold State.spdm
  repeat' first
    | with_reducible assumption
    | with_reducible apply hact
    | with_reducible apply Goes.emit
    | with_reducible apply Goes.ite

theorem execGetVersion_goes {F : List Piece} (box : Mailbox) (s : State) (hconns : Piece.conns ∈ F) (hout : Piece.out ∈ F) :
    ∃ t, execGetVersion box s = .next t ∧ Goes F s t := by
  have go := Goes.refl F s
  unfold execGetVersion
  refine ⟨_, rfl, ?_⟩
  repeat' first
    | with_reducible assumption
    | (intro)
    | with_reducible apply Goes.setConn
    | with_reducible apply Goes.spdm

theorem execGetCapabilities_goes {F : List Piece} (box : Mailbox) (s : State) (hconns : Piece.conns ∈ F) (hout : Piece.out ∈ F) :
    ∃ t, execGetCapabilities box s = .next t ∧ Goes F s t := by
  have go := Goes.refl F s
  unfold execGetCapabilities
  refine ⟨_, rfl, ?_⟩
  repeat' first
    | with_reducible assumption
    | (intro)
    | with_reducible apply Goes.setConn
    | with_reducible apply Goes.spdm

theorem execNegotiateAlgorithms_goes {F : List Piece} (box : Mailbox) (s : State) (hconns : Piece.conns ∈ F) (hout : Piece.out ∈ F) :
    ∃ t, execNegotiateAlgorithms box s = .next t ∧ Goes F s t := by
  have go := Goes.refl F s
  unfold execNegotiateAlgorithms
  refine ⟨_, rfl, ?_⟩
  repeat' first
    | with_reducible assumption
    | (intro)
    | with_reducible apply Goes.setConn
    | with_reducible apply Goes.spdm

theorem execGetDigests_goes {F : List Piece} (box : Mailbox) (s : State) (hout : Piece.out ∈ F) :
    ∃ t, execGetDigests box s = .next t ∧ Goes F s t := by
  have go := Goes.refl F s
  unfold execGetDigests
  refine ⟨_, rfl, ?_⟩
  repeat' first
    | with_reducible assumption
    | exact fun _ g => g
    | with_reducible apply Goes.spdm

theorem execGetCertificate_goes {F : List Piece} (box : Mailbox) (slot : Fin 8) (off len : BitVec 16) (s : State) (hout : Piece.out ∈ F) :
    ∃ t, execGetCertificate box slot off len s = .next t ∧ Goes F s t := by
  have go := Goes.refl F s
  unfold execGetCertificate
  refine ⟨_, rfl, ?_⟩
  repeat' first
    | with_reducible assumption
    | exact fun _ g => g
    | with_reducible apply Goes.spdm

theorem execChallenge_goes {F : List Piece} (box : Mailbox) (slot : Fin 8) (nonce : BitVec 256) (s : State) (hout : Piece.out ∈ F) :
    ∃ t, execChallenge box slot nonce s = .next t ∧ Goes F s t := by
  have go := Goes.refl F s
  unfold execChallenge
  try dsimp only
  repeat' first
    | refine ⟨_, rfl, ?_⟩
    | with_reducible assumption
    | exact fun _ g => g
    | with_reducible apply Goes.spdm

theorem Goes.modSession {F : List Piece} {s₀ s : State} (id : Nat) (g : Session → Session) (hsessions : Piece.sessions ∈ F)
    (go : Goes F s₀ s) : Goes F s₀ (State.modSession s id g) := by
  unfold State.modSession
  dsimp only
  repeat' first
    | with_reducible assumption
    | exact fun _ g => g
    | (intro)
    | with_reducible apply Goes.sessionsTo

theorem execGetMeasurements_goes {F : List Piece} (box : Mailbox) (session : Option Nat) (index : Byte) (nonce : BitVec 256) (s : State) (hout : Piece.out ∈ F) (hsessions : Piece.sessions ∈ F) :
    ∃ t, execGetMeasurements box session index nonce s = .next t ∧ Goes F s t := by
  have go := Goes.refl F s
  unfold execGetMeasurements
  try dsimp only
  repeat' first
    | refine ⟨_, rfl, ?_⟩
    | with_reducible assumption
    | exact fun _ g => g
    | (intro)
    | with_reducible apply Goes.modSession
    | with_reducible apply Goes.spdm
    | with_reducible apply Goes.ite
    | with_reducible apply Goes.elim

theorem execKeyExchange_goes {F : List Piece} (box : Mailbox) (pub : List Byte) (s : State) (hfree : Piece.free ∈ F) (hout : Piece.out ∈ F) (hsessions : Piece.sessions ∈ F) :
    ∃ t, execKeyExchange box pub s = .next t ∧ Goes F s t := by
  have go := Goes.refl F s
  unfold execKeyExchange
  try dsimp only
  repeat' first
    | refine ⟨_, rfl, ?_⟩
    | with_reducible assumption
    | exact fun _ g => g
    | (intro)
    | with_reducible apply Goes.spdm
    | with_reducible apply Goes.free_sessionsTo

theorem Goes.inSession {F : List Piece} {s₀ s : State} (id : Nat) (secured : Bool) (ok : Session → Bool) (name : String) (bytes : Session → List Byte) (act : Session → State → State) (hact : ∀ y0 s, Goes F s₀ s → Goes F s₀ (act y0 s)) (hout : Piece.out ∈ F) (hsessions : Piece.sessions ∈ F)
    (go : Goes F s₀ s) : Goes F s₀ (State.inSession s id secured ok name bytes act) := by
  unfold State.inSession
  dsimp only
  repeat' first
    | with_reducible assumption
    | exact fun _ g => g
    | (intro)
    | with_reducible apply hact
    | with_reducible apply Goes.modSession
    | with_reducible apply Goes.spdm
    | with_reducible apply Goes.ite
    | split

theorem execFinish_goes {F : List Piece} (id : Nat) (verify : List Byte) (s : State) (hout : Piece.out ∈ F) (hsessions : Piece.sessions ∈ F) :
    ∃ t, execFinish id verify s = .next t ∧ Goes F s t := by
  have go := Goes.refl F s
  unfold execFinish
  refine ⟨_, rfl, ?_⟩
  repeat' first
    | with_reducible assumption
    | exact fun _ g => g
    | (intro)
    | with_reducible apply Goes.inSession
    | with_reducible apply Goes.modSession

theorem execKeyUpdate_goes {F : List Piece} (id : Nat) (s : State) (hout : Piece.out ∈ F) (hsessions : Piece.sessions ∈ F) :
    ∃ t, execKeyUpdate id s = .next t ∧ Goes F s t := by
  have go := Goes.refl F s
  unfold execKeyUpdate
  refine ⟨_, rfl, ?_⟩
  repeat' first
    | with_reducible assumption
    | exact fun _ g => g
    | (intro)
    | with_reducible apply Goes.inSession
    | with_reducible apply Goes.modSession

theorem execHeartbeat_goes {F : List Piece} (id : Nat) (s : State) (hout : Piece.out ∈ F) (hsessions : Piece.sessions ∈ F) :
    ∃ t, execHeartbeat id s = .next t ∧ Goes F s t := by
  have go := Goes.refl F s
  unfold execHeartbeat
  refine ⟨_, rfl, ?_⟩
  repeat' first
    | with_reducible assumption
    | exact fun _ g => g
    | (intro)
    | with_reducible apply Goes.inSession

theorem Goes.endSession {F : List Piece} {s₀ s : State} (id : Nat) (harrays : Piece.arrays ∈ F) (hbrims : Piece.brims ∈ F) (hdict : Piece.dict ∈ F) (hengines : Piece.engines ∈ F) (hfns : Piece.fns ∈ F) (hfree : Piece.free ∈ F) (hhostMem : Piece.hostMem ∈ F) (hmill : Piece.mill ∈ F) (hout : Piece.out ∈ F) (hpower : Piece.power ∈ F) (hprun : Piece.prun ∈ F) (hrefusals : Piece.refusals ∈ F) (hsec : Piece.sec ∈ F) (hsessions : Piece.sessions ∈ F) (hstackSides : Piece.stackSides ∈ F) (hworks : Piece.works ∈ F) (hxacts : Piece.xacts ∈ F)
    (go : Goes F s₀ s) : Goes F s₀ (State.endSession s id) := by
  unfold State.endSession
  dsimp only
  repeat' first
    | with_reducible assumption
    | exact fun _ g => g
    | (intro)
    | with_reducible apply Goes.toError
    | with_reducible apply Goes.elim
    | split
    | with_reducible apply Goes.sessionsTo

theorem execEndSession_goes {F : List Piece} (id : Nat) (s : State) (harrays : Piece.arrays ∈ F) (hbrims : Piece.brims ∈ F) (hdict : Piece.dict ∈ F) (hengines : Piece.engines ∈ F) (hfns : Piece.fns ∈ F) (hfree : Piece.free ∈ F) (hhostMem : Piece.hostMem ∈ F) (hmill : Piece.mill ∈ F) (hout : Piece.out ∈ F) (hpower : Piece.power ∈ F) (hprun : Piece.prun ∈ F) (hrefusals : Piece.refusals ∈ F) (hsec : Piece.sec ∈ F) (hsessions : Piece.sessions ∈ F) (hstackSides : Piece.stackSides ∈ F) (hworks : Piece.works ∈ F) (hxacts : Piece.xacts ∈ F) :
    ∃ t, execEndSession id s = .next t ∧ Goes F s t := by
  have go := Goes.refl F s
  unfold execEndSession
  refine ⟨_, rfl, ?_⟩
  repeat' first
    | with_reducible assumption
    | exact fun _ g => g
    | (intro)
    | with_reducible apply Goes.endSession
    | with_reducible apply Goes.inSession

theorem execHeartbeatPeriodExpiry_goes {F : List Piece} (id : Nat) (s : State) (harrays : Piece.arrays ∈ F) (hbrims : Piece.brims ∈ F) (hdict : Piece.dict ∈ F) (hengines : Piece.engines ∈ F) (hfns : Piece.fns ∈ F) (hfree : Piece.free ∈ F) (hhostMem : Piece.hostMem ∈ F) (hmill : Piece.mill ∈ F) (hout : Piece.out ∈ F) (hpower : Piece.power ∈ F) (hprun : Piece.prun ∈ F) (hrefusals : Piece.refusals ∈ F) (hsec : Piece.sec ∈ F) (hsessions : Piece.sessions ∈ F) (hstackSides : Piece.stackSides ∈ F) (hworks : Piece.works ∈ F) (hxacts : Piece.xacts ∈ F) :
    ∃ t, execHeartbeatPeriodExpiry id s = .next t ∧ Goes F s t := by
  have go := Goes.refl F s
  unfold execHeartbeatPeriodExpiry
  refine ⟨_, rfl, ?_⟩
  repeat' first
    | with_reducible assumption
    | exact fun _ g => g
    | with_reducible apply Goes.endSession
    | with_reducible apply Goes.ite

theorem Goes.showStream {F : List Piece} {s₀ s : State} (f : Fn) (hdict : Piece.dict ∈ F)
    (go : Goes F s₀ s) : Goes F s₀ (State.showStream s f) := by
  unfold State.showStream
  dsimp only
  repeat' first
    | with_reducible assumption
    | with_reducible apply Goes.setReg
    | with_reducible apply Goes.ite
    | split

theorem execKeyProg_goes {F : List Piece} (id : Nat) (f : Fn) (stream : Byte) (set : Fin 2) (key : BitVec 256) (s : State) (hfns : Piece.fns ∈ F) (hout : Piece.out ∈ F) (hsessions : Piece.sessions ∈ F) :
    ∃ t, execKeyProg id f stream set key s = .next t ∧ Goes F s t := by
  have go := Goes.refl F s
  unfold execKeyProg
  try dsimp only
  repeat' first
    | refine ⟨_, rfl, ?_⟩
    | with_reducible assumption
    | with_reducible apply Goes.ite
    | exact fun _ g => g
    | (intro)
    | with_reducible apply Goes.inSession
    | with_reducible apply Goes.modFn

theorem execKSetGo_goes {F : List Piece} (id : Nat) (f : Fn) (set : Fin 2) (s : State) (hdict : Piece.dict ∈ F) (hfns : Piece.fns ∈ F) (hout : Piece.out ∈ F) (hsessions : Piece.sessions ∈ F) :
    ∃ t, execKSetGo id f set s = .next t ∧ Goes F s t := by
  have go := Goes.refl F s
  unfold execKSetGo
  try dsimp only
  repeat' first
    | refine ⟨_, rfl, ?_⟩
    | with_reducible assumption
    | exact fun _ g => g
    | (intro)
    | with_reducible apply Goes.inSession
    | with_reducible apply Goes.modFn
    | with_reducible apply Goes.showStream

theorem execKSetStop_goes {F : List Piece} (id : Nat) (f : Fn) (set : Fin 2) (s : State) (hdict : Piece.dict ∈ F) (hfns : Piece.fns ∈ F) (hout : Piece.out ∈ F) (hsessions : Piece.sessions ∈ F) :
    ∃ t, execKSetStop id f set s = .next t ∧ Goes F s t := by
  have go := Goes.refl F s
  unfold execKSetStop
  try dsimp only
  repeat' first
    | refine ⟨_, rfl, ?_⟩
    | with_reducible assumption
    | with_reducible apply Goes.ite
    | exact fun _ g => g
    | (intro)
    | with_reducible apply Goes.inSession
    | with_reducible apply Goes.modFn
    | with_reducible apply Goes.showStream

theorem execQuery_goes {F : List Piece} (id : Nat) (f : Fn) (s : State) (hout : Piece.out ∈ F) (hsessions : Piece.sessions ∈ F) :
    ∃ t, execQuery id f s = .next t ∧ Goes F s t := by
  have go := Goes.refl F s
  unfold execQuery
  try dsimp only
  repeat' first
    | refine ⟨_, rfl, ?_⟩
    | with_reducible assumption
    | exact fun _ g => g
    | (intro)
    | with_reducible apply Goes.inSession

theorem execIdeFailure_goes {F : List Piece} (f : Fn) (s : State) (harrays : Piece.arrays ∈ F) (hbrims : Piece.brims ∈ F) (hdict : Piece.dict ∈ F) (hengines : Piece.engines ∈ F) (hfns : Piece.fns ∈ F) (hfree : Piece.free ∈ F) (hhostMem : Piece.hostMem ∈ F) (hmill : Piece.mill ∈ F) (hout : Piece.out ∈ F) (hpower : Piece.power ∈ F) (hprun : Piece.prun ∈ F) (hrefusals : Piece.refusals ∈ F) (hsec : Piece.sec ∈ F) (hstackSides : Piece.stackSides ∈ F) (hworks : Piece.works ∈ F) (hxacts : Piece.xacts ∈ F) :
    ∃ t, execIdeFailure f s = .next t ∧ Goes F s t := by
  have go := Goes.refl F s
  unfold execIdeFailure
  refine ⟨_, rfl, ?_⟩
  repeat' first
    | with_reducible assumption
    | (intro)
    | with_reducible apply Goes.toError
    | with_reducible apply Goes.elim

theorem Goes.tdisp {F : List Piece} {s₀ s : State} (id : Nat) (f : Fn) (ok : Nat → Session → Bool) (name : String) (bytes : Nat → List Byte) (act : Nat → State → State) (hact : ∀ y0 s, Goes F s₀ s → Goes F s₀ (act y0 s)) (hout : Piece.out ∈ F) (hsessions : Piece.sessions ∈ F)
    (go : Goes F s₀ s) : Goes F s₀ (State.tdisp s id f ok name bytes act) := by
  unfold State.tdisp
  dsimp only
  repeat' first
    | with_reducible assumption
    | exact fun _ g => g
    | (intro)
    | with_reducible apply hact
    | with_reducible apply Goes.inSession
    | with_reducible apply Goes.ite
    | split

theorem execLockInterfaceRequest_goes {F : List Piece} (id : Nat) (f : Fn) (s : State) (hdict : Piece.dict ∈ F) (hout : Piece.out ∈ F) (hsessions : Piece.sessions ∈ F) :
    ∃ t, execLockInterfaceRequest id f s = .next t ∧ Goes F s t := by
  have go := Goes.refl F s
  unfold execLockInterfaceRequest
  try dsimp only
  repeat' first
    | refine ⟨_, rfl, ?_⟩
    | with_reducible assumption
    | exact fun _ g => g
    | (intro)
    | with_reducible apply Goes.modSession
    | with_reducible apply Goes.setReg
    | with_reducible apply Goes.tdisp

theorem execGetDeviceInterfaceReport_goes {F : List Piece} (id : Nat) (f : Fn) (s : State) (hout : Piece.out ∈ F) (hsessions : Piece.sessions ∈ F) :
    ∃ t, execGetDeviceInterfaceReport id f s = .next t ∧ Goes F s t := by
  have go := Goes.refl F s
  unfold execGetDeviceInterfaceReport
  refine ⟨_, rfl, ?_⟩
  repeat' first
    | with_reducible assumption
    | exact fun _ g => g
    | (intro)
    | with_reducible apply Goes.tdisp

theorem execStartInterfaceRequest_goes {F : List Piece} (id : Nat) (f : Fn) (s : State) (hdict : Piece.dict ∈ F) (hout : Piece.out ∈ F) (hsessions : Piece.sessions ∈ F) :
    ∃ t, execStartInterfaceRequest id f s = .next t ∧ Goes F s t := by
  have go := Goes.refl F s
  unfold execStartInterfaceRequest
  try dsimp only
  repeat' first
    | refine ⟨_, rfl, ?_⟩
    | with_reducible assumption
    | exact fun _ g => g
    | (intro)
    | with_reducible apply Goes.setReg
    | with_reducible apply Goes.tdisp

theorem Goes.stopTdi {F : List Piece} {s₀ s : State} (p : Nat) (harrays : Piece.arrays ∈ F) (hbrims : Piece.brims ∈ F) (hdict : Piece.dict ∈ F) (hengines : Piece.engines ∈ F) (hfns : Piece.fns ∈ F) (hfree : Piece.free ∈ F) (hhostMem : Piece.hostMem ∈ F) (hmill : Piece.mill ∈ F) (hout : Piece.out ∈ F) (hpower : Piece.power ∈ F) (hprun : Piece.prun ∈ F) (hrefusals : Piece.refusals ∈ F) (hsec : Piece.sec ∈ F) (hsessions : Piece.sessions ∈ F) (hstackSides : Piece.stackSides ∈ F) (hworks : Piece.works ∈ F) (hxacts : Piece.xacts ∈ F)
    (go : Goes F s₀ s) : Goes F s₀ (State.stopTdi s p) := by
  unfold State.stopTdi
  dsimp only
  repeat' first
    | with_reducible assumption
    | with_reducible apply Goes.endEpoch
    | with_reducible apply Goes.setReg
    | with_reducible apply Goes.ite
    | split
    | with_reducible apply Goes.sessionsTo

theorem execStopInterfaceRequest_goes {F : List Piece} (id : Nat) (f : Fn) (s : State) (harrays : Piece.arrays ∈ F) (hbrims : Piece.brims ∈ F) (hdict : Piece.dict ∈ F) (hengines : Piece.engines ∈ F) (hfns : Piece.fns ∈ F) (hfree : Piece.free ∈ F) (hhostMem : Piece.hostMem ∈ F) (hmill : Piece.mill ∈ F) (hout : Piece.out ∈ F) (hpower : Piece.power ∈ F) (hprun : Piece.prun ∈ F) (hrefusals : Piece.refusals ∈ F) (hsec : Piece.sec ∈ F) (hsessions : Piece.sessions ∈ F) (hstackSides : Piece.stackSides ∈ F) (hworks : Piece.works ∈ F) (hxacts : Piece.xacts ∈ F) :
    ∃ t, execStopInterfaceRequest id f s = .next t ∧ Goes F s t := by
  have go := Goes.refl F s
  unfold execStopInterfaceRequest
  refine ⟨_, rfl, ?_⟩
  repeat' first
    | with_reducible assumption
    | exact fun _ g => g
    | (intro)
    | with_reducible apply Goes.stopTdi
    | with_reducible apply Goes.tdisp

end Sys2Proof.Machine
end

