-- ==== Sys2Proof/Laws/Host.lean ====
section
/-! SUPPORT. What the operations of Machine/Host.lean may change, and that each keeps what the model keeps throughout. -/

namespace Sys2Proof.Machine

theorem Goes.doorbell {F : List Piece} {s₀ s : State} (f : Fn) (g : FnState → FnState) (hfns : Piece.fns ∈ F)
    (go : Goes F s₀ s) : Goes F s₀ (State.doorbell s f g) := by
  unfold State.doorbell
  repeat' first
    | with_reducible assumption
    | with_reducible apply Goes.modFn
    | with_reducible apply Goes.ite

theorem execSqTail_goes {F : List Piece} (f : Fn) (v : W64) (s : State) (hfns : Piece.fns ∈ F) :
    ∃ t, execSqTail f v s = .next t ∧ Goes F s t := by
  have go := Goes.refl F s
  unfold execSqTail
  refine ⟨_, rfl, ?_⟩
  repeat' first
    | with_reducible assumption
    | (intro)
    | with_reducible apply Goes.doorbell

theorem execCqHead_goes {F : List Piece} (f : Fn) (v : W64) (s : State) (hfns : Piece.fns ∈ F) (hfree : Piece.free ∈ F) (hhostMem : Piece.hostMem ∈ F) (hout : Piece.out ∈ F) (hprun : Piece.prun ∈ F) :
    ∃ t, execCqHead f v s = .next t ∧ Goes F s t := by
  have go := Goes.refl F s
  unfold execCqHead
  try dsimp only
  repeat' first
    | refine ⟨_, rfl, ?_⟩
    | with_reducible assumption
    | (intro)
    | with_reducible apply Goes.doorbell
    | with_reducible apply Goes.drainHeld
    | with_reducible apply Goes.ite
    | split

theorem execLateQHead_goes {F : List Piece} (f : Fn) (v : W64) (s : State) (hfns : Piece.fns ∈ F) :
    ∃ t, execLateQHead f v s = .next t ∧ Goes F s t := by
  have go := Goes.refl F s
  unfold execLateQHead
  refine ⟨_, rfl, ?_⟩
  try dsimp only
  repeat' first
    | with_reducible assumption
    | (intro)
    | with_reducible apply Goes.doorbell
    | with_reducible apply Goes.ite
    | split

theorem execRingEnable_goes {F : List Piece} (f : Fn) (s : State) (hfns : Piece.fns ∈ F) (hfree : Piece.free ∈ F) (hhostMem : Piece.hostMem ∈ F) (hout : Piece.out ∈ F) (hprun : Piece.prun ∈ F) :
    ∃ t, execRingEnable f s = .next t ∧ Goes F s t := by
  have go := Goes.refl F s
  unfold execRingEnable
  refine ⟨_, rfl, ?_⟩
  try dsimp only
  repeat' first
    | with_reducible assumption
    | (intro)
    | with_reducible apply Goes.drainHeld
    | with_reducible apply Goes.modFn
    | with_reducible apply Goes.ite
    | split

theorem execRingDisable_goes {F : List Piece} (f : Fn) (s : State) (hfns : Piece.fns ∈ F) (hprun : Piece.prun ∈ F) :
    ∃ t, execRingDisable f s = .next t ∧ Goes F s t := by
  have go := Goes.refl F s
  unfold execRingDisable
  refine ⟨_, rfl, ?_⟩
  try dsimp only
  repeat' first
    | with_reducible assumption
    | (intro)
    | with_reducible apply Goes.modFn
    | with_reducible apply Goes.recordDone
    | with_reducible apply Goes.ite
    | with_reducible apply Goes.foldl
    | split

theorem execRingRegisters_goes {F : List Piece} (f : Fn) (reg : Fin 5) (v : W64) (s : State) (hfns : Piece.fns ∈ F) :
    ∃ t, execRingRegisters f reg v s = .next t ∧ Goes F s t := by
  have go := Goes.refl F s
  unfold execRingRegisters
  try dsimp only
  repeat' first
    | refine ⟨_, rfl, ?_⟩
    | with_reducible assumption
    | (intro)
    | with_reducible apply Goes.modFn
    | with_reducible apply Goes.ite

theorem Goes.taken {F : List Piece} {s₀ s : State} (f : Fn) (hfns : Piece.fns ∈ F)
    (go : Goes F s₀ s) : Goes F s₀ (State.taken s f) := by
  unfold State.taken
  repeat' first
    | with_reducible assumption
    | (intro)
    | with_reducible apply Goes.modFn

theorem execSubmissionFetch_goes {F : List Piece} (f : Fn) (entry : Desc) (s : State) (hfns : Piece.fns ∈ F) (hprun : Piece.prun ∈ F) :
    ∃ t, execSubmissionFetch f entry s = .next t ∧ Goes F s t := by
  have go := Goes.refl F s
  unfold execSubmissionFetch
  refine ⟨_, rfl, ?_⟩
  try dsimp only
  repeat' first
    | with_reducible assumption
    | (intro)
    | with_reducible apply Goes.modFn
    | with_reducible apply Goes.modPr
    | with_reducible apply Goes.taken
    | with_reducible apply Goes.ite
    | split

theorem execFetchError_goes {F : List Piece} (f : Fn) (c : Cpl) (s : State) (hfns : Piece.fns ∈ F) :
    ∃ t, execFetchError f c s = .next t ∧ Goes F s t := by
  have go := Goes.refl F s
  unfold execFetchError
  refine ⟨_, rfl, ?_⟩
  repeat' first
    | with_reducible assumption
    | (intro)
    | with_reducible apply Goes.modFn
    | with_reducible apply Goes.taken
    | with_reducible apply Goes.ite

theorem execFlushReadCompletion_goes {F : List Piece} (f : Fn) (record : Bool) (c : Cpl) (s : State) (hdict : Piece.dict ∈ F) (hfns : Piece.fns ∈ F) (hresps : Piece.resps ∈ F) :
    ∃ t, execFlushReadCompletion f record c s = .next t ∧ Goes F s t := by
  have go := Goes.refl F s
  unfold execFlushReadCompletion
  try dsimp only
  repeat' first
    | refine ⟨_, rfl, ?_⟩
    | with_reducible assumption
    | (intro)
    | with_reducible apply Goes.bump
    | with_reducible apply Goes.modFn
    | with_reducible apply Goes.modResp
    | with_reducible apply Goes.ite
    | split

theorem execMsixUnmask_goes {F : List Piece} (f : Fn) (vec : Fin 4) (s : State) (hfns : Piece.fns ∈ F) (hout : Piece.out ∈ F) :
    ∃ t, execMsixUnmask f vec s = .next t ∧ Goes F s t := by
  have go := Goes.refl F s
  unfold execMsixUnmask
  try dsimp only
  repeat' first
    | refine ⟨_, rfl, ?_⟩
    | with_reducible assumption
    | with_reducible apply Goes.emit
    | with_reducible apply Goes.msix
    | with_reducible apply Goes.setFn
    | with_reducible apply Goes.ite

theorem Goes.resetFn {F : List Piece} {s₀ s : State} (f : Fn) (hfns : Piece.fns ∈ F)
    (go : Goes F s₀ s) : Goes F s₀ (State.resetFn s f) := by
  unfold State.resetFn
  repeat' first | with_reducible assumption | with_reducible apply Goes.setFn

theorem execFlrVf_goes {F : List Piece} (f : Fn) (s : State) (harrays : Piece.arrays ∈ F) (hbrims : Piece.brims ∈ F) (hdict : Piece.dict ∈ F) (hengines : Piece.engines ∈ F) (hfns : Piece.fns ∈ F) (hfree : Piece.free ∈ F) (hhostMem : Piece.hostMem ∈ F) (hmill : Piece.mill ∈ F) (hout : Piece.out ∈ F) (hpower : Piece.power ∈ F) (hprun : Piece.prun ∈ F) (hrefusals : Piece.refusals ∈ F) (hsec : Piece.sec ∈ F) (hstackSides : Piece.stackSides ∈ F) (hworks : Piece.works ∈ F) (hxacts : Piece.xacts ∈ F) :
    ∃ t, execFlrVf f s = .next t ∧ Goes F s t := by
  have go := Goes.refl F s
  unfold execFlrVf
  refine ⟨_, rfl, ?_⟩
  repeat' first
    | with_reducible assumption
    | (intro)
    | with_reducible apply Goes.endEpoch
    | with_reducible apply Goes.resetFn
    | with_reducible apply Goes.ite
    | with_reducible apply Goes.elim

theorem Goes.resetPort {F : List Piece} {s₀ s : State} (n : Fin 4) (harrays : Piece.arrays ∈ F) (hbrims : Piece.brims ∈ F) (hdict : Piece.dict ∈ F) (hengines : Piece.engines ∈ F) (hfns : Piece.fns ∈ F) (hfree : Piece.free ∈ F) (hhostMem : Piece.hostMem ∈ F) (hmill : Piece.mill ∈ F) (hout : Piece.out ∈ F) (hports : Piece.ports ∈ F) (hpower : Piece.power ∈ F) (hprun : Piece.prun ∈ F) (hrefusals : Piece.refusals ∈ F) (hsec : Piece.sec ∈ F) (hstackSides : Piece.stackSides ∈ F) (hworks : Piece.works ∈ F) (hxacts : Piece.xacts ∈ F)
    (go : Goes F s₀ s) : Goes F s₀ (State.resetPort s n) := by
  unfold State.resetPort
  dsimp only
  repeat' first
    | with_reducible assumption
    | (intro)
    | with_reducible apply Goes.endEpoch
    | with_reducible apply Goes.resetFn
    | with_reducible apply Goes.setPort
    | with_reducible apply Goes.foldl

theorem execFlrPf_goes {F : List Piece} (port : PortN) (s : State) (harrays : Piece.arrays ∈ F) (hbrims : Piece.brims ∈ F) (hdict : Piece.dict ∈ F) (hengines : Piece.engines ∈ F) (hfns : Piece.fns ∈ F) (hfree : Piece.free ∈ F) (hhostMem : Piece.hostMem ∈ F) (hmill : Piece.mill ∈ F) (hout : Piece.out ∈ F) (hports : Piece.ports ∈ F) (hpower : Piece.power ∈ F) (hprun : Piece.prun ∈ F) (hrefusals : Piece.refusals ∈ F) (hsec : Piece.sec ∈ F) (hstackSides : Piece.stackSides ∈ F) (hworks : Piece.works ∈ F) (hxacts : Piece.xacts ∈ F) :
    ∃ t, execFlrPf port s = .next t ∧ Goes F s t := by
  have go := Goes.refl F s
  unfold execFlrPf
  refine ⟨_, rfl, ?_⟩
  repeat' first
    | with_reducible assumption
    | with_reducible apply Goes.resetPort
    | with_reducible apply Goes.ite

theorem Goes.hotReset {F : List Piece} {s₀ s : State} (n : Fin 4) (harrays : Piece.arrays ∈ F) (hbrims : Piece.brims ∈ F) (hdict : Piece.dict ∈ F) (hengines : Piece.engines ∈ F) (hfns : Piece.fns ∈ F) (hfree : Piece.free ∈ F) (hhostMem : Piece.hostMem ∈ F) (hmill : Piece.mill ∈ F) (hout : Piece.out ∈ F) (hports : Piece.ports ∈ F) (hpower : Piece.power ∈ F) (hprun : Piece.prun ∈ F) (hrefusals : Piece.refusals ∈ F) (hsec : Piece.sec ∈ F) (hstackSides : Piece.stackSides ∈ F) (hworks : Piece.works ∈ F) (hxacts : Piece.xacts ∈ F)
    (go : Goes F s₀ s) : Goes F s₀ (State.hotReset s n) := by
  unfold State.hotReset
  dsimp only
  repeat' first
    | with_reducible assumption
    | (intro)
    | with_reducible apply Goes.modFn
    | with_reducible apply Goes.resetPort
    | with_reducible apply Goes.setReg
    | with_reducible apply Goes.showStream
    | with_reducible apply Goes.foldl

theorem Goes.linkLost {F : List Piece} {s₀ s : State} (n : Fin 4) (harrays : Piece.arrays ∈ F) (hbrims : Piece.brims ∈ F) (hdict : Piece.dict ∈ F) (hengines : Piece.engines ∈ F) (hfns : Piece.fns ∈ F) (hfree : Piece.free ∈ F) (hhostMem : Piece.hostMem ∈ F) (hmill : Piece.mill ∈ F) (hout : Piece.out ∈ F) (hports : Piece.ports ∈ F) (hpower : Piece.power ∈ F) (hprun : Piece.prun ∈ F) (hrefusals : Piece.refusals ∈ F) (hrst : Piece.rst ∈ F) (hsec : Piece.sec ∈ F) (hstackSides : Piece.stackSides ∈ F) (hworks : Piece.works ∈ F) (hxacts : Piece.xacts ∈ F)
    (go : Goes F s₀ s) : Goes F s₀ (State.linkLost s n) := by
  unfold State.linkLost
  repeat' first
    | with_reducible assumption
    | with_reducible apply Goes.hotReset
    | with_reducible apply Goes.ite
    | split
    | with_reducible apply Goes.rstTo

theorem execHotReset_goes {F : List Piece} (port : PortN) (s : State) (harrays : Piece.arrays ∈ F) (hbrims : Piece.brims ∈ F) (hdict : Piece.dict ∈ F) (hengines : Piece.engines ∈ F) (hfns : Piece.fns ∈ F) (hfree : Piece.free ∈ F) (hhostMem : Piece.hostMem ∈ F) (hmill : Piece.mill ∈ F) (hout : Piece.out ∈ F) (hports : Piece.ports ∈ F) (hpower : Piece.power ∈ F) (hprun : Piece.prun ∈ F) (hrefusals : Piece.refusals ∈ F) (hrst : Piece.rst ∈ F) (hsec : Piece.sec ∈ F) (hstackSides : Piece.stackSides ∈ F) (hworks : Piece.works ∈ F) (hxacts : Piece.xacts ∈ F) :
    ∃ t, execHotReset port s = .next t ∧ Goes F s t := by
  have go := Goes.refl F s
  unfold execHotReset
  refine ⟨_, rfl, ?_⟩
  repeat' first | with_reducible assumption | with_reducible apply Goes.linkLost

theorem execPciePerstN_goes {F : List Piece} (port : PortN) (level : Bool) (s : State) (harrays : Piece.arrays ∈ F) (hbrims : Piece.brims ∈ F) (hdict : Piece.dict ∈ F) (hengines : Piece.engines ∈ F) (hfns : Piece.fns ∈ F) (hfree : Piece.free ∈ F) (hhostMem : Piece.hostMem ∈ F) (hmill : Piece.mill ∈ F) (hout : Piece.out ∈ F) (hports : Piece.ports ∈ F) (hpower : Piece.power ∈ F) (hprun : Piece.prun ∈ F) (hrefusals : Piece.refusals ∈ F) (hrst : Piece.rst ∈ F) (hsec : Piece.sec ∈ F) (hstackSides : Piece.stackSides ∈ F) (hworks : Piece.works ∈ F) (hxacts : Piece.xacts ∈ F) :
    ∃ t, execPciePerstN port level s = .next t ∧ Goes F s t := by
  have go := Goes.refl F s
  unfold execPciePerstN
  try dsimp only
  repeat' first
    | refine ⟨_, rfl, ?_⟩
    | with_reducible assumption
    | with_reducible apply Goes.linkLost
    | with_reducible apply Goes.setPort
    | with_reducible apply Goes.ite

theorem execLinkUp_goes {F : List Piece} (port : PortN) (width : Fin 4) (rate : Fin 6) (flit : Bool) (s : State) (hdict : Piece.dict ∈ F) :
    ∃ t, execLinkUp port width rate flit s = .next t ∧ Goes F s t := by
  have go := Goes.refl F s
  unfold execLinkUp
  try dsimp only
  repeat' first
    | refine ⟨_, rfl, ?_⟩
    | with_reducible assumption
    | with_reducible apply Goes.setReg
    | with_reducible apply Goes.ite

theorem execVfEnable_goes {F : List Piece} (port : PortN) (on : Bool) (num : Fin 17) (s : State) (harrays : Piece.arrays ∈ F) (hbrims : Piece.brims ∈ F) (hdict : Piece.dict ∈ F) (hengines : Piece.engines ∈ F) (hfns : Piece.fns ∈ F) (hfree : Piece.free ∈ F) (hhostMem : Piece.hostMem ∈ F) (hmill : Piece.mill ∈ F) (hout : Piece.out ∈ F) (hports : Piece.ports ∈ F) (hpower : Piece.power ∈ F) (hprun : Piece.prun ∈ F) (hrefusals : Piece.refusals ∈ F) (hsec : Piece.sec ∈ F) (hstackSides : Piece.stackSides ∈ F) (hworks : Piece.works ∈ F) (hxacts : Piece.xacts ∈ F) :
    ∃ t, execVfEnable port on num s = .next t ∧ Goes F s t := by
  have go := Goes.refl F s
  unfold execVfEnable
  try dsimp only
  repeat' first
    | refine ⟨_, rfl, ?_⟩
    | with_reducible assumption
    | with_reducible apply Goes.resetPort
    | with_reducible apply Goes.setPort
    | with_reducible apply Goes.ite

theorem Goes.countFull {F : List Piece} {s₀ s : State}  (hdict : Piece.dict ∈ F)
    (go : Goes F s₀ s) : Goes F s₀ (State.countFull s) := by
  unfold State.countFull
  repeat' first
    | with_reducible assumption
    | (intro)
    | with_reducible apply Goes.bump
    | with_reducible apply Goes.ite
    | with_reducible apply Goes.foldl

end Sys2Proof.Machine
end

