-- ==== Sys2Proof/Laws/Reset.lean ====
section
/-! SUPPORT. What the operations of Machine/Reset.lean may change, and that each keeps what the model keeps throughout. -/

namespace Sys2Proof.Machine

theorem Goes.resetBegins {F : List Piece} {s₀ s : State} (cause now : Nat) (disciplined : Bool) (hdict : Piece.dict ∈ F)
    (go : Goes F s₀ s) : Goes F s₀ (State.resetBegins s cause now disciplined) := by
  unfold State.resetBegins
  repeat' first
    | with_reducible assumption
    | with_reducible apply Goes.ite
    | with_reducible apply Goes.setReg

theorem Goes.unlockDebug {F : List Piece} {s₀ s : State}  (hdict : Piece.dict ∈ F)
    (go : Goes F s₀ s) : Goes F s₀ (State.unlockDebug s) := by
  unfold State.unlockDebug
  repeat' first
    | with_reducible assumption
    | with_reducible apply Goes.bump
    | with_reducible apply Goes.setReg

theorem coldDict_wf (s : State) (h : swf regDefault s.dict = true) : swf regDefault s.coldDict = true :=
  swf_foldl_sput regDefault _ (fun e : Nat × Nat => e.1) (fun e => e.2 % 2 ^ (8 * regLen e.1)) _ (swf_sclear _ _ _ h)

/-- Settings restored from flash are cut to their registers' lengths. -/
theorem coldDict_fits (s : State) (h : s.registersFit) : ∀ e ∈ s.coldDict, e.2 < 2 ^ (8 * regLen e.1) := by
  unfold State.coldDict
  generalize s.mill.flash0.journal = l
  have h0 : ∀ e ∈ sclear (fun k => !isFuse k) s.dict, e.2 < 2 ^ (8 * regLen e.1) := fun e he => h e (List.mem_filter.1 he).1
  generalize sclear (fun k => !isFuse k) s.dict = d at h0
  induction l generalizing d with
  | nil => exact h0
  | cons x l ih =>
    refine ih _ (fun e he => ?_)
    rcases mem_sput he with rfl | he
    · exact Nat.mod_lt _ (by positivity)
    · exact h0 e he

theorem Goes.coldReset {F : List Piece} {s₀ s : State} (cause : Nat) (harrays : Piece.arrays ∈ F) (hbrims : Piece.brims ∈ F) (hcfg : Piece.cfg ∈ F) (hchannels : Piece.channels ∈ F) (hclock : Piece.clock ∈ F) (hconns : Piece.conns ∈ F) (hdict : Piece.dict ∈ F) (hengines : Piece.engines ∈ F) (hfns : Piece.fns ∈ F) (hframes : Piece.frames ∈ F) (hhbm : Piece.hbm ∈ F) (hlanes : Piece.lanes ∈ F) (hmill : Piece.mill ∈ F) (hmismatches : Piece.mismatches ∈ F) (hnextResp : Piece.nextResp ∈ F) (hpairTx : Piece.pairTx ∈ F) (hpoison : Piece.poison ∈ F) (hports : Piece.ports ∈ F) (hpower : Piece.power ∈ F) (hprun : Piece.prun ∈ F) (hrefusals : Piece.refusals ∈ F) (hresps : Piece.resps ∈ F) (hresv : Piece.resv ∈ F) (hresvNext : Piece.resvNext ∈ F) (hretired : Piece.retired ∈ F) (hrst : Piece.rst ∈ F) (hscrub : Piece.scrub ∈ F) (hsec : Piece.sec ∈ F) (hsessions : Piece.sessions ∈ F) (hsplits : Piece.splits ∈ F) (hstackSides : Piece.stackSides ∈ F) (hswitches : Piece.switches ∈ F) (htaps : Piece.taps ∈ F) (htests : Piece.tests ∈ F) (hwaiting : Piece.waiting ∈ F) (hworks : Piece.works ∈ F) (hxacts : Piece.xacts ∈ F)
    (go : Goes F s₀ s) : Goes F s₀ (State.coldReset s cause) := by
  unfold State.coldReset
  dsimp only
  refine Goes.resetBegins _ _ _ hdict ?_
  have h1 (t : State) (hp : t.pending = s.pending) (hf : t.free = s.free) (hh : t.hostMem = s.hostMem) (ho : t.out = s.out)
      (hd : t.dict = s.coldDict) (hb : t.hbm = []) (hc : t.clock = Clock.blank) (he : t.mill.events = s.mill.events)
      (hr : t.mill.responses = []) : Goes F s₀ t := by
    refine go.trans ⟨fun p hpF => ?_, ⟨le_of_eq hf.symm, by rw [ho], fun c => ?_, fun c => ?_, fun c => ?_⟩⟩
    · cases p <;> first
        | exact hp
        | exact hf
        | exact hh
        | exact ho
        | exact absurd hclock hpF
        | exact absurd hdict hpF
        | exact absurd hmill hpF
        | exact absurd hrst hpF
        | exact absurd hsessions hpF
        | exact absurd hconns hpF
        | exact absurd hsec hpF
        | exact absurd hfns hpF
        | exact absurd hports hpF
        | exact absurd hprun hpF
        | exact absurd hrefusals hpF
        | exact absurd hbrims hpF
        | exact absurd hframes hpF
        | exact absurd hcfg hpF
        | exact absurd htaps hpF
        | exact absurd hlanes hpF
        | exact absurd hpower hpF
        | exact absurd hwaiting hpF
        | exact absurd hchannels hpF
        | exact absurd hresps hpF
        | exact absurd hnextResp hpF
        | exact absurd hxacts hpF
        | exact absurd hretired hpF
        | exact absurd hstackSides hpF
        | exact absurd hswitches hpF
        | exact absurd hresv hpF
        | exact absurd hresvNext hpF
        | exact absurd hsplits hpF
        | exact absurd hhbm hpF
        | exact absurd hpoison hpF
        | exact absurd hworks hpF
        | exact absurd harrays hpF
        | exact absurd hengines hpF
        | exact absurd hmismatches hpF
        | exact absurd htests hpF
        | exact absurd hpairTx hpF
        | exact absurd hscrub hpF
    · exact ⟨hb ▸ rfl, hh ▸ c.2.1, hd ▸ coldDict_wf s c.2.2⟩
    · unfold State.registersFit; rw [hd]; exact coldDict_fits s c
    · unfold State.bounded; rw [hc, he, hr]; exact ⟨by decide, c.2.1, Nat.zero_le _⟩
  split
  · exact Goes.unlockDebug hdict (h1 _ rfl rfl rfl rfl rfl rfl rfl rfl rfl)
  · exact h1 _ rfl rfl rfl rfl rfl rfl rfl rfl rfl

theorem execPowerOn_goes {F : List Piece} (s : State) (harrays : Piece.arrays ∈ F) (hbrims : Piece.brims ∈ F) (hcfg : Piece.cfg ∈ F) (hchannels : Piece.channels ∈ F) (hclock : Piece.clock ∈ F) (hconns : Piece.conns ∈ F) (hdict : Piece.dict ∈ F) (hengines : Piece.engines ∈ F) (hfns : Piece.fns ∈ F) (hframes : Piece.frames ∈ F) (hhbm : Piece.hbm ∈ F) (hlanes : Piece.lanes ∈ F) (hmill : Piece.mill ∈ F) (hmismatches : Piece.mismatches ∈ F) (hnextResp : Piece.nextResp ∈ F) (hpairTx : Piece.pairTx ∈ F) (hpoison : Piece.poison ∈ F) (hports : Piece.ports ∈ F) (hpower : Piece.power ∈ F) (hprun : Piece.prun ∈ F) (hrefusals : Piece.refusals ∈ F) (hresps : Piece.resps ∈ F) (hresv : Piece.resv ∈ F) (hresvNext : Piece.resvNext ∈ F) (hretired : Piece.retired ∈ F) (hrst : Piece.rst ∈ F) (hscrub : Piece.scrub ∈ F) (hsec : Piece.sec ∈ F) (hsessions : Piece.sessions ∈ F) (hsplits : Piece.splits ∈ F) (hstackSides : Piece.stackSides ∈ F) (hswitches : Piece.switches ∈ F) (htaps : Piece.taps ∈ F) (htests : Piece.tests ∈ F) (hwaiting : Piece.waiting ∈ F) (hworks : Piece.works ∈ F) (hxacts : Piece.xacts ∈ F) :
    ∃ t, execPowerOn s = .next t ∧ Goes F s t := by
  have go := Goes.refl F s
  unfold execPowerOn
  refine ⟨_, rfl, ?_⟩
  repeat' first | with_reducible assumption | with_reducible apply Goes.coldReset

theorem execPorstN_goes {F : List Piece} (level : Bool) (s : State) (harrays : Piece.arrays ∈ F) (hbrims : Piece.brims ∈ F) (hcfg : Piece.cfg ∈ F) (hchannels : Piece.channels ∈ F) (hclock : Piece.clock ∈ F) (hconns : Piece.conns ∈ F) (hdict : Piece.dict ∈ F) (hengines : Piece.engines ∈ F) (hfns : Piece.fns ∈ F) (hframes : Piece.frames ∈ F) (hhbm : Piece.hbm ∈ F) (hlanes : Piece.lanes ∈ F) (hmill : Piece.mill ∈ F) (hmismatches : Piece.mismatches ∈ F) (hnextResp : Piece.nextResp ∈ F) (hpairTx : Piece.pairTx ∈ F) (hpoison : Piece.poison ∈ F) (hports : Piece.ports ∈ F) (hpower : Piece.power ∈ F) (hprun : Piece.prun ∈ F) (hrefusals : Piece.refusals ∈ F) (hresps : Piece.resps ∈ F) (hresv : Piece.resv ∈ F) (hresvNext : Piece.resvNext ∈ F) (hretired : Piece.retired ∈ F) (hrst : Piece.rst ∈ F) (hscrub : Piece.scrub ∈ F) (hsec : Piece.sec ∈ F) (hsessions : Piece.sessions ∈ F) (hsplits : Piece.splits ∈ F) (hstackSides : Piece.stackSides ∈ F) (hswitches : Piece.switches ∈ F) (htaps : Piece.taps ∈ F) (htests : Piece.tests ∈ F) (hwaiting : Piece.waiting ∈ F) (hworks : Piece.works ∈ F) (hxacts : Piece.xacts ∈ F) :
    ∃ t, execPorstN level s = .next t ∧ Goes F s t := by
  have go := Goes.refl F s
  unfold execPorstN
  refine ⟨_, rfl, ?_⟩
  try dsimp only
  repeat' first
    | with_reducible assumption
    | with_reducible apply Goes.coldReset
    | with_reducible apply Goes.ite
    | split
    | with_reducible apply Goes.rstTo

theorem Goes.abandonBlank {F : List Piece} {s₀ s : State} (c : Nat) (harrays : Piece.arrays ∈ F) (hbrims : Piece.brims ∈ F) (hcfg : Piece.cfg ∈ F) (hdict : Piece.dict ∈ F) (hframes : Piece.frames ∈ F) (hfree : Piece.free ∈ F) (hout : Piece.out ∈ F) (hprun : Piece.prun ∈ F) (hworks : Piece.works ∈ F)
    (go : Goes F s₀ s) : Goes F s₀ (State.abandonBlank s c) := by
  unfold State.abandonBlank
  dsimp only
  repeat' first
    | with_reducible assumption
    | (intro)
    | with_reducible apply Goes.abandonLoads
    | with_reducible apply Goes.modLoad
    | with_reducible apply Goes.ite
    | split

theorem Goes.haltBrim {F : List Piece} {s₀ s : State} (c : Nat) (harrays : Piece.arrays ∈ F) (hbrims : Piece.brims ∈ F) (hcfg : Piece.cfg ∈ F) (hdict : Piece.dict ∈ F) (hframes : Piece.frames ∈ F) (hfree : Piece.free ∈ F) (hout : Piece.out ∈ F) (hprun : Piece.prun ∈ F) (hworks : Piece.works ∈ F)
    (go : Goes F s₀ s) : Goes F s₀ (State.haltBrim s c) := by
  unfold State.haltBrim
  dsimp only
  repeat' first
    | with_reducible assumption
    | with_reducible apply Goes.setReset
    | (intro)
    | with_reducible apply Goes.abandonBlank
    | with_reducible apply Goes.modBrim

theorem Goes.releaseBrim {F : List Piece} {s₀ s : State} (c : Nat) (hbrims : Piece.brims ∈ F)
    (go : Goes F s₀ s) : Goes F s₀ (State.releaseBrim s c) := by
  unfold State.releaseBrim
  try dsimp only
  repeat' first
    | with_reducible assumption
    | (intro)
    | with_reducible apply Goes.initRegions
    | with_reducible apply Goes.modBrim
    | dsimp only

theorem Goes.warmPart {F : List Piece} {s₀ s : State} (p : Nat) (hdict : Piece.dict ∈ F) (harrays : Piece.arrays ∈ F) (hpower : Piece.power ∈ F) (hprun : Piece.prun ∈ F) (hsec : Piece.sec ∈ F) (hworks : Piece.works ∈ F)
    (go : Goes F s₀ s) : Goes F s₀ (State.warmPart s p) := by
  unfold State.warmPart
  dsimp only
  repeat' first
    | with_reducible assumption
    | (intro)
    | with_reducible apply Goes.dropRuns
    | with_reducible apply Goes.modSec
    | with_reducible apply Goes.setReg

theorem Goes.warmReset {F : List Piece} {s₀ s : State} (cause : Nat)
   
   
   
   
    (harrays : Piece.arrays ∈ F) (hbrims : Piece.brims ∈ F) (hcfg : Piece.cfg ∈ F) (hdict : Piece.dict ∈ F) (hengines : Piece.engines ∈ F) (hframes : Piece.frames ∈ F) (hfree : Piece.free ∈ F) (hmill : Piece.mill ∈ F) (hout : Piece.out ∈ F) (hpairTx : Piece.pairTx ∈ F) (hports : Piece.ports ∈ F) (hpower : Piece.power ∈ F) (hprun : Piece.prun ∈ F) (hrefusals : Piece.refusals ∈ F) (hresps : Piece.resps ∈ F) (hretired : Piece.retired ∈ F) (hrst : Piece.rst ∈ F) (hsec : Piece.sec ∈ F) (hsplits : Piece.splits ∈ F) (hswitches : Piece.switches ∈ F) (hwaiting : Piece.waiting ∈ F) (hworks : Piece.works ∈ F) (hxacts : Piece.xacts ∈ F)
    (go : Goes F s₀ s) : Goes F s₀ (State.warmReset s cause) := by
  have drop (u : State) (h : Goes F s₀ u) (a : ResetCtl) (b : List Waiting) (c : Sparse SwitchState)
      (d : Sparse PortState) (f : Sparse PartPower) : Goes F s₀ { u with
      rst := a, refusals := [], xacts := [], retired := [], resps := [], pairTx := [], splits := [], works := [], arrays := [], engines := []
      waiting := b, switches := c, ports := d
      mill := { u.mill with faulted := false, halted := false, rebooting := false, queue := [], mirrorSent := 0,
                            mirrorAcked := 0 }
      power := { u.power with parts := f } } := by
    refine h.plain (fun p hp => ?_) rfl rfl rfl rfl rfl rfl rfl rfl
    cases p <;> first
      | rfl
      | exact absurd (by assumption) hp
  have first_ : Goes F s₀ (State.clearRegs ((List.range 48).foldl State.haltBrim
      ((partNums.filter (fun p => s.reg (rState p) != 0)).foldl State.warmPart s)) isWarmCounter) :=
    Goes.clearRegs _ hdict (Goes.foldl _ (fun _ _ g => by
      with_reducible apply Goes.haltBrim <;> assumption)
      (Goes.foldl _ (fun _ _ g => by with_reducible apply Goes.warmPart <;> assumption) go))
  unfold State.warmReset
  extract_lets a b c ports switches parts accepted m0 r0 w0 d e f g
  have hd : Goes F s₀ d := drop c first_ _ _ _ _ _
  have he : Goes F s₀ e := Goes.foldl _ (fun _ _ h => Goes.setMhz _ _ hpower h) hd
  have hf : Goes F s₀ f := Goes.foldl _ (fun _ _ h => Goes.setReg _ _ hdict h) he
  exact Goes.resetBegins _ _ _ hdict (Goes.setReg _ _ hdict (Goes.setReg _ _ hdict (Goes.setReg _ _ hdict hf)))

theorem Goes.askWarm {F : List Piece} {s₀ s : State} (cause : Nat) (harrays : Piece.arrays ∈ F) (hbrims : Piece.brims ∈ F) (hcfg : Piece.cfg ∈ F) (hdict : Piece.dict ∈ F) (hengines : Piece.engines ∈ F) (hframes : Piece.frames ∈ F) (hfree : Piece.free ∈ F) (hmill : Piece.mill ∈ F) (hout : Piece.out ∈ F) (hpairTx : Piece.pairTx ∈ F) (hports : Piece.ports ∈ F) (hpower : Piece.power ∈ F) (hprun : Piece.prun ∈ F) (hrefusals : Piece.refusals ∈ F) (hresps : Piece.resps ∈ F) (hretired : Piece.retired ∈ F) (hrst : Piece.rst ∈ F) (hsec : Piece.sec ∈ F) (hsplits : Piece.splits ∈ F) (hswitches : Piece.switches ∈ F) (hwaiting : Piece.waiting ∈ F) (hworks : Piece.works ∈ F) (hxacts : Piece.xacts ∈ F)
    (go : Goes F s₀ s) : Goes F s₀ (State.askWarm s cause) := by
  unfold State.askWarm
  repeat' first
    | with_reducible assumption
    | with_reducible apply Goes.warmReset
    | with_reducible apply Goes.ite

theorem Goes.beginStep {F : List Piece} {s₀ s : State} (n : Nat) (hdict : Piece.dict ∈ F) (hrst : Piece.rst ∈ F)
    (go : Goes F s₀ s) : Goes F s₀ (State.beginStep s n) := by
  unfold State.beginStep
  repeat' first
    | with_reducible assumption
    | with_reducible apply Goes.setReg
    | with_reducible apply Goes.rstTo

theorem Goes.unhold {F : List Piece} {s₀ s : State}  (hdict : Piece.dict ∈ F) (hrst : Piece.rst ∈ F)
    (go : Goes F s₀ s) : Goes F s₀ (State.unhold s) := by
  unfold State.unhold
  repeat' first
    | with_reducible assumption
    | with_reducible apply Goes.beginStep
    | with_reducible apply Goes.ite

theorem execWrstN_goes {F : List Piece} (level : Bool) (s : State) (harrays : Piece.arrays ∈ F) (hbrims : Piece.brims ∈ F) (hcfg : Piece.cfg ∈ F) (hdict : Piece.dict ∈ F) (hengines : Piece.engines ∈ F) (hframes : Piece.frames ∈ F) (hfree : Piece.free ∈ F) (hmill : Piece.mill ∈ F) (hout : Piece.out ∈ F) (hpairTx : Piece.pairTx ∈ F) (hports : Piece.ports ∈ F) (hpower : Piece.power ∈ F) (hprun : Piece.prun ∈ F) (hrefusals : Piece.refusals ∈ F) (hresps : Piece.resps ∈ F) (hretired : Piece.retired ∈ F) (hrst : Piece.rst ∈ F) (hsec : Piece.sec ∈ F) (hsplits : Piece.splits ∈ F) (hswitches : Piece.switches ∈ F) (hwaiting : Piece.waiting ∈ F) (hworks : Piece.works ∈ F) (hxacts : Piece.xacts ∈ F) :
    ∃ t, execWrstN level s = .next t ∧ Goes F s t := by
  have go := Goes.refl F s
  unfold execWrstN
  try dsimp only
  repeat' first
    | refine ⟨_, rfl, ?_⟩
    | with_reducible assumption
    | with_reducible apply Goes.askWarm
    | with_reducible apply Goes.unhold
    | with_reducible apply Goes.ite
    | split
    | with_reducible apply Goes.rstTo

theorem execWarmResetStart_goes {F : List Piece} (s : State) (harrays : Piece.arrays ∈ F) (hbrims : Piece.brims ∈ F) (hcfg : Piece.cfg ∈ F) (hclock : Piece.clock ∈ F) (hdict : Piece.dict ∈ F) (hengines : Piece.engines ∈ F) (hframes : Piece.frames ∈ F) (hfree : Piece.free ∈ F) (hmill : Piece.mill ∈ F) (hout : Piece.out ∈ F) (hpairTx : Piece.pairTx ∈ F) (hports : Piece.ports ∈ F) (hpower : Piece.power ∈ F) (hprun : Piece.prun ∈ F) (hrefusals : Piece.refusals ∈ F) (hresps : Piece.resps ∈ F) (hretired : Piece.retired ∈ F) (hrst : Piece.rst ∈ F) (hsec : Piece.sec ∈ F) (hsplits : Piece.splits ∈ F) (hswitches : Piece.switches ∈ F) (hwaiting : Piece.waiting ∈ F) (hworks : Piece.works ∈ F) (hxacts : Piece.xacts ∈ F) :
    ∃ t, execWarmResetStart s = .next t ∧ Goes F s t := by
  have go := Goes.refl F s
  unfold execWarmResetStart
  refine ⟨_, rfl, ?_⟩
  repeat' first
    | with_reducible assumption
    | with_reducible apply Goes.askWarm
    | with_reducible apply Goes.reach
    | split
    | with_reducible apply Goes.rstTo

theorem execWarmResetHeld_goes {F : List Piece} (s : State) (hclock : Piece.clock ∈ F) (hdict : Piece.dict ∈ F) (hfns : Piece.fns ∈ F) (hfree : Piece.free ∈ F) (hmill : Piece.mill ∈ F) (hout : Piece.out ∈ F) :
    ∃ t, execWarmResetHeld s = .next t ∧ Goes F s t := by
  have go := Goes.refl F s
  unfold execWarmResetHeld
  refine ⟨_, rfl, ?_⟩
  repeat' first
    | with_reducible assumption
    | with_reducible apply Goes.raise
    | with_reducible apply Goes.reach
    | with_reducible apply Goes.setReg
    | with_reducible apply Goes.ite

theorem Goes.standbyStarts {F : List Piece} {s₀ s : State}  (hdict : Piece.dict ∈ F) (hout : Piece.out ∈ F)
    (go : Goes F s₀ s) : Goes F s₀ (State.standbyStarts s) := by
  unfold State.standbyStarts
  dsimp only
  repeat' first
    | with_reducible assumption
    | with_reducible apply Goes.setReg
    | with_reducible apply Goes.ite

theorem Goes.step1 {F : List Piece} {s₀ s : State}  (harrays : Piece.arrays ∈ F) (hbrims : Piece.brims ∈ F) (hcfg : Piece.cfg ∈ F) (hchannels : Piece.channels ∈ F) (hdict : Piece.dict ∈ F) (hfns : Piece.fns ∈ F) (hframes : Piece.frames ∈ F) (hfree : Piece.free ∈ F) (hmill : Piece.mill ∈ F) (hout : Piece.out ∈ F) (hpairTx : Piece.pairTx ∈ F) (hprun : Piece.prun ∈ F) (hresps : Piece.resps ∈ F) (hsec : Piece.sec ∈ F) (hwaiting : Piece.waiting ∈ F) (hworks : Piece.works ∈ F) (hxacts : Piece.xacts ∈ F)
    (go : Goes F s₀ s) : Goes F s₀ (State.step1 s) := by
  unfold State.step1
  dsimp only
  repeat' first
    | with_reducible assumption
    | (intro)
    | with_reducible apply Goes.boot
    | with_reducible apply Goes.forceEnd
    | with_reducible apply Goes.modFlashes
    | with_reducible apply Goes.setReg
    | with_reducible apply Goes.standbyStarts
    | with_reducible apply Goes.ite
    | with_reducible apply Goes.foldl

theorem Goes.floorsHeld {F : List Piece} {s₀ s : State}  (hdict : Piece.dict ∈ F) (hstackSides : Piece.stackSides ∈ F)
    (go : Goes F s₀ s) : Goes F s₀ (State.floorsHeld s) := by
  unfold State.floorsHeld
  dsimp only
  repeat' first
    | with_reducible assumption
    | (intro)
    | with_reducible apply Goes.modStack
    | with_reducible apply Goes.setReg
    | with_reducible apply Goes.foldl
    | split

theorem Goes.step2 {F : List Piece} {s₀ s : State} (bad : List (StackN × Fin 128)) (hchannels : Piece.channels ∈ F) (hdict : Piece.dict ∈ F) (hfns : Piece.fns ∈ F) (hfree : Piece.free ∈ F) (hhbm : Piece.hbm ∈ F) (hhostMem : Piece.hostMem ∈ F) (hlanes : Piece.lanes ∈ F) (hmill : Piece.mill ∈ F) (hout : Piece.out ∈ F) (hpairTx : Piece.pairTx ∈ F) (hpoison : Piece.poison ∈ F) (hpower : Piece.power ∈ F) (hprun : Piece.prun ∈ F) (hstackSides : Piece.stackSides ∈ F) (hxacts : Piece.xacts ∈ F)
    (go : Goes F s₀ s) : Goes F s₀ (State.step2 s bad) := by
  unfold State.step2
  dsimp only
  repeat' first
    | with_reducible assumption
    | (intro)
    | with_reducible apply Goes.floorsHeld
    | with_reducible apply Goes.hbmCold
    | with_reducible apply Goes.resync
    | with_reducible apply Goes.sendControl
    | with_reducible apply Goes.useLanes
    | with_reducible apply Goes.ite
    | with_reducible apply Goes.foldl

theorem Goes.step4 {F : List Piece} {s₀ s : State}  (hdict : Piece.dict ∈ F) (hpower : Piece.power ∈ F) (htests : Piece.tests ∈ F)
    (go : Goes F s₀ s) : Goes F s₀ (State.step4 s) := by
  unfold State.step4
  dsimp only
  repeat' first
    | with_reducible assumption
    | (intro)
    | with_reducible apply Goes.refreshAll
    | with_reducible apply Goes.refreshDomains
    | with_reducible apply Goes.setReg
    | with_reducible apply Goes.ite
    | with_reducible apply Goes.foldl
    | split
    | with_reducible apply Goes.powerTo
    | with_reducible apply Goes.testsTo

theorem Goes.step5 {F : List Piece} {s₀ s : State}  (harrays : Piece.arrays ∈ F) (hbrims : Piece.brims ∈ F) (hcfg : Piece.cfg ∈ F) (hdict : Piece.dict ∈ F) (hengines : Piece.engines ∈ F) (hfns : Piece.fns ∈ F) (hframes : Piece.frames ∈ F) (hfree : Piece.free ∈ F) (hhostMem : Piece.hostMem ∈ F) (hmill : Piece.mill ∈ F) (hout : Piece.out ∈ F) (hpairTx : Piece.pairTx ∈ F) (hports : Piece.ports ∈ F) (hpower : Piece.power ∈ F) (hprun : Piece.prun ∈ F) (hrefusals : Piece.refusals ∈ F) (hresps : Piece.resps ∈ F) (hretired : Piece.retired ∈ F) (hrst : Piece.rst ∈ F) (hsec : Piece.sec ∈ F) (hsplits : Piece.splits ∈ F) (hstackSides : Piece.stackSides ∈ F) (hswitches : Piece.switches ∈ F) (hwaiting : Piece.waiting ∈ F) (hworks : Piece.works ∈ F) (hxacts : Piece.xacts ∈ F)
    (go : Goes F s₀ s) : Goes F s₀ (State.step5 s) := by
  unfold State.step5
  dsimp only
  repeat' first
    | with_reducible assumption
    | with_reducible apply Goes.releaseBrim
    | (intro)
    | with_reducible apply Goes.bump
    | with_reducible apply Goes.hotReset
    | with_reducible apply Goes.modBrim
    | with_reducible apply Goes.modFn
    | with_reducible apply Goes.setPort
    | with_reducible apply Goes.setReg
    | with_reducible apply Goes.warmReset
    | with_reducible apply Goes.ite
    | with_reducible apply Goes.foldl
    | split
    | with_reducible apply Goes.rstTo

theorem execResetStepDone_goes {F : List Piece} (bad : List (StackN × Fin 128)) (s : State) (harrays : Piece.arrays ∈ F) (hbrims : Piece.brims ∈ F) (hcfg : Piece.cfg ∈ F) (hchannels : Piece.channels ∈ F) (hclock : Piece.clock ∈ F) (hdict : Piece.dict ∈ F) (hengines : Piece.engines ∈ F) (hfns : Piece.fns ∈ F) (hframes : Piece.frames ∈ F) (hfree : Piece.free ∈ F) (hhbm : Piece.hbm ∈ F) (hhostMem : Piece.hostMem ∈ F) (hlanes : Piece.lanes ∈ F) (hmill : Piece.mill ∈ F) (hout : Piece.out ∈ F) (hpairTx : Piece.pairTx ∈ F) (hpoison : Piece.poison ∈ F) (hports : Piece.ports ∈ F) (hpower : Piece.power ∈ F) (hprun : Piece.prun ∈ F) (hrefusals : Piece.refusals ∈ F) (hresps : Piece.resps ∈ F) (hretired : Piece.retired ∈ F) (hrst : Piece.rst ∈ F) (hsec : Piece.sec ∈ F) (hsplits : Piece.splits ∈ F) (hstackSides : Piece.stackSides ∈ F) (hswitches : Piece.switches ∈ F) (htests : Piece.tests ∈ F) (hwaiting : Piece.waiting ∈ F) (hworks : Piece.works ∈ F) (hxacts : Piece.xacts ∈ F) :
    ∃ t, execResetStepDone bad s = .next t ∧ Goes F s t := by
  have go := Goes.refl F s
  unfold execResetStepDone
  refine ⟨_, rfl, ?_⟩
  try dsimp only
  repeat' first
    | with_reducible assumption
    | exact id
    | exact fun _ => (by decide : 0 < 256)
    | with_reducible apply Goes.beginStep
    | with_reducible apply Goes.setReg
    | with_reducible apply Goes.step1
    | with_reducible apply Goes.step2
    | with_reducible apply Goes.step4
    | with_reducible apply Goes.step5
    | with_reducible apply Goes.ite
    | split
    | with_reducible apply Goes.rstTo
    | with_reducible apply Goes.clockTo

theorem execRefclkCheck_goes {F : List Piece} (missing : Bool) (ppm : BitVec 32) (s : State) (harrays : Piece.arrays ∈ F) (hbrims : Piece.brims ∈ F) (hcfg : Piece.cfg ∈ F) (hdict : Piece.dict ∈ F) (hengines : Piece.engines ∈ F) (hfns : Piece.fns ∈ F) (hframes : Piece.frames ∈ F) (hfree : Piece.free ∈ F) (hmill : Piece.mill ∈ F) (hout : Piece.out ∈ F) (hpairTx : Piece.pairTx ∈ F) (hports : Piece.ports ∈ F) (hpower : Piece.power ∈ F) (hprun : Piece.prun ∈ F) (hrefusals : Piece.refusals ∈ F) (hresps : Piece.resps ∈ F) (hretired : Piece.retired ∈ F) (hrst : Piece.rst ∈ F) (hsec : Piece.sec ∈ F) (hsplits : Piece.splits ∈ F) (hswitches : Piece.switches ∈ F) (hwaiting : Piece.waiting ∈ F) (hworks : Piece.works ∈ F) (hxacts : Piece.xacts ∈ F) :
    ∃ t, execRefclkCheck missing ppm s = .next t ∧ Goes F s t := by
  have go := Goes.refl F s
  unfold execRefclkCheck
  refine ⟨_, rfl, ?_⟩
  try dsimp only
  repeat' first
    | with_reducible assumption
    | exact id
    | with_reducible apply Goes.raise
    | with_reducible apply Goes.setReg
    | with_reducible apply Goes.warmReset
    | with_reducible apply Goes.ite
    | split
    | with_reducible apply Goes.millTo

theorem execRefclkRecovered_goes {F : List Piece} (s : State) (hdict : Piece.dict ∈ F) (hmill : Piece.mill ∈ F) (hrst : Piece.rst ∈ F) :
    ∃ t, execRefclkRecovered s = .next t ∧ Goes F s t := by
  have go := Goes.refl F s
  unfold execRefclkRecovered
  refine ⟨_, rfl, ?_⟩
  repeat' first
    | with_reducible assumption
    | exact id
    | with_reducible apply Goes.unhold
    | with_reducible apply Goes.ite
    | split
    | with_reducible apply Goes.millTo

end Sys2Proof.Machine
end

