-- ==== Sys2Proof/Laws/Milliner.lean ====
section
/-! SUPPORT. What the operations of Machine/Milliner.lean may change, and that each keeps what the model keeps throughout. -/

namespace Sys2Proof.Machine

theorem Goes.windowDone {F : List Piece} {s₀ s : State} (f : Fn) (irq read done : Bool) (value : List Byte) (hfns : Piece.fns ∈ F) (hout : Piece.out ∈ F)
    (go : Goes F s₀ s) : Goes F s₀ (State.windowDone s f irq read done value) := by
  unfold State.windowDone
  dsimp only
  repeat' first
    | with_reducible assumption
    | (intro)
    | with_reducible apply Goes.modFn
    | with_reducible apply Goes.msix
    | with_reducible apply Goes.ite

theorem updWhere_length {α : Type} (p : α → Bool) (f : α → α) (l : List α) : (updWhere p f l).length = l.length :=
  List.length_map _

theorem Goes.answer {F : List Piece} {s₀ s : State} (a : Access) (done : Bool) (value : List Byte) (hfns : Piece.fns ∈ F)
    (hmill : Piece.mill ∈ F) (hout : Piece.out ∈ F) (go : Goes F s₀ s) : Goes F s₀ (State.answer s a done value) := by
  unfold State.answer
  dsimp only
  split
  · refine Goes.emit _ hout (Goes.millTo (s := s) _ hmill id (fun b => ?_) go)
    dsimp only
    rw [updWhere_length]
    exact b
  · exact go.emit _ hout
  · exact go.emit _ hout
  · exact go.windowDone _ _ _ _ _ hfns hout
  · exact go.emit _ hout

theorem Goes.refuseAt {F : List Piece} {s₀ s : State} (a : Access) (due : Nat) (hrefusals : Piece.refusals ∈ F)
    (go : Goes F s₀ s) : Goes F s₀ (State.refuseAt s a due) := by
  unfold State.refuseAt
  try dsimp only
  repeat' first
    | with_reducible assumption
    | (intro)
    | with_reducible apply Goes.refusalsTo
    | dsimp only

theorem Goes.refuse {F : List Piece} {s₀ s : State} (a : Access) (hrefusals : Piece.refusals ∈ F)
    (go : Goes F s₀ s) : Goes F s₀ (State.refuse s a) := by
  unfold State.refuse
  try dsimp only
  repeat' first
    | with_reducible assumption
    | (intro)
    | with_reducible apply Goes.refuseAt
    | dsimp only

theorem Goes.noteFault {F : List Piece} {s₀ s : State} (is0 : Bool) (hmill : Piece.mill ∈ F)
    (go : Goes F s₀ s) : Goes F s₀ (State.noteFault s is0) := by
  unfold State.noteFault
  dsimp only
  repeat' first
    | with_reducible assumption
    | exact id
    | with_reducible apply Goes.ite
    | split
    | with_reducible apply Goes.millTo

theorem Goes.afterFault {F : List Piece} {s₀ s : State} (is0 : Bool) (hdict : Piece.dict ∈ F) (hfns : Piece.fns ∈ F) (hfree : Piece.free ∈ F) (hmill : Piece.mill ∈ F) (hout : Piece.out ∈ F)
    (go : Goes F s₀ s) : Goes F s₀ (State.afterFault s is0) := by
  unfold State.afterFault
  dsimp only
  repeat' first
    | with_reducible assumption
    | exact id
    | with_reducible apply Goes.raise
    | with_reducible apply Goes.ite
    | split
    | with_reducible apply Goes.millTo

theorem Goes.millFault {F : List Piece} {s₀ s : State} (code : Nat) (harrays : Piece.arrays ∈ F) (hbrims : Piece.brims ∈ F) (hcfg : Piece.cfg ∈ F) (hdict : Piece.dict ∈ F) (hengines : Piece.engines ∈ F) (hfns : Piece.fns ∈ F) (hframes : Piece.frames ∈ F) (hfree : Piece.free ∈ F) (hmill : Piece.mill ∈ F) (hout : Piece.out ∈ F) (hpairTx : Piece.pairTx ∈ F) (hports : Piece.ports ∈ F) (hpower : Piece.power ∈ F) (hprun : Piece.prun ∈ F) (hrefusals : Piece.refusals ∈ F) (hresps : Piece.resps ∈ F) (hretired : Piece.retired ∈ F) (hrst : Piece.rst ∈ F) (hsec : Piece.sec ∈ F) (hsplits : Piece.splits ∈ F) (hswitches : Piece.switches ∈ F) (hwaiting : Piece.waiting ∈ F) (hworks : Piece.works ∈ F) (hxacts : Piece.xacts ∈ F)
    (go : Goes F s₀ s) : Goes F s₀ (State.millFault s code) := by
  unfold State.millFault
  dsimp only
  repeat' first
    | with_reducible assumption
    | exact id
    | with_reducible apply Goes.noteFault
    | with_reducible apply Goes.setReg
    | with_reducible apply Goes.trialReverts
    | with_reducible apply Goes.warmReset
    | with_reducible apply Goes.ite
    | split
    | with_reducible apply Goes.millTo

theorem execWatchdogExpiry_goes {F : List Piece} (s : State) (harrays : Piece.arrays ∈ F) (hbrims : Piece.brims ∈ F) (hcfg : Piece.cfg ∈ F) (hdict : Piece.dict ∈ F) (hengines : Piece.engines ∈ F) (hfns : Piece.fns ∈ F) (hframes : Piece.frames ∈ F) (hfree : Piece.free ∈ F) (hmill : Piece.mill ∈ F) (hout : Piece.out ∈ F) (hpairTx : Piece.pairTx ∈ F) (hports : Piece.ports ∈ F) (hpower : Piece.power ∈ F) (hprun : Piece.prun ∈ F) (hrefusals : Piece.refusals ∈ F) (hresps : Piece.resps ∈ F) (hretired : Piece.retired ∈ F) (hrst : Piece.rst ∈ F) (hsec : Piece.sec ∈ F) (hsplits : Piece.splits ∈ F) (hswitches : Piece.switches ∈ F) (hwaiting : Piece.waiting ∈ F) (hworks : Piece.works ∈ F) (hxacts : Piece.xacts ∈ F) :
    ∃ t, execWatchdogExpiry s = .next t ∧ Goes F s t := by
  have go := Goes.refl F s
  unfold execWatchdogExpiry
  refine ⟨_, rfl, ?_⟩
  repeat' first | with_reducible assumption | with_reducible apply Goes.millFault

theorem execCoreHalt_goes {F : List Piece} (s : State) (harrays : Piece.arrays ∈ F) (hbrims : Piece.brims ∈ F) (hcfg : Piece.cfg ∈ F) (hdict : Piece.dict ∈ F) (hengines : Piece.engines ∈ F) (hfns : Piece.fns ∈ F) (hframes : Piece.frames ∈ F) (hfree : Piece.free ∈ F) (hmill : Piece.mill ∈ F) (hout : Piece.out ∈ F) (hpairTx : Piece.pairTx ∈ F) (hports : Piece.ports ∈ F) (hpower : Piece.power ∈ F) (hprun : Piece.prun ∈ F) (hrefusals : Piece.refusals ∈ F) (hresps : Piece.resps ∈ F) (hretired : Piece.retired ∈ F) (hrst : Piece.rst ∈ F) (hsec : Piece.sec ∈ F) (hsplits : Piece.splits ∈ F) (hswitches : Piece.switches ∈ F) (hwaiting : Piece.waiting ∈ F) (hworks : Piece.works ∈ F) (hxacts : Piece.xacts ∈ F) :
    ∃ t, execCoreHalt s = .next t ∧ Goes F s t := by
  have go := Goes.refl F s
  unfold execCoreHalt
  refine ⟨_, rfl, ?_⟩
  repeat' first
    | with_reducible assumption
    | exact id
    | with_reducible apply Goes.millFault
    | with_reducible apply Goes.millTo

theorem execRootOfTrustFatal_goes {F : List Piece} (s : State) (harrays : Piece.arrays ∈ F) (hbrims : Piece.brims ∈ F) (hcfg : Piece.cfg ∈ F) (hdict : Piece.dict ∈ F) (hengines : Piece.engines ∈ F) (hfns : Piece.fns ∈ F) (hframes : Piece.frames ∈ F) (hfree : Piece.free ∈ F) (hmill : Piece.mill ∈ F) (hout : Piece.out ∈ F) (hpairTx : Piece.pairTx ∈ F) (hports : Piece.ports ∈ F) (hpower : Piece.power ∈ F) (hprun : Piece.prun ∈ F) (hrefusals : Piece.refusals ∈ F) (hresps : Piece.resps ∈ F) (hretired : Piece.retired ∈ F) (hrst : Piece.rst ∈ F) (hsec : Piece.sec ∈ F) (hsplits : Piece.splits ∈ F) (hswitches : Piece.switches ∈ F) (hwaiting : Piece.waiting ∈ F) (hworks : Piece.works ∈ F) (hxacts : Piece.xacts ∈ F) :
    ∃ t, execRootOfTrustFatal s = .next t ∧ Goes F s t := by
  have go := Goes.refl F s
  unfold execRootOfTrustFatal
  refine ⟨_, rfl, ?_⟩
  repeat' first | with_reducible assumption | with_reducible apply Goes.millFault

theorem execHeartbeatLoss_goes {F : List Piece} (s : State) (harrays : Piece.arrays ∈ F) (hbrims : Piece.brims ∈ F) (hcfg : Piece.cfg ∈ F) (hdict : Piece.dict ∈ F) (hengines : Piece.engines ∈ F) (hfns : Piece.fns ∈ F) (hframes : Piece.frames ∈ F) (hfree : Piece.free ∈ F) (hmill : Piece.mill ∈ F) (hout : Piece.out ∈ F) (hpairTx : Piece.pairTx ∈ F) (hports : Piece.ports ∈ F) (hpower : Piece.power ∈ F) (hprun : Piece.prun ∈ F) (hrefusals : Piece.refusals ∈ F) (hresps : Piece.resps ∈ F) (hretired : Piece.retired ∈ F) (hrst : Piece.rst ∈ F) (hsec : Piece.sec ∈ F) (hsplits : Piece.splits ∈ F) (hswitches : Piece.switches ∈ F) (hwaiting : Piece.waiting ∈ F) (hworks : Piece.works ∈ F) (hxacts : Piece.xacts ∈ F) :
    ∃ t, execHeartbeatLoss s = .next t ∧ Goes F s t := by
  have go := Goes.refl F s
  unfold execHeartbeatLoss
  refine ⟨_, rfl, ?_⟩
  repeat' first
    | with_reducible assumption
    | with_reducible apply Goes.millFault
    | with_reducible apply Goes.ite

theorem Goes.dropAccesses {F : List Piece} {s₀ s : State} (hfns : Piece.fns ∈ F) (hmill : Piece.mill ∈ F)
    (hout : Piece.out ∈ F) (hrefusals : Piece.refusals ∈ F) (go : Goes F s₀ s) : Goes F s₀ (State.dropAccesses s) := by
  have h1 (m : Mill) (r : List (Nat × Refused)) (he : m.events = s.mill.events) (hr : m.responses = s.mill.responses) :
      Goes F s₀ { s with mill := m, refusals := r } := by
    refine go.plain (fun p hp => ?_) rfl rfl rfl rfl rfl rfl he hr
    cases p <;> first | rfl | exact absurd hmill hp | exact absurd hrefusals hp
  unfold State.dropAccesses
  refine Goes.foldl _ (fun s a g => ?_) (h1 _ _ rfl rfl)
  split
  · exact g.windowDone _ _ _ _ _ hfns hout
  · exact g

theorem Goes.takeover {F : List Piece} {s₀ s : State} (harrays : Piece.arrays ∈ F) (hbrims : Piece.brims ∈ F) (hcfg : Piece.cfg ∈ F) (hchannels : Piece.channels ∈ F) (hclock : Piece.clock ∈ F) (hdict : Piece.dict ∈ F) (hfns : Piece.fns ∈ F) (hframes : Piece.frames ∈ F) (hfree : Piece.free ∈ F) (hmill : Piece.mill ∈ F) (hout : Piece.out ∈ F) (hpairTx : Piece.pairTx ∈ F) (hprun : Piece.prun ∈ F) (hrefusals : Piece.refusals ∈ F) (hresps : Piece.resps ∈ F) (hsec : Piece.sec ∈ F) (hwaiting : Piece.waiting ∈ F) (hworks : Piece.works ∈ F) (hxacts : Piece.xacts ∈ F)
    (go : Goes F s₀ s) : Goes F s₀ (State.takeover s) := by
  have roles (u : State) (h : Goes F s₀ u) (m : Mill) (he : m.events = u.mill.events) (hr : m.responses = []) (c : Clock)
      (hc : c.frame = u.clock.frame) : Goes F s₀ { u with mill := m, cfg := CfgPort.blank, clock := c } := by
    refine h.trans ⟨fun p hp => ?_, ⟨le_rfl, List.prefix_refl _, id, id, fun b => ?_⟩⟩
    · cases p <;> first | rfl | exact absurd (by assumption) hp
    · unfold State.bounded
      dsimp only
      rw [hc, he, hr]
      exact ⟨b.1, b.2.1, Nat.zero_le _⟩
  unfold State.takeover
  extract_lets is0 die a b c d e f g i
  have ha : Goes F s₀ a := by apply Goes.dropAccesses <;> assumption
  have hb : Goes F s₀ b := by
    repeat' first | with_reducible assumption | with_reducible apply Goes.setReg | with_reducible apply Goes.bump
  have he : Goes F s₀ e := by refine roles b hb _ ?_ ?_ _ ?_ <;> rfl
  have hf : Goes F s₀ f := ((he.setReg _ _ hdict).setReg _ _ hdict).setReg _ _ hdict
  have hg : Goes F s₀ g := Goes.foldl _ (fun _ _ h => by apply Goes.forceEnd <;> assumption) hf
  have hi : Goes F s₀ i := Goes.foldl _ (fun _ _ h => by apply Goes.abandonLoads <;> assumption) hg
  exact Goes.afterFault _ hdict hfns hfree hmill hout (Goes.raise _ _ hdict hfns hfree hmill hout (hi.emit _ hout))

theorem execMillinerRebootDone_goes {F : List Piece} (s : State) (hdict : Piece.dict ∈ F) (hmill : Piece.mill ∈ F) :
    ∃ t, execMillinerRebootDone s = .next t ∧ Goes F s t := by
  have go := Goes.refl F s
  unfold execMillinerRebootDone
  refine ⟨_, rfl, ?_⟩
  repeat' first
    | with_reducible assumption
    | exact id
    | with_reducible apply Goes.modOtherFlash
    | with_reducible apply Goes.setReg
    | with_reducible apply Goes.ite
    | split
    | with_reducible apply Goes.millTo

theorem execStandbyReady_goes {F : List Piece} (s : State) (hdict : Piece.dict ∈ F) :
    ∃ t, execStandbyReady s = .next t ∧ Goes F s t := by
  have go := Goes.refl F s
  unfold execStandbyReady
  refine ⟨_, rfl, ?_⟩
  repeat' first
    | with_reducible assumption
    | with_reducible apply Goes.setReg
    | with_reducible apply Goes.ite

theorem Goes.mctpAnswer {F : List Piece} {s₀ s : State} (b : Binding) (cmd : Nat) (body : List Byte) (hout : Piece.out ∈ F)
    (go : Goes F s₀ s) : Goes F s₀ (State.mctpAnswer s b cmd body) := by
  unfold State.mctpAnswer
  repeat' first
    | with_reducible assumption
    | with_reducible apply Goes.emit
    | with_reducible apply Goes.ite

theorem execSetEndpointId_goes {F : List Piece} (b : Binding) (eid : Byte) (s : State) (hmill : Piece.mill ∈ F) (hout : Piece.out ∈ F) :
    ∃ t, execSetEndpointId b eid s = .next t ∧ Goes F s t := by
  have go := Goes.refl F s
  unfold execSetEndpointId
  refine ⟨_, rfl, ?_⟩
  repeat' first
    | with_reducible assumption
    | exact id
    | (intro)
    | with_reducible apply Goes.mctpAnswer
    | with_reducible apply Goes.ite
    | split
    | with_reducible apply Goes.millTo

theorem execGetEndpointId_goes {F : List Piece} (b : Binding) (s : State) (hout : Piece.out ∈ F) :
    ∃ t, execGetEndpointId b s = .next t ∧ Goes F s t := by
  have go := Goes.refl F s
  unfold execGetEndpointId
  refine ⟨_, rfl, ?_⟩
  repeat' first | with_reducible assumption | with_reducible apply Goes.mctpAnswer

theorem execGetMctpVersionSupport_goes {F : List Piece} (b : Binding) (s : State) (hfree : Piece.free ∈ F) (hout : Piece.out ∈ F) :
    ∃ t, execGetMctpVersionSupport b s = .next t ∧ Goes F s t := by
  have go := Goes.refl F s
  unfold execGetMctpVersionSupport
  refine ⟨_, rfl, ?_⟩
  repeat' first
    | with_reducible assumption
    | with_reducible apply Goes.draw
    | with_reducible apply Goes.mctpAnswer
    | with_reducible apply Goes.ite

theorem execGetMessageTypeSupport_goes {F : List Piece} (b : Binding) (s : State) (hout : Piece.out ∈ F) :
    ∃ t, execGetMessageTypeSupport b s = .next t ∧ Goes F s t := by
  have go := Goes.refl F s
  unfold execGetMessageTypeSupport
  refine ⟨_, rfl, ?_⟩
  repeat' first | with_reducible assumption | with_reducible apply Goes.mctpAnswer

theorem execGetVendorDefinedMessageSupport_goes {F : List Piece} (b : Binding) (selector : Byte) (s : State) (hout : Piece.out ∈ F) :
    ∃ t, execGetVendorDefinedMessageSupport b selector s = .next t ∧ Goes F s t := by
  have go := Goes.refl F s
  unfold execGetVendorDefinedMessageSupport
  try dsimp only
  repeat' first
    | refine ⟨_, rfl, ?_⟩
    | with_reducible assumption
    | with_reducible apply Goes.ite
    | with_reducible apply Goes.mctpAnswer

theorem GoesAny.startXfer {F : List Piece} {s₀ s : State} (v : Nat) (hdict : Piece.dict ∈ F) (hout : Piece.out ∈ F)
    (go : Goes F s₀ s) : GoesAny F s₀ (State.startXfer s v) := by
  unfold State.startXfer
  dsimp only
  repeat' first
    | with_reducible assumption
    | with_reducible exact GoesAny.none
    | with_reducible apply GoesAny.ite
    | with_reducible apply GoesAny.some
    | with_reducible apply Goes.emit
    | with_reducible apply Goes.setReg

theorem execXferDone_goes {F : List Piece} (nack : Bool) (rx : BitVec 512) (s : State) (hdict : Piece.dict ∈ F) :
    ∃ t, execXferDone nack rx s = .next t ∧ Goes F s t := by
  have go := Goes.refl F s
  unfold execXferDone
  refine ⟨_, rfl, ?_⟩
  repeat' first
    | with_reducible assumption
    | with_reducible apply Goes.setReg
    | with_reducible apply Goes.ite

theorem execDhcpv4Lease_goes {F : List Piece} (lease : Option (W32 × Byte × W32)) (s : State) (hmill : Piece.mill ∈ F) :
    ∃ t, execDhcpv4Lease lease s = .next t ∧ Goes F s t := by
  have go := Goes.refl F s
  unfold execDhcpv4Lease
  try dsimp only
  repeat' first
    | refine ⟨_, rfl, ?_⟩
    | with_reducible assumption
    | exact id
    | (intro)
    | with_reducible apply Goes.ite
    | split
    | with_reducible apply Goes.millTo

end Sys2Proof.Machine
end

