-- ==== Sys2Proof/Laws/Service.lean ====
section
/-! SUPPORT. What the operations of Machine/Service.lean may change, and that each keeps what the model keeps throughout. -/

namespace Sys2Proof.Machine

theorem Goes.loseDie {F : List Piece} {s₀ s : State} (p c : Nat) (hdict : Piece.dict ∈ F) (hfree : Piece.free ∈ F) (hprun : Piece.prun ∈ F)
    (go : Goes F s₀ s) : Goes F s₀ (State.loseDie s p c) := by
  unfold State.loseDie
  dsimp only
  repeat' first
    | with_reducible assumption
    | (intro)
    | with_reducible apply Goes.bump
    | with_reducible apply Goes.countCopies
    | with_reducible apply Goes.draw
    | with_reducible apply Goes.modPr

theorem Goes.loseCrown {F : List Piece} {s₀ s : State} (c : Nat) (hbrims : Piece.brims ∈ F) (hcfg : Piece.cfg ∈ F) (hdict : Piece.dict ∈ F) (hframes : Piece.frames ∈ F) (hfree : Piece.free ∈ F) (harrays : Piece.arrays ∈ F) (hout : Piece.out ∈ F) (hpower : Piece.power ∈ F) (hprun : Piece.prun ∈ F) (htests : Piece.tests ∈ F) (hworks : Piece.works ∈ F)
    (go : Goes F s₀ s) : Goes F s₀ (State.loseCrown s c) := by
  unfold State.loseCrown
  dsimp only
  repeat' first
    | with_reducible assumption
    | (intro)
    | with_reducible apply Goes.clearBrim
    | with_reducible apply Goes.loseDie
    | with_reducible apply Goes.modDp
    | with_reducible apply Goes.elim
    | with_reducible apply Goes.works_arrays_testsTo

theorem Goes.loseStack {F : List Piece} {s₀ s : State} (m : Nat) (hchannels : Piece.channels ∈ F) (hdict : Piece.dict ∈ F) (hhbm : Piece.hbm ∈ F) (hpoison : Piece.poison ∈ F) (hwaiting : Piece.waiting ∈ F)
    (go : Goes F s₀ s) : Goes F s₀ (State.loseStack s m) := by
  have h1 (u : State) (h : Goes F s₀ u) (p : List Nat) (c : Sparse (List Job)) (w : List Waiting) (f : Nat → Bool) :
      Goes F s₀ { u with hbm := sclear f u.hbm, poison := p, channels := c, waiting := w } := by
    have h0 : Goes F s₀ { u with hbm := sclear f u.hbm } := h.hbmTo _ hhbm (swf_sclear _ _ _)
    refine h0.plain (fun q hq => ?_) rfl rfl rfl rfl rfl rfl rfl rfl
    cases q <;> first | rfl | exact absurd (by assumption) hq
  exact h1 _ ((go.setReg _ _ hdict).setReg _ _ hdict) _ _ _ _

theorem Goes.losePort {F : List Piece} {s₀ s : State} (n : Fin 4) (harrays : Piece.arrays ∈ F) (hbrims : Piece.brims ∈ F) (hdict : Piece.dict ∈ F) (hengines : Piece.engines ∈ F) (hfns : Piece.fns ∈ F) (hfree : Piece.free ∈ F) (hhostMem : Piece.hostMem ∈ F) (hmill : Piece.mill ∈ F) (hout : Piece.out ∈ F) (hports : Piece.ports ∈ F) (hpower : Piece.power ∈ F) (hprun : Piece.prun ∈ F) (hrefusals : Piece.refusals ∈ F) (hsec : Piece.sec ∈ F) (hstackSides : Piece.stackSides ∈ F) (hworks : Piece.works ∈ F) (hxacts : Piece.xacts ∈ F)
    (go : Goes F s₀ s) : Goes F s₀ (State.losePort s n) := by
  unfold State.losePort
  dsimp only
  repeat' first
    | with_reducible assumption
    | with_reducible apply Goes.hotReset
    | with_reducible apply Goes.setPort

theorem Goes.loseMilliner {F : List Piece} {s₀ s : State} (die : Nat) (harrays : Piece.arrays ∈ F) (hbrims : Piece.brims ∈ F) (hcfg : Piece.cfg ∈ F) (hdict : Piece.dict ∈ F) (hengines : Piece.engines ∈ F) (hfns : Piece.fns ∈ F) (hframes : Piece.frames ∈ F) (hfree : Piece.free ∈ F) (hmill : Piece.mill ∈ F) (hout : Piece.out ∈ F) (hpairTx : Piece.pairTx ∈ F) (hports : Piece.ports ∈ F) (hpower : Piece.power ∈ F) (hprun : Piece.prun ∈ F) (hrefusals : Piece.refusals ∈ F) (hresps : Piece.resps ∈ F) (hretired : Piece.retired ∈ F) (hrst : Piece.rst ∈ F) (hsec : Piece.sec ∈ F) (hsplits : Piece.splits ∈ F) (hswitches : Piece.switches ∈ F) (hwaiting : Piece.waiting ∈ F) (hworks : Piece.works ∈ F) (hxacts : Piece.xacts ∈ F)
    (go : Goes F s₀ s) : Goes F s₀ (State.loseMilliner s die) := by
  have h1 : Goes F s₀ (if die = 48 then { s with mill := { s.mill with out0 := true } }
      else { s with mill := { s.mill with out15 := true } }) :=
    Goes.ite (go.millTo _ hmill id id) (go.millTo _ hmill id id)
  unfold State.loseMilliner
  refine Goes.ite ?_ (h1.setReg _ _ hdict)
  apply Goes.millFault <;> assumption

theorem Goes.loseDieP {F : List Piece} {s₀ s : State} (q : Nat) (harrays : Piece.arrays ∈ F) (hbrims : Piece.brims ∈ F) (hcfg : Piece.cfg ∈ F) (hchannels : Piece.channels ∈ F) (hdict : Piece.dict ∈ F) (hengines : Piece.engines ∈ F) (hfns : Piece.fns ∈ F) (hframes : Piece.frames ∈ F) (hfree : Piece.free ∈ F) (hhbm : Piece.hbm ∈ F) (hhostMem : Piece.hostMem ∈ F) (hlanes : Piece.lanes ∈ F) (hmill : Piece.mill ∈ F) (hout : Piece.out ∈ F) (hpairTx : Piece.pairTx ∈ F) (hpoison : Piece.poison ∈ F) (hports : Piece.ports ∈ F) (hpower : Piece.power ∈ F) (hprun : Piece.prun ∈ F) (hrefusals : Piece.refusals ∈ F) (hresps : Piece.resps ∈ F) (hretired : Piece.retired ∈ F) (hrst : Piece.rst ∈ F) (hsec : Piece.sec ∈ F) (hsplits : Piece.splits ∈ F) (hstackSides : Piece.stackSides ∈ F) (hswitches : Piece.switches ∈ F) (hwaiting : Piece.waiting ∈ F) (hworks : Piece.works ∈ F) (hxacts : Piece.xacts ∈ F)
    (go : Goes F s₀ s) : Goes F s₀ (State.loseDieP s q) := by
  unfold State.loseDieP
  dsimp only
  repeat' first
    | with_reducible assumption
    | (intro)
    | with_reducible apply Goes.groupDown
    | with_reducible apply Goes.laneTo
    | with_reducible apply Goes.loseMilliner
    | with_reducible apply Goes.losePort
    | with_reducible apply Goes.loseStack
    | with_reducible apply Goes.setReg
    | with_reducible apply Goes.ite
    | with_reducible apply Goes.foldl

theorem Goes.losePackets {F : List Piece} {s₀ s : State} (n : Nat) (hfree : Piece.free ∈ F) (hresps : Piece.resps ∈ F) (hxacts : Piece.xacts ∈ F)
    (go : Goes F s₀ s) : Goes F s₀ (State.losePackets s n) := by
  unfold State.losePackets
  try dsimp only
  repeat' first
    | with_reducible assumption
    | with_reducible apply Goes.draw
    | (intro)
    | with_reducible apply Goes.losePacket
    | with_reducible apply Goes.ite
    | with_reducible apply Goes.foldl
    | split
    | with_reducible apply Goes.resps_xactsTo
    | dsimp only

theorem Goes.leaves {F : List Piece} {s₀ s : State} (n : Nat) (harrays : Piece.arrays ∈ F) (hbrims : Piece.brims ∈ F) (hcfg : Piece.cfg ∈ F) (hchannels : Piece.channels ∈ F) (hdict : Piece.dict ∈ F) (hengines : Piece.engines ∈ F) (hfns : Piece.fns ∈ F) (hframes : Piece.frames ∈ F) (hfree : Piece.free ∈ F) (hhbm : Piece.hbm ∈ F) (hhostMem : Piece.hostMem ∈ F) (hlanes : Piece.lanes ∈ F) (hmill : Piece.mill ∈ F) (hout : Piece.out ∈ F) (hpairTx : Piece.pairTx ∈ F) (hpoison : Piece.poison ∈ F) (hports : Piece.ports ∈ F) (hpower : Piece.power ∈ F) (hprun : Piece.prun ∈ F) (hrefusals : Piece.refusals ∈ F) (hresps : Piece.resps ∈ F) (hretired : Piece.retired ∈ F) (hrst : Piece.rst ∈ F) (hsec : Piece.sec ∈ F) (hsplits : Piece.splits ∈ F) (hstackSides : Piece.stackSides ∈ F) (hswitches : Piece.switches ∈ F) (htests : Piece.tests ∈ F) (hwaiting : Piece.waiting ∈ F) (hworks : Piece.works ∈ F) (hxacts : Piece.xacts ∈ F)
    (go : Goes F s₀ s) : Goes F s₀ (State.leaves s n) := by
  unfold State.leaves
  dsimp only
  repeat' first
    | with_reducible assumption
    | with_reducible apply Goes.losePackets
    | (intro)
    | with_reducible apply Goes.inject
    | with_reducible apply Goes.loseCrown
    | with_reducible apply Goes.loseDieP
    | with_reducible apply Goes.modSwitch
    | with_reducible apply Goes.refreshDomains
    | with_reducible apply Goes.ite
    | split
    | with_reducible apply Goes.waiting_resps_xactsTo

theorem execDieLeavesService_goes {F : List Piece} (die : DieN) (s : State) (harrays : Piece.arrays ∈ F) (hbrims : Piece.brims ∈ F) (hcfg : Piece.cfg ∈ F) (hchannels : Piece.channels ∈ F) (hdict : Piece.dict ∈ F) (hengines : Piece.engines ∈ F) (hfns : Piece.fns ∈ F) (hframes : Piece.frames ∈ F) (hfree : Piece.free ∈ F) (hhbm : Piece.hbm ∈ F) (hhostMem : Piece.hostMem ∈ F) (hlanes : Piece.lanes ∈ F) (hmill : Piece.mill ∈ F) (hout : Piece.out ∈ F) (hpairTx : Piece.pairTx ∈ F) (hpoison : Piece.poison ∈ F) (hports : Piece.ports ∈ F) (hpower : Piece.power ∈ F) (hprun : Piece.prun ∈ F) (hrefusals : Piece.refusals ∈ F) (hresps : Piece.resps ∈ F) (hretired : Piece.retired ∈ F) (hrst : Piece.rst ∈ F) (hsec : Piece.sec ∈ F) (hsplits : Piece.splits ∈ F) (hstackSides : Piece.stackSides ∈ F) (hswitches : Piece.switches ∈ F) (htests : Piece.tests ∈ F) (hwaiting : Piece.waiting ∈ F) (hworks : Piece.works ∈ F) (hxacts : Piece.xacts ∈ F) :
    ∃ t, execDieLeavesService die s = .next t ∧ Goes F s t := by
  have go := Goes.refl F s
  unfold execDieLeavesService
  refine ⟨_, rfl, ?_⟩
  repeat' first | with_reducible assumption | with_reducible apply Goes.leaves

theorem execTripTimeout_goes {F : List Piece} (die : DieC) (s : State) (harrays : Piece.arrays ∈ F) (hbrims : Piece.brims ∈ F) (hcfg : Piece.cfg ∈ F) (hchannels : Piece.channels ∈ F) (hclock : Piece.clock ∈ F) (hdict : Piece.dict ∈ F) (hengines : Piece.engines ∈ F) (hfns : Piece.fns ∈ F) (hframes : Piece.frames ∈ F) (hfree : Piece.free ∈ F) (hhbm : Piece.hbm ∈ F) (hhostMem : Piece.hostMem ∈ F) (hlanes : Piece.lanes ∈ F) (hmill : Piece.mill ∈ F) (hout : Piece.out ∈ F) (hpairTx : Piece.pairTx ∈ F) (hpoison : Piece.poison ∈ F) (hports : Piece.ports ∈ F) (hpower : Piece.power ∈ F) (hprun : Piece.prun ∈ F) (hrefusals : Piece.refusals ∈ F) (hresps : Piece.resps ∈ F) (hretired : Piece.retired ∈ F) (hrst : Piece.rst ∈ F) (hsec : Piece.sec ∈ F) (hsplits : Piece.splits ∈ F) (hstackSides : Piece.stackSides ∈ F) (hswitches : Piece.switches ∈ F) (htests : Piece.tests ∈ F) (hwaiting : Piece.waiting ∈ F) (hworks : Piece.works ∈ F) (hxacts : Piece.xacts ∈ F) :
    ∃ t, execTripTimeout die s = .next t ∧ Goes F s t := by
  have go := Goes.refl F s
  unfold execTripTimeout
  try dsimp only
  repeat' first
    | refine ⟨_, rfl, ?_⟩
    | with_reducible assumption
    | with_reducible apply Goes.leaves
    | with_reducible apply Goes.reach
    | split

theorem execRegulatorRead_goes {F : List Piece} (die : DieN) (mv da : BitVec 16) (energy : W32) (served : List (PartN × W32)) (s : State) (harrays : Piece.arrays ∈ F) (hbrims : Piece.brims ∈ F) (hcfg : Piece.cfg ∈ F) (hchannels : Piece.channels ∈ F) (hdict : Piece.dict ∈ F) (hengines : Piece.engines ∈ F) (hfns : Piece.fns ∈ F) (hframes : Piece.frames ∈ F) (hfree : Piece.free ∈ F) (hhbm : Piece.hbm ∈ F) (hhostMem : Piece.hostMem ∈ F) (hlanes : Piece.lanes ∈ F) (hmill : Piece.mill ∈ F) (hout : Piece.out ∈ F) (hpairTx : Piece.pairTx ∈ F) (hpoison : Piece.poison ∈ F) (hports : Piece.ports ∈ F) (hpower : Piece.power ∈ F) (hprun : Piece.prun ∈ F) (hrefusals : Piece.refusals ∈ F) (hresps : Piece.resps ∈ F) (hretired : Piece.retired ∈ F) (hrst : Piece.rst ∈ F) (hsec : Piece.sec ∈ F) (hsplits : Piece.splits ∈ F) (hstackSides : Piece.stackSides ∈ F) (hswitches : Piece.switches ∈ F) (htests : Piece.tests ∈ F) (hwaiting : Piece.waiting ∈ F) (hworks : Piece.works ∈ F) (hxacts : Piece.xacts ∈ F) :
    ∃ t, execRegulatorRead die mv da energy served s = .next t ∧ Goes F s t := by
  have go := Goes.refl F s
  unfold execRegulatorRead
  try dsimp only
  repeat' first
    | refine ⟨_, rfl, ?_⟩
    | with_reducible assumption
    | (intro)
    | with_reducible apply Goes.bump
    | with_reducible apply Goes.leaves
    | with_reducible apply Goes.modDp
    | with_reducible apply Goes.setReg
    | with_reducible apply Goes.spend
    | with_reducible apply Goes.spendPackage
    | with_reducible apply Goes.ite
    | with_reducible apply Goes.foldl

end Sys2Proof.Machine
end

