-- ==== Sys2Proof/Laws/Dictionary.lean ====
section
/-! SUPPORT. What the operations of Machine/Dictionary.lean may change, and that each keeps what the model keeps throughout. -/

namespace Sys2Proof.Machine

theorem GoesAny.readValue {F : List Piece} {s₀ s : State} (role : Role) (k : Nat) (hfree : Piece.free ∈ F) (hmill : Piece.mill ∈ F)
    (go : Goes F s₀ s) : GoesAny F s₀ ((State.readValue s role k).map Prod.fst) := by
  unfold State.readValue
  dsimp only
  intro t ht
  repeat' split at ht
  all_goals (try simp only [Option.map_some, Option.map_map, Option.map_eq_some_iff, Option.some.injEq, Function.comp] at ht)
  all_goals first
    | exact ht ▸ go
    | (obtain ⟨_, _, rfl⟩ := ht; exact go)
    | exact ht ▸ Goes.millTo (s := State.draw s) _ hmill id id (go.draw hfree)

theorem GoesAny.readEntry {F : List Piece} {s₀ s : State} (via : Transport) (role : Role) (k : Nat) (hfree : Piece.free ∈ F) (hmill : Piece.mill ∈ F)
    (go : Goes F s₀ s) : GoesAny F s₀ ((State.readEntry s via role k).map Prod.fst) := by
  unfold State.readEntry
  dsimp only
  split
  · split
    · exact GoesAny.some go
    · exact GoesAny.none
  · split
    · exact GoesAny.none
    · split
      · exact GoesAny.none
      · rw [Option.map_map]
        exact GoesAny.readValue role k hfree hmill go

theorem Goes.store {F : List Piece} {s₀ s : State} (k v : Nat) (hdict : Piece.dict ∈ F) (hmill : Piece.mill ∈ F)
    (go : Goes F s₀ s) : Goes F s₀ (State.store s k v) := by
  unfold State.store
  repeat' first
    | with_reducible assumption
    | with_reducible apply Goes.persist
    | with_reducible apply Goes.setReg

theorem GoesAny.writeControl {F : List Piece} {s₀ s : State} (via : Transport) (k v : Nat) (hdict : Piece.dict ∈ F) (hmill : Piece.mill ∈ F) (hout : Piece.out ∈ F) (hrst : Piece.rst ∈ F)
    (go : Goes F s₀ s) : GoesAny F s₀ (State.writeControl s via k v) := by
  unfold State.writeControl
  dsimp only
  repeat' first
    | with_reducible assumption
    | with_reducible apply Goes.startXfer
    | with_reducible exact GoesAny.none
    | with_reducible apply GoesAny.ite
    | with_reducible apply GoesAny.some
    | with_reducible apply Goes.setReg
    | with_reducible apply Goes.store
    | with_reducible apply Goes.ite
    | with_reducible apply Goes.fwErase
    | with_reducible apply Goes.fwVerify
    | with_reducible apply Goes.fwActivate
    | with_reducible apply Goes.fwConfirm
    | with_reducible apply Goes.fwData
    | with_reducible apply GoesAny.startXfer
    | with_reducible apply Goes.rstTo
    | split
    | exact Goes.millTo (s := State.setReg _ _ _) _ hmill id id (go.setReg _ _ hdict)
    | exact go.millTo _ hmill id id

theorem GoesAny.writePackage {F : List Piece} {s₀ s : State} (k v : Nat) (hdict : Piece.dict ∈ F) (hfns : Piece.fns ∈ F) (hfree : Piece.free ∈ F) (hhostMem : Piece.hostMem ∈ F) (hlanes : Piece.lanes ∈ F) (hmill : Piece.mill ∈ F) (hout : Piece.out ∈ F) (hpairTx : Piece.pairTx ∈ F) (hpower : Piece.power ∈ F) (hprun : Piece.prun ∈ F) (hxacts : Piece.xacts ∈ F)
    (go : Goes F s₀ s) : GoesAny F s₀ (State.writePackage s k v) := by
  unfold State.writePackage
  dsimp only
  repeat' first
    | with_reducible assumption
    | with_reducible exact GoesAny.none
    | with_reducible apply GoesAny.ite
    | with_reducible apply GoesAny.some
    | with_reducible apply Goes.store
    | with_reducible apply Goes.clearRegs
    | with_reducible apply Goes.persist
    | with_reducible apply Goes.useLanes
    | with_reducible apply Goes.injectBits

theorem Goes.writeCommand {F : List Piece} {s₀ s : State} (p v : Nat) (harrays : Piece.arrays ∈ F) (hbrims : Piece.brims ∈ F) (hcfg : Piece.cfg ∈ F) (hdict : Piece.dict ∈ F) (hengines : Piece.engines ∈ F) (hfns : Piece.fns ∈ F) (hframes : Piece.frames ∈ F) (hfree : Piece.free ∈ F) (hhostMem : Piece.hostMem ∈ F) (hmill : Piece.mill ∈ F) (hout : Piece.out ∈ F) (hpower : Piece.power ∈ F) (hprun : Piece.prun ∈ F) (hrefusals : Piece.refusals ∈ F) (hsec : Piece.sec ∈ F) (hstackSides : Piece.stackSides ∈ F) (hworks : Piece.works ∈ F) (hxacts : Piece.xacts ∈ F)
    (go : Goes F s₀ s) : Goes F s₀ (State.writeCommand s p v).1 := by
  unfold State.writeCommand
  dsimp only
  repeat' first
    | with_reducible assumption
    | with_reducible apply Goes.createPartition
    | with_reducible apply Goes.endEpoch
    | with_reducible apply Goes.setReg
    | with_reducible apply Goes.ite
    | split

theorem GoesAny.writePart {F : List Piece} {s₀ s : State} (k v : Nat) (hdict : Piece.dict ∈ F) (hmill : Piece.mill ∈ F) (hprun : Piece.prun ∈ F) (hresvNext : Piece.resvNext ∈ F)
    (go : Goes F s₀ s) : GoesAny F s₀ (State.writePart s k v) := by
  unfold State.writePart
  dsimp only
  repeat' first
    | with_reducible assumption
    | with_reducible apply Goes.levelWeights
    | with_reducible apply Goes.trimCopies
    | with_reducible exact GoesAny.none
    | with_reducible apply GoesAny.ite
    | with_reducible apply GoesAny.some
    | with_reducible apply Goes.ite
    | with_reducible apply Goes.store
    | with_reducible apply Goes.resvWrite
    | with_reducible apply Goes.sizeHbm

theorem GoesAny.writeDie {F : List Piece} {s₀ s : State} (k v : Nat) (hbrims : Piece.brims ∈ F) (hdict : Piece.dict ∈ F) (hmill : Piece.mill ∈ F) (hpower : Piece.power ∈ F) (htests : Piece.tests ∈ F)
    (go : Goes F s₀ s) : GoesAny F s₀ (State.writeDie s k v) := by
  unfold State.writeDie
  dsimp only
  repeat' first
    | with_reducible assumption
    | with_reducible exact GoesAny.none
    | with_reducible apply GoesAny.ite
    | with_reducible apply GoesAny.some
    | with_reducible apply Goes.store
    | with_reducible apply Goes.clearRegs
    | with_reducible apply Goes.setReg
    | with_reducible apply Goes.orderTest
    | with_reducible apply Goes.queueLoad

theorem Goes.applyWrite {F : List Piece} {s₀ s : State} (via : Transport) (k v : Nat) (harrays : Piece.arrays ∈ F) (hbrims : Piece.brims ∈ F) (hcfg : Piece.cfg ∈ F) (hdict : Piece.dict ∈ F) (hengines : Piece.engines ∈ F) (hfns : Piece.fns ∈ F) (hframes : Piece.frames ∈ F) (hfree : Piece.free ∈ F) (hhostMem : Piece.hostMem ∈ F) (hlanes : Piece.lanes ∈ F) (hmill : Piece.mill ∈ F) (hout : Piece.out ∈ F) (hpairTx : Piece.pairTx ∈ F) (hpower : Piece.power ∈ F) (hprun : Piece.prun ∈ F) (hrefusals : Piece.refusals ∈ F) (hresvNext : Piece.resvNext ∈ F) (hrst : Piece.rst ∈ F) (hsec : Piece.sec ∈ F) (hstackSides : Piece.stackSides ∈ F) (htests : Piece.tests ∈ F) (hworks : Piece.works ∈ F) (hxacts : Piece.xacts ∈ F)
    (go : Goes F s₀ s) : Goes F s₀ (State.applyWrite s via k v).1 := by
  unfold State.applyWrite
  dsimp only
  split
  · apply Goes.writeCommand <;> assumption
  · split
    · rename_i t ht
      revert ht t
      have h1 : GoesAny F s₀ (s.writeControl via k v) := by apply GoesAny.writeControl <;> assumption
      have h2 : GoesAny F s₀ (s.writePackage k v) := by apply GoesAny.writePackage <;> assumption
      have h3 : GoesAny F s₀ (s.writePart k v) := by apply GoesAny.writePart <;> assumption
      have h4 : GoesAny F s₀ (s.writeDie k v) := by apply GoesAny.writeDie <;> assumption
      exact h1.ite (h2.ite (h3.ite h4))
    · exact go

theorem Goes.writeEntry {F : List Piece} {s₀ s : State} (via : Transport) (role : Role) (k : Nat) (bs : List Byte) (harrays : Piece.arrays ∈ F) (hbrims : Piece.brims ∈ F) (hcfg : Piece.cfg ∈ F) (hdict : Piece.dict ∈ F) (hengines : Piece.engines ∈ F) (hfns : Piece.fns ∈ F) (hframes : Piece.frames ∈ F) (hfree : Piece.free ∈ F) (hhostMem : Piece.hostMem ∈ F) (hlanes : Piece.lanes ∈ F) (hmill : Piece.mill ∈ F) (hout : Piece.out ∈ F) (hpairTx : Piece.pairTx ∈ F) (hpower : Piece.power ∈ F) (hprun : Piece.prun ∈ F) (hrefusals : Piece.refusals ∈ F) (hresvNext : Piece.resvNext ∈ F) (hrst : Piece.rst ∈ F) (hsec : Piece.sec ∈ F) (hstackSides : Piece.stackSides ∈ F) (htests : Piece.tests ∈ F) (hworks : Piece.works ∈ F) (hxacts : Piece.xacts ∈ F)
    (go : Goes F s₀ s) : Goes F s₀ (State.writeEntry s via role k bs).1 := by
  unfold State.writeEntry
  dsimp only
  repeat' first
    | with_reducible assumption
    | with_reducible apply Goes.applyWrite
    | with_reducible apply Goes.toError
    | with_reducible apply Goes.ite
    | split

theorem Goes.perform {F : List Piece} {s₀ s : State} (a : Access) (harrays : Piece.arrays ∈ F) (hbrims : Piece.brims ∈ F) (hcfg : Piece.cfg ∈ F) (hdict : Piece.dict ∈ F) (hengines : Piece.engines ∈ F) (hfns : Piece.fns ∈ F) (hframes : Piece.frames ∈ F) (hfree : Piece.free ∈ F) (hhostMem : Piece.hostMem ∈ F) (hlanes : Piece.lanes ∈ F) (hmill : Piece.mill ∈ F) (hout : Piece.out ∈ F) (hpairTx : Piece.pairTx ∈ F) (hpower : Piece.power ∈ F) (hprun : Piece.prun ∈ F) (hrefusals : Piece.refusals ∈ F) (hresvNext : Piece.resvNext ∈ F) (hrst : Piece.rst ∈ F) (hsec : Piece.sec ∈ F) (hstackSides : Piece.stackSides ∈ F) (htests : Piece.tests ∈ F) (hworks : Piece.works ∈ F) (hxacts : Piece.xacts ∈ F)
    (go : Goes F s₀ s) : Goes F s₀ (State.perform s a).1 := by
  unfold State.perform
  dsimp only
  split
  all_goals
    split
    · exact go
    · split
      · apply Goes.writeEntry <;> assumption
      · split
        · rename_i r hr
          exact GoesAny.readEntry _ _ _ hfree hmill go _ (by rw [hr]; rfl)
        · exact go

theorem Goes.serve {F : List Piece} {s₀ s : State} (a : Access) (harrays : Piece.arrays ∈ F) (hbrims : Piece.brims ∈ F) (hcfg : Piece.cfg ∈ F) (hchannels : Piece.channels ∈ F) (hclock : Piece.clock ∈ F) (hdict : Piece.dict ∈ F) (hengines : Piece.engines ∈ F) (hfns : Piece.fns ∈ F) (hframes : Piece.frames ∈ F) (hfree : Piece.free ∈ F) (hhostMem : Piece.hostMem ∈ F) (hlanes : Piece.lanes ∈ F) (hmill : Piece.mill ∈ F) (hout : Piece.out ∈ F) (hpairTx : Piece.pairTx ∈ F) (hpower : Piece.power ∈ F) (hprun : Piece.prun ∈ F) (hrefusals : Piece.refusals ∈ F) (hresps : Piece.resps ∈ F) (hresvNext : Piece.resvNext ∈ F) (hrst : Piece.rst ∈ F) (hsec : Piece.sec ∈ F) (hstackSides : Piece.stackSides ∈ F) (htests : Piece.tests ∈ F) (hwaiting : Piece.waiting ∈ F) (hworks : Piece.works ∈ F) (hxacts : Piece.xacts ∈ F)
    (go : Goes F s₀ s) : Goes F s₀ (State.serve s a) := by
  have hp : Goes F s₀ (s.perform a).1 := by apply Goes.perform <;> assumption
  unfold State.serve
  split
  · rename_i t h
    rw [h] at hp
    exact hp.refuseAt _ _ hrefusals
  · rename_i t v h
    rw [h] at hp
    have ha := Goes.answer a true v hfns hmill hout hp
    dsimp only
    split
    · apply Goes.takeover <;> assumption
    · exact ha

theorem Goes.engine {F : List Piece} {s₀ s : State} (a : Access) (harrays : Piece.arrays ∈ F) (hbrims : Piece.brims ∈ F) (hcfg : Piece.cfg ∈ F) (hchannels : Piece.channels ∈ F) (hclock : Piece.clock ∈ F) (hdict : Piece.dict ∈ F) (hengines : Piece.engines ∈ F) (hfns : Piece.fns ∈ F) (hframes : Piece.frames ∈ F) (hfree : Piece.free ∈ F) (hhostMem : Piece.hostMem ∈ F) (hlanes : Piece.lanes ∈ F) (hmill : Piece.mill ∈ F) (hout : Piece.out ∈ F) (hpairTx : Piece.pairTx ∈ F) (hpower : Piece.power ∈ F) (hprun : Piece.prun ∈ F) (hrefusals : Piece.refusals ∈ F) (hresps : Piece.resps ∈ F) (hresvNext : Piece.resvNext ∈ F) (hrst : Piece.rst ∈ F) (hsec : Piece.sec ∈ F) (hstackSides : Piece.stackSides ∈ F) (htests : Piece.tests ∈ F) (hwaiting : Piece.waiting ∈ F) (hworks : Piece.works ∈ F) (hxacts : Piece.xacts ∈ F)
    (go : Goes F s₀ s) : Goes F s₀ (State.engine s a) := by
  have hp : Goes F s₀ (s.perform a).1 := by apply Goes.perform <;> assumption
  unfold State.engine
  split
  · rename_i t h
    rw [h] at hp
    exact hp.refuse _ hrefusals
  · split
    · apply Goes.serve <;> assumption
    · refine go.millTo _ hmill (fun h => ?_) (fun h => ?_) <;> · dsimp only; split <;> exact h

theorem Goes.drainFrom {F : List Piece} {s₀ s : State} (all : Bool) (l : List Access) (harrays : Piece.arrays ∈ F) (hbrims : Piece.brims ∈ F) (hcfg : Piece.cfg ∈ F) (hchannels : Piece.channels ∈ F) (hclock : Piece.clock ∈ F) (hdict : Piece.dict ∈ F) (hengines : Piece.engines ∈ F) (hfns : Piece.fns ∈ F) (hframes : Piece.frames ∈ F) (hfree : Piece.free ∈ F) (hhostMem : Piece.hostMem ∈ F) (hlanes : Piece.lanes ∈ F) (hmill : Piece.mill ∈ F) (hout : Piece.out ∈ F) (hpairTx : Piece.pairTx ∈ F) (hpower : Piece.power ∈ F) (hprun : Piece.prun ∈ F) (hrefusals : Piece.refusals ∈ F) (hresps : Piece.resps ∈ F) (hresvNext : Piece.resvNext ∈ F) (hrst : Piece.rst ∈ F) (hsec : Piece.sec ∈ F) (hstackSides : Piece.stackSides ∈ F) (htests : Piece.tests ∈ F) (hwaiting : Piece.waiting ∈ F) (hworks : Piece.works ∈ F) (hxacts : Piece.xacts ∈ F)
    (go : Goes F s₀ s) : Goes F s₀ (State.drainFrom all l s) := by
  induction l generalizing s with
  | nil => exact go
  | cons a l ih =>
    unfold State.drainFrom
    split
    · have h1 (q : List Access) : Goes F s₀ { s with mill := { s.mill with queue := q } } := go.millTo _ hmill id id
      refine ih ?_
      apply Goes.serve <;> first | assumption | exact h1 _
    · exact go

theorem Goes.drain {F : List Piece} {s₀ s : State} (all : Bool) (harrays : Piece.arrays ∈ F) (hbrims : Piece.brims ∈ F) (hcfg : Piece.cfg ∈ F) (hchannels : Piece.channels ∈ F) (hclock : Piece.clock ∈ F) (hdict : Piece.dict ∈ F) (hengines : Piece.engines ∈ F) (hfns : Piece.fns ∈ F) (hframes : Piece.frames ∈ F) (hfree : Piece.free ∈ F) (hhostMem : Piece.hostMem ∈ F) (hlanes : Piece.lanes ∈ F) (hmill : Piece.mill ∈ F) (hout : Piece.out ∈ F) (hpairTx : Piece.pairTx ∈ F) (hpower : Piece.power ∈ F) (hprun : Piece.prun ∈ F) (hrefusals : Piece.refusals ∈ F) (hresps : Piece.resps ∈ F) (hresvNext : Piece.resvNext ∈ F) (hrst : Piece.rst ∈ F) (hsec : Piece.sec ∈ F) (hstackSides : Piece.stackSides ∈ F) (htests : Piece.tests ∈ F) (hwaiting : Piece.waiting ∈ F) (hworks : Piece.works ∈ F) (hxacts : Piece.xacts ∈ F)
    (go : Goes F s₀ s) : Goes F s₀ (State.drain s all) := by
  unfold State.drain
  repeat' first | with_reducible assumption | with_reducible apply Goes.drainFrom

theorem Goes.taken' {F : List Piece} {s₀ s : State} (a : Access) (tag : Nat) (hdict : Piece.dict ∈ F) (hfns : Piece.fns ∈ F) (hmill : Piece.mill ∈ F) (hsessions : Piece.sessions ∈ F)
    (go : Goes F s₀ s) : Goes F s₀ (State.taken' s a tag) := by
  unfold State.taken'
  split
  · dsimp only
    refine Goes.millTo (s := State.setReg _ _ _) _ hmill id (fun _ => ?_) (go.setReg _ _ hdict)
    dsimp only
    exact List.length_take_le _ _
  · exact go.modSession _ _ hsessions
  · exact go.modFn _ _ hfns
  · exact go

theorem Goes.enter {F : List Piece} {s₀ s : State} (a : Access) (tag : Nat) (harrays : Piece.arrays ∈ F) (hbrims : Piece.brims ∈ F) (hcfg : Piece.cfg ∈ F) (hchannels : Piece.channels ∈ F) (hclock : Piece.clock ∈ F) (hdict : Piece.dict ∈ F) (hengines : Piece.engines ∈ F) (hfns : Piece.fns ∈ F) (hframes : Piece.frames ∈ F) (hfree : Piece.free ∈ F) (hhostMem : Piece.hostMem ∈ F) (hlanes : Piece.lanes ∈ F) (hmill : Piece.mill ∈ F) (hout : Piece.out ∈ F) (hpairTx : Piece.pairTx ∈ F) (hpower : Piece.power ∈ F) (hprun : Piece.prun ∈ F) (hrefusals : Piece.refusals ∈ F) (hresps : Piece.resps ∈ F) (hresvNext : Piece.resvNext ∈ F) (hrst : Piece.rst ∈ F) (hsec : Piece.sec ∈ F) (hsessions : Piece.sessions ∈ F) (hstackSides : Piece.stackSides ∈ F) (htests : Piece.tests ∈ F) (hwaiting : Piece.waiting ∈ F) (hworks : Piece.works ∈ F) (hxacts : Piece.xacts ∈ F)
    (go : Goes F s₀ s) : Goes F s₀ (State.enter s a tag) := by
  unfold State.enter
  repeat' first
    | with_reducible assumption
    | with_reducible apply Goes.engine
    | with_reducible apply Goes.taken'
    | with_reducible apply Goes.ite

theorem Goes.write {F : List Piece} {s₀ s : State} (via : Transport) (k len v : Nat) (harrays : Piece.arrays ∈ F) (hbrims : Piece.brims ∈ F) (hcfg : Piece.cfg ∈ F) (hchannels : Piece.channels ∈ F) (hclock : Piece.clock ∈ F) (hdict : Piece.dict ∈ F) (hengines : Piece.engines ∈ F) (hfns : Piece.fns ∈ F) (hframes : Piece.frames ∈ F) (hfree : Piece.free ∈ F) (hhostMem : Piece.hostMem ∈ F) (hlanes : Piece.lanes ∈ F) (hmill : Piece.mill ∈ F) (hout : Piece.out ∈ F) (hpairTx : Piece.pairTx ∈ F) (hpower : Piece.power ∈ F) (hprun : Piece.prun ∈ F) (hrefusals : Piece.refusals ∈ F) (hresps : Piece.resps ∈ F) (hresvNext : Piece.resvNext ∈ F) (hrst : Piece.rst ∈ F) (hsec : Piece.sec ∈ F) (hsessions : Piece.sessions ∈ F) (hstackSides : Piece.stackSides ∈ F) (htests : Piece.tests ∈ F) (hwaiting : Piece.waiting ∈ F) (hworks : Piece.works ∈ F) (hxacts : Piece.xacts ∈ F)
    (go : Goes F s₀ s) : Goes F s₀ (State.write s via k len v) := by
  unfold State.write
  repeat' first | with_reducible assumption | with_reducible apply Goes.enter

theorem Goes.read {F : List Piece} {s₀ s : State} (via : Transport) (k : Nat) (harrays : Piece.arrays ∈ F) (hbrims : Piece.brims ∈ F) (hcfg : Piece.cfg ∈ F) (hchannels : Piece.channels ∈ F) (hclock : Piece.clock ∈ F) (hdict : Piece.dict ∈ F) (hengines : Piece.engines ∈ F) (hfns : Piece.fns ∈ F) (hframes : Piece.frames ∈ F) (hfree : Piece.free ∈ F) (hhostMem : Piece.hostMem ∈ F) (hlanes : Piece.lanes ∈ F) (hmill : Piece.mill ∈ F) (hout : Piece.out ∈ F) (hpairTx : Piece.pairTx ∈ F) (hpower : Piece.power ∈ F) (hprun : Piece.prun ∈ F) (hrefusals : Piece.refusals ∈ F) (hresps : Piece.resps ∈ F) (hresvNext : Piece.resvNext ∈ F) (hrst : Piece.rst ∈ F) (hsec : Piece.sec ∈ F) (hsessions : Piece.sessions ∈ F) (hstackSides : Piece.stackSides ∈ F) (htests : Piece.tests ∈ F) (hwaiting : Piece.waiting ∈ F) (hworks : Piece.works ∈ F) (hxacts : Piece.xacts ∈ F)
    (go : Goes F s₀ s) : Goes F s₀ (State.read s via k) := by
  unfold State.read
  repeat' first | with_reducible assumption | with_reducible apply Goes.enter

theorem execDictWrite_goes {F : List Piece} (via : Transport) (entry : BitVec 24) (value : List Byte) (s : State) (harrays : Piece.arrays ∈ F) (hbrims : Piece.brims ∈ F) (hcfg : Piece.cfg ∈ F) (hchannels : Piece.channels ∈ F) (hclock : Piece.clock ∈ F) (hdict : Piece.dict ∈ F) (hengines : Piece.engines ∈ F) (hfns : Piece.fns ∈ F) (hframes : Piece.frames ∈ F) (hfree : Piece.free ∈ F) (hhostMem : Piece.hostMem ∈ F) (hlanes : Piece.lanes ∈ F) (hmill : Piece.mill ∈ F) (hout : Piece.out ∈ F) (hpairTx : Piece.pairTx ∈ F) (hpower : Piece.power ∈ F) (hprun : Piece.prun ∈ F) (hrefusals : Piece.refusals ∈ F) (hresps : Piece.resps ∈ F) (hresvNext : Piece.resvNext ∈ F) (hrst : Piece.rst ∈ F) (hsec : Piece.sec ∈ F) (hsessions : Piece.sessions ∈ F) (hstackSides : Piece.stackSides ∈ F) (htests : Piece.tests ∈ F) (hwaiting : Piece.waiting ∈ F) (hworks : Piece.works ∈ F) (hxacts : Piece.xacts ∈ F) :
    ∃ t, execDictWrite via entry value s = .next t ∧ Goes F s t := by
  have go := Goes.refl F s
  unfold execDictWrite
  refine ⟨_, rfl, ?_⟩
  repeat' first | with_reducible assumption | with_reducible apply Goes.enter

theorem execResvWrite_goes {F : List Piece} (via : Transport) (p : PartN) (entry : Fin 16) (v : W32) (s : State) (harrays : Piece.arrays ∈ F) (hbrims : Piece.brims ∈ F) (hcfg : Piece.cfg ∈ F) (hchannels : Piece.channels ∈ F) (hclock : Piece.clock ∈ F) (hdict : Piece.dict ∈ F) (hengines : Piece.engines ∈ F) (hfns : Piece.fns ∈ F) (hframes : Piece.frames ∈ F) (hfree : Piece.free ∈ F) (hhostMem : Piece.hostMem ∈ F) (hlanes : Piece.lanes ∈ F) (hmill : Piece.mill ∈ F) (hout : Piece.out ∈ F) (hpairTx : Piece.pairTx ∈ F) (hpower : Piece.power ∈ F) (hprun : Piece.prun ∈ F) (hrefusals : Piece.refusals ∈ F) (hresps : Piece.resps ∈ F) (hresvNext : Piece.resvNext ∈ F) (hrst : Piece.rst ∈ F) (hsec : Piece.sec ∈ F) (hsessions : Piece.sessions ∈ F) (hstackSides : Piece.stackSides ∈ F) (htests : Piece.tests ∈ F) (hwaiting : Piece.waiting ∈ F) (hworks : Piece.works ∈ F) (hxacts : Piece.xacts ∈ F) :
    ∃ t, execResvWrite via p entry v s = .next t ∧ Goes F s t := by
  have go := Goes.refl F s
  unfold execResvWrite
  refine ⟨_, rfl, ?_⟩
  repeat' first | with_reducible assumption | with_reducible apply Goes.write

theorem execTileState_goes {F : List Piece} (via : Transport) (die : DieC) (tile : TileN) (s : State) (harrays : Piece.arrays ∈ F) (hbrims : Piece.brims ∈ F) (hcfg : Piece.cfg ∈ F) (hchannels : Piece.channels ∈ F) (hclock : Piece.clock ∈ F) (hdict : Piece.dict ∈ F) (hengines : Piece.engines ∈ F) (hfns : Piece.fns ∈ F) (hframes : Piece.frames ∈ F) (hfree : Piece.free ∈ F) (hhostMem : Piece.hostMem ∈ F) (hlanes : Piece.lanes ∈ F) (hmill : Piece.mill ∈ F) (hout : Piece.out ∈ F) (hpairTx : Piece.pairTx ∈ F) (hpower : Piece.power ∈ F) (hprun : Piece.prun ∈ F) (hrefusals : Piece.refusals ∈ F) (hresps : Piece.resps ∈ F) (hresvNext : Piece.resvNext ∈ F) (hrst : Piece.rst ∈ F) (hsec : Piece.sec ∈ F) (hsessions : Piece.sessions ∈ F) (hstackSides : Piece.stackSides ∈ F) (htests : Piece.tests ∈ F) (hwaiting : Piece.waiting ∈ F) (hworks : Piece.works ∈ F) (hxacts : Piece.xacts ∈ F) :
    ∃ t, execTileState via die tile s = .next t ∧ Goes F s t := by
  have go := Goes.refl F s
  unfold execTileState
  refine ⟨_, rfl, ?_⟩
  repeat' first | with_reducible assumption | with_reducible apply Goes.write

theorem execQid_goes {F : List Piece} (via : Transport) (mon : Fin 128) (v : BitVec 16) (s : State) (harrays : Piece.arrays ∈ F) (hbrims : Piece.brims ∈ F) (hcfg : Piece.cfg ∈ F) (hchannels : Piece.channels ∈ F) (hclock : Piece.clock ∈ F) (hdict : Piece.dict ∈ F) (hengines : Piece.engines ∈ F) (hfns : Piece.fns ∈ F) (hframes : Piece.frames ∈ F) (hfree : Piece.free ∈ F) (hhostMem : Piece.hostMem ∈ F) (hlanes : Piece.lanes ∈ F) (hmill : Piece.mill ∈ F) (hout : Piece.out ∈ F) (hpairTx : Piece.pairTx ∈ F) (hpower : Piece.power ∈ F) (hprun : Piece.prun ∈ F) (hrefusals : Piece.refusals ∈ F) (hresps : Piece.resps ∈ F) (hresvNext : Piece.resvNext ∈ F) (hrst : Piece.rst ∈ F) (hsec : Piece.sec ∈ F) (hsessions : Piece.sessions ∈ F) (hstackSides : Piece.stackSides ∈ F) (htests : Piece.tests ∈ F) (hwaiting : Piece.waiting ∈ F) (hworks : Piece.works ∈ F) (hxacts : Piece.xacts ∈ F) :
    ∃ t, execQid via mon v s = .next t ∧ Goes F s t := by
  have go := Goes.refl F s
  unfold execQid
  refine ⟨_, rfl, ?_⟩
  repeat' first | with_reducible assumption | with_reducible apply Goes.write

theorem execPartitionCreate_goes {F : List Piece} (via : Transport) (p : PartN) (s : State) (harrays : Piece.arrays ∈ F) (hbrims : Piece.brims ∈ F) (hcfg : Piece.cfg ∈ F) (hchannels : Piece.channels ∈ F) (hclock : Piece.clock ∈ F) (hdict : Piece.dict ∈ F) (hengines : Piece.engines ∈ F) (hfns : Piece.fns ∈ F) (hframes : Piece.frames ∈ F) (hfree : Piece.free ∈ F) (hhostMem : Piece.hostMem ∈ F) (hlanes : Piece.lanes ∈ F) (hmill : Piece.mill ∈ F) (hout : Piece.out ∈ F) (hpairTx : Piece.pairTx ∈ F) (hpower : Piece.power ∈ F) (hprun : Piece.prun ∈ F) (hrefusals : Piece.refusals ∈ F) (hresps : Piece.resps ∈ F) (hresvNext : Piece.resvNext ∈ F) (hrst : Piece.rst ∈ F) (hsec : Piece.sec ∈ F) (hsessions : Piece.sessions ∈ F) (hstackSides : Piece.stackSides ∈ F) (htests : Piece.tests ∈ F) (hwaiting : Piece.waiting ∈ F) (hworks : Piece.works ∈ F) (hxacts : Piece.xacts ∈ F) :
    ∃ t, execPartitionCreate via p s = .next t ∧ Goes F s t := by
  have go := Goes.refl F s
  unfold execPartitionCreate
  refine ⟨_, rfl, ?_⟩
  repeat' first | with_reducible assumption | with_reducible apply Goes.write

theorem execTeardown_goes {F : List Piece} (via : Transport) (p : PartN) (s : State) (harrays : Piece.arrays ∈ F) (hbrims : Piece.brims ∈ F) (hcfg : Piece.cfg ∈ F) (hchannels : Piece.channels ∈ F) (hclock : Piece.clock ∈ F) (hdict : Piece.dict ∈ F) (hengines : Piece.engines ∈ F) (hfns : Piece.fns ∈ F) (hframes : Piece.frames ∈ F) (hfree : Piece.free ∈ F) (hhostMem : Piece.hostMem ∈ F) (hlanes : Piece.lanes ∈ F) (hmill : Piece.mill ∈ F) (hout : Piece.out ∈ F) (hpairTx : Piece.pairTx ∈ F) (hpower : Piece.power ∈ F) (hprun : Piece.prun ∈ F) (hrefusals : Piece.refusals ∈ F) (hresps : Piece.resps ∈ F) (hresvNext : Piece.resvNext ∈ F) (hrst : Piece.rst ∈ F) (hsec : Piece.sec ∈ F) (hsessions : Piece.sessions ∈ F) (hstackSides : Piece.stackSides ∈ F) (htests : Piece.tests ∈ F) (hwaiting : Piece.waiting ∈ F) (hworks : Piece.works ∈ F) (hxacts : Piece.xacts ∈ F) :
    ∃ t, execTeardown via p s = .next t ∧ Goes F s t := by
  have go := Goes.refl F s
  unfold execTeardown
  refine ⟨_, rfl, ?_⟩
  repeat' first | with_reducible assumption | with_reducible apply Goes.write

theorem execLoadCommand_goes {F : List Piece} (via : Transport) (die : DieC) (v : Byte) (s : State) (harrays : Piece.arrays ∈ F) (hbrims : Piece.brims ∈ F) (hcfg : Piece.cfg ∈ F) (hchannels : Piece.channels ∈ F) (hclock : Piece.clock ∈ F) (hdict : Piece.dict ∈ F) (hengines : Piece.engines ∈ F) (hfns : Piece.fns ∈ F) (hframes : Piece.frames ∈ F) (hfree : Piece.free ∈ F) (hhostMem : Piece.hostMem ∈ F) (hlanes : Piece.lanes ∈ F) (hmill : Piece.mill ∈ F) (hout : Piece.out ∈ F) (hpairTx : Piece.pairTx ∈ F) (hpower : Piece.power ∈ F) (hprun : Piece.prun ∈ F) (hrefusals : Piece.refusals ∈ F) (hresps : Piece.resps ∈ F) (hresvNext : Piece.resvNext ∈ F) (hrst : Piece.rst ∈ F) (hsec : Piece.sec ∈ F) (hsessions : Piece.sessions ∈ F) (hstackSides : Piece.stackSides ∈ F) (htests : Piece.tests ∈ F) (hwaiting : Piece.waiting ∈ F) (hworks : Piece.works ∈ F) (hxacts : Piece.xacts ∈ F) :
    ∃ t, execLoadCommand via die v s = .next t ∧ Goes F s t := by
  have go := Goes.refl F s
  unfold execLoadCommand
  refine ⟨_, rfl, ?_⟩
  repeat' first | with_reducible assumption | with_reducible apply Goes.write

theorem execLaneUse_goes {F : List Piece} (via : Transport) (g : GroupN) (v : Byte) (s : State) (harrays : Piece.arrays ∈ F) (hbrims : Piece.brims ∈ F) (hcfg : Piece.cfg ∈ F) (hchannels : Piece.channels ∈ F) (hclock : Piece.clock ∈ F) (hdict : Piece.dict ∈ F) (hengines : Piece.engines ∈ F) (hfns : Piece.fns ∈ F) (hframes : Piece.frames ∈ F) (hfree : Piece.free ∈ F) (hhostMem : Piece.hostMem ∈ F) (hlanes : Piece.lanes ∈ F) (hmill : Piece.mill ∈ F) (hout : Piece.out ∈ F) (hpairTx : Piece.pairTx ∈ F) (hpower : Piece.power ∈ F) (hprun : Piece.prun ∈ F) (hrefusals : Piece.refusals ∈ F) (hresps : Piece.resps ∈ F) (hresvNext : Piece.resvNext ∈ F) (hrst : Piece.rst ∈ F) (hsec : Piece.sec ∈ F) (hsessions : Piece.sessions ∈ F) (hstackSides : Piece.stackSides ∈ F) (htests : Piece.tests ∈ F) (hwaiting : Piece.waiting ∈ F) (hworks : Piece.works ∈ F) (hxacts : Piece.xacts ∈ F) :
    ∃ t, execLaneUse via g v s = .next t ∧ Goes F s t := by
  have go := Goes.refl F s
  unfold execLaneUse
  refine ⟨_, rfl, ?_⟩
  repeat' first | with_reducible assumption | with_reducible apply Goes.write

theorem execInject_goes {F : List Piece} (via : Transport) (g : GroupN) (v : W64) (s : State) (harrays : Piece.arrays ∈ F) (hbrims : Piece.brims ∈ F) (hcfg : Piece.cfg ∈ F) (hchannels : Piece.channels ∈ F) (hclock : Piece.clock ∈ F) (hdict : Piece.dict ∈ F) (hengines : Piece.engines ∈ F) (hfns : Piece.fns ∈ F) (hframes : Piece.frames ∈ F) (hfree : Piece.free ∈ F) (hhostMem : Piece.hostMem ∈ F) (hlanes : Piece.lanes ∈ F) (hmill : Piece.mill ∈ F) (hout : Piece.out ∈ F) (hpairTx : Piece.pairTx ∈ F) (hpower : Piece.power ∈ F) (hprun : Piece.prun ∈ F) (hrefusals : Piece.refusals ∈ F) (hresps : Piece.resps ∈ F) (hresvNext : Piece.resvNext ∈ F) (hrst : Piece.rst ∈ F) (hsec : Piece.sec ∈ F) (hsessions : Piece.sessions ∈ F) (hstackSides : Piece.stackSides ∈ F) (htests : Piece.tests ∈ F) (hwaiting : Piece.waiting ∈ F) (hworks : Piece.works ∈ F) (hxacts : Piece.xacts ∈ F) :
    ∃ t, execInject via g v s = .next t ∧ Goes F s t := by
  have go := Goes.refl F s
  unfold execInject
  refine ⟨_, rfl, ?_⟩
  repeat' first | with_reducible assumption | with_reducible apply Goes.write

theorem execWarmReset_goes {F : List Piece} (via : Transport) (v : BitVec 16) (s : State) (harrays : Piece.arrays ∈ F) (hbrims : Piece.brims ∈ F) (hcfg : Piece.cfg ∈ F) (hchannels : Piece.channels ∈ F) (hclock : Piece.clock ∈ F) (hdict : Piece.dict ∈ F) (hengines : Piece.engines ∈ F) (hfns : Piece.fns ∈ F) (hframes : Piece.frames ∈ F) (hfree : Piece.free ∈ F) (hhostMem : Piece.hostMem ∈ F) (hlanes : Piece.lanes ∈ F) (hmill : Piece.mill ∈ F) (hout : Piece.out ∈ F) (hpairTx : Piece.pairTx ∈ F) (hpower : Piece.power ∈ F) (hprun : Piece.prun ∈ F) (hrefusals : Piece.refusals ∈ F) (hresps : Piece.resps ∈ F) (hresvNext : Piece.resvNext ∈ F) (hrst : Piece.rst ∈ F) (hsec : Piece.sec ∈ F) (hsessions : Piece.sessions ∈ F) (hstackSides : Piece.stackSides ∈ F) (htests : Piece.tests ∈ F) (hwaiting : Piece.waiting ∈ F) (hworks : Piece.works ∈ F) (hxacts : Piece.xacts ∈ F) :
    ∃ t, execWarmReset via v s = .next t ∧ Goes F s t := by
  have go := Goes.refl F s
  unfold execWarmReset
  refine ⟨_, rfl, ?_⟩
  repeat' first | with_reducible assumption | with_reducible apply Goes.write

theorem execHandover_goes {F : List Piece} (via : Transport) (v : BitVec 16) (s : State) (harrays : Piece.arrays ∈ F) (hbrims : Piece.brims ∈ F) (hcfg : Piece.cfg ∈ F) (hchannels : Piece.channels ∈ F) (hclock : Piece.clock ∈ F) (hdict : Piece.dict ∈ F) (hengines : Piece.engines ∈ F) (hfns : Piece.fns ∈ F) (hframes : Piece.frames ∈ F) (hfree : Piece.free ∈ F) (hhostMem : Piece.hostMem ∈ F) (hlanes : Piece.lanes ∈ F) (hmill : Piece.mill ∈ F) (hout : Piece.out ∈ F) (hpairTx : Piece.pairTx ∈ F) (hpower : Piece.power ∈ F) (hprun : Piece.prun ∈ F) (hrefusals : Piece.refusals ∈ F) (hresps : Piece.resps ∈ F) (hresvNext : Piece.resvNext ∈ F) (hrst : Piece.rst ∈ F) (hsec : Piece.sec ∈ F) (hsessions : Piece.sessions ∈ F) (hstackSides : Piece.stackSides ∈ F) (htests : Piece.tests ∈ F) (hwaiting : Piece.waiting ∈ F) (hworks : Piece.works ∈ F) (hxacts : Piece.xacts ∈ F) :
    ∃ t, execHandover via v s = .next t ∧ Goes F s t := by
  have go := Goes.refl F s
  unfold execHandover
  refine ⟨_, rfl, ?_⟩
  repeat' first | with_reducible assumption | with_reducible apply Goes.write

theorem execOperatorKey_goes {F : List Piece} (via : Transport) (key' : BitVec 256) (s : State) (harrays : Piece.arrays ∈ F) (hbrims : Piece.brims ∈ F) (hcfg : Piece.cfg ∈ F) (hchannels : Piece.channels ∈ F) (hclock : Piece.clock ∈ F) (hdict : Piece.dict ∈ F) (hengines : Piece.engines ∈ F) (hfns : Piece.fns ∈ F) (hframes : Piece.frames ∈ F) (hfree : Piece.free ∈ F) (hhostMem : Piece.hostMem ∈ F) (hlanes : Piece.lanes ∈ F) (hmill : Piece.mill ∈ F) (hout : Piece.out ∈ F) (hpairTx : Piece.pairTx ∈ F) (hpower : Piece.power ∈ F) (hprun : Piece.prun ∈ F) (hrefusals : Piece.refusals ∈ F) (hresps : Piece.resps ∈ F) (hresvNext : Piece.resvNext ∈ F) (hrst : Piece.rst ∈ F) (hsec : Piece.sec ∈ F) (hsessions : Piece.sessions ∈ F) (hstackSides : Piece.stackSides ∈ F) (htests : Piece.tests ∈ F) (hwaiting : Piece.waiting ∈ F) (hworks : Piece.works ∈ F) (hxacts : Piece.xacts ∈ F) :
    ∃ t, execOperatorKey via key' s = .next t ∧ Goes F s t := by
  have go := Goes.refl F s
  unfold execOperatorKey
  refine ⟨_, rfl, ?_⟩
  repeat' first | with_reducible assumption | with_reducible apply Goes.write

theorem execVendorChallenge_goes {F : List Piece} (via : Transport) (s : State) (harrays : Piece.arrays ∈ F) (hbrims : Piece.brims ∈ F) (hcfg : Piece.cfg ∈ F) (hchannels : Piece.channels ∈ F) (hclock : Piece.clock ∈ F) (hdict : Piece.dict ∈ F) (hengines : Piece.engines ∈ F) (hfns : Piece.fns ∈ F) (hframes : Piece.frames ∈ F) (hfree : Piece.free ∈ F) (hhostMem : Piece.hostMem ∈ F) (hlanes : Piece.lanes ∈ F) (hmill : Piece.mill ∈ F) (hout : Piece.out ∈ F) (hpairTx : Piece.pairTx ∈ F) (hpower : Piece.power ∈ F) (hprun : Piece.prun ∈ F) (hrefusals : Piece.refusals ∈ F) (hresps : Piece.resps ∈ F) (hresvNext : Piece.resvNext ∈ F) (hrst : Piece.rst ∈ F) (hsec : Piece.sec ∈ F) (hsessions : Piece.sessions ∈ F) (hstackSides : Piece.stackSides ∈ F) (htests : Piece.tests ∈ F) (hwaiting : Piece.waiting ∈ F) (hworks : Piece.works ∈ F) (hxacts : Piece.xacts ∈ F) :
    ∃ t, execVendorChallenge via s = .next t ∧ Goes F s t := by
  have go := Goes.refl F s
  unfold execVendorChallenge
  refine ⟨_, rfl, ?_⟩
  repeat' first | with_reducible assumption | with_reducible apply Goes.read

theorem execVendorResponseHi_goes {F : List Piece} (via : Transport) (sig : BitVec 384) (s : State) (harrays : Piece.arrays ∈ F) (hbrims : Piece.brims ∈ F) (hcfg : Piece.cfg ∈ F) (hchannels : Piece.channels ∈ F) (hclock : Piece.clock ∈ F) (hdict : Piece.dict ∈ F) (hengines : Piece.engines ∈ F) (hfns : Piece.fns ∈ F) (hframes : Piece.frames ∈ F) (hfree : Piece.free ∈ F) (hhostMem : Piece.hostMem ∈ F) (hlanes : Piece.lanes ∈ F) (hmill : Piece.mill ∈ F) (hout : Piece.out ∈ F) (hpairTx : Piece.pairTx ∈ F) (hpower : Piece.power ∈ F) (hprun : Piece.prun ∈ F) (hrefusals : Piece.refusals ∈ F) (hresps : Piece.resps ∈ F) (hresvNext : Piece.resvNext ∈ F) (hrst : Piece.rst ∈ F) (hsec : Piece.sec ∈ F) (hsessions : Piece.sessions ∈ F) (hstackSides : Piece.stackSides ∈ F) (htests : Piece.tests ∈ F) (hwaiting : Piece.waiting ∈ F) (hworks : Piece.works ∈ F) (hxacts : Piece.xacts ∈ F) :
    ∃ t, execVendorResponseHi via sig s = .next t ∧ Goes F s t := by
  have go := Goes.refl F s
  unfold execVendorResponseHi
  refine ⟨_, rfl, ?_⟩
  repeat' first | with_reducible assumption | with_reducible apply Goes.write

theorem execDebugUnlock_goes {F : List Piece} (via : Transport) (v : Bool) (s : State) (harrays : Piece.arrays ∈ F) (hbrims : Piece.brims ∈ F) (hcfg : Piece.cfg ∈ F) (hchannels : Piece.channels ∈ F) (hclock : Piece.clock ∈ F) (hdict : Piece.dict ∈ F) (hengines : Piece.engines ∈ F) (hfns : Piece.fns ∈ F) (hframes : Piece.frames ∈ F) (hfree : Piece.free ∈ F) (hhostMem : Piece.hostMem ∈ F) (hlanes : Piece.lanes ∈ F) (hmill : Piece.mill ∈ F) (hout : Piece.out ∈ F) (hpairTx : Piece.pairTx ∈ F) (hpower : Piece.power ∈ F) (hprun : Piece.prun ∈ F) (hrefusals : Piece.refusals ∈ F) (hresps : Piece.resps ∈ F) (hresvNext : Piece.resvNext ∈ F) (hrst : Piece.rst ∈ F) (hsec : Piece.sec ∈ F) (hsessions : Piece.sessions ∈ F) (hstackSides : Piece.stackSides ∈ F) (htests : Piece.tests ∈ F) (hwaiting : Piece.waiting ∈ F) (hworks : Piece.works ∈ F) (hxacts : Piece.xacts ∈ F) :
    ∃ t, execDebugUnlock via v s = .next t ∧ Goes F s t := by
  have go := Goes.refl F s
  unfold execDebugUnlock
  refine ⟨_, rfl, ?_⟩
  repeat' first | with_reducible assumption | with_reducible apply Goes.write

theorem execFwErase_goes {F : List Piece} (via : Transport) (s : State) (harrays : Piece.arrays ∈ F) (hbrims : Piece.brims ∈ F) (hcfg : Piece.cfg ∈ F) (hchannels : Piece.channels ∈ F) (hclock : Piece.clock ∈ F) (hdict : Piece.dict ∈ F) (hengines : Piece.engines ∈ F) (hfns : Piece.fns ∈ F) (hframes : Piece.frames ∈ F) (hfree : Piece.free ∈ F) (hhostMem : Piece.hostMem ∈ F) (hlanes : Piece.lanes ∈ F) (hmill : Piece.mill ∈ F) (hout : Piece.out ∈ F) (hpairTx : Piece.pairTx ∈ F) (hpower : Piece.power ∈ F) (hprun : Piece.prun ∈ F) (hrefusals : Piece.refusals ∈ F) (hresps : Piece.resps ∈ F) (hresvNext : Piece.resvNext ∈ F) (hrst : Piece.rst ∈ F) (hsec : Piece.sec ∈ F) (hsessions : Piece.sessions ∈ F) (hstackSides : Piece.stackSides ∈ F) (htests : Piece.tests ∈ F) (hwaiting : Piece.waiting ∈ F) (hworks : Piece.works ∈ F) (hxacts : Piece.xacts ∈ F) :
    ∃ t, execFwErase via s = .next t ∧ Goes F s t := by
  have go := Goes.refl F s
  unfold execFwErase
  refine ⟨_, rfl, ?_⟩
  repeat' first | with_reducible assumption | with_reducible apply Goes.write

theorem execFwData_goes {F : List Piece} (via : Transport) (data : BitVec 512) (s : State) (harrays : Piece.arrays ∈ F) (hbrims : Piece.brims ∈ F) (hcfg : Piece.cfg ∈ F) (hchannels : Piece.channels ∈ F) (hclock : Piece.clock ∈ F) (hdict : Piece.dict ∈ F) (hengines : Piece.engines ∈ F) (hfns : Piece.fns ∈ F) (hframes : Piece.frames ∈ F) (hfree : Piece.free ∈ F) (hhostMem : Piece.hostMem ∈ F) (hlanes : Piece.lanes ∈ F) (hmill : Piece.mill ∈ F) (hout : Piece.out ∈ F) (hpairTx : Piece.pairTx ∈ F) (hpower : Piece.power ∈ F) (hprun : Piece.prun ∈ F) (hrefusals : Piece.refusals ∈ F) (hresps : Piece.resps ∈ F) (hresvNext : Piece.resvNext ∈ F) (hrst : Piece.rst ∈ F) (hsec : Piece.sec ∈ F) (hsessions : Piece.sessions ∈ F) (hstackSides : Piece.stackSides ∈ F) (htests : Piece.tests ∈ F) (hwaiting : Piece.waiting ∈ F) (hworks : Piece.works ∈ F) (hxacts : Piece.xacts ∈ F) :
    ∃ t, execFwData via data s = .next t ∧ Goes F s t := by
  have go := Goes.refl F s
  unfold execFwData
  refine ⟨_, rfl, ?_⟩
  repeat' first | with_reducible assumption | with_reducible apply Goes.write

theorem execFwVerify_goes {F : List Piece} (via : Transport) (s : State) (harrays : Piece.arrays ∈ F) (hbrims : Piece.brims ∈ F) (hcfg : Piece.cfg ∈ F) (hchannels : Piece.channels ∈ F) (hclock : Piece.clock ∈ F) (hdict : Piece.dict ∈ F) (hengines : Piece.engines ∈ F) (hfns : Piece.fns ∈ F) (hframes : Piece.frames ∈ F) (hfree : Piece.free ∈ F) (hhostMem : Piece.hostMem ∈ F) (hlanes : Piece.lanes ∈ F) (hmill : Piece.mill ∈ F) (hout : Piece.out ∈ F) (hpairTx : Piece.pairTx ∈ F) (hpower : Piece.power ∈ F) (hprun : Piece.prun ∈ F) (hrefusals : Piece.refusals ∈ F) (hresps : Piece.resps ∈ F) (hresvNext : Piece.resvNext ∈ F) (hrst : Piece.rst ∈ F) (hsec : Piece.sec ∈ F) (hsessions : Piece.sessions ∈ F) (hstackSides : Piece.stackSides ∈ F) (htests : Piece.tests ∈ F) (hwaiting : Piece.waiting ∈ F) (hworks : Piece.works ∈ F) (hxacts : Piece.xacts ∈ F) :
    ∃ t, execFwVerify via s = .next t ∧ Goes F s t := by
  have go := Goes.refl F s
  unfold execFwVerify
  refine ⟨_, rfl, ?_⟩
  repeat' first | with_reducible assumption | with_reducible apply Goes.write

theorem execFwActivate_goes {F : List Piece} (via : Transport) (s : State) (harrays : Piece.arrays ∈ F) (hbrims : Piece.brims ∈ F) (hcfg : Piece.cfg ∈ F) (hchannels : Piece.channels ∈ F) (hclock : Piece.clock ∈ F) (hdict : Piece.dict ∈ F) (hengines : Piece.engines ∈ F) (hfns : Piece.fns ∈ F) (hframes : Piece.frames ∈ F) (hfree : Piece.free ∈ F) (hhostMem : Piece.hostMem ∈ F) (hlanes : Piece.lanes ∈ F) (hmill : Piece.mill ∈ F) (hout : Piece.out ∈ F) (hpairTx : Piece.pairTx ∈ F) (hpower : Piece.power ∈ F) (hprun : Piece.prun ∈ F) (hrefusals : Piece.refusals ∈ F) (hresps : Piece.resps ∈ F) (hresvNext : Piece.resvNext ∈ F) (hrst : Piece.rst ∈ F) (hsec : Piece.sec ∈ F) (hsessions : Piece.sessions ∈ F) (hstackSides : Piece.stackSides ∈ F) (htests : Piece.tests ∈ F) (hwaiting : Piece.waiting ∈ F) (hworks : Piece.works ∈ F) (hxacts : Piece.xacts ∈ F) :
    ∃ t, execFwActivate via s = .next t ∧ Goes F s t := by
  have go := Goes.refl F s
  unfold execFwActivate
  refine ⟨_, rfl, ?_⟩
  repeat' first | with_reducible assumption | with_reducible apply Goes.write

theorem execFwConfirm_goes {F : List Piece} (via : Transport) (s : State) (harrays : Piece.arrays ∈ F) (hbrims : Piece.brims ∈ F) (hcfg : Piece.cfg ∈ F) (hchannels : Piece.channels ∈ F) (hclock : Piece.clock ∈ F) (hdict : Piece.dict ∈ F) (hengines : Piece.engines ∈ F) (hfns : Piece.fns ∈ F) (hframes : Piece.frames ∈ F) (hfree : Piece.free ∈ F) (hhostMem : Piece.hostMem ∈ F) (hlanes : Piece.lanes ∈ F) (hmill : Piece.mill ∈ F) (hout : Piece.out ∈ F) (hpairTx : Piece.pairTx ∈ F) (hpower : Piece.power ∈ F) (hprun : Piece.prun ∈ F) (hrefusals : Piece.refusals ∈ F) (hresps : Piece.resps ∈ F) (hresvNext : Piece.resvNext ∈ F) (hrst : Piece.rst ∈ F) (hsec : Piece.sec ∈ F) (hsessions : Piece.sessions ∈ F) (hstackSides : Piece.stackSides ∈ F) (htests : Piece.tests ∈ F) (hwaiting : Piece.waiting ∈ F) (hworks : Piece.works ∈ F) (hxacts : Piece.xacts ∈ F) :
    ∃ t, execFwConfirm via s = .next t ∧ Goes F s t := by
  have go := Goes.refl F s
  unfold execFwConfirm
  refine ⟨_, rfl, ?_⟩
  repeat' first | with_reducible assumption | with_reducible apply Goes.write

theorem execXferCtrl_goes {F : List Piece} (via : Transport) (v : BitVec 16) (s : State) (harrays : Piece.arrays ∈ F) (hbrims : Piece.brims ∈ F) (hcfg : Piece.cfg ∈ F) (hchannels : Piece.channels ∈ F) (hclock : Piece.clock ∈ F) (hdict : Piece.dict ∈ F) (hengines : Piece.engines ∈ F) (hfns : Piece.fns ∈ F) (hframes : Piece.frames ∈ F) (hfree : Piece.free ∈ F) (hhostMem : Piece.hostMem ∈ F) (hlanes : Piece.lanes ∈ F) (hmill : Piece.mill ∈ F) (hout : Piece.out ∈ F) (hpairTx : Piece.pairTx ∈ F) (hpower : Piece.power ∈ F) (hprun : Piece.prun ∈ F) (hrefusals : Piece.refusals ∈ F) (hresps : Piece.resps ∈ F) (hresvNext : Piece.resvNext ∈ F) (hrst : Piece.rst ∈ F) (hsec : Piece.sec ∈ F) (hsessions : Piece.sessions ∈ F) (hstackSides : Piece.stackSides ∈ F) (htests : Piece.tests ∈ F) (hwaiting : Piece.waiting ∈ F) (hworks : Piece.works ∈ F) (hxacts : Piece.xacts ∈ F) :
    ∃ t, execXferCtrl via v s = .next t ∧ Goes F s t := by
  have go := Goes.refl F s
  unfold execXferCtrl
  refine ⟨_, rfl, ?_⟩
  repeat' first | with_reducible assumption | with_reducible apply Goes.write

end Sys2Proof.Machine
end

