-- ==== Sys2Proof/Laws/Transports.lean ====
section
/-! SUPPORT. What the operations of Machine/Transports.lean may change, and that each keeps what the model keeps throughout. -/

namespace Sys2Proof.Machine

theorem Goes.udp {F : List Piece} {s₀ s : State} (bs : List Byte) (op : Nat) (harrays : Piece.arrays ∈ F) (hbrims : Piece.brims ∈ F) (hcfg : Piece.cfg ∈ F) (hchannels : Piece.channels ∈ F) (hclock : Piece.clock ∈ F) (hdict : Piece.dict ∈ F) (hengines : Piece.engines ∈ F) (hfns : Piece.fns ∈ F) (hframes : Piece.frames ∈ F) (hfree : Piece.free ∈ F) (hhostMem : Piece.hostMem ∈ F) (hlanes : Piece.lanes ∈ F) (hmill : Piece.mill ∈ F) (hout : Piece.out ∈ F) (hpairTx : Piece.pairTx ∈ F) (hpower : Piece.power ∈ F) (hprun : Piece.prun ∈ F) (hrefusals : Piece.refusals ∈ F) (hresps : Piece.resps ∈ F) (hresvNext : Piece.resvNext ∈ F) (hrst : Piece.rst ∈ F) (hsec : Piece.sec ∈ F) (hsessions : Piece.sessions ∈ F) (hstackSides : Piece.stackSides ∈ F) (htests : Piece.tests ∈ F) (hwaiting : Piece.waiting ∈ F) (hworks : Piece.works ∈ F) (hxacts : Piece.xacts ∈ F)
    (go : Goes F s₀ s) : Goes F s₀ (State.udp s bs op) := by
  unfold State.udp
  repeat' first
    | with_reducible assumption
    | (intro)
    | with_reducible apply Goes.bump
    | with_reducible apply Goes.emit
    | with_reducible apply Goes.enter
    | with_reducible apply Goes.ite
    | split

theorem execUdpRead_goes {F : List Piece} (dgram : List Byte) (s : State) (harrays : Piece.arrays ∈ F) (hbrims : Piece.brims ∈ F) (hcfg : Piece.cfg ∈ F) (hchannels : Piece.channels ∈ F) (hclock : Piece.clock ∈ F) (hdict : Piece.dict ∈ F) (hengines : Piece.engines ∈ F) (hfns : Piece.fns ∈ F) (hframes : Piece.frames ∈ F) (hfree : Piece.free ∈ F) (hhostMem : Piece.hostMem ∈ F) (hlanes : Piece.lanes ∈ F) (hmill : Piece.mill ∈ F) (hout : Piece.out ∈ F) (hpairTx : Piece.pairTx ∈ F) (hpower : Piece.power ∈ F) (hprun : Piece.prun ∈ F) (hrefusals : Piece.refusals ∈ F) (hresps : Piece.resps ∈ F) (hresvNext : Piece.resvNext ∈ F) (hrst : Piece.rst ∈ F) (hsec : Piece.sec ∈ F) (hsessions : Piece.sessions ∈ F) (hstackSides : Piece.stackSides ∈ F) (htests : Piece.tests ∈ F) (hwaiting : Piece.waiting ∈ F) (hworks : Piece.works ∈ F) (hxacts : Piece.xacts ∈ F) :
    ∃ t, execUdpRead dgram s = .next t ∧ Goes F s t := by
  have go := Goes.refl F s
  unfold execUdpRead
  refine ⟨_, rfl, ?_⟩
  repeat' first | with_reducible assumption | with_reducible apply Goes.udp

theorem execUdpWrite_goes {F : List Piece} (dgram : List Byte) (s : State) (harrays : Piece.arrays ∈ F) (hbrims : Piece.brims ∈ F) (hcfg : Piece.cfg ∈ F) (hchannels : Piece.channels ∈ F) (hclock : Piece.clock ∈ F) (hdict : Piece.dict ∈ F) (hengines : Piece.engines ∈ F) (hfns : Piece.fns ∈ F) (hframes : Piece.frames ∈ F) (hfree : Piece.free ∈ F) (hhostMem : Piece.hostMem ∈ F) (hlanes : Piece.lanes ∈ F) (hmill : Piece.mill ∈ F) (hout : Piece.out ∈ F) (hpairTx : Piece.pairTx ∈ F) (hpower : Piece.power ∈ F) (hprun : Piece.prun ∈ F) (hrefusals : Piece.refusals ∈ F) (hresps : Piece.resps ∈ F) (hresvNext : Piece.resvNext ∈ F) (hrst : Piece.rst ∈ F) (hsec : Piece.sec ∈ F) (hsessions : Piece.sessions ∈ F) (hstackSides : Piece.stackSides ∈ F) (htests : Piece.tests ∈ F) (hwaiting : Piece.waiting ∈ F) (hworks : Piece.works ∈ F) (hxacts : Piece.xacts ∈ F) :
    ∃ t, execUdpWrite dgram s = .next t ∧ Goes F s t := by
  have go := Goes.refl F s
  unfold execUdpWrite
  refine ⟨_, rfl, ?_⟩
  repeat' first | with_reducible assumption | with_reducible apply Goes.udp

theorem execMctpDictionaryMessage_goes {F : List Piece} (b : Binding) (session : Option Nat) (msg : List Byte) (s : State) (harrays : Piece.arrays ∈ F) (hbrims : Piece.brims ∈ F) (hcfg : Piece.cfg ∈ F) (hchannels : Piece.channels ∈ F) (hclock : Piece.clock ∈ F) (hdict : Piece.dict ∈ F) (hengines : Piece.engines ∈ F) (hfns : Piece.fns ∈ F) (hframes : Piece.frames ∈ F) (hfree : Piece.free ∈ F) (hhostMem : Piece.hostMem ∈ F) (hlanes : Piece.lanes ∈ F) (hmill : Piece.mill ∈ F) (hout : Piece.out ∈ F) (hpairTx : Piece.pairTx ∈ F) (hpower : Piece.power ∈ F) (hprun : Piece.prun ∈ F) (hrefusals : Piece.refusals ∈ F) (hresps : Piece.resps ∈ F) (hresvNext : Piece.resvNext ∈ F) (hrst : Piece.rst ∈ F) (hsec : Piece.sec ∈ F) (hsessions : Piece.sessions ∈ F) (hstackSides : Piece.stackSides ∈ F) (htests : Piece.tests ∈ F) (hwaiting : Piece.waiting ∈ F) (hworks : Piece.works ∈ F) (hxacts : Piece.xacts ∈ F) :
    ∃ t, execMctpDictionaryMessage b session msg s = .next t ∧ Goes F s t := by
  have go := Goes.refl F s
  unfold execMctpDictionaryMessage
  try dsimp only
  repeat' first
    | refine ⟨_, rfl, ?_⟩
    | with_reducible assumption
    | (intro)
    | with_reducible apply Goes.enter
    | with_reducible apply Goes.ite
    | with_reducible apply Goes.elim
    | split

theorem execUartFrame_goes {F : List Piece} (frame : List Byte) (s : State) (harrays : Piece.arrays ∈ F) (hbrims : Piece.brims ∈ F) (hcfg : Piece.cfg ∈ F) (hchannels : Piece.channels ∈ F) (hclock : Piece.clock ∈ F) (hdict : Piece.dict ∈ F) (hengines : Piece.engines ∈ F) (hfns : Piece.fns ∈ F) (hframes : Piece.frames ∈ F) (hfree : Piece.free ∈ F) (hhostMem : Piece.hostMem ∈ F) (hlanes : Piece.lanes ∈ F) (hmill : Piece.mill ∈ F) (hout : Piece.out ∈ F) (hpairTx : Piece.pairTx ∈ F) (hpower : Piece.power ∈ F) (hprun : Piece.prun ∈ F) (hrefusals : Piece.refusals ∈ F) (hresps : Piece.resps ∈ F) (hresvNext : Piece.resvNext ∈ F) (hrst : Piece.rst ∈ F) (hsec : Piece.sec ∈ F) (hsessions : Piece.sessions ∈ F) (hstackSides : Piece.stackSides ∈ F) (htests : Piece.tests ∈ F) (hwaiting : Piece.waiting ∈ F) (hworks : Piece.works ∈ F) (hxacts : Piece.xacts ∈ F) :
    ∃ t, execUartFrame frame s = .next t ∧ Goes F s t := by
  have go := Goes.refl F s
  unfold execUartFrame
  try dsimp only
  repeat' first
    | refine ⟨_, rfl, ?_⟩
    | with_reducible assumption
    | (intro)
    | with_reducible apply Goes.enter
    | with_reducible apply Goes.ite
    | split

theorem execWindowRead_goes {F : List Piece} (f : Fn) (irq : Bool) (entry : BitVec 24) (s : State) (harrays : Piece.arrays ∈ F) (hbrims : Piece.brims ∈ F) (hcfg : Piece.cfg ∈ F) (hchannels : Piece.channels ∈ F) (hclock : Piece.clock ∈ F) (hdict : Piece.dict ∈ F) (hengines : Piece.engines ∈ F) (hfns : Piece.fns ∈ F) (hframes : Piece.frames ∈ F) (hfree : Piece.free ∈ F) (hhostMem : Piece.hostMem ∈ F) (hlanes : Piece.lanes ∈ F) (hmill : Piece.mill ∈ F) (hout : Piece.out ∈ F) (hpairTx : Piece.pairTx ∈ F) (hpower : Piece.power ∈ F) (hprun : Piece.prun ∈ F) (hrefusals : Piece.refusals ∈ F) (hresps : Piece.resps ∈ F) (hresvNext : Piece.resvNext ∈ F) (hrst : Piece.rst ∈ F) (hsec : Piece.sec ∈ F) (hsessions : Piece.sessions ∈ F) (hstackSides : Piece.stackSides ∈ F) (htests : Piece.tests ∈ F) (hwaiting : Piece.waiting ∈ F) (hworks : Piece.works ∈ F) (hxacts : Piece.xacts ∈ F) :
    ∃ t, execWindowRead f irq entry s = .next t ∧ Goes F s t := by
  have go := Goes.refl F s
  unfold execWindowRead
  refine ⟨_, rfl, ?_⟩
  repeat' first | with_reducible assumption | with_reducible apply Goes.read

theorem execWindowWrite_goes {F : List Piece} (f : Fn) (irq : Bool) (entry : BitVec 24) (value : BitVec 512) (s : State) (harrays : Piece.arrays ∈ F) (hbrims : Piece.brims ∈ F) (hcfg : Piece.cfg ∈ F) (hchannels : Piece.channels ∈ F) (hclock : Piece.clock ∈ F) (hdict : Piece.dict ∈ F) (hengines : Piece.engines ∈ F) (hfns : Piece.fns ∈ F) (hframes : Piece.frames ∈ F) (hfree : Piece.free ∈ F) (hhostMem : Piece.hostMem ∈ F) (hlanes : Piece.lanes ∈ F) (hmill : Piece.mill ∈ F) (hout : Piece.out ∈ F) (hpairTx : Piece.pairTx ∈ F) (hpower : Piece.power ∈ F) (hprun : Piece.prun ∈ F) (hrefusals : Piece.refusals ∈ F) (hresps : Piece.resps ∈ F) (hresvNext : Piece.resvNext ∈ F) (hrst : Piece.rst ∈ F) (hsec : Piece.sec ∈ F) (hsessions : Piece.sessions ∈ F) (hstackSides : Piece.stackSides ∈ F) (htests : Piece.tests ∈ F) (hwaiting : Piece.waiting ∈ F) (hworks : Piece.works ∈ F) (hxacts : Piece.xacts ∈ F) :
    ∃ t, execWindowWrite f irq entry value s = .next t ∧ Goes F s t := by
  have go := Goes.refl F s
  unfold execWindowWrite
  refine ⟨_, rfl, ?_⟩
  repeat' first
    | with_reducible assumption
    | (intro)
    | with_reducible apply Goes.write

theorem Goes.refused {F : List Piece} {s₀ s : State} (r : Refused) (harrays : Piece.arrays ∈ F) (hbrims : Piece.brims ∈ F) (hdict : Piece.dict ∈ F) (hfns : Piece.fns ∈ F) (hfree : Piece.free ∈ F) (hhostMem : Piece.hostMem ∈ F) (hmill : Piece.mill ∈ F) (hout : Piece.out ∈ F) (hpower : Piece.power ∈ F) (hprun : Piece.prun ∈ F) (hworks : Piece.works ∈ F)
    (go : Goes F s₀ s) : Goes F s₀ (State.refused s r) := by
  unfold State.refused
  dsimp only
  repeat' first
    | with_reducible assumption
    | with_reducible apply Goes.writeResult
    | (intro)
    | with_reducible apply Goes.answer
    | with_reducible apply Goes.closeOutputs
    | with_reducible apply Goes.completeCmd
    | with_reducible apply Goes.hostWrite
    | with_reducible apply Goes.writeRecord
    | with_reducible apply Goes.elim
    | split

theorem execRefusalAnswer_goes {F : List Piece} (s : State) (harrays : Piece.arrays ∈ F) (hbrims : Piece.brims ∈ F) (hclock : Piece.clock ∈ F) (hdict : Piece.dict ∈ F) (hfns : Piece.fns ∈ F) (hfree : Piece.free ∈ F) (hhostMem : Piece.hostMem ∈ F) (hmill : Piece.mill ∈ F) (hout : Piece.out ∈ F) (hpower : Piece.power ∈ F) (hprun : Piece.prun ∈ F) (hrefusals : Piece.refusals ∈ F) (hworks : Piece.works ∈ F) :
    ∃ t, execRefusalAnswer s = .next t ∧ Goes F s t := by
  have go := Goes.refl F s
  unfold execRefusalAnswer
  refine ⟨_, rfl, ?_⟩
  repeat' first
    | with_reducible assumption
    | (intro)
    | with_reducible apply Goes.reach
    | with_reducible apply Goes.refused
    | split
    | with_reducible apply Goes.refusalsTo

theorem execMirrorRecord_goes {F : List Piece} (s : State) (hmill : Piece.mill ∈ F) :
    ∃ t, execMirrorRecord s = .next t ∧ Goes F s t := by
  have go := Goes.refl F s
  unfold execMirrorRecord
  refine ⟨_, rfl, ?_⟩
  repeat' first
    | with_reducible assumption
    | exact id
    | with_reducible apply Goes.ite
    | split
    | with_reducible apply Goes.millTo

theorem execMirrorAck_goes {F : List Piece} (s : State) (harrays : Piece.arrays ∈ F) (hbrims : Piece.brims ∈ F) (hcfg : Piece.cfg ∈ F) (hchannels : Piece.channels ∈ F) (hclock : Piece.clock ∈ F) (hdict : Piece.dict ∈ F) (hengines : Piece.engines ∈ F) (hfns : Piece.fns ∈ F) (hframes : Piece.frames ∈ F) (hfree : Piece.free ∈ F) (hhostMem : Piece.hostMem ∈ F) (hlanes : Piece.lanes ∈ F) (hmill : Piece.mill ∈ F) (hout : Piece.out ∈ F) (hpairTx : Piece.pairTx ∈ F) (hpower : Piece.power ∈ F) (hprun : Piece.prun ∈ F) (hrefusals : Piece.refusals ∈ F) (hresps : Piece.resps ∈ F) (hresvNext : Piece.resvNext ∈ F) (hrst : Piece.rst ∈ F) (hsec : Piece.sec ∈ F) (hstackSides : Piece.stackSides ∈ F) (htests : Piece.tests ∈ F) (hwaiting : Piece.waiting ∈ F) (hworks : Piece.works ∈ F) (hxacts : Piece.xacts ∈ F) :
    ∃ t, execMirrorAck s = .next t ∧ Goes F s t := by
  have go := Goes.refl F s
  unfold execMirrorAck
  refine ⟨_, rfl, ?_⟩
  repeat' first
    | with_reducible assumption
    | with_reducible apply Goes.drain
    | with_reducible apply Goes.ite

theorem execStandbyFault_goes {F : List Piece} (s : State) (harrays : Piece.arrays ∈ F) (hbrims : Piece.brims ∈ F) (hcfg : Piece.cfg ∈ F) (hchannels : Piece.channels ∈ F) (hclock : Piece.clock ∈ F) (hdict : Piece.dict ∈ F) (hengines : Piece.engines ∈ F) (hfns : Piece.fns ∈ F) (hframes : Piece.frames ∈ F) (hfree : Piece.free ∈ F) (hhostMem : Piece.hostMem ∈ F) (hlanes : Piece.lanes ∈ F) (hmill : Piece.mill ∈ F) (hout : Piece.out ∈ F) (hpairTx : Piece.pairTx ∈ F) (hports : Piece.ports ∈ F) (hpower : Piece.power ∈ F) (hprun : Piece.prun ∈ F) (hrefusals : Piece.refusals ∈ F) (hresps : Piece.resps ∈ F) (hresvNext : Piece.resvNext ∈ F) (hretired : Piece.retired ∈ F) (hrst : Piece.rst ∈ F) (hsec : Piece.sec ∈ F) (hsplits : Piece.splits ∈ F) (hstackSides : Piece.stackSides ∈ F) (hswitches : Piece.switches ∈ F) (htests : Piece.tests ∈ F) (hwaiting : Piece.waiting ∈ F) (hworks : Piece.works ∈ F) (hxacts : Piece.xacts ∈ F) :
    ∃ t, execStandbyFault s = .next t ∧ Goes F s t := by
  have go := Goes.refl F s
  unfold execStandbyFault
  refine ⟨_, rfl, ?_⟩
  try dsimp only
  repeat' first
    | with_reducible assumption
    | exact id
    | with_reducible apply Goes.afterFault
    | with_reducible apply Goes.drain
    | with_reducible apply Goes.dropAccesses
    | with_reducible apply Goes.noteFault
    | with_reducible apply Goes.setReg
    | with_reducible apply Goes.warmReset
    | with_reducible apply Goes.ite
    | split
    | with_reducible apply Goes.millTo

theorem execMillinerTakeover_goes {F : List Piece} (s : State) (harrays : Piece.arrays ∈ F) (hbrims : Piece.brims ∈ F) (hcfg : Piece.cfg ∈ F) (hchannels : Piece.channels ∈ F) (hclock : Piece.clock ∈ F) (hdict : Piece.dict ∈ F) (hengines : Piece.engines ∈ F) (hfns : Piece.fns ∈ F) (hframes : Piece.frames ∈ F) (hfree : Piece.free ∈ F) (hhostMem : Piece.hostMem ∈ F) (hlanes : Piece.lanes ∈ F) (hmill : Piece.mill ∈ F) (hout : Piece.out ∈ F) (hpairTx : Piece.pairTx ∈ F) (hpower : Piece.power ∈ F) (hprun : Piece.prun ∈ F) (hrefusals : Piece.refusals ∈ F) (hresps : Piece.resps ∈ F) (hresvNext : Piece.resvNext ∈ F) (hrst : Piece.rst ∈ F) (hsec : Piece.sec ∈ F) (hsessions : Piece.sessions ∈ F) (hstackSides : Piece.stackSides ∈ F) (htests : Piece.tests ∈ F) (hwaiting : Piece.waiting ∈ F) (hworks : Piece.works ∈ F) (hxacts : Piece.xacts ∈ F) :
    ∃ t, execMillinerTakeover s = .next t ∧ Goes F s t := by
  have go := Goes.refl F s
  unfold execMillinerTakeover
  refine ⟨_, rfl, ?_⟩
  repeat' first
    | with_reducible assumption
    | (intro)
    | with_reducible apply Goes.perform
    | with_reducible apply Goes.takeover
    | with_reducible apply Goes.write
    | with_reducible apply Goes.ite
    | with_reducible apply Goes.foldl

end Sys2Proof.Machine
end

