-- ==== Sys2Proof/Laws/Dispatch.lean ====
section
/-! SUPPORT. Every command completes, and changes at most every piece of the state but the queue of commands. -/

namespace Sys2Proof.Machine

/-- The pieces of the state but the queue of commands. -/
def Piece.device : List Piece :=
  [.free, .clock, .dict, .mill, .rst, .sessions, .conns, .sec, .fns, .ports, .prun, .refusals, .hostMem, .brims, .frames, .cfg, .taps, .lanes, .power,
    .waiting, .channels, .resps, .nextResp, .xacts, .retired, .stackSides, .switches, .resv, .resvNext, .splits, .hbm, .poison, .works, .arrays, .engines, .mismatches, .tests, .pairTx, .scrub, .out]

/-- Every command answers a next state, and leaves the queue alone. -/
theorem exec_goes (c : Instr) (s : State) : ∃ t, exec c s = .next t ∧ Goes Piece.device s t := by
  have h (p : Piece) (hp : p ≠ .pending) : p ∈ Piece.device := by revert hp; cases p <;> decide
  cases c with
  | refusalAnswer => apply execRefusalAnswer_goes  <;> exact h _ nofun
  | dictWrite via entry value => apply execDictWrite_goes via entry value <;> exact h _ nofun
  | sqTail f v => apply execSqTail_goes f v; exact h _ nofun
  | cqHead f v => apply execCqHead_goes f v <;> exact h _ nofun
  | lateQHead f v => apply execLateQHead_goes f v; exact h _ nofun
  | ringEnable f => apply execRingEnable_goes f <;> exact h _ nofun
  | ringDisable f => apply execRingDisable_goes f <;> exact h _ nofun
  | submissionFetch f entry => apply execSubmissionFetch_goes f entry <;> exact h _ nofun
  | fetchError f c => apply execFetchError_goes f c; exact h _ nofun
  | runRequest p bindings => apply execRunRequest_goes p bindings <;> exact h _ nofun
  | load p c image => apply execLoad_goes p c image <;> exact h _ nofun
  | unload p => apply execUnload_goes p <;> exact h _ nofun
  | unloadComplete p => apply execUnloadComplete_goes p <;> exact h _ nofun
  | commandIssue c logs => apply execCommandIssue_goes c logs <;> exact h _ nofun
  | skipMarkerPop c => apply execSkipMarkerPop_goes c <;> exact h _ nofun
  | nop c => apply execNop_goes c <;> exact h _ nofun
  | ctrSet c => apply execCtrSet_goes c <;> exact h _ nofun
  | ctrAdd c => apply execCtrAdd_goes c <;> exact h _ nofun
  | ctrLoad c stalls => apply execCtrLoad_goes c stalls <;> exact h _ nofun
  | notify c => apply execNotify_goes c <;> exact h _ nofun
  | move c stalls => apply execMove_goes c stalls <;> exact h _ nofun
  | slice c stalls => apply execSlice_goes c stalls <;> exact h _ nofun
  | concat c stalls => apply execConcat_goes c stalls <;> exact h _ nofun
  | gather c stalls => apply execGather_goes c stalls <;> exact h _ nofun
  | scatter c stalls => apply execScatter_goes c stalls <;> exact h _ nofun
  | tee c stalls => apply execTee_goes c stalls <;> exact h _ nofun
  | fill c stalls => apply execFill_goes c stalls <;> exact h _ nofun
  | matmul c => apply execMatmul_goes c <;> exact h _ nofun
  | matmulBatched c => apply execMatmulBatched_goes c <;> exact h _ nofun
  | vecChain c => apply execVecChain_goes c <;> exact h _ nofun
  | rowOp c => apply execRowOp_goes c <;> exact h _ nofun
  | colReduce c => apply execColReduce_goes c <;> exact h _ nofun
  | laccSum c => apply execLaccSum_goes c <;> exact h _ nofun
  | allReduce c remote lost odd stalls => apply execAllReduce_goes c remote lost odd stalls <;> exact h _ nofun
  | allGather c remote lost odd stalls => apply execAllGather_goes c remote lost odd stalls <;> exact h _ nofun
  | reduceScatter c remote lost odd stalls => apply execReduceScatter_goes c remote lost odd stalls <;> exact h _ nofun
  | broadcast c remote lost odd stalls => apply execBroadcast_goes c remote lost odd stalls <;> exact h _ nofun
  | brimStage c ce ue stalls => apply execBrimStage_goes c ce ue stalls <;> exact h _ nofun
  | fused c ce ue stalls => apply execFused_goes c ce ue stalls <;> exact h _ nofun
  | commandComplete c => apply execCommandComplete_goes c <;> exact h _ nofun
  | runComplete p run => apply execRunComplete_goes p run <;> exact h _ nofun
  | runTimeLimit p run => apply execRunTimeLimit_goes p run <;> exact h _ nofun
  | waitForSample p => apply execWaitForSample_goes p <;> exact h _ nofun
  | blockStart die tile late held starved => apply execBlockStart_goes die tile late held starved <;> exact h _ nofun
  | halfRelease die tile => apply execHalfRelease_goes die tile <;> exact h _ nofun
  | transferIssue c fin die popped back => apply execTransferIssue_goes c fin die popped back <;> exact h _ nofun
  | outputWriteIssue c fin die => apply execOutputWriteIssue_goes c fin die <;> exact h _ nofun
  | rateWindow c fin die popped back late => apply execRateWindow_goes c fin die popped back late <;> exact h _ nofun
  | arbitrationGrant point down ply ecc => apply execArbitrationGrant_goes point down ply ecc <;> exact h _ nofun
  | residencyPeriod p => apply execResidencyPeriod_goes p <;> exact h _ nofun
  | rebalancePeriod p heavy memory => apply execRebalancePeriod_goes p heavy memory <;> exact h _ nofun
  | migrationReadbackDone p poisoned differ => apply execMigrationReadbackDone_goes p poisoned differ <;> exact h _ nofun
  | heavyNotice c => apply execHeavyNotice_goes c <;> exact h _ nofun
  | read header room => apply execRead_goes header room <;> exact h _ nofun
  | write header data room bad => apply execWrite_goes header data room bad <;> exact h _ nofun
  | writeInline header room => apply execWriteInline_goes header room <;> exact h _ nofun
  | writeFf header data room bad => apply execWriteFf_goes header data room bad <;> exact h _ nofun
  | message header data room bad => apply execMessage_goes header data room bad <;> exact h _ nofun
  | mcast header data full => apply execMcast_goes header data full <;> exact h _ nofun
  | readData die eng tag lost => apply execReadData_goes die eng tag lost <;> exact h _ nofun
  | settle die eng tag => apply execSettle_goes die eng tag <;> exact h _ nofun
  | headerDiscard switch header ecc => apply execHeaderDiscard_goes switch header ecc <;> exact h _ nofun
  | starveRequest switch row ply down => apply execStarveRequest_goes switch row ply down <;> exact h _ nofun
  | starveReceived switch row ply down => apply execStarveReceived_goes switch row ply down; exact h _ nofun
  | xactTimeout die eng tag => apply execXactTimeout_goes die eng tag <;> exact h _ nofun
  | resvWrite via p entry v => apply execResvWrite_goes via p entry v <;> exact h _ nofun
  | reservationEffect => apply execReservationEffect_goes ; exact h _ nofun
  | dieLeavesService die => apply execDieLeavesService_goes die <;> exact h _ nofun
  | turnaroundClose die => apply execTurnaroundClose_goes die; exact h _ nofun
  | hbmAccess stack ch err => apply execHbmAccess_goes stack ch err <;> exact h _ nofun
  | ordinaryRefresh stack rank pseudo bank => apply execOrdinaryRefresh_goes stack rank pseudo bank <;> exact h _ nofun
  | stackTempRead stack celsius => apply execStackTempRead_goes stack celsius; exact h _ nofun
  | patrolAccess stack err => apply execPatrolAccess_goes stack err <;> exact h _ nofun
  | cmdParityError stack ch retryFails => apply execCmdParityError_goes stack ch retryFails <;> exact h _ nofun
  | rankMigrationBlock stack bad spareFails => apply execRankMigrationBlock_goes stack bad spareFails <;> exact h _ nofun
  | remapFlashCommit stack => apply execRemapFlashCommit_goes stack <;> exact h _ nofun
  | sramScrub die store wrong copy buf => apply execSramScrub_goes die store wrong copy buf <;> exact h _ nofun
  | duplicateCompare c unit differ waited => apply execDuplicateCompare_goes c unit differ waited <;> exact h _ nofun
  | tileTestEnd die tile pass => apply execTileTestEnd_goes die tile pass <;> exact h _ nofun
  | tileState via die tile => apply execTileState_goes via die tile <;> exact h _ nofun
  | collectiveTimeLimit c => apply execCollectiveTimeLimit_goes c <;> exact h _ nofun
  | replayCommit c fails differ copyFails => apply execReplayCommit_goes c fails differ copyFails <;> exact h _ nofun
  | replicaSample g remote missed => apply execReplicaSample_goes g remote missed <;> exact h _ nofun
  | mirrorDigests c digests => apply execMirrorDigests_goes c digests <;> exact h _ nofun
  | mirrorWait c => apply execMirrorWait_goes c <;> exact h _ nofun
  | partitionCreate via p => apply execPartitionCreate_goes via p <;> exact h _ nofun
  | partitionCreateDone p => apply execPartitionCreateDone_goes p <;> exact h _ nofun
  | teardown via p => apply execTeardown_goes via p <;> exact h _ nofun
  | epochEndComplete p => apply execEpochEndComplete_goes p <;> exact h _ nofun
  | epochEndForced p => apply execEpochEndForced_goes p <;> exact h _ nofun
  | teardownScrubDone p => apply execTeardownScrubDone_goes p <;> exact h _ nofun
  | rekeyDone p => apply execRekeyDone_goes p <;> exact h _ nofun
  | getVersion box => apply execGetVersion_goes box <;> exact h _ nofun
  | getCapabilities box => apply execGetCapabilities_goes box <;> exact h _ nofun
  | negotiateAlgorithms box => apply execNegotiateAlgorithms_goes box <;> exact h _ nofun
  | getDigests box => apply execGetDigests_goes box; exact h _ nofun
  | getCertificate box slot off len => apply execGetCertificate_goes box slot off len; exact h _ nofun
  | challenge box slot nonce => apply execChallenge_goes box slot nonce; exact h _ nofun
  | getMeasurements box session index nonce => apply execGetMeasurements_goes box session index nonce <;> exact h _ nofun
  | keyExchange box pub => apply execKeyExchange_goes box pub <;> exact h _ nofun
  | finish id verify => apply execFinish_goes id verify <;> exact h _ nofun
  | keyUpdate id => apply execKeyUpdate_goes id <;> exact h _ nofun
  | heartbeat id => apply execHeartbeat_goes id <;> exact h _ nofun
  | endSession id => apply execEndSession_goes id <;> exact h _ nofun
  | keyProg id f stream set key => apply execKeyProg_goes id f stream set key <;> exact h _ nofun
  | kSetGo id f set => apply execKSetGo_goes id f set <;> exact h _ nofun
  | kSetStop id f set => apply execKSetStop_goes id f set <;> exact h _ nofun
  | query id f => apply execQuery_goes id f <;> exact h _ nofun
  | lockInterfaceRequest id f => apply execLockInterfaceRequest_goes id f <;> exact h _ nofun
  | getDeviceInterfaceReport id f => apply execGetDeviceInterfaceReport_goes id f <;> exact h _ nofun
  | startInterfaceRequest id f => apply execStartInterfaceRequest_goes id f <;> exact h _ nofun
  | stopInterfaceRequest id f => apply execStopInterfaceRequest_goes id f <;> exact h _ nofun
  | ideFailure f => apply execIdeFailure_goes f <;> exact h _ nofun
  | nopDsp die cell => apply execNopDsp_goes die cell <;> exact h _ nofun
  | mul die cell a b => apply execMul_goes die cell a b <;> exact h _ nofun
  | mac die cell a b => apply execMac_goes die cell a b <;> exact h _ nofun
  | msub die cell a b => apply execMsub_goes die cell a b <;> exact h _ nofun
  | loadc die cell c => apply execLoadc_goes die cell c <;> exact h _ nofun
  | addc die cell c => apply execAddc_goes die cell c <;> exact h _ nofun
  | shr die cell => apply execShr_goes die cell <;> exact h _ nofun
  | clr die cell => apply execClr_goes die cell <;> exact h _ nofun
  | dspRepeat die cell => apply execDspRepeat_goes die cell; exact h _ nofun
  | dspEnd die cell => apply execDspEnd_goes die cell; exact h _ nofun
  | dspStart die cell => apply execDspStart_goes die cell; exact h _ nofun
  | dspRst die cell => apply execDspRst_goes die cell; exact h _ nofun
  | portAttach c stage => apply execPortAttach_goes c stage <;> exact h _ nofun
  | fabricEnd c fin data => apply execFabricEnd_goes c fin data <;> exact h _ nofun
  | itemClose c fin data => apply execItemClose_goes c fin data <;> exact h _ nofun
  | portDetach c stage => apply execPortDetach_goes c stage <;> exact h _ nofun
  | brimTimeLimit c stage => apply execBrimTimeLimit_goes c stage <;> exact h _ nofun
  | tapWrite port pin output tap elapsed => apply execTapWrite_goes port pin output tap elapsed; exact h _ nofun
  | loadCommand via die v => apply execLoadCommand_goes via die v <;> exact h _ nofun
  | cfgImageStart parallel => apply execCfgImageStart_goes parallel; exact h _ nofun
  | tpStart die => apply execTpStart_goes die <;> exact h _ nofun
  | tpAbort die => apply execTpAbort_goes die <;> exact h _ nofun
  | loadStart die => apply execLoadStart_goes die <;> exact h _ nofun
  | headerCheck die bytes => apply execHeaderCheck_goes die bytes <;> exact h _ nofun
  | gsrAssert die => apply execGsrAssert_goes die <;> exact h _ nofun
  | frameRecord die bytes => apply execFrameRecord_goes die bytes <;> exact h _ nofun
  | imageDigestCheck die => apply execImageDigestCheck_goes die <;> exact h _ nofun
  | gsrRelease die => apply execGsrRelease_goes die <;> exact h _ nofun
  | pounceFrameRead die cond => apply execPounceFrameRead_goes die cond <;> exact h _ nofun
  | pounceCorrect die => apply execPounceCorrect_goes die <;> exact h _ nofun
  | laneUse via g v => apply execLaneUse_goes via g v <;> exact h _ nofun
  | clockLock g lane => apply execClockLock_goes g lane <;> exact h _ nofun
  | commaAlign g lane inverted => apply execCommaAlign_goes g lane inverted <;> exact h _ nofun
  | alignTimeout g lane => apply execAlignTimeout_goes g lane <;> exact h _ nofun
  | eqDone g lane => apply execEqDone_goes g lane <;> exact h _ nofun
  | ts2 g lane rlane rgroup role pair => apply execTs2_goes g lane rlane rgroup role pair <;> exact h _ nofun
  | ts1 g lane => apply execTs1_goes g lane; exact h _ nofun
  | laneErrorLoss g lane errors => apply execLaneErrorLoss_goes g lane errors <;> exact h _ nofun
  | skipWord g => apply execSkipWord_goes g <;> exact h _ nofun
  | groupUp g => apply execGroupUp_goes g <;> exact h _ nofun
  | groupDown g => apply execGroupDown_goes g <;> exact h _ nofun
  | transferFrame g head packet data crcOk gcmOk => apply execTransferFrame_goes g head packet data crcOk gcmOk <;> exact h _ nofun
  | controlFrame g head lanes => apply execControlFrame_goes g head lanes <;> exact h _ nofun
  | ackDue g => apply execAckDue_goes g <;> exact h _ nofun
  | nak g head => apply execNak_goes g head <;> exact h _ nofun
  | ackTimeout g => apply execAckTimeout_goes g <;> exact h _ nofun
  | restripe g => apply execRestripe_goes g <;> exact h _ nofun
  | resync g => apply execResync_goes g <;> exact h _ nofun
  | inject via g v => apply execInject_goes via g v <;> exact h _ nofun
  | windowRead f irq entry => apply execWindowRead_goes f irq entry <;> exact h _ nofun
  | windowWrite f irq entry value => apply execWindowWrite_goes f irq entry value <;> exact h _ nofun
  | hostReadCompletion f tag c data => apply execHostReadCompletion_goes f tag c data; exact h _ nofun
  | flushReadCompletion f record c => apply execFlushReadCompletion_goes f record c <;> exact h _ nofun
  | msixUnmask f vec => apply execMsixUnmask_goes f vec <;> exact h _ nofun
  | flrVf f => apply execFlrVf_goes f <;> exact h _ nofun
  | flrPf port => apply execFlrPf_goes port <;> exact h _ nofun
  | hotReset port => apply execHotReset_goes port <;> exact h _ nofun
  | currentLimitTick die demand energy advanced => apply execCurrentLimitTick_goes die demand energy advanced <;> exact h _ nofun
  | regulatorRead die mv da energy served => apply execRegulatorRead_goes die mv da energy served <;> exact h _ nofun
  | voltageLoopTick die low high => apply execVoltageLoopTick_goes die low high <;> exact h _ nofun
  | regulatorSettled die => apply execRegulatorSettled_goes die; exact h _ nofun
  | mclkStep p => apply execMclkStep_goes p <;> exact h _ nofun
  | budgetPeriodEnd overhead power => apply execBudgetPeriodEnd_goes overhead power <;> exact h _ nofun
  | pairBudgetExchange ok theirs theirOverhead => apply execPairBudgetExchange_goes ok theirs theirOverhead; exact h _ nofun
  | heavyGuardEnd c => apply execHeavyGuardEnd_goes c <;> exact h _ nofun
  | domainOn die domain => apply execDomainOn_goes die domain <;> exact h _ nofun
  | vrAlert rail => apply execVrAlert_goes rail <;> exact h _ nofun
  | alertClear rail => apply execAlertClear_goes rail <;> exact h _ nofun
  | sensorRead die temp => apply execSensorRead_goes die temp <;> exact h _ nofun
  | tripTimeout die => apply execTripTimeout_goes die <;> exact h _ nofun
  | throttleStep p => apply execThrottleStep_goes p <;> exact h _ nofun
  | coolantRead inlet outlet => apply execCoolantRead_goes inlet outlet <;> exact h _ nofun
  | fallbackRelease => apply execFallbackRelease_goes  <;> exact h _ nofun
  | powerOn => apply execPowerOn_goes  <;> exact h _ nofun
  | porstN level => apply execPorstN_goes level <;> exact h _ nofun
  | wrstN level => apply execWrstN_goes level <;> exact h _ nofun
  | warmReset via v => apply execWarmReset_goes via v <;> exact h _ nofun
  | warmResetStart => apply execWarmResetStart_goes  <;> exact h _ nofun
  | resetStepDone bad => apply execResetStepDone_goes bad <;> exact h _ nofun
  | warmResetHeld => apply execWarmResetHeld_goes  <;> exact h _ nofun
  | watchdogExpiry => apply execWatchdogExpiry_goes  <;> exact h _ nofun
  | coreHalt => apply execCoreHalt_goes  <;> exact h _ nofun
  | rootOfTrustFatal => apply execRootOfTrustFatal_goes  <;> exact h _ nofun
  | heartbeatLoss => apply execHeartbeatLoss_goes  <;> exact h _ nofun
  | handover via v => apply execHandover_goes via v <;> exact h _ nofun
  | millinerTakeover => apply execMillinerTakeover_goes  <;> exact h _ nofun
  | mirrorRecord => apply execMirrorRecord_goes ; exact h _ nofun
  | mirrorAck => apply execMirrorAck_goes  <;> exact h _ nofun
  | millinerRebootDone => apply execMillinerRebootDone_goes  <;> exact h _ nofun
  | udpRead dgram => apply execUdpRead_goes dgram <;> exact h _ nofun
  | udpWrite dgram => apply execUdpWrite_goes dgram <;> exact h _ nofun
  | mctpDictionaryMessage b session msg => apply execMctpDictionaryMessage_goes b session msg <;> exact h _ nofun
  | setEndpointId b eid => apply execSetEndpointId_goes b eid <;> exact h _ nofun
  | getEndpointId b => apply execGetEndpointId_goes b; exact h _ nofun
  | getMctpVersionSupport b => apply execGetMctpVersionSupport_goes b <;> exact h _ nofun
  | getMessageTypeSupport b => apply execGetMessageTypeSupport_goes b; exact h _ nofun
  | getVendorDefinedMessageSupport b selector => apply execGetVendorDefinedMessageSupport_goes b selector; exact h _ nofun
  | uartFrame frame => apply execUartFrame_goes frame <;> exact h _ nofun
  | operatorKey via key => apply execOperatorKey_goes via key <;> exact h _ nofun
  | vendorChallenge via => apply execVendorChallenge_goes via <;> exact h _ nofun
  | vendorResponseHi via sig => apply execVendorResponseHi_goes via sig <;> exact h _ nofun
  | debugUnlock via v => apply execDebugUnlock_goes via v <;> exact h _ nofun
  | ptpSync domain twoStep seq origin correction => apply execPtpSync_goes domain twoStep seq origin correction <;> exact h _ nofun
  | ptpFollowUp domain seq origin correction => apply execPtpFollowUp_goes domain seq origin correction <;> exact h _ nofun
  | ptpDelayResp domain seq receive correction => apply execPtpDelayResp_goes domain seq receive correction <;> exact h _ nofun
  | ptpPdelayResp domain seq receive transmit => apply execPtpPdelayResp_goes domain seq receive transmit <;> exact h _ nofun
  | ptpAnnounce domain grandmaster utc => apply execPtpAnnounce_goes domain grandmaster utc; exact h _ nofun
  | ptpManagement domain seq => apply execPtpManagement_goes domain seq; exact h _ nofun
  | announceTimeout => apply execAnnounceTimeout_goes ; exact h _ nofun
  | timeStep => apply execTimeStep_goes  <;> exact h _ nofun
  | fwErase via => apply execFwErase_goes via <;> exact h _ nofun
  | fwData via data => apply execFwData_goes via data <;> exact h _ nofun
  | fwVerify via => apply execFwVerify_goes via <;> exact h _ nofun
  | fwActivate via => apply execFwActivate_goes via <;> exact h _ nofun
  | fwConfirm via => apply execFwConfirm_goes via <;> exact h _ nofun
  | flashEraseDone standby => apply execFlashEraseDone_goes standby <;> exact h _ nofun
  | trialTimeout => apply execTrialTimeout_goes  <;> exact h _ nofun
  | journalCommit => apply execJournalCommit_goes  <;> exact h _ nofun
  | flashSync => apply execFlashSync_goes ; exact h _ nofun
  | refclkCheck missing ppm => apply execRefclkCheck_goes missing ppm <;> exact h _ nofun
  | refclkRecovered => apply execRefclkRecovered_goes  <;> exact h _ nofun
  | xferCtrl via v => apply execXferCtrl_goes via v <;> exact h _ nofun
  | xferDone nack rx => apply execXferDone_goes nack rx; exact h _ nofun
  | qid via mon v => apply execQid_goes via mon v <;> exact h _ nofun
  | linkUp port width rate flit => apply execLinkUp_goes port width rate flit; exact h _ nofun
  | pciePerstN port level => apply execPciePerstN_goes port level <;> exact h _ nofun
  | ringRegisters f reg v => apply execRingRegisters_goes f reg v; exact h _ nofun
  | vfEnable port on num => apply execVfEnable_goes port on num <;> exact h _ nofun
  | standbyFault => apply execStandbyFault_goes  <;> exact h _ nofun
  | standbyReady => apply execStandbyReady_goes ; exact h _ nofun
  | cfgCsNRise => apply execCfgCsNRise_goes  <;> exact h _ nofun
  | dhcpv4Lease lease => apply execDhcpv4Lease_goes lease; exact h _ nofun
  | heartbeatPeriodExpiry id => apply execHeartbeatPeriodExpiry_goes id <;> exact h _ nofun

end Sys2Proof.Machine
end

