-- ==== Sys2Proof/Laws/Reads.lean ====
section
/-! SUPPORT. What reading a piece of the state gives after an update of another piece, and after an update of its own. -/

namespace Sys2Proof.Machine

@[simp] theorem State.fn_setReg (s : State) (k v : Nat) (h : Fn) : (s.setReg k v).fn h = s.fn h := rfl
@[simp] theorem State.port_setReg (s : State) (k v : Nat) (q : Nat) : (s.setReg k v).port q = s.port q := rfl
@[simp] theorem State.psec_setReg (s : State) (k v : Nat) (q : Nat) : (s.setReg k v).psec q = s.psec q := rfl
@[simp] theorem State.prn_setReg (s : State) (k v : Nat) (q : Nat) : (s.setReg k v).prn q = s.prn q := rfl
@[simp] theorem State.run_setReg (s : State) (k v : Nat) (q id : Nat) : (s.setReg k v).run q id = s.run q id := rfl
@[simp] theorem State.program_setReg (s : State) (k v : Nat) (q h : Nat) : (s.setReg k v).program q h = s.program q h := rfl
@[simp] theorem State.find_setReg (s : State) (k v : Nat) (r : CmdRef) : (s.setReg k v).find r = s.find r := rfl
@[simp] theorem State.stack_setReg (s : State) (k v : Nat) (q : Nat) : (s.setReg k v).stack q = s.stack q := rfl
@[simp] theorem State.switch_setReg (s : State) (k v : Nat) (q : Nat) : (s.setReg k v).switch q = s.switch q := rfl
@[simp] theorem State.live_setReg (s : State) (k v : Nat) (q : Nat) : (s.setReg k v).live q = s.live q := rfl
@[simp] theorem State.brim_setReg (s : State) (k v : Nat) (q : Nat) : (s.setReg k v).brim q = s.brim q := rfl
@[simp] theorem State.dp_setReg (s : State) (k v : Nat) (q : Nat) : (s.setReg k v).dp q = s.dp q := rfl
@[simp] theorem State.pp_setReg (s : State) (k v : Nat) (q : Nat) : (s.setReg k v).pp q = s.pp q := rfl
@[simp] theorem State.lg_setReg (s : State) (k v : Nat) (q : Nat) : (s.setReg k v).lg q = s.lg q := rfl
@[simp] theorem State.jobs_setReg (s : State) (k v : Nat) (q r : Nat) : (s.setReg k v).jobs q r = s.jobs q r := rfl
@[simp] theorem State.session_setReg (s : State) (k v : Nat) (id : Nat) : (s.setReg k v).session id = s.session id := rfl
@[simp] theorem State.conn_setReg (s : State) (k v : Nat) (q : Mailbox) : (s.setReg k v).conn q = s.conn q := rfl
@[simp] theorem State.now_setReg (s : State) (k v : Nat) : (s.setReg k v).now = s.now := rfl
@[simp] theorem State.portOpen_setReg (s : State) (k v : Nat) (q : Nat) : (s.setReg k v).portOpen q = s.portOpen q := rfl
@[simp] theorem State.vfAnswers_setReg (s : State) (k v : Nat) (h : Fn) : (s.setReg k v).vfAnswers h = s.vfAnswers h := rfl
@[simp] theorem State.millRuns_setReg (s : State) (k v : Nat) : (s.setReg k v).millRuns = s.millRuns := rfl
@[simp] theorem State.millServes_setReg (s : State) (k v : Nat) : (s.setReg k v).millServes = s.millServes := rfl
@[simp] theorem State.spdmServes_setReg (s : State) (k v : Nat) (q : Mailbox) : (s.setReg k v).spdmServes q = s.spdmServes q := rfl
@[simp] theorem State.drawn_setReg (s : State) (k v : Nat) : (s.setReg k v).drawn = s.drawn := rfl
@[simp] theorem State.xact_setReg (s : State) (k v : Nat) (d e t : Nat) : (s.setReg k v).xact d e t = s.xact d e t := rfl
@[simp] theorem State.canCompute_setReg (s : State) (k v : Nat) (f : Found) : (s.setReg k v).canCompute f = s.canCompute f := rfl
@[simp] theorem State.fn_bump (s : State) (k n : Nat) (h : Fn) : (s.bump k n).fn h = s.fn h := rfl
@[simp] theorem State.port_bump (s : State) (k n : Nat) (q : Nat) : (s.bump k n).port q = s.port q := rfl
@[simp] theorem State.psec_bump (s : State) (k n : Nat) (q : Nat) : (s.bump k n).psec q = s.psec q := rfl
@[simp] theorem State.prn_bump (s : State) (k n : Nat) (q : Nat) : (s.bump k n).prn q = s.prn q := rfl
@[simp] theorem State.run_bump (s : State) (k n : Nat) (q id : Nat) : (s.bump k n).run q id = s.run q id := rfl
@[simp] theorem State.program_bump (s : State) (k n : Nat) (q h : Nat) : (s.bump k n).program q h = s.program q h := rfl
@[simp] theorem State.find_bump (s : State) (k n : Nat) (r : CmdRef) : (s.bump k n).find r = s.find r := rfl
@[simp] theorem State.stack_bump (s : State) (k n : Nat) (q : Nat) : (s.bump k n).stack q = s.stack q := rfl
@[simp] theorem State.switch_bump (s : State) (k n : Nat) (q : Nat) : (s.bump k n).switch q = s.switch q := rfl
@[simp] theorem State.live_bump (s : State) (k n : Nat) (q : Nat) : (s.bump k n).live q = s.live q := rfl
@[simp] theorem State.brim_bump (s : State) (k n : Nat) (q : Nat) : (s.bump k n).brim q = s.brim q := rfl
@[simp] theorem State.dp_bump (s : State) (k n : Nat) (q : Nat) : (s.bump k n).dp q = s.dp q := rfl
@[simp] theorem State.pp_bump (s : State) (k n : Nat) (q : Nat) : (s.bump k n).pp q = s.pp q := rfl
@[simp] theorem State.lg_bump (s : State) (k n : Nat) (q : Nat) : (s.bump k n).lg q = s.lg q := rfl
@[simp] theorem State.jobs_bump (s : State) (k n : Nat) (q r : Nat) : (s.bump k n).jobs q r = s.jobs q r := rfl
@[simp] theorem State.session_bump (s : State) (k n : Nat) (id : Nat) : (s.bump k n).session id = s.session id := rfl
@[simp] theorem State.conn_bump (s : State) (k n : Nat) (q : Mailbox) : (s.bump k n).conn q = s.conn q := rfl
@[simp] theorem State.now_bump (s : State) (k n : Nat) : (s.bump k n).now = s.now := rfl
@[simp] theorem State.portOpen_bump (s : State) (k n : Nat) (q : Nat) : (s.bump k n).portOpen q = s.portOpen q := rfl
@[simp] theorem State.vfAnswers_bump (s : State) (k n : Nat) (h : Fn) : (s.bump k n).vfAnswers h = s.vfAnswers h := rfl
@[simp] theorem State.millRuns_bump (s : State) (k n : Nat) : (s.bump k n).millRuns = s.millRuns := rfl
@[simp] theorem State.millServes_bump (s : State) (k n : Nat) : (s.bump k n).millServes = s.millServes := rfl
@[simp] theorem State.spdmServes_bump (s : State) (k n : Nat) (q : Mailbox) : (s.bump k n).spdmServes q = s.spdmServes q := rfl
@[simp] theorem State.drawn_bump (s : State) (k n : Nat) : (s.bump k n).drawn = s.drawn := rfl
@[simp] theorem State.xact_bump (s : State) (k n : Nat) (d e t : Nat) : (s.bump k n).xact d e t = s.xact d e t := rfl
@[simp] theorem State.canCompute_bump (s : State) (k n : Nat) (f : Found) : (s.bump k n).canCompute f = s.canCompute f := rfl
@[simp] theorem State.reg_reach (s : State) (ns : Nat) (j : Nat) : (s.reach ns).reg j = s.reg j := rfl
@[simp] theorem State.fn_reach (s : State) (ns : Nat) (h : Fn) : (s.reach ns).fn h = s.fn h := rfl
@[simp] theorem State.port_reach (s : State) (ns : Nat) (q : Nat) : (s.reach ns).port q = s.port q := rfl
@[simp] theorem State.psec_reach (s : State) (ns : Nat) (q : Nat) : (s.reach ns).psec q = s.psec q := rfl
@[simp] theorem State.prn_reach (s : State) (ns : Nat) (q : Nat) : (s.reach ns).prn q = s.prn q := rfl
@[simp] theorem State.run_reach (s : State) (ns : Nat) (q id : Nat) : (s.reach ns).run q id = s.run q id := rfl
@[simp] theorem State.program_reach (s : State) (ns : Nat) (q h : Nat) : (s.reach ns).program q h = s.program q h := rfl
@[simp] theorem State.find_reach (s : State) (ns : Nat) (r : CmdRef) : (s.reach ns).find r = s.find r := rfl
@[simp] theorem State.stack_reach (s : State) (ns : Nat) (q : Nat) : (s.reach ns).stack q = s.stack q := rfl
@[simp] theorem State.switch_reach (s : State) (ns : Nat) (q : Nat) : (s.reach ns).switch q = s.switch q := rfl
@[simp] theorem State.live_reach (s : State) (ns : Nat) (q : Nat) : (s.reach ns).live q = s.live q := rfl
@[simp] theorem State.brim_reach (s : State) (ns : Nat) (q : Nat) : (s.reach ns).brim q = s.brim q := rfl
@[simp] theorem State.dp_reach (s : State) (ns : Nat) (q : Nat) : (s.reach ns).dp q = s.dp q := rfl
@[simp] theorem State.pp_reach (s : State) (ns : Nat) (q : Nat) : (s.reach ns).pp q = s.pp q := rfl
@[simp] theorem State.lg_reach (s : State) (ns : Nat) (q : Nat) : (s.reach ns).lg q = s.lg q := rfl
@[simp] theorem State.jobs_reach (s : State) (ns : Nat) (q r : Nat) : (s.reach ns).jobs q r = s.jobs q r := rfl
@[simp] theorem State.session_reach (s : State) (ns : Nat) (id : Nat) : (s.reach ns).session id = s.session id := rfl
@[simp] theorem State.conn_reach (s : State) (ns : Nat) (q : Mailbox) : (s.reach ns).conn q = s.conn q := rfl
@[simp] theorem State.partOf_reach (s : State) (ns : Nat) (h : Fn) : (s.reach ns).partOf h = s.partOf h := rfl
@[simp] theorem State.fnOf_reach (s : State) (ns : Nat) (q : Nat) : (s.reach ns).fnOf q = s.fnOf q := rfl
@[simp] theorem State.dieOwner_reach (s : State) (ns : Nat) (q : Nat) : (s.reach ns).dieOwner q = s.dieOwner q := rfl
@[simp] theorem State.diesOf_reach (s : State) (ns : Nat) (q : Nat) : (s.reach ns).diesOf q = s.diesOf q := rfl
@[simp] theorem State.portOpen_reach (s : State) (ns : Nat) (q : Nat) : (s.reach ns).portOpen q = s.portOpen q := rfl
@[simp] theorem State.vfAnswers_reach (s : State) (ns : Nat) (h : Fn) : (s.reach ns).vfAnswers h = s.vfAnswers h := rfl
@[simp] theorem State.millRuns_reach (s : State) (ns : Nat) : (s.reach ns).millRuns = s.millRuns := rfl
@[simp] theorem State.millServes_reach (s : State) (ns : Nat) : (s.reach ns).millServes = s.millServes := rfl
@[simp] theorem State.spdmServes_reach (s : State) (ns : Nat) (q : Mailbox) : (s.reach ns).spdmServes q = s.spdmServes q := rfl
@[simp] theorem State.place_reach (s : State) (ns : Nat) (q a : Nat) : (s.reach ns).place q a = s.place q a := rfl
@[simp] theorem State.drawn_reach (s : State) (ns : Nat) : (s.reach ns).drawn = s.drawn := rfl
@[simp] theorem State.xact_reach (s : State) (ns : Nat) (d e t : Nat) : (s.reach ns).xact d e t = s.xact d e t := rfl
@[simp] theorem State.laneUse_reach (s : State) (ns : Nat) (q : Nat) : (s.reach ns).laneUse q = s.laneUse q := rfl
@[simp] theorem State.groupUp_reach (s : State) (ns : Nat) (q : Nat) : (s.reach ns).groupUp q = s.groupUp q := rfl
@[simp] theorem State.canCompute_reach (s : State) (ns : Nat) (f : Found) : (s.reach ns).canCompute f = s.canCompute f := rfl
@[simp] theorem State.reg_emit (s : State) (o : Out) (j : Nat) : (s.emit o).reg j = s.reg j := rfl
@[simp] theorem State.fn_emit (s : State) (o : Out) (h : Fn) : (s.emit o).fn h = s.fn h := rfl
@[simp] theorem State.port_emit (s : State) (o : Out) (q : Nat) : (s.emit o).port q = s.port q := rfl
@[simp] theorem State.psec_emit (s : State) (o : Out) (q : Nat) : (s.emit o).psec q = s.psec q := rfl
@[simp] theorem State.prn_emit (s : State) (o : Out) (q : Nat) : (s.emit o).prn q = s.prn q := rfl
@[simp] theorem State.run_emit (s : State) (o : Out) (q id : Nat) : (s.emit o).run q id = s.run q id := rfl
@[simp] theorem State.program_emit (s : State) (o : Out) (q h : Nat) : (s.emit o).program q h = s.program q h := rfl
@[simp] theorem State.find_emit (s : State) (o : Out) (r : CmdRef) : (s.emit o).find r = s.find r := rfl
@[simp] theorem State.stack_emit (s : State) (o : Out) (q : Nat) : (s.emit o).stack q = s.stack q := rfl
@[simp] theorem State.switch_emit (s : State) (o : Out) (q : Nat) : (s.emit o).switch q = s.switch q := rfl
@[simp] theorem State.live_emit (s : State) (o : Out) (q : Nat) : (s.emit o).live q = s.live q := rfl
@[simp] theorem State.brim_emit (s : State) (o : Out) (q : Nat) : (s.emit o).brim q = s.brim q := rfl
@[simp] theorem State.dp_emit (s : State) (o : Out) (q : Nat) : (s.emit o).dp q = s.dp q := rfl
@[simp] theorem State.pp_emit (s : State) (o : Out) (q : Nat) : (s.emit o).pp q = s.pp q := rfl
@[simp] theorem State.lg_emit (s : State) (o : Out) (q : Nat) : (s.emit o).lg q = s.lg q := rfl
@[simp] theorem State.jobs_emit (s : State) (o : Out) (q r : Nat) : (s.emit o).jobs q r = s.jobs q r := rfl
@[simp] theorem State.session_emit (s : State) (o : Out) (id : Nat) : (s.emit o).session id = s.session id := rfl
@[simp] theorem State.conn_emit (s : State) (o : Out) (q : Mailbox) : (s.emit o).conn q = s.conn q := rfl
@[simp] theorem State.now_emit (s : State) (o : Out) : (s.emit o).now = s.now := rfl
@[simp] theorem State.partOf_emit (s : State) (o : Out) (h : Fn) : (s.emit o).partOf h = s.partOf h := rfl
@[simp] theorem State.fnOf_emit (s : State) (o : Out) (q : Nat) : (s.emit o).fnOf q = s.fnOf q := rfl
@[simp] theorem State.dieOwner_emit (s : State) (o : Out) (q : Nat) : (s.emit o).dieOwner q = s.dieOwner q := rfl
@[simp] theorem State.diesOf_emit (s : State) (o : Out) (q : Nat) : (s.emit o).diesOf q = s.diesOf q := rfl
@[simp] theorem State.portOpen_emit (s : State) (o : Out) (q : Nat) : (s.emit o).portOpen q = s.portOpen q := rfl
@[simp] theorem State.vfAnswers_emit (s : State) (o : Out) (h : Fn) : (s.emit o).vfAnswers h = s.vfAnswers h := rfl
@[simp] theorem State.millRuns_emit (s : State) (o : Out) : (s.emit o).millRuns = s.millRuns := rfl
@[simp] theorem State.millServes_emit (s : State) (o : Out) : (s.emit o).millServes = s.millServes := rfl
@[simp] theorem State.spdmServes_emit (s : State) (o : Out) (q : Mailbox) : (s.emit o).spdmServes q = s.spdmServes q := rfl
@[simp] theorem State.place_emit (s : State) (o : Out) (q a : Nat) : (s.emit o).place q a = s.place q a := rfl
@[simp] theorem State.drawn_emit (s : State) (o : Out) : (s.emit o).drawn = s.drawn := rfl
@[simp] theorem State.xact_emit (s : State) (o : Out) (d e t : Nat) : (s.emit o).xact d e t = s.xact d e t := rfl
@[simp] theorem State.laneUse_emit (s : State) (o : Out) (q : Nat) : (s.emit o).laneUse q = s.laneUse q := rfl
@[simp] theorem State.groupUp_emit (s : State) (o : Out) (q : Nat) : (s.emit o).groupUp q = s.groupUp q := rfl
@[simp] theorem State.canCompute_emit (s : State) (o : Out) (f : Found) : (s.emit o).canCompute f = s.canCompute f := rfl
@[simp] theorem State.reg_draw (s : State) (j : Nat) : (s.draw).reg j = s.reg j := rfl
@[simp] theorem State.fn_draw (s : State) (h : Fn) : (s.draw).fn h = s.fn h := rfl
@[simp] theorem State.port_draw (s : State) (q : Nat) : (s.draw).port q = s.port q := rfl
@[simp] theorem State.psec_draw (s : State) (q : Nat) : (s.draw).psec q = s.psec q := rfl
@[simp] theorem State.prn_draw (s : State) (q : Nat) : (s.draw).prn q = s.prn q := rfl
@[simp] theorem State.run_draw (s : State) (q id : Nat) : (s.draw).run q id = s.run q id := rfl
@[simp] theorem State.program_draw (s : State) (q h : Nat) : (s.draw).program q h = s.program q h := rfl
@[simp] theorem State.find_draw (s : State) (r : CmdRef) : (s.draw).find r = s.find r := rfl
@[simp] theorem State.stack_draw (s : State) (q : Nat) : (s.draw).stack q = s.stack q := rfl
@[simp] theorem State.switch_draw (s : State) (q : Nat) : (s.draw).switch q = s.switch q := rfl
@[simp] theorem State.live_draw (s : State) (q : Nat) : (s.draw).live q = s.live q := rfl
@[simp] theorem State.brim_draw (s : State) (q : Nat) : (s.draw).brim q = s.brim q := rfl
@[simp] theorem State.dp_draw (s : State) (q : Nat) : (s.draw).dp q = s.dp q := rfl
@[simp] theorem State.pp_draw (s : State) (q : Nat) : (s.draw).pp q = s.pp q := rfl
@[simp] theorem State.lg_draw (s : State) (q : Nat) : (s.draw).lg q = s.lg q := rfl
@[simp] theorem State.jobs_draw (s : State) (q r : Nat) : (s.draw).jobs q r = s.jobs q r := rfl
@[simp] theorem State.session_draw (s : State) (id : Nat) : (s.draw).session id = s.session id := rfl
@[simp] theorem State.conn_draw (s : State) (q : Mailbox) : (s.draw).conn q = s.conn q := rfl
@[simp] theorem State.now_draw (s : State) : (s.draw).now = s.now := rfl
@[simp] theorem State.partOf_draw (s : State) (h : Fn) : (s.draw).partOf h = s.partOf h := rfl
@[simp] theorem State.fnOf_draw (s : State) (q : Nat) : (s.draw).fnOf q = s.fnOf q := rfl
@[simp] theorem State.dieOwner_draw (s : State) (q : Nat) : (s.draw).dieOwner q = s.dieOwner q := rfl
@[simp] theorem State.diesOf_draw (s : State) (q : Nat) : (s.draw).diesOf q = s.diesOf q := rfl
@[simp] theorem State.portOpen_draw (s : State) (q : Nat) : (s.draw).portOpen q = s.portOpen q := rfl
@[simp] theorem State.vfAnswers_draw (s : State) (h : Fn) : (s.draw).vfAnswers h = s.vfAnswers h := rfl
@[simp] theorem State.millRuns_draw (s : State) : (s.draw).millRuns = s.millRuns := rfl
@[simp] theorem State.millServes_draw (s : State) : (s.draw).millServes = s.millServes := rfl
@[simp] theorem State.spdmServes_draw (s : State) (q : Mailbox) : (s.draw).spdmServes q = s.spdmServes q := rfl
@[simp] theorem State.place_draw (s : State) (q a : Nat) : (s.draw).place q a = s.place q a := rfl
@[simp] theorem State.xact_draw (s : State) (d e t : Nat) : (s.draw).xact d e t = s.xact d e t := rfl
@[simp] theorem State.laneUse_draw (s : State) (q : Nat) : (s.draw).laneUse q = s.laneUse q := rfl
@[simp] theorem State.groupUp_draw (s : State) (q : Nat) : (s.draw).groupUp q = s.groupUp q := rfl
@[simp] theorem State.canCompute_draw (s : State) (f : Found) : (s.draw).canCompute f = s.canCompute f := rfl
@[simp] theorem State.reg_hostWrite (s : State) (a : Nat) (bs : List Byte) (j : Nat) : (s.hostWrite a bs).reg j = s.reg j := rfl
@[simp] theorem State.fn_hostWrite (s : State) (a : Nat) (bs : List Byte) (h : Fn) : (s.hostWrite a bs).fn h = s.fn h := rfl
@[simp] theorem State.port_hostWrite (s : State) (a : Nat) (bs : List Byte) (q : Nat) : (s.hostWrite a bs).port q = s.port q := rfl
@[simp] theorem State.psec_hostWrite (s : State) (a : Nat) (bs : List Byte) (q : Nat) : (s.hostWrite a bs).psec q = s.psec q := rfl
@[simp] theorem State.prn_hostWrite (s : State) (a : Nat) (bs : List Byte) (q : Nat) : (s.hostWrite a bs).prn q = s.prn q := rfl
@[simp] theorem State.run_hostWrite (s : State) (a : Nat) (bs : List Byte) (q id : Nat) : (s.hostWrite a bs).run q id = s.run q id := rfl
@[simp] theorem State.program_hostWrite (s : State) (a : Nat) (bs : List Byte) (q h : Nat) : (s.hostWrite a bs).program q h = s.program q h := rfl
@[simp] theorem State.find_hostWrite (s : State) (a : Nat) (bs : List Byte) (r : CmdRef) : (s.hostWrite a bs).find r = s.find r := rfl
@[simp] theorem State.stack_hostWrite (s : State) (a : Nat) (bs : List Byte) (q : Nat) : (s.hostWrite a bs).stack q = s.stack q := rfl
@[simp] theorem State.switch_hostWrite (s : State) (a : Nat) (bs : List Byte) (q : Nat) : (s.hostWrite a bs).switch q = s.switch q := rfl
@[simp] theorem State.live_hostWrite (s : State) (a : Nat) (bs : List Byte) (q : Nat) : (s.hostWrite a bs).live q = s.live q := rfl
@[simp] theorem State.brim_hostWrite (s : State) (a : Nat) (bs : List Byte) (q : Nat) : (s.hostWrite a bs).brim q = s.brim q := rfl
@[simp] theorem State.dp_hostWrite (s : State) (a : Nat) (bs : List Byte) (q : Nat) : (s.hostWrite a bs).dp q = s.dp q := rfl
@[simp] theorem State.pp_hostWrite (s : State) (a : Nat) (bs : List Byte) (q : Nat) : (s.hostWrite a bs).pp q = s.pp q := rfl
@[simp] theorem State.lg_hostWrite (s : State) (a : Nat) (bs : List Byte) (q : Nat) : (s.hostWrite a bs).lg q = s.lg q := rfl
@[simp] theorem State.jobs_hostWrite (s : State) (a : Nat) (bs : List Byte) (q r : Nat) : (s.hostWrite a bs).jobs q r = s.jobs q r := rfl
@[simp] theorem State.session_hostWrite (s : State) (a : Nat) (bs : List Byte) (id : Nat) : (s.hostWrite a bs).session id = s.session id := rfl
@[simp] theorem State.conn_hostWrite (s : State) (a : Nat) (bs : List Byte) (q : Mailbox) : (s.hostWrite a bs).conn q = s.conn q := rfl
@[simp] theorem State.now_hostWrite (s : State) (a : Nat) (bs : List Byte) : (s.hostWrite a bs).now = s.now := rfl
@[simp] theorem State.partOf_hostWrite (s : State) (a : Nat) (bs : List Byte) (h : Fn) : (s.hostWrite a bs).partOf h = s.partOf h := rfl
@[simp] theorem State.fnOf_hostWrite (s : State) (a : Nat) (bs : List Byte) (q : Nat) : (s.hostWrite a bs).fnOf q = s.fnOf q := rfl
@[simp] theorem State.dieOwner_hostWrite (s : State) (a : Nat) (bs : List Byte) (q : Nat) : (s.hostWrite a bs).dieOwner q = s.dieOwner q := rfl
@[simp] theorem State.diesOf_hostWrite (s : State) (a : Nat) (bs : List Byte) (q : Nat) : (s.hostWrite a bs).diesOf q = s.diesOf q := rfl
@[simp] theorem State.portOpen_hostWrite (s : State) (a : Nat) (bs : List Byte) (q : Nat) : (s.hostWrite a bs).portOpen q = s.portOpen q := rfl
@[simp] theorem State.vfAnswers_hostWrite (s : State) (a : Nat) (bs : List Byte) (h : Fn) : (s.hostWrite a bs).vfAnswers h = s.vfAnswers h := rfl
@[simp] theorem State.millRuns_hostWrite (s : State) (a : Nat) (bs : List Byte) : (s.hostWrite a bs).millRuns = s.millRuns := rfl
@[simp] theorem State.millServes_hostWrite (s : State) (a : Nat) (bs : List Byte) : (s.hostWrite a bs).millServes = s.millServes := rfl
@[simp] theorem State.spdmServes_hostWrite (s : State) (a : Nat) (bs : List Byte) (q : Mailbox) : (s.hostWrite a bs).spdmServes q = s.spdmServes q := rfl
@[simp] theorem State.place_hostWrite (s : State) (a : Nat) (bs : List Byte) (q a' : Nat) : (s.hostWrite a bs).place q a' = s.place q a' := rfl
@[simp] theorem State.drawn_hostWrite (s : State) (a : Nat) (bs : List Byte) : (s.hostWrite a bs).drawn = s.drawn := rfl
@[simp] theorem State.xact_hostWrite (s : State) (a : Nat) (bs : List Byte) (d e t : Nat) : (s.hostWrite a bs).xact d e t = s.xact d e t := rfl
@[simp] theorem State.laneUse_hostWrite (s : State) (a : Nat) (bs : List Byte) (q : Nat) : (s.hostWrite a bs).laneUse q = s.laneUse q := rfl
@[simp] theorem State.groupUp_hostWrite (s : State) (a : Nat) (bs : List Byte) (q : Nat) : (s.hostWrite a bs).groupUp q = s.groupUp q := rfl
@[simp] theorem State.canCompute_hostWrite (s : State) (a : Nat) (bs : List Byte) (f : Found) : (s.hostWrite a bs).canCompute f = s.canCompute f := rfl
@[simp] theorem State.reg_setFn (s : State) (f : Fn) (x : FnState) (j : Nat) : (s.setFn f x).reg j = s.reg j := rfl
@[simp] theorem State.port_setFn (s : State) (f : Fn) (x : FnState) (q : Nat) : (s.setFn f x).port q = s.port q := rfl
@[simp] theorem State.psec_setFn (s : State) (f : Fn) (x : FnState) (q : Nat) : (s.setFn f x).psec q = s.psec q := rfl
@[simp] theorem State.prn_setFn (s : State) (f : Fn) (x : FnState) (q : Nat) : (s.setFn f x).prn q = s.prn q := rfl
@[simp] theorem State.run_setFn (s : State) (f : Fn) (x : FnState) (q id : Nat) : (s.setFn f x).run q id = s.run q id := rfl
@[simp] theorem State.program_setFn (s : State) (f : Fn) (x : FnState) (q h : Nat) : (s.setFn f x).program q h = s.program q h := rfl
@[simp] theorem State.find_setFn (s : State) (f : Fn) (x : FnState) (r : CmdRef) : (s.setFn f x).find r = s.find r := rfl
@[simp] theorem State.stack_setFn (s : State) (f : Fn) (x : FnState) (q : Nat) : (s.setFn f x).stack q = s.stack q := rfl
@[simp] theorem State.switch_setFn (s : State) (f : Fn) (x : FnState) (q : Nat) : (s.setFn f x).switch q = s.switch q := rfl
@[simp] theorem State.live_setFn (s : State) (f : Fn) (x : FnState) (q : Nat) : (s.setFn f x).live q = s.live q := rfl
@[simp] theorem State.brim_setFn (s : State) (f : Fn) (x : FnState) (q : Nat) : (s.setFn f x).brim q = s.brim q := rfl
@[simp] theorem State.dp_setFn (s : State) (f : Fn) (x : FnState) (q : Nat) : (s.setFn f x).dp q = s.dp q := rfl
@[simp] theorem State.pp_setFn (s : State) (f : Fn) (x : FnState) (q : Nat) : (s.setFn f x).pp q = s.pp q := rfl
@[simp] theorem State.lg_setFn (s : State) (f : Fn) (x : FnState) (q : Nat) : (s.setFn f x).lg q = s.lg q := rfl
@[simp] theorem State.jobs_setFn (s : State) (f : Fn) (x : FnState) (q r : Nat) : (s.setFn f x).jobs q r = s.jobs q r := rfl
@[simp] theorem State.session_setFn (s : State) (f : Fn) (x : FnState) (id : Nat) : (s.setFn f x).session id = s.session id := rfl
@[simp] theorem State.conn_setFn (s : State) (f : Fn) (x : FnState) (q : Mailbox) : (s.setFn f x).conn q = s.conn q := rfl
@[simp] theorem State.now_setFn (s : State) (f : Fn) (x : FnState) : (s.setFn f x).now = s.now := rfl
@[simp] theorem State.partOf_setFn (s : State) (f : Fn) (x : FnState) (h : Fn) : (s.setFn f x).partOf h = s.partOf h := rfl
@[simp] theorem State.fnOf_setFn (s : State) (f : Fn) (x : FnState) (q : Nat) : (s.setFn f x).fnOf q = s.fnOf q := rfl
@[simp] theorem State.dieOwner_setFn (s : State) (f : Fn) (x : FnState) (q : Nat) : (s.setFn f x).dieOwner q = s.dieOwner q := rfl
@[simp] theorem State.diesOf_setFn (s : State) (f : Fn) (x : FnState) (q : Nat) : (s.setFn f x).diesOf q = s.diesOf q := rfl
@[simp] theorem State.portOpen_setFn (s : State) (f : Fn) (x : FnState) (q : Nat) : (s.setFn f x).portOpen q = s.portOpen q := rfl
@[simp] theorem State.vfAnswers_setFn (s : State) (f : Fn) (x : FnState) (h : Fn) : (s.setFn f x).vfAnswers h = s.vfAnswers h := rfl
@[simp] theorem State.millRuns_setFn (s : State) (f : Fn) (x : FnState) : (s.setFn f x).millRuns = s.millRuns := rfl
@[simp] theorem State.millServes_setFn (s : State) (f : Fn) (x : FnState) : (s.setFn f x).millServes = s.millServes := rfl
@[simp] theorem State.spdmServes_setFn (s : State) (f : Fn) (x : FnState) (q : Mailbox) : (s.setFn f x).spdmServes q = s.spdmServes q := rfl
@[simp] theorem State.place_setFn (s : State) (f : Fn) (x : FnState) (q a : Nat) : (s.setFn f x).place q a = s.place q a := rfl
@[simp] theorem State.drawn_setFn (s : State) (f : Fn) (x : FnState) : (s.setFn f x).drawn = s.drawn := rfl
@[simp] theorem State.xact_setFn (s : State) (f : Fn) (x : FnState) (d e t : Nat) : (s.setFn f x).xact d e t = s.xact d e t := rfl
@[simp] theorem State.laneUse_setFn (s : State) (f : Fn) (x : FnState) (q : Nat) : (s.setFn f x).laneUse q = s.laneUse q := rfl
@[simp] theorem State.groupUp_setFn (s : State) (f : Fn) (x : FnState) (q : Nat) : (s.setFn f x).groupUp q = s.groupUp q := rfl
@[simp] theorem State.canCompute_setFn (s : State) (f : Fn) (x : FnState) (f' : Found) : (s.setFn f x).canCompute f' = s.canCompute f' := rfl
@[simp] theorem State.reg_modFn (s : State) (f : Fn) (g : FnState → FnState) (j : Nat) : (s.modFn f g).reg j = s.reg j := rfl
@[simp] theorem State.port_modFn (s : State) (f : Fn) (g : FnState → FnState) (q : Nat) : (s.modFn f g).port q = s.port q := rfl
@[simp] theorem State.psec_modFn (s : State) (f : Fn) (g : FnState → FnState) (q : Nat) : (s.modFn f g).psec q = s.psec q := rfl
@[simp] theorem State.prn_modFn (s : State) (f : Fn) (g : FnState → FnState) (q : Nat) : (s.modFn f g).prn q = s.prn q := rfl
@[simp] theorem State.run_modFn (s : State) (f : Fn) (g : FnState → FnState) (q id : Nat) : (s.modFn f g).run q id = s.run q id := rfl
@[simp] theorem State.program_modFn (s : State) (f : Fn) (g : FnState → FnState) (q h : Nat) : (s.modFn f g).program q h = s.program q h := rfl
@[simp] theorem State.find_modFn (s : State) (f : Fn) (g : FnState → FnState) (r : CmdRef) : (s.modFn f g).find r = s.find r := rfl
@[simp] theorem State.stack_modFn (s : State) (f : Fn) (g : FnState → FnState) (q : Nat) : (s.modFn f g).stack q = s.stack q := rfl
@[simp] theorem State.switch_modFn (s : State) (f : Fn) (g : FnState → FnState) (q : Nat) : (s.modFn f g).switch q = s.switch q := rfl
@[simp] theorem State.live_modFn (s : State) (f : Fn) (g : FnState → FnState) (q : Nat) : (s.modFn f g).live q = s.live q := rfl
@[simp] theorem State.brim_modFn (s : State) (f : Fn) (g : FnState → FnState) (q : Nat) : (s.modFn f g).brim q = s.brim q := rfl
@[simp] theorem State.dp_modFn (s : State) (f : Fn) (g : FnState → FnState) (q : Nat) : (s.modFn f g).dp q = s.dp q := rfl
@[simp] theorem State.pp_modFn (s : State) (f : Fn) (g : FnState → FnState) (q : Nat) : (s.modFn f g).pp q = s.pp q := rfl
@[simp] theorem State.lg_modFn (s : State) (f : Fn) (g : FnState → FnState) (q : Nat) : (s.modFn f g).lg q = s.lg q := rfl
@[simp] theorem State.jobs_modFn (s : State) (f : Fn) (g : FnState → FnState) (q r : Nat) : (s.modFn f g).jobs q r = s.jobs q r := rfl
@[simp] theorem State.session_modFn (s : State) (f : Fn) (g : FnState → FnState) (id : Nat) : (s.modFn f g).session id = s.session id := rfl
@[simp] theorem State.conn_modFn (s : State) (f : Fn) (g : FnState → FnState) (q : Mailbox) : (s.modFn f g).conn q = s.conn q := rfl
@[simp] theorem State.now_modFn (s : State) (f : Fn) (g : FnState → FnState) : (s.modFn f g).now = s.now := rfl
@[simp] theorem State.partOf_modFn (s : State) (f : Fn) (g : FnState → FnState) (h : Fn) : (s.modFn f g).partOf h = s.partOf h := rfl
@[simp] theorem State.fnOf_modFn (s : State) (f : Fn) (g : FnState → FnState) (q : Nat) : (s.modFn f g).fnOf q = s.fnOf q := rfl
@[simp] theorem State.dieOwner_modFn (s : State) (f : Fn) (g : FnState → FnState) (q : Nat) : (s.modFn f g).dieOwner q = s.dieOwner q := rfl
@[simp] theorem State.diesOf_modFn (s : State) (f : Fn) (g : FnState → FnState) (q : Nat) : (s.modFn f g).diesOf q = s.diesOf q := rfl
@[simp] theorem State.portOpen_modFn (s : State) (f : Fn) (g : FnState → FnState) (q : Nat) : (s.modFn f g).portOpen q = s.portOpen q := rfl
@[simp] theorem State.vfAnswers_modFn (s : State) (f : Fn) (g : FnState → FnState) (h : Fn) : (s.modFn f g).vfAnswers h = s.vfAnswers h := rfl
@[simp] theorem State.millRuns_modFn (s : State) (f : Fn) (g : FnState → FnState) : (s.modFn f g).millRuns = s.millRuns := rfl
@[simp] theorem State.millServes_modFn (s : State) (f : Fn) (g : FnState → FnState) : (s.modFn f g).millServes = s.millServes := rfl
@[simp] theorem State.spdmServes_modFn (s : State) (f : Fn) (g : FnState → FnState) (q : Mailbox) : (s.modFn f g).spdmServes q = s.spdmServes q := rfl
@[simp] theorem State.place_modFn (s : State) (f : Fn) (g : FnState → FnState) (q a : Nat) : (s.modFn f g).place q a = s.place q a := rfl
@[simp] theorem State.drawn_modFn (s : State) (f : Fn) (g : FnState → FnState) : (s.modFn f g).drawn = s.drawn := rfl
@[simp] theorem State.xact_modFn (s : State) (f : Fn) (g : FnState → FnState) (d e t : Nat) : (s.modFn f g).xact d e t = s.xact d e t := rfl
@[simp] theorem State.laneUse_modFn (s : State) (f : Fn) (g : FnState → FnState) (q : Nat) : (s.modFn f g).laneUse q = s.laneUse q := rfl
@[simp] theorem State.groupUp_modFn (s : State) (f : Fn) (g : FnState → FnState) (q : Nat) : (s.modFn f g).groupUp q = s.groupUp q := rfl
@[simp] theorem State.canCompute_modFn (s : State) (f : Fn) (g : FnState → FnState) (f' : Found) : (s.modFn f g).canCompute f' = s.canCompute f' := rfl
@[simp] theorem State.reg_setPort (s : State) (n : Nat) (x : PortState) (j : Nat) : (s.setPort n x).reg j = s.reg j := rfl
@[simp] theorem State.fn_setPort (s : State) (n : Nat) (x : PortState) (h : Fn) : (s.setPort n x).fn h = s.fn h := rfl
@[simp] theorem State.psec_setPort (s : State) (n : Nat) (x : PortState) (q : Nat) : (s.setPort n x).psec q = s.psec q := rfl
@[simp] theorem State.prn_setPort (s : State) (n : Nat) (x : PortState) (q : Nat) : (s.setPort n x).prn q = s.prn q := rfl
@[simp] theorem State.run_setPort (s : State) (n : Nat) (x : PortState) (q id : Nat) : (s.setPort n x).run q id = s.run q id := rfl
@[simp] theorem State.program_setPort (s : State) (n : Nat) (x : PortState) (q h : Nat) : (s.setPort n x).program q h = s.program q h := rfl
@[simp] theorem State.find_setPort (s : State) (n : Nat) (x : PortState) (r : CmdRef) : (s.setPort n x).find r = s.find r := rfl
@[simp] theorem State.stack_setPort (s : State) (n : Nat) (x : PortState) (q : Nat) : (s.setPort n x).stack q = s.stack q := rfl
@[simp] theorem State.switch_setPort (s : State) (n : Nat) (x : PortState) (q : Nat) : (s.setPort n x).switch q = s.switch q := rfl
@[simp] theorem State.live_setPort (s : State) (n : Nat) (x : PortState) (q : Nat) : (s.setPort n x).live q = s.live q := rfl
@[simp] theorem State.brim_setPort (s : State) (n : Nat) (x : PortState) (q : Nat) : (s.setPort n x).brim q = s.brim q := rfl
@[simp] theorem State.dp_setPort (s : State) (n : Nat) (x : PortState) (q : Nat) : (s.setPort n x).dp q = s.dp q := rfl
@[simp] theorem State.pp_setPort (s : State) (n : Nat) (x : PortState) (q : Nat) : (s.setPort n x).pp q = s.pp q := rfl
@[simp] theorem State.lg_setPort (s : State) (n : Nat) (x : PortState) (q : Nat) : (s.setPort n x).lg q = s.lg q := rfl
@[simp] theorem State.jobs_setPort (s : State) (n : Nat) (x : PortState) (q r : Nat) : (s.setPort n x).jobs q r = s.jobs q r := rfl
@[simp] theorem State.session_setPort (s : State) (n : Nat) (x : PortState) (id : Nat) : (s.setPort n x).session id = s.session id := rfl
@[simp] theorem State.conn_setPort (s : State) (n : Nat) (x : PortState) (q : Mailbox) : (s.setPort n x).conn q = s.conn q := rfl
@[simp] theorem State.now_setPort (s : State) (n : Nat) (x : PortState) : (s.setPort n x).now = s.now := rfl
@[simp] theorem State.partOf_setPort (s : State) (n : Nat) (x : PortState) (h : Fn) : (s.setPort n x).partOf h = s.partOf h := rfl
@[simp] theorem State.fnOf_setPort (s : State) (n : Nat) (x : PortState) (q : Nat) : (s.setPort n x).fnOf q = s.fnOf q := rfl
@[simp] theorem State.dieOwner_setPort (s : State) (n : Nat) (x : PortState) (q : Nat) : (s.setPort n x).dieOwner q = s.dieOwner q := rfl
@[simp] theorem State.diesOf_setPort (s : State) (n : Nat) (x : PortState) (q : Nat) : (s.setPort n x).diesOf q = s.diesOf q := rfl
@[simp] theorem State.millRuns_setPort (s : State) (n : Nat) (x : PortState) : (s.setPort n x).millRuns = s.millRuns := rfl
@[simp] theorem State.millServes_setPort (s : State) (n : Nat) (x : PortState) : (s.setPort n x).millServes = s.millServes := rfl
@[simp] theorem State.place_setPort (s : State) (n : Nat) (x : PortState) (q a : Nat) : (s.setPort n x).place q a = s.place q a := rfl
@[simp] theorem State.drawn_setPort (s : State) (n : Nat) (x : PortState) : (s.setPort n x).drawn = s.drawn := rfl
@[simp] theorem State.xact_setPort (s : State) (n : Nat) (x : PortState) (d e t : Nat) : (s.setPort n x).xact d e t = s.xact d e t := rfl
@[simp] theorem State.laneUse_setPort (s : State) (n : Nat) (x : PortState) (q : Nat) : (s.setPort n x).laneUse q = s.laneUse q := rfl
@[simp] theorem State.groupUp_setPort (s : State) (n : Nat) (x : PortState) (q : Nat) : (s.setPort n x).groupUp q = s.groupUp q := rfl
@[simp] theorem State.canCompute_setPort (s : State) (n : Nat) (x : PortState) (f : Found) : (s.setPort n x).canCompute f = s.canCompute f := rfl
@[simp] theorem State.reg_modSec (s : State) (p : Nat) (g : PartSec → PartSec) (j : Nat) : (s.modSec p g).reg j = s.reg j := rfl
@[simp] theorem State.fn_modSec (s : State) (p : Nat) (g : PartSec → PartSec) (h : Fn) : (s.modSec p g).fn h = s.fn h := rfl
@[simp] theorem State.port_modSec (s : State) (p : Nat) (g : PartSec → PartSec) (q : Nat) : (s.modSec p g).port q = s.port q := rfl
@[simp] theorem State.prn_modSec (s : State) (p : Nat) (g : PartSec → PartSec) (q : Nat) : (s.modSec p g).prn q = s.prn q := rfl
@[simp] theorem State.run_modSec (s : State) (p : Nat) (g : PartSec → PartSec) (q id : Nat) : (s.modSec p g).run q id = s.run q id := rfl
@[simp] theorem State.program_modSec (s : State) (p : Nat) (g : PartSec → PartSec) (q h : Nat) : (s.modSec p g).program q h = s.program q h := rfl
@[simp] theorem State.find_modSec (s : State) (p : Nat) (g : PartSec → PartSec) (r : CmdRef) : (s.modSec p g).find r = s.find r := rfl
@[simp] theorem State.stack_modSec (s : State) (p : Nat) (g : PartSec → PartSec) (q : Nat) : (s.modSec p g).stack q = s.stack q := rfl
@[simp] theorem State.switch_modSec (s : State) (p : Nat) (g : PartSec → PartSec) (q : Nat) : (s.modSec p g).switch q = s.switch q := rfl
@[simp] theorem State.live_modSec (s : State) (p : Nat) (g : PartSec → PartSec) (q : Nat) : (s.modSec p g).live q = s.live q := rfl
@[simp] theorem State.brim_modSec (s : State) (p : Nat) (g : PartSec → PartSec) (q : Nat) : (s.modSec p g).brim q = s.brim q := rfl
@[simp] theorem State.dp_modSec (s : State) (p : Nat) (g : PartSec → PartSec) (q : Nat) : (s.modSec p g).dp q = s.dp q := rfl
@[simp] theorem State.pp_modSec (s : State) (p : Nat) (g : PartSec → PartSec) (q : Nat) : (s.modSec p g).pp q = s.pp q := rfl
@[simp] theorem State.lg_modSec (s : State) (p : Nat) (g : PartSec → PartSec) (q : Nat) : (s.modSec p g).lg q = s.lg q := rfl
@[simp] theorem State.jobs_modSec (s : State) (p : Nat) (g : PartSec → PartSec) (q r : Nat) : (s.modSec p g).jobs q r = s.jobs q r := rfl
@[simp] theorem State.session_modSec (s : State) (p : Nat) (g : PartSec → PartSec) (id : Nat) : (s.modSec p g).session id = s.session id := rfl
@[simp] theorem State.conn_modSec (s : State) (p : Nat) (g : PartSec → PartSec) (q : Mailbox) : (s.modSec p g).conn q = s.conn q := rfl
@[simp] theorem State.now_modSec (s : State) (p : Nat) (g : PartSec → PartSec) : (s.modSec p g).now = s.now := rfl
@[simp] theorem State.partOf_modSec (s : State) (p : Nat) (g : PartSec → PartSec) (h : Fn) : (s.modSec p g).partOf h = s.partOf h := rfl
@[simp] theorem State.fnOf_modSec (s : State) (p : Nat) (g : PartSec → PartSec) (q : Nat) : (s.modSec p g).fnOf q = s.fnOf q := rfl
@[simp] theorem State.dieOwner_modSec (s : State) (p : Nat) (g : PartSec → PartSec) (q : Nat) : (s.modSec p g).dieOwner q = s.dieOwner q := rfl
@[simp] theorem State.diesOf_modSec (s : State) (p : Nat) (g : PartSec → PartSec) (q : Nat) : (s.modSec p g).diesOf q = s.diesOf q := rfl
@[simp] theorem State.portOpen_modSec (s : State) (p : Nat) (g : PartSec → PartSec) (q : Nat) : (s.modSec p g).portOpen q = s.portOpen q := rfl
@[simp] theorem State.vfAnswers_modSec (s : State) (p : Nat) (g : PartSec → PartSec) (h : Fn) : (s.modSec p g).vfAnswers h = s.vfAnswers h := rfl
@[simp] theorem State.millRuns_modSec (s : State) (p : Nat) (g : PartSec → PartSec) : (s.modSec p g).millRuns = s.millRuns := rfl
@[simp] theorem State.millServes_modSec (s : State) (p : Nat) (g : PartSec → PartSec) : (s.modSec p g).millServes = s.millServes := rfl
@[simp] theorem State.spdmServes_modSec (s : State) (p : Nat) (g : PartSec → PartSec) (q : Mailbox) : (s.modSec p g).spdmServes q = s.spdmServes q := rfl
@[simp] theorem State.place_modSec (s : State) (p : Nat) (g : PartSec → PartSec) (q a : Nat) : (s.modSec p g).place q a = s.place q a := rfl
@[simp] theorem State.drawn_modSec (s : State) (p : Nat) (g : PartSec → PartSec) : (s.modSec p g).drawn = s.drawn := rfl
@[simp] theorem State.xact_modSec (s : State) (p : Nat) (g : PartSec → PartSec) (d e t : Nat) : (s.modSec p g).xact d e t = s.xact d e t := rfl
@[simp] theorem State.laneUse_modSec (s : State) (p : Nat) (g : PartSec → PartSec) (q : Nat) : (s.modSec p g).laneUse q = s.laneUse q := rfl
@[simp] theorem State.groupUp_modSec (s : State) (p : Nat) (g : PartSec → PartSec) (q : Nat) : (s.modSec p g).groupUp q = s.groupUp q := rfl
@[simp] theorem State.canCompute_modSec (s : State) (p : Nat) (g : PartSec → PartSec) (f : Found) : (s.modSec p g).canCompute f = s.canCompute f := rfl
@[simp] theorem State.reg_modPr (s : State) (p : Nat) (g : PartRun → PartRun) (j : Nat) : (s.modPr p g).reg j = s.reg j := rfl
@[simp] theorem State.fn_modPr (s : State) (p : Nat) (g : PartRun → PartRun) (h : Fn) : (s.modPr p g).fn h = s.fn h := rfl
@[simp] theorem State.port_modPr (s : State) (p : Nat) (g : PartRun → PartRun) (q : Nat) : (s.modPr p g).port q = s.port q := rfl
@[simp] theorem State.psec_modPr (s : State) (p : Nat) (g : PartRun → PartRun) (q : Nat) : (s.modPr p g).psec q = s.psec q := rfl
@[simp] theorem State.stack_modPr (s : State) (p : Nat) (g : PartRun → PartRun) (q : Nat) : (s.modPr p g).stack q = s.stack q := rfl
@[simp] theorem State.switch_modPr (s : State) (p : Nat) (g : PartRun → PartRun) (q : Nat) : (s.modPr p g).switch q = s.switch q := rfl
@[simp] theorem State.live_modPr (s : State) (p : Nat) (g : PartRun → PartRun) (q : Nat) : (s.modPr p g).live q = s.live q := rfl
@[simp] theorem State.brim_modPr (s : State) (p : Nat) (g : PartRun → PartRun) (q : Nat) : (s.modPr p g).brim q = s.brim q := rfl
@[simp] theorem State.dp_modPr (s : State) (p : Nat) (g : PartRun → PartRun) (q : Nat) : (s.modPr p g).dp q = s.dp q := rfl
@[simp] theorem State.pp_modPr (s : State) (p : Nat) (g : PartRun → PartRun) (q : Nat) : (s.modPr p g).pp q = s.pp q := rfl
@[simp] theorem State.lg_modPr (s : State) (p : Nat) (g : PartRun → PartRun) (q : Nat) : (s.modPr p g).lg q = s.lg q := rfl
@[simp] theorem State.jobs_modPr (s : State) (p : Nat) (g : PartRun → PartRun) (q r : Nat) : (s.modPr p g).jobs q r = s.jobs q r := rfl
@[simp] theorem State.session_modPr (s : State) (p : Nat) (g : PartRun → PartRun) (id : Nat) : (s.modPr p g).session id = s.session id := rfl
@[simp] theorem State.conn_modPr (s : State) (p : Nat) (g : PartRun → PartRun) (q : Mailbox) : (s.modPr p g).conn q = s.conn q := rfl
@[simp] theorem State.now_modPr (s : State) (p : Nat) (g : PartRun → PartRun) : (s.modPr p g).now = s.now := rfl
@[simp] theorem State.partOf_modPr (s : State) (p : Nat) (g : PartRun → PartRun) (h : Fn) : (s.modPr p g).partOf h = s.partOf h := rfl
@[simp] theorem State.fnOf_modPr (s : State) (p : Nat) (g : PartRun → PartRun) (q : Nat) : (s.modPr p g).fnOf q = s.fnOf q := rfl
@[simp] theorem State.dieOwner_modPr (s : State) (p : Nat) (g : PartRun → PartRun) (q : Nat) : (s.modPr p g).dieOwner q = s.dieOwner q := rfl
@[simp] theorem State.diesOf_modPr (s : State) (p : Nat) (g : PartRun → PartRun) (q : Nat) : (s.modPr p g).diesOf q = s.diesOf q := rfl
@[simp] theorem State.portOpen_modPr (s : State) (p : Nat) (g : PartRun → PartRun) (q : Nat) : (s.modPr p g).portOpen q = s.portOpen q := rfl
@[simp] theorem State.vfAnswers_modPr (s : State) (p : Nat) (g : PartRun → PartRun) (h : Fn) : (s.modPr p g).vfAnswers h = s.vfAnswers h := rfl
@[simp] theorem State.millRuns_modPr (s : State) (p : Nat) (g : PartRun → PartRun) : (s.modPr p g).millRuns = s.millRuns := rfl
@[simp] theorem State.millServes_modPr (s : State) (p : Nat) (g : PartRun → PartRun) : (s.modPr p g).millServes = s.millServes := rfl
@[simp] theorem State.spdmServes_modPr (s : State) (p : Nat) (g : PartRun → PartRun) (q : Mailbox) : (s.modPr p g).spdmServes q = s.spdmServes q := rfl
@[simp] theorem State.place_modPr (s : State) (p : Nat) (g : PartRun → PartRun) (q a : Nat) : (s.modPr p g).place q a = s.place q a := rfl
@[simp] theorem State.drawn_modPr (s : State) (p : Nat) (g : PartRun → PartRun) : (s.modPr p g).drawn = s.drawn := rfl
@[simp] theorem State.xact_modPr (s : State) (p : Nat) (g : PartRun → PartRun) (d e t : Nat) : (s.modPr p g).xact d e t = s.xact d e t := rfl
@[simp] theorem State.laneUse_modPr (s : State) (p : Nat) (g : PartRun → PartRun) (q : Nat) : (s.modPr p g).laneUse q = s.laneUse q := rfl
@[simp] theorem State.groupUp_modPr (s : State) (p : Nat) (g : PartRun → PartRun) (q : Nat) : (s.modPr p g).groupUp q = s.groupUp q := rfl
@[simp] theorem State.canCompute_modPr (s : State) (p : Nat) (g : PartRun → PartRun) (f : Found) : (s.modPr p g).canCompute f = s.canCompute f := rfl
@[simp] theorem State.reg_modRun (s : State) (p i : Nat) (g : Run → Run) (j : Nat) : (s.modRun p i g).reg j = s.reg j := rfl
@[simp] theorem State.fn_modRun (s : State) (p i : Nat) (g : Run → Run) (h : Fn) : (s.modRun p i g).fn h = s.fn h := rfl
@[simp] theorem State.port_modRun (s : State) (p i : Nat) (g : Run → Run) (q : Nat) : (s.modRun p i g).port q = s.port q := rfl
@[simp] theorem State.psec_modRun (s : State) (p i : Nat) (g : Run → Run) (q : Nat) : (s.modRun p i g).psec q = s.psec q := rfl
@[simp] theorem State.stack_modRun (s : State) (p i : Nat) (g : Run → Run) (q : Nat) : (s.modRun p i g).stack q = s.stack q := rfl
@[simp] theorem State.switch_modRun (s : State) (p i : Nat) (g : Run → Run) (q : Nat) : (s.modRun p i g).switch q = s.switch q := rfl
@[simp] theorem State.live_modRun (s : State) (p i : Nat) (g : Run → Run) (q : Nat) : (s.modRun p i g).live q = s.live q := rfl
@[simp] theorem State.brim_modRun (s : State) (p i : Nat) (g : Run → Run) (q : Nat) : (s.modRun p i g).brim q = s.brim q := rfl
@[simp] theorem State.dp_modRun (s : State) (p i : Nat) (g : Run → Run) (q : Nat) : (s.modRun p i g).dp q = s.dp q := rfl
@[simp] theorem State.pp_modRun (s : State) (p i : Nat) (g : Run → Run) (q : Nat) : (s.modRun p i g).pp q = s.pp q := rfl
@[simp] theorem State.lg_modRun (s : State) (p i : Nat) (g : Run → Run) (q : Nat) : (s.modRun p i g).lg q = s.lg q := rfl
@[simp] theorem State.jobs_modRun (s : State) (p i : Nat) (g : Run → Run) (q r : Nat) : (s.modRun p i g).jobs q r = s.jobs q r := rfl
@[simp] theorem State.session_modRun (s : State) (p i : Nat) (g : Run → Run) (id : Nat) : (s.modRun p i g).session id = s.session id := rfl
@[simp] theorem State.conn_modRun (s : State) (p i : Nat) (g : Run → Run) (q : Mailbox) : (s.modRun p i g).conn q = s.conn q := rfl
@[simp] theorem State.now_modRun (s : State) (p i : Nat) (g : Run → Run) : (s.modRun p i g).now = s.now := rfl
@[simp] theorem State.partOf_modRun (s : State) (p i : Nat) (g : Run → Run) (h : Fn) : (s.modRun p i g).partOf h = s.partOf h := rfl
@[simp] theorem State.fnOf_modRun (s : State) (p i : Nat) (g : Run → Run) (q : Nat) : (s.modRun p i g).fnOf q = s.fnOf q := rfl
@[simp] theorem State.dieOwner_modRun (s : State) (p i : Nat) (g : Run → Run) (q : Nat) : (s.modRun p i g).dieOwner q = s.dieOwner q := rfl
@[simp] theorem State.diesOf_modRun (s : State) (p i : Nat) (g : Run → Run) (q : Nat) : (s.modRun p i g).diesOf q = s.diesOf q := rfl
@[simp] theorem State.portOpen_modRun (s : State) (p i : Nat) (g : Run → Run) (q : Nat) : (s.modRun p i g).portOpen q = s.portOpen q := rfl
@[simp] theorem State.vfAnswers_modRun (s : State) (p i : Nat) (g : Run → Run) (h : Fn) : (s.modRun p i g).vfAnswers h = s.vfAnswers h := rfl
@[simp] theorem State.millRuns_modRun (s : State) (p i : Nat) (g : Run → Run) : (s.modRun p i g).millRuns = s.millRuns := rfl
@[simp] theorem State.millServes_modRun (s : State) (p i : Nat) (g : Run → Run) : (s.modRun p i g).millServes = s.millServes := rfl
@[simp] theorem State.spdmServes_modRun (s : State) (p i : Nat) (g : Run → Run) (q : Mailbox) : (s.modRun p i g).spdmServes q = s.spdmServes q := rfl
@[simp] theorem State.place_modRun (s : State) (p i : Nat) (g : Run → Run) (q a : Nat) : (s.modRun p i g).place q a = s.place q a := rfl
@[simp] theorem State.drawn_modRun (s : State) (p i : Nat) (g : Run → Run) : (s.modRun p i g).drawn = s.drawn := rfl
@[simp] theorem State.xact_modRun (s : State) (p i : Nat) (g : Run → Run) (d e t : Nat) : (s.modRun p i g).xact d e t = s.xact d e t := rfl
@[simp] theorem State.laneUse_modRun (s : State) (p i : Nat) (g : Run → Run) (q : Nat) : (s.modRun p i g).laneUse q = s.laneUse q := rfl
@[simp] theorem State.groupUp_modRun (s : State) (p i : Nat) (g : Run → Run) (q : Nat) : (s.modRun p i g).groupUp q = s.groupUp q := rfl
@[simp] theorem State.canCompute_modRun (s : State) (p i : Nat) (g : Run → Run) (f : Found) : (s.modRun p i g).canCompute f = s.canCompute f := rfl
@[simp] theorem State.reg_modCmd (s : State) (p i j : Nat) (g : Cmd → Cmd) (j' : Nat) : (s.modCmd p i j g).reg j' = s.reg j' := rfl
@[simp] theorem State.fn_modCmd (s : State) (p i j : Nat) (g : Cmd → Cmd) (h : Fn) : (s.modCmd p i j g).fn h = s.fn h := rfl
@[simp] theorem State.port_modCmd (s : State) (p i j : Nat) (g : Cmd → Cmd) (q : Nat) : (s.modCmd p i j g).port q = s.port q := rfl
@[simp] theorem State.psec_modCmd (s : State) (p i j : Nat) (g : Cmd → Cmd) (q : Nat) : (s.modCmd p i j g).psec q = s.psec q := rfl
@[simp] theorem State.stack_modCmd (s : State) (p i j : Nat) (g : Cmd → Cmd) (q : Nat) : (s.modCmd p i j g).stack q = s.stack q := rfl
@[simp] theorem State.switch_modCmd (s : State) (p i j : Nat) (g : Cmd → Cmd) (q : Nat) : (s.modCmd p i j g).switch q = s.switch q := rfl
@[simp] theorem State.live_modCmd (s : State) (p i j : Nat) (g : Cmd → Cmd) (q : Nat) : (s.modCmd p i j g).live q = s.live q := rfl
@[simp] theorem State.brim_modCmd (s : State) (p i j : Nat) (g : Cmd → Cmd) (q : Nat) : (s.modCmd p i j g).brim q = s.brim q := rfl
@[simp] theorem State.dp_modCmd (s : State) (p i j : Nat) (g : Cmd → Cmd) (q : Nat) : (s.modCmd p i j g).dp q = s.dp q := rfl
@[simp] theorem State.pp_modCmd (s : State) (p i j : Nat) (g : Cmd → Cmd) (q : Nat) : (s.modCmd p i j g).pp q = s.pp q := rfl
@[simp] theorem State.lg_modCmd (s : State) (p i j : Nat) (g : Cmd → Cmd) (q : Nat) : (s.modCmd p i j g).lg q = s.lg q := rfl
@[simp] theorem State.jobs_modCmd (s : State) (p i j : Nat) (g : Cmd → Cmd) (q r : Nat) : (s.modCmd p i j g).jobs q r = s.jobs q r := rfl
@[simp] theorem State.session_modCmd (s : State) (p i j : Nat) (g : Cmd → Cmd) (id : Nat) : (s.modCmd p i j g).session id = s.session id := rfl
@[simp] theorem State.conn_modCmd (s : State) (p i j : Nat) (g : Cmd → Cmd) (q : Mailbox) : (s.modCmd p i j g).conn q = s.conn q := rfl
@[simp] theorem State.now_modCmd (s : State) (p i j : Nat) (g : Cmd → Cmd) : (s.modCmd p i j g).now = s.now := rfl
@[simp] theorem State.partOf_modCmd (s : State) (p i j : Nat) (g : Cmd → Cmd) (h : Fn) : (s.modCmd p i j g).partOf h = s.partOf h := rfl
@[simp] theorem State.fnOf_modCmd (s : State) (p i j : Nat) (g : Cmd → Cmd) (q : Nat) : (s.modCmd p i j g).fnOf q = s.fnOf q := rfl
@[simp] theorem State.dieOwner_modCmd (s : State) (p i j : Nat) (g : Cmd → Cmd) (q : Nat) : (s.modCmd p i j g).dieOwner q = s.dieOwner q := rfl
@[simp] theorem State.diesOf_modCmd (s : State) (p i j : Nat) (g : Cmd → Cmd) (q : Nat) : (s.modCmd p i j g).diesOf q = s.diesOf q := rfl
@[simp] theorem State.portOpen_modCmd (s : State) (p i j : Nat) (g : Cmd → Cmd) (q : Nat) : (s.modCmd p i j g).portOpen q = s.portOpen q := rfl
@[simp] theorem State.vfAnswers_modCmd (s : State) (p i j : Nat) (g : Cmd → Cmd) (h : Fn) : (s.modCmd p i j g).vfAnswers h = s.vfAnswers h := rfl
@[simp] theorem State.millRuns_modCmd (s : State) (p i j : Nat) (g : Cmd → Cmd) : (s.modCmd p i j g).millRuns = s.millRuns := rfl
@[simp] theorem State.millServes_modCmd (s : State) (p i j : Nat) (g : Cmd → Cmd) : (s.modCmd p i j g).millServes = s.millServes := rfl
@[simp] theorem State.spdmServes_modCmd (s : State) (p i j : Nat) (g : Cmd → Cmd) (q : Mailbox) : (s.modCmd p i j g).spdmServes q = s.spdmServes q := rfl
@[simp] theorem State.place_modCmd (s : State) (p i j : Nat) (g : Cmd → Cmd) (q a : Nat) : (s.modCmd p i j g).place q a = s.place q a := rfl
@[simp] theorem State.drawn_modCmd (s : State) (p i j : Nat) (g : Cmd → Cmd) : (s.modCmd p i j g).drawn = s.drawn := rfl
@[simp] theorem State.xact_modCmd (s : State) (p i j : Nat) (g : Cmd → Cmd) (d e t : Nat) : (s.modCmd p i j g).xact d e t = s.xact d e t := rfl
@[simp] theorem State.laneUse_modCmd (s : State) (p i j : Nat) (g : Cmd → Cmd) (q : Nat) : (s.modCmd p i j g).laneUse q = s.laneUse q := rfl
@[simp] theorem State.groupUp_modCmd (s : State) (p i j : Nat) (g : Cmd → Cmd) (q : Nat) : (s.modCmd p i j g).groupUp q = s.groupUp q := rfl
@[simp] theorem State.canCompute_modCmd (s : State) (p i j : Nat) (g : Cmd → Cmd) (f : Found) : (s.modCmd p i j g).canCompute f = s.canCompute f := rfl
@[simp] theorem State.reg_modRef (s : State) (c : CmdRef) (g : Cmd → Cmd) (j : Nat) : (s.modRef c g).reg j = s.reg j := rfl
@[simp] theorem State.fn_modRef (s : State) (c : CmdRef) (g : Cmd → Cmd) (h : Fn) : (s.modRef c g).fn h = s.fn h := rfl
@[simp] theorem State.port_modRef (s : State) (c : CmdRef) (g : Cmd → Cmd) (q : Nat) : (s.modRef c g).port q = s.port q := rfl
@[simp] theorem State.psec_modRef (s : State) (c : CmdRef) (g : Cmd → Cmd) (q : Nat) : (s.modRef c g).psec q = s.psec q := rfl
@[simp] theorem State.stack_modRef (s : State) (c : CmdRef) (g : Cmd → Cmd) (q : Nat) : (s.modRef c g).stack q = s.stack q := rfl
@[simp] theorem State.switch_modRef (s : State) (c : CmdRef) (g : Cmd → Cmd) (q : Nat) : (s.modRef c g).switch q = s.switch q := rfl
@[simp] theorem State.live_modRef (s : State) (c : CmdRef) (g : Cmd → Cmd) (q : Nat) : (s.modRef c g).live q = s.live q := rfl
@[simp] theorem State.brim_modRef (s : State) (c : CmdRef) (g : Cmd → Cmd) (q : Nat) : (s.modRef c g).brim q = s.brim q := rfl
@[simp] theorem State.dp_modRef (s : State) (c : CmdRef) (g : Cmd → Cmd) (q : Nat) : (s.modRef c g).dp q = s.dp q := rfl
@[simp] theorem State.pp_modRef (s : State) (c : CmdRef) (g : Cmd → Cmd) (q : Nat) : (s.modRef c g).pp q = s.pp q := rfl
@[simp] theorem State.lg_modRef (s : State) (c : CmdRef) (g : Cmd → Cmd) (q : Nat) : (s.modRef c g).lg q = s.lg q := rfl
@[simp] theorem State.jobs_modRef (s : State) (c : CmdRef) (g : Cmd → Cmd) (q r : Nat) : (s.modRef c g).jobs q r = s.jobs q r := rfl
@[simp] theorem State.session_modRef (s : State) (c : CmdRef) (g : Cmd → Cmd) (id : Nat) : (s.modRef c g).session id = s.session id := rfl
@[simp] theorem State.conn_modRef (s : State) (c : CmdRef) (g : Cmd → Cmd) (q : Mailbox) : (s.modRef c g).conn q = s.conn q := rfl
@[simp] theorem State.now_modRef (s : State) (c : CmdRef) (g : Cmd → Cmd) : (s.modRef c g).now = s.now := rfl
@[simp] theorem State.partOf_modRef (s : State) (c : CmdRef) (g : Cmd → Cmd) (h : Fn) : (s.modRef c g).partOf h = s.partOf h := rfl
@[simp] theorem State.fnOf_modRef (s : State) (c : CmdRef) (g : Cmd → Cmd) (q : Nat) : (s.modRef c g).fnOf q = s.fnOf q := rfl
@[simp] theorem State.dieOwner_modRef (s : State) (c : CmdRef) (g : Cmd → Cmd) (q : Nat) : (s.modRef c g).dieOwner q = s.dieOwner q := rfl
@[simp] theorem State.diesOf_modRef (s : State) (c : CmdRef) (g : Cmd → Cmd) (q : Nat) : (s.modRef c g).diesOf q = s.diesOf q := rfl
@[simp] theorem State.portOpen_modRef (s : State) (c : CmdRef) (g : Cmd → Cmd) (q : Nat) : (s.modRef c g).portOpen q = s.portOpen q := rfl
@[simp] theorem State.vfAnswers_modRef (s : State) (c : CmdRef) (g : Cmd → Cmd) (h : Fn) : (s.modRef c g).vfAnswers h = s.vfAnswers h := rfl
@[simp] theorem State.millRuns_modRef (s : State) (c : CmdRef) (g : Cmd → Cmd) : (s.modRef c g).millRuns = s.millRuns := rfl
@[simp] theorem State.millServes_modRef (s : State) (c : CmdRef) (g : Cmd → Cmd) : (s.modRef c g).millServes = s.millServes := rfl
@[simp] theorem State.spdmServes_modRef (s : State) (c : CmdRef) (g : Cmd → Cmd) (q : Mailbox) : (s.modRef c g).spdmServes q = s.spdmServes q := rfl
@[simp] theorem State.place_modRef (s : State) (c : CmdRef) (g : Cmd → Cmd) (q a : Nat) : (s.modRef c g).place q a = s.place q a := rfl
@[simp] theorem State.drawn_modRef (s : State) (c : CmdRef) (g : Cmd → Cmd) : (s.modRef c g).drawn = s.drawn := rfl
@[simp] theorem State.xact_modRef (s : State) (c : CmdRef) (g : Cmd → Cmd) (d e t : Nat) : (s.modRef c g).xact d e t = s.xact d e t := rfl
@[simp] theorem State.laneUse_modRef (s : State) (c : CmdRef) (g : Cmd → Cmd) (q : Nat) : (s.modRef c g).laneUse q = s.laneUse q := rfl
@[simp] theorem State.groupUp_modRef (s : State) (c : CmdRef) (g : Cmd → Cmd) (q : Nat) : (s.modRef c g).groupUp q = s.groupUp q := rfl
@[simp] theorem State.canCompute_modRef (s : State) (c : CmdRef) (g : Cmd → Cmd) (f : Found) : (s.modRef c g).canCompute f = s.canCompute f := rfl
@[simp] theorem State.reg_modStack (s : State) (m : Nat) (g : StackState → StackState) (j : Nat) : (s.modStack m g).reg j = s.reg j := rfl
@[simp] theorem State.fn_modStack (s : State) (m : Nat) (g : StackState → StackState) (h : Fn) : (s.modStack m g).fn h = s.fn h := rfl
@[simp] theorem State.port_modStack (s : State) (m : Nat) (g : StackState → StackState) (q : Nat) : (s.modStack m g).port q = s.port q := rfl
@[simp] theorem State.psec_modStack (s : State) (m : Nat) (g : StackState → StackState) (q : Nat) : (s.modStack m g).psec q = s.psec q := rfl
@[simp] theorem State.prn_modStack (s : State) (m : Nat) (g : StackState → StackState) (q : Nat) : (s.modStack m g).prn q = s.prn q := rfl
@[simp] theorem State.run_modStack (s : State) (m : Nat) (g : StackState → StackState) (q id : Nat) : (s.modStack m g).run q id = s.run q id := rfl
@[simp] theorem State.program_modStack (s : State) (m : Nat) (g : StackState → StackState) (q h : Nat) : (s.modStack m g).program q h = s.program q h := rfl
@[simp] theorem State.find_modStack (s : State) (m : Nat) (g : StackState → StackState) (r : CmdRef) : (s.modStack m g).find r = s.find r := rfl
@[simp] theorem State.switch_modStack (s : State) (m : Nat) (g : StackState → StackState) (q : Nat) : (s.modStack m g).switch q = s.switch q := rfl
@[simp] theorem State.live_modStack (s : State) (m : Nat) (g : StackState → StackState) (q : Nat) : (s.modStack m g).live q = s.live q := rfl
@[simp] theorem State.brim_modStack (s : State) (m : Nat) (g : StackState → StackState) (q : Nat) : (s.modStack m g).brim q = s.brim q := rfl
@[simp] theorem State.dp_modStack (s : State) (m : Nat) (g : StackState → StackState) (q : Nat) : (s.modStack m g).dp q = s.dp q := rfl
@[simp] theorem State.pp_modStack (s : State) (m : Nat) (g : StackState → StackState) (q : Nat) : (s.modStack m g).pp q = s.pp q := rfl
@[simp] theorem State.lg_modStack (s : State) (m : Nat) (g : StackState → StackState) (q : Nat) : (s.modStack m g).lg q = s.lg q := rfl
@[simp] theorem State.jobs_modStack (s : State) (m : Nat) (g : StackState → StackState) (q r : Nat) : (s.modStack m g).jobs q r = s.jobs q r := rfl
@[simp] theorem State.session_modStack (s : State) (m : Nat) (g : StackState → StackState) (id : Nat) : (s.modStack m g).session id = s.session id := rfl
@[simp] theorem State.conn_modStack (s : State) (m : Nat) (g : StackState → StackState) (q : Mailbox) : (s.modStack m g).conn q = s.conn q := rfl
@[simp] theorem State.now_modStack (s : State) (m : Nat) (g : StackState → StackState) : (s.modStack m g).now = s.now := rfl
@[simp] theorem State.partOf_modStack (s : State) (m : Nat) (g : StackState → StackState) (h : Fn) : (s.modStack m g).partOf h = s.partOf h := rfl
@[simp] theorem State.fnOf_modStack (s : State) (m : Nat) (g : StackState → StackState) (q : Nat) : (s.modStack m g).fnOf q = s.fnOf q := rfl
@[simp] theorem State.dieOwner_modStack (s : State) (m : Nat) (g : StackState → StackState) (q : Nat) : (s.modStack m g).dieOwner q = s.dieOwner q := rfl
@[simp] theorem State.diesOf_modStack (s : State) (m : Nat) (g : StackState → StackState) (q : Nat) : (s.modStack m g).diesOf q = s.diesOf q := rfl
@[simp] theorem State.portOpen_modStack (s : State) (m : Nat) (g : StackState → StackState) (q : Nat) : (s.modStack m g).portOpen q = s.portOpen q := rfl
@[simp] theorem State.vfAnswers_modStack (s : State) (m : Nat) (g : StackState → StackState) (h : Fn) : (s.modStack m g).vfAnswers h = s.vfAnswers h := rfl
@[simp] theorem State.millRuns_modStack (s : State) (m : Nat) (g : StackState → StackState) : (s.modStack m g).millRuns = s.millRuns := rfl
@[simp] theorem State.millServes_modStack (s : State) (m : Nat) (g : StackState → StackState) : (s.modStack m g).millServes = s.millServes := rfl
@[simp] theorem State.spdmServes_modStack (s : State) (m : Nat) (g : StackState → StackState) (q : Mailbox) : (s.modStack m g).spdmServes q = s.spdmServes q := rfl
@[simp] theorem State.place_modStack (s : State) (m : Nat) (g : StackState → StackState) (q a : Nat) : (s.modStack m g).place q a = s.place q a := rfl
@[simp] theorem State.drawn_modStack (s : State) (m : Nat) (g : StackState → StackState) : (s.modStack m g).drawn = s.drawn := rfl
@[simp] theorem State.xact_modStack (s : State) (m : Nat) (g : StackState → StackState) (d e t : Nat) : (s.modStack m g).xact d e t = s.xact d e t := rfl
@[simp] theorem State.laneUse_modStack (s : State) (m : Nat) (g : StackState → StackState) (q : Nat) : (s.modStack m g).laneUse q = s.laneUse q := rfl
@[simp] theorem State.groupUp_modStack (s : State) (m : Nat) (g : StackState → StackState) (q : Nat) : (s.modStack m g).groupUp q = s.groupUp q := rfl
@[simp] theorem State.canCompute_modStack (s : State) (m : Nat) (g : StackState → StackState) (f : Found) : (s.modStack m g).canCompute f = s.canCompute f := rfl
@[simp] theorem State.reg_modSwitch (s : State) (n : Nat) (g : SwitchState → SwitchState) (j : Nat) : (s.modSwitch n g).reg j = s.reg j := rfl
@[simp] theorem State.fn_modSwitch (s : State) (n : Nat) (g : SwitchState → SwitchState) (h : Fn) : (s.modSwitch n g).fn h = s.fn h := rfl
@[simp] theorem State.port_modSwitch (s : State) (n : Nat) (g : SwitchState → SwitchState) (q : Nat) : (s.modSwitch n g).port q = s.port q := rfl
@[simp] theorem State.psec_modSwitch (s : State) (n : Nat) (g : SwitchState → SwitchState) (q : Nat) : (s.modSwitch n g).psec q = s.psec q := rfl
@[simp] theorem State.prn_modSwitch (s : State) (n : Nat) (g : SwitchState → SwitchState) (q : Nat) : (s.modSwitch n g).prn q = s.prn q := rfl
@[simp] theorem State.run_modSwitch (s : State) (n : Nat) (g : SwitchState → SwitchState) (q id : Nat) : (s.modSwitch n g).run q id = s.run q id := rfl
@[simp] theorem State.program_modSwitch (s : State) (n : Nat) (g : SwitchState → SwitchState) (q h : Nat) : (s.modSwitch n g).program q h = s.program q h := rfl
@[simp] theorem State.find_modSwitch (s : State) (n : Nat) (g : SwitchState → SwitchState) (r : CmdRef) : (s.modSwitch n g).find r = s.find r := rfl
@[simp] theorem State.stack_modSwitch (s : State) (n : Nat) (g : SwitchState → SwitchState) (q : Nat) : (s.modSwitch n g).stack q = s.stack q := rfl
@[simp] theorem State.brim_modSwitch (s : State) (n : Nat) (g : SwitchState → SwitchState) (q : Nat) : (s.modSwitch n g).brim q = s.brim q := rfl
@[simp] theorem State.dp_modSwitch (s : State) (n : Nat) (g : SwitchState → SwitchState) (q : Nat) : (s.modSwitch n g).dp q = s.dp q := rfl
@[simp] theorem State.pp_modSwitch (s : State) (n : Nat) (g : SwitchState → SwitchState) (q : Nat) : (s.modSwitch n g).pp q = s.pp q := rfl
@[simp] theorem State.lg_modSwitch (s : State) (n : Nat) (g : SwitchState → SwitchState) (q : Nat) : (s.modSwitch n g).lg q = s.lg q := rfl
@[simp] theorem State.jobs_modSwitch (s : State) (n : Nat) (g : SwitchState → SwitchState) (q r : Nat) : (s.modSwitch n g).jobs q r = s.jobs q r := rfl
@[simp] theorem State.session_modSwitch (s : State) (n : Nat) (g : SwitchState → SwitchState) (id : Nat) : (s.modSwitch n g).session id = s.session id := rfl
@[simp] theorem State.conn_modSwitch (s : State) (n : Nat) (g : SwitchState → SwitchState) (q : Mailbox) : (s.modSwitch n g).conn q = s.conn q := rfl
@[simp] theorem State.now_modSwitch (s : State) (n : Nat) (g : SwitchState → SwitchState) : (s.modSwitch n g).now = s.now := rfl
@[simp] theorem State.partOf_modSwitch (s : State) (n : Nat) (g : SwitchState → SwitchState) (h : Fn) : (s.modSwitch n g).partOf h = s.partOf h := rfl
@[simp] theorem State.fnOf_modSwitch (s : State) (n : Nat) (g : SwitchState → SwitchState) (q : Nat) : (s.modSwitch n g).fnOf q = s.fnOf q := rfl
@[simp] theorem State.dieOwner_modSwitch (s : State) (n : Nat) (g : SwitchState → SwitchState) (q : Nat) : (s.modSwitch n g).dieOwner q = s.dieOwner q := rfl
@[simp] theorem State.diesOf_modSwitch (s : State) (n : Nat) (g : SwitchState → SwitchState) (q : Nat) : (s.modSwitch n g).diesOf q = s.diesOf q := rfl
@[simp] theorem State.portOpen_modSwitch (s : State) (n : Nat) (g : SwitchState → SwitchState) (q : Nat) : (s.modSwitch n g).portOpen q = s.portOpen q := rfl
@[simp] theorem State.vfAnswers_modSwitch (s : State) (n : Nat) (g : SwitchState → SwitchState) (h : Fn) : (s.modSwitch n g).vfAnswers h = s.vfAnswers h := rfl
@[simp] theorem State.millRuns_modSwitch (s : State) (n : Nat) (g : SwitchState → SwitchState) : (s.modSwitch n g).millRuns = s.millRuns := rfl
@[simp] theorem State.millServes_modSwitch (s : State) (n : Nat) (g : SwitchState → SwitchState) : (s.modSwitch n g).millServes = s.millServes := rfl
@[simp] theorem State.spdmServes_modSwitch (s : State) (n : Nat) (g : SwitchState → SwitchState) (q : Mailbox) : (s.modSwitch n g).spdmServes q = s.spdmServes q := rfl
@[simp] theorem State.place_modSwitch (s : State) (n : Nat) (g : SwitchState → SwitchState) (q a : Nat) : (s.modSwitch n g).place q a = s.place q a := rfl
@[simp] theorem State.drawn_modSwitch (s : State) (n : Nat) (g : SwitchState → SwitchState) : (s.modSwitch n g).drawn = s.drawn := rfl
@[simp] theorem State.xact_modSwitch (s : State) (n : Nat) (g : SwitchState → SwitchState) (d e t : Nat) : (s.modSwitch n g).xact d e t = s.xact d e t := rfl
@[simp] theorem State.laneUse_modSwitch (s : State) (n : Nat) (g : SwitchState → SwitchState) (q : Nat) : (s.modSwitch n g).laneUse q = s.laneUse q := rfl
@[simp] theorem State.groupUp_modSwitch (s : State) (n : Nat) (g : SwitchState → SwitchState) (q : Nat) : (s.modSwitch n g).groupUp q = s.groupUp q := rfl
@[simp] theorem State.canCompute_modSwitch (s : State) (n : Nat) (g : SwitchState → SwitchState) (f : Found) : (s.modSwitch n g).canCompute f = s.canCompute f := rfl
@[simp] theorem State.reg_modBrim (s : State) (c : Nat) (g : Brim → Brim) (j : Nat) : (s.modBrim c g).reg j = s.reg j := rfl
@[simp] theorem State.fn_modBrim (s : State) (c : Nat) (g : Brim → Brim) (h : Fn) : (s.modBrim c g).fn h = s.fn h := rfl
@[simp] theorem State.port_modBrim (s : State) (c : Nat) (g : Brim → Brim) (q : Nat) : (s.modBrim c g).port q = s.port q := rfl
@[simp] theorem State.psec_modBrim (s : State) (c : Nat) (g : Brim → Brim) (q : Nat) : (s.modBrim c g).psec q = s.psec q := rfl
@[simp] theorem State.prn_modBrim (s : State) (c : Nat) (g : Brim → Brim) (q : Nat) : (s.modBrim c g).prn q = s.prn q := rfl
@[simp] theorem State.run_modBrim (s : State) (c : Nat) (g : Brim → Brim) (q id : Nat) : (s.modBrim c g).run q id = s.run q id := rfl
@[simp] theorem State.program_modBrim (s : State) (c : Nat) (g : Brim → Brim) (q h : Nat) : (s.modBrim c g).program q h = s.program q h := rfl
@[simp] theorem State.find_modBrim (s : State) (c : Nat) (g : Brim → Brim) (r : CmdRef) : (s.modBrim c g).find r = s.find r := rfl
@[simp] theorem State.stack_modBrim (s : State) (c : Nat) (g : Brim → Brim) (q : Nat) : (s.modBrim c g).stack q = s.stack q := rfl
@[simp] theorem State.switch_modBrim (s : State) (c : Nat) (g : Brim → Brim) (q : Nat) : (s.modBrim c g).switch q = s.switch q := rfl
@[simp] theorem State.live_modBrim (s : State) (c : Nat) (g : Brim → Brim) (q : Nat) : (s.modBrim c g).live q = s.live q := rfl
@[simp] theorem State.dp_modBrim (s : State) (c : Nat) (g : Brim → Brim) (q : Nat) : (s.modBrim c g).dp q = s.dp q := rfl
@[simp] theorem State.pp_modBrim (s : State) (c : Nat) (g : Brim → Brim) (q : Nat) : (s.modBrim c g).pp q = s.pp q := rfl
@[simp] theorem State.lg_modBrim (s : State) (c : Nat) (g : Brim → Brim) (q : Nat) : (s.modBrim c g).lg q = s.lg q := rfl
@[simp] theorem State.jobs_modBrim (s : State) (c : Nat) (g : Brim → Brim) (q r : Nat) : (s.modBrim c g).jobs q r = s.jobs q r := rfl
@[simp] theorem State.session_modBrim (s : State) (c : Nat) (g : Brim → Brim) (id : Nat) : (s.modBrim c g).session id = s.session id := rfl
@[simp] theorem State.conn_modBrim (s : State) (c : Nat) (g : Brim → Brim) (q : Mailbox) : (s.modBrim c g).conn q = s.conn q := rfl
@[simp] theorem State.now_modBrim (s : State) (c : Nat) (g : Brim → Brim) : (s.modBrim c g).now = s.now := rfl
@[simp] theorem State.partOf_modBrim (s : State) (c : Nat) (g : Brim → Brim) (h : Fn) : (s.modBrim c g).partOf h = s.partOf h := rfl
@[simp] theorem State.fnOf_modBrim (s : State) (c : Nat) (g : Brim → Brim) (q : Nat) : (s.modBrim c g).fnOf q = s.fnOf q := rfl
@[simp] theorem State.dieOwner_modBrim (s : State) (c : Nat) (g : Brim → Brim) (q : Nat) : (s.modBrim c g).dieOwner q = s.dieOwner q := rfl
@[simp] theorem State.diesOf_modBrim (s : State) (c : Nat) (g : Brim → Brim) (q : Nat) : (s.modBrim c g).diesOf q = s.diesOf q := rfl
@[simp] theorem State.portOpen_modBrim (s : State) (c : Nat) (g : Brim → Brim) (q : Nat) : (s.modBrim c g).portOpen q = s.portOpen q := rfl
@[simp] theorem State.vfAnswers_modBrim (s : State) (c : Nat) (g : Brim → Brim) (h : Fn) : (s.modBrim c g).vfAnswers h = s.vfAnswers h := rfl
@[simp] theorem State.millRuns_modBrim (s : State) (c : Nat) (g : Brim → Brim) : (s.modBrim c g).millRuns = s.millRuns := rfl
@[simp] theorem State.millServes_modBrim (s : State) (c : Nat) (g : Brim → Brim) : (s.modBrim c g).millServes = s.millServes := rfl
@[simp] theorem State.spdmServes_modBrim (s : State) (c : Nat) (g : Brim → Brim) (q : Mailbox) : (s.modBrim c g).spdmServes q = s.spdmServes q := rfl
@[simp] theorem State.place_modBrim (s : State) (c : Nat) (g : Brim → Brim) (q a : Nat) : (s.modBrim c g).place q a = s.place q a := rfl
@[simp] theorem State.drawn_modBrim (s : State) (c : Nat) (g : Brim → Brim) : (s.modBrim c g).drawn = s.drawn := rfl
@[simp] theorem State.xact_modBrim (s : State) (c : Nat) (g : Brim → Brim) (d e t : Nat) : (s.modBrim c g).xact d e t = s.xact d e t := rfl
@[simp] theorem State.laneUse_modBrim (s : State) (c : Nat) (g : Brim → Brim) (q : Nat) : (s.modBrim c g).laneUse q = s.laneUse q := rfl
@[simp] theorem State.groupUp_modBrim (s : State) (c : Nat) (g : Brim → Brim) (q : Nat) : (s.modBrim c g).groupUp q = s.groupUp q := rfl
@[simp] theorem State.canCompute_modBrim (s : State) (c : Nat) (g : Brim → Brim) (f : Found) : (s.modBrim c g).canCompute f = s.canCompute f := rfl
@[simp] theorem State.reg_modDp (s : State) (c : Nat) (g : DiePower → DiePower) (j : Nat) : (s.modDp c g).reg j = s.reg j := rfl
@[simp] theorem State.fn_modDp (s : State) (c : Nat) (g : DiePower → DiePower) (h : Fn) : (s.modDp c g).fn h = s.fn h := rfl
@[simp] theorem State.port_modDp (s : State) (c : Nat) (g : DiePower → DiePower) (q : Nat) : (s.modDp c g).port q = s.port q := rfl
@[simp] theorem State.psec_modDp (s : State) (c : Nat) (g : DiePower → DiePower) (q : Nat) : (s.modDp c g).psec q = s.psec q := rfl
@[simp] theorem State.prn_modDp (s : State) (c : Nat) (g : DiePower → DiePower) (q : Nat) : (s.modDp c g).prn q = s.prn q := rfl
@[simp] theorem State.run_modDp (s : State) (c : Nat) (g : DiePower → DiePower) (q id : Nat) : (s.modDp c g).run q id = s.run q id := rfl
@[simp] theorem State.program_modDp (s : State) (c : Nat) (g : DiePower → DiePower) (q h : Nat) : (s.modDp c g).program q h = s.program q h := rfl
@[simp] theorem State.find_modDp (s : State) (c : Nat) (g : DiePower → DiePower) (r : CmdRef) : (s.modDp c g).find r = s.find r := rfl
@[simp] theorem State.stack_modDp (s : State) (c : Nat) (g : DiePower → DiePower) (q : Nat) : (s.modDp c g).stack q = s.stack q := rfl
@[simp] theorem State.switch_modDp (s : State) (c : Nat) (g : DiePower → DiePower) (q : Nat) : (s.modDp c g).switch q = s.switch q := rfl
@[simp] theorem State.live_modDp (s : State) (c : Nat) (g : DiePower → DiePower) (q : Nat) : (s.modDp c g).live q = s.live q := rfl
@[simp] theorem State.brim_modDp (s : State) (c : Nat) (g : DiePower → DiePower) (q : Nat) : (s.modDp c g).brim q = s.brim q := rfl
@[simp] theorem State.pp_modDp (s : State) (c : Nat) (g : DiePower → DiePower) (q : Nat) : (s.modDp c g).pp q = s.pp q := rfl
@[simp] theorem State.lg_modDp (s : State) (c : Nat) (g : DiePower → DiePower) (q : Nat) : (s.modDp c g).lg q = s.lg q := rfl
@[simp] theorem State.jobs_modDp (s : State) (c : Nat) (g : DiePower → DiePower) (q r : Nat) : (s.modDp c g).jobs q r = s.jobs q r := rfl
@[simp] theorem State.session_modDp (s : State) (c : Nat) (g : DiePower → DiePower) (id : Nat) : (s.modDp c g).session id = s.session id := rfl
@[simp] theorem State.conn_modDp (s : State) (c : Nat) (g : DiePower → DiePower) (q : Mailbox) : (s.modDp c g).conn q = s.conn q := rfl
@[simp] theorem State.now_modDp (s : State) (c : Nat) (g : DiePower → DiePower) : (s.modDp c g).now = s.now := rfl
@[simp] theorem State.partOf_modDp (s : State) (c : Nat) (g : DiePower → DiePower) (h : Fn) : (s.modDp c g).partOf h = s.partOf h := rfl
@[simp] theorem State.fnOf_modDp (s : State) (c : Nat) (g : DiePower → DiePower) (q : Nat) : (s.modDp c g).fnOf q = s.fnOf q := rfl
@[simp] theorem State.dieOwner_modDp (s : State) (c : Nat) (g : DiePower → DiePower) (q : Nat) : (s.modDp c g).dieOwner q = s.dieOwner q := rfl
@[simp] theorem State.diesOf_modDp (s : State) (c : Nat) (g : DiePower → DiePower) (q : Nat) : (s.modDp c g).diesOf q = s.diesOf q := rfl
@[simp] theorem State.portOpen_modDp (s : State) (c : Nat) (g : DiePower → DiePower) (q : Nat) : (s.modDp c g).portOpen q = s.portOpen q := rfl
@[simp] theorem State.vfAnswers_modDp (s : State) (c : Nat) (g : DiePower → DiePower) (h : Fn) : (s.modDp c g).vfAnswers h = s.vfAnswers h := rfl
@[simp] theorem State.millRuns_modDp (s : State) (c : Nat) (g : DiePower → DiePower) : (s.modDp c g).millRuns = s.millRuns := rfl
@[simp] theorem State.millServes_modDp (s : State) (c : Nat) (g : DiePower → DiePower) : (s.modDp c g).millServes = s.millServes := rfl
@[simp] theorem State.spdmServes_modDp (s : State) (c : Nat) (g : DiePower → DiePower) (q : Mailbox) : (s.modDp c g).spdmServes q = s.spdmServes q := rfl
@[simp] theorem State.place_modDp (s : State) (c : Nat) (g : DiePower → DiePower) (q a : Nat) : (s.modDp c g).place q a = s.place q a := rfl
@[simp] theorem State.drawn_modDp (s : State) (c : Nat) (g : DiePower → DiePower) : (s.modDp c g).drawn = s.drawn := rfl
@[simp] theorem State.xact_modDp (s : State) (c : Nat) (g : DiePower → DiePower) (d e t : Nat) : (s.modDp c g).xact d e t = s.xact d e t := rfl
@[simp] theorem State.laneUse_modDp (s : State) (c : Nat) (g : DiePower → DiePower) (q : Nat) : (s.modDp c g).laneUse q = s.laneUse q := rfl
@[simp] theorem State.groupUp_modDp (s : State) (c : Nat) (g : DiePower → DiePower) (q : Nat) : (s.modDp c g).groupUp q = s.groupUp q := rfl
@[simp] theorem State.canCompute_modDp (s : State) (c : Nat) (g : DiePower → DiePower) (f : Found) : (s.modDp c g).canCompute f = s.canCompute f := rfl
@[simp] theorem State.reg_modPp (s : State) (p : Nat) (g : PartPower → PartPower) (j : Nat) : (s.modPp p g).reg j = s.reg j := rfl
@[simp] theorem State.fn_modPp (s : State) (p : Nat) (g : PartPower → PartPower) (h : Fn) : (s.modPp p g).fn h = s.fn h := rfl
@[simp] theorem State.port_modPp (s : State) (p : Nat) (g : PartPower → PartPower) (q : Nat) : (s.modPp p g).port q = s.port q := rfl
@[simp] theorem State.psec_modPp (s : State) (p : Nat) (g : PartPower → PartPower) (q : Nat) : (s.modPp p g).psec q = s.psec q := rfl
@[simp] theorem State.prn_modPp (s : State) (p : Nat) (g : PartPower → PartPower) (q : Nat) : (s.modPp p g).prn q = s.prn q := rfl
@[simp] theorem State.run_modPp (s : State) (p : Nat) (g : PartPower → PartPower) (q id : Nat) : (s.modPp p g).run q id = s.run q id := rfl
@[simp] theorem State.program_modPp (s : State) (p : Nat) (g : PartPower → PartPower) (q h : Nat) : (s.modPp p g).program q h = s.program q h := rfl
@[simp] theorem State.find_modPp (s : State) (p : Nat) (g : PartPower → PartPower) (r : CmdRef) : (s.modPp p g).find r = s.find r := rfl
@[simp] theorem State.stack_modPp (s : State) (p : Nat) (g : PartPower → PartPower) (q : Nat) : (s.modPp p g).stack q = s.stack q := rfl
@[simp] theorem State.switch_modPp (s : State) (p : Nat) (g : PartPower → PartPower) (q : Nat) : (s.modPp p g).switch q = s.switch q := rfl
@[simp] theorem State.live_modPp (s : State) (p : Nat) (g : PartPower → PartPower) (q : Nat) : (s.modPp p g).live q = s.live q := rfl
@[simp] theorem State.brim_modPp (s : State) (p : Nat) (g : PartPower → PartPower) (q : Nat) : (s.modPp p g).brim q = s.brim q := rfl
@[simp] theorem State.dp_modPp (s : State) (p : Nat) (g : PartPower → PartPower) (q : Nat) : (s.modPp p g).dp q = s.dp q := rfl
@[simp] theorem State.lg_modPp (s : State) (p : Nat) (g : PartPower → PartPower) (q : Nat) : (s.modPp p g).lg q = s.lg q := rfl
@[simp] theorem State.jobs_modPp (s : State) (p : Nat) (g : PartPower → PartPower) (q r : Nat) : (s.modPp p g).jobs q r = s.jobs q r := rfl
@[simp] theorem State.session_modPp (s : State) (p : Nat) (g : PartPower → PartPower) (id : Nat) : (s.modPp p g).session id = s.session id := rfl
@[simp] theorem State.conn_modPp (s : State) (p : Nat) (g : PartPower → PartPower) (q : Mailbox) : (s.modPp p g).conn q = s.conn q := rfl
@[simp] theorem State.now_modPp (s : State) (p : Nat) (g : PartPower → PartPower) : (s.modPp p g).now = s.now := rfl
@[simp] theorem State.partOf_modPp (s : State) (p : Nat) (g : PartPower → PartPower) (h : Fn) : (s.modPp p g).partOf h = s.partOf h := rfl
@[simp] theorem State.fnOf_modPp (s : State) (p : Nat) (g : PartPower → PartPower) (q : Nat) : (s.modPp p g).fnOf q = s.fnOf q := rfl
@[simp] theorem State.dieOwner_modPp (s : State) (p : Nat) (g : PartPower → PartPower) (q : Nat) : (s.modPp p g).dieOwner q = s.dieOwner q := rfl
@[simp] theorem State.diesOf_modPp (s : State) (p : Nat) (g : PartPower → PartPower) (q : Nat) : (s.modPp p g).diesOf q = s.diesOf q := rfl
@[simp] theorem State.portOpen_modPp (s : State) (p : Nat) (g : PartPower → PartPower) (q : Nat) : (s.modPp p g).portOpen q = s.portOpen q := rfl
@[simp] theorem State.vfAnswers_modPp (s : State) (p : Nat) (g : PartPower → PartPower) (h : Fn) : (s.modPp p g).vfAnswers h = s.vfAnswers h := rfl
@[simp] theorem State.millRuns_modPp (s : State) (p : Nat) (g : PartPower → PartPower) : (s.modPp p g).millRuns = s.millRuns := rfl
@[simp] theorem State.millServes_modPp (s : State) (p : Nat) (g : PartPower → PartPower) : (s.modPp p g).millServes = s.millServes := rfl
@[simp] theorem State.spdmServes_modPp (s : State) (p : Nat) (g : PartPower → PartPower) (q : Mailbox) : (s.modPp p g).spdmServes q = s.spdmServes q := rfl
@[simp] theorem State.place_modPp (s : State) (p : Nat) (g : PartPower → PartPower) (q a : Nat) : (s.modPp p g).place q a = s.place q a := rfl
@[simp] theorem State.drawn_modPp (s : State) (p : Nat) (g : PartPower → PartPower) : (s.modPp p g).drawn = s.drawn := rfl
@[simp] theorem State.xact_modPp (s : State) (p : Nat) (g : PartPower → PartPower) (d e t : Nat) : (s.modPp p g).xact d e t = s.xact d e t := rfl
@[simp] theorem State.laneUse_modPp (s : State) (p : Nat) (g : PartPower → PartPower) (q : Nat) : (s.modPp p g).laneUse q = s.laneUse q := rfl
@[simp] theorem State.groupUp_modPp (s : State) (p : Nat) (g : PartPower → PartPower) (q : Nat) : (s.modPp p g).groupUp q = s.groupUp q := rfl
@[simp] theorem State.canCompute_modPp (s : State) (p : Nat) (g : PartPower → PartPower) (f : Found) : (s.modPp p g).canCompute f = s.canCompute f := rfl
@[simp] theorem State.reg_modLg (s : State) (n : Nat) (g : LaneGroup → LaneGroup) (j : Nat) : (s.modLg n g).reg j = s.reg j := rfl
@[simp] theorem State.fn_modLg (s : State) (n : Nat) (g : LaneGroup → LaneGroup) (h : Fn) : (s.modLg n g).fn h = s.fn h := rfl
@[simp] theorem State.port_modLg (s : State) (n : Nat) (g : LaneGroup → LaneGroup) (q : Nat) : (s.modLg n g).port q = s.port q := rfl
@[simp] theorem State.psec_modLg (s : State) (n : Nat) (g : LaneGroup → LaneGroup) (q : Nat) : (s.modLg n g).psec q = s.psec q := rfl
@[simp] theorem State.prn_modLg (s : State) (n : Nat) (g : LaneGroup → LaneGroup) (q : Nat) : (s.modLg n g).prn q = s.prn q := rfl
@[simp] theorem State.run_modLg (s : State) (n : Nat) (g : LaneGroup → LaneGroup) (q id : Nat) : (s.modLg n g).run q id = s.run q id := rfl
@[simp] theorem State.program_modLg (s : State) (n : Nat) (g : LaneGroup → LaneGroup) (q h : Nat) : (s.modLg n g).program q h = s.program q h := rfl
@[simp] theorem State.find_modLg (s : State) (n : Nat) (g : LaneGroup → LaneGroup) (r : CmdRef) : (s.modLg n g).find r = s.find r := rfl
@[simp] theorem State.stack_modLg (s : State) (n : Nat) (g : LaneGroup → LaneGroup) (q : Nat) : (s.modLg n g).stack q = s.stack q := rfl
@[simp] theorem State.switch_modLg (s : State) (n : Nat) (g : LaneGroup → LaneGroup) (q : Nat) : (s.modLg n g).switch q = s.switch q := rfl
@[simp] theorem State.live_modLg (s : State) (n : Nat) (g : LaneGroup → LaneGroup) (q : Nat) : (s.modLg n g).live q = s.live q := rfl
@[simp] theorem State.brim_modLg (s : State) (n : Nat) (g : LaneGroup → LaneGroup) (q : Nat) : (s.modLg n g).brim q = s.brim q := rfl
@[simp] theorem State.dp_modLg (s : State) (n : Nat) (g : LaneGroup → LaneGroup) (q : Nat) : (s.modLg n g).dp q = s.dp q := rfl
@[simp] theorem State.pp_modLg (s : State) (n : Nat) (g : LaneGroup → LaneGroup) (q : Nat) : (s.modLg n g).pp q = s.pp q := rfl
@[simp] theorem State.jobs_modLg (s : State) (n : Nat) (g : LaneGroup → LaneGroup) (q r : Nat) : (s.modLg n g).jobs q r = s.jobs q r := rfl
@[simp] theorem State.session_modLg (s : State) (n : Nat) (g : LaneGroup → LaneGroup) (id : Nat) : (s.modLg n g).session id = s.session id := rfl
@[simp] theorem State.conn_modLg (s : State) (n : Nat) (g : LaneGroup → LaneGroup) (q : Mailbox) : (s.modLg n g).conn q = s.conn q := rfl
@[simp] theorem State.now_modLg (s : State) (n : Nat) (g : LaneGroup → LaneGroup) : (s.modLg n g).now = s.now := rfl
@[simp] theorem State.partOf_modLg (s : State) (n : Nat) (g : LaneGroup → LaneGroup) (h : Fn) : (s.modLg n g).partOf h = s.partOf h := rfl
@[simp] theorem State.fnOf_modLg (s : State) (n : Nat) (g : LaneGroup → LaneGroup) (q : Nat) : (s.modLg n g).fnOf q = s.fnOf q := rfl
@[simp] theorem State.dieOwner_modLg (s : State) (n : Nat) (g : LaneGroup → LaneGroup) (q : Nat) : (s.modLg n g).dieOwner q = s.dieOwner q := rfl
@[simp] theorem State.diesOf_modLg (s : State) (n : Nat) (g : LaneGroup → LaneGroup) (q : Nat) : (s.modLg n g).diesOf q = s.diesOf q := rfl
@[simp] theorem State.portOpen_modLg (s : State) (n : Nat) (g : LaneGroup → LaneGroup) (q : Nat) : (s.modLg n g).portOpen q = s.portOpen q := rfl
@[simp] theorem State.vfAnswers_modLg (s : State) (n : Nat) (g : LaneGroup → LaneGroup) (h : Fn) : (s.modLg n g).vfAnswers h = s.vfAnswers h := rfl
@[simp] theorem State.millRuns_modLg (s : State) (n : Nat) (g : LaneGroup → LaneGroup) : (s.modLg n g).millRuns = s.millRuns := rfl
@[simp] theorem State.millServes_modLg (s : State) (n : Nat) (g : LaneGroup → LaneGroup) : (s.modLg n g).millServes = s.millServes := rfl
@[simp] theorem State.spdmServes_modLg (s : State) (n : Nat) (g : LaneGroup → LaneGroup) (q : Mailbox) : (s.modLg n g).spdmServes q = s.spdmServes q := rfl
@[simp] theorem State.place_modLg (s : State) (n : Nat) (g : LaneGroup → LaneGroup) (q a : Nat) : (s.modLg n g).place q a = s.place q a := rfl
@[simp] theorem State.drawn_modLg (s : State) (n : Nat) (g : LaneGroup → LaneGroup) : (s.modLg n g).drawn = s.drawn := rfl
@[simp] theorem State.xact_modLg (s : State) (n : Nat) (g : LaneGroup → LaneGroup) (d e t : Nat) : (s.modLg n g).xact d e t = s.xact d e t := rfl
@[simp] theorem State.laneUse_modLg (s : State) (n : Nat) (g : LaneGroup → LaneGroup) (q : Nat) : (s.modLg n g).laneUse q = s.laneUse q := rfl
@[simp] theorem State.groupUp_modLg (s : State) (n : Nat) (g : LaneGroup → LaneGroup) (q : Nat) : (s.modLg n g).groupUp q = s.groupUp q := rfl
@[simp] theorem State.canCompute_modLg (s : State) (n : Nat) (g : LaneGroup → LaneGroup) (f : Found) : (s.modLg n g).canCompute f = s.canCompute f := rfl
@[simp] theorem State.reg_setJobs (s : State) (m c : Nat) (l : List Job) (j : Nat) : (s.setJobs m c l).reg j = s.reg j := rfl
@[simp] theorem State.fn_setJobs (s : State) (m c : Nat) (l : List Job) (h : Fn) : (s.setJobs m c l).fn h = s.fn h := rfl
@[simp] theorem State.port_setJobs (s : State) (m c : Nat) (l : List Job) (q : Nat) : (s.setJobs m c l).port q = s.port q := rfl
@[simp] theorem State.psec_setJobs (s : State) (m c : Nat) (l : List Job) (q : Nat) : (s.setJobs m c l).psec q = s.psec q := rfl
@[simp] theorem State.prn_setJobs (s : State) (m c : Nat) (l : List Job) (q : Nat) : (s.setJobs m c l).prn q = s.prn q := rfl
@[simp] theorem State.run_setJobs (s : State) (m c : Nat) (l : List Job) (q id : Nat) : (s.setJobs m c l).run q id = s.run q id := rfl
@[simp] theorem State.program_setJobs (s : State) (m c : Nat) (l : List Job) (q h : Nat) : (s.setJobs m c l).program q h = s.program q h := rfl
@[simp] theorem State.find_setJobs (s : State) (m c : Nat) (l : List Job) (r : CmdRef) : (s.setJobs m c l).find r = s.find r := rfl
@[simp] theorem State.stack_setJobs (s : State) (m c : Nat) (l : List Job) (q : Nat) : (s.setJobs m c l).stack q = s.stack q := rfl
@[simp] theorem State.switch_setJobs (s : State) (m c : Nat) (l : List Job) (q : Nat) : (s.setJobs m c l).switch q = s.switch q := rfl
@[simp] theorem State.live_setJobs (s : State) (m c : Nat) (l : List Job) (q : Nat) : (s.setJobs m c l).live q = s.live q := rfl
@[simp] theorem State.brim_setJobs (s : State) (m c : Nat) (l : List Job) (q : Nat) : (s.setJobs m c l).brim q = s.brim q := rfl
@[simp] theorem State.dp_setJobs (s : State) (m c : Nat) (l : List Job) (q : Nat) : (s.setJobs m c l).dp q = s.dp q := rfl
@[simp] theorem State.pp_setJobs (s : State) (m c : Nat) (l : List Job) (q : Nat) : (s.setJobs m c l).pp q = s.pp q := rfl
@[simp] theorem State.lg_setJobs (s : State) (m c : Nat) (l : List Job) (q : Nat) : (s.setJobs m c l).lg q = s.lg q := rfl
@[simp] theorem State.session_setJobs (s : State) (m c : Nat) (l : List Job) (id : Nat) : (s.setJobs m c l).session id = s.session id := rfl
@[simp] theorem State.conn_setJobs (s : State) (m c : Nat) (l : List Job) (q : Mailbox) : (s.setJobs m c l).conn q = s.conn q := rfl
@[simp] theorem State.now_setJobs (s : State) (m c : Nat) (l : List Job) : (s.setJobs m c l).now = s.now := rfl
@[simp] theorem State.partOf_setJobs (s : State) (m c : Nat) (l : List Job) (h : Fn) : (s.setJobs m c l).partOf h = s.partOf h := rfl
@[simp] theorem State.fnOf_setJobs (s : State) (m c : Nat) (l : List Job) (q : Nat) : (s.setJobs m c l).fnOf q = s.fnOf q := rfl
@[simp] theorem State.dieOwner_setJobs (s : State) (m c : Nat) (l : List Job) (q : Nat) : (s.setJobs m c l).dieOwner q = s.dieOwner q := rfl
@[simp] theorem State.diesOf_setJobs (s : State) (m c : Nat) (l : List Job) (q : Nat) : (s.setJobs m c l).diesOf q = s.diesOf q := rfl
@[simp] theorem State.portOpen_setJobs (s : State) (m c : Nat) (l : List Job) (q : Nat) : (s.setJobs m c l).portOpen q = s.portOpen q := rfl
@[simp] theorem State.vfAnswers_setJobs (s : State) (m c : Nat) (l : List Job) (h : Fn) : (s.setJobs m c l).vfAnswers h = s.vfAnswers h := rfl
@[simp] theorem State.millRuns_setJobs (s : State) (m c : Nat) (l : List Job) : (s.setJobs m c l).millRuns = s.millRuns := rfl
@[simp] theorem State.millServes_setJobs (s : State) (m c : Nat) (l : List Job) : (s.setJobs m c l).millServes = s.millServes := rfl
@[simp] theorem State.spdmServes_setJobs (s : State) (m c : Nat) (l : List Job) (q : Mailbox) : (s.setJobs m c l).spdmServes q = s.spdmServes q := rfl
@[simp] theorem State.place_setJobs (s : State) (m c : Nat) (l : List Job) (q a : Nat) : (s.setJobs m c l).place q a = s.place q a := rfl
@[simp] theorem State.drawn_setJobs (s : State) (m c : Nat) (l : List Job) : (s.setJobs m c l).drawn = s.drawn := rfl
@[simp] theorem State.xact_setJobs (s : State) (m c : Nat) (l : List Job) (d e t : Nat) : (s.setJobs m c l).xact d e t = s.xact d e t := rfl
@[simp] theorem State.laneUse_setJobs (s : State) (m c : Nat) (l : List Job) (q : Nat) : (s.setJobs m c l).laneUse q = s.laneUse q := rfl
@[simp] theorem State.groupUp_setJobs (s : State) (m c : Nat) (l : List Job) (q : Nat) : (s.setJobs m c l).groupUp q = s.groupUp q := rfl
@[simp] theorem State.canCompute_setJobs (s : State) (m c : Nat) (l : List Job) (f : Found) : (s.setJobs m c l).canCompute f = s.canCompute f := rfl
@[simp] theorem State.reg_modResp (s : State) (i : Nat) (g : Resp → Resp) (j : Nat) : (s.modResp i g).reg j = s.reg j := rfl
@[simp] theorem State.fn_modResp (s : State) (i : Nat) (g : Resp → Resp) (h : Fn) : (s.modResp i g).fn h = s.fn h := rfl
@[simp] theorem State.port_modResp (s : State) (i : Nat) (g : Resp → Resp) (q : Nat) : (s.modResp i g).port q = s.port q := rfl
@[simp] theorem State.psec_modResp (s : State) (i : Nat) (g : Resp → Resp) (q : Nat) : (s.modResp i g).psec q = s.psec q := rfl
@[simp] theorem State.prn_modResp (s : State) (i : Nat) (g : Resp → Resp) (q : Nat) : (s.modResp i g).prn q = s.prn q := rfl
@[simp] theorem State.run_modResp (s : State) (i : Nat) (g : Resp → Resp) (q id : Nat) : (s.modResp i g).run q id = s.run q id := rfl
@[simp] theorem State.program_modResp (s : State) (i : Nat) (g : Resp → Resp) (q h : Nat) : (s.modResp i g).program q h = s.program q h := rfl
@[simp] theorem State.find_modResp (s : State) (i : Nat) (g : Resp → Resp) (r : CmdRef) : (s.modResp i g).find r = s.find r := rfl
@[simp] theorem State.stack_modResp (s : State) (i : Nat) (g : Resp → Resp) (q : Nat) : (s.modResp i g).stack q = s.stack q := rfl
@[simp] theorem State.switch_modResp (s : State) (i : Nat) (g : Resp → Resp) (q : Nat) : (s.modResp i g).switch q = s.switch q := rfl
@[simp] theorem State.live_modResp (s : State) (i : Nat) (g : Resp → Resp) (q : Nat) : (s.modResp i g).live q = s.live q := rfl
@[simp] theorem State.brim_modResp (s : State) (i : Nat) (g : Resp → Resp) (q : Nat) : (s.modResp i g).brim q = s.brim q := rfl
@[simp] theorem State.dp_modResp (s : State) (i : Nat) (g : Resp → Resp) (q : Nat) : (s.modResp i g).dp q = s.dp q := rfl
@[simp] theorem State.pp_modResp (s : State) (i : Nat) (g : Resp → Resp) (q : Nat) : (s.modResp i g).pp q = s.pp q := rfl
@[simp] theorem State.lg_modResp (s : State) (i : Nat) (g : Resp → Resp) (q : Nat) : (s.modResp i g).lg q = s.lg q := rfl
@[simp] theorem State.jobs_modResp (s : State) (i : Nat) (g : Resp → Resp) (q r : Nat) : (s.modResp i g).jobs q r = s.jobs q r := rfl
@[simp] theorem State.session_modResp (s : State) (i : Nat) (g : Resp → Resp) (id : Nat) : (s.modResp i g).session id = s.session id := rfl
@[simp] theorem State.conn_modResp (s : State) (i : Nat) (g : Resp → Resp) (q : Mailbox) : (s.modResp i g).conn q = s.conn q := rfl
@[simp] theorem State.now_modResp (s : State) (i : Nat) (g : Resp → Resp) : (s.modResp i g).now = s.now := rfl
@[simp] theorem State.partOf_modResp (s : State) (i : Nat) (g : Resp → Resp) (h : Fn) : (s.modResp i g).partOf h = s.partOf h := rfl
@[simp] theorem State.fnOf_modResp (s : State) (i : Nat) (g : Resp → Resp) (q : Nat) : (s.modResp i g).fnOf q = s.fnOf q := rfl
@[simp] theorem State.dieOwner_modResp (s : State) (i : Nat) (g : Resp → Resp) (q : Nat) : (s.modResp i g).dieOwner q = s.dieOwner q := rfl
@[simp] theorem State.diesOf_modResp (s : State) (i : Nat) (g : Resp → Resp) (q : Nat) : (s.modResp i g).diesOf q = s.diesOf q := rfl
@[simp] theorem State.portOpen_modResp (s : State) (i : Nat) (g : Resp → Resp) (q : Nat) : (s.modResp i g).portOpen q = s.portOpen q := rfl
@[simp] theorem State.vfAnswers_modResp (s : State) (i : Nat) (g : Resp → Resp) (h : Fn) : (s.modResp i g).vfAnswers h = s.vfAnswers h := rfl
@[simp] theorem State.millRuns_modResp (s : State) (i : Nat) (g : Resp → Resp) : (s.modResp i g).millRuns = s.millRuns := rfl
@[simp] theorem State.millServes_modResp (s : State) (i : Nat) (g : Resp → Resp) : (s.modResp i g).millServes = s.millServes := rfl
@[simp] theorem State.spdmServes_modResp (s : State) (i : Nat) (g : Resp → Resp) (q : Mailbox) : (s.modResp i g).spdmServes q = s.spdmServes q := rfl
@[simp] theorem State.place_modResp (s : State) (i : Nat) (g : Resp → Resp) (q a : Nat) : (s.modResp i g).place q a = s.place q a := rfl
@[simp] theorem State.drawn_modResp (s : State) (i : Nat) (g : Resp → Resp) : (s.modResp i g).drawn = s.drawn := rfl
@[simp] theorem State.xact_modResp (s : State) (i : Nat) (g : Resp → Resp) (d e t : Nat) : (s.modResp i g).xact d e t = s.xact d e t := rfl
@[simp] theorem State.laneUse_modResp (s : State) (i : Nat) (g : Resp → Resp) (q : Nat) : (s.modResp i g).laneUse q = s.laneUse q := rfl
@[simp] theorem State.groupUp_modResp (s : State) (i : Nat) (g : Resp → Resp) (q : Nat) : (s.modResp i g).groupUp q = s.groupUp q := rfl
@[simp] theorem State.canCompute_modResp (s : State) (i : Nat) (g : Resp → Resp) (f : Found) : (s.modResp i g).canCompute f = s.canCompute f := rfl
@[simp] theorem State.reg_putBytes (s : State) (k : Nat) (bs : List Byte) (j : Nat) : (s.putBytes k bs).reg j = s.reg j := rfl
@[simp] theorem State.fn_putBytes (s : State) (k : Nat) (bs : List Byte) (h : Fn) : (s.putBytes k bs).fn h = s.fn h := rfl
@[simp] theorem State.port_putBytes (s : State) (k : Nat) (bs : List Byte) (q : Nat) : (s.putBytes k bs).port q = s.port q := rfl
@[simp] theorem State.psec_putBytes (s : State) (k : Nat) (bs : List Byte) (q : Nat) : (s.putBytes k bs).psec q = s.psec q := rfl
@[simp] theorem State.prn_putBytes (s : State) (k : Nat) (bs : List Byte) (q : Nat) : (s.putBytes k bs).prn q = s.prn q := rfl
@[simp] theorem State.run_putBytes (s : State) (k : Nat) (bs : List Byte) (q id : Nat) : (s.putBytes k bs).run q id = s.run q id := rfl
@[simp] theorem State.program_putBytes (s : State) (k : Nat) (bs : List Byte) (q h : Nat) : (s.putBytes k bs).program q h = s.program q h := rfl
@[simp] theorem State.find_putBytes (s : State) (k : Nat) (bs : List Byte) (r : CmdRef) : (s.putBytes k bs).find r = s.find r := rfl
@[simp] theorem State.stack_putBytes (s : State) (k : Nat) (bs : List Byte) (q : Nat) : (s.putBytes k bs).stack q = s.stack q := rfl
@[simp] theorem State.switch_putBytes (s : State) (k : Nat) (bs : List Byte) (q : Nat) : (s.putBytes k bs).switch q = s.switch q := rfl
@[simp] theorem State.live_putBytes (s : State) (k : Nat) (bs : List Byte) (q : Nat) : (s.putBytes k bs).live q = s.live q := rfl
@[simp] theorem State.brim_putBytes (s : State) (k : Nat) (bs : List Byte) (q : Nat) : (s.putBytes k bs).brim q = s.brim q := rfl
@[simp] theorem State.dp_putBytes (s : State) (k : Nat) (bs : List Byte) (q : Nat) : (s.putBytes k bs).dp q = s.dp q := rfl
@[simp] theorem State.pp_putBytes (s : State) (k : Nat) (bs : List Byte) (q : Nat) : (s.putBytes k bs).pp q = s.pp q := rfl
@[simp] theorem State.lg_putBytes (s : State) (k : Nat) (bs : List Byte) (q : Nat) : (s.putBytes k bs).lg q = s.lg q := rfl
@[simp] theorem State.jobs_putBytes (s : State) (k : Nat) (bs : List Byte) (q r : Nat) : (s.putBytes k bs).jobs q r = s.jobs q r := rfl
@[simp] theorem State.session_putBytes (s : State) (k : Nat) (bs : List Byte) (id : Nat) : (s.putBytes k bs).session id = s.session id := rfl
@[simp] theorem State.conn_putBytes (s : State) (k : Nat) (bs : List Byte) (q : Mailbox) : (s.putBytes k bs).conn q = s.conn q := rfl
@[simp] theorem State.now_putBytes (s : State) (k : Nat) (bs : List Byte) : (s.putBytes k bs).now = s.now := rfl
@[simp] theorem State.partOf_putBytes (s : State) (k : Nat) (bs : List Byte) (h : Fn) : (s.putBytes k bs).partOf h = s.partOf h := rfl
@[simp] theorem State.fnOf_putBytes (s : State) (k : Nat) (bs : List Byte) (q : Nat) : (s.putBytes k bs).fnOf q = s.fnOf q := rfl
@[simp] theorem State.dieOwner_putBytes (s : State) (k : Nat) (bs : List Byte) (q : Nat) : (s.putBytes k bs).dieOwner q = s.dieOwner q := rfl
@[simp] theorem State.diesOf_putBytes (s : State) (k : Nat) (bs : List Byte) (q : Nat) : (s.putBytes k bs).diesOf q = s.diesOf q := rfl
@[simp] theorem State.portOpen_putBytes (s : State) (k : Nat) (bs : List Byte) (q : Nat) : (s.putBytes k bs).portOpen q = s.portOpen q := rfl
@[simp] theorem State.vfAnswers_putBytes (s : State) (k : Nat) (bs : List Byte) (h : Fn) : (s.putBytes k bs).vfAnswers h = s.vfAnswers h := rfl
@[simp] theorem State.millRuns_putBytes (s : State) (k : Nat) (bs : List Byte) : (s.putBytes k bs).millRuns = s.millRuns := rfl
@[simp] theorem State.millServes_putBytes (s : State) (k : Nat) (bs : List Byte) : (s.putBytes k bs).millServes = s.millServes := rfl
@[simp] theorem State.spdmServes_putBytes (s : State) (k : Nat) (bs : List Byte) (q : Mailbox) : (s.putBytes k bs).spdmServes q = s.spdmServes q := rfl
@[simp] theorem State.place_putBytes (s : State) (k : Nat) (bs : List Byte) (q a : Nat) : (s.putBytes k bs).place q a = s.place q a := rfl
@[simp] theorem State.drawn_putBytes (s : State) (k : Nat) (bs : List Byte) : (s.putBytes k bs).drawn = s.drawn := rfl
@[simp] theorem State.xact_putBytes (s : State) (k : Nat) (bs : List Byte) (d e t : Nat) : (s.putBytes k bs).xact d e t = s.xact d e t := rfl
@[simp] theorem State.laneUse_putBytes (s : State) (k : Nat) (bs : List Byte) (q : Nat) : (s.putBytes k bs).laneUse q = s.laneUse q := rfl
@[simp] theorem State.groupUp_putBytes (s : State) (k : Nat) (bs : List Byte) (q : Nat) : (s.putBytes k bs).groupUp q = s.groupUp q := rfl
@[simp] theorem State.canCompute_putBytes (s : State) (k : Nat) (bs : List Byte) (f : Found) : (s.putBytes k bs).canCompute f = s.canCompute f := rfl
@[simp] theorem State.reg_modSession (s : State) (i : Nat) (g : Session → Session) (j : Nat) : (s.modSession i g).reg j = s.reg j := rfl
@[simp] theorem State.fn_modSession (s : State) (i : Nat) (g : Session → Session) (h : Fn) : (s.modSession i g).fn h = s.fn h := rfl
@[simp] theorem State.port_modSession (s : State) (i : Nat) (g : Session → Session) (q : Nat) : (s.modSession i g).port q = s.port q := rfl
@[simp] theorem State.psec_modSession (s : State) (i : Nat) (g : Session → Session) (q : Nat) : (s.modSession i g).psec q = s.psec q := rfl
@[simp] theorem State.prn_modSession (s : State) (i : Nat) (g : Session → Session) (q : Nat) : (s.modSession i g).prn q = s.prn q := rfl
@[simp] theorem State.run_modSession (s : State) (i : Nat) (g : Session → Session) (q id : Nat) : (s.modSession i g).run q id = s.run q id := rfl
@[simp] theorem State.program_modSession (s : State) (i : Nat) (g : Session → Session) (q h : Nat) : (s.modSession i g).program q h = s.program q h := rfl
@[simp] theorem State.find_modSession (s : State) (i : Nat) (g : Session → Session) (r : CmdRef) : (s.modSession i g).find r = s.find r := rfl
@[simp] theorem State.stack_modSession (s : State) (i : Nat) (g : Session → Session) (q : Nat) : (s.modSession i g).stack q = s.stack q := rfl
@[simp] theorem State.switch_modSession (s : State) (i : Nat) (g : Session → Session) (q : Nat) : (s.modSession i g).switch q = s.switch q := rfl
@[simp] theorem State.live_modSession (s : State) (i : Nat) (g : Session → Session) (q : Nat) : (s.modSession i g).live q = s.live q := rfl
@[simp] theorem State.brim_modSession (s : State) (i : Nat) (g : Session → Session) (q : Nat) : (s.modSession i g).brim q = s.brim q := rfl
@[simp] theorem State.dp_modSession (s : State) (i : Nat) (g : Session → Session) (q : Nat) : (s.modSession i g).dp q = s.dp q := rfl
@[simp] theorem State.pp_modSession (s : State) (i : Nat) (g : Session → Session) (q : Nat) : (s.modSession i g).pp q = s.pp q := rfl
@[simp] theorem State.lg_modSession (s : State) (i : Nat) (g : Session → Session) (q : Nat) : (s.modSession i g).lg q = s.lg q := rfl
@[simp] theorem State.jobs_modSession (s : State) (i : Nat) (g : Session → Session) (q r : Nat) : (s.modSession i g).jobs q r = s.jobs q r := rfl
@[simp] theorem State.conn_modSession (s : State) (i : Nat) (g : Session → Session) (q : Mailbox) : (s.modSession i g).conn q = s.conn q := rfl
@[simp] theorem State.now_modSession (s : State) (i : Nat) (g : Session → Session) : (s.modSession i g).now = s.now := rfl
@[simp] theorem State.partOf_modSession (s : State) (i : Nat) (g : Session → Session) (h : Fn) : (s.modSession i g).partOf h = s.partOf h := rfl
@[simp] theorem State.fnOf_modSession (s : State) (i : Nat) (g : Session → Session) (q : Nat) : (s.modSession i g).fnOf q = s.fnOf q := rfl
@[simp] theorem State.dieOwner_modSession (s : State) (i : Nat) (g : Session → Session) (q : Nat) : (s.modSession i g).dieOwner q = s.dieOwner q := rfl
@[simp] theorem State.diesOf_modSession (s : State) (i : Nat) (g : Session → Session) (q : Nat) : (s.modSession i g).diesOf q = s.diesOf q := rfl
@[simp] theorem State.portOpen_modSession (s : State) (i : Nat) (g : Session → Session) (q : Nat) : (s.modSession i g).portOpen q = s.portOpen q := rfl
@[simp] theorem State.vfAnswers_modSession (s : State) (i : Nat) (g : Session → Session) (h : Fn) : (s.modSession i g).vfAnswers h = s.vfAnswers h := rfl
@[simp] theorem State.millRuns_modSession (s : State) (i : Nat) (g : Session → Session) : (s.modSession i g).millRuns = s.millRuns := rfl
@[simp] theorem State.millServes_modSession (s : State) (i : Nat) (g : Session → Session) : (s.modSession i g).millServes = s.millServes := rfl
@[simp] theorem State.spdmServes_modSession (s : State) (i : Nat) (g : Session → Session) (q : Mailbox) : (s.modSession i g).spdmServes q = s.spdmServes q := rfl
@[simp] theorem State.place_modSession (s : State) (i : Nat) (g : Session → Session) (q a : Nat) : (s.modSession i g).place q a = s.place q a := rfl
@[simp] theorem State.drawn_modSession (s : State) (i : Nat) (g : Session → Session) : (s.modSession i g).drawn = s.drawn := rfl
@[simp] theorem State.xact_modSession (s : State) (i : Nat) (g : Session → Session) (d e t : Nat) : (s.modSession i g).xact d e t = s.xact d e t := rfl
@[simp] theorem State.laneUse_modSession (s : State) (i : Nat) (g : Session → Session) (q : Nat) : (s.modSession i g).laneUse q = s.laneUse q := rfl
@[simp] theorem State.groupUp_modSession (s : State) (i : Nat) (g : Session → Session) (q : Nat) : (s.modSession i g).groupUp q = s.groupUp q := rfl
@[simp] theorem State.canCompute_modSession (s : State) (i : Nat) (g : Session → Session) (f : Found) : (s.modSession i g).canCompute f = s.canCompute f := rfl
@[simp] theorem State.reg_setConn (s : State) (b : Mailbox) (n : Nat) (j : Nat) : (s.setConn b n).reg j = s.reg j := rfl
@[simp] theorem State.fn_setConn (s : State) (b : Mailbox) (n : Nat) (h : Fn) : (s.setConn b n).fn h = s.fn h := rfl
@[simp] theorem State.port_setConn (s : State) (b : Mailbox) (n : Nat) (q : Nat) : (s.setConn b n).port q = s.port q := rfl
@[simp] theorem State.psec_setConn (s : State) (b : Mailbox) (n : Nat) (q : Nat) : (s.setConn b n).psec q = s.psec q := rfl
@[simp] theorem State.prn_setConn (s : State) (b : Mailbox) (n : Nat) (q : Nat) : (s.setConn b n).prn q = s.prn q := rfl
@[simp] theorem State.run_setConn (s : State) (b : Mailbox) (n : Nat) (q id : Nat) : (s.setConn b n).run q id = s.run q id := rfl
@[simp] theorem State.program_setConn (s : State) (b : Mailbox) (n : Nat) (q h : Nat) : (s.setConn b n).program q h = s.program q h := rfl
@[simp] theorem State.find_setConn (s : State) (b : Mailbox) (n : Nat) (r : CmdRef) : (s.setConn b n).find r = s.find r := rfl
@[simp] theorem State.stack_setConn (s : State) (b : Mailbox) (n : Nat) (q : Nat) : (s.setConn b n).stack q = s.stack q := rfl
@[simp] theorem State.switch_setConn (s : State) (b : Mailbox) (n : Nat) (q : Nat) : (s.setConn b n).switch q = s.switch q := rfl
@[simp] theorem State.live_setConn (s : State) (b : Mailbox) (n : Nat) (q : Nat) : (s.setConn b n).live q = s.live q := rfl
@[simp] theorem State.brim_setConn (s : State) (b : Mailbox) (n : Nat) (q : Nat) : (s.setConn b n).brim q = s.brim q := rfl
@[simp] theorem State.dp_setConn (s : State) (b : Mailbox) (n : Nat) (q : Nat) : (s.setConn b n).dp q = s.dp q := rfl
@[simp] theorem State.pp_setConn (s : State) (b : Mailbox) (n : Nat) (q : Nat) : (s.setConn b n).pp q = s.pp q := rfl
@[simp] theorem State.lg_setConn (s : State) (b : Mailbox) (n : Nat) (q : Nat) : (s.setConn b n).lg q = s.lg q := rfl
@[simp] theorem State.jobs_setConn (s : State) (b : Mailbox) (n : Nat) (q r : Nat) : (s.setConn b n).jobs q r = s.jobs q r := rfl
@[simp] theorem State.session_setConn (s : State) (b : Mailbox) (n : Nat) (id : Nat) : (s.setConn b n).session id = s.session id := rfl
@[simp] theorem State.now_setConn (s : State) (b : Mailbox) (n : Nat) : (s.setConn b n).now = s.now := rfl
@[simp] theorem State.partOf_setConn (s : State) (b : Mailbox) (n : Nat) (h : Fn) : (s.setConn b n).partOf h = s.partOf h := rfl
@[simp] theorem State.fnOf_setConn (s : State) (b : Mailbox) (n : Nat) (q : Nat) : (s.setConn b n).fnOf q = s.fnOf q := rfl
@[simp] theorem State.dieOwner_setConn (s : State) (b : Mailbox) (n : Nat) (q : Nat) : (s.setConn b n).dieOwner q = s.dieOwner q := rfl
@[simp] theorem State.diesOf_setConn (s : State) (b : Mailbox) (n : Nat) (q : Nat) : (s.setConn b n).diesOf q = s.diesOf q := rfl
@[simp] theorem State.portOpen_setConn (s : State) (b : Mailbox) (n : Nat) (q : Nat) : (s.setConn b n).portOpen q = s.portOpen q := rfl
@[simp] theorem State.vfAnswers_setConn (s : State) (b : Mailbox) (n : Nat) (h : Fn) : (s.setConn b n).vfAnswers h = s.vfAnswers h := rfl
@[simp] theorem State.millRuns_setConn (s : State) (b : Mailbox) (n : Nat) : (s.setConn b n).millRuns = s.millRuns := rfl
@[simp] theorem State.millServes_setConn (s : State) (b : Mailbox) (n : Nat) : (s.setConn b n).millServes = s.millServes := rfl
@[simp] theorem State.spdmServes_setConn (s : State) (b : Mailbox) (n : Nat) (q : Mailbox) : (s.setConn b n).spdmServes q = s.spdmServes q := rfl
@[simp] theorem State.place_setConn (s : State) (b : Mailbox) (n : Nat) (q a : Nat) : (s.setConn b n).place q a = s.place q a := rfl
@[simp] theorem State.drawn_setConn (s : State) (b : Mailbox) (n : Nat) : (s.setConn b n).drawn = s.drawn := rfl
@[simp] theorem State.xact_setConn (s : State) (b : Mailbox) (n : Nat) (d e t : Nat) : (s.setConn b n).xact d e t = s.xact d e t := rfl
@[simp] theorem State.laneUse_setConn (s : State) (b : Mailbox) (n : Nat) (q : Nat) : (s.setConn b n).laneUse q = s.laneUse q := rfl
@[simp] theorem State.groupUp_setConn (s : State) (b : Mailbox) (n : Nat) (q : Nat) : (s.setConn b n).groupUp q = s.groupUp q := rfl
@[simp] theorem State.canCompute_setConn (s : State) (b : Mailbox) (n : Nat) (f : Found) : (s.setConn b n).canCompute f = s.canCompute f := rfl
@[simp] theorem State.reg_unwait (s : State) (w : Waiting) (j : Nat) : (s.unwait w).reg j = s.reg j := rfl
@[simp] theorem State.fn_unwait (s : State) (w : Waiting) (h : Fn) : (s.unwait w).fn h = s.fn h := rfl
@[simp] theorem State.port_unwait (s : State) (w : Waiting) (q : Nat) : (s.unwait w).port q = s.port q := rfl
@[simp] theorem State.psec_unwait (s : State) (w : Waiting) (q : Nat) : (s.unwait w).psec q = s.psec q := rfl
@[simp] theorem State.prn_unwait (s : State) (w : Waiting) (q : Nat) : (s.unwait w).prn q = s.prn q := rfl
@[simp] theorem State.run_unwait (s : State) (w : Waiting) (q id : Nat) : (s.unwait w).run q id = s.run q id := rfl
@[simp] theorem State.program_unwait (s : State) (w : Waiting) (q h : Nat) : (s.unwait w).program q h = s.program q h := rfl
@[simp] theorem State.find_unwait (s : State) (w : Waiting) (r : CmdRef) : (s.unwait w).find r = s.find r := rfl
@[simp] theorem State.stack_unwait (s : State) (w : Waiting) (q : Nat) : (s.unwait w).stack q = s.stack q := rfl
@[simp] theorem State.switch_unwait (s : State) (w : Waiting) (q : Nat) : (s.unwait w).switch q = s.switch q := rfl
@[simp] theorem State.live_unwait (s : State) (w : Waiting) (q : Nat) : (s.unwait w).live q = s.live q := rfl
@[simp] theorem State.brim_unwait (s : State) (w : Waiting) (q : Nat) : (s.unwait w).brim q = s.brim q := rfl
@[simp] theorem State.dp_unwait (s : State) (w : Waiting) (q : Nat) : (s.unwait w).dp q = s.dp q := rfl
@[simp] theorem State.pp_unwait (s : State) (w : Waiting) (q : Nat) : (s.unwait w).pp q = s.pp q := rfl
@[simp] theorem State.lg_unwait (s : State) (w : Waiting) (q : Nat) : (s.unwait w).lg q = s.lg q := rfl
@[simp] theorem State.jobs_unwait (s : State) (w : Waiting) (q r : Nat) : (s.unwait w).jobs q r = s.jobs q r := rfl
@[simp] theorem State.session_unwait (s : State) (w : Waiting) (id : Nat) : (s.unwait w).session id = s.session id := rfl
@[simp] theorem State.conn_unwait (s : State) (w : Waiting) (q : Mailbox) : (s.unwait w).conn q = s.conn q := rfl
@[simp] theorem State.now_unwait (s : State) (w : Waiting) : (s.unwait w).now = s.now := rfl
@[simp] theorem State.partOf_unwait (s : State) (w : Waiting) (h : Fn) : (s.unwait w).partOf h = s.partOf h := rfl
@[simp] theorem State.fnOf_unwait (s : State) (w : Waiting) (q : Nat) : (s.unwait w).fnOf q = s.fnOf q := rfl
@[simp] theorem State.dieOwner_unwait (s : State) (w : Waiting) (q : Nat) : (s.unwait w).dieOwner q = s.dieOwner q := rfl
@[simp] theorem State.diesOf_unwait (s : State) (w : Waiting) (q : Nat) : (s.unwait w).diesOf q = s.diesOf q := rfl
@[simp] theorem State.portOpen_unwait (s : State) (w : Waiting) (q : Nat) : (s.unwait w).portOpen q = s.portOpen q := rfl
@[simp] theorem State.vfAnswers_unwait (s : State) (w : Waiting) (h : Fn) : (s.unwait w).vfAnswers h = s.vfAnswers h := rfl
@[simp] theorem State.millRuns_unwait (s : State) (w : Waiting) : (s.unwait w).millRuns = s.millRuns := rfl
@[simp] theorem State.millServes_unwait (s : State) (w : Waiting) : (s.unwait w).millServes = s.millServes := rfl
@[simp] theorem State.spdmServes_unwait (s : State) (w : Waiting) (q : Mailbox) : (s.unwait w).spdmServes q = s.spdmServes q := rfl
@[simp] theorem State.place_unwait (s : State) (w : Waiting) (q a : Nat) : (s.unwait w).place q a = s.place q a := rfl
@[simp] theorem State.drawn_unwait (s : State) (w : Waiting) : (s.unwait w).drawn = s.drawn := rfl
@[simp] theorem State.xact_unwait (s : State) (w : Waiting) (d e t : Nat) : (s.unwait w).xact d e t = s.xact d e t := rfl
@[simp] theorem State.laneUse_unwait (s : State) (w : Waiting) (q : Nat) : (s.unwait w).laneUse q = s.laneUse q := rfl
@[simp] theorem State.groupUp_unwait (s : State) (w : Waiting) (q : Nat) : (s.unwait w).groupUp q = s.groupUp q := rfl
@[simp] theorem State.canCompute_unwait (s : State) (w : Waiting) (f : Found) : (s.unwait w).canCompute f = s.canCompute f := rfl
@[simp] theorem State.reg_addResp (s : State) (r : Resp) (j : Nat) : (s.addResp r).reg j = s.reg j := rfl
@[simp] theorem State.fn_addResp (s : State) (r : Resp) (h : Fn) : (s.addResp r).fn h = s.fn h := rfl
@[simp] theorem State.port_addResp (s : State) (r : Resp) (q : Nat) : (s.addResp r).port q = s.port q := rfl
@[simp] theorem State.psec_addResp (s : State) (r : Resp) (q : Nat) : (s.addResp r).psec q = s.psec q := rfl
@[simp] theorem State.prn_addResp (s : State) (r : Resp) (q : Nat) : (s.addResp r).prn q = s.prn q := rfl
@[simp] theorem State.run_addResp (s : State) (r : Resp) (q id : Nat) : (s.addResp r).run q id = s.run q id := rfl
@[simp] theorem State.program_addResp (s : State) (r : Resp) (q h : Nat) : (s.addResp r).program q h = s.program q h := rfl
@[simp] theorem State.find_addResp (s : State) (r : Resp) (r' : CmdRef) : (s.addResp r).find r' = s.find r' := rfl
@[simp] theorem State.stack_addResp (s : State) (r : Resp) (q : Nat) : (s.addResp r).stack q = s.stack q := rfl
@[simp] theorem State.switch_addResp (s : State) (r : Resp) (q : Nat) : (s.addResp r).switch q = s.switch q := rfl
@[simp] theorem State.live_addResp (s : State) (r : Resp) (q : Nat) : (s.addResp r).live q = s.live q := rfl
@[simp] theorem State.brim_addResp (s : State) (r : Resp) (q : Nat) : (s.addResp r).brim q = s.brim q := rfl
@[simp] theorem State.dp_addResp (s : State) (r : Resp) (q : Nat) : (s.addResp r).dp q = s.dp q := rfl
@[simp] theorem State.pp_addResp (s : State) (r : Resp) (q : Nat) : (s.addResp r).pp q = s.pp q := rfl
@[simp] theorem State.lg_addResp (s : State) (r : Resp) (q : Nat) : (s.addResp r).lg q = s.lg q := rfl
@[simp] theorem State.jobs_addResp (s : State) (r : Resp) (q r' : Nat) : (s.addResp r).jobs q r' = s.jobs q r' := rfl
@[simp] theorem State.session_addResp (s : State) (r : Resp) (id : Nat) : (s.addResp r).session id = s.session id := rfl
@[simp] theorem State.conn_addResp (s : State) (r : Resp) (q : Mailbox) : (s.addResp r).conn q = s.conn q := rfl
@[simp] theorem State.now_addResp (s : State) (r : Resp) : (s.addResp r).now = s.now := rfl
@[simp] theorem State.partOf_addResp (s : State) (r : Resp) (h : Fn) : (s.addResp r).partOf h = s.partOf h := rfl
@[simp] theorem State.fnOf_addResp (s : State) (r : Resp) (q : Nat) : (s.addResp r).fnOf q = s.fnOf q := rfl
@[simp] theorem State.dieOwner_addResp (s : State) (r : Resp) (q : Nat) : (s.addResp r).dieOwner q = s.dieOwner q := rfl
@[simp] theorem State.diesOf_addResp (s : State) (r : Resp) (q : Nat) : (s.addResp r).diesOf q = s.diesOf q := rfl
@[simp] theorem State.portOpen_addResp (s : State) (r : Resp) (q : Nat) : (s.addResp r).portOpen q = s.portOpen q := rfl
@[simp] theorem State.vfAnswers_addResp (s : State) (r : Resp) (h : Fn) : (s.addResp r).vfAnswers h = s.vfAnswers h := rfl
@[simp] theorem State.millRuns_addResp (s : State) (r : Resp) : (s.addResp r).millRuns = s.millRuns := rfl
@[simp] theorem State.millServes_addResp (s : State) (r : Resp) : (s.addResp r).millServes = s.millServes := rfl
@[simp] theorem State.spdmServes_addResp (s : State) (r : Resp) (q : Mailbox) : (s.addResp r).spdmServes q = s.spdmServes q := rfl
@[simp] theorem State.place_addResp (s : State) (r : Resp) (q a : Nat) : (s.addResp r).place q a = s.place q a := rfl
@[simp] theorem State.drawn_addResp (s : State) (r : Resp) : (s.addResp r).drawn = s.drawn := rfl
@[simp] theorem State.xact_addResp (s : State) (r : Resp) (d e t : Nat) : (s.addResp r).xact d e t = s.xact d e t := rfl
@[simp] theorem State.laneUse_addResp (s : State) (r : Resp) (q : Nat) : (s.addResp r).laneUse q = s.laneUse q := rfl
@[simp] theorem State.groupUp_addResp (s : State) (r : Resp) (q : Nat) : (s.addResp r).groupUp q = s.groupUp q := rfl
@[simp] theorem State.canCompute_addResp (s : State) (r : Resp) (f : Found) : (s.addResp r).canCompute f = s.canCompute f := rfl

/-! ### What the changed piece holds -/

@[simp] theorem State.switch_modSwitch_self (s : State) (n : Nat) (g : SwitchState → SwitchState) : (s.modSwitch n g).switch n = g (s.switch n) :=
  sget_sput_self _ _ n _
theorem State.switch_modSwitch_other (s : State) {n m : Nat} (h : m ≠ n) (g : SwitchState → SwitchState) : (s.modSwitch n g).switch m = s.switch m :=
  sget_sput_other _ _ h _
@[simp] theorem State.stack_modStack_self (s : State) (n : Nat) (g : StackState → StackState) : (s.modStack n g).stack n = g (s.stack n) :=
  sget_sput_self _ _ n _
theorem State.stack_modStack_other (s : State) {n m : Nat} (h : m ≠ n) (g : StackState → StackState) : (s.modStack n g).stack m = s.stack m :=
  sget_sput_other _ _ h _
@[simp] theorem State.brim_modBrim_self (s : State) (n : Nat) (g : Brim → Brim) : (s.modBrim n g).brim n = g (s.brim n) :=
  sget_sput_self _ _ n _
theorem State.brim_modBrim_other (s : State) {n m : Nat} (h : m ≠ n) (g : Brim → Brim) : (s.modBrim n g).brim m = s.brim m :=
  sget_sput_other _ _ h _
@[simp] theorem State.dp_modDp_self (s : State) (n : Nat) (g : DiePower → DiePower) : (s.modDp n g).dp n = g (s.dp n) :=
  sget_sput_self _ _ n _
theorem State.dp_modDp_other (s : State) {n m : Nat} (h : m ≠ n) (g : DiePower → DiePower) : (s.modDp n g).dp m = s.dp m :=
  sget_sput_other _ _ h _
@[simp] theorem State.pp_modPp_self (s : State) (n : Nat) (g : PartPower → PartPower) : (s.modPp n g).pp n = g (s.pp n) :=
  sget_sput_self _ _ n _
theorem State.pp_modPp_other (s : State) {n m : Nat} (h : m ≠ n) (g : PartPower → PartPower) : (s.modPp n g).pp m = s.pp m :=
  sget_sput_other _ _ h _
@[simp] theorem State.prn_modPr_self (s : State) (n : Nat) (g : PartRun → PartRun) : (s.modPr n g).prn n = g (s.prn n) :=
  sget_sput_self _ _ n _
theorem State.prn_modPr_other (s : State) {n m : Nat} (h : m ≠ n) (g : PartRun → PartRun) : (s.modPr n g).prn m = s.prn m :=
  sget_sput_other _ _ h _
@[simp] theorem State.psec_modSec_self (s : State) (n : Nat) (g : PartSec → PartSec) : (s.modSec n g).psec n = g (s.psec n) :=
  sget_sput_self _ _ n _
theorem State.psec_modSec_other (s : State) {n m : Nat} (h : m ≠ n) (g : PartSec → PartSec) : (s.modSec n g).psec m = s.psec m :=
  sget_sput_other _ _ h _
@[simp] theorem State.lg_modLg_self (s : State) (n : Nat) (g : LaneGroup → LaneGroup) : (s.modLg n g).lg n = g (s.lg n) :=
  sget_sput_self _ _ n _
theorem State.lg_modLg_other (s : State) {n m : Nat} (h : m ≠ n) (g : LaneGroup → LaneGroup) : (s.modLg n g).lg m = s.lg m :=
  sget_sput_other _ _ h _
@[simp] theorem State.fn_modFn_self (s : State) (f : Fn) (g : FnState → FnState) : (s.modFn f g).fn f = g (s.fn f) :=
  s.fn_setFn_self f _
@[simp] theorem State.port_setPort_self (s : State) (n : Nat) (x : PortState) : (s.setPort n x).port n = x :=
  sget_sput_self _ _ n x
@[simp] theorem State.jobs_setJobs_self (s : State) (m c : Nat) (l : List Job) : (s.setJobs m c l).jobs m c = l :=
  sget_sput_self _ _ _ l
@[simp] theorem State.conn_setConn_self (s : State) (b : Mailbox) (n : Nat) : (s.setConn b n).conn b = n :=
  sget_sput_self _ _ _ n

end Sys2Proof.Machine
end

