-- ==== Sys2Proof/Laws/Complete.lean ====
section
/-! SUPPORT. How a completion is shown: from the law of a meaning to `Completes`, and what an update leaves of the registers and functions. -/

namespace Sys2Proof.Machine

theorem completes_of {c : Instr} {s t : State} {F : List Piece} {P : State → Prop} (h : exec c s = .next t)
    (g : ∃ u, exec c s = .next u ∧ Goes F s u) (p : P t) : Completes c s F P := by
  obtain ⟨u, hu, hg⟩ := g
  rw [h] at hu; injection hu with hu; subst hu
  exact ⟨t, h, hg.1, p⟩

theorem completes_mono {c : Instr} {s : State} {F G : List Piece} {P Q : State → Prop} (h : Completes c s F P)
    (hF : ∀ p ∈ F, p ∈ G) (hP : ∀ t, P t → Q t) : Completes c s G Q := by
  obtain ⟨t, a, b, p⟩ := h
  exact ⟨t, a, fun x hx => b x (fun h => hx (hF x h)), hP t p⟩

theorem fnKey_inj {f g : Fn} (h : fnKey f = fnKey g) : f = g := by
  cases f with | mk p v => cases g with | mk q w =>
  simp only [fnKey] at h
  have := v.isLt; have := w.isLt
  have h1 : p.val = q.val := by omega
  have h2 : v.val = w.val := by omega
  rw [Fin.ext h1, Fin.ext h2]

theorem onlyFn_setFn (s : State) (f : Fn) (x : FnState) : OnlyFn f s (s.setFn f x) :=
  fun g hg => s.fn_setFn_other (fun h => hg (fnKey_inj h)) x

/-- The same piece in a state that is built by updates. -/
theorem changes_of {F : List Piece} {s t : State} (h : Goes F s t) : ChangesOnly F s t := h.1

theorem program_modPr_of {s : State} {p : Nat} {g : PartRun → PartRun} (h : ∀ r, (g r).programs = r.programs) (q k : Nat) :
    (s.modPr p g).program q k = s.program q k := by
  unfold State.program
  by_cases e : q = p
  · subst e; rw [State.prn_modPr_self, h]
  · rw [State.prn_modPr_other _ e]

theorem run_modPr_of {s : State} {p : Nat} {g : PartRun → PartRun} (h : ∀ r, (g r).runs = r.runs) (q k : Nat) :
    (s.modPr p g).run q k = s.run q k := by
  unfold State.run
  by_cases e : q = p
  · subst e; rw [State.prn_modPr_self, h]
  · rw [State.prn_modPr_other _ e]

theorem takeWhile_before {α : Type} (q : α → Bool) (l : List α) (x : α) (rest : List α) (hl : ∀ y ∈ l, q y = true) (hx : q x = false) :
    (l ++ x :: rest).takeWhile q = l ∧ (l ++ x :: rest)[((l ++ x :: rest).takeWhile q).length]? = some x ∧
      (l ++ x :: rest).eraseIdx ((l ++ x :: rest).takeWhile q).length = l ++ rest := by
  have e : (l ++ x :: rest).takeWhile q = l := by
    rw [List.takeWhile_append_of_pos hl]
    simp [List.takeWhile_cons, hx]
  rw [e]
  exact ⟨rfl, by simp, by simp [List.eraseIdx_append_of_length_le]⟩

theorem onlyFn_modFn (s : State) (f : Fn) (x : FnState → FnState) : OnlyFn f s (s.modFn f x) := onlyFn_setFn s f _

theorem completes_at {c : Instr} {s t : State} {F : List Piece} {P : State → Prop} (h : exec c s = .next t)
    (g : Goes F s t) (p : P t) : Completes c s F P := ⟨t, h, g.1, p⟩

theorem onlyRegs_of_dict {l : List Nat} {s t u : State} (h : u.dict = t.dict) (g : OnlyRegs l s t) : OnlyRegs l s u := by
  intro k hk
  rw [← g k hk]; unfold State.reg; rw [h]

theorem onlyRegs_setReg (s : State) (k v : Nat) : OnlyRegs [k] s (s.setReg k v) :=
  fun j hj => s.reg_setReg_other (by simpa using hj) v

theorem onlyRegs_refl (l : List Nat) (s : State) : OnlyRegs l s s := fun _ _ => rfl

theorem onlyRegs_step {l : List Nat} {s t : State} (k v : Nat) (hk : k ∈ l) (g : OnlyRegs l s t) : OnlyRegs l s (t.setReg k v) :=
  fun j hj => (t.reg_setReg_other (by rintro rfl; exact hj hk) v).trans (g j hj)

theorem onlyFn_setReg {f : Fn} {s t : State} (k v : Nat) (h : OnlyFn f s t) : OnlyFn f s (t.setReg k v) := h

theorem onlyFn_bump {f : Fn} {s t : State} (k v : Nat) (h : OnlyFn f s t) : OnlyFn f s (t.bump k v) := h

theorem fn_bump' {f : Fn} {x : FnState} {t : State} (k v : Nat) (h : t.fn f = x) : (t.bump k v).fn f = x := h

theorem activeIs0_congr {s t : State} (h : t.reg rActiveDie = s.reg rActiveDie) : t.activeIs0 = s.activeIs0 := by
  unfold State.activeIs0; rw [h]

theorem reg_of_dict {s t : State} (h : t.dict = s.dict) (k : Nat) : t.reg k = s.reg k := by unfold State.reg; rw [h]

theorem reg_setReg_lt (s : State) (k v : Nat) (h : v < 2 ^ (8 * regLen k)) : (s.setReg k v).reg k = v :=
  (s.reg_setReg_self k v).trans (Nat.mod_eq_of_lt h)

theorem onlyFn_emit {f : Fn} {s t : State} (o : Out) (h : OnlyFn f s t) : OnlyFn f s (t.emit o) := h

end Sys2Proof.Machine
end

