-- ==== Sys2Proof/Laws/Writes.lean ====
section
/-! SUPPORT. The dictionary engine in small: a write that is granted, one that is refused, and what a transport hands over. -/

namespace Sys2Proof.Machine

theorem length_leBytes (n x : Nat) : (leBytes n x).length = n := by
  induction n generalizing x with
  | zero => rfl
  | succ n ih => simp [leBytes, ih]

theorem leNat_leBytes (n x : Nat) : leNat (leBytes n x) = x % 2 ^ (8 * n) := by
  induction n generalizing x with
  | zero => simp [leBytes, leNat, Nat.mod_one]
  | succ n ih =>
    simp only [leBytes, leNat, ih]
    have e : 2 ^ (8 * (n + 1)) = 2 ^ 8 * 2 ^ (8 * n) := by rw [← Nat.pow_add]; congr 1; ring
    rw [e, Nat.mod_mul]
    simp

theorem session_tdi_mod (s : State) (id : Nat) : ((s.modSession id fun x => x).session id).bind Session.tdi = (s.session id).bind Session.tdi := by
  unfold State.session State.modSession updWhere
  dsimp only
  generalize s.now = now
  induction s.sessions with
  | nil => rfl
  | cons x l ih =>
    rw [List.map_cons]
    by_cases h : x.id = id
    · simp [h]
    · simp [h] at ih ⊢; exact ih

theorem roleOf_taken (s : State) (a : Access) (tag : Nat) : (s.taken' a tag).roleOf a.via = s.roleOf a.via := by
  unfold State.taken'
  split
  · rename_i c e; rw [e]; rfl
  · rename_i id e
    rw [e]
    show ((State.session (s.modSession id fun x => x) id).bind Session.tdi).elim Role.nobody Role.owner = ((s.session id).bind Session.tdi).elim Role.nobody Role.owner
    rw [session_tdi_mod]
  · rename_i f irq e; rw [e]; rfl
  · rfl

theorem allowed_taken (s : State) (a : Access) (tag : Nat) (w : Who) (k : Nat) (role : Role) (h : s.roleOf a.via = role) :
    (s.taken' a tag).allowed a.via role w k = s.allowed a.via role w k := by
  unfold State.taken'
  split
  · rename_i c e
    rw [e] at h ⊢
    have : role = .operator := by rw [← h]; rfl
    subst this
    cases w <;> rfl
  · rfl
  · rfl
  · rfl

theorem taken_facts (s : State) (a : Access) (tag : Nat) : (s.taken' a tag).rst = s.rst ∧ (s.taken' a tag).mill.queue = s.mill.queue ∧
    (s.taken' a tag).mill.noImage = s.mill.noImage ∧ (s.taken' a tag).reg rStandby = s.reg rStandby := by
  unfold State.taken'
  split
  · refine ⟨rfl, rfl, rfl, s.reg_setReg_other (by decide) _⟩
  · exact ⟨rfl, rfl, rfl, rfl⟩
  · exact ⟨rfl, rfl, rfl, rfl⟩
  · exact ⟨rfl, rfl, rfl, rfl⟩

theorem enter_none {s t : State} {via : Transport} {role : Role} {k : Nat} {bs : List Byte} (h : s.Reaches via role k)
    (hp : (s.taken' ⟨via, true, k, bs, false, 0⟩ noTag).perform ⟨via, true, k, bs, false, 0⟩ = (t, none)) :
    s.enter ⟨via, true, k, bs, false, 0⟩ noTag = t.refuse ⟨via, true, k, bs, false, 0⟩ := by
  simp only [State.enter, h.opened, if_true, State.engine, hp]

theorem enter_some {s t : State} {via : Transport} {role : Role} {k : Nat} {bs v : List Byte} (h : s.Takes via role k)
    (hp : (s.taken' ⟨via, true, k, bs, false, 0⟩ noTag).perform ⟨via, true, k, bs, false, 0⟩ = (t, some v)) :
    s.enter ⟨via, true, k, bs, false, 0⟩ noTag =
      if k = key 0x1020 6 then (t.answer ⟨via, true, k, bs, false, 0⟩ true v).takeover else t.answer ⟨via, true, k, bs, false, 0⟩ true v := by
  obtain ⟨f1, f2, f3, f4⟩ := taken_facts s ⟨via, true, k, bs, false, 0⟩ noTag
  simp only [State.enter, h.opened, if_true, State.engine, hp, f2, h.queue, f4, State.serve]
  have : (s.reg rStandby == 2) = false := by simpa using h.standby
  simp [this]

theorem enter_waits {s t : State} {via : Transport} {role : Role} {k : Nat} {bs v : List Byte} (h : s.Reaches via role k) (h2 : s.reg rStandby = 2)
    (hp : (s.taken' ⟨via, true, k, bs, false, 0⟩ noTag).perform ⟨via, true, k, bs, false, 0⟩ = (t, some v)) :
    s.enter ⟨via, true, k, bs, false, 0⟩ noTag =
      (let u := s.taken' ⟨via, true, k, bs, false, 0⟩ noTag
       { u with mill := { u.mill with queue := u.mill.queue ++ [⟨via, true, k, bs, false, u.now⟩], mirrorSent := u.mill.mirrorSent + 1 } }) := by
  obtain ⟨f1, f2, f3, f4⟩ := taken_facts s ⟨via, true, k, bs, false, 0⟩ noTag
  simp only [State.enter, h.opened, if_true, State.engine, hp, f4, h2]
  simp

theorem perform_write {s : State} {via : Transport} {role : Role} {k : Nat} {bs : List Byte} (h : s.Reaches via role k) :
    (s.taken' ⟨via, true, k, bs, false, 0⟩ noTag).perform ⟨via, true, k, bs, false, 0⟩ =
      (let r := (s.taken' ⟨via, true, k, bs, false, 0⟩ noTag).writeEntry via role k bs
       (r.1, if r.2 then some bs else none)) := by
  obtain ⟨f1, f2, f3, f4⟩ := taken_facts s ⟨via, true, k, bs, false, 0⟩ noTag
  have hr := (roleOf_taken s ⟨via, true, k, bs, false, 0⟩ noTag).trans h.acts
  simp only [State.perform, f1, if_true]
  simp only [show State.roleOf (s.taken' ⟨via, true, k, bs, false, 0⟩ noTag) via = role from hr]
  rcases h.held with e | e
  · simp [e]
  · cases role with
    | owner p => exact absurd rfl (e.2 p)
    | _ => simp

theorem writeEntry_ok {s : State} {via : Transport} {role : Role} {k : Nat} {bs : List Byte} {r : Row} (h : s.Reaches via role k)
    (hrow : rowOf k = some r) (hlen : bs.length = r.len) (hacc : r.acc ≠ .ro) (hal : s.allowed via role r.wr k = true)
    (hrange : inRanges r.ranges (leNat bs) = true)
    (hlock : lockedEntry k = false ∨ (s.taken' ⟨via, true, k, bs, false, 0⟩ noTag).reg (rTdi (k / 256 % 256)) = 0) :
    (s.taken' ⟨via, true, k, bs, false, 0⟩ noTag).writeEntry via role k bs =
      (s.taken' ⟨via, true, k, bs, false, 0⟩ noTag).applyWrite via k (leNat bs) := by
  obtain ⟨f1, f2, f3, f4⟩ := taken_facts s ⟨via, true, k, bs, false, 0⟩ noTag
  have hal' := (allowed_taken s ⟨via, true, k, bs, false, 0⟩ noTag r.wr k role h.acts).trans hal
  have hacc' : (r.acc == Acc.ro) = false := by simpa using hacc
  have hl : (lockedEntry k && (s.taken' ⟨via, true, k, bs, false, 0⟩ noTag).reg (rTdi (k / 256 % 256)) != 0) = false := by
    rcases hlock with e | e <;> simp [e]
  have hh : (s.rst.held && startsAction k) = false := by rcases h.held with e | e <;> simp [e]
  have hi : (s.mill.noImage && !updatesFirmware k) = false := by rcases h.image with e | e <;> simp [e]
  simp only [State.writeEntry, hl, hh, hi, Bool.false_and, Bool.false_eq_true, if_false, hrow, hacc', hlen, bne_self_eq_false, hrange,
    show State.allowed (s.taken' ⟨via, true, k, bs, false, 0⟩ noTag) via role r.wr k = true from hal', Bool.not_true, Bool.or_self, f1, f3]

theorem write_perform {s : State} {via : Transport} {role : Role} {k len v : Nat} {r : Row} {E : State → State} (h : s.Reaches via role k)
    (hrow : rowOf k = some r) (hlen : len = r.len) (hv : v < 2 ^ (8 * len)) (hacc : r.acc ≠ .ro) (hal : s.allowed via role r.wr k = true)
    (hrange : inRanges r.ranges v = true) (hlock : lockedEntry k = false ∨ (s.took via k len v).reg (rTdi (k / 256 % 256)) = 0)
    {d : Bool} (happ : (s.took via k len v).applyWrite via k v = (E (s.took via k len v), d)) :
    (s.took via k len v).perform ⟨via, true, k, leBytes len v, false, 0⟩ = (E (s.took via k len v), if d then some (leBytes len v) else none) := by
  have hl : leNat (leBytes len v) = v := by rw [leNat_leBytes, Nat.mod_eq_of_lt hv]
  unfold State.took at *
  rw [perform_write h, writeEntry_ok h hrow ((length_leBytes _ _).trans hlen) hacc hal (by rw [hl]; exact hrange) hlock, hl, happ]

theorem write_done {s : State} {via : Transport} {role : Role} {k len v : Nat} {r : Row} {E : State → State} (h : s.Takes via role k)
    (hrow : rowOf k = some r) (hlen : len = r.len) (hv : v < 2 ^ (8 * len)) (hacc : r.acc ≠ .ro) (hal : s.allowed via role r.wr k = true)
    (hrange : inRanges r.ranges v = true) (hlock : lockedEntry k = false ∨ (s.took via k len v).reg (rTdi (k / 256 % 256)) = 0)
    (hk : k ≠ key 0x1020 6)
    (happ : (s.took via k len v).applyWrite via k v = (E (s.took via k len v), true)) :
    s.write via k len v = s.writeDone via k len v E :=
  (enter_some h (write_perform h.toReaches hrow hlen hv hacc hal hrange hlock happ)).trans (if_neg hk)

theorem write_refused {s : State} {via : Transport} {role : Role} {k len v : Nat} {r : Row} {E : State → State} (h : s.Reaches via role k)
    (hrow : rowOf k = some r) (hlen : len = r.len) (hv : v < 2 ^ (8 * len)) (hacc : r.acc ≠ .ro) (hal : s.allowed via role r.wr k = true)
    (hrange : inRanges r.ranges v = true) (hlock : lockedEntry k = false ∨ (s.took via k len v).reg (rTdi (k / 256 % 256)) = 0)
    (happ : (s.took via k len v).applyWrite via k v = (E (s.took via k len v), false)) :
    s.write via k len v = s.writeRefused via k len v E :=
  enter_none h (write_perform h hrow hlen hv hacc hal hrange hlock happ)

theorem answer_goes (s : State) (a : Access) (d : Bool) (v : List Byte) : Goes [.fns, .mill, .out] s (s.answer a d v) :=
  Goes.answer a d v (by decide) (by decide) (by decide) (Goes.refl _ s)

theorem rowPart : ∀ p : PartN, rowOf (rPart (p.val + 1) 2) = some ⟨2, 2, 1, .wo, 0, .none, .nobody, .operator, [(1, 2)]⟩ := by decide

theorem lockPart : ∀ p : PartN, lockedEntry (rPart (p.val + 1) 2) = false := by decide

theorem keyPart : ∀ p : PartN, rPart (p.val + 1) 2 ≠ key 0x1020 6 := by decide

theorem idxPart : ∀ p : PartN, rPart (p.val + 1) 2 / 256 / 256 = 0x51 ∧ rPart (p.val + 1) 2 % 256 = 2 ∧ rPart (p.val + 1) 2 / 256 % 256 = p.val + 1 := by decide

set_option maxRecDepth 100000 in
theorem rowLoad : ∀ c : DieC, rowOf (rLoad c.val 3) = some ⟨3, 3, 1, .wo, 0, .none, .nobody, .owner, [(1, 1)]⟩ ∧ lockedEntry (rLoad c.val 3) = false ∧
  rLoad c.val 3 ≠ key 0x1020 6 ∧ rLoad c.val 3 / 256 / 256 = 0x6B ∧ rLoad c.val 3 / 256 % 256 = c.val ∧ rLoad c.val 3 % 256 = 3 ∧ rLoad c.val 3 / 65536 = 0x6B ∧ 0x6000 ≤ rLoad c.val 3 / 256 := by decide

set_option maxRecDepth 100000 in
theorem rowTile : ∀ c : DieC, ∀ t : TileN, rowOf (rTileState c.val t.val) = some ⟨1, 8, 1, .rw, 0, .flash, .opOwner, .operator, [(0, 0)]⟩ ∧ lockedEntry (rTileState c.val t.val) = false ∧
  rTileState c.val t.val ≠ key 0x1020 6 ∧ rTileState c.val t.val / 256 / 256 = 0x69 ∧ rTileState c.val t.val / 256 % 256 = c.val ∧ rTileState c.val t.val % 256 - 1 = t.val ∧ rTileState c.val t.val / 65536 = 0x69
   ∧ 0x6000 ≤ rTileState c.val t.val / 256 := by decide

set_option maxRecDepth 100000 in
theorem rowBand : ∀ p : PartN, ∀ e : Fin 16, rowOf (rBand (p.val + 1) (1 + e.val)) = some ⟨1, 16, 4, .rw, 0, .none, .opOwner, .operator, []⟩ ∧ lockedEntry (rBand (p.val + 1) (1 + e.val)) = true ∧
  rBand (p.val + 1) (1 + e.val) ≠ key 0x1020 6 ∧ rBand (p.val + 1) (1 + e.val) / 256 / 256 = 0x56 ∧ rBand (p.val + 1) (1 + e.val) / 256 % 256 = p.val + 1 ∧ rBand (p.val + 1) (1 + e.val) % 256 = 1 + e.val ∧ rBand (p.val + 1) (1 + e.val) / 65536 = 0x56
   ∧ rBand (p.val + 1) (1 + e.val) / 256 < 0x6000 ∧ 0x5000 ≤ rBand (p.val + 1) (1 + e.val) / 256 := by decide

set_option maxRecDepth 100000 in
theorem rowLane : ∀ g : GroupN, rowOf (rLane g.val 1) = some ⟨1, 1, 1, .rw, regDefault (rLane 0 1), .flash, .opLane, .operator, [(0, 3)]⟩ ∧ lockedEntry (rLane g.val 1) = false ∧
  rLane g.val 1 ≠ key 0x1020 6 ∧ rLane g.val 1 / 256 / 16 = 0x251 ∧ rLane g.val 1 / 256 % 16 = g.val ∧ rLane g.val 1 % 256 = 1 ∧ rLane g.val 1 / 256 / 256 ≠ 0x51 ∧ rLane g.val 1 / 256 < 0x5000 ∧ 0x2000 ≤ rLane g.val 1 / 256  := by decide

set_option maxRecDepth 100000 in
theorem rowInj : ∀ g : GroupN, rowOf (rLane g.val 8) = some ⟨8, 8, 8, .wo, 0, .none, .nobody, .operator, []⟩ ∧ lockedEntry (rLane g.val 8) = false ∧
  rLane g.val 8 ≠ key 0x1020 6 ∧ rLane g.val 8 / 256 / 16 = 0x251 ∧ rLane g.val 8 / 256 % 16 = g.val ∧ rLane g.val 8 % 256 = 8 ∧ rLane g.val 8 / 256 / 256 ≠ 0x51 ∧ rLane g.val 8 / 256 < 0x5000 ∧ 0x2000 ≤ rLane g.val 8 / 256  := by decide

theorem applyFw (u : State) (via : Transport) (v : Nat) : u.applyWrite via (key 0x1040 4) v =
    match (if u.reg rFwStatus = 1 then none
    else some (if v = 1 then u.fwErase else if v = 2 then u.fwVerify else if v = 3 then u.fwActivate else u.fwConfirm)) with | some t => (t, true) | none => (u, false) := rfl

theorem taken_facts' (s : State) (a : Access) (tag : Nat) : (s.taken' a tag).rst = s.rst ∧ (s.taken' a tag).mill.queue = s.mill.queue ∧
    (s.taken' a tag).mill.noImage = s.mill.noImage ∧ (s.taken' a tag).reg rStandby = s.reg rStandby := by
  unfold State.taken'
  split
  · refine ⟨rfl, rfl, rfl, s.reg_setReg_other (by decide) _⟩
  · exact ⟨rfl, rfl, rfl, rfl⟩
  · exact ⟨rfl, rfl, rfl, rfl⟩
  · exact ⟨rfl, rfl, rfl, rfl⟩

theorem enter_served {s u : State} {a : Access} {tag : Nat} {v : List Byte} (h : s.transportOpen a.via = true) (hq : s.mill.queue = [])
    (h2 : a.write = false ∨ s.reg rStandby ≠ 2) (hk : (a.write && a.entry == key 0x1020 6) = false) (hp : (s.taken' a tag).perform a = (u, some v)) :
    s.enter a tag = u.answer a true v := by
  obtain ⟨f1, f2, f3, f4⟩ := taken_facts' s a tag
  have : (a.write && s.reg rStandby == 2) = false := by rcases h2 with e | e <;> simp [e]
  simp only [State.enter, h, if_true, State.engine, hp, f2, hq, f4, State.serve, this, hk]
  simp

theorem enter_refused {s u : State} {a : Access} {tag : Nat} (h : s.transportOpen a.via = true) (hp : (s.taken' a tag).perform a = (u, none)) :
    s.enter a tag = u.refuse a := by
  simp only [State.enter, h, if_true, State.engine, hp]

theorem accessOf_via {via : Transport} {h v : List Byte} {a : Access} (e : accessOf via h v = some a) : a.via = via := by
  unfold accessOf at e
  repeat' split at e
  all_goals first | (injection e with e; subst e; rfl) | cases e

theorem accessOf_write {via : Transport} {h v : List Byte} {a : Access} (e : accessOf via h v = some a) : a.write = (dgOp h == 2) := by
  unfold accessOf at e
  repeat' split at e
  all_goals first | (injection e with e; subst e; simp_all) | cases e

end Sys2Proof.Machine
end

