-- ==== Sys2Proof/Laws/Values.lean ====
section
/-! SUPPORT. Numbers and values: fields of encodings, exact comparison, the DSP result rule, and the fields of a record. -/

namespace Sys2Proof.Machine

theorem roundTo_zero (f : Flt) (hf : f ∈ [flt32, flt64]) (s : Bool) (e : Int) : ∃ u, roundTo f (.num s 0 e) = .num s 0 u := by
  have hq (u : Int) : roundMult .nearest 0 e u = 0 := by simp [roundMult]
  refine ⟨fltUlp f 0 e, ?_⟩
  simp only [roundTo, hq]
  simp [fltOver]

theorem maxL_le {l : List Nat} {x : Nat} (h : x ∈ l) : x ≤ maxL l := by
  have aux : ∀ (l : List Nat) (a : Nat), a ≤ l.foldl max a ∧ ∀ x ∈ l, x ≤ l.foldl max a := by
    intro l; induction l with
    | nil => intro a; simp
    | cons y l ih => 
      intro a; refine ⟨le_trans (le_max_left a y) (ih _).1, ?_⟩
      intro x hx; rcases List.mem_cons.1 hx with rfl | hx
      · exact le_trans (le_max_right a x) (ih _).1
      · exact (ih _).2 x hx
  exact (aux l 0).2 x h

theorem maxL_mem {l : List Nat} (h : l ≠ []) : maxL l ∈ l := by
  have aux : ∀ (l : List Nat) (a : Nat), l.foldl max a = a ∨ l.foldl max a ∈ l := by
    intro l; induction l with
    | nil => intro a; simp
    | cons y l ih => 
      intro a
      rcases ih (max a y) with e | e
      · rcases le_total a y with k | k
        · right; simp only [List.foldl_cons]; rw [e, max_eq_right k]; simp
        · left; simp only [List.foldl_cons]; rw [e, max_eq_left k]
      · right; exact List.mem_cons_of_mem _ e
  cases l with
  | nil => exact absurd rfl h
  | cons y l =>
    rcases aux (y :: l) 0 with e | e
    · have : y ≤ maxL (y :: l) := maxL_le (by simp)
      unfold maxL at *
      rw [e] at this ⊢
      have : y = 0 := by omega
      subst this; simp
    · exact e

theorem bits_peel (x y k h l : Nat) (hk : h < k) (hl : l ≤ h) : bits (x + y * 2 ^ k) h l = bits x h l := by
  unfold bits
  obtain ⟨j, rfl⟩ : ∃ j, k = l + ((h + 1 - l) + j) := ⟨k - (h + 1), by omega⟩
  rw [Nat.pow_add, show x + y * (2 ^ l * 2 ^ (h + 1 - l + j)) = x + 2 ^ l * (y * 2 ^ (h + 1 - l + j)) by ring,
    Nat.add_mul_div_left _ _ (by positivity), Nat.pow_add,
    show x / 2 ^ l + y * (2 ^ (h + 1 - l) * 2 ^ j) = x / 2 ^ l + 2 ^ (h + 1 - l) * (y * 2 ^ j) by ring, Nat.add_mul_mod_self_left]

theorem bits_top (lo mid l h : Nat) (hlo : lo < 2 ^ l) : bits (lo + mid * 2 ^ l) h l = mid % 2 ^ (h + 1 - l) := by
  unfold bits
  rw [Nat.add_mul_div_right _ _ (by positivity), Nat.div_eq_of_lt hlo, Nat.zero_add]

theorem bits_mod (x h l n : Nat) (hn : h + 1 ≤ n) (hl : l ≤ h) : bits (x % 2 ^ n) h l = bits x h l := by
  unfold bits
  obtain ⟨k, rfl⟩ : ∃ k, n = l + k := ⟨n - l, by omega⟩
  obtain ⟨j, hj⟩ : ∃ j, k = (h + 1 - l) + j := ⟨k - (h + 1 - l), by omega⟩
  rw [Nat.pow_add, Nat.mod_mul_right_div_self, hj, Nat.pow_add, Nat.mod_mul_right_mod]

theorem record_fields (f : RecordFields) :
    bits (leNat (recordBytes f)) 71 64 = f.status % 256 ∧ bits (leNat (recordBytes f)) 143 96 = f.failed % 2 ^ 48 := by
  unfold recordBytes
  rw [leNat_leBytes, bits_mod _ _ _ _ (by decide) (by decide), bits_mod _ _ _ _ (by decide) (by decide)]
  simp only [field]
  have m (x n : Nat) : x % 2 ^ (n + 1) < 2 ^ (n + 1) := Nat.mod_lt _ (by positivity)
  have h1 := m f.cmdSeq 31
  have h2 := m f.runSeq 31
  have h3 := m f.status 7
  have h4 := m f.kind 1
  have h5 := m (b2n f.late) 0
  have h6 := m (b2n (psaValid f.status)) 0
  have h7 := m (b2n f.guarded) 0
  have h8 := m f.stallCause 3
  have h9 := m f.detail 7
  constructor
  · iterate 14 rw [bits_peel _ _ _ _ _ (by decide) (by decide)]
    rw [bits_top _ _ _ _ (by norm_num at *; omega)]
    norm_num
  · iterate 7 rw [bits_peel _ _ _ _ _ (by decide) (by decide)]
    rw [bits_top _ _ _ _ (by norm_num at *; omega)]
    norm_num

theorem bit_eq (x i : Nat) : bit x i = x.testBit i := by
  simp [bit, Nat.testBit, Nat.shiftRight_eq_div_pow, Nat.and_comm, Nat.one_and_eq_mod_two]
  rcases Nat.mod_two_eq_zero_or_one (x / 2 ^ i) with h | h <;> simp [h]

theorem row_lo {idx : Nat} {r : Row} (h : r ∈ rowsOf idx) : r.lo < 256 := by
  have all : ∀ e ∈ indexTable, ∀ r ∈ e.2.2, r.lo < 256 := by decide
  unfold rowsOf at h
  split at h
  · exact all _ (List.mem_of_find?_eq_some ‹_›) r h
  · simp at h

theorem sumL_cons (a : Nat) (l : List Nat) : sumL (a :: l) = a + sumL l := by
  have aux : ∀ (l : List Nat) (x : Nat), l.foldl (· + ·) x = x + l.foldl (· + ·) 0 := by
    intro l; induction l with
    | nil => simp
    | cons b l ih => intro x; simp only [List.foldl_cons]; rw [ih (x + b), ih (0 + b)]; omega
  unfold sumL; simp only [List.foldl_cons]; rw [aux]; omega

theorem locate_isSome (q : Nat) (sets : List (List (Nat × Nat))) (a : Nat) :
    (locate q sets a).isSome = true ↔ a < sumL (sets.map (fun st => st.length * rankBytes)) := by
  induction sets generalizing a with
  | nil => simp [locate, sumL]
  | cons st rest ih =>
    simp only [locate, List.map_cons, sumL_cons]
    split
    · simp; omega
    · rw [ih]; omega

/-- A rank of a located address belongs to one of the sets. -/
theorem locate_mem (q : Nat) (sets : List (List (Nat × Nat))) (a : Nat) (x : Nat × Nat × Nat) (h : locate q sets a = some x) :
    ∃ st ∈ sets, (x.1, x.2.1) ∈ st := by
  induction sets generalizing a with
  | nil => simp [locate] at h
  | cons st rest ih =>
    simp only [locate] at h
    split at h
    · rename_i hlt
      injection h with h
      have hn : 0 < st.length := by
        rcases Nat.eq_zero_or_pos st.length with e | e
        · rw [e] at hlt; omega
        · exact e
      have hi := Nat.mod_lt (a / q) hn
      refine ⟨st, by simp, ?_⟩
      rw [← h]
      simp only [List.getD_eq_getElem?_getD, List.getElem?_eq_getElem hi, Option.getD_some]
      exact List.getElem_mem hi
    · obtain ⟨t, ht, hm⟩ := ih _ h
      exact ⟨t, by simp [ht], hm⟩

theorem locate_inj (q : Nat) (hq : 0 < q) (sets : List (List (Nat × Nat))) (hn : ∀ st ∈ sets, st.Nodup)
    (hd : sets.Pairwise List.Disjoint) (a b : Nat) (x : Nat × Nat × Nat) (ha : locate q sets a = some x)
    (hb : locate q sets b = some x) : a = b := by
  induction sets generalizing a b with
  | nil => simp [locate] at ha
  | cons st rest ih =>
    have hd' := List.pairwise_cons.1 hd
    have cross {u v : Nat} (hu : u < st.length * rankBytes) (h1 : locate q (st :: rest) u = some x)
        (h2 : locate q rest v = some x) : False := by
      obtain ⟨t, ht, hm⟩ := locate_mem q rest v x h2
      have h1' : locate q [st] u = some x := by simp only [locate] at h1 ⊢; rw [if_pos hu] at h1 ⊢; exact h1
      obtain ⟨t', ht', hm'⟩ := locate_mem q [st] u x h1'
      simp only [List.mem_singleton] at ht'
      subst ht'
      exact hd'.1 t ht hm' hm
    by_cases h1 : a < st.length * rankBytes
    · by_cases h2 : b < st.length * rankBytes
      · simp only [locate] at ha hb
        rw [if_pos h1] at ha; rw [if_pos h2] at hb
        have hl : 0 < st.length := by
          rcases Nat.eq_zero_or_pos st.length with e | e
          · rw [e] at h1; omega
          · exact e
        have hi := Nat.mod_lt (a / q) hl
        have hj := Nat.mod_lt (b / q) hl
        have e := ha.trans hb.symm
        injection e with e
        simp only [List.getD_eq_getElem?_getD, List.getElem?_eq_getElem hi, List.getElem?_eq_getElem hj, Option.getD_some,
          Prod.mk.injEq] at e
        obtain ⟨e1, e2, e3⟩ := e
        have eg : st[a / q % st.length] = st[b / q % st.length] := Prod.ext e1 e2
        have ei : a / q % st.length = b / q % st.length := (List.Nodup.getElem_inj_iff (hn st (by simp))).1 eg
        have em : a % q = b % q := by
          have := congrArg (· % q) e3
          simpa [Nat.mul_add_mod', Nat.mod_mod] using this
        have ed : a / q / st.length = b / q / st.length := by
          rw [em] at e3
          exact Nat.eq_of_mul_eq_mul_right hq (by omega)
        have eq : a / q = b / q := by
          rw [← Nat.div_add_mod (a / q) st.length, ← Nat.div_add_mod (b / q) st.length, ei, ed]
        rw [← Nat.div_add_mod a q, ← Nat.div_add_mod b q, eq, em]
      · exact (cross h1 ha (by simp only [locate] at hb; rw [if_neg h2] at hb; exact hb)).elim
    · by_cases h2 : b < st.length * rankBytes
      · exact (cross h2 hb (by simp only [locate] at ha; rw [if_neg h1] at ha; exact ha)).elim
      · simp only [locate] at ha hb
        rw [if_neg h1] at ha; rw [if_neg h2] at hb
        have := ih (fun t ht => hn t (by simp [ht])) hd'.2 _ _ ha hb
        omega

theorem nodup_mapr (n : Nat) (f : Nat → Nat × Nat) (hf : ∀ i j, f i = f j → i = j) : ((List.range n).map f).Nodup :=
  List.Nodup.map (fun i j h => hf i j h) List.nodup_range

theorem rankSets_good (s : State) (p : Nat) : (∀ st ∈ s.rankSets p, st.Nodup) ∧ (s.rankSets p).Pairwise List.Disjoint := by
  have key : ∀ sets : List (List (Nat × Nat)), (∀ st ∈ sets, st.Nodup) → sets.Pairwise List.Disjoint →
      (∀ st ∈ (sets.map (fun st => st.filter (fun x => s.hasRank p x.1 x.2))).filter (fun st => st != []), st.Nodup) ∧
      ((sets.map (fun st => st.filter (fun x => s.hasRank p x.1 x.2))).filter (fun st => st != [])).Pairwise List.Disjoint := by
    intro sets h1 h2
    constructor
    · intro st hst
      obtain ⟨t, ht, rfl⟩ := List.mem_map.1 (List.mem_filter.1 hst).1
      exact (h1 t ht).filter _
    · refine List.Pairwise.filter _ (List.pairwise_map.2 (h2.imp ?_))
      intro u v huv x hx hy
      exact huv (List.mem_filter.1 hx).1 (List.mem_filter.1 hy).1
  unfold State.rankSets
  refine key _ ?_ ?_
  · intro st hst
    split at hst
    · obtain ⟨m, hm, hst⟩ := List.mem_flatMap.1 hst
      obtain ⟨sid, hsid, rfl⟩ := List.mem_map.1 hst
      exact nodup_mapr _ _ (fun i j h => by simp at h; omega)
    · obtain ⟨sid, hsid, rfl⟩ := List.mem_map.1 hst
      refine List.nodup_flatMap.2 ⟨fun ch _ => nodup_mapr _ _ (fun i j h => by simp at h; omega), ?_⟩
      refine List.nodup_range.imp ?_
      intro c d hcd x hx hy
      obtain ⟨i, hi, rfl⟩ := List.mem_map.1 hx
      obtain ⟨j, hj, e⟩ := List.mem_map.1 hy
      simp at e; omega
  · split
    · refine List.pairwise_flatMap.2 ⟨fun m _ => ?_, ?_⟩
      · refine List.pairwise_map.2 (List.nodup_range.imp ?_)
        intro c d hcd x hx hy
        obtain ⟨i, hi, rfl⟩ := List.mem_map.1 hx
        obtain ⟨j, hj, e⟩ := List.mem_map.1 hy
        have := List.mem_range.1 hi
        have := List.mem_range.1 hj
        simp at e; omega
      · refine List.nodup_range.imp ?_
        intro m m' hmm st hst st' hst' x hx hy
        obtain ⟨i, hi, rfl⟩ := List.mem_map.1 hst
        obtain ⟨j, hj, rfl⟩ := List.mem_map.1 hst'
        obtain ⟨k, hk, rfl⟩ := List.mem_map.1 hx
        obtain ⟨l, hl, e⟩ := List.mem_map.1 hy
        simp at e; omega
    · refine List.pairwise_map.2 (List.nodup_range.imp ?_)
      intro c d hcd x hx hy
      obtain ⟨i, hi, hx⟩ := List.mem_flatMap.1 hx
      obtain ⟨j, hj, hy⟩ := List.mem_flatMap.1 hy
      obtain ⟨k, hk, rfl⟩ := List.mem_map.1 hx
      obtain ⟨l, hl, e⟩ := List.mem_map.1 hy
      have := List.mem_range.1 hi
      have := List.mem_range.1 hj
      simp at e; omega

theorem fields_of (b w : Nat) (s : Bool) (e fr : Nat) (hb : 1 ≤ b) (hw : 1 ≤ w) (he : e < 2 ^ b) (hf : fr < 2 ^ w) :
    bit (b2n s * 2 ^ (b + w) + e * 2 ^ w + fr) (b + w) = s ∧
    bits (b2n s * 2 ^ (b + w) + e * 2 ^ w + fr) (b + w - 1) w = e ∧
    bits (b2n s * 2 ^ (b + w) + e * 2 ^ w + fr) (w - 1) 0 = fr := by
  have hp : (2 : Nat) ^ (b + w) = 2 ^ b * 2 ^ w := by rw [Nat.pow_add]
  have pw : 0 < (2 : Nat) ^ w := by positivity
  have low : e * 2 ^ w + fr < 2 ^ (b + w) := by
    rw [hp]
    have : (e + 1) * 2 ^ w ≤ 2 ^ b * 2 ^ w := Nat.mul_le_mul_right _ he
    rw [Nat.add_mul] at this
    omega
  unfold bit bits
  have e1 : b + w - 1 + 1 - w = b := by omega
  have e2 : w - 1 + 1 - 0 = w := by omega
  rw [e1, e2]
  refine ⟨?_, ?_, ?_⟩
  · rw [Nat.add_assoc, Nat.add_comm, Nat.add_mul_div_right _ _ (by positivity), Nat.div_eq_of_lt low]
    cases s <;> simp [b2n]
  · have : b2n s * 2 ^ (b + w) + e * 2 ^ w + fr = fr + (b2n s * 2 ^ b + e) * 2 ^ w := by rw [hp]; ring
    rw [this, Nat.add_mul_div_right _ _ pw, Nat.div_eq_of_lt hf, Nat.zero_add, Nat.add_comm, Nat.add_mul_mod_self_right]
    exact Nat.mod_eq_of_lt he
  · have : b2n s * 2 ^ (b + w) + e * 2 ^ w + fr = fr + (b2n s * 2 ^ b + e) * 2 ^ w := by rw [hp]; ring
    rw [this, Nat.pow_zero, Nat.div_one, Nat.add_mul_mod_self_right]
    exact Nat.mod_eq_of_lt hf

theorem numVal_scaled (s : Bool) (m : Nat) (k : Int) (w : Nat) : numVal s m (k - w) = (if s then -1 else 1) * (2 ^ k * ((m : ℚ) / 2 ^ w)) := by
  unfold numVal
  rw [zpow_sub₀ (by norm_num : (2 : ℚ) ≠ 0), zpow_natCast]
  ring

theorem fltDecode_value (l : Flt) (s : Bool) (e fr : Nat) (hb : 1 ≤ l.eb) (hw : 1 ≤ l.fb) (he : e < 2 ^ l.eb) (hf : fr < 2 ^ l.fb) (hn : (l.ieee && l.topNan) = false) :
    if l.ieee = true ∧ e = 2 ^ l.eb - 1 then fltDecode l (b2n s * 2 ^ (l.eb + l.fb) + e * 2 ^ l.fb + fr) = if fr = 0 then .inf s else .nan
    else if l.topNan = true ∧ e = 2 ^ l.eb - 1 ∧ fr = 2 ^ l.fb - 1 then fltDecode l (b2n s * 2 ^ (l.eb + l.fb) + e * 2 ^ l.fb + fr) = .nan
    else ∃ m k, fltDecode l (b2n s * 2 ^ (l.eb + l.fb) + e * 2 ^ l.fb + fr) = .num s m k ∧ numVal s m k = (if s then -1 else 1) *
      (if e = 0 then 2 ^ ((1 : Int) - l.bias) * ((fr : ℚ) / 2 ^ l.fb) else 2 ^ ((e : Int) - l.bias) * (1 + (fr : ℚ) / 2 ^ l.fb)) := by
  obtain ⟨a, b, c⟩ := fields_of l.eb l.fb s e fr hb hw he hf
  unfold fltDecode
  rw [a, b, c]
  simp only [Bool.and_eq_true, decide_eq_true_eq]
  split
  · rfl
  · split
    · rename_i g
      rw [if_pos ⟨⟨g.1, g.2.1⟩, g.2.2⟩]
    · rename_i g
      rw [if_neg (fun x => g ⟨x.1.1, x.1.2, x.2⟩)]
      split
      · exact ⟨_, _, rfl, numVal_scaled ..⟩
      · refine ⟨_, _, rfl, ?_⟩
        rw [numVal_scaled]
        congr 2
        push_cast
        field_simp

theorem numCmp_spec (a : Bool) (m : Nat) (e : Int) (b : Bool) (n : Nat) (f : Int) :
    (numCmp a m e b n f = 0 ↔ numVal a m e = numVal b n f) ∧ (numCmp a m e b n f = -1 ↔ numVal a m e < numVal b n f) := by
  have two : (0 : ℚ) < 2 ^ (min e f) := by positivity
  have ex : ∀ (s : Bool) (k : Nat) (g : Int), min e f ≤ g → numVal s k g = ((if s then -((k * 2 ^ (g - min e f).toNat : Nat) : Int) else ((k * 2 ^ (g - min e f).toNat : Nat) : Int)) : Int) * (2 : ℚ) ^ (min e f) := by
    intro s k g hg
    have h2 : (2 : ℚ) ^ g = 2 ^ (g - min e f).toNat * 2 ^ (min e f) := by
      rw [← zpow_natCast, ← zpow_add₀ (by norm_num : (2 : ℚ) ≠ 0)]
      congr 1
      omega
    unfold numVal
    rw [h2]
    cases s
    · simp only [Bool.false_eq_true, if_false]; push_cast; ring
    · simp only [if_true]; push_cast; ring
  rw [ex a m e (min_le_left _ _), ex b n f (min_le_right _ _)]
  unfold numCmp
  dsimp only
  generalize (if a then -((m * 2 ^ (e - min e f).toNat : Nat) : Int) else ((m * 2 ^ (e - min e f).toNat : Nat) : Int)) = x
  generalize (if b then -((n * 2 ^ (f - min e f).toNat : Nat) : Int) else ((n * 2 ^ (f - min e f).toNat : Nat) : Int)) = y
  rw [mul_left_inj' two.ne', mul_lt_mul_iff_left₀ two, Int.cast_inj, Int.cast_lt]
  constructor <;> split <;> (try split) <;> constructor <;> intro h <;> omega

theorem numCmp_cases (a : Bool) (m : Nat) (e : Int) (b : Bool) (n : Nat) (f : Int) :
    numCmp a m e b n f = -1 ∨ numCmp a m e b n f = 0 ∨ numCmp a m e b n f = 1 := by
  unfold numCmp
  dsimp only
  generalize (if a then -((m * 2 ^ (e - min e f).toNat : Nat) : Int) else ((m * 2 ^ (e - min e f).toNat : Nat) : Int)) = x
  generalize (if b then -((n * 2 ^ (f - min e f).toNat : Nat) : Int) else ((n * 2 ^ (f - min e f).toNat : Nat) : Int)) = y
  split
  · exact .inl rfl
  · split
    · exact .inr (.inl rfl)
    · exact .inr (.inr rfl)

theorem vcmp_swap (a b : Val) : (vcmp a b = some (-1) ↔ vcmp b a = some 1) := by
  have sw : ∀ (a : Bool) (m : Nat) (e : Int) (b : Bool) (n : Nat) (f : Int), numCmp a m e b n f = -1 ↔ numCmp b n f a m e = 1 := by
    intro a m e b n f
    rw [(numCmp_spec a m e b n f).2]
    have h0 := (numCmp_spec b n f a m e).1
    have h1 := (numCmp_spec b n f a m e).2
    rcases numCmp_cases b n f a m e with h | h | h
    · have := h1.1 h
      rw [h]; constructor
      · intro g; exact absurd (lt_trans g this) (lt_irrefl _)
      · intro g; omega
    · have := h0.1 h
      rw [h]; constructor
      · intro g; rw [this] at g; exact absurd g (lt_irrefl _)
      · intro g; omega
    · rw [h]; constructor
      · intro _; rfl
      · intro _
        rcases lt_trichotomy (numVal a m e) (numVal b n f) with g | g | g
        · exact g
        · rw [h] at h0; exact absurd (h0.2 g.symm) (by decide)
        · rw [h] at h1; exact absurd (h1.2 g) (by decide)
  cases a with
  | nan => cases b <;> simp [vcmp]
  | inf x =>
    cases b with
    | nan => simp [vcmp]
    | inf y => cases x <;> cases y <;> simp [vcmp]
    | num y n f => cases x <;> simp [vcmp]
  | num x m e =>
    cases b with
    | nan => simp [vcmp]
    | inf y => cases y <;> simp [vcmp]
    | num y n f => simp only [vcmp, Option.some.injEq]; exact sw ..

theorem dsp_setDsp_self (s : State) (d k : Nat) (x : Dsp) : (s.setDsp d k x).dsp d k = x := by
  unfold State.setDsp State.dsp
  rw [State.brim_modBrim_self]
  exact sget_sput_self ..

theorem dsp_setDsp_other (s : State) (d k : Nat) (x : Dsp) (c j : Nat) (h : c ≠ d ∨ j ≠ k) : (s.setDsp d k x).dsp c j = s.dsp c j := by
  unfold State.setDsp State.dsp
  by_cases e : c = d
  · subst e
    rw [State.brim_modBrim_self]
    exact sget_sput_other _ _ (by simpa using h) _
  · rw [State.brim_modBrim_other _ e]

theorem dspResult_in (sat : Bool) (v : Int) (h : -(2 ^ 39) ≤ v) (g : v < 2 ^ 39) : dspResult sat v = (v, false) := by
  unfold dspResult
  rw [if_pos ⟨h, by omega⟩]

theorem dspResult_out (sat : Bool) (v : Int) (h : v < -(2 ^ 39) ∨ 2 ^ 39 ≤ v) :
    dspResult sat v = ((if sat then max (-(2 ^ 39)) (min (2 ^ 39 - 1) v) else signed 40 (unsigned 40 v)), true) := by
  unfold dspResult
  rw [if_neg (by omega)]

theorem signed_unsigned_40 (v : Int) : -(2 ^ 39) ≤ signed 40 (unsigned 40 v) ∧ signed 40 (unsigned 40 v) < 2 ^ 39 ∧
    (signed 40 (unsigned 40 v) - v) % 2 ^ 40 = 0 := by
  unfold signed unsigned
  have h := Int.emod_nonneg v (show ((2 ^ 40 : Nat) : Int) ≠ 0 by decide)
  have h2 := Int.emod_lt_of_pos v (show (0 : Int) < ((2 ^ 40 : Nat) : Int) by decide)
  norm_num at *
  split <;> omega

theorem dspExec_runs {s : State} {d k op w : Nat} {f : Nat → Int → Option Int} {v : Int} (h : s.dspWord d k = some w) (ho : iOp w = op)
    (hf : f w (s.dsp d k).acc = some v) (rl : regLen (rBrim d 9) = 8) : DspRuns s (s.dspExec d k op f) d k w v := by
  unfold State.dspExec
  simp only [h, ho, ne_eq, not_true, if_false, hf]
  by_cases e : -(2 ^ 39) ≤ v ∧ v < 2 ^ 39
  · rw [dspResult_in _ _ e.1 e.2]
    simp only [Bool.false_eq_true, if_false, Bool.or_false]
    refine ⟨fun _ _ => ?_, fun _ => ?_, fun _ => ?_, fun h => ?_, ?_, ?_, fun c j h => dsp_setDsp_other _ _ _ _ _ _ h, ?_⟩
    · rw [dsp_setDsp_self]; exact ⟨rfl, rfl, rfl⟩
    · omega
    · rw [dsp_setDsp_self]; exact ⟨e.1, e.2, by simp⟩
    · omega
    · rw [dsp_setDsp_self]; exact ⟨rfl, by simp⟩
    · rw [dsp_setDsp_self]; rfl
    · exact onlyRegs_refl _ _
  · have e' : v < -(2 ^ 39) ∨ 2 ^ 39 ≤ v := by omega
    rw [dspResult_out _ _ e']
    simp only [if_true, Bool.or_true]
    have same : ∀ (u : State) c j, (u.bump (rBrim d 9) 1).dsp c j = u.dsp c j := fun _ _ _ => rfl
    refine ⟨fun _ _ => by omega, fun hs => ?_, fun hs => ?_, fun _ => ?_, ?_, ?_, fun c j h => ?_, ?_⟩
    · rw [same, dsp_setDsp_self]; simp only [hs, if_true]; omega
    · rw [same, dsp_setDsp_self]; simp only [hs, Bool.false_eq_true, if_false]; exact signed_unsigned_40 v
    · rw [same, dsp_setDsp_self, State.reg_bump_self, rl]; exact ⟨rfl, rfl⟩
    · rw [same, dsp_setDsp_self]; exact ⟨rfl, by simp⟩
    · rw [same, dsp_setDsp_self]; rfl
    · rw [same, dsp_setDsp_other _ _ _ _ _ _ h]
    · exact onlyRegs_setReg _ _ _

end Sys2Proof.Machine
end

