-- ==== Sys2Proof/Laws/Facts.lean ====
section
/-! SUPPORT. What single operations leave alone or read back: memory words, flash, lanes, sessions and engines. -/

namespace Sys2Proof.Machine

theorem sget_putBytes (s : State) (k : Nat) (bs : List Byte) (j : Nat) :
    sget hbmZero (s.putBytes k bs).hbm j = if k ≤ j ∧ j < k + bs.length then bs.getD (j - k) 0 else sget hbmZero s.hbm j := by
  unfold State.putBytes
  have aux : ∀ (l : List Byte) (n : Nat) (m : List Host.Cell),
      sget hbmZero ((l.mapIdx (fun i b => (n + i, b))).foldl (fun m e => sput hbmZero m (k + e.1) e.2) m) j =
        if k + n ≤ j ∧ j < k + n + l.length then l.getD (j - k - n) 0 else sget hbmZero m j := by
    intro l; induction l with
    | nil => intro n m; rw [if_neg (by simp)]; rfl
    | cons b l ih =>
      intro n m
      simp only [List.mapIdx_cons, List.foldl_cons]
      have := ih (n + 1) (sput hbmZero m (k + (n + 0)) b)
      rw [show (fun (i : Nat) (b : Byte) => (n + (i + 1), b)) = (fun i b => (n + 1 + i, b)) from by
        funext i b; rw [Nat.add_assoc, Nat.add_comm 1 i]]
      rw [this, sget_sput]
      simp only [List.length_cons]
      by_cases h0 : j = k + n
      · subst h0
        rw [if_neg (by omega), if_pos (by omega), if_pos (by omega)]
        simp
      · rw [if_neg (show ¬ (j = k + (n + 0)) by omega)]
        by_cases h1 : k + (n + 1) ≤ j ∧ j < k + (n + 1) + l.length
        · rw [if_pos h1, if_pos (by omega)]
          rw [show j - k - n = (j - k - (n + 1)) + 1 by omega]; simp
        · rw [if_neg h1, if_neg (by omega)]
  have := aux bs 0 s.hbm
  simp only [Nat.zero_add, Nat.add_zero, Nat.sub_zero] at this
  exact this

theorem recordDone_fns (s : State) (p : Nat) (t : RecTag) : (s.recordDone p t).fns = s.fns := by
  cases t <;> rfl

theorem foldl_recordDone_fns (l : List Rec) (p : Nat) (s : State) : (l.foldl (fun s r => s.recordDone p r.tag) s).fns = s.fns := by
  induction l generalizing s with
  | nil => rfl
  | cons r l ih => rw [List.foldl_cons, ih, recordDone_fns]

theorem modOther_facts (s : State) (g : Flash → Flash) : (s.modOtherFlash g).otherFlash = g s.otherFlash ∧ (s.modOtherFlash g).flash = s.flash := by
  have d : (s.modOtherFlash g).dict = s.dict := by unfold State.modOtherFlash; split <;> rfl
  have a := activeIs0_congr (reg_of_dict d rActiveDie)
  unfold State.otherFlash State.flash
  rw [a]
  unfold State.modOtherFlash
  by_cases h : s.activeIs0 = true <;> simp [h]

theorem modFlash_facts (s : State) (g : Flash → Flash) : (s.modFlash g).flash = g s.flash ∧ (s.modFlash g).otherFlash = s.otherFlash := by
  have d : (s.modFlash g).dict = s.dict := by unfold State.modFlash; split <;> rfl
  have a := activeIs0_congr (reg_of_dict d rActiveDie)
  unfold State.otherFlash State.flash
  rw [a]
  unfold State.modFlash
  by_cases h : s.activeIs0 = true <;> simp [h]

theorem flash_set (s : State) (k v : Nat) (h : k ≠ rActiveDie) : (s.setReg k v).flash = s.flash ∧ (s.setReg k v).otherFlash = s.otherFlash := by
  have a := activeIs0_congr (s.reg_setReg_other (j := rActiveDie) (k := k) (fun e => h e.symm) v)
  unfold State.otherFlash State.flash
  rw [a]
  exact ⟨rfl, rfl⟩

theorem raise_clock (s : State) (c : Nat) (o : Option Nat) : (s.raise c o).clock = s.clock := by
  exact (Goes.raise (F := [.dict, .fns, .free, .mill, .out]) c o (by decide) (by decide) (by decide) (by decide) (by decide) (Goes.refl _ s)).1 .clock (by decide)

theorem insess {s : State} {id : Nat} {x : Session} {b : Bool} {ok : Session → Bool} {name : String} {bytes : Session → List Byte} {act : Session → State → State}
    (h : s.session id = some x) (h1 : x.secured = b) (h2 : s.spdmServes x.box = true) (h3 : 3 ≤ s.conn x.box) (h4 : ok x = true) :
    s.inSession id b ok name bytes act = (act x (s.modSession id (fun x => x))).emit (.spdm x.box name (bytes x)) := by
  have h2' : State.spdmServes (s.modSession id (fun x => x)) x.box = true := h2
  have h3' : ¬ State.conn (s.modSession id (fun x => x)) x.box < 3 := not_lt.2 h3
  simp only [State.inSession, State.spdm, h, h1, h4, h2', h3', bne_self_eq_false, Bool.not_true, Bool.false_eq_true, if_false, decide_false, Bool.or_self]

theorem insessErr {s : State} {id : Nat} {x : Session} {b : Bool} {ok : Session → Bool} {name : String} {bytes : Session → List Byte} {act : Session → State → State}
    (h : s.session id = some x) (h1 : x.secured = b) (h2 : s.spdmServes x.box = true) (h4 : ok x = false) :
    s.inSession id b ok name bytes act = (s.modSession id (fun x => x)).emit (.spdm x.box "ERROR" []) := by
  have h2' : State.spdmServes (s.modSession id (fun x => x)) x.box = true := h2
  simp only [State.inSession, State.spdm, h, h1, h4, h2', bne_self_eq_false, Bool.not_true, Bool.false_eq_true, if_false, Bool.not_false, Bool.or_true, if_true]

theorem fns_showStream (s : State) (f : Fn) : (s.showStream f).fns = s.fns := by
  unfold State.showStream; split <;> rfl

theorem hbm_ceFound (s : State) (o : Option Nat) (m r : Nat) : (s.ceFound o m r).hbm = s.hbm :=
  (Goes.ceFound (F := [.dict, .fns, .free, .mill, .out, .stackSides]) o m r (by decide) (by decide) (by decide) (by decide) (by decide) (by decide) (Goes.refl _ s)).1 .hbm (by decide)

theorem hbm_retire (s : State) (m r : Nat) : (s.retire m r).hbm = s.hbm :=
  (Goes.retire (F := [.dict, .fns, .free, .mill, .out, .stackSides]) m r (by decide) (by decide) (by decide) (by decide) (by decide) (by decide) (Goes.refl _ s)).1 .hbm (by decide)

theorem hbm_raise (s : State) (c : Nat) (o : Option Nat) : (s.raise c o).hbm = s.hbm :=
  (Goes.raise (F := [.dict, .fns, .free, .mill, .out]) c o (by decide) (by decide) (by decide) (by decide) (by decide) (Goes.refl _ s)).1 .hbm (by decide)

theorem hbm_ueFound (s : State) (m r off : Nat) : (s.ueFound m r off).hbm = s.hbm := by
  unfold State.ueFound
  rw [State.setReg_hbm, State.bump_hbm, State.bump_hbm]; rfl

/-- A word's errors that the code detects bring no bytes of their own (R209). -/
theorem stray_of_few (s : State) (k : Nat) (e : WordErr) (h : e.symbols.val ≤ 3) : s.stray k e = s := if_pos h

theorem hbm_writeWord (s : State) (p m r off first : Nat) (new : List Byte) (err : WordErr) (h : first + new.length ≤ 64)
    (he : err.symbols.val ≤ 3) :
    (s.writeWord p m r off first new err).hbm = (s.putBytes (wordKey m r off + first) new).hbm := by
  unfold State.writeWord
  have ht : new.take (64 - first) = new := List.take_of_length_le (by omega)
  rw [ht]
  split
  · rename_i e; rw [e.1, Nat.add_zero]; rfl
  · dsimp only
    rw [stray_of_few _ _ _ he]
    split
    · rfl
    · rfl
    · exact hbm_ceFound _ _ _ _
    · rw [hbm_retire, hbm_raise]; rfl

theorem popWord_jobs (s : State) (m ch : Nat) (j : Job) (rest : List Job) (h : s.jobs m ch = j :: rest) :
    (s.popWord m ch).jobs m ch = if j.words.tail = [] then rest else { j with words := j.words.tail } :: rest := by
  simp only [State.popWord, h]
  exact sget_sput_self _ _ _ _

theorem hbm_popWord (s : State) (m ch : Nat) : (s.popWord m ch).hbm = s.hbm ∧ (s.popWord m ch).resps = s.resps ∧ (s.popWord m ch).poison = s.poison := by
  unfold State.popWord; split <;> exact ⟨rfl, rfl, rfl⟩

theorem neighbour_same (s : State) (m r off : Nat) : (s.neighbour m r off).hbm = s.hbm ∧ (s.neighbour m r off).poison = s.poison ∧
    (s.neighbour m r off).resps = s.resps ∧ (s.neighbour m r off).channels = s.channels := by
  unfold State.neighbour; split <;> exact ⟨rfl, rfl, rfl, rfl⟩

theorem channels_serveWord (s : State) (j : Job) (w : WordAcc) (err : WordErr) : (s.serveWord j w err).channels = s.channels := by
  exact (Goes.serveWord (F := [.dict, .fns, .free, .hbm, .mill, .out, .poison, .resps, .stackSides]) j w err (by decide) (by decide) (by decide) (by decide) (by decide) (by decide) (by decide) (by decide) (by decide) (Goes.refl _ s)).1 .channels (by decide)

theorem readWord_clean (s : State) (o : Option Nat) (m r off : Nat) : s.readWord o m r off ⟨0, false⟩ =
    (s.draw, s.word (wordKey m r off), s.poisoned (wordKey m r off)) := by
  unfold State.readWord State.found
  by_cases h : s.poisoned (wordKey m r off) = true
  · simp [h]
  · simp only [Bool.not_eq_true] at h
    simp only [h, Bool.false_and, Bool.false_eq_true, if_false]
    rfl

theorem serve_read {s : State} {j : Job} {w : WordAcc} {m r off k : Nat} {u : State} (h3 : j.write = false) (h4 : s.place j.p w.addr = some (m, r, off))
    (h5 : (s.stack m).offline.contains (s.servedBy m r off) = false) (hk : k = wordKey m (s.servedBy m r off) off)
    (hu : u = ((s.neighbour m (s.servedBy m r off) off).draw).modResp j.resp (fun x => x.served false w (s.word k) (s.poisoned k))) :
    s.serveWord j w ⟨0, false⟩ = if s.poisoned k then (u.bump (rPmem j.p 6) 1).setReg (rPmem j.p 8) w.addr else u := by
  subst hk hu
  obtain ⟨n1, n2, n3, n4⟩ := neighbour_same s m (s.servedBy m r off) off
  have hp : ∀ k, (s.neighbour m (s.servedBy m r off) off).poisoned k = s.poisoned k := by intro k; unfold State.poisoned; rw [n2]
  have hw : ∀ k, (s.neighbour m (s.servedBy m r off) off).word k = s.word k := by intro k; unfold State.word; rw [n1]
  simp only [State.serveWord, h4, h5, h3, Bool.false_eq_true, if_false, readWord_clean, hp, hw]

theorem hbm_readWord (s : State) (o : Option Nat) (m a b : Nat) (err : WordErr) (he : err.symbols.val ≤ 3) :
    (s.readWord o m a b err).1.hbm = s.hbm := by
  unfold State.readWord
  dsimp only
  rw [stray_of_few _ _ _ he]
  split
  · rfl
  · rfl
  · exact hbm_ceFound _ _ _ _
  · rw [hbm_retire, hbm_ueFound]; rfl

theorem patrol_mod (u : State) (m : Nat) (x : Bool) (f : StackState → StackState) : (if x = true then (u.modStack m f).bump (rStack m 0x26) 1 else u.modStack m f).hbm = u.hbm ∧
    (if x = true then (u.modStack m f).bump (rStack m 0x26) 1 else u.modStack m f).stack m = f (u.stack m) := by
  cases x
  · exact ⟨rfl, State.stack_modStack_self _ _ _⟩
  · exact ⟨rfl, (State.stack_bump _ _ _ _).trans (State.stack_modStack_self _ _ _)⟩

theorem answers (dies : List Nat) (f : Nat → Nat) (s : State) :
    (dies.foldl (fun s c => s.answerNow (f c) 0 [] []) s).nextResp = s.nextResp + dies.length ∧
    ∃ l, (dies.foldl (fun s c => s.answerNow (f c) 0 [] []) s).resps = s.resps ++ l ∧ l.map Resp.header = dies.map f ∧ (∀ r ∈ l, r.left = 0 ∧ r.status = 0 ∧ r.bad = []) := by
  induction dies generalizing s with
  | nil => exact ⟨rfl, [], by simp⟩
  | cons c dies ih =>
    obtain ⟨a, l, b, e, g⟩ := ih (s.answerNow (f c) 0 [] [])
    rw [List.foldl_cons]
    refine ⟨a.trans ?_, ⟨s.nextResp, f c, 0, [], [], 0, false, false, []⟩ :: l, b.trans ?_, ?_, ?_⟩
    · show s.nextResp + 1 + _ = _
      rw [List.length_cons]; omega
    · show (s.resps ++ [_]) ++ l = _
      simp
    · rw [List.map_cons, e]; rfl
    · intro r hr
      rcases List.mem_cons.1 hr with rfl | hr
      · exact ⟨rfl, rfl, rfl⟩
      · exact g r hr

theorem execOp_runs {c : CmdRef} {op : Nat} {s : State} {f : Found} {st} (h1 : s.find c = some f) (h2 : dOpcode f.desc = op)
    (h3 : s.canCompute f = true) : s.execOp c op st =
      ((((s.engineStalls f st).endWorks f (fun w => !w.dup && !w.replay)).keepInputs f).measureInputs f).finishWork f (outsOf f f.cmd.ends) := by
  unfold State.execOp
  simp only [h1, h2, h3, ne_eq, not_true, decide_false, Bool.not_true, Bool.or_false, Bool.false_eq_true, if_false]

/-- What raising an event leaves (R414): the record is last in the log, with free values for what nothing determines, and the sequence
number counts. -/
theorem raise_mill_dict (s : State) (code : Nat) (o : Option Nat) : ∃ d x : Nat, ∀ e : Event,
    e = ⟨s.now, (s.reg (key 0x1080 1) + 1) % 2 ^ 32, code, o.getD (Config.freeNat 16 s.free) % 2 ^ 16, d, x⟩ →
    (s.raise code o).mill = { s.mill with events := (s.mill.events ++ [e]).drop ((s.mill.events ++ [e]).length - 24576) } ∧
    (s.raise code o).dict = (s.setReg (key 0x1080 1) ((s.reg (key 0x1080 1) + 1) % 2 ^ 32)).dict := by
  refine ⟨Config.freeNat 32 (s.free + 1) % 2 ^ 32, Config.freeNat 96 (s.free + 2) % 2 ^ 96, ?_⟩
  rintro _ rfl
  unfold State.raise
  dsimp only
  split <;>
  · constructor
    · exact (Goes.msixAll (F := [.fns, .out]) 0 (by decide) (by decide) (Goes.refl _ _)).1 .mill (by decide)
    · exact (Goes.msixAll (F := [.fns, .out]) 0 (by decide) (by decide) (Goes.refl _ _)).1 .dict (by decide)

theorem laneKeys_ne (g : GroupN) (l : LaneN) : rLane g.val 5 ≠ rLaneState g.val l.val ∧ key 0x1080 1 ≠ rLaneState g.val l.val := by
  unfold rLaneState rLane key; have := g.isLt; have := l.isLt; omega

theorem laneState_len (g : GroupN) (l : LaneN) : 1 ≤ regLen (rLaneState g.val l.val) := by
  have a : ∀ g : GroupN, rowsOf (0x2510 + g.val) = rows2510 := by decide
  have b : ∀ l : LaneN, ((rows2510.find? (fun r => decide (r.lo ≤ 0x40 + l.val) && decide (0x40 + l.val ≤ r.hi))).elim 8 Row.len) = 4 := by decide
  have d : rLaneState g.val l.val / 256 = 0x2510 + g.val := by unfold rLaneState rLane key; have := l.isLt; omega
  have m : rLaneState g.val l.val % 256 = 0x40 + l.val := by unfold rLaneState rLane key; have := l.isLt; omega
  have b := b l
  unfold regLen rowOf
  rw [d, m, a g]
  split
  · omega
  · revert b
    cases rows2510.find? (fun r => decide (r.lo ≤ 0x40 + l.val) && decide (0x40 + l.val ≤ r.hi)) with
    | none => intro b; simp
    | some r => intro b; simp at b; simp [b]

theorem laneTo_spec (g : GroupN) (l : LaneN) (st : Nat) (s : State) (h : st < 16) : (s.laneTo g.val l.val st).laneState g.val l.val = st ∧
    (s.laneTo g.val l.val st).laneSince g.val l.val = (s.now, 0) ∧
    (s.laneTo g.val l.val st).lanesUp g.val = setBit (s.lanesUp g.val) l.val (st == lnUp) % 2 ^ 64 ∧
    OnlyRegs [rLaneState g.val l.val, rLane g.val 5] s (s.laneTo g.val l.val st) ∧
    ∀ m : LaneN, m ≠ l → (s.laneTo g.val l.val st).laneSince g.val m.val = s.laneSince g.val m.val := by
  have n := (laneKeys_ne g l).1
  unfold State.laneTo
  dsimp only
  refine ⟨?_, ?_, ?_, ?_, fun m hm => ?_⟩
  · unfold State.laneState
    rw [State.reg_setReg_other _ n.symm, State.reg_modLg, State.reg_setReg_self]
    have : 8 * regLen (rLaneState g.val l.val) = 4 + (8 * regLen (rLaneState g.val l.val) - 4) := by
      have := laneState_len g l
      omega
    rw [this, Nat.pow_add]
    have e (x n : Nat) : x % (2 ^ 4 * n) % 16 = x % 16 := Nat.mod_mul_right_mod x 16 n
    rw [e]
    omega
  · show sget _ ((State.setReg _ _ _).lg g.val).lanes l.val = _
    rw [State.lg_setReg, State.lg_modLg_self]
    exact sget_sput_self ..
  · unfold State.lanesUp
    have r5 : ∀ g : GroupN, regLen (rLane g.val 5) = 8 := by decide
    rw [State.reg_setReg_self, r5, State.reg_modLg, State.reg_setReg_other _ n]
  · exact onlyRegs_step _ _ (by simp) (onlyRegs_of_dict (t := s.setReg (rLaneState g.val l.val) (s.reg (rLaneState g.val l.val) - s.reg (rLaneState g.val l.val) % 16 + st)) rfl (onlyRegs_step _ _ (by simp) (onlyRegs_refl _ _)))
  · show sget _ ((State.setReg _ _ _).lg g.val).lanes m.val = _
    rw [State.lg_setReg, State.lg_modLg_self]
    exact sget_sput_other _ _ (fun e => hm (Fin.ext e)) _

theorem fromLane_of {s : State} {g : GroupN} {l : LaneN} {st : Nat} (f : State → State) (h1 : s.live (48 + g.val) = true) (h2 : s.laneState g.val l.val = st) :
    s.fromLane g l st f = f s := by
  unfold State.fromLane
  simp only [h1, h2, beq_self_eq_true, Bool.and_self, if_true]

theorem since_mod (s : State) (g l : Nat) (v : Nat × Nat) :
    (s.modLg g (fun x => { x with lanes := sput (fun _ => ((0 : Nat), (0 : Nat))) x.lanes l v })).laneSince g l = v ∧
    ∀ m, m ≠ l → (s.modLg g (fun x => { x with lanes := sput (fun _ => ((0 : Nat), (0 : Nat))) x.lanes l v })).laneSince g m = s.laneSince g m := by
  unfold State.laneSince
  rw [State.lg_modLg_self]
  exact ⟨sget_sput_self .., fun m h => sget_sput_other _ _ h _⟩

end Sys2Proof.Machine
end

