-- ==== Sys2Proof/Laws/Outcome.lean ====
section
/-! SUPPORT. What the operations of a command leave of its run, of the command and of its outputs; and what carrying a command out
leaves at its output ends. -/

namespace Sys2Proof.Machine

theorem find_updWhere {α : Type} (k : α → Nat) (f : α → α) (q : α → Bool) (n : Nat) (hf : ∀ x, k (f x) = k x) (l : List α) :
    (updWhere q f l).find? (fun x => k x == n) = (l.find? (fun x => k x == n)).map (fun x => if q x then f x else x) := by
  unfold updWhere
  rw [List.find?_map]
  congr 2
  funext x
  by_cases h : q x = true <;> simp [h, hf]

theorem run_modRun (s : State) (p q id k : Nat) (g : Run → Run) (hg : ∀ r, (g r).id = r.id) :
    (s.modRun q k g).run p id = (s.run p id).map (fun r => if p = q ∧ r.id = k then g r else r) := by
  unfold State.modRun State.run
  by_cases h : p = q
  · subst h
    rw [State.prn_modPr_self, find_updWhere Run.id g _ id hg]
    simp
  · rw [State.prn_modPr_other _ h]
    simp [h]

theorem program_modRun (s : State) (p q k h : Nat) (g : Run → Run) : (s.modRun q k g).program p h = s.program p h :=
  program_modPr_of (g := fun x => { x with runs := updWhere (fun r => r.id == k) g x.runs }) (fun _ => rfl) p h

theorem cmd_modCmd (r : Run) (i k : Nat) (g : Cmd → Cmd) (hg : ∀ c, (g c).idx = c.idx) :
    (r.modCmd k g).cmd i = (r.cmd i).map (fun c => if c.idx = k then g c else c) := by
  unfold Run.modCmd Run.cmd
  rw [find_updWhere Cmd.idx g _ i hg]
  simp

theorem idx_of_cmd {r : Run} {i : Nat} {c : Cmd} (h : r.cmd i = some c) : c.idx = i := by
  simpa using List.find?_some h

theorem id_of_run {s : State} {p id : Nat} {r : Run} (h : s.run p id = some r) : r.id = id := by
  simpa using List.find?_some h

theorem foldl_keeps {α β γ : Type} (l : List β) (v : α → γ) {f : α → β → α} (hf : ∀ a b, v (f a b) = v a) (a : α) :
    v (l.foldl f a) = v a := by
  induction l generalizing a with
  | nil => rfl
  | cons b l ih => rw [List.foldl_cons, ih, hf]

/-- What an update of a command leaves of it. -/
theorem modCmd_at {s : State} {p id i : Nat} {r : Run} {c : Cmd} (hr : s.run p id = some r) (hc : r.cmd i = some c) {g : Cmd → Cmd}
    (hg : ∀ c, (g c).idx = c.idx) :
    ∃ r', (s.modCmd p id i g).run p id = some r' ∧ r'.cmd i = some (g c) ∧ r'.handle = r.handle := by
  refine ⟨r.modCmd i g, ?_, ?_, rfl⟩
  · unfold State.modCmd
    rw [run_modRun, hr, Option.map_some, if_pos ⟨rfl, id_of_run hr⟩]
    intro _; rfl
  · rw [cmd_modCmd _ _ _ _ hg, hc, Option.map_some, if_pos (idx_of_cmd hc)]

/-- Between two states a command, with its run and its program, keeps its phase and its outputs. -/
def Tied (p id i : Nat) (s t : State) : Prop :=
  (∀ h, t.program p h = s.program p h) ∧
  ∀ r c, s.run p id = some r → r.cmd i = some c → ∃ r' c', t.run p id = some r' ∧ r'.cmd i = some c' ∧ r'.handle = r.handle ∧
    c'.phase = c.phase ∧ ∀ e, 4 ≤ e % 8 → c'.finish e = c.finish e

theorem Tied.refl (p id i : Nat) (s : State) : Tied p id i s s :=
  ⟨fun _ => rfl, fun r c h g => ⟨r, c, h, g, rfl, rfl, fun _ _ => rfl⟩⟩

theorem Tied.trans {p id i : Nat} {s t u : State} (h : Tied p id i s t) (g : Tied p id i t u) : Tied p id i s u := by
  refine ⟨fun k => (g.1 k).trans (h.1 k), fun r c hr hc => ?_⟩
  obtain ⟨r₁, c₁, a, b, e, ph, f⟩ := h.2 r c hr hc
  obtain ⟨r₂, c₂, a', b', e', ph', f'⟩ := g.2 r₁ c₁ a b
  exact ⟨r₂, c₂, a', b', e'.trans e, ph'.trans ph, fun x hx => (f' x hx).trans (f x hx)⟩

theorem Tied.of_prn {p id i : Nat} {s t : State} (h : t.prn p = s.prn p) : Tied p id i s t := by
  refine ⟨fun k => by unfold State.program; rw [h], fun r c hr hc => ⟨r, c, ?_, hc, rfl, rfl, fun _ _ => rfl⟩⟩
  unfold State.run at hr ⊢; rw [h]; exact hr

/-- What leaves the partitions' runs alone leaves the command alone. -/
theorem Tied.of_goes {p id i : Nat} {F : List Piece} {s t : State} (h : Goes F s t) (hF : Piece.prun ∉ F) : Tied p id i s t :=
  Tied.of_prn (by unfold State.prn; rw [show t.prun = s.prun from h.1 .prun hF])

theorem Tied.modPr {p id i : Nat} (s : State) (q : Nat) {g : PartRun → PartRun} (hr : ∀ r, (g r).runs = r.runs)
    (hp : ∀ r, (g r).programs = r.programs) : Tied p id i s (s.modPr q g) := by
  refine ⟨fun k => program_modPr_of hp p k, fun r c h k => ⟨r, c, ?_, k, rfl, rfl, fun _ _ => rfl⟩⟩
  rw [run_modPr_of hr]; exact h

theorem Tied.modRun {p id i : Nat} (s : State) (q k : Nat) {g : Run → Run} (hi : ∀ r, (g r).id = r.id)
    (hh : ∀ r, (g r).handle = r.handle)
    (hc : ∀ r c, r.cmd i = some c → ∃ d, (g r).cmd i = some d ∧ d.phase = c.phase ∧ ∀ e, 4 ≤ e % 8 → d.finish e = c.finish e) :
    Tied p id i s (s.modRun q k g) := by
  refine ⟨fun h => program_modRun s p q k h g, fun r c hr h => ?_⟩
  rw [run_modRun s p q id k g hi, hr]
  by_cases x : p = q ∧ r.id = k
  · obtain ⟨d, a, b, e⟩ := hc r c h
    exact ⟨g r, d, by simp [x], a, hh r, b, e⟩
  · exact ⟨r, c, by simp [x], h, rfl, rfl, fun _ _ => rfl⟩

theorem Tied.modCmd {p id i : Nat} (s : State) (q k j : Nat) {g : Cmd → Cmd} (hi : ∀ c, (g c).idx = c.idx)
    (hp : ∀ c, (g c).phase = c.phase) (he : ∀ c e, 4 ≤ e % 8 → (g c).finish e = c.finish e) : Tied p id i s (s.modCmd q k j g) := by
  refine Tied.modRun s q k (fun r => rfl) (fun r => rfl) (fun r c h => ?_)
  rw [cmd_modCmd r i j g hi, h]
  refine ⟨_, rfl, ?_⟩
  by_cases x : c.idx = j
  · simp only [if_pos x]; exact ⟨hp c, he c⟩
  · simp only [if_neg x]; exact ⟨trivial, fun _ _ => trivial⟩

theorem Tied.foldl {α : Type} {p id i : Nat} (l : List α) {f : State → α → State} (hf : ∀ s x, Tied p id i s (f s x)) (s : State) :
    Tied p id i s (l.foldl f s) := by
  induction l generalizing s with
  | nil => exact Tied.refl p id i s
  | cons x l ih => exact (hf s x).trans (ih (f s x))

theorem Tied.ite {p id i : Nat} {s a b : State} {c : Prop} [Decidable c] (ha : Tied p id i s a) (hb : Tied p id i s b) :
    Tied p id i s (if c then a else b) := by split <;> assumption

/-! ### The operations around a result -/

theorem Tied.bump {p id i : Nat} (s : State) (k n : Nat) : Tied p id i s (s.bump k n) := Tied.of_prn rfl

theorem Tied.stall {p id i : Nat} (s : State) (q run cmd c t cause n : Nat) : Tied p id i s (s.stall q run cmd c t cause n) :=
  (Tied.of_prn (t := s.bump _ n) rfl).trans (Tied.modCmd _ q run cmd (fun _ => rfl) (fun _ => rfl) (fun _ _ _ => rfl))

theorem Tied.engineStalls {p id i : Nat} (s : State) (f : Found) (l : List (DieC × Fin 9 × W32)) :
    Tied p id i s (s.engineStalls f l) :=
  Tied.foldl _ (fun s x => Tied.stall s _ _ _ _ _ _ _) s

theorem Tied.endWorks {p id i : Nat} (s : State) (f : Found) (q : Work → Bool) : Tied p id i s (s.endWorks f q) :=
  Tied.of_goes (F := [.arrays, .dict, .works]) (Goes.endWorks f q (by decide) (by decide) (by decide) (Goes.refl _ s)) (by decide)

theorem Tied.countCopies {p id i : Nat} (s : State) (q : Nat) : Tied p id i s (s.countCopies q) :=
  Tied.of_goes (F := [.dict]) (Goes.countCopies q (by decide) (Goes.refl _ s)) (by decide)

theorem Tied.freeCopies {p id i : Nat} (s : State) (q : Nat) (x : Copy → Bool) : Tied p id i s (s.freeCopies q x) :=
  Tied.trans (Tied.trans (by exact Tied.modPr s q (fun _ => rfl) (fun _ => rfl)) (Tied.bump _ _ _)) (Tied.countCopies _ q)

theorem Tied.makeRoom {p id i : Nat} (q die size n : Nat) (s : State) : Tied p id i s (State.makeRoom q die size n s) := by
  induction n generalizing s with
  | zero => exact Tied.refl p id i s
  | succ n ih =>
    rw [State.makeRoom]
    split
    · exact Tied.refl p id i s
    · split
      · exact Tied.refl p id i s
      · exact (Tied.freeCopies s q _).trans (ih _)

theorem Tied.keepCopy {p id i : Nat} (s : State) (q handle b die : Nat) (moves : List (Nat × Nat × Nat)) (data : List Byte) :
    Tied p id i s (s.keepCopy q handle b die moves data) := by
  unfold State.keepCopy
  refine Tied.ite (Tied.refl p id i s) (Tied.ite (Tied.of_prn rfl) ?_)
  refine (Tied.makeRoom q die _ 64 s).trans (Tied.ite ?_ (Tied.of_prn rfl))
  refine Tied.trans (Tied.trans ?_ (Tied.bump _ _ _)) (Tied.countCopies _ q)
  exact Tied.modPr _ q (fun _ => rfl) (fun _ => rfl)

theorem Tied.keepInputs {p id i : Nat} (s : State) (f : Found) : Tied p id i s (s.keepInputs f) := by
  refine Tied.foldl _ (fun s e => Tied.ite (Tied.refl p id i s) ?_) s
  cases f.cmd.finish e.1 with
  | none => exact Tied.refl p id i s
  | some x => exact Tied.ite (Tied.refl p id i s) (Tied.foldl _ (fun s y => Tied.keepCopy s _ _ _ _ _ _) s)

theorem Tied.measureInputs {p id i : Nat} (s : State) (f : Found) : Tied p id i s (s.measureInputs f) :=
  Tied.of_goes (F := [.dict, .sec]) (Goes.measureInputs f (by decide) (by decide) (Goes.refl _ s)) (by decide)

theorem Tied.endEngines {p id i : Nat} (s : State) (f : Found) : Tied p id i s (s.endEngines f) :=
  Tied.of_goes (F := [.dict, .engines]) (Goes.endEngines f (by decide) (by decide) (Goes.refl _ s)) (by decide)

theorem Tied.monitor {p id i : Nat} (s : State) (q x sub n : Nat) : Tied p id i s (s.monitor q x sub n) :=
  Tied.of_goes (F := [.dict]) (Goes.monitor q x sub n (by decide) (Goes.refl _ s)) (by decide)

theorem Tied.popAll {p id i : Nat} (s : State) (f : Found) : Tied p id i s (s.popAll f) :=
  (Tied.foldl _ (fun s e => (Tied.monitor s _ _ _ _).trans (Tied.monitor _ _ _ _ _)) s).trans
    (Tied.modCmd _ _ _ _ (fun _ => rfl) (fun _ => rfl) (fun _ _ _ => rfl))

theorem fail_keeps (c : Cmd) (die code q : Nat) :
    (c.fail die code q).idx = c.idx ∧ (c.fail die code q).phase = c.phase ∧ (c.fail die code q).ends = c.ends := by
  unfold Cmd.fail
  extract_lets d c'
  split <;> exact ⟨rfl, rfl, rfl⟩

theorem Tied.digestFails {p id i : Nat} (s : State) (x : Found) (n : Nat) : Tied p id i s (s.digestFails x n) := by
  refine Tied.ite (Tied.refl p id i s) (Tied.trans (Tied.modCmd s _ _ _ (fun c => ?_) (fun c => ?_) (fun c e _ => ?_)) (Tied.bump _ _ _))
  · exact foldl_keeps _ Cmd.idx (fun c y => (fail_keeps c _ _ _).1) c
  · exact foldl_keeps _ Cmd.phase (fun c y => (fail_keeps c _ _ _).2.1) c
  · exact foldl_keeps _ (fun c : Cmd => c.finish e) (fun c y => by unfold Cmd.finish; rw [(fail_keeps c _ _ _).2.2]) c

/-! ### The outputs of a command -/

theorem finish_modEnd (c : Cmd) (k e : Nat) (g : End → End) (hg : ∀ x, (g x).id = x.id) :
    (c.modEnd k g).finish e = if e = k then (c.finish e).map g else c.finish e := by
  unfold Cmd.modEnd Cmd.finish
  rw [find_updWhere End.id g _ e hg]
  cases h : c.ends.find? (fun x => x.id == e) with
  | none => simp
  | some x =>
    have hx : x.id = e := by simpa using List.find?_some h
    by_cases q : e = k <;> simp [hx, q]

theorem cmdEnds_rising (descs : List Nat) (i : Nat) : (cmdEnds descs i).Pairwise (fun a b => a.1 < b.1) := by
  unfold cmdEnds
  have slots (d st : Nat) : (((usedSlots d).filter (fun e => !sLink e.2)).map (fun e => (st * 8 + e.1, d, e.2))).Pairwise
      (fun a b => a.1 < b.1) := by
    rw [List.pairwise_map]
    refine List.Pairwise.filter _ ?_
    unfold usedSlots
    refine List.Pairwise.filter _ ?_
    rw [List.pairwise_map]
    exact List.Pairwise.imp (fun h => by simpa using h) List.pairwise_lt_range
  have bound (d st : Nat) (x : Nat × Nat × Nat)
      (h : x ∈ ((usedSlots d).filter (fun e => !sLink e.2)).map (fun e => (st * 8 + e.1, d, e.2))) : st * 8 ≤ x.1 ∧ x.1 < st * 8 + 8 := by
    simp only [List.mem_map, List.mem_filter, usedSlots, List.mem_range] at h
    obtain ⟨e, ⟨⟨⟨j, hj, rfl⟩, -⟩, -⟩, rfl⟩ := h
    simp; omega
  rw [List.pairwise_flatten]
  constructor
  · intro l hl
    obtain ⟨k, hk, rfl⟩ := List.mem_mapIdx.mp hl
    exact slots _ _
  · rw [List.pairwise_iff_getElem]
    intro a b ha hb hab x hx y hy
    rw [List.getElem_mapIdx] at hx hy
    have := (bound _ _ x hx).2
    have := (bound _ _ y hy).1
    omega

/-- What a list of results leaves at the ends it names. -/
theorem foldl_modEnd (l : List ((Nat × Nat × Nat) × List Byte × List (Nat × Nat))) (h : l.Pairwise (fun a b => a.1.1 ≠ b.1.1)) (c : Cmd)
    (x : (Nat × Nat × Nat) × List Byte × List (Nat × Nat)) (hx : x ∈ l) (hc : (c.finish x.1.1).isSome) :
    ∃ y, (l.foldl (fun c x => c.modEnd x.1.1 (fun e => { e with data := x.2.1, bad := e.bad ++ x.2.2, full := true })) c).finish x.1.1 =
      some y ∧ y.full = true ∧ y.data = x.2.1 := by
  have other (l : List ((Nat × Nat × Nat) × List Byte × List (Nat × Nat))) (k : Nat) (h : ∀ a ∈ l, k ≠ a.1.1) (c : Cmd) :
      (l.foldl (fun c x => c.modEnd x.1.1 (fun e => { e with data := x.2.1, bad := e.bad ++ x.2.2, full := true })) c).finish k =
        c.finish k := by
    induction l generalizing c with
    | nil => rfl
    | cons a l ih =>
      rw [List.foldl_cons, ih (fun b hb => h b (List.mem_cons_of_mem _ hb)), finish_modEnd, if_neg (h a List.mem_cons_self)]
      intro _; rfl
  induction l generalizing c with
  | nil => cases hx
  | cons a l ih =>
    rw [List.pairwise_cons] at h
    rw [List.foldl_cons]
    rcases List.mem_cons.mp hx with rfl | hx
    · obtain ⟨y, hy⟩ := Option.isSome_iff_exists.mp hc
      rw [other l _ (fun b hb => h.1 b hb), finish_modEnd, if_pos rfl, hy]
      · exact ⟨_, rfl, rfl, rfl⟩
      · intro _; rfl
    · refine ih h.2 _ hx ?_
      rw [finish_modEnd, if_neg (fun e => h.1 x hx e.symm)]
      · exact hc
      · intro _; rfl

/-- What an input takes leaves the command's phase and its outputs. -/
theorem takeEnd_keeps (c : Cmd) (k : Nat) (bytes : List Byte) (bad : List (Nat × Nat)) (closed : Bool) (hk : k % 8 < 4) :
    (c.takeEnd k bytes bad closed).idx = c.idx ∧ (c.takeEnd k bytes bad closed).phase = c.phase ∧
      ∀ e, 4 ≤ e % 8 → (c.takeEnd k bytes bad closed).finish e = c.finish e := by
  unfold Cmd.takeEnd
  extract_lets c₁ take c₂
  have h (e : Nat) (he : 4 ≤ e % 8) : c₂.finish e = c.finish e := by
    show c₁.finish e = _
    rw [finish_modEnd, if_neg (by rintro rfl; omega)]
    intro _; rfl
  unfold Cmd.settleEnd
  split
  · refine ⟨rfl, rfl, fun e he => ?_⟩
    rw [finish_modEnd, if_neg (by rintro rfl; omega), h e he]
    intro _; rfl
  · exact ⟨rfl, rfl, h⟩

theorem foldl_inv {α β : Type} (l : List β) (P : α → Prop) {f : α → β → α} (hf : ∀ a b, P a → P (f a b)) (a : α) (h : P a) :
    P (l.foldl f a) := by
  induction l generalizing a with
  | nil => exact h
  | cons b l ih => exact ih _ (hf a b h)

theorem flow_cmd (descs : List Nat) (r : Run) (i : Nat) (c : Cmd) (h : r.cmd i = some c) :
    ∃ d, (r.flow descs).cmd i = some d ∧ d.phase = c.phase ∧ ∀ e, 4 ≤ e % 8 → d.finish e = c.finish e := by
  unfold Run.flow
  extract_lets give
  have hg (c : Cmd) : (give c).idx = c.idx ∧ (give c).phase = c.phase ∧ ∀ e, 4 ≤ e % 8 → (give c).finish e = c.finish e := by
    refine foldl_inv _ (fun d : Cmd => d.idx = c.idx ∧ d.phase = c.phase ∧ ∀ e, 4 ≤ e % 8 → d.finish e = c.finish e)
      (fun d e hd => ?_) c ⟨rfl, rfl, fun _ _ => rfl⟩
    split
    · exact hd
    · split
      · rename_i q _ bytes bad closed _
        have := takeEnd_keeps d e.1 bytes bad closed (by omega)
        exact ⟨this.1.trans hd.1, this.2.1.trans hd.2.1, fun x hx => (this.2.2 x hx).trans (hd.2.2 x hx)⟩
      · exact hd
  unfold Run.cmd at h ⊢
  dsimp only
  rw [find_updWhere Cmd.idx give _ i (fun c => (hg c).1), h]
  refine ⟨_, rfl, ?_⟩
  dsimp only
  split
  · exact (hg c).2
  · exact ⟨rfl, fun _ _ => rfl⟩

theorem Tied.pushQueue {p id i : Nat} (s : State) (q run : Nat) (descs : List Nat) (k : Nat) (v : QState) :
    Tied p id i s (s.pushQueue q run descs k v) :=
  Tied.modRun s q run (fun _ => rfl) (fun _ => rfl) (fun r c h => flow_cmd descs { r with queues := _ } i c h)

theorem readBad_keeps (c : Cmd) (descs : List Nat) :
    (c.readBad descs).idx = c.idx ∧ (c.readBad descs).phase = c.phase ∧ (c.readBad descs).ends = c.ends := by
  refine foldl_inv _ (fun d : Cmd => d.idx = c.idx ∧ d.phase = c.phase ∧ d.ends = c.ends) (fun d e hd => ?_) c ⟨rfl, rfl, rfl⟩
  split
  · exact hd
  · refine foldl_inv _ (fun d : Cmd => d.idx = c.idx ∧ d.phase = c.phase ∧ d.ends = c.ends) (fun d x hd => ?_) d hd
    split
    · have := fail_keeps d x.die 0x20 (sQid e.2.2)
      exact ⟨this.1.trans hd.1, this.2.1.trans hd.2.1, this.2.2.trans hd.2.2⟩
    · exact hd

theorem inherit_keeps (c : Cmd) (descs : List Nat) (r : Run) :
    (c.inherit descs r).idx = c.idx ∧ (c.inherit descs r).phase = c.phase ∧ (c.inherit descs r).ends = c.ends := by
  refine foldl_inv _ (fun d : Cmd => d.idx = c.idx ∧ d.phase = c.phase ∧ d.ends = c.ends) (fun d e hd => ?_) c ⟨rfl, rfl, rfl⟩
  split
  · exact hd
  · refine foldl_inv _ (fun d : Cmd => d.idx = c.idx ∧ d.phase = c.phase ∧ d.ends = c.ends) (fun d x hd => ?_) d hd
    split
    · have := fail_keeps d x.die 0x42 (sQid e.2.2)
      exact ⟨this.1.trans hd.1, this.2.1.trans hd.2.1, this.2.2.trans hd.2.2⟩
    · exact hd

theorem dropLost_keeps (c : Cmd) (descs : List Nat) :
    (c.dropLost descs).idx = c.idx ∧ (c.dropLost descs).phase = c.phase ∧ (c.dropLost descs).ends = c.ends := by
  unfold Cmd.dropLost
  extract_lets gone cut
  split <;> exact ⟨rfl, rfl, rfl⟩

theorem loosen_free (r : Run) (descs : List Nat) (e : Nat × Nat × Nat) (n : Nat) (bs : List Byte) (h : r.concern = []) :
    r.loosen descs e n bs = bs := by
  unfold Run.loosen; rw [h]; rfl

/-- What the taking in of results leaves: the command is computed, and each of its outputs stands whole with what was given for it. -/
theorem finishWork_gave {s : State} {f : Found} {outs : List (Nat × List Byte)} {r : Run} {c : Cmd}
    (hr : s.run f.p f.run.id = some r) (hc : r.cmd f.cmd.idx = some c) (hl : f.run.loose = false) (hn : f.run.concern = [])
    {e : Nat × Nat × Nat} (he : e ∈ cmdEnds f.prog.descs f.cmd.idx) (ho : 4 ≤ e.1 % 8) (hf : (c.finish e.1).isSome) :
    (∀ h, (s.finishWork f outs).program f.p h = s.program f.p h) ∧
    ∃ r' c' x, (s.finishWork f outs).run f.p f.run.id = some r' ∧ r'.cmd f.cmd.idx = some c' ∧ r'.handle = r.handle ∧
      c'.phase = .computed ∧ c'.finish e.1 = some x ∧ x.full = true ∧
      x.data = slice ((outs.find? (fun o => o.1 == e.1)).elim [] (·.2)) 0 (slotSize f.prog.descs e.2.2) := by
  unfold State.finishWork
  extract_lets descs i s₁ free bytes outEnds s₂ s₃
  have t₁ : Tied f.p f.run.id f.cmd.idx s s₁ := by
    have k (c : Cmd) := dropLost_keeps (((c.readBad descs).inherit descs f.run).dropChecks descs) descs
    have l (c : Cmd) := inherit_keeps (c.readBad descs) descs f.run
    refine Tied.modCmd s _ _ _ (fun c => ?_) (fun c => ?_) (fun c e _ => ?_)
    · exact (k c).1.trans ((l c).1.trans (readBad_keeps c descs).1)
    · exact (k c).2.1.trans ((l c).2.1.trans (readBad_keeps c descs).2.1)
    · unfold Cmd.finish; rw [(k c).2.2]
      show ((c.readBad descs).inherit descs f.run).ends.find? _ = _
      rw [(l c).2.2, (readBad_keeps c descs).2.2]
  obtain ⟨r₁, c₁, a₁, b₁, e₁, -, f₁⟩ := t₁.2 r c hr hc
  have hm : (s₁.run f.p f.run.id).bind (fun r => r.cmd i) = some c₁ := by rw [a₁]; exact b₁
  rw [hm]
  dsimp -zeta only
  extract_lets done s₄ s₅ s₆
  have t₃ : Tied f.p f.run.id f.cmd.idx s s₃ := by
    refine t₁.trans (Tied.trans (t := s₂) ?_ (Tied.endEngines s₂ f))
    exact Tied.ite (Tied.of_prn rfl) (Tied.refl _ _ _ _)
  obtain ⟨r₃, c₃, a₃, b₃, e₃, -, f₃⟩ := t₃.2 r c hr hc
  have t₆ : Tied f.p f.run.id f.cmd.idx s₄ (s₆.popAll f) := by
    refine Tied.trans ?_ ((Tied.foldl _ (fun s e => Tied.monitor s _ _ _ _) s₅).trans (Tied.popAll _ f))
    exact Tied.ite (Tied.refl _ _ _ _) (Tied.foldl _ (fun s x => Tied.ite (Tied.pushQueue s _ _ _ _ _) (Tied.refl _ _ _ _)) s₄)
  have hin : ∃ k, (e, bytes e k, c₁.spoiled descs e) ∈ done := by
    obtain ⟨k, hk, h⟩ := List.getElem_of_mem (show e ∈ outEnds from List.mem_filter.mpr ⟨he, by simpa using ho⟩)
    refine ⟨k, List.mem_mapIdx.mpr ⟨k, hk, ?_⟩⟩
    rw [h]
  obtain ⟨k, hin⟩ := hin
  have hpair : done.Pairwise (fun a b => a.1.1 ≠ b.1.1) := by
    have : outEnds.Pairwise (fun a b => a.1 < b.1) := (cmdEnds_rising descs i).filter _
    rw [List.pairwise_iff_getElem] at this ⊢
    intro a b ha hb hab
    simp only [done, List.getElem_mapIdx, List.length_mapIdx] at ha hb ⊢
    have := this a b ha hb hab
    omega
  have hf₃ : (c₃.finish e.1).isSome := by rw [f₃ e.1 ho]; exact hf
  obtain ⟨y, hy, full, data⟩ := foldl_modEnd done hpair c₃ _ hin hf₃
  have hb : bytes e k = slice ((outs.find? (fun o => o.1 == e.1)).elim [] (·.2)) 0 (slotSize descs e.2.2) := by
    have : free = false := by simp [free, hl, Run.tainted, hn]
    simp only [bytes, this]
    exact loosen_free _ _ _ _ _ hn
  have h₄ := modCmd_at a₃ b₃ (g := fun c =>
    let c := done.foldl (fun c x => c.modEnd x.1.1 (fun e => { e with data := x.2.1, bad := e.bad ++ x.2.2, full := true })) c
    { c with phase := .computed, settledAt := s₃.now })
    (fun c => foldl_keeps (f := fun (c : Cmd) (x : (Nat × Nat × Nat) × List Byte × List (Nat × Nat)) =>
      c.modEnd x.1.1 (fun e => { e with data := x.2.1, bad := e.bad ++ x.2.2, full := true })) done Cmd.idx (fun _ _ => rfl) c)
  obtain ⟨r₄, a₄, b₄, g₄⟩ := h₄
  obtain ⟨r₆, c₆, a₆, b₆, g₆, p₆, x₆⟩ := t₆.2 r₄ _ a₄ b₄
  refine ⟨fun h => ?_, r₆, c₆, y, a₆, b₆, g₆.trans (g₄.trans e₃), p₆, (x₆ e.1 ho).trans hy, full, data.trans hb⟩
  rw [t₆.1 h]
  exact (program_modRun s₃ _ _ _ h _).trans (t₃.1 h)

theorem find_parts {s : State} {c : CmdRef} {f : Found} (h : s.find c = some f) :
    f.p = c.p.val + 1 ∧ f.run.id = c.run ∧ f.cmd.idx = c.cmd ∧ s.run f.p f.run.id = some f.run ∧ f.run.cmd f.cmd.idx = some f.cmd ∧
      s.program f.p f.run.handle = some f.prog ∧ f.desc = f.prog.descs.getD c.cmd 0 := by
  unfold State.find at h
  dsimp only at h
  split at h
  · cases h
  · rename_i r hr
    split at h
    · rename_i g x hg hx
      cases h
      have a := id_of_run hr
      have b := idx_of_cmd hx
      exact ⟨rfl, a, b, by rw [a]; exact hr, by rw [b]; exact hx, hg, rfl⟩
    · cases h

theorem find_of_parts {s : State} {c : CmdRef} {r : Run} {x : Cmd} {g : Program} (hr : s.run (c.p.val + 1) c.run = some r)
    (hx : r.cmd c.cmd = some x) (hg : s.program (c.p.val + 1) r.handle = some g) :
    s.find c = some ⟨c.p.val + 1, r, g, x, g.descs.getD c.cmd 0⟩ := by
  unfold State.find
  simp only [hr, hx, hg]

/-- What carrying out a command leaves at its output ends. -/
theorem carriedOut_gave {s : State} {c : CmdRef} {f : Found} {op : Nat} (h : s.Fed c f op) (st : List (DieC × Fin 9 × W32))
    (outs : List (Nat × List Byte)) {e : Nat × Nat × Nat} (he : e ∈ cmdEnds f.prog.descs f.cmd.idx) (ho : 4 ≤ e.1 % 8) :
    (s.carriedOut f st outs).Gave c e.1
      (slice ((outs.find? (fun o => o.1 == e.1)).elim [] (·.2)) 0 (slotSize f.prog.descs e.2.2)) := by
  obtain ⟨hp, hid, hidx, hr, hc, hg, -⟩ := find_parts h.found
  have t : Tied f.p f.run.id f.cmd.idx s
      ((((s.engineStalls f st).endWorks f (fun w => !w.dup && !w.replay)).keepInputs f).measureInputs f) :=
    ((((Tied.engineStalls s f st).trans (Tied.endWorks _ f _)).trans (Tied.keepInputs _ f)).trans (Tied.measureInputs _ f))
  obtain ⟨r₁, c₁, a₁, b₁, g₁, -, x₁⟩ := t.2 _ _ hr hc
  obtain ⟨k, r₂, c₂, x, a₂, b₂, g₂, ph, hx, full, data⟩ :=
    finishWork_gave a₁ b₁ h.defined.2.1 h.defined.2.2 (outs := outs) he ho (by rw [x₁ _ ho]; exact h.ends e he)
  rw [hp, hid] at a₂
  rw [hidx] at b₂
  refine ⟨_, x, find_of_parts a₂ b₂ (g := f.prog) ?_, ph, hx, full, data⟩
  rw [← hp]
  exact (k _).trans ((t.1 _).trans (by rw [g₂, g₁]; exact hg))

theorem execOp_fed {s : State} {c : CmdRef} {f : Found} {op : Nat} (h : s.Fed c f op) (st : List (DieC × Fin 9 × W32)) :
    s.execOp c op st = s.carriedOut f st (outsOf f f.cmd.ends) := by
  unfold State.execOp
  simp only [h.found]
  rw [if_neg (by simp [h.opcode, h.inputs])]
  rfl

theorem stages_fed {s : State} {c : CmdRef} {f : Found} {op : Nat} (h : s.Fed c f op) (hop : op ≠ 0x60) :
    stagesOf f.prog.descs f.cmd.idx = [f.desc] := by
  obtain ⟨-, -, hidx, -, -, -, hd⟩ := find_parts h.found
  unfold stagesOf
  rw [hidx, ← hd]
  exact if_neg (by rw [h.opcode]; exact hop)

theorem ends_fed {s : State} {c : CmdRef} {f : Found} {op : Nat} (h : s.Fed c f op) (hop : op ≠ 0x60) {i : Nat} (hi : i < 8)
    (hn : f.names i) : (i, f.desc, dSlot f.desc i) ∈ cmdEnds f.prog.descs f.cmd.idx := by
  unfold cmdEnds
  rw [stages_fed h hop]
  simp [usedSlots, hn.1, hn.2, hi]

/-- What an unfused command puts out at a slot that names a queue: what its operation makes of its inputs (R86). -/
theorem outs_fed {s : State} {c : CmdRef} {f : Found} {op : Nat} (h : s.Fed c f op) (hop : op ≠ 0x60) (hb : op ≠ 0x50) {i : Nat}
    (hn : f.names i) :
    ((outsOf f f.cmd.ends).find? (fun o => o.1 == i)).elim [] (·.2) =
      ((made f.desc f.run.seed f.along (stageIn f.cmd.ends [] 0 f.desc)).find? (fun o => o.1 == i)).elim [] (·.2) := by
  have ha : f.along = stageAlong f.prog.descs [f.desc] f.desc := by
    funext k; unfold Found.along; rw [stages_fed h hop]
  unfold outsOf
  rw [ha, stages_fed h hop]
  simp only [List.mapIdx_cons, List.mapIdx_nil, runStages, stageOut, h.opcode, if_neg hb, List.append_nil, Nat.zero_mul, Nat.zero_add]
  generalize made f.desc f.run.seed _ _ = l
  induction l with
  | nil => rfl
  | cons a l ih =>
    by_cases ha : a.1 = i
    · subst ha
      simp [hn.2]
    · by_cases hl : sLink (dSlot f.desc a.1) = true
      · simp [hl, ha] at ih ⊢
        exact ih
      · simp [hl, ha] at ih ⊢
        exact ih

/-- The one lemma for the results of unfused commands: what an output that names a queue holds after the command (R86). -/
theorem execOp_gave {s : State} {c : CmdRef} {f : Found} {op : Nat} (h : s.Fed c f op) (hop : op ≠ 0x60) (hb : op ≠ 0x50)
    (st : List (DieC × Fin 9 × W32)) {i : Nat} (ho : 4 ≤ i) (hi : i < 8) (hn : f.names i) :
    (s.carriedOut f st (outsOf f f.cmd.ends)).Gave c i (f.bytesAt i
      (((made f.desc f.run.seed f.along (stageIn f.cmd.ends [] 0 f.desc)).find? (fun o => o.1 == i)).elim [] (·.2))) := by
  have := carriedOut_gave h st (outsOf f f.cmd.ends) (ends_fed h hop hi hn) (by show 4 ≤ i % 8; omega)
  rw [outs_fed h hop hb hn] at this
  exact this

/-- The item of an input slot of an unfused command. -/
theorem input_fed {s : State} {c : CmdRef} {f : Found} {op : Nat} (h : s.Fed c f op) (hop : op ≠ 0x60) (i : Nat) :
    f.input i = slotItem (dSlot f.desc i) (f.along i) (stageIn f.cmd.ends [] 0 f.desc i) := by
  unfold Found.input itemOf inputOf Found.along
  rw [stages_fed h hop]
  simp [linksAfter]

/-! ### Stages -/

/-- What an operation makes is for the slots of a descriptor. -/
theorem made_slots (d seed : Nat) (along : Nat → Bool) (ins : Nat → List Byte) : ∀ o ∈ made d seed along ins, o.1 < 8 := by
  unfold made
  extract_lets it tr o cv one moved of
  have h4 : ∀ bs, ∀ o ∈ one bs, o.1 < 8 := by
    intro bs o ho
    rw [List.mem_singleton.1 ho]
    exact (by decide : 4 < 8)
  split
  all_goals first
    | exact h4 _
    | exact fun o ho => absurd ho List.not_mem_nil
    | skip
  intro o ho
  obtain ⟨e, he, rfl⟩ := List.mem_map.1 ho
  have := (List.mem_filter.1 he).1
  have := (List.mem_filter.1 this).1
  obtain ⟨j, hj, rfl⟩ := List.mem_map.1 this
  exact List.mem_range.1 hj

theorem stageOut_slots (descs stages : List Nat) (seed : Nat) (ends : List End) (links : List (Nat × List Byte)) (st d : Nat) :
    ∀ o ∈ stageOut descs stages seed ends links st d, o.1 < 8 := by
  unfold stageOut
  split
  · intro o ho
    obtain ⟨e, he, rfl⟩ := List.mem_map.1 ho
    have := (List.mem_filter.1 he).1
    have := (List.mem_filter.1 this).1
    obtain ⟨j, hj, rfl⟩ := List.mem_map.1 this
    exact List.mem_range.1 hj
  · exact made_slots _ _ _ _

theorem runStages_keys (descs stages : List Nat) (seed : Nat) (ends : List End) (l : List Nat) (n : Nat) (links : List (Nat × List Byte)) :
    ∀ o ∈ runStages descs stages seed ends (l.mapIdx (fun j d => (n + j, d))) links, 8 * n ≤ o.1 := by
  induction l generalizing n links with
  | nil => intro o ho; simp [runStages] at ho
  | cons d l ih =>
    intro o ho
    rw [List.mapIdx_cons, runStages] at ho
    rcases List.mem_append.1 ho with ho | ho
    · obtain ⟨e, -, rfl⟩ := List.mem_map.1 ho
      dsimp only
      omega
    · have : (fun (j d : Nat) => (n + (j + 1), d)) = fun (j d : Nat) => ((n + 1) + j, d) := by
        funext j d; rw [Nat.add_right_comm, Nat.add_assoc]
      rw [this] at ho
      have := ih (n + 1) _ o ho
      omega

/-- The bytes that the stages of a command leave for an output: what its stage put out there (R99, R100). -/
theorem runStages_find (descs stages : List Nat) (seed : Nat) (ends : List End) (l : List Nat) (n : Nat) (links : List (Nat × List Byte))
    (k d i : Nat) (hd : l[k]? = some d) (hi : i < 8) (hl : sLink (dSlot d i) = false) :
    ((runStages descs stages seed ends (l.mapIdx (fun j d => (n + j, d))) links).find? (fun o => o.1 == 8 * (n + k) + i)).elim [] (·.2) =
      ((stageOut descs stages seed ends (linksAfter descs stages seed ends ((l.mapIdx (fun j d => (n + j, d))).take k) links) (n + k) d).find?
        (fun o => o.1 == i)).elim [] (·.2) := by
  induction l generalizing n links k with
  | nil => simp at hd
  | cons x l ih =>
    have e : (fun (j d : Nat) => (n + (j + 1), d)) = fun (j d : Nat) => ((n + 1) + j, d) := by
      funext j d; rw [Nat.add_right_comm, Nat.add_assoc]
    rw [List.mapIdx_cons, e, runStages]
    cases k with
    | zero =>
      obtain rfl : x = d := by simpa using hd
      simp only [List.take_zero, linksAfter, Nat.add_zero]
      have hs := stageOut_slots descs stages seed ends links n x
      rw [List.find?_append]
      have rest : (runStages descs stages seed ends (l.mapIdx (fun j d => (n + 1 + j, d)))
          (((stageOut descs stages seed ends links n x).filter (fun e => sLink (dSlot x e.1))).map (fun e => (sQid (dSlot x e.1), e.2)) ++
            links)).find? (fun o => o.1 == 8 * n + i) = none := by
        refine List.find?_eq_none.2 (fun o ho => ?_)
        have := runStages_keys descs stages seed ends l (n + 1) _ o ho
        simp only [beq_iff_eq]
        omega
      rw [rest, Option.or_none]
      generalize stageOut descs stages seed ends links n x = q at hs
      induction q with
      | nil => rfl
      | cons a q ih =>
        have ih := ih (fun o ho => hs o (List.mem_cons_of_mem _ ho))
        have ha := hs a List.mem_cons_self
        by_cases h : a.1 = i
        · subst h
          simp [hl, Nat.mul_comm]
        · have h' : n * 8 + a.1 ≠ 8 * n + i := by omega
          by_cases hk : sLink (dSlot x a.1) = true
          · simpa [hk, h] using ih
          · simpa [hk, h, h'] using ih
    | succ k =>
      have hd' : l[k]? = some d := by simpa using hd
      have hs := stageOut_slots descs stages seed ends links n x
      rw [List.find?_append, List.find?_eq_none.2 (fun o ho => ?_), Option.none_or]
      · have := ih (n + 1) (((stageOut descs stages seed ends links n x).filter (fun e => sLink (dSlot x e.1))).map
          (fun e => (sQid (dSlot x e.1), e.2)) ++ links) k hd'
        rw [show n + 1 + k = n + (k + 1) by omega] at this
        rw [List.take_succ_cons, linksAfter]
        exact this
      · obtain ⟨a, ha, rfl⟩ := List.mem_map.1 ho
        have := hs a (List.mem_filter.1 ha).1
        simp only [beq_iff_eq]
        omega

/-- What a command's outputs hold: of each stage what it gave (R99, R100). -/
theorem staged_gave {s : State} {c : CmdRef} {f : Found} {op : Nat} (h : s.Fed c f op) (st : List (DieC × Fin 9 × W32)) :
    f.StagesGave (s.carriedOut f st (outsOf f f.cmd.ends)) c := by
  intro k d i hd h4 hi hu hl
  have he : (8 * k + i, d, dSlot d i) ∈ cmdEnds f.prog.descs f.cmd.idx := by
    unfold cmdEnds
    obtain ⟨hk, rfl⟩ := List.getElem?_eq_some_iff.1 hd
    refine List.mem_flatten.2 ⟨_, List.mem_mapIdx.2 ⟨k, hk, rfl⟩, List.mem_map.2 ⟨(i, dSlot _ i), ?_, by rw [Nat.mul_comm]⟩⟩
    simp [usedSlots, hu, hl, hi]
  have g := carriedOut_gave h st (outsOf f f.cmd.ends) he (by show 4 ≤ (8 * k + i) % 8; omega)
  have e := runStages_find f.prog.descs (stagesOf f.prog.descs f.cmd.idx) f.run.seed f.cmd.ends (stagesOf f.prog.descs f.cmd.idx) 0 [] k d i
    hd hi hl
  simp only [Nat.zero_add] at e
  have e' : outsOf f f.cmd.ends = runStages f.prog.descs (stagesOf f.prog.descs f.cmd.idx) f.run.seed f.cmd.ends
    ((stagesOf f.prog.descs f.cmd.idx).mapIdx (fun i d => (i, d))) [] := rfl
  rw [e', e, ← e'] at g
  refine Eq.mp (congrArg (fun bs => State.Gave _ c (8 * k + i) (slice bs 0 (slotSize f.prog.descs (dSlot d i)))) ?_) g
  unfold Found.stageGives stageOut
  by_cases hb : dOpcode d = 0x50
  · rw [if_pos hb, if_pos hb]
    have hm : (i, dSlot d i) ∈ outSlots d := by simp [outSlots, usedSlots, hu, hi, h4]
    rw [Nat.mul_comm 8 k]
    generalize outSlots d = l at hm
    induction l with
    | nil => cases hm
    | cons a l ih =>
      by_cases ha : a.1 = i
      · rw [List.map_cons, List.find?_cons_of_pos (by simpa using ha), ha]; rfl
      · rw [List.map_cons, List.find?_cons_of_neg (by simpa using ha)]
        exact ih ((List.mem_cons.1 hm).resolve_left (fun q => ha (by rw [← q])))
  · rw [if_neg hb, if_neg hb]
    unfold inputOf
    have : (stagesOf f.prog.descs f.cmd.idx).getD k 0 = d := by rw [List.getD_eq_getElem?_getD, hd]; rfl
    simp only [this]

/-! ### Brim stages -/

theorem prn_of_goes {F : List Piece} {s t : State} (h : Goes F s t) (hF : Piece.prun ∉ F) (p : Nat) : t.prn p = s.prn p := by
  unfold State.prn; rw [show t.prun = s.prun from h.1 .prun hF]

theorem find_of_prn {s t : State} (h : ∀ p, t.prn p = s.prn p) (c : CmdRef) : t.find c = s.find c := by
  unfold State.find State.run State.program
  simp only [h]

/-- The command of a reference, after an update of it. -/
theorem find_modRef {s : State} {c : CmdRef} {f : Found} (h : s.find c = some f) {g : Cmd → Cmd} (hg : ∀ x, (g x).idx = x.idx) :
    (s.modRef c g).find c = some { f with run := f.run.modCmd c.cmd g, cmd := g f.cmd } := by
  obtain ⟨hp, hid, hidx, hr, hc, hprog, hd⟩ := find_parts h
  have hr' : (s.modRef c g).run (c.p.val + 1) c.run = some (f.run.modCmd c.cmd g) := by
    unfold State.modRef State.modCmd
    rw [run_modRun, ← hp, ← hid, hr, Option.map_some, if_pos ⟨rfl, rfl⟩]
    intro _; rfl
  have hc' : (f.run.modCmd c.cmd g).cmd c.cmd = some (g f.cmd) := by
    rw [cmd_modCmd _ _ _ _ hg, ← hidx, hc, Option.map_some, if_pos rfl]
  have hg' : (s.modRef c g).program (c.p.val + 1) (f.run.modCmd c.cmd g).handle = some f.prog := by
    unfold State.modRef State.modCmd
    rw [program_modRun, ← hp]
    exact hprog
  rw [find_of_parts hr' hc' hg', ← hd, ← hp]

/-- What spoiling words leaves of a command: all but its failures and the bad spans of its ends. -/
theorem spoilWords_keeps (c : Cmd) (f : Found) (ue : List (Fin 128 × W32)) :
    (c.spoilWords f ue).idx = c.idx ∧ (c.spoilWords f ue).phase = c.phase ∧ (c.spoilWords f ue).fixed = c.fixed ∧
      (c.spoilWords f ue).ends.map (fun e => { e with bad := [] }) = c.ends.map (fun e => { e with bad := [] }) := by
  have all : (fun (x : Cmd) => (x.idx, x.phase, x.fixed, x.ends.map (fun e => { e with bad := [] }))) (c.spoilWords f ue) =
      (c.idx, c.phase, c.fixed, c.ends.map (fun e => { e with bad := [] })) := by
    unfold Cmd.spoilWords
    refine foldl_keeps ue (fun (x : Cmd) => (x.idx, x.phase, x.fixed, x.ends.map (fun e => { e with bad := [] }))) (fun a e => ?_) c
    refine (foldl_keeps _ (fun (x : Cmd) => (x.idx, x.phase, x.fixed, x.ends.map (fun e => { e with bad := [] }))) (fun x y => ?_) _).trans ?_
    · split
      · have := fail_keeps x y.die 0x20 (if sLink (endOf f e.1.val).2 = true then 0x3FF else sQid (endOf f e.1.val).2)
        have hf : ∀ die code q, (x.fail die code q).fixed = x.fixed := by
          intro die code q
          unfold Cmd.fail
          extract_lets d c'
          split <;> rfl
        rw [this.1, this.2.1, this.2.2, hf]
      · rfl
    · simp only [Cmd.modEnd, updWhere, List.map_map, Prod.mk.injEq, true_and]
      refine List.map_congr_left (fun x _ => ?_)
      simp only [Function.comp_apply]
      split <;> rfl
  simp only [Prod.mk.injEq] at all
  exact all

/-- A command whose words have been spoiled is fed as it was. -/
theorem spoiled_fed {s u : State} {c : CmdRef} {f : Found} {op : Nat} {F : List Piece} (h : s.Fed c f op) (ue : List (Fin 128 × W32))
    (hp : Piece.prun ∉ F) (hw : Piece.works ∉ F) (hu : Goes F (s.modRef c (fun x => x.spoilWords f ue)) u) :
    u.Fed c { f with run := f.run.modCmd c.cmd (fun x => x.spoilWords f ue), cmd := f.cmd.spoilWords f ue } op := by
  have k := spoilWords_keeps f.cmd f ue
  have works : u.works = s.works := hu.1 .works hw
  refine ⟨?_, h.opcode, ?_, ?_, h.defined⟩
  · rw [find_of_prn (fun p => prn_of_goes hu hp p), find_modRef h.found (fun x => (spoilWords_keeps x f ue).1)]
  · have e := h.inputs
    unfold State.canCompute at e ⊢
    have bare : ∀ l : List End, l.all (fun e => decide (4 ≤ e.id % 8) || e.full) =
        (l.map (fun e => { e with bad := [] })).all (fun e => decide (4 ≤ e.id % 8) || e.full) := by
      intro l; rw [List.all_map]; rfl
    dsimp only
    rw [k.1, k.2.1, k.2.2.1, bare, k.2.2.2, ← bare, works]
    exact e
  · intro e he
    have he' : e ∈ cmdEnds f.prog.descs f.cmd.idx := by
      have : (f.cmd.spoilWords f ue).idx = f.cmd.idx := k.1
      rw [← this]; exact he
    have q := h.ends e he'
    unfold Cmd.finish at q ⊢
    have bare : ∀ l : List End, (l.find? (fun x => x.id == e.1)).isSome =
        ((l.map (fun e => { e with bad := [] })).find? (fun x => x.id == e.1)).isSome := by
      intro l
      rw [List.find?_map, Option.isSome_map]; rfl
    dsimp only
    rw [bare, k.2.2.2, ← bare]
    exact q

/-- What a command with brim stages does, and what its outputs hold (R91, R99, R100, R292). -/
theorem stagesEnd_brim {s : State} {c : CmdRef} {f g : Found} {op : Nat} (h : s.Fed c f op) (hr : s.brimReady c f = true)
    (hb : brimStages f ≠ []) (ce : W32) (ue : List (Fin 128 × W32)) (stalls : List (DieC × Fin 9 × W32))
    (hg : g = { f with run := f.run.modCmd c.cmd (fun x => x.spoilWords f ue), cmd := f.cmd.spoilWords f ue }) {u : State}
    (hu : u = ((g.cmd.parts.foldl (fun t x => t.brimCounts g x) (s.modRef c (fun x => x.spoilWords f ue))).bump
      (rBrim (g.cmd.parts.headD ⟨0, 0, 0, [], false⟩).die 7) ce.toNat).bump
      (rBrim (g.cmd.parts.headD ⟨0, 0, 0, [], false⟩).die 8) ue.length) :
    s.stagesEnd c op ce ue stalls = u.carriedOut g (stalls.filter (fun e => e.2.1.val != 7)) (outsOf g g.cmd.ends) ∧
      g.StagesGave (u.carriedOut g (stalls.filter (fun e => e.2.1.val != 7)) (outsOf g g.cmd.ends)) c := by
  have go : Goes [.dict] (s.modRef c (fun x => x.spoilWords f ue)) u := by
    rw [hu]
    refine Goes.bump _ _ (by decide) (Goes.bump _ _ (by decide) (Goes.foldl _ (fun t x ht => Goes.brimCounts g x (by decide) ht) (Goes.refl _ _)))
  have fed : u.Fed c g op := by
    rw [hg]
    exact spoiled_fed h ue (by decide) (by decide) go
  refine ⟨?_, staged_gave fed _⟩
  unfold State.stagesEnd
  simp only [h.found]
  rw [if_neg (by simp [h.opcode, h.inputs, hr]), if_neg hb]
  rw [find_modRef h.found (fun x => (spoilWords_keeps x f ue).1), ← hg]
  dsimp only
  rw [← hu, execOp_fed fed]

/-! ### Collectives -/

theorem prn_modCmd_other (s : State) {p q : Nat} (h : p ≠ q) (id i : Nat) (g : Cmd → Cmd) : (s.modCmd q id i g).prn p = s.prn p :=
  State.prn_modPr_other s h _

/-- Results taken into a command leave every other partition's runs alone. -/
theorem finishWork_other (s : State) (f : Found) (outs : List (Nat × List Byte)) {p : Nat} (h : p ≠ f.p) :
    (s.finishWork f outs).prn p = s.prn p := by
  have mon (s : State) (q x sub n : Nat) : (s.monitor q x sub n).prn p = s.prn p :=
    prn_of_goes (F := [.dict]) (Goes.monitor q x sub n (by decide) (Goes.refl _ s)) (by decide) p
  have eng (s : State) : (s.endEngines f).prn p = s.prn p :=
    prn_of_goes (F := [.dict, .engines]) (Goes.endEngines f (by decide) (by decide) (Goes.refl _ s)) (by decide) p
  have push (s : State) (d : List Nat) (k : Nat) (v : QState) : (s.pushQueue f.p f.run.id d k v).prn p = s.prn p :=
    State.prn_modPr_other s h _
  have pop (s : State) : (s.popAll f).prn p = s.prn p := by
    unfold State.popAll
    dsimp only
    rw [prn_modCmd_other _ h]
    exact foldl_inv _ (fun t : State => t.prn p = s.prn p) (fun t e ht => by rw [mon, mon, ht]) s rfl
  unfold State.finishWork
  extract_lets descs i s₁ free bytes outEnds s₂ s₃
  have h₁ : s₁.prn p = s.prn p := prn_modCmd_other _ h _ _ _
  split
  · exact h₁
  · extract_lets done s₄ s₅ s₆
    have h₃ : s₃.prn p = s.prn p := by
      rw [eng]; show State.prn (if _ then _ else _) p = _
      split
      · exact h₁
      · exact h₁
    have h₄ : s₄.prn p = s.prn p := (prn_modCmd_other _ h _ _ _).trans h₃
    have h₅ : s₅.prn p = s.prn p := by
      show State.prn (if _ then _ else _) p = _
      split
      · exact h₄
      · refine foldl_inv _ (fun t : State => t.prn p = s.prn p) (fun t e ht => ?_) s₄ h₄
        dsimp only
        split
        · rw [push, ht]
        · exact ht
    rw [pop]
    exact foldl_inv _ (fun t : State => t.prn p = s.prn p) (fun t e ht => by rw [mon, ht]) s₅ h₅

/-- What stands at an output stays there while its command is left alone. -/
theorem gave_tied {t u : State} {c : CmdRef} {id : Nat} {bs : List Byte} (hid : 4 ≤ id % 8) (h : t.Gave c id bs)
    (g : Tied (c.p.val + 1) c.run c.cmd t u) : u.Gave c id bs := by
  obtain ⟨f, x, hf, ph, hx, full, data⟩ := h
  obtain ⟨hp, hr, hi, a, b, k, -⟩ := find_parts hf
  rw [hr] at a; rw [hi] at b; rw [hp] at a k
  obtain ⟨r, d, a', b', e, ph', fin⟩ := g.2 _ _ a b
  exact ⟨_, x, find_of_parts a' b' (by rw [g.1, e]; exact k), ph'.trans ph, (fin id hid).trans hx, full, data⟩

theorem memberDone_other (s : State) (x : Found) (n : Nat) (out : List Byte) {p id i : Nat} (h : p ≠ x.p) :
    Tied p id i s (s.memberDone x n out) :=
  (((Tied.digestFails s x n).trans (Tied.keepInputs _ x)).trans (Tied.measureInputs _ x)).trans
    (Tied.of_prn (finishWork_other _ x _ h))

/-- A member's command that has been fed, as it stands in a later state. -/
def Standing (s : State) (x : Found) (c : CmdRef) : Prop :=
  ∃ r d, s.run (c.p.val + 1) c.run = some r ∧ r.cmd c.cmd = some d ∧ s.program (c.p.val + 1) r.handle = some x.prog ∧
    ∀ e, 4 ≤ e % 8 → d.finish e = x.cmd.finish e

theorem standing_fed {s : State} {c : CmdRef} {f : Found} (h : s.find c = some f) : Standing s f c := by
  obtain ⟨hp, hr, hi, a, b, k, -⟩ := find_parts h
  rw [hr] at a; rw [hi] at b; rw [hp] at a k
  exact ⟨_, _, a, b, k, fun _ _ => rfl⟩

theorem standing_tied {s t : State} {x : Found} {c : CmdRef} (h : Standing s x c) (g : Tied (c.p.val + 1) c.run c.cmd s t) :
    Standing t x c := by
  obtain ⟨r, d, a, b, k, e⟩ := h
  obtain ⟨r', d', a', b', hh, -, fin⟩ := g.2 _ _ a b
  exact ⟨r', d', a', b', by rw [g.1, hh]; exact k, fun i hi => (fin i hi).trans (e i hi)⟩

theorem memberDone_gave {s₀ s : State} {c : CmdRef} {x : Found} {op : Nat} (h : s₀.Fed c x op) (hop : op ≠ 0x60) (hs : Standing s x c)
    (hn : x.names 4) (n : Nat) (out : List Byte) : (s.memberDone x n out).Gave c 4 (x.bytesAt 4 out) := by
  obtain ⟨hp, hr, hi, -⟩ := find_parts h.found
  have t : Tied (c.p.val + 1) c.run c.cmd s (((s.digestFails x n).keepInputs x).measureInputs x) :=
    ((Tied.digestFails s x n).trans (Tied.keepInputs _ x)).trans (Tied.measureInputs _ x)
  obtain ⟨r, d, a, b, k, e⟩ := standing_tied hs t
  have he := ends_fed h hop (i := 4) (by decide) hn
  rw [← hp, ← hr] at a
  rw [← hi] at b
  obtain ⟨kp, r₂, c₂, y, a₂, b₂, g₂, ph, hy, full, data⟩ :=
    finishWork_gave a b h.defined.2.1 h.defined.2.2 (outs := [(4, out)]) he (by show 4 ≤ 4 % 8; decide)
      (by rw [e 4 (by decide)]; exact h.ends _ he)
  rw [hp, hr] at a₂
  rw [hi] at b₂
  refine ⟨_, y, find_of_parts a₂ b₂ (g := x.prog) ?_, ph, hy, full, ?_⟩
  · rw [← hp] at k ⊢
    exact (kp _).trans (by rw [g₂]; exact k)
  · unfold Found.bytesAt
    simpa using data

/-- Every member of a collective receives its result: members of different partitions do not disturb each other. -/
theorem members_gave {α : Type} (l : List α) (who : α → Option Found) (n : α → Nat) (out : α → List Byte) (ref : Found → CmdRef)
    (hd : l.Pairwise (fun a b => ∀ x y, who a = some x → who b = some y → x.p ≠ y.p)) {op : Nat} (hop : op ≠ 0x60) {s₀ : State}
    (hf : ∀ a ∈ l, ∀ x, who a = some x → s₀.Fed (ref x) x op ∧ x.names 4) (s : State)
    (hs : ∀ a ∈ l, ∀ x, who a = some x → Standing s x (ref x)) {a : α} (ha : a ∈ l) {x : Found} (hx : who a = some x) :
    (l.foldl (fun s a => match who a with
      | none => s
      | some x => s.memberDone x (n a) (out a)) s).Gave (ref x) 4 (x.bytesAt 4 (out a)) := by
  have other {b : α} {s : State} (h : ∀ y, who b = some y → x.p ≠ y.p) : Tied ((ref x).p.val + 1) (ref x).run (ref x).cmd s
      (match who b with
      | none => s
      | some y => s.memberDone y (n b) (out b)) := by
    cases hb : who b with
    | none => exact Tied.refl _ _ _ s
    | some y => exact memberDone_other s y _ _ (by rw [← (find_parts ((hf a ha x hx).1.found)).1]; exact h y hb)
  induction l generalizing s with
  | nil => cases ha
  | cons b l ih =>
    rw [List.pairwise_cons] at hd
    rw [List.foldl_cons]
    have rest (s : State) (h : ∀ c ∈ l, ∀ y, who c = some y → x.p ≠ y.p) : Tied ((ref x).p.val + 1) (ref x).run (ref x).cmd s
        (l.foldl (fun s a => match who a with
          | none => s
          | some x => s.memberDone x (n a) (out a)) s) := by
      clear ih hd hf ha hs
      induction l generalizing s with
      | nil => exact Tied.refl _ _ _ s
      | cons c l ih =>
        rw [List.foldl_cons]
        exact (other (h c List.mem_cons_self)).trans (ih _ (fun d hd => h d (List.mem_cons_of_mem _ hd)))
    rcases List.mem_cons.mp ha with rfl | hal
    · refine gave_tied (by decide) ?_ (rest _ (fun c hc y hy => hd.1 c hc x y hx hy))
      simp only [hx]
      exact memberDone_gave (hf a ha x hx).1 hop (hs a ha x hx) (hf a ha x hx).2 _ _
    · refine ih hd.2 (fun c hc => hf c (List.mem_cons_of_mem _ hc)) _ (fun c hc y hy => ?_) hal
      have hyf := (hf c (List.mem_cons_of_mem _ hc) y hy).1
      refine standing_tied (hs c (List.mem_cons_of_mem _ hc) y hy) ?_
      cases hb : who b with
      | none => exact Tied.refl _ _ _ s
      | some z =>
        exact memberDone_other s z _ _ (by rw [← (find_parts hyf.found).1]; exact fun e => hd.1 c hc z y hb hy e.symm)

end Sys2Proof.Machine
end

