-- ==== Sys2Proof/WellFormed.lean ====
section
/-! DEFINITION. Which commands a sender that keeps to the spec can send: bounds on operands that the types of Syntax.lean do not
carry.  The meanings do not need them: a command beyond them meets its transport's own checks, or changes nothing. -/

namespace Sys2Proof

/-- A virtual function, not PF 0 (R344). -/
def isVf (f : Fn) : Bool := f.vf != 0

/-- A value has at most 64 bytes (R397, R401). -/
def valueFits (v : List Byte) : Bool := decide (v.length ≤ 64)

/-- A datagram is a header of 32 bytes and at most 64 bytes of value (R401). -/
def datagramFits (d : List Byte) : Bool := decide (32 ≤ d.length ∧ d.length ≤ 96)

/-- A dictionary message over MCTP: its type, the enterprise number, 16 header bytes and a value (R403). -/
def messageFits (m : List Byte) : Bool := decide (21 ≤ m.length ∧ m.length ≤ 85)

/-- PF 0 has 2 vectors, a virtual function 4 (R354). -/
def hasVector (f : Fn) (v : Fin 4) : Bool := f.vf != 0 || decide (v.val < 2)

/-- Bindings are entries of 32 bytes (R104). -/
def bindingsFit (b : List Byte) : Bool := decide (b.length % 32 = 0)

/-- A host-port arbitration point belongs to a virtual function; a port die stands on no row band (R144, R177). -/
def pointExists (p : Point) : Bool :=
  match p with
  | .host f => isVf f
  | .inject d row => !row || decide (d.val < 48)
  | _ => true

/-- A packet carries at most 32 data units of 128 bytes (R187). -/
def packetFits (d : List Byte) : Bool := decide (d.length ≤ 4096)

/-- Each feeder queue is reported once (R44). -/
def queuesOnce (l : List (Fin 128 × W32)) : Bool := decide (l.map (fun e => e.1)).Nodup

/-- Each cause is reported once (R140). -/
def causesOnce (l : List (Fin 10 × W32)) : Bool := decide (l.map (fun e => e.1)).Nodup

/-- A command that a sender which keeps to the spec can send. -/
def Instr.wellFormed (i : Instr) : Bool :=
  match i with
  | .refusalAnswer => true
  | .dictWrite _ _ value => valueFits value
  | .sqTail f _ => isVf f
  | .cqHead f _ => isVf f
  | .lateQHead f _ => isVf f
  | .ringEnable f => isVf f
  | .ringDisable f => isVf f
  | .submissionFetch f _ => isVf f
  | .fetchError f _ => isVf f
  | .runRequest _ bindings => bindingsFit bindings
  | .load _ _ _ => true
  | .unload _ => true
  | .unloadComplete _ => true
  | .commandIssue _ _ => true
  | .skipMarkerPop _ => true
  | .nop _ => true
  | .ctrSet _ => true
  | .ctrAdd _ => true
  | .ctrLoad _ _ => true
  | .notify _ => true
  | .move _ _ => true
  | .slice _ _ => true
  | .concat _ _ => true
  | .gather _ _ => true
  | .scatter _ _ => true
  | .tee _ _ => true
  | .fill _ _ => true
  | .matmul _ => true
  | .matmulBatched _ => true
  | .vecChain _ => true
  | .rowOp _ => true
  | .colReduce _ => true
  | .laccSum _ => true
  | .allReduce _ _ _ _ _ => true
  | .allGather _ _ _ _ _ => true
  | .reduceScatter _ _ _ _ _ => true
  | .broadcast _ _ _ _ _ => true
  | .brimStage _ _ _ _ => true
  | .fused _ _ _ _ => true
  | .commandComplete _ => true
  | .runComplete _ _ => true
  | .runTimeLimit _ _ => true
  | .waitForSample _ => true
  | .blockStart _ _ _ _ starved => queuesOnce starved
  | .halfRelease _ _ => true
  | .transferIssue _ _ _ _ _ => true
  | .outputWriteIssue _ _ _ => true
  | .rateWindow _ _ _ _ _ late => causesOnce late
  | .arbitrationGrant point _ _ _ => pointExists point
  | .residencyPeriod _ => true
  | .rebalancePeriod _ _ _ => true
  | .migrationReadbackDone _ _ _ => true
  | .heavyNotice _ => true
  | .read _ _ => true
  | .write _ data _ _ => packetFits data
  | .writeInline _ _ => true
  | .writeFf _ data _ _ => packetFits data
  | .message _ data _ _ => packetFits data
  | .mcast _ data _ => packetFits data
  | .readData _ _ _ _ => true
  | .settle _ _ _ => true
  | .headerDiscard _ _ _ => true
  | .starveRequest _ _ _ _ => true
  | .starveReceived _ _ _ _ => true
  | .xactTimeout _ _ _ => true
  | .resvWrite _ _ _ _ => true
  | .reservationEffect => true
  | .dieLeavesService _ => true
  | .turnaroundClose _ => true
  | .hbmAccess _ _ _ => true
  | .ordinaryRefresh _ _ _ _ => true
  | .stackTempRead _ _ => true
  | .patrolAccess _ _ => true
  | .cmdParityError _ _ _ => true
  | .rankMigrationBlock _ _ _ => true
  | .remapFlashCommit _ => true
  | .sramScrub _ _ _ _ _ => true
  | .duplicateCompare _ _ _ _ => true
  | .tileTestEnd _ _ _ => true
  | .tileState _ _ _ => true
  | .collectiveTimeLimit _ => true
  | .replayCommit _ _ _ _ => true
  | .replicaSample _ _ _ => true
  | .mirrorDigests _ _ => true
  | .mirrorWait _ => true
  | .partitionCreate _ _ => true
  | .partitionCreateDone _ => true
  | .teardown _ _ => true
  | .epochEndComplete _ => true
  | .epochEndForced _ => true
  | .teardownScrubDone _ => true
  | .rekeyDone _ => true
  | .getVersion _ => true
  | .getCapabilities _ => true
  | .negotiateAlgorithms _ => true
  | .getDigests _ => true
  | .getCertificate _ _ _ _ => true
  | .challenge _ _ _ => true
  | .getMeasurements _ _ _ _ => true
  | .keyExchange _ _ => true
  | .finish _ _ => true
  | .keyUpdate _ => true
  | .heartbeat _ => true
  | .endSession _ => true
  | .keyProg _ f _ _ _ => isVf f
  | .kSetGo _ f _ => isVf f
  | .kSetStop _ f _ => isVf f
  | .query _ f => isVf f
  | .lockInterfaceRequest _ f => isVf f
  | .getDeviceInterfaceReport _ f => isVf f
  | .startInterfaceRequest _ f => isVf f
  | .stopInterfaceRequest _ f => isVf f
  | .ideFailure f => isVf f
  | .nopDsp _ _ => true
  | .mul _ _ _ _ => true
  | .mac _ _ _ _ => true
  | .msub _ _ _ _ => true
  | .loadc _ _ _ => true
  | .addc _ _ _ => true
  | .shr _ _ => true
  | .clr _ _ => true
  | .dspRepeat _ _ => true
  | .dspEnd _ _ => true
  | .dspStart _ _ => true
  | .dspRst _ _ => true
  | .portAttach _ _ => true
  | .fabricEnd _ _ _ => true
  | .itemClose _ _ _ => true
  | .portDetach _ _ => true
  | .brimTimeLimit _ _ => true
  | .tapWrite _ _ _ _ _ => true
  | .loadCommand _ _ _ => true
  | .cfgImageStart _ => true
  | .tpStart _ => true
  | .tpAbort _ => true
  | .loadStart _ => true
  | .headerCheck _ _ => true
  | .gsrAssert _ => true
  | .frameRecord _ _ => true
  | .imageDigestCheck _ => true
  | .gsrRelease _ => true
  | .pounceFrameRead _ _ => true
  | .pounceCorrect _ => true
  | .laneUse _ _ _ => true
  | .clockLock _ _ => true
  | .commaAlign _ _ _ => true
  | .alignTimeout _ _ => true
  | .eqDone _ _ => true
  | .ts2 _ _ _ _ _ _ => true
  | .ts1 _ _ => true
  | .laneErrorLoss _ _ _ => true
  | .skipWord _ => true
  | .groupUp _ => true
  | .groupDown _ => true
  | .transferFrame _ _ _ _ _ _ => true
  | .controlFrame _ _ _ => true
  | .ackDue _ => true
  | .nak _ _ => true
  | .ackTimeout _ => true
  | .restripe _ => true
  | .resync _ => true
  | .inject _ _ _ => true
  | .windowRead _ _ _ => true
  | .windowWrite _ _ _ _ => true
  | .hostReadCompletion f _ _ _ => isVf f
  | .flushReadCompletion f _ _ => isVf f
  | .msixUnmask f vec => hasVector f vec
  | .flrVf f => isVf f
  | .flrPf _ => true
  | .hotReset _ => true
  | .currentLimitTick _ _ _ _ => true
  | .regulatorRead _ _ _ _ _ => true
  | .voltageLoopTick _ _ _ => true
  | .regulatorSettled _ => true
  | .mclkStep _ => true
  | .budgetPeriodEnd _ _ => true
  | .pairBudgetExchange _ _ _ => true
  | .heavyGuardEnd _ => true
  | .domainOn _ _ => true
  | .vrAlert _ => true
  | .alertClear _ => true
  | .sensorRead _ _ => true
  | .tripTimeout _ => true
  | .throttleStep _ => true
  | .coolantRead _ _ => true
  | .fallbackRelease => true
  | .powerOn => true
  | .porstN _ => true
  | .wrstN _ => true
  | .warmReset _ _ => true
  | .warmResetStart => true
  | .resetStepDone _ => true
  | .warmResetHeld => true
  | .watchdogExpiry => true
  | .coreHalt => true
  | .rootOfTrustFatal => true
  | .heartbeatLoss => true
  | .handover _ _ => true
  | .millinerTakeover => true
  | .mirrorRecord => true
  | .mirrorAck => true
  | .millinerRebootDone => true
  | .udpRead dgram => datagramFits dgram
  | .udpWrite dgram => datagramFits dgram
  | .mctpDictionaryMessage _ _ msg => messageFits msg
  | .setEndpointId _ _ => true
  | .getEndpointId _ => true
  | .getMctpVersionSupport _ => true
  | .getMessageTypeSupport _ => true
  | .getVendorDefinedMessageSupport _ _ => true
  | .uartFrame _ => true
  | .operatorKey _ _ => true
  | .vendorChallenge _ => true
  | .vendorResponseHi _ _ => true
  | .debugUnlock _ _ => true
  | .ptpSync _ _ _ _ _ => true
  | .ptpFollowUp _ _ _ _ => true
  | .ptpDelayResp _ _ _ _ => true
  | .ptpPdelayResp _ _ _ _ => true
  | .ptpAnnounce _ _ _ => true
  | .ptpManagement _ _ => true
  | .announceTimeout => true
  | .timeStep => true
  | .fwErase _ => true
  | .fwData _ _ => true
  | .fwVerify _ => true
  | .fwActivate _ => true
  | .fwConfirm _ => true
  | .flashEraseDone _ => true
  | .trialTimeout => true
  | .journalCommit => true
  | .flashSync => true
  | .refclkCheck _ _ => true
  | .refclkRecovered => true
  | .xferCtrl _ _ => true
  | .xferDone _ _ => true
  | .qid _ _ _ => true
  | .linkUp _ _ _ _ => true
  | .pciePerstN _ _ => true
  | .ringRegisters f _ _ => isVf f
  | .vfEnable _ _ _ => true
  | .standbyFault => true
  | .standbyReady => true
  | .cfgCsNRise => true
  | .dhcpv4Lease _ => true
  | .heartbeatPeriodExpiry _ => true

end Sys2Proof
end

