-- ==== Sys2Proof/Tests/Slice0.lean ====
section
/-! SUPPORT. The model's own tests: the checks of well-formedness, values that come from outside the model, and, for the statements
that have hypotheses, states and operands that meet them. -/

namespace Sys2Proof.Machine

/-- Registers set one after the other. -/
def State.regs (s : State) (l : List (Nat × Nat)) : State := l.foldl (fun s e => s.setReg e.1 e.2) s

end Sys2Proof.Machine

namespace Sys2Proof.Tests

set_option Elab.async false

open Sys2Proof.Machine

/-! ### Small states -/

theorem reaches_of {s : State} {via : Transport} {role : Role} {k : Nat}
    (h : s.transportOpen via = true ∧ s.roleOf via = role ∧ s.rst.held = false ∧ s.mill.noImage = false) : s.Reaches via role k :=
  ⟨h.1, h.2.1, .inl h.2.2.1, .inl h.2.2.2⟩

theorem takes_of {s : State} {via : Transport} {role : Role} {k : Nat}
    (h : (s.transportOpen via = true ∧ s.roleOf via = role ∧ s.rst.held = false ∧ s.mill.noImage = false) ∧ s.mill.queue = [] ∧
      s.reg rStandby ≠ 2) : s.Takes via role k :=
  ⟨reaches_of h.1, h.2.1, h.2.2⟩

/-- The exit order has ended, and host port 0 is open with four virtual functions. -/
def up : State := { State.reset with rst := { ResetCtl.blank with step := 0 }, ports := [(0, ⟨true, 4, true, true⟩)] }

/-- A virtual function. -/
def f1 : Fn := ⟨0, 1⟩

/-- Partition 1 is active on dies 0 and 1 and ranks 0 and 1 of stack 0, and names `f1`. -/
def act : State := up.regs [(rState 1, 2), (rHostFn 1, 1), (rDies 1, 3), (rPart 1 0x40, 3)]

/-- Its rings are enabled. -/
def on : State := act.setFn f1 { FnState.blank with
  sqBase := 0x1000, sqSize := 16, sqTail := 3, cqBase := 0x2000, cqSize := 16, psaBase := 0x3000, enable := true }

/-- A command and a run of partition 1 with nothing done yet. -/
def cmdOf : Cmd := ⟨0, .waiting, none, 0, [], [], [], [], none, 0x3FF, 0, 0, 0, 0, [], 0, false, [], none, none, 0, []⟩
def runOf : Run := ⟨0, 1, 0, 0, [], 0, 0, [], [cmdOf], [], [], false, false, [], false, 0x3FF⟩

/-- Partition 2 is active on die 2. -/
def two : State := act.regs [(rState 2, 2), (rDies 2, 4)]

/-- A packet's header of a request of partition 1 to the host-port engine of port 0. -/
def hostHead (cmd : Nat) : Nat := 9 * 2 ^ 304 + cmd * 2 ^ 280 + 1 * 2 ^ 256 + 50 * 2 ^ 250 + 2 * 2 ^ 246

/-- A packet's header from die 3, engine 0, with tag 9: mask, epoch, command, length, inline length, the pair bit, partition, and
destination die and engine. -/
def hd (mask epoch cmd len inl pair p die eng : Nat) : Desc := BitVec.ofNat 1024 (mask * 2 ^ 448 + 9 * 2 ^ 304 + epoch * 2 ^ 296 +
  cmd * 2 ^ 280 + len * 2 ^ 274 + inl * 2 ^ 267 + pair * 2 ^ 266 + p * 2 ^ 256 + die * 2 ^ 250 + eng * 2 ^ 246 + 3 * 2 ^ 240)

/-- A command's reference, and partition 1 with one run of a program of these descriptors, its command at index 0. -/
def c0 : CmdRef := ⟨0, 0, 0⟩
def withCmd (descs : List Nat) (c : Cmd) : State :=
  act.modPr 1 (fun r => { r with programs := [⟨1, 0, descs, []⟩], runs := [{ runOf with cmds := [c] }], nextRun := 1 })

/-- CRC-32C over the zeros of a blank frame, 32 bytes at a time. -/
theorem crc_zeros (c : Nat) : (List.replicate 512 (0 : Byte)).foldl (crcByte 0x82F63B78) c =
    (List.range 16).foldl (fun d _ => (List.replicate 32 (0 : Byte)).foldl (crcByte 0x82F63B78) d) c := by
  have e : List.replicate 512 (0 : Byte) = ((List.range 16).map (fun _ => List.replicate 32 (0 : Byte))).flatten := by decide +kernel
  rw [e, List.foldl_flatten, List.foldl_map]

theorem crc_32_zeros : [(0xFFFFFFFF, 0x756EC955), (0x756EC955, 0xFC371498), (0xFC371498, 0xAE0DFB54), (0xAE0DFB54, 0xF7D89B24), (0xF7D89B24, 0x1C545C65), (0x1C545C65, 0x8BCA87CF), (0x8BCA87CF, 0xB7050EE9), (0xB7050EE9, 0x478D4E6F), (0x478D4E6F, 0xC04B54F1), (0xC04B54F1, 0x3D5A233), (0x3D5A233, 0xE19A3A1D), (0xE19A3A1D, 0x4509D0C9), (0x4509D0C9, 0xDD2227E8), (0xDD2227E8, 0xCC289DC7), (0xCC289DC7, 0x6369BD), (0x6369BD, 0xCF03123F)].all (fun e =>
    (List.replicate 32 (0 : Byte)).foldl (crcByte 0x82F63B78) e.1 == e.2) = true := by decide +kernel

theorem crc_of_a_blank_frame : crc32c (List.replicate 512 (0 : Byte)) = 0x30FCEDC0 := by
  have h := crc_32_zeros
  simp only [List.all_cons, List.all_nil, Bool.and_true, Bool.and_eq_true, beq_iff_eq] at h
  obtain ⟨h0, h1, h2, h3, h4, h5, h6, h7, h8, h9, h10, h11, h12, h13, h14, h15⟩ := h
  have r : List.range 16 = [0, 1, 2, 3, 4, 5, 6, 7, 8, 9, 10, 11, 12, 13, 14, 15] := by decide
  have t : (2 ^ 32 - 1 : Nat) = 0xFFFFFFFF := rfl
  rw [crc32c, crc_zeros, r, t]
  simp only [List.foldl_cons, List.foldl_nil, h0, h1, h2, h3, h4, h5, h6, h7, h8, h9, h10, h11, h12, h13, h14, h15]
  decide +kernel

/-! ### Well-formedness: each check refuses what breaks its bound, and the bound itself passes -/

theorem test_wf_function_is_virtual : (Instr.ringEnable ⟨0, 0⟩).wellFormed = false ∧ (Instr.ringEnable ⟨0, 16⟩).wellFormed = true := by
  decide

theorem test_wf_value_of_64_bytes : (Instr.dictWrite .uart 0 (List.replicate 65 0)).wellFormed = false ∧
    (Instr.dictWrite .uart 0 (List.replicate 64 0)).wellFormed = true := by decide +kernel

theorem test_wf_datagram_of_32_to_96_bytes : (Instr.udpRead (List.replicate 31 0)).wellFormed = false ∧
    (Instr.udpWrite (List.replicate 97 0)).wellFormed = false ∧ (Instr.udpWrite (List.replicate 96 0)).wellFormed = true := by
  decide +kernel

theorem test_wf_mctp_message_of_21_to_85_bytes : (Instr.mctpDictionaryMessage .smbus none (List.replicate 20 0)).wellFormed = false ∧
    (Instr.mctpDictionaryMessage .smbus none (List.replicate 86 0)).wellFormed = false ∧
    (Instr.mctpDictionaryMessage .smbus none (List.replicate 21 0)).wellFormed = true := by decide +kernel

theorem test_wf_pf_has_two_vectors : (Instr.msixUnmask ⟨0, 0⟩ 2).wellFormed = false ∧ (Instr.msixUnmask ⟨0, 1⟩ 3).wellFormed = true := by
  decide

theorem test_wf_bindings_of_32_bytes : (Instr.runRequest 0 (List.replicate 33 0)).wellFormed = false ∧
    (Instr.runRequest 0 (List.replicate 64 0)).wellFormed = true := by decide +kernel

theorem test_wf_host_point_is_virtual : (Instr.arbitrationGrant (.host ⟨0, 0⟩) false 0 []).wellFormed = false ∧
    (Instr.arbitrationGrant (.host ⟨0, 1⟩) false 0 []).wellFormed = true := by decide

theorem test_wf_packet_of_32_units : (Instr.mcast 0 (List.replicate 4097 0) []).wellFormed = false := by decide +kernel

theorem test_wf_causes_once : (Instr.rateWindow ⟨0, 0, 0⟩ 0 0 0 0 [(3, 1), (3, 2)]).wellFormed = false ∧
    (Instr.rateWindow ⟨0, 0, 0⟩ 0 0 0 0 [(3, 1), (4, 2)]).wellFormed = true := by decide

theorem test_wf_feeder_queues_once : (Instr.blockStart 0 0 0 0 [(3, 1), (3, 2)]).wellFormed = false ∧
    (Instr.blockStart 0 0 0 0 [(3, 1), (4, 2)]).wellFormed = true := by decide

/-! ### The words of the table: no row has bits -/

theorem test_no_word_spells_a_command : decodeTableWord 8 0xFF = none ∧ State.reset.withFetchWord 64 5 = State.reset := by
  decide +kernel

/-! ### Values that come from outside the model -/

/-- FIPS 180-4, the message "abc". -/
theorem test_sha256_abc : leNat ((sha256 [0x61, 0x62, 0x63]).take 4) = 0xBF1678BA := by decide +kernel
theorem test_sha384_abc : leNat ((sha384 [0x61, 0x62, 0x63]).take 4) = 0x3F7500CB := by decide +kernel

/-- The check value of CRC-32C. -/
theorem test_crc32c_check : crc32c [0x31, 0x32, 0x33, 0x34, 0x35, 0x36, 0x37, 0x38, 0x39] = 0xE3069283 := by decide +kernel

/-- The worked example after R33: 0x3EAAAAAB in three BF16 pieces. -/
theorem test_pieces_of_a_third : [(1, 0x3EAB), (2, 0xBA2B), (3, 0x35AC)].all (fun e =>
    veq (bf16Piece (decodeElem .fp32 0x3EAAAAAB) e.1) (decodeElem .bf16 e.2)) = true := by decide +kernel

/-- The worked example after R38: 0.1 in a group of exponent 1. -/
theorem test_slices_of_a_tenth : slicesOf 7 1 (decodeElem .fp64 0x3FB999999999999A) = [3, 25, 76, 102, 51, 25, 76] := by
  decide +kernel

/-- The example of R95's comparators: relation ≥, signed, constant 4,096. -/
theorem test_comparator_at_4096 : comparator 0x000010000000000D [] 4096 = true ∧ comparator 0x000010000000000D [] 4095 = false := by
  decide +kernel

/-- The worked example "one rebalancing step" (R155): the median, the weight and the shares. -/
theorem test_rebalancing_weight : weighed 16 64 21 100 (twiceMedian [(3, 100), (21, 100), (4, 100), (5, 100)]) = 56 := by
  decide +kernel
theorem test_rebalancing_shares : (dealParts 1024 [(18, 512), (19, 448), (20, 512), (21, 512)]).map (fun x => (x.die, x.first, x.count)) =
    [(18, 0, 265), (19, 265, 231), (20, 496, 264), (21, 760, 264)] := by decide +kernel

/-- The example of R6: PARTIAL while one part commits, else the highest status. -/
theorem test_partial_status : ({ cmdOf with parts := [⟨3, 0, 1, [], true⟩, ⟨4, 1, 1, [0x21], false⟩, ⟨11, 2, 1, [0x20], false⟩] } : Cmd).status
    = 0x01 := by decide
theorem test_highest_status : ({ cmdOf with parts := [⟨3, 0, 1, [0x21], false⟩, ⟨4, 1, 1, [0x21], false⟩, ⟨11, 2, 1, [0x20], false⟩] } :
    Cmd).status = 0x21 := by decide

/-- The example after R208: with stacks interleaved, a pitch of 64 grains stays on channel 0 of M10, one of 65 grains visits all. -/
theorem test_stride_stays_on_a_rank : (State.reset.regs [(rPmem 3 2, 1), (rPart 3 (0x40 + 20), 0xFFFFFFFF),
      (rPart 3 (0x40 + 22), 0xFFFFFFFF)]).place 3 (5 * 262144) = some (10, 0, 20480) := by decide +kernel
theorem test_stride_of_65_grains : (State.reset.regs [(rPmem 3 2, 1), (rPart 3 (0x40 + 20), 0xFFFFFFFF),
      (rPart 3 (0x40 + 22), 0xFFFFFFFF)]).place 3 (5 * 266240) = some (11, 2, 20480) := by decide +kernel

/-- The digitiser's MUL and MAC (R285): signed operands. -/
theorem test_digitiser_products : dspProduct 0x16000000 0xFFFF 1 = -1 ∧ dspProduct 0x2F000000 0x8000 1 = -32768 := by decide +kernel

/-! ### Steps -/

/-- The value a step leaves in a register, when it answers a next state. -/
def regAfter (s : State) (k : Nat) : Option Nat :=
  match step s with
  | .next t => some (t.reg k)
  | _ => none

/-- MIRROR_WAIT is written over the UART and reads 5,000 (R244). -/
theorem test_step_writes_a_register :
    regAfter { up with pending := [.dictWrite .uart 0x230004 [0x88, 0x13]] } (key 0x2300 4) = some 5000 := by decide +kernel

/-- A value out of its range leaves the register alone (R399). -/
theorem test_step_refuses_a_value :
    regAfter { up with pending := [.dictWrite .uart 0x230004 [9, 0]] } (key 0x2300 4) = some 1000 := by decide +kernel

/-- An accumulator at its top clamps with SAT, and DSP_OVF counts (R285, R286). -/
theorem test_step_mac_saturates : regAfter ((act.setReg (rLoad 0 8) 1).modBrim 0 (fun b =>
    { b with dsp := [(0, ⟨[0x2F000000], 549755813887, 0, true, false, 0, []⟩)] }) |> fun s => { s with pending := [.mac 0 0 1 1] })
    (rBrim 0 9) = some 1 := by decide +kernel

/-- An empty queue adds one band cycle, 1 ÷ 2.4 GHz, to the counter (R405; log 1). -/
theorem test_step_idles : (match step State.reset with
    | .next t => t.clock.tai
    | _ => 0) = 0x6AAAAAAB := by decide +kernel

/-! ### Witnesses

`witness_<Statement>_<n>`: small states and operands that meet together the hypotheses of the n-th clause of a statement that has
any; a hypothesis that only gives a value a name is met by that value and not repeated. -/

def stStepRunsTheFrontCommand1 : State := { act with pending := [.sqTail f1 5, .refusalAnswer] }

theorem witness_StepRunsTheFrontCommand_1 : stStepRunsTheFrontCommand1.pending = .sqTail f1 5 ::
    [.refusalAnswer] := by decide +kernel

theorem witness_EmptyQueueIsOneBandCycle_1 : act.pending = [] := by decide +kernel

theorem witness_EveryStepKeepsTheStateSound_1 : State.reset.canonical ∧ State.reset.registersFit ∧ State.reset.bounded ∧
    step State.reset = .next State.reset.bandCycle.countFull.clockLanes.clockBrims := ⟨by unfold State.canonical; decide +kernel,
    by unfold State.registersFit; decide +kernel, by unfold State.bounded; decide +kernel, rfl⟩

theorem witness_StepsOnlyAddToWhatHasLeft_1 : step State.reset = .next State.reset.bandCycle.countFull.clockLanes.clockBrims := rfl

theorem witness_SignsOfZeros_1 : (flt32 ∈ [flt32, flt64]) ∧ (0 = 0 ∨ 1 = 0) := by decide +kernel

theorem witness_SignsOfZeros_2 : (1 ≠ 0) ∧ (1 ≠ 0) ∧ ∃ u, vadd (.num true 1 0) (.num false 1 0) = .num false 0 u := by
  refine ⟨by decide, by decide, _, rfl⟩

theorem witness_RunRecordStatus_1 : (∀ c ∈
    ({ runOf with cmds := [{ cmdOf with fixed := some 0 }, { cmdOf with fixed := some 2 }] }).cmds,
    c.status ∈ statusCodes) := by decide +kernel

theorem witness_RunRecordStatus_2 : (∀ c ∈ ({ runOf with cmds := [{ cmdOf with fixed := some 0x20 }] } : Run).cmds, c.status ∈ statusCodes) ∧
    ∃ c ∈ ({ runOf with cmds := [{ cmdOf with fixed := some 0x20 }] } : Run).cmds, c.status ≠ 0x00 ∧ c.status ≠ 0x02 := by decide +kernel

theorem witness_RunRecordStatus_3 : (∀ c ∈
    ({ runOf with cmds := [{ cmdOf with fixed := some 0 }, { cmdOf with fixed := some 0x21 }, { cmdOf with fixed := some 0x40 }] }).cmds, c.status ∈ statusCodes) := by decide +kernel

theorem witness_RunRecordStatus_4 : (∀ c ∈ ({ runOf with cmds := [{ cmdOf with fixed := some 0x60 }] }).cmds,
    c.status ∈ statusCodes) := by decide +kernel

theorem witness_WholeWordWriteReadsBack_1 : (List.replicate 64 (0xA5 : Byte)).length = 64 := by decide +kernel

theorem witness_AddressesMapOneToOne_1 : (act.place 1 128).isSome = true ∧ act.place 1 128 = act.place 1 128 := by decide +kernel

theorem witness_OwnersAreConfined_1 : two.roleOf (⟨.window f1 false, false, key 0x5102 1, [], false, 0⟩ : Access).via = .owner 1 ∧
    two.indexOwner ((⟨.window f1 false, false, key 0x5102 1, [], false, 0⟩ : Access).entry / 256) ≠ some 1 ∧
    (∀ r ∈ rowsOf ((⟨.window f1 false, false, key 0x5102 1, [], false, 0⟩ : Access).entry / 256),
    (r.rd = .owner ∨ r.rd = .opOwner ∨ r.rd = .operator ∨ r.rd = .nobody) ∧
    (r.wr = .owner ∨ r.wr = .opOwner ∨ r.wr = .operator ∨ r.wr = .nobody)) := by decide +kernel

theorem witness_EncodingsHaveTheirValues_1 : (Fmt.e4m3, 4, 3, 7) ∈ [(Fmt.e4m3, 4, 3, 7), (.mx8e4m3, 4, 3, 7), (.e5m2, 5, 2, 15),
    (.mx8e5m2, 5, 2, 15), (.mx6e3m2, 3, 2, 3), (.mx6e2m3, 2, 3, 1), (.mx4, 2, 1, 1), (.bf16, 8, 7, 127), (.fp16, 5, 10, 15),
    (.fp32, 8, 23, 127), (.fp64, 11, 52, 1023)] ∧ 15 < 2 ^ 4 ∧ 7 < 2 ^ 3 := by decide +kernel

theorem witness_EncodingsHaveTheirValues_2 : 254 < 255 := by decide +kernel

theorem witness_EncodingsHaveTheirValues_4 : (Fmt.bf16, 0x7FC0) ∈ [(Fmt.e4m3, 0x7F), (.e5m2, 0x7E), (.e8m0, 0xFF), (.bf16,
    0x7FC0), (.fp16, 0x7E00), (.fp32, 0x7FC00000), (.fp64, 0x7FF8000000000000)] := by decide +kernel

theorem witness_ComparisonsAndExtrema_1 : (Val.nan = .nan ∨ Val.inf true = .nan) := by decide +kernel

theorem witness_RingCommandsComplete_1 : on.vfAnswers f1 = true ∧ on.ready f1 = true := by decide +kernel

theorem witness_RingCommandsComplete_2 : on.vfAnswers f1 = true ∧ on.ready f1 = true ∧
    (on.partOf f1).isSome = true := by decide +kernel

def stRing3 : State := on.setReg (rBand 1 0x25) 64

theorem witness_RingCommandsComplete_3 : stRing3.vfAnswers f1 = true ∧ stRing3.ready f1 = true ∧
    ∃ p ∈ stRing3.partOf f1, stRing3.reg (rBand p 0x25) ≠ 0 := by decide +kernel

theorem witness_RingCommandsComplete_4 : on.vfAnswers f1 = true ∧ (on.fn f1).ringsOk = true ∧
    (on.fn f1).held = [] := by decide +kernel

theorem witness_RingCommandsComplete_5 : act.vfAnswers f1 = true ∧ (act.fn f1).ringsOk = false := by decide +kernel

theorem witness_RingCommandsComplete_6 : on.vfAnswers f1 = true := by decide +kernel

theorem witness_RingCommandsComplete_7 : act.vfAnswers f1 = true ∧ (act.fn f1).enable = false := by decide +kernel

theorem witness_RingCommandsComplete_8 : on.vfAnswers f1 = true ∧ (on.fn f1).enable = true := by decide +kernel

theorem witness_SubmissionCommandsComplete_1 : ∃ p ∈ on.partOf f1, on.fetches f1 = true ∧ (on.fn f1).stopped = none ∧
    (on.prn p).runsHeld < 4 ∧ isUnload (1 : Desc).toNat = false := by decide +kernel

def stSubmission2 : State := on.modPr 1 (fun r => { r with fetched := [(1, 0), (1, 0), (1, 0), (1, 0)] })

theorem witness_SubmissionCommandsComplete_2 : ∃ p ∈ stSubmission2.partOf f1, stSubmission2.fetches f1 = true ∧
    (stSubmission2.fn f1).stopped = none ∧ 4 ≤ (stSubmission2.prn p).runsHeld ∧
    isUnload (1 : Desc).toNat = false := by decide +kernel

theorem witness_SubmissionCommandsComplete_3 : ∃ p ∈ on.partOf f1, on.fetches f1 = true ∧ (on.fn f1).stopped = none ∧
    isUnload (0x20000000000000000 : Desc).toNat = true ∧ lOp (0x20000000000000000 : Desc).toNat = 2 := by decide +kernel

theorem witness_SubmissionCommandsComplete_4 : ∃ p ∈ on.partOf f1, on.fetches f1 = true ∧ (on.fn f1).stopped = none ∧
    isUnload (0x10000000000000000 : Desc).toNat = true ∧ lOp (0x10000000000000000 : Desc).toNat ≠ 2 ∧
    (on.prn p).loading = none := by decide +kernel

def stSubmission5 : State := on.modPr 1 (fun r => { r with loading := some (0, 0) })

theorem witness_SubmissionCommandsComplete_5 : ∃ p ∈ stSubmission5.partOf f1, stSubmission5.fetches f1 = true ∧
    (stSubmission5.fn f1).stopped = none ∧ isUnload (0x10000000000000000 : Desc).toNat = true ∧
    lOp (0x10000000000000000 : Desc).toNat ≠ 2 ∧ ((stSubmission5.prn p).loading).isSome = true := by decide +kernel

theorem witness_SubmissionCommandsComplete_6 : Cpl.ur ≠ .ok ∧ on.fetches f1 = true ∧
    (on.fn f1).stopped = none := by decide +kernel

def stRequestsOfAPartition1 : State := act.modPr 1 (fun r => { r with loading := some (0x10000000000000000, 7) })

theorem witness_RequestsOfAPartitionComplete_1 : ∃ req0 ∈ (stRequestsOfAPartition1.prn ((0 : PartN).val + 1)).loading,
    ((stRequestsOfAPartition1.loadOutcome ((0 : PartN).val + 1) req0.1 .ok (leBytes 128 0x100000001 ++ leBytes 128 0)).2).isSome
    = true := by decide +kernel

theorem witness_RequestsOfAPartitionComplete_2 : ∃ req0 ∈ (stRequestsOfAPartition1.prn ((0 : PartN).val + 1)).loading,
    (stRequestsOfAPartition1.loadOutcome ((0 : PartN).val + 1) req0.1 .ok (leBytes 128 0x100000002 ++ leBytes 128 0)).2 =
    none := by decide +kernel

def stRequestsOfAPartition3 : State := act.modPr 1 (fun r => { r with programs := [⟨1, 0, [0], []⟩], fetched := [(1, 3), (0x1000000020000000000000000, 7)] })

theorem witness_RequestsOfAPartitionComplete_3 : (stRequestsOfAPartition3.prn ((0 : PartN).val + 1)).fetched = [(1,
    3)] ++ (0x1000000020000000000000000, 7) :: [] ∧ (∀ e ∈ [(1, 3)], isUnload e.1 = false) ∧
    isUnload 0x1000000020000000000000000 = true ∧
    (stRequestsOfAPartition3.program ((0 : PartN).val + 1) (lHandle 0x1000000020000000000000000)).isSome =
    true := by decide +kernel

def stRequestsOfAPartition4 : State := act.modPr 1 (fun r => { r with fetched := [(0x1000000020000000000000000, 7)] })

theorem witness_RequestsOfAPartitionComplete_4 : (stRequestsOfAPartition4.prn ((0 : PartN).val + 1)).fetched = ([] : List (Nat ×
    Nat)) ++ (0x1000000020000000000000000, 7) :: [] ∧ (∀ e ∈ ([] : List (Nat × Nat)), isUnload e.1 = false) ∧
    isUnload 0x1000000020000000000000000 = true ∧
    (stRequestsOfAPartition4.program ((0 : PartN).val + 1) (lHandle 0x1000000020000000000000000)).isSome =
    false := by decide +kernel

def stRequestsOfAPartition5 : State := act.modPr 1 (fun r => { r with nextRun := 2, unloads := [(0, 0, [1])] })

theorem witness_RequestsOfAPartitionComplete_5 : (stRequestsOfAPartition5.prn ((0 : PartN).val + 1)).unloads = (0, 0,
    [1]) :: [] ∧ (∀ w ∈ (0, 0, [1]).2.2, w < (stRequestsOfAPartition5.prn ((0 : PartN).val + 1)).nextRun ∧
    ∀ x ∈ (stRequestsOfAPartition5.prn ((0 : PartN).val + 1)).runs, x.id ≠ w) := by decide +kernel

def stRequestsOfAPartition6 : State := act.modPr 1 (fun r => { r with programs := [⟨1, 0, [0], []⟩], fetched := [(1, 7)] })

theorem witness_RequestsOfAPartitionComplete_6 : (stRequestsOfAPartition6.prn ((0 : PartN).val + 1)).fetched = ([] : List (Nat ×
    Nat)) ++ (1, 7) :: [] ∧ (∀ e ∈ ([] : List (Nat × Nat)), isUnload e.1 = true) ∧ isUnload 1 = false ∧
    stRequestsOfAPartition6.runRefusal ((0 : PartN).val + 1) (stRequestsOfAPartition6.prn ((0 : PartN).val + 1)).nextRun 1 ([] :
    List (Nat × Nat)) ((List.range (rBindCount 1)).map (fun i => leNat (slice [] (32 * i) 32))) = none := by decide +kernel

def stRequestsOfAPartition7 : State := act.modPr 1 (fun r => { r with fetched := [(1, 7)] })

theorem witness_RequestsOfAPartitionComplete_7 : (stRequestsOfAPartition7.prn ((0 : PartN).val + 1)).fetched = ([] : List (Nat ×
    Nat)) ++ (1, 7) :: [] ∧ (∀ e ∈ ([] : List (Nat × Nat)), isUnload e.1 = true) ∧ isUnload 1 = false ∧
    (stRequestsOfAPartition7.runRefusal ((0 : PartN).val + 1) (stRequestsOfAPartition7.prn ((0 : PartN).val + 1)).nextRun 1 ([] :
    List (Nat × Nat)) ((List.range (rBindCount 1)).map (fun i => leNat (slice [] (32 * i) 32)))).isSome =
    true := by decide +kernel

theorem witness_ControlWritesComplete_1 : act.Takes .uart .operator (0x230004 : BitVec 24).toNat ∧
    ∃ r ∈ rowOf (0x230004 : BitVec 24).toNat, ([0x10, 0x27] : List Byte).length = r.len ∧ r.acc ≠ .ro ∧
    act.allowed .uart .operator r.wr (0x230004 : BitVec 24).toNat = true ∧
    inRanges r.ranges (leNat ([0x10, 0x27] : List Byte)) = true ∧ lockedEntry (0x230004 : BitVec 24).toNat = false ∧
    (0x230004 : BitVec 24).toNat ≠ key 0x1020 6 ∧
    ((act.taken' ⟨.uart, true, (0x230004 : BitVec 24).toNat, ([0x10, 0x27] : List Byte),
    false, 0⟩ noTag).applyWrite .uart (0x230004 : BitVec 24).toNat (leNat ([0x10,
    0x27] : List Byte))).2 = true := ⟨takes_of (by decide +kernel), by decide +kernel⟩

def stControlWrites2 : State := act.setReg rFwStatus 1

theorem witness_ControlWritesComplete_2 : stControlWrites2.Reaches .uart .operator (0x104004 : BitVec 24).toNat ∧
    ∃ r ∈ rowOf (0x104004 : BitVec 24).toNat, ([1] : List Byte).length = r.len ∧ r.acc ≠ .ro ∧
    stControlWrites2.allowed .uart .operator r.wr (0x104004 : BitVec 24).toNat = true ∧
    inRanges r.ranges (leNat ([1] : List Byte)) = true ∧ lockedEntry (0x104004 : BitVec 24).toNat = false ∧
    ((stControlWrites2.taken' ⟨.uart, true, (0x104004 : BitVec 24).toNat, ([1] : List Byte),
    false, 0⟩ noTag).applyWrite .uart (0x104004 : BitVec 24).toNat (leNat ([1] : List Byte))).2 = false := ⟨reaches_of (by
    decide +kernel), by decide +kernel⟩

theorem witness_ControlWritesComplete_3 : act.Takes .uart .operator (key (0x6400 + (8 : Fin 128).val) 1) ∧
    act.allowed .uart .operator .opOwner (key (0x6400 + (8 : Fin 128).val) 1) = true ∧
    ((1023 : BitVec 16).toNat ≤ 1023 ∨ (1023 : BitVec 16).toNat = 65535) := ⟨takes_of (by decide +kernel), by decide +kernel,
    by decide +kernel⟩

theorem witness_ControlWritesComplete_4 : act.Takes .uart .operator (key 0x1070 1) ∧ ∀ c, Transport.uart ≠ .udp c :=
  ⟨takes_of (by decide +kernel), by intro c h; cases h⟩

def stControlWrites5 : State := act.setReg (key 0x1070 1) (2 ^ 256)

theorem witness_ControlWritesComplete_5 : stControlWrites5.Reaches (.udp 1) .operator (key 0x1070 1) := reaches_of (by
    decide +kernel)

def stControlWrites6 : State := { act with mill := { act.mill with vendor := true } }

theorem witness_ControlWritesComplete_6 : stControlWrites6.Takes .uart .vendor (key 0x1070 0xA) := takes_of (by decide +kernel)

theorem witness_ControlWritesComplete_7 : act.Takes .uart .operator (key 0x1010 4) := takes_of (by decide +kernel)

theorem witness_ControlWritesComplete_8 : act.Takes .uart .operator (key 0x1070 9) := takes_of (by decide +kernel)

def stPartitionWrites1 : State := up.regs [(rHostFn 1, 1), (rDies 1, 3), (rPart 1 0x40, 4)]

theorem witness_PartitionWritesComplete_1 : stPartitionWrites1.Takes .uart .operator (rPart ((0 : PartN).val + 1) 2) ∧
    (stPartitionWrites1.took .uart (rPart ((0 : PartN).val + 1) 2) 1 1).reg (rState ((0 : PartN).val + 1)) = 0 ∧
    (stPartitionWrites1.took .uart (rPart ((0 : PartN).val + 1) 2) 1 1).createDetail ((0 : PartN).val + 1) = 0 := ⟨takes_of (by
    decide +kernel), by decide +kernel, by decide +kernel⟩

theorem witness_PartitionWritesComplete_2 : up.Reaches .uart .operator (rPart ((0 : PartN).val + 1) 2) ∧ 1 ≠ 0 ∧
    (up.took .uart (rPart ((0 : PartN).val + 1) 2) 1 1).reg (rState ((0 : PartN).val + 1)) = 0 ∧
    (up.took .uart (rPart ((0 : PartN).val + 1) 2) 1 1).createDetail ((0 : PartN).val + 1) = 1 := ⟨reaches_of (by
    decide +kernel), by decide +kernel, by decide +kernel, by decide +kernel⟩

theorem witness_PartitionWritesComplete_3 : act.Takes .uart .operator (rPart ((0 : PartN).val + 1) 2) := takes_of (by
    decide +kernel)

theorem witness_PartitionWritesComplete_4 : on.Takes (.window f1 false) (.owner 1) (rLoad (0 : DieC).val 3) ∧
    on.allowed (.window f1 false) (.owner 1) .owner (rLoad (0 : DieC).val 3) = true ∧
    (on.took (.window f1 false) (rLoad (0 : DieC).val 3) 1 1).reg (rLoad (0 : DieC).val 4) ≠ 1 ∧
    (on.took (.window f1 false) (rLoad (0 : DieC).val 3) 1 1).mayLoad (0 : DieC).val 2 = true := ⟨takes_of (by decide +kernel),
    by decide +kernel, by decide +kernel, by decide +kernel⟩

def stPartitionWrites5 : State := act.setReg (rTileState 0 7) 2

theorem witness_PartitionWritesComplete_5 : stPartitionWrites5.Takes .uart .operator (rTileState (0 : DieC).val (7 : TileN).val)
    ∧ (stPartitionWrites5.took .uart (rTileState (0 : DieC).val (7 : TileN).val) 1 0).reg (rTileState (0 : DieC).val (7 :
    TileN).val) = 2 := ⟨takes_of (by decide +kernel), by decide +kernel⟩

theorem witness_PartitionWritesComplete_6 : act.Takes .uart .operator (rBand ((0 : PartN).val + 1) (1 + (15 : Fin 16).val)) ∧
    (act.took .uart (rBand ((0 : PartN).val + 1) (1 + (15 : Fin 16).val)) 4 (0x00010000 : W32).toNat).reg (rTdi ((0 : PartN).val
    + 1)) = 0 ∧ ((act.took .uart (rBand ((0 : PartN).val + 1) (1 + (15 : Fin 16).val)) 4 (0x00010000 : W32).toNat).resvTry ((0 :
    PartN).val + 1) (15 : Fin 16).val (0x00010000 : W32).toNat).isSome = true := ⟨takes_of (by decide +kernel),
    by decide +kernel, by decide +kernel⟩

def stPartitionWrites7 : State := act.setReg (rTdi 1) 1

theorem witness_PartitionWritesComplete_7 : stPartitionWrites7.Reaches .uart .operator (rBand ((0 : PartN).val + 1) (1 + (0 : Fin
    16).val)) ∧ (stPartitionWrites7.took .uart (rBand ((0 : PartN).val + 1) (1 + (0 : Fin 16).val)) 4 (0 : W32).toNat).reg (rTdi
    ((0 : PartN).val + 1)) ≠ 0 := ⟨reaches_of (by decide +kernel), by decide +kernel⟩

theorem witness_LaneRoleAndBusWritesComplete_1 : act.Takes .uart .operator (rLane (15 : GroupN).val 1) ∧
    (3 : Byte).toNat ≤ 3 := ⟨takes_of (by decide +kernel), by decide +kernel⟩

theorem witness_LaneRoleAndBusWritesComplete_2 : act.Takes .uart .operator (rLane (0 : GroupN).val 8) := takes_of (by
    decide +kernel)

theorem witness_LaneRoleAndBusWritesComplete_3 : act.Takes .uart .operator (key 0x1060 4) ∧
    (act.took .uart (key 0x1060 4) 2 (0x4040 : BitVec 16).toNat).reg (key 0x1060 6) ≠ 1 ∧
    bits (0x4040 : BitVec 16).toNat 6 0 ≤ 64 ∧
    bits (0x4040 : BitVec 16).toNat 14 8 ≤ 64 := ⟨takes_of (by decide +kernel), by decide +kernel, by decide +kernel,
    by decide +kernel⟩

theorem witness_LaneRoleAndBusWritesComplete_4 : act.Takes .uart .operator (key 0x1070 7) := takes_of (by decide +kernel)

def stLaneRoleAndBusWrites5 : State := act.setReg rStandby 2

theorem witness_LaneRoleAndBusWritesComplete_5 : stLaneRoleAndBusWrites5.Reaches .uart .operator (key 0x1020 6) ∧
    stLaneRoleAndBusWrites5.reg rStandby = 2 := ⟨reaches_of (by decide +kernel), by decide +kernel⟩

theorem witness_LaneRoleAndBusWritesComplete_6 : act.Reaches .uart .operator (key 0x1020 6) ∧
    act.reg rStandby ≠ 2 := ⟨reaches_of (by decide +kernel), by decide +kernel⟩

theorem witness_FirmwareWritesComplete_1 : act.Takes .uart .operator (key 0x1040 4) ∧
    (act.took .uart (key 0x1040 4) 1 1).reg rFwStatus ≠ 1 := ⟨takes_of (by decide +kernel), by decide +kernel⟩

theorem witness_FirmwareWritesComplete_2 : act.Takes .uart .operator (key 0x1040 6) ∧
    (act.took .uart (key 0x1040 6) 64 (5 : BitVec 512).toNat).fwDataOk = true := ⟨takes_of (by decide +kernel), by decide +kernel⟩

theorem witness_FirmwareWritesComplete_3 : act.Takes .uart .operator (key 0x1040 4) ∧
    (act.took .uart (key 0x1040 4) 1 2).reg rFwStatus ≠ 1 := ⟨takes_of (by decide +kernel), by decide +kernel⟩

theorem witness_FirmwareWritesComplete_4 : act.Takes .uart .operator (key 0x1040 4) ∧
    (act.took .uart (key 0x1040 4) 1 3).reg rFwStatus ≠ 1 := ⟨takes_of (by decide +kernel), by decide +kernel⟩

theorem witness_FirmwareWritesComplete_5 : act.Takes .uart .operator (key 0x1040 4) ∧
    (act.took .uart (key 0x1040 4) 1 4).reg rFwStatus ≠ 1 := ⟨takes_of (by decide +kernel), by decide +kernel⟩

theorem witness_FirmwareWritesComplete_6 : stControlWrites2.Reaches .uart .operator (key 0x1040 4) ∧
    (stControlWrites2.took .uart (key 0x1040 4) 1 1).reg rFwStatus = 1 := ⟨reaches_of (by decide +kernel), by decide +kernel⟩

def stHostPort1 : State := act.modFn f1 (fun x => { x with flushes := 1 })

theorem witness_HostPortEventsComplete_1 : (stHostPort1.fn f1).flushes ≠ 0 := by decide +kernel

theorem witness_HostPortEventsComplete_2 : (stHostPort1.fn f1).flushes ≠ 0 ∧
    (Cpl.timeout = .ur ∨ Cpl.timeout = .ca ∨ Cpl.timeout = .timeout) := by decide +kernel

def stHostPort3 : State := { act with resps := [⟨7, hostHead 0x02, 1, [], [], 0, false, false, []⟩] }

theorem witness_HostPortEventsComplete_3 : (stHostPort3.hostWriteResp f1).isSome = true := by decide +kernel

theorem witness_HostPortEventsComplete_4 : ∃ r ∈ stHostPort3.hostWriteResp f1,
    (Cpl.ca = .ur ∨ Cpl.ca = .ca ∨ Cpl.ca = .timeout) := by decide +kernel

def stHostPort5 : State := { act with resps := [⟨7, hostHead 0x01, 1, [], [], 0, false, false, []⟩] }

theorem witness_HostPortEventsComplete_5 : (stHostPort5.hostResp f1 (9 : BitVec 16).toNat).isSome = true := by decide +kernel

theorem witness_HostPortEventsComplete_6 : ∃ r ∈ stHostPort5.hostResp f1 (9 : BitVec 16).toNat,
    Cpl.poisoned ≠ .ok := by decide +kernel

theorem witness_HostPortEventsComplete_7 : act.portOpen f1.port.val = true := by decide +kernel

theorem witness_HostPortEventsComplete_8 : (act.port (0 : PortN).val).perst = true ∧ act.rst.step = 0 ∧
    act.portFused (0 : PortN).val = true := by decide +kernel

theorem witness_HostPortEventsComplete_9 : (⟨0, 2⟩ : Fn).vf ≠ 0 ∧ act.portOpen (⟨0, 2⟩ : Fn).port.val = true ∧
    act.partOf (⟨0, 2⟩ : Fn) = none := by decide +kernel

theorem witness_HostPortEventsComplete_10 : f1.vf ≠ 0 ∧ act.portOpen f1.port.val = true ∧
    (act.partOf f1).isSome = true := by decide +kernel

theorem witness_HostPortEventsComplete_11 : act.portOpen (0 : PortN).val = true := by decide +kernel

def stHostPort12 : State := act.setPort 0 ⟨false, 0, true, true⟩

theorem witness_HostPortEventsComplete_12 : stHostPort12.portOpen (0 : PortN).val = true ∧
    (stHostPort12.port (0 : PortN).val).vfEnable = false := by decide +kernel

theorem witness_HostPortEventsComplete_13 : stHostPort12.portOpen (0 : PortN).val = true ∧
    (stHostPort12.port (0 : PortN).val).vfEnable = false := by decide +kernel

theorem witness_HostPortEventsComplete_14 : act.portOpen (0 : PortN).val = true ∧
    (act.port (0 : PortN).val).vfEnable = true := by decide +kernel

theorem witness_HotResetCompletes_1 : ¬(act.rst.step ≠ 0 ∧ act.rst.warm = true) := by decide +kernel

def stHotReset2 : State := { up with rst := { up.rst with warm := true, step := 2 } }

theorem witness_HotResetCompletes_2 : stHotReset2.rst.step ≠ 0 ∧ stHotReset2.rst.warm = true := by decide +kernel

theorem witness_HotResetCompletes_3 : (act.port (0 : PortN).val).perst = true ∧ ¬(act.rst.step ≠ 0 ∧
    act.rst.warm = true) := by decide +kernel

theorem witness_HotResetCompletes_4 : (stHotReset2.port (0 : PortN).val).perst = true ∧ stHotReset2.rst.step ≠ 0 ∧
    stHotReset2.rst.warm = true := by decide +kernel

theorem witness_TransportsComplete_1 : act.transportOpen (.window f1 true) = true ∧ act.mill.queue = [] ∧
    (((act.taken' ⟨.window f1 true, false, (0x510101 : BitVec 24).toNat, [], false, 0⟩ noTag).perform ⟨.window f1 true, false,
    (0x510101 : BitVec 24).toNat, [], false, 0⟩).2).isSome = true := by decide +kernel

theorem witness_TransportsComplete_2 : act.transportOpen (.window f1 false) = true ∧
    ((act.taken' ⟨.window f1 false, false, (0x510201 : BitVec 24).toNat, [], false, 0⟩ noTag).perform ⟨.window f1 false, false,
    (0x510201 : BitVec 24).toNat, [], false, 0⟩).2 = none := by decide +kernel

def stTransports3 : State := act.setReg (rPort 0 1) 1

theorem witness_TransportsComplete_3 : stTransports3.transportOpen (.window (pf 0) true) = true ∧ stTransports3.mill.queue = [] ∧
    stTransports3.reg rStandby ≠ 2 ∧ ∃ r ∈ rowOf (0x230004 : BitVec 24).toNat, (0x230004 : BitVec 24).toNat ≠ key 0x1020 6 ∧
    (((stTransports3.taken' (⟨.window (pf 0) true, true, (0x230004 : BitVec 24).toNat, leBytes r.len (10000 : BitVec 512).toNat,
    false, 0⟩) noTag).perform (⟨.window (pf 0) true, true, (0x230004 : BitVec 24).toNat, leBytes r.len (10000 : BitVec 512).toNat,
    false, 0⟩)).2).isSome = true := by decide +kernel

def stTransports4 : State := up.setReg (key 0x1070 1) (2 ^ 256)

theorem witness_TransportsComplete_4 : stTransports4.millServes = true ∧ stTransports4.operatorKeySet = true ∧
    dgOp ([0xD7, 1, 1, 0, 0x23, 4, 0, 0, 1, 0, 0, 0, 0, 0, 0, 0, 0x0B, 0x4D, 0x2F, 0x25, 0xA7, 0xBD, 0xC0, 0xDD, 0x62, 0x51,
    0xF4, 0x64, 0x73, 0x30, 0xEF, 0x2C] : List Byte) = 1 ∧
    dgKnown ([0xD7, 1, 1, 0, 0x23, 4, 0, 0, 1, 0, 0, 0, 0, 0, 0, 0, 0x0B, 0x4D, 0x2F, 0x25, 0xA7, 0xBD, 0xC0, 0xDD, 0x62, 0x51,
    0xF4, 0x64, 0x73, 0x30, 0xEF, 0x2C] : List Byte) = true ∧
    stTransports4.tagOk ([0xD7, 1, 1, 0, 0x23, 4, 0, 0, 1, 0, 0, 0, 0, 0, 0, 0, 0x0B, 0x4D, 0x2F, 0x25, 0xA7, 0xBD, 0xC0, 0xDD,
    0x62, 0x51, 0xF4, 0x64, 0x73, 0x30, 0xEF, 0x2C] : List Byte) = true ∧
    stTransports4.mill.responses.find? (fun r => r.1 == dgCounter ([0xD7, 1, 1, 0, 0x23, 4, 0, 0, 1, 0, 0, 0, 0, 0, 0, 0, 0x0B,
    0x4D, 0x2F, 0x25, 0xA7, 0xBD, 0xC0, 0xDD, 0x62, 0x51, 0xF4, 0x64, 0x73, 0x30, 0xEF,
    0x2C] : List Byte) && r.2.1 == dgTag ([0xD7, 1, 1, 0, 0x23, 4, 0, 0, 1, 0, 0, 0, 0, 0, 0, 0, 0x0B, 0x4D, 0x2F, 0x25, 0xA7,
    0xBD, 0xC0, 0xDD, 0x62, 0x51, 0xF4, 0x64, 0x73, 0x30, 0xEF, 0x2C] : List Byte)) = none ∧
    ∃ a ∈ accessOf (.udp (dgCounter ([0xD7, 1, 1, 0, 0x23, 4, 0, 0, 1, 0, 0, 0, 0, 0, 0, 0, 0x0B, 0x4D, 0x2F, 0x25, 0xA7, 0xBD,
    0xC0, 0xDD, 0x62, 0x51, 0xF4, 0x64, 0x73, 0x30, 0xEF, 0x2C] : List Byte))) ([0xD7, 1, 1, 0, 0x23, 4, 0, 0, 1, 0, 0, 0, 0, 0,
    0, 0, 0x0B, 0x4D, 0x2F, 0x25, 0xA7, 0xBD, 0xC0, 0xDD, 0x62, 0x51, 0xF4, 0x64, 0x73, 0x30, 0xEF, 0x2C] : List Byte) (([0xD7,
    1, 1, 0, 0x23, 4, 0, 0, 1, 0, 0, 0, 0, 0, 0, 0, 0x0B, 0x4D, 0x2F, 0x25, 0xA7, 0xBD, 0xC0, 0xDD, 0x62, 0x51, 0xF4, 0x64, 0x73,
    0x30, 0xEF, 0x2C] : List Byte).drop 32), stTransports4.transportOpen (.udp (dgCounter ([0xD7, 1, 1, 0, 0x23, 4, 0, 0, 1, 0,
    0, 0, 0, 0, 0, 0, 0x0B, 0x4D, 0x2F, 0x25, 0xA7, 0xBD, 0xC0, 0xDD, 0x62, 0x51, 0xF4, 0x64, 0x73, 0x30, 0xEF,
    0x2C] : List Byte))) = true ∧ stTransports4.mill.queue = [] ∧
    (((stTransports4.taken' a (dgTag ([0xD7, 1, 1, 0, 0x23, 4, 0, 0, 1, 0, 0, 0, 0, 0, 0, 0, 0x0B, 0x4D, 0x2F, 0x25, 0xA7, 0xBD,
    0xC0, 0xDD, 0x62, 0x51, 0xF4, 0x64, 0x73, 0x30, 0xEF, 0x2C] : List Byte))).perform a).2).isSome = true := by decide +kernel

theorem witness_TransportsComplete_5 : stTransports4.millServes = true ∧ stTransports4.operatorKeySet = true ∧
    dgOp ([0xD7, 1, 2, 0, 0x23, 4, 0, 2, 1, 0, 0, 0, 0, 0, 0, 0, 0x5A, 3, 0x5D, 0x79, 0x20, 0x73, 0xFC, 0xB6, 1, 0xE2, 0x2C,
    0xD9, 0x10, 0xD3, 0x28, 0x7B, 0x10, 0x27] : List Byte) = 2 ∧
    dgKnown ([0xD7, 1, 2, 0, 0x23, 4, 0, 2, 1, 0, 0, 0, 0, 0, 0, 0, 0x5A, 3, 0x5D, 0x79, 0x20, 0x73, 0xFC, 0xB6, 1, 0xE2, 0x2C,
    0xD9, 0x10, 0xD3, 0x28, 0x7B, 0x10, 0x27] : List Byte) = true ∧
    stTransports4.tagOk ([0xD7, 1, 2, 0, 0x23, 4, 0, 2, 1, 0, 0, 0, 0, 0, 0, 0, 0x5A, 3, 0x5D, 0x79, 0x20, 0x73, 0xFC, 0xB6, 1,
    0xE2, 0x2C, 0xD9, 0x10, 0xD3, 0x28, 0x7B, 0x10, 0x27] : List Byte) = true ∧
    stTransports4.mill.responses.find? (fun r => r.1 == dgCounter ([0xD7, 1, 2, 0, 0x23, 4, 0, 2, 1, 0, 0, 0, 0, 0, 0, 0, 0x5A,
    3, 0x5D, 0x79, 0x20, 0x73, 0xFC, 0xB6, 1, 0xE2, 0x2C, 0xD9, 0x10, 0xD3, 0x28, 0x7B, 0x10,
    0x27] : List Byte) && r.2.1 == dgTag ([0xD7, 1, 2, 0, 0x23, 4, 0, 2, 1, 0, 0, 0, 0, 0, 0, 0, 0x5A, 3, 0x5D, 0x79, 0x20, 0x73,
    0xFC, 0xB6, 1, 0xE2, 0x2C, 0xD9, 0x10, 0xD3, 0x28, 0x7B, 0x10, 0x27] : List Byte)) = none ∧
    ∃ a ∈ accessOf (.udp (dgCounter ([0xD7, 1, 2, 0, 0x23, 4, 0, 2, 1, 0, 0, 0, 0, 0, 0, 0, 0x5A, 3, 0x5D, 0x79, 0x20, 0x73,
    0xFC, 0xB6, 1, 0xE2, 0x2C, 0xD9, 0x10, 0xD3, 0x28, 0x7B, 0x10, 0x27] : List Byte))) ([0xD7, 1, 2, 0, 0x23, 4, 0, 2, 1, 0, 0,
    0, 0, 0, 0, 0, 0x5A, 3, 0x5D, 0x79, 0x20, 0x73, 0xFC, 0xB6, 1, 0xE2, 0x2C, 0xD9, 0x10, 0xD3, 0x28, 0x7B, 0x10,
    0x27] : List Byte) (([0xD7, 1, 2, 0, 0x23, 4, 0, 2, 1, 0, 0, 0, 0, 0, 0, 0, 0x5A, 3, 0x5D, 0x79, 0x20, 0x73, 0xFC, 0xB6, 1,
    0xE2, 0x2C, 0xD9, 0x10, 0xD3, 0x28, 0x7B, 0x10, 0x27] : List Byte).drop 32),
    stTransports4.transportOpen (.udp (dgCounter ([0xD7, 1, 2, 0, 0x23, 4, 0, 2, 1, 0, 0, 0, 0, 0, 0, 0, 0x5A, 3, 0x5D, 0x79,
    0x20, 0x73, 0xFC, 0xB6, 1, 0xE2, 0x2C, 0xD9, 0x10, 0xD3, 0x28, 0x7B, 0x10, 0x27] : List Byte))) = true ∧
    stTransports4.mill.queue = [] ∧ stTransports4.reg rStandby ≠ 2 ∧ a.entry ≠ key 0x1020 6 ∧
    (((stTransports4.taken' a (dgTag ([0xD7, 1, 2, 0, 0x23, 4, 0, 2, 1, 0, 0, 0, 0, 0, 0, 0, 0x5A, 3, 0x5D, 0x79, 0x20, 0x73,
    0xFC, 0xB6, 1, 0xE2, 0x2C, 0xD9, 0x10, 0xD3, 0x28, 0x7B, 0x10,
    0x27] : List Byte))).perform a).2).isSome = true := by decide +kernel

theorem witness_TransportsComplete_6 : (let bs : List Byte := ([0xD7, 1, 2, 0, 0x23, 4, 0, 2, 1, 0, 0, 0, 0, 0, 0, 0, 0x5A, 3, 0x5D, 0x79, 0x20, 0x73, 0xFC, 0xB6, 1, 0xE2, 0x2C, 0xD9, 0x10, 0xD3, 0x28, 0x7B, 0x10, 0x27] : List Byte)
  let s : State := { up.setReg (key 0x1070 1) (2 ^ 256) with mill := { up.mill with responses := [(1, 0x7B28D310D92CE201B6FC7320795D035A, [1])] } }
  s.millServes && s.operatorKeySet && dgOp bs == 2 && dgKnown bs && s.tagOk bs && (s.mill.responses.find? (fun r => r.1 == dgCounter bs && r.2.1 == dgTag bs)).any (fun r => r.2.2 != [])) = true := by decide +kernel

theorem witness_TransportsComplete_7 : stTransports4.millServes = true ∧ stTransports4.operatorKeySet = true ∧
    dgOp ([0xD7, 1, 2, 0, 0x23, 4, 0, 2, 1, 0, 0, 0, 0, 0, 0, 0, 0x5B, 3, 0x5D, 0x79, 0x20, 0x73, 0xFC, 0xB6, 1, 0xE2, 0x2C,
    0xD9, 0x10, 0xD3, 0x28, 0x7B, 0x10, 0x27] : List Byte) = 2 ∧
    (dgKnown ([0xD7, 1, 2, 0, 0x23, 4, 0, 2, 1, 0, 0, 0, 0, 0, 0, 0, 0x5B, 3, 0x5D, 0x79, 0x20, 0x73, 0xFC, 0xB6, 1, 0xE2, 0x2C,
    0xD9, 0x10, 0xD3, 0x28, 0x7B, 0x10, 0x27] : List Byte) && stTransports4.tagOk ([0xD7, 1, 2, 0, 0x23, 4, 0, 2, 1, 0, 0, 0, 0,
    0, 0, 0, 0x5B, 3, 0x5D, 0x79, 0x20, 0x73, 0xFC, 0xB6, 1, 0xE2, 0x2C, 0xD9, 0x10, 0xD3, 0x28, 0x7B, 0x10,
    0x27] : List Byte)) = false := by decide +kernel

theorem witness_TransportsComplete_8 : up.mctpServes .smbus = true ∧
    leNat (slice ([0x7F, 0xA7, 0xF0, 0, 0, 0xD7, 1, 2, 0, 0x23, 4, 0, 2, 0, 0, 0, 0, 0, 0, 0, 0, 0x10,
    0x27] : List Byte) 0 1) = 0x7F ∧ leNat (slice ([0x7F, 0xA7, 0xF0, 0, 0, 0xD7, 1, 2, 0, 0x23, 4, 0, 2, 0, 0, 0, 0, 0, 0, 0, 0,
    0x10, 0x27] : List Byte) 1 4) = up.reg (key 0x1060 8) ∧
    dgKnown ((([0x7F, 0xA7, 0xF0, 0, 0, 0xD7, 1, 2, 0, 0x23, 4, 0, 2, 0, 0, 0, 0, 0, 0, 0, 0, 0x10,
    0x27] : List Byte).drop 5).take 16) = true ∧
    ∃ a ∈ accessOf ((none : Option Nat).elim (Transport.mctp .smbus) Transport.session) ((([0x7F, 0xA7, 0xF0, 0, 0, 0xD7, 1, 2,
    0, 0x23, 4, 0, 2, 0, 0, 0, 0, 0, 0, 0, 0, 0x10, 0x27] : List Byte).drop 5).take 16) (([0x7F, 0xA7, 0xF0, 0, 0, 0xD7, 1, 2, 0,
    0x23, 4, 0, 2, 0, 0, 0, 0, 0, 0, 0, 0, 0x10, 0x27] : List Byte).drop 21), up.transportOpen a.via = true ∧
    up.mill.queue = [] ∧ up.reg rStandby ≠ 2 ∧ (a.write && a.entry == key 0x1020 6) = false ∧
    (((up.taken' a noTag).perform a).2).isSome = true := by decide +kernel

theorem witness_TransportsComplete_9 : (cobsDecode 0 false (([4, 0xD7, 1, 2, 3, 0x23, 4, 2, 2, 1, 1, 1, 1, 1, 1, 1, 1, 1, 1, 1,
    1, 1, 1, 1, 1, 1, 1, 1, 1, 1, 1, 1, 3, 0x10, 0x27, 0] : List Byte).takeWhile (fun b => b != 0))) = cobsDecode 0 false (([4,
    0xD7, 1, 2, 3, 0x23, 4, 2, 2, 1, 1, 1, 1, 1, 1, 1, 1, 1, 1, 1, 1, 1, 1, 1, 1, 1, 1, 1, 1, 1, 1, 1, 3, 0x10, 0x27,
    0] : List Byte).takeWhile (fun b => b != 0)) ∧
    dgKnown (cobsDecode 0 false (([4, 0xD7, 1, 2, 3, 0x23, 4, 2, 2, 1, 1, 1, 1, 1, 1, 1, 1, 1, 1, 1, 1, 1, 1, 1, 1, 1, 1, 1, 1,
    1, 1, 1, 3, 0x10, 0x27, 0] : List Byte).takeWhile (fun b => b != 0))) = true ∧
    ∃ a ∈ accessOf .uart (cobsDecode 0 false (([4, 0xD7, 1, 2, 3, 0x23, 4, 2, 2, 1, 1, 1, 1, 1, 1, 1, 1, 1, 1, 1, 1, 1, 1, 1, 1,
    1, 1, 1, 1, 1, 1, 1, 3, 0x10, 0x27, 0] : List Byte).takeWhile (fun b => b != 0))) ((cobsDecode 0 false (([4, 0xD7, 1, 2, 3,
    0x23, 4, 2, 2, 1, 1, 1, 1, 1, 1, 1, 1, 1, 1, 1, 1, 1, 1, 1, 1, 1, 1, 1, 1, 1, 1, 1, 3, 0x10, 0x27,
    0] : List Byte).takeWhile (fun b => b != 0))).drop 32), up.transportOpen .uart = true ∧ up.mill.queue = [] ∧
    up.reg rStandby ≠ 2 ∧ (a.write && a.entry == key 0x1020 6) = false ∧
    (((up.taken' a noTag).perform a).2).isSome = true := by decide +kernel

def stTransports10 : State := { up with refusals := [(20000, .access ⟨.uart, false, 0, [], false, 0⟩)] }

theorem witness_TransportsComplete_10 : (stTransports10.refusals.find? (fun e => stTransports10.refusable e.2)).isSome =
    true := by decide +kernel

def stMilliner1 : State := up.setReg rStandby 2

theorem witness_MillinerEventsComplete_1 : stMilliner1.mill.faulted = false ∧ stMilliner1.flash.trialOf = none ∧
    stMilliner1.reg rStandby = 2 := by decide +kernel

def stMilliner2 : State := { up.setReg rStandby 2 with mill := { up.mill with flash0 := { up.mill.flash0 with trialOf := some 0 } } }

theorem witness_MillinerEventsComplete_2 : stMilliner2.mill.faulted = false ∧
    (((stMilliner2.setReg rLastFault 1).noteFault stMilliner2.activeIs0).trialReverts).standbyReady = true := by decide +kernel

theorem witness_MillinerEventsComplete_3 : up.mill.faulted = false ∧ up.standbyReady = false ∧
    up.rst.step ≠ 1 := by decide +kernel

def stMilliner4 : State := { up with mill := { up.mill with faulted := true } }

theorem witness_MillinerEventsComplete_4 : stMilliner4.mill.faulted = true := by decide +kernel

def stMilliner5 : State := { up with mill := { up.mill with rebooting := true } }

theorem witness_MillinerEventsComplete_5 : stMilliner5.mill.rebooting = true := by decide +kernel

def stMilliner6 : State := up.setReg rStandby 1

theorem witness_MillinerEventsComplete_6 : stMilliner6.reg rStandby = 1 := by decide +kernel

def stMilliner7 : State := { up.setReg rStandby 2 with mill := { up.mill with mirrorSent := 1 } }

theorem witness_MillinerEventsComplete_7 : stMilliner7.reg rStandby = 2 ∧
    stMilliner7.mill.mirrorAcked < stMilliner7.mill.mirrorSent := by decide +kernel

def stMilliner8 : State := { up with mill := { up.mill with queue := [⟨.uart, true, 0x230004, [0x10, 0x27], true, 0⟩, ⟨.uart, true, 0x230004, [0x10, 0x27], false, 0⟩] } }

theorem witness_MillinerEventsComplete_8 : stMilliner8.millRuns = true ∧
    stMilliner8.mill.queue = (⟨.uart, true, 0x230004, [0x10, 0x27], true, 0⟩ : Access) :: [(⟨.uart, true, 0x230004, [0x10, 0x27],
    false, 0⟩ : Access)] ∧ (⟨.uart, true, 0x230004, [0x10, 0x27], true, 0⟩ : Access).acked = true ∧
    (∀ b ∈ [(⟨.uart, true, 0x230004, [0x10, 0x27], false, 0⟩ : Access)].head?, b.acked = false) := by decide +kernel

theorem witness_MillinerEventsComplete_9 : stMilliner1.reg rStandby ≠ 0 ∧ stMilliner1.mill.faulted = false := by decide +kernel

theorem witness_MctpControlCompletes_1 : up.mctpServes .i3c = true := by decide +kernel

theorem witness_MctpControlCompletes_2 : up.mctpServes .i3c = true := by decide +kernel

theorem witness_MctpControlCompletes_3 : up.mctpServes .i3c = true := by decide +kernel

theorem witness_MctpControlCompletes_4 : up.mctpServes .i3c = true := by decide +kernel

theorem witness_MctpControlCompletes_5 : up.mctpServes .i3c = true := by decide +kernel

theorem witness_MctpControlCompletes_6 : up.mctpServes (.vdm 0) = true ∧ (1 : Byte) ≠ 0 := by decide +kernel

def stFlashAndBus1 : State := { up with mill := { up.mill with flash0 := { up.mill.flash0 with erasing := [3, 4] }, flash15 := { up.mill.flash15 with erasing := [5] } } }

theorem witness_FlashAndBusEventsComplete_1 : stFlashAndBus1.flash.erasing = 3 :: [4] := by decide +kernel

theorem witness_FlashAndBusEventsComplete_2 : stFlashAndBus1.otherFlash.erasing = 5 :: [] := by decide +kernel

def stFlashAndBus3 : State := { up with mill := { up.mill with flash0 := { up.mill.flash0 with trialOf := some 0 } } }

theorem witness_FlashAndBusEventsComplete_3 : (stFlashAndBus3.flash.trialOf).isSome = true := by decide +kernel

def stFlashAndBus4 : State := { up with mill := { up.mill with unsaved := [(0x230004, 1000)] } }

theorem witness_FlashAndBusEventsComplete_4 : stFlashAndBus4.mill.unsaved = (0x230004, 1000) :: [] := by decide +kernel

def stFlashAndBus6 : State := up.setReg (key 0x1060 6) 1

theorem witness_FlashAndBusEventsComplete_6 : stFlashAndBus6.reg (key 0x1060 6) = 1 := by decide +kernel

def stFlashAndBus7 : State := up.regs [(key 0x1060 6, 1), (key 0x1060 2, 0x8000)]

theorem witness_FlashAndBusEventsComplete_7 : stFlashAndBus7.reg (key 0x1060 6) = 1 ∧
    bit (stFlashAndBus7.reg (key 0x1060 2)) 15 = true := by decide +kernel

theorem witness_FlashAndBusEventsComplete_8 : up.millServes = true ∧ up.reg (key 0x1050 2) = 0 ∧
    up.reg (key 0x1050 5) = 1 := by decide +kernel

theorem witness_TimeEventsComplete_1 : up.ptpMine (0 : Byte) = true := by decide +kernel

theorem witness_TimeEventsComplete_2 : up.ptpMine (0 : Byte) = true := by decide +kernel

def stTime3 : State := { up with clock := { up.clock with syncWait := true, syncKnown := true, syncSeq := 5, reqSeq := 6 } }

theorem witness_TimeEventsComplete_3 : stTime3.ptpMine (0 : Byte) = true ∧ stTime3.clock.syncWait = true ∧
    stTime3.clock.syncSeq = (5 : BitVec 16).toNat := by decide +kernel

theorem witness_TimeEventsComplete_4 : stTime3.ptpMine (0 : Byte) = true ∧ stTime3.reg (key 0x1030 8) = 1 ∧
    stTime3.clock.reqSeq = (6 : BitVec 16).toNat ∧ stTime3.clock.syncKnown = true := by decide +kernel

def stTime5 : State := { up.setReg (key 0x1030 8) 2 with clock := { up.clock with reqSeq := 6 } }

theorem witness_TimeEventsComplete_5 : stTime5.ptpMine (0 : Byte) = true ∧ stTime5.reg (key 0x1030 8) = 2 ∧
    stTime5.clock.reqSeq = (6 : BitVec 16).toNat := by decide +kernel

theorem witness_TimeEventsComplete_6 : up.ptpMine (0 : Byte) = true := by decide +kernel

theorem witness_TimeEventsComplete_7 : up.ptpMine (0 : Byte) = true := by decide +kernel

theorem witness_TimeEventsComplete_8 : up.ptpMine (255 : Byte) = false := by decide +kernel

def stTime10 : State := up.setReg rTimeState 1

theorem witness_TimeEventsComplete_10 : stTime10.reg rTimeState = 1 := by decide +kernel

def stTime11 : State := { up.regs [(rTimeState, 2), (rStepLimit, 1000)] with clock := { up.clock with offset := -1001 } }

theorem witness_TimeEventsComplete_11 : stTime11.reg rTimeState = 2 ∧
    stTime11.reg rStepLimit < (-stTime11.clock.offset).toNat := by decide +kernel

theorem witness_ResetEventsComplete_2 : up.rst.porst = true := by decide +kernel

theorem witness_ResetEventsComplete_4 : up.rst.wrst = true ∧ up.rst.step = 0 := by decide +kernel

def stReset6 : State := { up with rst := { up.rst with due := some 5 } }

theorem witness_ResetEventsComplete_6 : stReset6.rst.due = some 5 ∧ stReset6.rst.step = 0 := by decide +kernel

def stReset7 : State := { up with rst := { up.rst with held := true, wrst := false } }

theorem witness_ResetEventsComplete_7 : stReset7.rst.held = true ∧ stReset7.rst.wrst = false ∧
    stReset7.reg rCause ≠ 0x06 := by decide +kernel

theorem witness_ResetEventsComplete_8 : State.reset.rst.step = 1 ∧ State.reset.mill.faulted = false ∧
    State.reset.rst.held = false ∧ State.reset.rst.porst = true ∧ State.reset.mill.refFault = false ∧
    State.reset.step1.heldBack = false := by decide +kernel

def stReset9 : State := { up with rst := { up.rst with step := 2 } }

theorem witness_ResetEventsComplete_9 : stReset9.rst.step = 2 := by decide +kernel

def stReset10 : State := { up with rst := { up.rst with step := 3 } }

theorem witness_ResetEventsComplete_10 : stReset10.rst.step = 3 := by decide +kernel

def stReset11 : State := { up with rst := { up.rst with step := 4 } }

theorem witness_ResetEventsComplete_11 : stReset11.rst.step = 4 := by decide +kernel

def stReset12 : State := { up with rst := { up.rst with step := 5 } }

theorem witness_ResetEventsComplete_12 : stReset12.rst.step = 5 := by decide +kernel

theorem witness_ResetEventsComplete_13 : up.mill.refFault = false ∧ (false = true ∨ 1000 < (1001 : BitVec 32).toNat) ∧
    up.rst.step ≠ 1 := by decide +kernel

def stReset14 : State := { up with mill := { up.mill with refFault := true } }

theorem witness_ResetEventsComplete_14 : stReset14.mill.refFault = true := by decide +kernel

def stPartition1 : State := act.setReg (rState 1) 1

theorem witness_PartitionEventsComplete_1 : stPartition1.reg (rState ((0 : PartN).val + 1)) = 1 := by decide +kernel

def stPartition2 : State := act.modSec 1 (fun x => { x with ending := some (7, 2) })

theorem witness_PartitionEventsComplete_2 : (stPartition2.psec ((0 : PartN).val + 1)).ending.isSome = true ∧
    stPartition2.oldXacts ((0 : PartN).val + 1) = [] := by decide +kernel

def stPartition3 : State := { act.modSec 1 (fun x => { x with ending := some (7, 2) }) with xacts := [⟨3, 0, 9, 1 * 2 ^ 256 + 1 * 2 ^ 280, 5, none, 0, 0, 255, none, false, [], false⟩] }

theorem witness_PartitionEventsComplete_3 : ∃ e ∈ (stPartition3.psec ((0 : PartN).val + 1)).ending,
    stPartition3.oldXacts ((0 : PartN).val + 1) ≠ [] := by decide +kernel

def stPartition4 : State := { act.modSec 1 (fun x => { x with ending := some (7, 2) }) with xacts := [⟨3, 0, 9, 1 * 2 ^ 256 + 1 * 2 ^ 280, 5, none, 0, 0, 0, none, false, [], false⟩] }

theorem witness_PartitionEventsComplete_4 : ∃ e ∈ (stPartition4.psec ((0 : PartN).val + 1)).ending,
    stPartition4.oldXacts ((0 : PartN).val + 1) = [] := by decide +kernel

def stPartition5 : State := (act.setReg (rState 1) 3).modSec 1 (fun x => { x with scrubbing := true })

theorem witness_PartitionEventsComplete_5 : stPartition5.reg (rState ((0 : PartN).val + 1)) = 3 ∧
    (stPartition5.psec ((0 : PartN).val + 1)).scrubbing = true := by decide +kernel

def stPartition6 : State := (act.setReg (rState 1) 4).modSec 1 (fun x => { x with scrubbing := true })

theorem witness_PartitionEventsComplete_6 : stPartition6.reg (rState ((0 : PartN).val + 1)) = 4 ∧
    (stPartition6.psec ((0 : PartN).val + 1)).scrubbing = true := by decide +kernel

def stSpdm1 : State := up.setConn (.doe 0) 0

theorem witness_SpdmRequestsComplete_1 : stSpdm1.spdmServes (.doe 0) = true := by decide +kernel

def stSpdm2 : State := up.setConn (.doe 0) 1

theorem witness_SpdmRequestsComplete_2 : stSpdm2.spdmServes (.doe 0) = true ∧ 1 ≤ stSpdm2.conn (.doe 0) := by decide +kernel

def stSpdm3 : State := up.setConn (.doe 0) 2

theorem witness_SpdmRequestsComplete_3 : stSpdm3.spdmServes (.doe 0) = true ∧ 2 ≤ stSpdm3.conn (.doe 0) := by decide +kernel

theorem witness_SpdmRequestsComplete_4 : stSpdm2.spdmServes (.doe 0) = true ∧ stSpdm2.conn (.doe 0) < 2 := by decide +kernel

def stSpdm5 : State := up.setConn (.doe 0) 3

theorem witness_SpdmRequestsComplete_5 : stSpdm5.spdmServes (.doe 0) = true ∧ 3 ≤ stSpdm5.conn (.doe 0) := by decide +kernel

theorem witness_SpdmRequestsComplete_6 : stSpdm5.spdmServes (.doe 0) = true ∧ 3 ≤ stSpdm5.conn (.doe 0) := by decide +kernel

theorem witness_SpdmRequestsComplete_7 : stSpdm5.spdmServes (.doe 0) = true ∧ 3 ≤ stSpdm5.conn (.doe 0) := by decide +kernel

theorem witness_SpdmRequestsComplete_8 : stSpdm5.spdmServes (.doe 0) = true ∧ 3 ≤ stSpdm5.conn (.doe 0) := by decide +kernel

theorem witness_SpdmRequestsComplete_9 : stSpdm5.spdmServes (.doe 0) = true ∧ 3 ≤ stSpdm5.conn (.doe 0) ∧
    stSpdm5.sessions.countP (fun x => x.box == (.doe 0)) < boxLimit (.doe 0) := by decide +kernel

def stSession1 : State := { act.setConn (.doe 0) 3 with sessions := [⟨7, .doe 0, false, 5, 0, 0, none⟩] }

theorem witness_SessionMessagesComplete_1 : ∃ x ∈ stSession1.session 7, x.secured = false ∧ stSession1.spdmServes x.box = true ∧
    3 ≤ stSession1.conn x.box := by decide +kernel

def stSession2 : State := { act.setConn (.doe 0) 3 with sessions := [⟨7, .doe 0, true, 5, 0, 0, none⟩] }

theorem witness_SessionMessagesComplete_2 : ∃ x ∈ stSession2.session 7, x.secured = true ∧ stSession2.spdmServes x.box = true ∧
    3 ≤ stSession2.conn x.box := by decide +kernel

theorem witness_SessionMessagesComplete_3 : ∃ x ∈ stSession2.session 7, x.secured = true ∧ stSession2.spdmServes x.box = true ∧
    3 ≤ stSession2.conn x.box := by decide +kernel

theorem witness_SessionMessagesComplete_4 : ∃ x ∈ stSession2.session 7, x.secured = true ∧ stSession2.spdmServes x.box = true ∧
    3 ≤ stSession2.conn x.box := by decide +kernel

theorem witness_SessionMessagesComplete_5 : act.millServes = true := by decide +kernel

theorem witness_SessionMessagesComplete_6 : ∃ x ∈ stSession2.session 7, x.tdi = none := by decide +kernel

def stIde1 : State := State.setReg { act.setConn (.doe 0) 3 with sessions := [⟨7, .doe 0, true, 5, 0, 0, none⟩] } (rPort 0 2) 0x4000

theorem witness_IdeMessagesComplete_1 : ∃ x ∈ stIde1.session 7, x.secured = true ∧ stIde1.spdmServes x.box = true ∧
    3 ≤ stIde1.conn x.box ∧ stIde1.kmOk f1 x = true := by decide +kernel

def stIde2 : State := State.modFn (State.setReg { act.setConn (.doe 0) 3 with sessions := [⟨7, .doe 0, true, 5, 0, 0, none⟩] } (rPort 0 2) 0x4000) f1 (fun x => { x with ide := { x.ide with key1 := some 3 } })

theorem witness_IdeMessagesComplete_2 : ∃ x ∈ stIde2.session 7, x.secured = true ∧ stIde2.spdmServes x.box = true ∧
    3 ≤ stIde2.conn x.box ∧ stIde2.kmOk f1 x = true ∧ ((stIde2.fn f1).ide.key (1 : Fin 2).val).isSome = true := by decide +kernel

theorem witness_IdeMessagesComplete_3 : ∃ x ∈ stIde1.session 7, x.secured = true ∧ stIde1.spdmServes x.box = true ∧
    3 ≤ stIde1.conn x.box ∧ stIde1.kmOk f1 x = true := by decide +kernel

theorem witness_IdeMessagesComplete_4 : ∃ x ∈ stIde1.session 7, x.secured = true ∧ stIde1.spdmServes x.box = true ∧
    3 ≤ stIde1.conn x.box ∧ stIde1.kmOk f1 x = true := by decide +kernel

theorem witness_IdeMessagesComplete_5 : ∃ x ∈ stSession2.session 7, x.secured = true ∧ stSession2.spdmServes x.box = true ∧
    3 ≤ stSession2.conn x.box ∧ stSession2.kmOk f1 x = false := by decide +kernel

theorem witness_IdeMessagesComplete_6 : (act.partOf f1).isSome = true := by decide +kernel

theorem witness_TdispMessagesComplete_1 : ∃ p ∈ stIde1.partOf f1, ∃ x ∈ stIde1.session 7, x.secured = true ∧
    stIde1.spdmServes x.box = true ∧ 3 ≤ stIde1.conn x.box ∧ stIde1.reg (rState p) = 2 ∧ stIde1.reg (rTdi p) = 0 ∧
    stIde1.flit f1.port.val = true := by decide +kernel

def stTdisp2 : State := State.setReg (State.setReg { act.setConn (.doe 0) 3 with sessions := [⟨7, .doe 0, true, 5, 0, 0, none⟩] } (rPort 0 2) 0x4000) (rTdi 1) 2

theorem witness_TdispMessagesComplete_2 : ∃ p ∈ stTdisp2.partOf f1, ∃ x ∈ stTdisp2.session 7, x.secured = true ∧
    stTdisp2.spdmServes x.box = true ∧ 3 ≤ stTdisp2.conn x.box ∧ stTdisp2.reg (rTdi p) ≠ 0 := by decide +kernel

theorem witness_TdispMessagesComplete_3 : ∃ p ∈ stIde1.partOf f1, ∃ x ∈ stIde1.session 7, x.secured = true ∧
    stIde1.spdmServes x.box = true ∧ 3 ≤ stIde1.conn x.box := by decide +kernel

def stTdisp4 : State := State.setReg (State.setReg { act.setConn (.doe 0) 3 with sessions := [⟨7, .doe 0, true, 5, 0, 0, some 1⟩] } (rPort 0 2) 0x4000) (rTdi 1) 1

theorem witness_TdispMessagesComplete_4 : ∃ p ∈ stTdisp4.partOf f1, ∃ x ∈ stTdisp4.session 7, x.secured = true ∧
    stTdisp4.spdmServes x.box = true ∧ 3 ≤ stTdisp4.conn x.box ∧ stTdisp4.reg (rTdi p) = 1 ∧
    (x.tdi).isSome = true := by decide +kernel

theorem witness_TdispMessagesComplete_5 : ∃ p ∈ stIde1.partOf f1, ∃ x ∈ stIde1.session 7, x.secured = true ∧
    stIde1.spdmServes x.box = true ∧ 3 ≤ stIde1.conn x.box := by decide +kernel

/-- A word access of a job of partition 1 at channel 0 of stack 0. -/
def acc0 : WordAcc := ⟨0, 0, 2, [1, 2], 0⟩
def stMemory (write : Bool) (bad : List Nat) (held : List (Nat × Nat)) : State := { act with
  channels := [(channelKey 0 0, [⟨1, 4, write, [acc0]⟩])], poison := bad, stackSides := [(0, { StackState.blank with held := held })] }

/-- The access stands first at its channel, its bytes lie on a rank that is not off line, in a bank that no refresh holds. -/
def memReady (s : State) (write poisoned : Bool) : Bool :=
  decide (s.jobs 0 0 = [⟨1, 4, write, [acc0]⟩]) && (s.place 1 acc0.addr).any (fun m =>
    !(s.stack m.1).offline.contains (s.servedBy m.1 m.2.1 m.2.2) && !s.bankHeld m.1 (s.servedBy m.1 m.2.1 m.2.2) m.2.2 &&
    s.poisoned (wordKey m.1 (s.servedBy m.1 m.2.1 m.2.2) m.2.2) == poisoned)

theorem witness_MemoryEventsComplete_1 : memReady (stMemory true [] []) true false = true ∧ acc0.first + acc0.data.length ≤ 64 ∧
    (⟨2, false⟩ : WordErr).symbols.val ≤ 3 := by decide +kernel

theorem witness_MemoryEventsComplete_2 : memReady (stMemory false [] []) false false = true := by decide +kernel

theorem witness_MemoryEventsComplete_2b : memReady (stMemory false [wordKey 0 0 0] []) false true = true := by decide +kernel

theorem witness_MemoryEventsComplete_3 : (stMemory false [] [(0, 100)]).jobs 0 0 = [⟨1, 4, false, [acc0]⟩] ∧
    (stMemory false [] [(0, 100)]).wordWaits 1 acc0 = true := by decide +kernel

theorem witness_MemoryEventsComplete_8 : (stMemory false [] []).jobs 0 0 = [⟨1, 4, false, [acc0]⟩] ∧
    (((stMemory false [] []).bump (rStack 0 0x22) 2).place 1 acc0.addr).isSome = true := by decide +kernel

def stMemory9 : State := act.setReg (rMigRank 0) 0x6000

theorem witness_MemoryEventsComplete_9 : stMemory9.reg (rMigRank (0 : StackN).val) ≠ 0xFFFF ∧
    stMemory9.reg (rMigPointer (0 : StackN).val) + 4096 < rankBytes := by decide +kernel

theorem witness_MemoryEventsComplete_10 : stMemory9.reg (rMigRank (0 : StackN).val) ≠ 0xFFFF := by decide +kernel

def stMemory11 : State := { act with stackSides := [(0, { StackState.blank with unsavedRemap := [2] })] }

theorem witness_MemoryEventsComplete_11 : (stMemory11.stack (0 : StackN).val).unsavedRemap = 2 :: [] := by decide +kernel

/-- A packet that is not lost, of the partition's epoch, and that its destination admits. -/
def fits (s : State) (h : Desc) : Bool := !s.isLost h.toNat && s.epochOk h.toNat && s.admits h.toNat true

theorem witness_RequestsComplete_1 : fits act (hd 0 0 1 1 0 1 1 48 0) = true ∧ forPair (hd 0 0 1 1 0 1 1 48 0).toNat = true := by
  decide +kernel

def stRequests2 : State := act.modPr 1 (fun r => { r with
  copies := [⟨0, 128, 0, 2, List.replicate 128 7, [(0, 128)], [], [], 0, 0, 0, [], false, false, [(0, 0)]⟩] })

theorem witness_RequestsComplete_2 : fits stRequests2 (hd 0 0 1 1 0 0 1 2 0) = true ∧ forPair (hd 0 0 1 1 0 0 1 2 0).toNat = false ∧
    pkDstDie (hd 0 0 1 1 0 0 1 2 0).toNat < 48 ∧
    ((stRequests2.accepted (hd 0 0 1 1 0 0 1 2 0).toNat).copyBytes (hd 0 0 1 1 0 0 1 2 0).toNat).isSome = true := by decide +kernel

theorem witness_RequestsComplete_2b : fits act (hd 0 0 1 1 0 0 1 2 0) = true ∧ forPair (hd 0 0 1 1 0 0 1 2 0).toNat = false ∧
    pkDstDie (hd 0 0 1 1 0 0 1 2 0).toNat < 48 ∧
    (act.accepted (hd 0 0 1 1 0 0 1 2 0).toNat).copyBytes (hd 0 0 1 1 0 0 1 2 0).toNat = none := by decide +kernel

theorem witness_RequestsComplete_3 : fits act (hd 0 0 1 1 0 0 1 48 0) = true ∧ forPair (hd 0 0 1 1 0 0 1 48 0).toNat = false ∧
    48 ≤ pkDstDie (hd 0 0 1 1 0 0 1 48 0).toNat ∧ pkDstEng (hd 0 0 1 1 0 0 1 48 0).toNat < 2 := by decide +kernel

theorem witness_RequestsComplete_4 : fits act (hd 0 0 1 1 0 0 1 50 2) = true ∧ forPair (hd 0 0 1 1 0 0 1 50 2).toNat = false ∧
    48 ≤ pkDstDie (hd 0 0 1 1 0 0 1 50 2).toNat ∧ 2 ≤ pkDstEng (hd 0 0 1 1 0 0 1 50 2).toNat := by decide +kernel

theorem witness_RequestsComplete_5 : fits act (hd 0 0 2 1 0 0 1 48 0) = true ∧
    (act.accepted (hd 0 0 2 1 0 0 1 48 0).toNat).ffOn (hd 0 0 2 1 0 0 1 48 0).toNat = false := by decide +kernel

theorem witness_RequestsComplete_7 : fits act (hd 0 0 3 1 64 0 1 48 0) = true := by decide +kernel

theorem witness_RequestsComplete_8 : fits (act.setReg (rBand 1 0x22) 1) (hd 0 0 4 1 0 1 1 48 0) = true ∧
    ((act.setReg (rBand 1 0x22) 1).accepted (hd 0 0 4 1 0 1 1 48 0).toNat).ffOn (hd 0 0 4 1 0 1 1 48 0).toNat = true ∧
    ((act.setReg (rBand 1 0x22) 1).accepted (hd 0 0 4 1 0 1 1 48 0).toNat).pairGroup (hd 0 0 4 1 0 1 1 48 0).toNat = none := by
  decide +kernel

def stRequests9 : State := act.regs [(rLane 2 1, 1), (rLane 2 3, 2), (key 0x5901 1, 4), (rBand 1 0x22, 1)]

theorem witness_RequestsComplete_9 : fits stRequests9 (hd 0 0 4 1 0 1 1 48 0) = true ∧
    (stRequests9.accepted (hd 0 0 4 1 0 1 1 48 0).toNat).ffOn (hd 0 0 4 1 0 1 1 48 0).toNat = true ∧
    ((stRequests9.accepted (hd 0 0 4 1 0 1 1 48 0).toNat).pairGroup (hd 0 0 4 1 0 1 1 48 0).toNat).isSome = true := by decide +kernel

theorem witness_RequestsComplete_10 : fits act (hd 0 0 5 1 0 1 1 48 0) = true ∧ pkPkg (hd 0 0 5 1 0 1 1 48 0).toNat = true := by
  decide +kernel

theorem witness_RequestsComplete_11 : fits act (hd 0 0 5 1 0 0 1 48 0) = true ∧ pkPkg (hd 0 0 5 1 0 0 1 48 0).toNat = false := by
  decide +kernel

/-- Dies 1 and 2 lie in the row of die 3. -/
theorem witness_RequestsComplete_12 : act.isLost (hd 6 0 6 1 0 0 1 48 0).toNat = false ∧ act.epochOk (hd 6 0 6 1 0 0 1 48 0).toNat = true ∧
    pkSrcDie (hd 6 0 6 1 0 0 1 48 0).toNat < 48 ∧
    [1, 2].all (fun c => bit (pkAddress (hd 6 0 6 1 0 0 1 48 0).toNat) c && (act.circuit 0 3).contains c &&
      act.admits (setBits (hd 6 0 6 1 0 0 1 48 0).toNat 255 250 c) true) = true ∧
    act.arrivalDie (setBits (hd 6 0 6 1 0 0 1 48 0).toNat 255 250 1) ≠ act.arrivalDie (setBits (hd 6 0 6 1 0 0 1 48 0).toNat 255 250 2) := by
  decide +kernel

theorem witness_RequestsComplete_13 : act.isLost (hd 0 1 5 1 0 0 1 48 0).toNat = false ∧
    act.epochOk (hd 0 1 5 1 0 0 1 48 0).toNat = false := by decide +kernel

theorem witness_RequestsComplete_14 : act.isLost (hd 0 0 5 1 0 0 1 48 0).toNat = false ∧
    act.epochOk (hd 0 0 5 1 0 0 1 48 0).toNat = true ∧ act.admits (hd 0 0 5 1 0 0 1 48 0).toNat false = false := by decide +kernel

theorem witness_SwitchAndDieEventsComplete_2 : pkCmd (hd 0 0 7 1 0 0 1 48 0).toNat ∉ [0x01, 0x02, 0x03, 0x04, 0x05,
    0x06, 0x10, 0x11] := by decide +kernel

theorem witness_SwitchAndDieEventsComplete_3 : pkCmd (hd 0 0 1 1 0 0 1 48 0).toNat / 16 ≠ 1 := by decide +kernel

/-- A read of partition 1 from die 3 to die 5, which waits to be injected since 600 cycles. -/
def wait4 : Waiting := ⟨.inject 3 true, 1, (hd 0 0 1 1 0 0 1 5 0).toNat, [], 0, none, 0, 2, 0, 0, false, 0, none, false⟩
def stSwitchAndDie4 : State := { act with clock := { act.clock with cycles := 600 }, waiting := [wait4] }

theorem witness_SwitchAndDieEventsComplete_4 : wait4 ∈ stSwitchAndDie4.waiting ∧ wait4.hop = none ∧
    wait4.cycle + 512 ≤ stSwitchAndDie4.clock.cycles ∧ ∃ rest ∈ stSwitchAndDie4.wayLeft wait4, ∃ st ∈ rest.head?,
    st.1 = bandAt 3 true ∧ st.2.1 = true ∧ stSwitchAndDie4.guardedOn wait4 st = false := by decide +kernel

def stSwitchAndDie6 : State := { act with switches := [(5, { SwitchState.blank with dead := true })] }

theorem witness_SwitchAndDieEventsComplete_6 : stSwitchAndDie6.live (5 : DieN).val = false := by decide +kernel

def stSwitchAndDie8 : State := act.modDp 5 (fun x => { x with trip := some 3 })

theorem witness_SwitchAndDieEventsComplete_8 : ((stSwitchAndDie8.dp (5 : DieC).val).trip).isSome = true := by decide +kernel

/-- A stream at an end with one transfer of 128 bytes. -/
def strm (id : Nat) : Machine.Stream := ⟨id, 0, 0, 1, 0, [(0, 0, 128)], 0, [], 0, 0, 1, 16, 0, true, none, 0, 0, 0, false, false⟩

def stTransfer1 : State := withCmd [0x10] { cmdOf with phase := .issued, ends := [⟨0, [], [], false⟩], streams := [strm 0] }

theorem witness_TransferEventsComplete_1 : ∃ f ∈ ((stTransfer1.onStream c0 0 0 (fun s f st => s.popStream f c0 st 0 0)).onStream c0 0 0
    (fun s f st => s.settleSpace f c0 st)).find c0, ∃ st ∈ f.cmd.stream 0 0, ∃ m ∈ st.moves[st.issued]?, f.cmd.phase = .issued ∧
    st.mayRead = true ∧ st.home ≠ 3 := by decide +kernel

def stTransfer2 : State := withCmd [0x10] { cmdOf with phase := .issued, ends := [⟨4, [1], [], true⟩], streams := [strm 4] }

theorem witness_TransferEventsComplete_2 : ∃ f ∈ (stTransfer2.onStream c0 4 0 (fun s f st => s.settleSpace f c0 st)).find c0,
    (f.cmd.stream 4 0).isSome = true := by decide +kernel

def stTransfer4 : State := { act with waiting := [⟨.channel 1 2, 1, 0, [], 0, none, 0, 0, 0, 3, false, 0, none, false⟩] }

theorem witness_TransferEventsComplete_4 : ∃ p ∈ (stTransfer4.queueReady.channelTurn (pointNum (.channel 1 2))
      (stTransfer4.queueReady.waiting.filter (fun w => w.point == .channel 1 2))).1,
    (((stTransfer4.queueReady.channelTurn (pointNum (.channel 1 2)) (stTransfer4.queueReady.waiting.filter (fun w => w.point ==
      .channel 1 2))).2.arbitrate p (pointNum (.channel 1 2)) ((stTransfer4.queueReady.waiting.filter (fun w => w.point ==
      .channel 1 2)).filter (fun w => w.p == p))).1).isSome = true := by decide +kernel

def stTransfer5 : State := { act with waiting := [⟨.host f1, 1, 0, [], 0, none, 0, 0, 0, 3, false, 0, none, false⟩] }

theorem witness_TransferEventsComplete_5 : ∃ e ∈ argmin (fun w => w.since) ((stTransfer5.queueReady.waiting.filter (fun w => w.point ==
      .host f1)).filter (fun w => stTransfer5.queueReady.dmaOpen w.p)),
    ((stTransfer5.queueReady.arbitrate e.p (pointNum (.host f1)) ((stTransfer5.queueReady.waiting.filter (fun w => w.point ==
      .host f1)).filter (fun w => stTransfer5.queueReady.dmaOpen w.p))).1).isSome = true := by decide +kernel

def stTransfer6 : State := { act with resps := [⟨7, (hd 0 0 1 1 0 0 1 48 0).toNat, 0, [], [], 0, true, true, []⟩] }

theorem witness_TransferEventsComplete_6 : (stTransfer6.readyResp (3 : DieN).val (0 : Fin 16).val (9 : BitVec 16).toNat
    true).isSome = true := by decide +kernel

def stTransfer7 : State := { act with resps := [⟨7, (hd 0 0 2 1 0 0 1 48 0).toNat, 0, [], [], 0, true, true, []⟩] }

theorem witness_TransferEventsComplete_7 : (stTransfer7.readyResp (3 : DieN).val (0 : Fin 16).val (9 : BitVec 16).toNat
    false).isSome = true := by decide +kernel

def stTransfer8 : State := { act with xacts := [⟨3, 0, 9, 1 * 2 ^ 256, 5, none, 0, 0, 0, none, false, [], false⟩] }

theorem witness_TransferEventsComplete_8 : (stTransfer8.xact (3 : DieN).val (0 : Fin 16).val (9 : BitVec 16).toNat).isSome =
    true := by decide +kernel

theorem witness_TransferEventsComplete_9 : ∃ f ∈ (stTransfer1.onStream c0 0 0 (fun s f st => s.popStream f c0 st 0 0)).find c0,
    (f.cmd.stream 0 0).isSome = true := by decide +kernel

/-! ### Commands that can be carried out -/

/-- The command a state holds. -/
def the (s : State) : Found := (s.find c0).getD ⟨1, runOf, ⟨1, 0, [], []⟩, cmdOf, 0⟩

theorem find_the {s : State} (h : (s.find c0).isSome = true) : s.find c0 = some (the s) := by
  unfold the
  obtain ⟨f, e⟩ := Option.isSome_iff_exists.1 h
  rw [e]; rfl

theorem fed_the {s : State} {op : Nat} (h : (s.find c0).isSome = true ∧ dOpcode (the s).desc = op ∧ s.canCompute (the s) = true ∧
    (∀ e ∈ cmdEnds (the s).prog.descs (the s).cmd.idx, ((the s).cmd.finish e.1).isSome = true) ∧
    ((the s).run.undef = false ∧ (the s).run.loose = false ∧ (the s).run.concern = [])) : s.Fed c0 (the s) op :=
  ⟨find_the h.1, h.2.1, h.2.2.1, h.2.2.2.1, h.2.2.2.2⟩

/-- A used slot of a queue, with a format, rows and columns, and a descriptor of an opcode with its slots. -/
def slotOf (q f r c : Nat) : Nat := q + 2 ^ 11 + f * 2 ^ 12 + r * 2 ^ 24 + c * 2 ^ 44
def descOf (op : Nat) (slots : List (Nat × Nat)) : Nat := slots.foldl (fun d e => d + e.2 * 2 ^ (256 + 64 * e.1)) op

/-- Partition 1 with one issued command of one part on die 0, its input ends whole and its output ends open. -/
def ready (descs : List Nat) (ins outs : List Nat) : State := withCmd descs { cmdOf with
  phase := .issued
  parts := [⟨0, 0, 1, [], false⟩]
  ends := ins.map (fun i => ⟨i, [1, 0, 0, 0], [], true⟩) ++ outs.map (fun i => ⟨i, [], [], false⟩) }

theorem witness_ControlCommandsComplete_1 : (ready [0] [] []).Fed c0 (the (ready [0] [] [])) 0x00 := fed_the (by decide +kernel)

theorem witness_ControlCommandsComplete_2 : (ready [4] [] []).Fed c0 (the (ready [4] [] [])) 0x04 := fed_the (by decide +kernel)

theorem witness_ControlCommandsComplete_3 : (ready [1] [] []).Fed c0 (the (ready [1] [] [])) 0x01 := fed_the (by decide +kernel)

theorem witness_ControlCommandsComplete_4 : (ready [2] [] []).Fed c0 (the (ready [2] [] [])) 0x02 := fed_the (by decide +kernel)

theorem witness_ControlCommandsComplete_5 : ∃ f ∈ (ready [3] [0] []).find c0, dOpcode f.desc = 0x03 ∧
    (ready [3] [0] []).canCompute f = true ∧ f.run.tainted f.prog.descs f.cmd.idx = false ∧ (f.cmd.finish 0).isSome = true := by
  decide +kernel

/-- A command of each opcode on INT32 items of one element: its inputs at slots 0 to 2, its output at slot 4. -/
def dOne (op ins : Nat) : Nat := descOf op (((List.range ins).map (fun i => (i, slotOf i 0x14 1 1))) ++ [(4, slotOf 4 0x14 1 1)])
def sOne (op ins : Nat) : State := ready [dOne op ins + 2 ^ 768] (List.range ins) [4]

theorem witness_OperationsComplete_1 : ∀ e ∈ [(0x10, 1), (0x11, 1), (0x12, 2), (0x13, 2), (0x14, 3), (0x15, 1), (0x16, 0), (0x20, 2),
    (0x21, 2), (0x30, 2), (0x31, 3), (0x32, 1), (0x33, 1)], ∃ f ∈ (sOne e.1 e.2).find c0, dOpcode f.desc = e.1 ∧
    (sOne e.1 e.2).canCompute f = true := by decide +kernel

/-- MOVE, SLICE, CONCAT, GATHER, SCATTER, TEE, FILL. -/
theorem witness_DataMovementCompletes_1 : ∀ e ∈ [(0x10, 1), (0x11, 1), (0x12, 2), (0x13, 2), (0x14, 3), (0x15, 1), (0x16, 0)],
    (sOne e.1 e.2).Fed c0 (the (sOne e.1 e.2)) e.1 ∧ (the (sOne e.1 e.2)).names 4 := by
  intro e he
  fin_cases he
  all_goals exact ⟨fed_the (by decide +kernel), by decide +kernel, by decide +kernel⟩

/-- MATMUL and MATMUL_BATCHED of one problem. -/
theorem witness_MatrixProductsComplete_1 : (sOne 0x20 2).Fed c0 (the (sOne 0x20 2)) 0x20 ∧ (the (sOne 0x20 2)).names 4 ∧
    0 < (opShape ((the (sOne 0x20 2)).input 1) ((the (sOne 0x20 2)).turned 1)).1 :=
  ⟨fed_the (by decide +kernel), ⟨by decide +kernel, by decide +kernel⟩, by decide +kernel⟩

theorem witness_MatrixProductsComplete_2 : (sOne 0x21 2).Fed c0 (the (sOne 0x21 2)) 0x21 ∧ (the (sOne 0x21 2)).names 4 ∧
    dImm (the (sOne 0x21 2)).desc 0 = 1 ∧ 0 < (problemShape (dSlot (the (sOne 0x21 2)).desc 1) 1).1 ∧
    0 < (problemShape (dSlot (the (sOne 0x21 2)).desc 1) 1).2 :=
  ⟨fed_the (by decide +kernel), ⟨by decide +kernel, by decide +kernel⟩, by decide +kernel, by decide +kernel, by decide +kernel⟩

/-- VEC_CHAIN, ROW_OP, COL_REDUCE, and LACC_SUM of one item. -/
theorem witness_VectorCommandsComplete_1 : ∀ e ∈ [(0x30, 2), (0x31, 3), (0x32, 1), (0x33, 1)],
    (sOne e.1 e.2).Fed c0 (the (sOne e.1 e.2)) e.1 ∧ (the (sOne e.1 e.2)).names 4 ∧ 0 < dImm (the (sOne e.1 e.2)).desc 0 := by
  intro e he
  fin_cases he
  all_goals exact ⟨fed_the (by decide +kernel), ⟨by decide +kernel, by decide +kernel⟩, by decide +kernel⟩

/-- A collective whose group has partition 1 as its only member. -/
def sColl (op : Nat) : State := (ready [dOne op 1] [0] [4]).setReg (key 0x2800 0x10) 0x81

theorem contributed_of {s : State} {f : Found} {op : Nat} {e : Contribution} (h : dOpcode f.desc = op ∧ s.canCompute f = true ∧
    (s.collectiveOf f.p (dGroup f.desc) (dTag f.desc)).any (fun x => x.run.id == f.run.id && x.cmd.idx == f.cmd.idx) = true)
    (hc : s.contributions f [] = some [e]) (hl : e.local_ = some f) (hr : refOf f.p f.run.id f.cmd.idx = c0) (hf : s.Fed c0 f op)
    (hn : f.names 4) : s.Contributed f [] op [e] := by
  refine ⟨h.1, h.2.1, h.2.2, hc, ?_, List.pairwise_singleton _ _⟩
  intro a ha x hx
  rw [List.mem_singleton.1 ha, hl] at hx
  obtain rfl := Option.some.inj hx
  rw [hr]
  exact ⟨hf, hn⟩

theorem found_eq {a b : Found} (h : a.p = b.p ∧ a.run = b.run ∧ a.prog = b.prog ∧ a.cmd = b.cmd ∧ a.desc = b.desc) : a = b := by
  cases a; cases b; simp_all

/-- The one contribution of a group of one member. -/
def brought (s : State) : Contribution := ((s.contributions (the s) []).getD []).headD ⟨⟨.int32, 1, 1, true, [], []⟩, false, none⟩

theorem contributed_the {s : State} {op : Nat} (h : (s.contributions (the s) []).isSome = true ∧
    ((s.contributions (the s) []).getD []).length = 1 ∧ ((brought s).local_).isSome = true)
    (he : (((brought s).local_).getD (the s)).p = (the s).p ∧ (((brought s).local_).getD (the s)).run = (the s).run ∧
      (((brought s).local_).getD (the s)).prog = (the s).prog ∧ (((brought s).local_).getD (the s)).cmd = (the s).cmd ∧
      (((brought s).local_).getD (the s)).desc = (the s).desc)
    (ho : dOpcode (the s).desc = op ∧ s.canCompute (the s) = true ∧
      (s.collectiveOf (the s).p (dGroup (the s).desc) (dTag (the s).desc)).any
        (fun x => x.run.id == (the s).run.id && x.cmd.idx == (the s).cmd.idx) = true)
    (hr : refOf (the s).p (the s).run.id (the s).cmd.idx = c0) (hf : s.Fed c0 (the s) op) (hn : (the s).names 4) :
    s.find c0 = some (the s) ∧ ∃ l, s.Contributed (the s) [] op l := by
  obtain ⟨l, e⟩ := Option.isSome_iff_exists.1 h.1
  have hl := h.2.1
  rw [e] at hl
  obtain ⟨x, rfl⟩ := List.length_eq_one_iff.1 hl
  have hx : brought s = x := by unfold brought; rw [e]; rfl
  have hs : x.local_ = some (the s) := by
    obtain ⟨y, ey⟩ := Option.isSome_iff_exists.1 h.2.2
    have := found_eq he
    rw [ey] at this
    rw [← hx, ey]
    exact congrArg some this
  exact ⟨hf.1, _, contributed_of ho e hs hr hf hn⟩

/-- ALL_REDUCE, ALL_GATHER, REDUCE_SCATTER, BROADCAST. -/
theorem witness_CollectivesComplete_1 : ∀ op ∈ [0x40, 0x41, 0x42, 0x43],
    (sColl op).find c0 = some (the (sColl op)) ∧ ∃ l, (sColl op).Contributed (the (sColl op)) [] op l := by
  intro op ho
  fin_cases ho
  all_goals refine contributed_the ?_ ?_ ?_ ?_ (fed_the ?_) ⟨?_, ?_⟩
  all_goals decide +kernel

theorem witness_CollectivesComplete_2 : ∃ f ∈ (sColl 0x40).find c0, f.cmd.phase = .issued ∧ f.cmd.fixed = none ∧
    dOpcode f.desc / 16 = 4 := by decide +kernel

def stCommandAndRun1 : State := withCmd [0] cmdOf

theorem witness_CommandAndRunEventsComplete_1 : ∃ f ∈ stCommandAndRun1.find c0, stCommandAndRun1.mayIssue f = true ∧
    (stCommandAndRun1.prn f.p).inFlight < 256 ∧ predicate f.prog.header f.desc f.run.ctrs = true ∧
    markerAt f.prog.descs f.run c0.cmd = false ∧ (dReplay f.desc = false ∨ stCommandAndRun1.guardBusy f.p = false) ∧
    stCommandAndRun1.yields f = false ∧
    stCommandAndRun1.refusedAtIssue f (stCommandAndRun1.partsOf f.p f.run f.prog.descs f.cmd.idx) = false ∧
    (∀ x ∈ stCommandAndRun1.partsOf f.p f.run f.prog.descs f.cmd.idx,
    stCommandAndRun1.portBusy f.prog.descs f.cmd.idx x.die = false) := by decide +kernel

/-- A collective of a group that does not list the partition is refused (R125). -/
def stCommandAndRun2 : State := withCmd [dOne 0x40 1] cmdOf

theorem witness_CommandAndRunEventsComplete_2 : ∃ f ∈ stCommandAndRun2.find c0, stCommandAndRun2.mayIssue f = true ∧
    (stCommandAndRun2.prn f.p).inFlight < 256 ∧ predicate f.prog.header f.desc f.run.ctrs = true ∧
    markerAt f.prog.descs f.run c0.cmd = false ∧ (dReplay f.desc = false ∨ stCommandAndRun2.guardBusy f.p = false) ∧
    stCommandAndRun2.yields f = false ∧
    stCommandAndRun2.refusedAtIssue f (stCommandAndRun2.partsOf f.p f.run f.prog.descs f.cmd.idx) = true := by decide +kernel

def stCommandAndRun3 : State := withCmd [2 ^ 27 + 2 ^ 199] cmdOf

theorem witness_CommandAndRunEventsComplete_3 : ∃ f ∈ stCommandAndRun3.find c0, stCommandAndRun3.mayIssue f = true ∧
    (stCommandAndRun3.prn f.p).inFlight < 256 ∧
    (predicate f.prog.header f.desc f.run.ctrs = false ∨ markerAt f.prog.descs f.run c0.cmd = true) := by decide +kernel

/-- A marker stands at queue 5, which the command pops. -/
def stCommandAndRun4 : State := act.modPr 1 (fun r => { r with
  programs := [⟨1, 0, [descOf 0x10 [(0, slotOf 5 0x14 1 1), (4, slotOf 6 0x14 1 1)], descOf 0x10 [(4, slotOf 5 0x14 1 1)]], []⟩]
  runs := [{ runOf with cmds := [{ cmdOf with phase := .issued }], queues := [(5, .marker)] }] })

theorem witness_CommandAndRunEventsComplete_4 : ∃ f ∈ stCommandAndRun4.find c0, markerAt f.prog.descs f.run c0.cmd = true ∧
    (f.cmd.phase = .issued ∨ (f.cmd.phase = .waiting ∧ depsReleased f.prog.descs f.run f.desc = true)) := by decide +kernel

def stCommandAndRun5 : State := withCmd [0] { cmdOf with phase := .computed }

theorem witness_CommandAndRunEventsComplete_5 : ∃ f ∈ stCommandAndRun5.find c0, canComplete f = true ∧
    stCommandAndRun5.mirrored f.p = false := by decide +kernel

def stCommandAndRun6 : State := (withCmd [dOne 0x10 1] { cmdOf with phase := .computed, parts := [⟨0, 0, 1, [], false⟩] }).regs
  [(key 0x2300 3, 1), (rRel 1 3, 4)]

theorem witness_CommandAndRunEventsComplete_6 : ∃ f ∈ stCommandAndRun6.find c0, canComplete f = true ∧
    stCommandAndRun6.mirrored f.p = true ∧ memoryOutputs f.prog.descs c0.cmd ≠ [] ∧ (∀ x ∈ f.cmd.parts, x.fails = []) ∧
    f.cmd.fixed = none := by decide +kernel

def stCommandAndRun7 : State := withCmd [0] { cmdOf with phase := .complete }

theorem witness_CommandAndRunEventsComplete_7 : ∃ r ∈ stCommandAndRun7.run ((0 : PartN).val + 1) 0, r.recording = false ∧
    (∀ c ∈ r.cmds, c.phase = .complete) := by decide +kernel

theorem witness_CommandAndRunEventsComplete_8 : ∃ r ∈ stCommandAndRun1.run ((0 : PartN).val + 1) 0,
    r.recording = false := by decide +kernel

/-- Two commands in flight, each waiting for the other's item for 63 samples. -/
def stCommandAndRun9 : State := act.modPr 1 (fun r => { r with
  programs := [⟨1, 0, [descOf 0x10 [(0, slotOf 5 0x14 1 1), (4, slotOf 6 0x14 1 1)], descOf 0x10 [(0, slotOf 6 0x14 1 1), (4, slotOf 5 0x14 1 1)]], []⟩]
  runs := [{ runOf with cmds := [{ cmdOf with phase := .issued }, { cmdOf with idx := 1, phase := .issued }] }]
  waits := [(((0, 0), (0, 1)), 63), (((0, 1), (0, 0)), 63)] })

theorem witness_CommandAndRunEventsComplete_9 : (stCommandAndRun9.waitEdges 1).map (fun e => (e,
    1 + ((stCommandAndRun9.prn 1).waits.find? (fun w => w.1 == e)).elim 0 (fun w => w.2))) =
      [(((0, 0), (0, 1)), 64), (((0, 1), (0, 0)), 64)] ∧ (∀ e ∈ (act.waitEdges 1).map (fun e => (e, 1)), e.2 < 64) := by
  decide +kernel

/-- A brim stage on port 0 of die 0 with one input and one output, attached. -/
def dBrim : Nat := dOne 0x50 1
def sBrim (descs ends : List Nat) (full : Bool) : State := (withCmd descs { cmdOf with
    phase := .issued
    parts := [⟨0, 0, 1, [], false⟩]
    ends := ends.map (fun i => ⟨i, [1], [], full || decide (i < 4)⟩) }).modBrim 0
  (fun b => { b with attach := [⟨0, 1, 0, 0, 0, false, 0, 0⟩] })

theorem witness_BrimStageCommandsComplete_1 : ∃ f ∈ (sBrim [dBrim] [0, 4] false).find c0, ∃ d ∈ brimStage f (0 : Fin 8).val,
    f.cmd.phase = .issued := by decide +kernel

theorem witness_BrimStageCommandsComplete_2 : ∃ f ∈ (sBrim [dBrim] [0, 4] false).find c0, f.cmd.phase = .issued ∧
    dOpcode (endOf f 4).1 = 0x50 ∧ 4 ≤ (4 : Fin 128).val % 8 ∧ ∃ x ∈ f.cmd.finish 4, x.full = false ∧
    endSize f.prog.descs f.cmd.idx (endOf f 4).2 ≤ ([1, 2, 3, 4] : List Byte).length ∧
    (sBrim [dBrim] [0, 4] false).stageRuns c0 f (4 / 8) = true := by decide +kernel

theorem witness_BrimStageCommandsComplete_3 : ∃ f ∈ (sBrim [dBrim] [0, 4] false).find c0, f.cmd.phase = .issued ∧
    dOpcode (endOf f 4).1 = 0x50 ∧ 4 ≤ (4 : Fin 128).val % 8 ∧ ∃ x ∈ f.cmd.finish 4, x.full = false ∧
    ([1] : List Byte).length < endSize f.prog.descs f.cmd.idx (endOf f 4).2 ∧
    (sBrim [dBrim] [0, 4] false).stageRuns c0 f (4 / 8) = true := by decide +kernel

def stBrimStage4 : State := withCmd [dBrim] { cmdOf with phase := .issued, parts := [⟨0, 0, 1, [0x10], false⟩] }

theorem witness_BrimStageCommandsComplete_4 : ∃ f ∈ stBrimStage4.find c0, f.cmd.phase = .issued ∧ f.cmd.endsEarly = true ∧
    (brimStage f (0 : Fin 8).val).isSome = true := by decide +kernel

theorem witness_BrimStageCommandsComplete_5 : act.find c0 = none := by decide +kernel

theorem witness_BrimStageCommandsComplete_6 : ∃ f ∈ (sBrim [dBrim] [0, 4] false).find c0, ∃ d ∈ brimStage f (0 : Fin 8).val,
    f.cmd.phase = .issued ∧ (sBrim [dBrim] [0, 4] false).stageRuns c0 f (0 : Fin 8).val = true := by decide +kernel

/-- A chain of one stage, MOVE. -/
def sChain : State := ready [0x60 + 2 ^ 8, dOne 0x10 1] [0] [4]

theorem witness_BrimStageCommandsComplete_7 : sChain.Fed c0 (the sChain) 0x60 ∧ brimStages (the sChain) = [] :=
  ⟨fed_the (by decide +kernel), by decide +kernel⟩

/-- A brim stage alone, and a chain of one brim stage. -/
theorem witness_BrimStageCommandsComplete_8 : ∀ e ∈ [(0x50, [dBrim]), (0x60, [0x60 + 2 ^ 8, dBrim])],
    (sBrim e.2 [0, 4] true).Fed c0 (the (sBrim e.2 [0, 4] true)) e.1 ∧
    (sBrim e.2 [0, 4] true).brimReady c0 (the (sBrim e.2 [0, 4] true)) = true ∧ brimStages (the (sBrim e.2 [0, 4] true)) ≠ [] := by
  intro e he
  fin_cases he
  all_goals exact ⟨fed_the (by decide +kernel), by decide +kernel, by decide +kernel⟩

/-- A block of one matrix step that begins and ends a column group, and a work unit of partition 1 with it on tile 0 of die 0. -/
def blk : Block := ⟨true, 0, false, 0, 0, 1, 0, 1, 512, true, 1, 1, true, true, true, false, 256, 0, 0, false⟩
def wrk (plan : List Block) (active : Option Block) : Work := ⟨1, 0, 0, 0, 0, 0, false, false, plan, 0, active, 0, true⟩
def sTile (halves : Nat) : State := { ready [dOne 0x20 2] [0, 1] [4] with
  works := [wrk [blk] none]
  arrays := [(0, { TileArray.blank with halves := (List.range halves).map (fun i => ⟨1, 0, 0, 0, 0, 0, i, false, [], true⟩) })] }

theorem witness_TileAndCheckEventsComplete_1 : (sTile 0).tileUp 0 0 = true ∧ (sTile 0).activeWaits 0 0 = false ∧
    (sTile 0).works.all (fun w => w.active.isNone) = true ∧ (sTile 0).nextWork 0 0 = some (wrk [blk] none) ∧
    ((sTile 0).find (refOf 1 0 0)).isSome = true ∧ ((sTile 0).array 0 0).halves.length < 2 := by decide +kernel

theorem witness_TileAndCheckEventsComplete_2 : (sTile 2).tileUp 0 0 = true ∧ (sTile 2).activeWaits 0 0 = false ∧
    (sTile 2).works.all (fun w => w.active.isNone) = true ∧ (sTile 2).nextWork 0 0 = some (wrk [blk] none) ∧
    ((sTile 2).find (refOf 1 0 0)).isSome = true ∧ blk.half = true ∧ blk.first = true ∧ 2 ≤ ((sTile 2).array 0 0).halves.length := by
  decide +kernel

theorem witness_TileAndCheckEventsComplete_3 : (sTile 1).works.any (fun w => w.die == 0 && w.tile == 0 && w.active.any (fun b =>
    b.half && b.last)) = false ∧ (((sTile 1).array 0 0).halves.find? (fun h => h.done && !(sTile 1).rowOpIn 0 0 h)).isSome = true := by
  decide +kernel

theorem witness_TileAndCheckEventsComplete_4 : (sTile 0).works.any (fun w => w.die == 0 && w.tile == 0 && w.active.any (fun b =>
    b.half && b.last)) = false ∧ ((sTile 0).array 0 0).halves = [] := by decide +kernel

def stTileAndCheck5 : State := { act with tests := [(10, true)] }

theorem witness_TileAndCheckEventsComplete_5 : (stTileAndCheck5.tests.find? (fun e => e.1 == ((1 : DieC).val * 8 + (2 :
    TileN).val))).isSome = true := by decide +kernel

def stTileAndCheck6 : State := { withCmd [0x20] { cmdOf with phase := .computed, samples := [⟨0, 3, 5⟩] } with
  works := [{ wrk [] none with tile := 3 }] }

theorem witness_TileAndCheckEventsComplete_6 : ∃ f ∈ stTileAndCheck6.find c0, ∃ x ∈ f.cmd.samples.find? (fun x => x.unit == 0),
    f.cmd.phase = .computed ∧ (∀ w ∈ stTileAndCheck6.works, w.p = f.p → w.run = c0.run → w.cmd = c0.cmd → w.unit = 0 →
      workOver f w = true) := by decide +kernel

def stTileAndCheck7 : State := withCmd [0x20010] { cmdOf with phase := .computed, parts := [⟨0, 0, 1, [], false⟩], replays := [⟨1, 0, 1, [], false⟩] }

theorem witness_TileAndCheckEventsComplete_7 : ∃ f ∈ stTileAndCheck7.find c0, stTileAndCheck7.replayOver f = true ∧
    (∀ x ∈ f.cmd.parts, x.fails = []) ∧ (∀ x ∈ f.cmd.replays, x.fails = []) := by decide +kernel

def stTileAndCheck9 : State := act.regs [(rReplica 0 1, 100), (rReplica 0 0x10, 0x8100000000000000)]

theorem witness_TileAndCheckEventsComplete_9 : stTileAndCheck9.reg (rReplica (0 : GroupN).val 1) ≠ 0 ∧
    stTileAndCheck9.replicaMembers (0 : GroupN).val ≠ [] ∧
    ∃ l ∈ (stTileAndCheck9.replicaMembers (0 : GroupN).val).mapM (stTileAndCheck9.replicaDigest (0 : GroupN).val []), (∀ e ∈ l,
    e.2 = (l.headD (0, 0)).2) := by decide +kernel

def stTileAndCheck10 : State := act.regs [(rReplica 0 1, 100), (rReplica 0 2, 0), (rReplica 0 0x10, 0x8100000000000000), (rReplica 0 0x11, 0xC200000000000000)]

theorem witness_TileAndCheckEventsComplete_10 : stTileAndCheck10.reg (rReplica (0 : GroupN).val 1) ≠ 0 ∧
    stTileAndCheck10.replicaMembers (0 : GroupN).val ≠ [] ∧
    ∃ l ∈ (stTileAndCheck10.replicaMembers (0 : GroupN).val).mapM (stTileAndCheck10.replicaDigest (0 : GroupN).val [((1 : Fin 16),
    (1 : W64))]), (∃ e ∈ l, e.2 ≠ (l.headD (0, 0)).2) := by decide +kernel

def stTileAndCheck12 : State := withCmd [0x10] { cmdOf with phase := .computed, mirror := some 5 }

theorem witness_TileAndCheckEventsComplete_12 : ∃ f ∈ stTileAndCheck12.find c0, ∃ a ∈ f.cmd.mirror,
    f.cmd.phase = .computed := by decide +kernel

/-- A command with HEAVY_AHEAD and a HEAVY_LEAD of 1 µs that depends on nothing. -/
def stBlockerPeriods1 : State := withCmd [2 ^ 202 + 2 ^ 216] cmdOf

theorem witness_BlockerPeriodsComplete_1 : ∃ f ∈ stBlockerPeriods1.find c0, dHeavyAhead f.desc = true ∧ f.cmd.heavy = false ∧
    f.cmd.phase = .waiting ∧ dHeavyLead f.desc ≠ 0 ∧ dDeps f.desc = [] := by decide +kernel

def mig3 : Migration := ⟨0, 128, 0, 2, 1, true, digest64 [], 128, 0, false⟩
def stBlockerPeriods3 (g : Migration) : State := act.modPr 1 (fun r => { r with
  copies := [⟨0, 128, 0, 2, [], [], [], [], 0, 0, 0, [], false, false, []⟩], migs := [g] })

theorem witness_BlockerPeriodsComplete_3 : ((stBlockerPeriods3 { mig3 with bad := true }).prn 1).migs.find? (fun g => g.left == 0) =
    some { mig3 with bad := true } ∧ (((stBlockerPeriods3 { mig3 with bad := true }).prn 1).copies.find? (fun x => x.die == mig3.src &&
    x.addr == mig3.addr && x.len == mig3.len && x.kind == mig3.kind && !x.dropped)).isSome = true := by decide +kernel

theorem witness_BlockerPeriodsComplete_4 : ((stBlockerPeriods3 { mig3 with src := 3 }).prn 1).migs.find? (fun g => g.left == 0) =
    some { mig3 with src := 3 } ∧ (∀ x ∈ ((stBlockerPeriods3 { mig3 with src := 3 }).prn 1).copies, x.die ≠ 3) := by decide +kernel

theorem witness_BlockerPeriodsComplete_5 : ((stBlockerPeriods3 mig3).prn 1).migs.find? (fun g => g.left == 0) = some mig3 ∧
    (∃ x ∈ ((stBlockerPeriods3 mig3).prn 1).copies.find? (fun x => x.die == mig3.src && x.addr == mig3.addr && x.len == mig3.len &&
      x.kind == mig3.kind && !x.dropped), digest64 x.bytes = mig3.digest) ∧ mig3.bad = false ∧
    (stBlockerPeriods3 mig3).live mig3.dst = true := by decide +kernel

def stDsp1 (op : Nat) : State := (act.setReg (rLoad 0 8) 1).modBrim 0 (fun b => { b with dsp := [(127, ⟨[op * 2 ^ 28], 9, 0, true, false, 0, []⟩)] })

theorem witness_DspCommandsComplete_1 : ∀ op ∈ [1, 2, 3, 4, 5, 7], ∃ w ∈ (stDsp1 op).dspWord (0 : DieC).val (127 : Fin 1536).val,
    iOp w = op ∧ ((stDsp1 op).dsp (0 : DieC).val (127 : Fin 1536).val).acc = 9 := by decide +kernel

def stDsp2 : State := (act.setReg (rLoad 0 8) 1).modBrim 0 (fun b => { b with dsp := [(127, ⟨[1610612775], 0, 0, true, false, 0, []⟩)] })

theorem witness_DspCommandsComplete_2 : ∃ w ∈ stDsp2.dspWord (0 : DieC).val (127 : Fin 1536).val, iOp w = 6 ∧
    (iImm w % 64) < 40 := by decide +kernel

def stDsp3 : State := (act.setReg (rLoad 0 8) 1).modBrim 0 (fun b => { b with dsp := [(127, ⟨[1610612776], 0, 0, true, false, 0, []⟩)] })

theorem witness_DspCommandsComplete_3 : ∃ w ∈ stDsp3.dspWord (0 : DieC).val (127 : Fin 1536).val, iOp w = 6 ∧
    40 ≤ iImm w % 64 := by decide +kernel

def stDsp4 : State := (act.setReg (rLoad 0 8) 1).modBrim 0 (fun b => { b with dsp := [(127, ⟨[0], 0, 0, true, false, 0, []⟩)] })

theorem witness_DspCommandsComplete_4 : ∃ w ∈ stDsp4.dspWord (0 : DieC).val (127 : Fin 1536).val, iOp w = 0 := by decide +kernel

def stDsp5 : State := (act.setReg (rLoad 0 8) 1).modBrim 0 (fun b => { b with dsp := [(127, ⟨[2147483648], 0, 0, true, false, 0, []⟩)] })

theorem witness_DspCommandsComplete_5 : ∃ w ∈ stDsp5.dspWord (0 : DieC).val (127 : Fin 1536).val, iOp w = 8 ∧
    (stDsp5.dsp (0 : DieC).val (127 : Fin 1536).val).rep = 0 := by decide +kernel

def stDsp6 : State := (act.setReg (rLoad 0 8) 1).modBrim 0 (fun b => { b with dsp := [(127, ⟨[4026531840], 0, 0, true, false, 0, []⟩)] })

theorem witness_DspCommandsComplete_6 : ∃ w ∈ stDsp6.dspWord (0 : DieC).val (127 : Fin 1536).val, iOp w = 15 ∧
    (stDsp6.dsp (0 : DieC).val (127 : Fin 1536).val).rep = 0 := by decide +kernel

theorem witness_DspCommandsComplete_7 : stDsp4.regionRuns (0 : DieC).val ((127 : Fin 1536).val / 128) = true ∧
    (stDsp4.dsp (0 : DieC).val (127 : Fin 1536).val).rep = 0 := by decide +kernel

def stDsp8 : State := (act.setReg (rLoad 0 8) 1).modBrim 0 (fun b => { b with dsp := [(127, ⟨[0], 0, 0, true, false, 1, []⟩)] })

theorem witness_DspCommandsComplete_8 : stDsp8.regionRuns (0 : DieC).val ((127 : Fin 1536).val / 128) = true ∧
    0 < (stDsp8.dsp (0 : DieC).val (127 : Fin 1536).val).rep := by decide +kernel

def stDsp9 : State := act.setReg (rLoad 47 8) 0x200

theorem witness_DspCommandsComplete_9 : stDsp9.regionRuns (pinDie (15 : Fin 16).val) (pinRegion (15 : Fin 16).val (95 : Fin
    96).val) = true := by decide +kernel

theorem witness_LoadCommandsComplete_1 : act.cfg.selected = false := by decide +kernel

def stLoad2 : State := { act with cfg := ⟨true, false, none, false⟩ }

theorem witness_LoadCommandsComplete_2 : stLoad2.cfg.selected = true ∧ stLoad2.cfg.die = none := by decide +kernel

def stLoad3 : State := { State.modBrim act 0 (fun b => { b with loads := [⟨1, 2, 3, 0, [], 0⟩] }) with cfg := ⟨true, false, some 0, false⟩ }

theorem witness_LoadCommandsComplete_3 : stLoad3.cfg.selected = true ∧ stLoad3.cfg.die = some 0 ∧
    ∃ l ∈ stLoad3.loadOf 0, l.path = 1 ∧ l.stage < 4 := by decide +kernel

def stLoad4 : State := (act.setReg (rLoad 0 8) 4).modBrim 0 (fun b => { b with trimRegion := 2 })

theorem witness_LoadCommandsComplete_4 : (stLoad4.brim (0 : DieC).val).trimRegion ≠ 15 ∧
    stLoad4.regionRuns (0 : DieC).val (stLoad4.brim (0 : DieC).val).trimRegion = true ∧
    (∀ l ∈ (stLoad4.brim (0 : DieC).val).loads, l.path ≠ 3) := by decide +kernel

def stLoad5 : State := act.modBrim 0 (fun b => { b with loads := [⟨3, 2, 3, 0, [], 0⟩] })

theorem witness_LoadCommandsComplete_5 : ((stLoad5.brim (0 : DieC).val).loads.find? (fun l => l.path == 3)).isSome =
    true := by decide +kernel

def stLoad6 : State := act.modBrim 0 (fun b => { b with loads := [⟨2, 0, 3, 0, [], 0⟩] })

theorem witness_LoadCommandsComplete_6 : ∃ l ∈ stLoad6.loadOf (0 : DieC).val, l.stage = 0 ∧
    (l.path ≠ 2 ∨ stLoad6.stagedLoads < 8) := by decide +kernel

def stLoad7 : State := act.modBrim 0 (fun b => { b with loads := [⟨1, 1, 3, 0, [], 0⟩] })

theorem witness_LoadCommandsComplete_7 : ∃ l ∈ stLoad7.loadOf (0 : DieC).val, l.stage = 1 ∧
    (stLoad7.imageBytes (0 : DieC).val l.path 0 (min 4096 (stLoad7.reg (rLoad (0 : DieC).val 2))) ([] : List Byte)).2 =
    false := by decide +kernel

theorem witness_LoadCommandsComplete_8 : stLoad2.loadOf (0 : DieC).val = none ∧ stLoad2.cfg.selected = true ∧
    stLoad2.cfg.die = none ∧ ihDiePos (leNat (slice ([] : List Byte) 0 512)) = (0 : DieC).val := by decide +kernel

def stLoad9 : State := act.modBrim 0 (fun b => { b with loads := [⟨1, 2, 3, 340282366920938463463374607431768211456, [], 0⟩] })

theorem witness_LoadCommandsComplete_9 : ∃ l ∈ stLoad9.loadOf (0 : DieC).val, l.stage = 2 := by decide +kernel

def ldLoad10 : Load := ⟨1, 3, 3, 2 ^ 128 + 2560 * 2 ^ 160, [], 0⟩

def stLoad10 : State := act.modBrim 0 (fun b => { b with loads := [ldLoad10] })

def bytesLoad10 : List Byte := leBytes 8 (0x30FCEDC0 * 2 ^ 32) ++ List.replicate 512 0

theorem witness_LoadCommandsComplete_10 : stLoad10.loadOf (0 : DieC).val = some ldLoad10 ∧ ldLoad10.stage = 3 ∧
    (stLoad10.imageBytes (0 : DieC).val ldLoad10.path (recordAt ldLoad10.header ldLoad10.frames) 520 bytesLoad10).2 = false ∧
    crc32c (slice (slice (stLoad10.imageBytes (0 : DieC).val ldLoad10.path (recordAt ldLoad10.header ldLoad10.frames) 520 bytesLoad10).1
      0 520) 8 512) = bits (leNat (slice (slice bytesLoad10 0 520) 0 8)) 63 32 ∧
    recordPlace ldLoad10.header ldLoad10.frames = (bits (leNat (slice (slice bytesLoad10 0 520) 0 8)) 15 12,
      bits (leNat (slice (slice bytesLoad10 0 520) 0 8)) 11 0) := by
  have e : slice (slice (stLoad10.imageBytes (0 : DieC).val ldLoad10.path (recordAt ldLoad10.header ldLoad10.frames) 520
      bytesLoad10).1 0 520) 8 512 = List.replicate 512 (0 : Byte) := by decide +kernel
  rw [e, crc_of_a_blank_frame]
  decide +kernel

def stLoad11 : State := act.modBrim 0 (fun b => { b with loads := [⟨1, 3, 3, 3741444191567451752968354110217147904926619078230016, [], 0⟩] })

theorem witness_LoadCommandsComplete_11 : ∃ l ∈ stLoad11.loadOf (0 : DieC).val, l.stage = 3 ∧
    (stLoad11.imageBytes (0 : DieC).val l.path (recordAt l.header l.frames) 520 (leBytes 520 0)).2 = false := by decide +kernel

def stLoad12 : State := act.modBrim 0 (fun b => { b with loads := [⟨1, 4, 3, 0, [], 0⟩] })

theorem witness_LoadCommandsComplete_12 : ∃ l ∈ stLoad12.loadOf (0 : DieC).val, l.stage = 4 := by decide +kernel

def stLoad13 : State := act.modBrim 0 (fun b => { b with loads := [⟨1, 5, 3, 2 ^ 128, [], 2560⟩] })

theorem witness_LoadCommandsComplete_13 : ∃ l ∈ stLoad13.loadOf (0 : DieC).val, l.stage = 5 := by decide +kernel

def stPounce1 : State := act.setReg (rLoad 0 8) 1

theorem witness_PounceCommandsComplete_1 : (stPounce1.brim (0 : DieC).val).correct = none ∧
    (stPounce1.pounceAt (0 : DieC).val (stPounce1.brim (0 : DieC).val).pounce).isSome = true := by decide +kernel

def stPounce2 : State := act.modBrim 0 (fun b => { b with correct := some 7 })

theorem witness_PounceCommandsComplete_2 : (stPounce2.brim (0 : DieC).val).correct = some 7 := by decide +kernel

theorem witness_LaneTrainingCompletes_1 : (15 : Nat) < 16 ∧ (62 : LaneN) ≠ 63 := by decide +kernel

def stLaneTraining2 : State := act.regs [(rLaneState 0 63, lnSend)]

theorem witness_LaneTrainingCompletes_2 : stLaneTraining2.live (48 + (0 : GroupN).val) = true ∧
    stLaneTraining2.laneState (0 : GroupN).val (63 : LaneN).val = lnSend := by decide +kernel

def stLaneTraining3 : State := act.regs [(rLaneState 0 63, lnAlign)]

theorem witness_LaneTrainingCompletes_3 : stLaneTraining3.live (48 + (0 : GroupN).val) = true ∧
    stLaneTraining3.laneState (0 : GroupN).val (63 : LaneN).val = lnAlign := by decide +kernel

theorem witness_LaneTrainingCompletes_4 : stLaneTraining3.live (48 + (0 : GroupN).val) = true ∧
    stLaneTraining3.laneState (0 : GroupN).val (63 : LaneN).val = lnAlign := by decide +kernel

def stLaneTraining5 : State := act.regs [(rLaneState 0 63, lnEq)]

theorem witness_LaneTrainingCompletes_5 : stLaneTraining5.live (48 + (0 : GroupN).val) = true ∧
    stLaneTraining5.laneState (0 : GroupN).val (63 : LaneN).val = lnEq := by decide +kernel

def stLaneTraining6 : State := act.regs [(rLaneState 0 63, lnCheck)]

theorem witness_LaneTrainingCompletes_6 : stLaneTraining6.live (48 + (0 : GroupN).val) = true ∧
    stLaneTraining6.laneState (0 : GroupN).val (63 : LaneN).val = lnCheck := by decide +kernel

theorem witness_LaneTrainingCompletes_7 : stLaneTraining6.live (48 + (0 : GroupN).val) = true ∧
    stLaneTraining6.laneState (0 : GroupN).val (63 : LaneN).val = lnCheck ∧
    ((62 : Byte).toNat ≠ (63 : LaneN).val ∨ (0 : Byte).toNat ≠ (0 : GroupN).val) := by decide +kernel

def stLaneTraining8 : State := act.regs [(rLaneState 0 63, lnCheck), (rLane 0 1, 1)]

theorem witness_LaneTrainingCompletes_8 : stLaneTraining8.live (48 + (0 : GroupN).val) = true ∧
    stLaneTraining8.laneState (0 : GroupN).val (63 : LaneN).val = lnCheck ∧ (63 : Byte).toNat = (63 : LaneN).val ∧
    (0 : Byte).toNat = (0 : GroupN).val ∧ (stLaneTraining8.laneUse (0 : GroupN).val ≠ 1 ∨ ((1 : Byte).toNat ≠ stLaneTraining8.reg
    (rLink 1) ∧ (0 : BitVec 16).toNat = stLaneTraining8.reg (rLink 2))) := by decide +kernel

def stLaneTraining9 : State := act.regs [(rLaneState 0 63, lnUp)]

theorem witness_LaneTrainingCompletes_9 : stLaneTraining9.live (48 + (0 : GroupN).val) = true ∧
    stLaneTraining9.laneState (0 : GroupN).val (63 : LaneN).val = lnUp := by decide +kernel

theorem witness_MismatchedTs2KeepsCheck_1 : stLaneTraining8.live (48 + (0 : GroupN).val) = true ∧
    stLaneTraining8.laneState (0 : GroupN).val (63 : LaneN).val = lnCheck ∧ stLaneTraining8.laneUse (0 : GroupN).val = 1 ∧
    (63 : Byte).toNat = (63 : LaneN).val ∧ (0 : Byte).toNat = (0 : GroupN).val ∧
    ((0 : Byte).toNat = stLaneTraining8.reg (rLink 1) ∨ (0 : BitVec 16).toNat ≠ stLaneTraining8.reg (rLink
    2)) := by decide +kernel

def stGroup1 (m : Nat) : State := (act.regs [(rLane 0 1, 1), (rLane 0 3, 1), (rLink 6, 32), (rLane 0 5, m)]).modLg 0 (fun x => { x with firstUp := some 9 })

theorem witness_GroupEventsComplete_1 : ∃ a ∈ ((stGroup1 0xFFFFFFFF).lg (0 : GroupN).val).firstUp, a = 9 ∧
    (stGroup1 0xFFFFFFFF).laneUse (0 : GroupN).val = 1 ∧ (stGroup1 0xFFFFFFFF).groupState (0 : GroupN).val ≠ 2 ∧
    (stGroup1 0xFFFFFFFF).live (48 + (0 : GroupN).val) = true ∧
    (stGroup1 0xFFFFFFFF).reg (rLink 6) ≤ popcount 64 ((stGroup1 0xFFFFFFFF).lanesUp (0 : GroupN).val) := by decide +kernel

def stGroup2 : State := act.regs [(rLane 0 1, 1), (rLane 0 3, 1)]

theorem witness_GroupEventsComplete_2 : stGroup2.laneUse (0 : GroupN).val = 1 ∧
    stGroup2.groupState (0 : GroupN).val = 1 := by decide +kernel

def stGroup3 : State := (act.regs [(rLane 0 1, 1), (rLane 0 3, 2)]).modLg 0 (fun x => { x with stripe := 1, partner := 1 })

theorem witness_GroupEventsComplete_3 : stGroup3.groupUp (0 : GroupN).val = true ∧
    (stGroup3.lg (0 : GroupN).val).stripe &&& stGroup3.lanesUp (0 : GroupN).val &&& (stGroup3.lg (0 : GroupN).val).partner ≠
    (stGroup3.lg (0 : GroupN).val).stripe := by decide +kernel

def stGroup4 : State := act.regs [(rLane 0 1, 1), (rLane 0 3, 2)]

theorem witness_GroupEventsComplete_4 : stGroup4.groupUp (0 : GroupN).val = true := by decide +kernel

theorem witness_GroupEventsComplete_5 : act.groupUp (0 : GroupN).val = false := by decide +kernel

def stGroup6 : State := act.setReg (rLane 0 1) 1

theorem witness_GroupEventsComplete_6 : stGroup6.laneUse (0 : GroupN).val = 1 := by decide +kernel

def stFrame1 : State := (act.regs [(rLane 0 1, 1), (rLane 0 3, 2)]).modLg 0 (fun x => { x with rxSeq := 65541 })

theorem witness_FrameEventsComplete_1 : stFrame1.groupUp (0 : GroupN).val = true ∧
    headOk (0xD6528D6F00000000000000000000000000000000000000000000000000000005 : BitVec 256) = true ∧
    bits (0xD6528D6F00000000000000000000000000000000000000000000000000000005 : BitVec 256).toNat 35 34 = 0 ∧
    bits (0xD6528D6F00000000000000000000000000000000000000000000000000000005 : BitVec 256).toNat 15 0 = (stFrame1.lg (0 :
    GroupN).val).rxSeq % 65536 := by decide +kernel

theorem witness_FrameEventsComplete_2 : stGroup4.groupUp (0 : GroupN).val = true ∧
    (true = false ∨ headOk (0xD6528D6F00000000000000000000000000000000000000000000000000000005 : BitVec 256) = false ∨ bits
    (0xD6528D6F00000000000000000000000000000000000000000000000000000005 : BitVec 256).toNat 35 34 ≠ 0 ∨ bits
    (0xD6528D6F00000000000000000000000000000000000000000000000000000005 : BitVec 256).toNat 15 0 ≠ (stGroup4.lg (0 :
    GroupN).val).rxSeq % 65536) := by decide +kernel

theorem witness_FrameEventsComplete_3 : stGroup4.groupUp (0 : GroupN).val = true ∧
    headOk (0x34B56AB500000000000000000000000000000000000000000000000400000005 : BitVec 256) = true ∧
    bit (0x34B56AB500000000000000000000000000000000000000000000000400000005 : BitVec 256).toNat 37 = false := by decide +kernel

theorem witness_FrameEventsComplete_4 : stGroup4.groupUp (0 : GroupN).val = true ∧
    headOk (0x3A0F14B200000000000000000000000000000000000000000000002400000005 : BitVec 256) = true ∧
    bit (0x3A0F14B200000000000000000000000000000000000000000000002400000005 : BitVec 256).toNat 37 = true := by decide +kernel

def stFrame5 : State := act.modLg 0 (fun x => { x with owed := some 9 })

theorem witness_FrameEventsComplete_5 : ((stFrame5.lg (0 : GroupN).val).owed).isSome = true := by decide +kernel

theorem witness_FrameEventsComplete_6 : stGroup4.groupUp (0 : GroupN).val = true ∧
    headOk (0xD6528D6F00000000000000000000000000000000000000000000000000000005 : BitVec 256) = true := by decide +kernel

theorem witness_FrameEventsComplete_7 : stGroup4.groupUp (0 : GroupN).val = true ∧
    headOk (5 : BitVec 256) = false := by decide +kernel

def stFrame8 : State := (act.regs [(rLane 0 1, 1), (rLane 0 3, 2)]).modLg 0 (fun x => { x with unacked := [⟨0, 1, 0, 0, []⟩] })

theorem witness_FrameEventsComplete_8 : stFrame8.groupUp (0 : GroupN).val = true ∧
    (stFrame8.lg (0 : GroupN).val).unacked ≠ [] := by decide +kernel

theorem witness_ClockAndRailEventsComplete_1 : ∃ (c : Nat) (u : State) (f : Nat × Nat), c = (47 : DieC).val ∧
    u = act.modDp c (fun x => { x with demand := ((9 : BitVec 16).toNat :: x.demand).take 640, energy := x.energy + (1 : W32).toNat }) ∧
    f = u.bubbleFraction c := ⟨_, _, _, rfl, rfl, rfl⟩

theorem witness_ClockAndRailEventsComplete_2 : (47 : DieN).val < 48 ∧ 500 ≤ (500 : BitVec 16).toNat := by decide +kernel

theorem witness_ClockAndRailEventsComplete_3 : (47 : DieN).val < 48 ∧ (499 : BitVec 16).toNat < 500 ∧
    act.live (47 : DieN).val = true ∧ act.rst.step = 0 := by decide +kernel

theorem witness_ClockAndRailEventsComplete_4 : 48 ≤ (48 : DieN).val ∧
    0 < (sumL ([((0 : PartN), (1 : W32))].map (fun e => e.2.toNat))) := by decide +kernel

theorem witness_ClockAndRailEventsComplete_5 : act.inFloor ((47 : DieC).val) = false ∧
    act.live ((47 : DieC).val) = true := by decide +kernel

theorem witness_ClockAndRailEventsComplete_7 : act.reg (rState ((0 : PartN).val + 1)) ≠ 0 ∧ act.rst.step = 0 ∧
    (act.liveDies ((0 : PartN).val + 1)).any act.inFloor = false := by decide +kernel

def stClockAndRail8 : State := { act with power := { act.power with switching := [(5, 2)] } }

theorem witness_ClockAndRailEventsComplete_8 : ((5 : DieN).val,
    (2 : Fin 4).val) ∈ stClockAndRail8.power.switching.take 4 := by decide +kernel

theorem witness_PowerManagerEventsComplete_1 : act.managing = true := by decide +kernel

def stPowerManager2 : State := act.setReg (rPkg 7) 1

theorem witness_PowerManagerEventsComplete_2 : 0 < (1000 * stPowerManager2.reg (rPkg 7)) ∧
    stPowerManager2.managing = true := by decide +kernel

theorem witness_PowerManagerEventsComplete_3 : 0 < (1000 * stPowerManager2.reg (rPkg 7)) ∧
    stPowerManager2.managing = true := by decide +kernel

theorem witness_AlertAndThermalEventsComplete_1 : (Rail.core 5) ∉ act.power.alerts := by decide +kernel

def stAlertAndThermal2 : State := { act with power := { act.power with alerts := [Rail.core 1] } }

theorem witness_AlertAndThermalEventsComplete_2 : (stAlertAndThermal2.dp (1 : DieC).val).trip = none ∧
    (∀ d ∈ ((stAlertAndThermal2.dieOwner (1 : DieC).val).elim [(1 : DieC).val] stAlertAndThermal2.diesOf), ∀ x : DieC,
    Rail.core x ∈ ({ stAlertAndThermal2 with power := { stAlertAndThermal2.power with alerts := stAlertAndThermal2.power.alerts.filter (fun r => r != Rail.core (1 : DieC)) } }).power.alerts → x.val ≠ d) := by decide +kernel

theorem witness_AlertAndThermalEventsComplete_3 : (∀ c, Rail.aux ≠ .core c) := by decide +kernel

theorem witness_AlertAndThermalEventsComplete_4 : (48 ≤ (48 : DieN).val ∨ act.live (48 : DieN).val = false) := by decide +kernel

theorem witness_AlertAndThermalEventsComplete_5 : (47 : DieN).val < 48 ∧ act.live (47 : DieN).val = true ∧
    (1839 : BitVec 16).toInt < 16 * 115 := by decide +kernel

theorem witness_AlertAndThermalEventsComplete_6 : (47 : DieN).val = (47 : DieC).val ∧ act.live (47 : DieC).val = true ∧
    16 * 115 ≤ (1840 : BitVec 16).toInt ∧ (act.dp (47 : DieC).val).trip = none := by decide +kernel

def stAlertAndThermal7 : State := act.modDp 0 (fun x => { x with hot := true })

theorem witness_AlertAndThermalEventsComplete_7 : stAlertAndThermal7.reg (rState ((0 : PartN).val + 1)) ≠ 0 ∧
    (stAlertAndThermal7.liveDies ((0 : PartN).val + 1)).any (fun c => (stAlertAndThermal7.dp c).hot) = true := by decide +kernel

theorem witness_AlertAndThermalEventsComplete_8 : (400 : BitVec 16) ≠ 0x7FFF ∧ (400 : BitVec 16) ≠ 0x7FFF ∧
    aboveCoolant (400 : BitVec 16) (((act.setReg (rPkg 0x10) (400 : BitVec 16).toNat).setReg (rPkg 0x11) (400 : BitVec
    16).toNat).reg (rPkg 9)) = false ∧ aboveCoolant (400 : BitVec 16) (((act.setReg (rPkg 0x10) (400 : BitVec 16).toNat).setReg
    (rPkg 0x11) (400 : BitVec 16).toNat).reg (rPkg 0xA)) = false := by decide +kernel

theorem witness_AlertAndThermalEventsComplete_9 : (none : Option (BitVec 16)) = none ∧
    (∃ x, some (0x7FFF : BitVec 16) = some x ∧ (x = 0x7FFF ∨ aboveCoolant x (act.reg (rPkg 0xA)) = true)) :=
  ⟨rfl, _, rfl, .inl rfl⟩

def stAlertAndThermal10 : State := { act.setReg (rPkg 0x12) 1 with power := { act.power with cool := some 5 } }

theorem witness_AlertAndThermalEventsComplete_10 : stAlertAndThermal10.power.cool = some 5 ∧
    stAlertAndThermal10.reg (rPkg 0x12) = 1 := by decide +kernel

end Sys2Proof.Tests
end

section
/-! PROOFS. The number formats of chapter 2: the encodings of R18, the zeros and invalid operations of R25, and the comparisons,
maximum and minimum of R27. -/

namespace Sys2Proof.Machine

/-! ### Zeros and invalid operations (R25) -/

/-- Rounding never changes the sign of a number that it leaves finite. -/
theorem roundTo_sign {f : Flt} {a s : Bool} {m q : Nat} {e u : Int} (h : roundTo f (.num a m e) = .num s q u) : s = a := by
  simp only [roundTo] at h
  split at h
  · cases h
  · cases h; rfl

theorem vadd_zeros (a b : Bool) (e g : Int) : vadd (.num a 0 e) (.num b 0 g) = .num (a && b) 0 0 := rfl

/-- The model's sum takes its sign from the exact sum, which is not negative when it is zero. -/
theorem vadd_exact_zero_sign {a b s : Bool} {m n : Nat} {e g u : Int} (hm : m ≠ 0)
    (h : vadd (.num a m e) (.num b n g) = .num s 0 u) : s = false := by
  simp only [vadd, hm, decide_false, Bool.false_and, Bool.false_eq_true, if_false, Val.num.injEq, Int.natAbs_eq_zero] at h
  obtain ⟨hs, hz, -⟩ := h
  rw [← hs, hz]
  rfl

/-- Settles O8: rounding keeps the sign of the exact result, so the signs are those of the exact product and sum. -/
theorem signsOfZeros : Obligations.SignsOfZeros := by
  intro f hf a b m n e g
  refine ⟨fun s u h => roundTo_sign h, fun hz => ?_, ?_, fun hm _ s u h => ?_, rfl, rfl, ?_⟩
  · have hmul : m * n = 0 := Nat.mul_eq_zero.2 hz
    rw [fmul, vmul, hmul]
    exact roundTo_zero f hf _ _
  · rw [fadd, vadd_zeros]
    exact roundTo_zero f hf _ _
  · rw [fadd, h, vadd_exact_zero_sign hm h]
    exact roundTo_zero f hf _ _
  · cases a <;> rfl

/-! ### Encodings (R18) -/

/-- The exponent width, fraction width and bias of the formats with a sign, as the table of R17 gives them. -/
def fltFields : List (Fmt × Nat × Nat × Nat) :=
  [(.e4m3, 4, 3, 7), (.mx8e4m3, 4, 3, 7), (.e5m2, 5, 2, 15), (.mx8e5m2, 5, 2, 15), (.mx6e3m2, 3, 2, 3), (.mx6e2m3, 2, 3, 1),
    (.mx4, 2, 1, 1), (.bf16, 8, 7, 127), (.fp16, 5, 10, 15), (.fp32, 8, 23, 127), (.fp64, 11, 52, 1023)]

/-- The model's layouts agree with the tables of R17 and R18: the fields, and which formats have infinities or only a top NaN. -/
theorem fltOf_of_mem_fltFields : ∀ x ∈ fltFields, ∃ l ∈ fltOf x.1, x.2 = (l.eb, l.fb, l.bias) ∧ 1 ≤ l.eb ∧ 1 ≤ l.fb ∧
    (l.ieee && l.topNan) = false ∧
    (l.ieee = true ↔ x.1 ∈ [Fmt.e5m2, .mx8e5m2, .bf16, .fp16, .fp32, .fp64]) ∧
    (l.topNan = true ↔ x.1 ∈ [Fmt.e4m3, .mx8e4m3]) := by
  decide

theorem decodeElem_of_layout {f : Fmt} {l : Flt} (h : fltOf f = some l) (c : Nat) : decodeElem f c = fltDecode l c := by
  cases f <;> cases h <;> rfl

/-- An E8M0 byte below 0xFF is a power of two (R18). -/
theorem decodeElem_e8m0 {e : Nat} (he : e < 255) : decodeElem .e8m0 e = .num false 1 ((e : Int) - 127) := by
  have hmod : e % 256 = e := Nat.mod_eq_of_lt (by omega)
  simp only [decodeElem, hmod]
  exact if_neg (by omega)

theorem numVal_one (k : Int) : numVal false 1 k = 2 ^ k := by simp [numVal]

/-- Settles O13: each format decodes through its layout, whose value `fltDecode_value` gives. -/
theorem encodingsHaveTheirValues : Obligations.EncodingsHaveTheirValues := by
  refine ⟨?_, fun e he => ⟨1, _, decodeElem_e8m0 he, numVal_one _⟩, rfl, ?_⟩
  · rintro f b w bias s e fr c hmem he hfr rfl
    obtain ⟨l, hl, hfields, hb, hw, hexcl, hieee, htop⟩ := fltOf_of_mem_fltFields _ hmem
    obtain ⟨rfl, rfl, rfl⟩ : b = l.eb ∧ w = l.fb ∧ bias = l.bias := by simpa using hfields
    simp only [← hieee, ← htop, decodeElem_of_layout hl]
    exact fltDecode_value l s e fr hb hw he hfr hexcl
  · intro f n sat rnd hmem
    simp only [List.mem_cons, Prod.mk.injEq, List.not_mem_nil, or_false] at hmem
    rcases hmem with ⟨rfl, rfl⟩ | ⟨rfl, rfl⟩ | ⟨rfl, rfl⟩ | ⟨rfl, rfl⟩ | ⟨rfl, rfl⟩ | ⟨rfl, rfl⟩ | ⟨rfl, rfl⟩ <;> rfl

/-! ### Comparison, maximum and minimum (R27) -/

theorem veq_iff (a b : Val) : veq a b = true ↔ vcmp a b = some 0 := beq_iff_eq

theorem vlt_iff (a b : Val) : vlt a b = true ↔ vcmp a b = some (-1) := beq_iff_eq

theorem vcmp_of_nan {a b : Val} (h : a = .nan ∨ b = .nan) : vcmp a b = none := by
  rcases h with rfl | rfl
  · rfl
  · cases a <;> rfl

/-- The operand that is less is the minimum and the other the maximum. -/
theorem extrema_of_lt {a b : Val} (h : vcmp a b = some (-1)) : vmax a b = b ∧ vmin a b = a := by
  simp [vmax, vmin, h]

theorem extrema_of_gt {a b : Val} (h : vcmp a b = some 1) : vmax a b = a ∧ vmin a b = b := by
  simp [vmax, vmin, h]

/-- Among equal operands, zeros included, the sign of the first decides. -/
theorem extrema_of_eq {a b : Val} (h : vcmp a b = some 0) :
    vmax a b = (if vsign a then b else a) ∧ vmin a b = (if vsign a then a else b) := by
  simp [vmax, vmin, h]

theorem veq_num (x y : Bool) (m n : Nat) (e g : Int) :
    veq (.num x m e) (.num y n g) = true ↔ numVal x m e = numVal y n g := by
  rw [veq_iff, vcmp, Option.some_inj, (numCmp_spec ..).1]

theorem vlt_num (x y : Bool) (m n : Nat) (e g : Int) :
    vlt (.num x m e) (.num y n g) = true ↔ numVal x m e < numVal y n g := by
  rw [vlt_iff, vcmp, Option.some_inj, (numCmp_spec ..).2]

theorem vcmp_zeros (x y : Bool) (e g : Int) : vcmp (.num x 0 e) (.num y 0 g) = some 0 :=
  (veq_iff ..).1 ((veq_num ..).2 (by simp [numVal]))

/-- Settles O14: every comparison and extremum follows from the one order `vcmp` of the two values. -/
theorem comparisonsAndExtrema : Obligations.ComparisonsAndExtrema := by
  refine ⟨fun a b h => ?_, fun x y m n e g => ⟨veq_num .., vlt_num .., ?_⟩, fun a b => ⟨fun h => ?_, fun h => ?_, fun h => ?_⟩,
    fun w a b c j => ⟨rfl, rfl, rfl, rfl, ?_⟩⟩
  · simp [veq, vlt, vmax, vmin, vcmp_of_nan h]
  · obtain ⟨hmax, hmin⟩ := extrema_of_eq (vcmp_zeros x y e g)
    rw [hmax, hmin]
    cases x <;> cases y <;> simp [veq, vlt, vcmp, vsign]
  · exact extrema_of_lt ((vlt_iff a b).1 h)
  · exact extrema_of_gt ((vcmp_swap b a).1 ((vlt_iff b a).1 h))
  · obtain ⟨hmax, hmin⟩ := extrema_of_eq ((veq_iff a b).1 h)
    rw [hmax, hmin]
    cases vsign a <;> simp
  · simp only [laneExec, vmask, Bool.or_eq_true, or_comm]

end Sys2Proof.Machine
end

section
/-! PROOFS. The run record of chapter 5: its STATUS and its FAILED_PARTS (R108, R109). -/

namespace Sys2Proof.Machine

/-! ### The status of a run (R109) -/

/-- The statuses that count towards a run's are those of the commands that ended neither DONE nor SKIPPED. -/
theorem mem_failing_statuses {cmds : List Cmd} {st : Nat} :
    st ∈ (cmds.map Cmd.status).filter (fun st => st != 0x00 && st != 0x02) ↔
      ∃ c ∈ cmds, c.status ≠ 0x00 ∧ c.status ≠ 0x02 ∧ c.status = st := by
  simp only [List.mem_filter, List.mem_map, Bool.and_eq_true, bne_iff_ne]
  constructor
  · rintro ⟨⟨c, hc, rfl⟩, h0, h2⟩
    exact ⟨c, hc, h0, h2, rfl⟩
  · rintro ⟨c, hc, h0, h2, rfl⟩
    exact ⟨⟨c, hc, rfl⟩, h0, h2⟩

theorem runStatus_of_done_or_skipped {cmds : List Cmd} (h : ∀ c ∈ cmds, c.status = 0x00 ∨ c.status = 0x02) :
    runStatus cmds = 0x00 := by
  have hnone : (cmds.map Cmd.status).filter (fun st => st != 0x00 && st != 0x02) = [] :=
    List.eq_nil_iff_forall_not_mem.2 fun st hst =>
      have ⟨c, hc, h0, h2, _⟩ := mem_failing_statuses.1 hst
      (h c hc).elim h0 h2
  rw [runStatus, hnone]
  rfl

theorem le_runStatus {cmds : List Cmd} {c : Cmd} (hc : c ∈ cmds) (h0 : c.status ≠ 0x00) (h2 : c.status ≠ 0x02) :
    c.status ≤ runStatus cmds :=
  maxL_le (mem_failing_statuses.2 ⟨c, hc, h0, h2, rfl⟩)

theorem runStatus_attained {cmds : List Cmd} (h : ∃ c ∈ cmds, c.status ≠ 0x00 ∧ c.status ≠ 0x02) :
    ∃ c ∈ cmds, c.status ≠ 0x00 ∧ c.status ≠ 0x02 ∧ c.status = runStatus cmds := by
  obtain ⟨c, hc, h0, h2⟩ := h
  exact mem_failing_statuses.1 (maxL_mem (List.ne_nil_of_mem (mem_failing_statuses.2 ⟨c, hc, h0, h2, rfl⟩)))

theorem lt_256_of_mem_statusCodes : ∀ st ∈ statusCodes, st < 256 := by decide

/-- A run's status fits the STATUS field, since it is DONE or the status of one of its commands. -/
theorem runStatus_lt_256 {cmds : List Cmd} (h : ∀ c ∈ cmds, c.status ∈ statusCodes) : runStatus cmds < 256 := by
  by_cases hdone : ∀ c ∈ cmds, c.status = 0x00 ∨ c.status = 0x02
  · rw [runStatus_of_done_or_skipped hdone]
    decide
  · push Not at hdone
    obtain ⟨c, hc, -, -, hst⟩ := runStatus_attained hdone
    rw [← hst]
    exact lt_256_of_mem_statusCodes _ (h c hc)

/-! ### The fields of the run record (R108) -/

theorem runRecord_status {r : Run} (late : Bool) (now : Nat) (h : ∀ c ∈ r.cmds, c.status ∈ statusCodes) :
    bits (leNat (runRecord r late now).bytes) 71 64 = runStatus r.cmds :=
  (record_fields _).1.trans (Nat.mod_eq_of_lt (runStatus_lt_256 h))

theorem runRecord_failedParts (r : Run) (late : Bool) (now : Nat) :
    bits (leNat (runRecord r late now).bytes) 143 96 = r.cmds.foldl (fun m c => m ||| c.failedMask) 0 % 2 ^ 48 :=
  (record_fields _).2

/-- A bit of a union of masks is set when it is set in the start or in one of the masks. -/
theorem bit_foldl_or {α : Type} (mask : α → Nat) (i : Nat) (l : List α) (m : Nat) :
    bit (l.foldl (fun m x => m ||| mask x) m) i = (bit m i || l.any (fun x => bit (mask x) i)) := by
  induction l generalizing m with
  | nil => simp
  | cons x xs ih =>
    have hor : bit (m ||| mask x) i = (bit m i || bit (mask x) i) := by simp only [bit_eq, Nat.testBit_or]
    rw [List.foldl_cons, ih, hor, List.any_cons, Bool.or_assoc]

theorem bit_mod_two_pow {i n : Nat} (h : i < n) (x : Nat) : bit (x % 2 ^ n) i = bit x i := by
  simp [bit_eq, Nat.testBit_mod_two_pow, h]

/-- Settles O9: the record's STATUS is the greatest of the failing commands' statuses, none of which the field cuts, and its
FAILED_PARTS is the union of the commands' masks. -/
theorem runRecordStatus : Obligations.RunRecordStatus := by
  intro r late now hcodes
  rw [runRecord_status late now hcodes, runRecord_failedParts]
  refine ⟨runStatus_of_done_or_skipped, fun c => le_runStatus, runStatus_attained, fun i hi => ?_⟩
  have hzero : bit 0 i = false := by simp [bit_eq]
  rw [bit_mod_two_pow hi, bit_foldl_or, hzero, Bool.false_or]

end Sys2Proof.Machine
end

section
/-! PROOFS. The whole machine: its step, its reset state, and what every step keeps. -/

namespace Sys2Proof.Machine

/-! ### Every step -/

/-- A band cycle keeps what the model keeps throughout, and leaves the queue of commands alone. -/
theorem bandCycle_goes (s : State) : Goes Piece.device s s.bandCycle.countFull.clockLanes.clockBrims := by
  have cycle := (Goes.refl Piece.device s).bandCycle (by decide) (by decide) (by decide) (by decide)
  have lanes := (cycle.countFull (by decide)).clockLanes (by decide) (by decide) (by decide)
  exact lanes.clockBrims (by decide) (by decide) (by decide)

/-- Whatever a step answers keeps what the model keeps throughout: taking the command from the queue touches none of it. -/
theorem step_flows {s t : State} (h : step s = .next t) : Flows s t := by
  unfold step at h
  split at h
  case h_1 =>
    injection h with h
    exact h ▸ (bandCycle_goes s).2
  case h_2 c rest _ =>
    obtain ⟨u, hu, -, free, out, canonical, fits, bounded⟩ := exec_goes c { s with pending := rest }
    rw [hu] at h
    injection h with h
    exact h ▸ ⟨free, out, canonical, fits, bounded⟩

/-- Settles O1. -/
theorem stepRunsTheFrontCommand : Obligations.StepRunsTheFrontCommand := by
  intro c rest s h
  simp only [step, h]

/-- Settles O4. -/
theorem commandsLeaveTheQueueAlone : Obligations.CommandsLeaveTheQueueAlone := by
  intro c s
  obtain ⟨t, ht, only, -⟩ := exec_goes c s
  exact ⟨t, ht, only .pending (by decide)⟩

/-- Settles O6: each of the three parts of soundness is kept by every step. -/
theorem everyStepKeepsTheStateSound : Obligations.EveryStepKeepsTheStateSound := by
  rintro s t ⟨hcan, hfit, hbound⟩ h
  have keeps := step_flows h
  exact ⟨keeps.canonical hcan, keeps.fits hfit, keeps.bounded hbound⟩

/-- Settles O7. -/
theorem stepsOnlyAddToWhatHasLeft : Obligations.StepsOnlyAddToWhatHasLeft :=
  fun _ _ h => ⟨(step_flows h).out, (step_flows h).free⟩

/-! ### The reset state -/

/-- Settles O3: nothing is listed after reset, so every register reads its default. -/
theorem resetStateIsPowerOn : Obligations.ResetStateIsPowerOn := by
  unfold Obligations.ResetStateIsPowerOn
  have states : ∀ p ∈ partNums, State.reset.reg (rState p) = 0 := by decide
  refine ⟨states, ?_, ?_, ?_, ?_, ?_, rfl, rfl, fun k => rfl, rfl, rfl⟩ <;> decide

/-- Settles O5. -/
theorem resetStateIsSound : Obligations.ResetStateIsSound :=
  ⟨⟨rfl, rfl, rfl⟩, fun _ h => absurd h List.not_mem_nil, by simp [State.bounded, State.reset, Clock.blank, Mill.blank]⟩

end Sys2Proof.Machine
end

section
/-! PROOFS. HBM words and addresses of chapter 10, and the confinement of owners of chapter 12. -/

namespace Sys2Proof.Machine

/-! ### Whole words (R211) -/

theorem writeWord_whole (s : State) (p m r off : Nat) {bs : List Byte} (h : bs.length = 64) (err : WordErr) :
    s.writeWord p m r off 0 bs err = (s.clearPoison (wordKey m r off)).putBytes (wordKey m r off) bs :=
  if_pos ⟨rfl, h⟩

/-- Keys of words are multiples of 64, so that words with different keys share no byte. -/
theorem wordKey_apart {m r off m' r' off' : Nat} (h : wordKey m' r' off' ≠ wordKey m r off) :
    wordKey m' r' off' + 64 ≤ wordKey m r off ∨ wordKey m r off + 64 ≤ wordKey m' r' off' := by
  unfold wordKey at *
  omega

theorem word_putBytes_self (s : State) (k : Nat) {bs : List Byte} (h : bs.length = 64) : (s.putBytes k bs).word k = bs := by
  refine List.ext_getElem (by simp [State.word, h]) fun i hi _ => ?_
  have hi : i < 64 := by simpa [State.word] using hi
  simp [State.word, sget_putBytes, h, hi]

theorem word_putBytes_apart (s : State) {k j : Nat} {bs : List Byte} (h : j + 64 ≤ k ∨ k + bs.length ≤ j) :
    (s.putBytes k bs).word j = s.word j := by
  refine List.map_congr_left fun i hi => ?_
  have hi := List.mem_range.1 hi
  rw [sget_putBytes, if_neg (by omega)]

theorem poisoned_clearPoison (s : State) (j k : Nat) : (s.clearPoison k).poisoned j = (s.poisoned j && j != k) := by
  rw [Bool.eq_iff_iff]
  simp [State.clearPoison, State.poisoned]

/-- Settles O10: the write clears the poison of the word's key and puts its 64 bytes there, and keys of other words lie apart. -/
theorem wholeWordWriteReadsBack : Obligations.WholeWordWriteReadsBack := by
  intro s p m r off m' r' off' bs err hbs
  have poison (j : Nat) : (s.writeWord p m r off 0 bs err).poisoned j = (s.poisoned j && j != wordKey m r off) := by
    rw [writeWord_whole s p m r off hbs, ← poisoned_clearPoison]
    rfl
  refine ⟨?_, by simp [poison], fun _ _ _ _ hne => ⟨?_, by simp [poison, hne]⟩⟩
  · rw [writeWord_whole s p m r off hbs, word_putBytes_self _ _ hbs]
  · rw [writeWord_whole s p m r off hbs, word_putBytes_apart _ (by rw [hbs]; exact wordKey_apart hne)]
    rfl

/-! ### Addresses (R206) -/

theorem grain_pos (s : State) (p : Nat) : 0 < s.grain p := Nat.mul_pos (by decide) (Nat.two_pow_pos _)

/-- Settles O11: the sets are searched in order, each taking as many addresses as it has bytes; their ranks are distinct, within
a set and across sets. -/
theorem addressesMapOneToOne : Obligations.AddressesMapOneToOne := by
  intro s p
  obtain ⟨distinct, disjoint⟩ := rankSets_good s p
  exact ⟨locate_isSome _ _, fun a b x => locate_inj _ (grain_pos s p) _ distinct disjoint a b x⟩

/-! ### Owners (R254, R272) -/

/-- What an access needs of a row that no owner may use but its own partition's. -/
def Who.confined (w : Who) : Prop := w = .owner ∨ w = .opOwner ∨ w = .operator ∨ w = .nobody

theorem confined_not_allowed {s : State} {via : Transport} {p k : Nat} {w : Who} (hw : w.confined)
    (h : s.indexOwner (k / 256) ≠ some p) : s.allowed via (.owner p) w k = false := by
  rcases hw with rfl | rfl | rfl | rfl <;> simp [State.allowed, h]

theorem mem_rowsOf_of_rowOf {k : Nat} {r : Row} (h : rowOf k = some r) : r ∈ rowsOf (k / 256) := List.mem_of_find?_eq_some h

/-- The entries that a locked TDI protects stand in their partition's own indexes. -/
theorem indexOwner_of_locked (s : State) {k : Nat} (h : lockedEntry k = true) : s.indexOwner (k / 256) = some (k / 256 % 256) := by
  have hi : 0x51 ≤ k / 256 / 256 ∧ k / 256 / 256 ≤ 0x5B := by
    simp only [lockedEntry, Bool.and_eq_true, Bool.or_eq_true, beq_iff_eq] at h
    omega
  simp only [State.indexOwner, if_pos hi]

theorem writeEntry_confined {s : State} {via : Transport} {p k : Nat} {bs : List Byte} (h : s.indexOwner (k / 256) ≠ some p)
    (hw : ∀ r ∈ rowsOf (k / 256), r.wr.confined) : s.writeEntry via (.owner p) k bs = (s, false) := by
  have lock : lockedEntry k = true → k / 256 % 256 ≠ p := fun hl e => h (e ▸ indexOwner_of_locked s hl)
  have unlocked : (lockedEntry k && s.reg (rTdi (k / 256 % 256)) != 0 &&
      (Role.owner p == .operator || Role.owner p == .owner (k / 256 % 256))) = false := by
    rw [Bool.eq_false_iff]
    simp only [ne_eq, Bool.and_eq_true, Bool.or_eq_true, beq_iff_eq, reduceCtorEq, false_or, Role.owner.injEq]
    exact fun x => lock x.1.1 x.2.symm
  unfold State.writeEntry
  simp only [unlocked, Bool.false_eq_true, if_false]
  cases hr : rowOf k with
  | none => rfl
  | some r => simp [confined_not_allowed (hw r (mem_rowsOf_of_rowOf hr)) h]

theorem readEntry_confined {s : State} {via : Transport} {p k : Nat} (h : s.indexOwner (k / 256) ≠ some p)
    (hr : ∀ r ∈ rowsOf (k / 256), r.rd.confined) : s.readEntry via (.owner p) k = none := by
  have first (r : Row) (hm : r ∈ rowsOf (k / 256)) : s.allowed via (.owner p) r.rd (key (k / 256) r.lo) = false := by
    refine confined_not_allowed (hr r hm) ?_
    have index : key (k / 256) r.lo / 256 = k / 256 := by
      have := row_lo hm
      unfold key
      omega
    rwa [index]
  unfold State.readEntry
  split
  · rw [if_neg]
    simpa using first
  · cases hrow : rowOf k with
    | none => rfl
    | some r => simp [confined_not_allowed (hr r (mem_rowsOf_of_rowOf hrow)) h]

/-- Settles O12: the owner is granted neither a read nor a write, and what is not granted is refused from the state as it was. -/
theorem ownersAreConfined : Obligations.OwnersAreConfined := by
  intro s a p hrole hidx hrows
  have refused : s.perform a = (s, none) := by
    simp only [State.perform, hrole, writeEntry_confined hidx (fun r hr => (hrows r hr).2),
      readEntry_confined hidx (fun r hr => (hrows r hr).1)]
    simp
  rw [State.engine, refused]
  rfl

end Sys2Proof.Machine
end

section
/-! PROOFS. Host ports of chapter 16: rings and doorbells, the fetch of submission entries, completions and function resets. -/

namespace Sys2Proof.Machine

/-! ### Commands that change one function -/

/-- A command that updates one function leaves every other function, and every other piece, alone. -/
theorem completes_modFn {c : Instr} {s : State} {f : Fn} {g : FnState → FnState} {P : State → Prop}
    (h : exec c s = .next (s.modFn f g)) (p : OnlyFn f s (s.modFn f g) → (s.modFn f g).fn f = g (s.fn f) → P (s.modFn f g)) :
    Completes c s [.fns] P :=
  completes_at h ((Goes.refl _ s).modFn f g (by decide)) (p (onlyFn_modFn s f g) (s.fn_modFn_self f g))

/-- A command whose outcome is written out. -/
theorem completes_eq {c : Instr} {s t : State} {F : List Piece} (h : exec c s = .next t)
    (g : ∃ u, exec c s = .next u ∧ Goes F s u) : Completes c s F (fun u => u = t) := completes_of h g rfl

theorem doorbell_ready {s : State} {f : Fn} (hv : s.vfAnswers f = true) (hr : s.ready f = true) (g : FnState → FnState) :
    s.doorbell f g = s.modFn f g := by simp [State.doorbell, hv, hr]

/-- What reads registers and partitions only is the same after an update of a function. -/
theorem ready_doorbell {s : State} {f : Fn} (hr : s.ready f = true) {g : FnState → FnState} (hg : ∀ x, (g x).enable = x.enable) :
    (s.modFn f g).ready f = true := by
  unfold State.ready at hr ⊢
  rw [show (s.modFn f g).partOf f = s.partOf f from rfl]
  split at hr
  · rw [State.fn_modFn_self, hg]
    exact hr
  · exact hr

/-- With no record held back nothing follows a freed slot. -/
theorem drainHeld_nil {s : State} {p n : Nat} {f : Fn} (h : (s.fn f).held = []) : State.drainHeld p f n s = s := by
  cases n with
  | zero => rfl
  | succ n => simp [State.drainHeld, h]

theorem exec_cqHead {s : State} {f : Fn} {p : Nat} (v : W64) (hv : s.vfAnswers f = true) (hr : s.ready f = true)
    (hp : s.partOf f = some p) : exec (.cqHead f v) s = .next (State.drainHeld p f (s.fn f).held.length (s.setFn f { s.fn f with
      cqHead := v.toNat % (s.fn f).cqSize, cqUsed := ringUsed (s.fn f).cqSize v.toNat (s.fn f).cqTail })) := by
  show execCqHead f v s = _
  unfold execCqHead
  rw [doorbell_ready hv hr]
  dsimp only
  rw [show State.partOf (s.modFn f _) f = some p from hp]
  dsimp only
  rw [ready_doorbell hr (by intro; rfl), show State.vfAnswers (s.modFn f _) f = true from hv, State.fn_modFn_self]
  rfl

theorem ringEnable_sound {s : State} {f : Fn} (hv : s.vfAnswers f = true) (hok : (s.fn f).ringsOk = true)
    (hheld : (s.fn f).held = []) : exec (.ringEnable f) s = .next (s.modFn f (fun x =>
      { x with enable := true, configError := false, recordsLost := false, sqError := false, cqError := false, sqHead := 0,
               sqTail := 0, cqHead := 0, cqTail := 0, lateHead := 0, lateTail := 0, cqUsed := 0, lateUsed := 0, written := 0,
               lateWritten := 0, stopped := none })) := by
  show execRingEnable f s = _
  simp only [execRingEnable, hv, hok, Bool.not_true, Bool.false_eq_true, if_false, State.fn_modFn_self, hheld]
  split
  · rfl
  · rfl

/-- Settles O15. -/
theorem ringCommandsComplete : Obligations.RingCommandsComplete := by
  refine ⟨fun f v s hv hr => ?_, fun f v s p hv hr hp => ?_, fun f v s p hv hr hp hn => ?_, fun f s hv hok hheld => ?_,
    fun f s hv hok => ?_, fun f s hv => ?_, fun f reg v s hv he => ?_, fun f reg v s hv he => ?_⟩
  · exact completes_modFn (congrArg _ (doorbell_ready hv hr _)) fun only self => ⟨only, self⟩
  · refine completes_of (exec_cqHead v hv hr hp) (by apply execCqHead_goes <;> decide) ⟨rfl, fun hheld => ?_⟩
    simp only [hheld, List.length_nil, State.drainHeld]
    exact ⟨onlyFn_setFn s f _, congrArg FnState.cqHead (s.fn_setFn_self f _), rfl, rfl⟩
  · refine completes_modFn (g := fun x => { x with
      lateHead := v.toNat % s.reg (rBand p 0x25), lateUsed := ringUsed (s.reg (rBand p 0x25)) v.toNat x.lateTail }) ?_
      fun only self => ⟨only, self⟩
    show execLateQHead f v s = _
    simp only [execLateQHead, hp, if_neg hn, doorbell_ready hv hr]
  · refine completes_at (ringEnable_sound hv hok hheld) ((Goes.refl _ s).modFn f _ (by decide)) ⟨onlyFn_modFn s f _, ?_⟩
    rw [State.fn_modFn_self]
    exact ⟨rfl, rfl, rfl, rfl, rfl, rfl, rfl, rfl, rfl, rfl⟩
  · refine completes_modFn (g := fun x => { x with configError := true }) ?_ fun only self => ⟨only, self⟩
    show execRingEnable f s = _
    simp [execRingEnable, hv, hok]
  · have fns (t : State) (l : List Rec) (p : Nat) (g : Fn) : (l.foldl (fun t r => t.recordDone p r.tag) t).fn g = t.fn g :=
      State.fn_congr (foldl_recordDone_fns l p t) g
    refine completes_of (c := .ringDisable f) (by
      show execRingDisable f s = _
      simp only [execRingDisable, hv, Bool.not_true, Bool.false_eq_true, if_false]
      rfl) (by apply execRingDisable_goes <;> decide) ?_
    split
    · exact ⟨onlyFn_modFn s f _, s.fn_modFn_self f _⟩
    · exact ⟨fun g hg => (fns _ _ _ g).trans (onlyFn_modFn s f _ g hg), (fns _ _ _ f).trans (s.fn_modFn_self f _)⟩
  · refine completes_of (c := .ringRegisters f reg v) (by
      show execRingRegisters f reg v s = _
      simp only [execRingRegisters, hv, if_true]
      rfl) (by apply execRingRegisters_goes; decide) ⟨onlyFn_modFn s f _, ?_⟩
    rw [State.fn_modFn_self, he]
    match reg with
    | 0 => exact ⟨rfl, rfl, rfl, rfl, rfl, rfl⟩
    | 1 => exact ⟨rfl, rfl, rfl, rfl, rfl, rfl⟩
    | 2 => exact ⟨rfl, rfl, rfl, rfl, rfl, rfl⟩
    | 3 => exact ⟨rfl, rfl, rfl, rfl, rfl, rfl⟩
    | 4 => exact ⟨rfl, rfl, rfl, rfl, rfl, rfl⟩
  · refine completes_of (c := .ringRegisters f reg v) (by
      show execRingRegisters f reg v s = _
      simp only [execRingRegisters, hv, if_true]
      rfl) (by apply execRingRegisters_goes; decide) ⟨onlyFn_modFn s f _, ?_⟩
    simp only [State.fn_modFn_self, he, if_true]

/-! ### Submission entries (R347) -/

/-- An entry that is taken leaves its slot, and its partition notes it. -/
theorem completes_taken {c : Instr} {s : State} {f : Fn} {p : Nat} {g : PartRun → PartRun}
    (h : exec c s = .next ((s.modPr p g).taken f)) : Completes c s [.fns, .prun] (fun t =>
      OnlyFn f s t ∧ t.fn f = { s.fn f with sqHead := ((s.fn f).sqHead + 1) % (s.fn f).sqSize, stopped := none } ∧
      t.prn p = g (s.prn p)) :=
  completes_at h (Goes.modFn f _ (by decide) ((Goes.refl _ s).modPr p g (by decide)))
    ⟨onlyFn_modFn (s.modPr p g) f _, (s.modPr p g).fn_modFn_self f _, s.prn_modPr_self p g⟩

/-- Settles O16. -/
theorem submissionCommandsComplete : Obligations.SubmissionCommandsComplete := by
  refine ⟨fun f entry s p hp hf hs hn hu => ?_, fun f entry s p hp hf hs hn hu => ?_, fun f entry s p hp hf hs hu hl => ?_,
    fun f entry s p hp hf hs hu hl hload => ?_, fun f entry s p l hp hf hs hu hl hload => ?_, fun f c s hc hf hs => ?_⟩
  · refine completes_taken (g := fun r => { r with fetched := r.fetched ++ [(entry.toNat, s.now)], used := true }) ?_
    show execSubmissionFetch f entry s = _
    simp [execSubmissionFetch, hp, hf, hs, hu, Nat.not_le.2 hn]
  · refine completes_modFn (g := fun x => { x with stopped := some entry }) ?_ fun only self => ⟨only, self⟩
    show execSubmissionFetch f entry s = _
    simp [execSubmissionFetch, hp, hf, hs, hu, hn]
  · refine completes_taken (g := fun r => { r with fetched := r.fetched ++ [(entry.toNat, s.now)] }) ?_
    show execSubmissionFetch f entry s = _
    simp [execSubmissionFetch, hp, hf, hs, hu, hl]
  · refine completes_taken (g := fun r => { r with loading := some (entry.toNat, s.now), used := true }) ?_
    show execSubmissionFetch f entry s = _
    simp [execSubmissionFetch, hp, hf, hs, hu, hl, hload]
  · refine completes_modFn (g := fun x => { x with stopped := some entry }) ?_ fun only self => ⟨only, self⟩
    show execSubmissionFetch f entry s = _
    simp [execSubmissionFetch, hp, hf, hs, hu, hl, hload]
  · refine completes_of (c := .fetchError f c) (by
      show execFetchError f c s = _
      simp only [execFetchError, hc, hf, hs, Option.isSome_none, Bool.false_eq_true, Bool.true_eq_false, or_self, if_false]; rfl)
      (by apply execFetchError_goes; decide) ⟨fun g hg => ?_, ?_⟩
    · exact (onlyFn_modFn (s.taken f) f _ g hg).trans (onlyFn_modFn s f _ g hg)
    · rw [State.fn_modFn_self, State.taken, State.fn_modFn_self]

/-! ### Completions, vectors, links and resets of a port (R343, R350 to R356) -/

theorem regLen_readErrors (p : PortN) : regLen (rPort p.val 4) = 8 := by revert p; decide

theorem regLen_link (p : PortN) : regLen (rPort p.val 2) = 2 := by revert p; decide

theorem link_fits (width : Fin 4) (rate : Fin 6) (flit : Bool) :
    0x8000 + 0x4000 * b2n flit + 256 * linkWidth width + rate.val + 1 < 2 ^ 16 := by
  revert width rate flit; decide

theorem bad_of {c : Cpl} (h : c = .ur ∨ c = .ca ∨ c = .timeout) : (c == .ur || c == .ca || c == .timeout) = true := by
  rcases h with rfl | rfl | rfl <;> rfl

/-- A port that is reset has its virtual functions off. -/
theorem port_resetPort (s : State) (n : Fin 4) :
    ((s.resetPort n).port n.val).vfEnable = false ∧ ((s.resetPort n).port n.val).numVfs = 0 := by
  unfold State.resetPort
  exact ⟨congrArg PortState.vfEnable (State.port_setPort_self _ _ _), congrArg PortState.numVfs (State.port_setPort_self _ _ _)⟩

/-- Settles O22. -/
theorem hostPortEventsComplete : Obligations.HostPortEventsComplete := by
  refine ⟨fun f s hn => ?_, fun f s c hn hc => ?_, fun f s r hr => ?_, fun f s c r hr hc => ?_, fun f tag data s r hr => ?_,
    fun f tag c data s r hr hc => ?_, fun f vec s ho => ?_, fun port width rate flit s hp hs hf => ?_, fun f s hv ho hp => ?_,
    fun f s p hv ho hp => ?_, fun port s ho => ?_, fun port num s ho hv => ?_, fun port num s ho hv => ?_,
    fun port num s ho hv => ?_⟩
  · refine completes_modFn (g := fun x => { x with flushes := x.flushes - 1, cqError := x.cqError || false }) ?_
      fun only self => ⟨only, self.trans (by rw [Bool.or_false])⟩
    show execFlushReadCompletion f true .ok s = _
    simp only [execFlushReadCompletion, if_true, if_neg hn]
    rfl
  · refine completes_at (c := .flushReadCompletion f true c) (t := (s.modFn f (fun x =>
      { x with flushes := x.flushes - 1, cqError := x.cqError || true })).bump (rPort f.port.val 4) 1) ?_
      (Goes.bump _ _ (by decide) ((Goes.refl _ s).modFn f _ (by decide))) ⟨onlyFn_bump _ _ (onlyFn_modFn s f _), ?_, ?_,
        onlyRegs_setReg _ _ _⟩
    · show execFlushReadCompletion f true c s = _
      simp only [execFlushReadCompletion, if_true, if_neg hn, bad_of hc]
    · refine (s.fn_modFn_self f (fun x => { x with flushes := x.flushes - 1, cqError := x.cqError || true })).trans ?_
      rw [Bool.or_true]
    · rw [State.reg_bump_self, regLen_readErrors]
      rfl
  · refine completes_at ?_ ((Goes.refl _ s).modResp _ _ (by decide)) rfl
    show execFlushReadCompletion f false .ok s = _
    simp only [execFlushReadCompletion, Bool.false_eq_true, if_false, hr]
    rfl
  · refine completes_at ?_ (Goes.bump _ _ (by decide) ((Goes.refl _ s).modResp _ _ (by decide))) rfl
    show execFlushReadCompletion f false c s = _
    simp only [execFlushReadCompletion, Bool.false_eq_true, if_false, if_true, hr, bad_of hc]
  · refine completes_eq ?_ (by apply execHostReadCompletion_goes; decide)
    show execHostReadCompletion f tag .ok data s = _
    simp only [execHostReadCompletion, hr, if_true]
  · refine completes_eq ?_ (by apply execHostReadCompletion_goes; decide)
    show execHostReadCompletion f tag c data s = _
    simp only [execHostReadCompletion, hr, if_neg hc]
  · refine completes_of (c := .msixUnmask f vec) (by
      show execMsixUnmask f vec s = _
      simp only [execMsixUnmask, ho, Bool.not_true, Bool.false_eq_true, if_false]
      rfl) (by apply execMsixUnmask_goes <;> decide) ?_
    split
    · exact ⟨onlyFn_setFn s f _, s.fn_setFn_self f _, rfl⟩
    · exact ⟨onlyFn_setFn s f _, s.fn_setFn_self f _, (List.append_nil _).symm⟩
  · refine completes_of (c := .linkUp port width rate flit) (by
      show execLinkUp port width rate flit s = _
      simp only [execLinkUp, hp, hs, hf, Nat.zero_ne_one, Bool.true_eq_false, false_and, or_self, if_false])
      (by apply execLinkUp_goes; decide) ⟨onlyRegs_setReg _ _ _, reg_setReg_lt s _ _ ?_⟩
    rw [regLen_link]
    exact link_fits width rate flit
  · refine completes_at (c := .flrVf f) (t := s.resetFn f) (by
      show execFlrVf f s = _
      simp only [execFlrVf, hv, ho, hp, Bool.true_eq_false, or_self, if_false, Option.elim_none])
      ((Goes.refl _ s).resetFn f (by decide)) ⟨onlyFn_setFn s f _, s.fn_setFn_self f _⟩
  · refine completes_of (c := .flrVf f) (by
      show execFlrVf f s = _
      simp only [execFlrVf, hv, ho, hp, Bool.true_eq_false, or_self, if_false, Option.elim_some])
      (by apply execFlrVf_goes <;> decide) rfl
  · refine completes_of (c := .flrPf port) (by
      show execFlrPf port s = _
      simp only [execFlrPf, ho, if_true])
      (by apply execFlrPf_goes <;> decide) ⟨rfl, port_resetPort s port⟩
  · refine completes_at (c := .vfEnable port true num) (by
      show execVfEnable port true num s = _
      simp only [execVfEnable, ho, hv, Bool.not_true, Bool.false_eq_true, if_false, if_true])
      ((Goes.refl _ s).setPort _ _ (by decide)) (State.port_setPort_self _ _ _)
  · refine completes_at (c := .vfEnable port false num) (by
      show execVfEnable port false num s = _
      simp only [execVfEnable, ho, hv, Bool.not_true, Bool.false_eq_true, if_false])
      ((Goes.refl _ s).setPort _ _ (by decide)) (State.port_setPort_self _ _ _)
  · refine completes_of (c := .vfEnable port false num) (by
      show execVfEnable port false num s = _
      simp only [execVfEnable, ho, hv, Bool.not_true, Bool.false_eq_true, if_false, if_true]
      rfl)
      (by apply execVfEnable_goes <;> decide) ?_
    rw [State.port_setPort_self]
    exact ⟨(port_resetPort s port).1, rfl⟩

end Sys2Proof.Machine
end

section
/-! PROOFS. The dictionary engine of chapter 19: control entries, lanes, roles and buses, the transports, and the answers that are due. -/

namespace Sys2Proof.Machine

theorem next_congr {s t : State} (h : s = t) : (Host.Outcome.next s : Res) = .next t := congrArg _ h

/-! ### The rows of the entries, and what a granted write of each does -/

set_option maxRecDepth 100000 in
theorem rowQid : ∀ m : Fin 128, rowOf (key (0x6400 + m.val) 1) =
      some ⟨1, 1, 2, .rw, 65535, .none, .opOwner, .opOwner, [(0, 1023), (65535, 65535)]⟩ ∧
    lockedEntry (key (0x6400 + m.val) 1) = false ∧ key (0x6400 + m.val) 1 ≠ key 0x1020 6 := by decide

theorem laneUse_ne_reserved : ∀ g : GroupN, rLane g.val 1 ≠ key 0x2200 1 ∧ rLane g.val 8 ≠ key 0x2200 1 := by decide

/-- A monitor's QID clears the counters of its monitor and is stored. -/
theorem applyWrite_qid (u : State) (via : Transport) (m : Fin 128) (v : Nat) :
    u.applyWrite via (key (0x6400 + m.val) 1) v =
      ((u.clearRegs (fun j => j / 256 == 0x6400 + m.val && decide (2 ≤ j % 256))).setReg (key (0x6400 + m.val) 1) v, true) := by
  have hk : key (0x6400 + m.val) 1 / 256 = 0x6400 + m.val := by simp only [key]; omega
  have hm := m.isLt
  have h1 : ¬(0x6400 + m.val) / 256 = 0x51 := by omega
  have h2 : ¬0x6400 + m.val < 0x2000 := by omega
  have h3 : ¬0x6400 + m.val < 0x5000 := by omega
  have h4 : ¬0x6400 + m.val < 0x6000 := by omega
  have h5 : key (0x6400 + m.val) 1 / 65536 = 0x64 := by simp only [key]; omega
  simp only [State.applyWrite, hk, h1, false_and, if_false, if_neg h2, if_neg h3, if_neg h4, State.writeDie, h5, if_true]

/-- UDP does not carry the operator's key. -/
theorem applyWrite_operatorKey_udp (u : State) (c v : Nat) : u.applyWrite (.udp c) (key 0x1070 1) v = (u, false) := rfl

theorem applyWrite_operatorKey {via : Transport} (h : ∀ c, via ≠ .udp c) (u : State) (v : Nat) :
    u.applyWrite via (key 0x1070 1) v = (u.store (key 0x1070 1) (v + 2 ^ 256), true) := by
  cases via with
  | udp c => exact absurd rfl (h c)
  | _ => rfl

theorem applyWrite_debugUnlock (u : State) (via : Transport) (v : Nat) :
    u.applyWrite via (key 0x1070 0xA) v = ({ u with mill := { u.mill with unlockNext := v == 1 } }, true) := rfl

theorem applyWrite_warmReset (u : State) (via : Transport) (v : Nat) :
    u.applyWrite via (key 0x1010 4) v = ({ u with rst := { u.rst with due := some (u.now + 100000) } }, true) := rfl

theorem applyWrite_vendorResponse (u : State) (via : Transport) (v : Nat) : u.applyWrite via (key 0x1070 9) v =
    ({ u.setReg (key 0x1070 9) v with
       mill := { u.mill with
                 vendor := u.mill.vendor || Config.vendorSigOk u.mill.challenge Config.serial (u.reg (key 0x1070 8)) v } }, true) := rfl

theorem applyWrite_laneUse (u : State) (via : Transport) (g : GroupN) (v : Nat) :
    u.applyWrite via (rLane g.val 1) v = ((u.useLanes g.val v).persist (rLane g.val 1), true) := by
  obtain ⟨-, -, -, hi, lo, sub, h51, hlt, hge⟩ := rowLane g
  simp only [State.applyWrite, h51, false_and, if_false, Nat.not_lt.2 hge, hlt, if_true, State.writePackage,
    (laneUse_ne_reserved g).1, hi, lo, sub, and_self]
  rfl

theorem applyWrite_inject (u : State) (via : Transport) (g : GroupN) (v : Nat) :
    u.applyWrite via (rLane g.val 8) v = (u.modLg g.val (fun x => { x with inject := v }), true) := by
  obtain ⟨-, -, -, hi, lo, sub, h51, hlt, hge⟩ := rowInj g
  simp only [State.applyWrite, h51, false_and, if_false, Nat.not_lt.2 hge, hlt, if_true, State.writePackage,
    (laneUse_ne_reserved g).2, hi, lo, sub]
  rfl

/-- A transfer starts on a bus that is idle, with at most 64 bytes each way (R404). -/
theorem applyWrite_xfer (u : State) (via : Transport) (v : Nat) (hb : u.reg (key 0x1060 6) ≠ 1) (ht : bits v 6 0 ≤ 64)
    (hr : bits v 14 8 ≤ 64) : u.applyWrite via (key 0x1060 4) v = ((u.setReg (key 0x1060 6) 1).emit (.xfer (u.reg (key 0x1060 2))
      ((leBytes 64 (u.reg (key 0x1060 3))).take (bits v 6 0)) (bits v 14 8)), true) := by
  have h : u.startXfer v = some ((u.setReg (key 0x1060 6) 1).emit (.xfer (u.reg (key 0x1060 2))
      ((leBytes 64 (u.reg (key 0x1060 3))).take (bits v 6 0)) (bits v 14 8))) := by
    simp only [State.startXfer, hb, Nat.not_lt.2 ht, Nat.not_lt.2 hr, or_self, if_false]
  show (match u.startXfer v with | some t => (t, true) | none => (u, false)) = _
  rw [h]

theorem applyWrite_handover (u : State) (via : Transport) (v : Nat) : u.applyWrite via (key 0x1020 6) v =
    if u.reg rStandby = 2 then (u.setReg rLastFault 5, true) else (u, false) := by
  show (match (if u.reg rStandby = 2 then some (u.setReg rLastFault 5) else none) with | some t => (t, true) | none => (u, false)) = _
  by_cases h : u.reg rStandby = 2
  · rw [if_pos h, if_pos h]
  · rw [if_neg h, if_neg h]

/-- What noting an access changes is the engine's own: the clock, the output and the mirror stand. -/
theorem taken_stands (s : State) (a : Access) (tag : Nat) :
    (s.taken' a tag).now = s.now ∧ (s.taken' a tag).out = s.out ∧ (s.taken' a tag).mill.mirrorSent = s.mill.mirrorSent := by
  unfold State.taken'
  split <;> exact ⟨rfl, rfl, rfl⟩

theorem took_standby (s : State) (via : Transport) (k len v : Nat) : (s.took via k len v).reg rStandby = s.reg rStandby := by
  obtain ⟨-, -, -, h⟩ := taken_facts s ⟨via, true, k, leBytes len v, false, 0⟩ noTag
  exact h

theorem answer_rst (s : State) (a : Access) (d : Bool) (v : List Byte) : (s.answer a d v).rst = s.rst :=
  (answer_goes s a d v).1 .rst (by decide)

theorem perform_row {s t : State} {via : Transport} {role : Role} {k : Nat} {bs : List Byte} {r : Row} {d : Bool} (h : s.Reaches via role k)
    (hrow : rowOf k = some r) (hlen : bs.length = r.len) (hacc : r.acc ≠ .ro) (hal : s.allowed via role r.wr k = true)
    (hrange : inRanges r.ranges (leNat bs) = true) (hlock : lockedEntry k = false)
    (happ : (s.taken' ⟨via, true, k, bs, false, 0⟩ noTag).applyWrite via k (leNat bs) = (t, d)) :
    (s.taken' ⟨via, true, k, bs, false, 0⟩ noTag).perform ⟨via, true, k, bs, false, 0⟩ = (t, if d then some bs else none) := by
  rw [perform_write h, writeEntry_ok h hrow hlen hacc hal hrange (.inl hlock), happ]

/-- Settles O18. -/
theorem controlWritesComplete : Obligations.ControlWritesComplete := by
  refine ⟨fun via role entry value r u s h hrow hlen hacc hal hrange hlock hk happ => ?_,
    fun via role entry value r u s h hrow hlen hacc hal hrange hlock happ => ?_, fun via role mon v s h hal hv => ?_,
    fun via key' s h hudp => ?_, fun c key' s h => ?_, fun v s h => ?_, fun via s h => ?_, fun role sig s h => ?_⟩
  · refine completes_eq (next_congr ?_) (by apply execDictWrite_goes <;> decide)
    exact (enter_some h (perform_row h.toReaches hrow hlen hacc hal hrange hlock happ)).trans (if_neg hk)
  · refine completes_eq (next_congr ?_) (by apply execDictWrite_goes <;> decide)
    exact enter_none h (perform_row h hrow hlen hacc hal hrange hlock happ)
  · obtain ⟨hrow, hlock, hk⟩ := rowQid mon
    refine completes_eq (next_congr ?_) (by apply execQid_goes <;> decide)
    refine write_done h hrow rfl v.isLt (by decide) hal ?_ (.inl hlock) hk (applyWrite_qid _ via mon v.toNat)
    simpa [inRanges] using hv.imp_right fun h => h.symm ▸ ⟨le_rfl, le_rfl⟩
  · refine completes_eq (next_congr ?_) (by apply execOperatorKey_goes <;> decide)
    exact write_done h (show _ = some _ from rfl) rfl key'.isLt (by decide) rfl rfl (.inl (by decide)) (by decide)
      (applyWrite_operatorKey hudp _ _)
  · refine completes_eq (next_congr ?_) (by apply execOperatorKey_goes <;> decide)
    exact write_refused (E := id) h (show _ = some _ from rfl) rfl key'.isLt (by decide) rfl rfl (.inl (by decide))
      (applyWrite_operatorKey_udp _ _ _)
  · refine completes_of (c := .debugUnlock .uart v) (next_congr (write_done
      (E := fun u => { u with mill := { u.mill with unlockNext := b2n v == 1 } }) h (show _ = some _ from rfl) rfl ?_ (by decide) rfl
      ?_ (.inl (by decide)) (by decide) (applyWrite_debugUnlock _ _ _))) (by apply execDebugUnlock_goes <;> decide) ?_
    · cases v <;> decide
    · cases v <;> decide
    · cases v <;> rfl
  · refine completes_of (c := .warmReset via 22354) (next_congr (write_done
      (E := fun u => { u with rst := { u.rst with due := some (u.now + 100000) } }) h (show _ = some _ from rfl) rfl (by decide)
      (by decide) rfl (by decide) (.inl (by decide)) (by decide) (applyWrite_warmReset _ _ _)))
      (by apply execWarmReset_goes <;> decide) ⟨rfl, ?_⟩
    rw [State.writeDone, answer_rst, State.took, (taken_stands s _ _).1, (taken_facts s _ _).1]
  · refine completes_of (c := .vendorResponseHi .uart sig) (next_congr (write_done
      (E := fun u => { u.setReg (key 0x1070 9) sig.toNat with
        mill := { u.mill with
                  vendor := u.mill.vendor ||
                    Config.vendorSigOk u.mill.challenge Config.serial (u.reg (key 0x1070 8)) sig.toNat } })
      h (show _ = some _ from rfl) rfl sig.isLt (by decide) rfl rfl (.inl (by decide)) (by decide) (applyWrite_vendorResponse _ _ _)))
      (by apply execVendorResponseHi_goes <;> decide) ⟨reg_setReg_lt s _ _ sig.isLt, onlyRegs_setReg s _ _, rfl⟩

/-! ### Lanes, roles, buses and the vendor challenge -/

/-- A read of VENDOR_CHALLENGE over the UART draws a fresh value (R404). -/
theorem perform_challenge {s : State} {role : Role} (h : s.Reaches .uart role (key 0x1070 7)) :
    s.perform ⟨.uart, false, key 0x1070 7, [], false, 0⟩ =
      ({ s.draw with mill := { s.mill with challenge := Config.freeNat 256 s.drawn % 2 ^ 256 } },
        some (leBytes 32 (Config.freeNat 256 s.drawn % 2 ^ 256))) := by
  unfold State.perform
  rw [show s.roleOf (Access.via ⟨.uart, false, key 0x1070 7, [], false, 0⟩) = role from h.acts]
  rcases h.held with held | ⟨-, free⟩
  · rw [held]
    rfl
  · cases role with
    | owner p => exact absurd rfl (free p)
    | _ => simp only [Bool.and_false]; rfl

/-- HANDOVER is served once the standby has acknowledged it: until then it waits in the queue (R396, R413). -/
theorem perform_handover {s : State} {via : Transport} (h : s.Reaches via .operator (key 0x1020 6)) (h2 : s.reg rStandby = 2) :
    (s.took via (key 0x1020 6) 2 18502).perform ⟨via, true, key 0x1020 6, leBytes 2 18502, false, 0⟩ =
      ((s.took via (key 0x1020 6) 2 18502).setReg rLastFault 5, some (leBytes 2 18502)) := by
  refine write_perform (E := fun u => u.setReg rLastFault 5) (d := true) h (show _ = some _ from rfl) rfl (by decide) (by decide) rfl
    (by decide) (.inl (by decide)) ?_
  rw [applyWrite_handover, if_pos ((took_standby s _ _ _ _).trans h2)]

/-- Settles O20. -/
theorem laneRoleAndBusWritesComplete : Obligations.LaneRoleAndBusWritesComplete := by
  refine ⟨fun via g v s h hv => ?_, fun via g v s h => ?_, fun via v s h hb ht hr => ?_, fun role s h => ?_, fun via s h h2 => ?_,
    fun via s h h2 => ?_⟩
  · obtain ⟨hrow, hlock, hk, -⟩ := rowLane g
    refine completes_eq (next_congr ?_) (by apply execLaneUse_goes <;> decide)
    refine write_done h hrow rfl v.isLt (by decide) rfl ?_ (.inl hlock) hk (applyWrite_laneUse _ via g v.toNat)
    simpa [inRanges] using hv
  · obtain ⟨hrow, hlock, hk, -⟩ := rowInj g
    refine completes_eq (next_congr ?_) (by apply execInject_goes <;> decide)
    exact write_done h hrow rfl v.isLt (by decide) rfl rfl (.inl hlock) hk (applyWrite_inject _ via g v.toNat)
  · refine completes_eq (next_congr ?_) (by apply execXferCtrl_goes <;> decide)
    exact write_done h (show _ = some _ from rfl) rfl v.isLt (by decide) rfl rfl (.inl (by decide)) (by decide)
      (applyWrite_xfer _ via v.toNat hb ht hr)
  · refine completes_of (c := .vendorChallenge .uart) (next_congr (enter_served h.opened h.queue (.inl rfl) rfl
      (perform_challenge (s := s) h.toReaches))) (by apply execVendorChallenge_goes <;> decide) ⟨rfl, rfl, rfl, rfl⟩
  · refine completes_of (c := .handover via 18502) (next_congr (enter_waits h h2 (perform_handover h h2)))
      (by apply execHandover_goes <;> decide) ?_
    obtain ⟨hnow, hout, hsent⟩ := taken_stands s ⟨via, true, key 0x1020 6, leBytes 2 18502, false, 0⟩ noTag
    obtain ⟨-, hqueue, -, -⟩ := taken_facts s ⟨via, true, key 0x1020 6, leBytes 2 18502, false, 0⟩ noTag
    exact ⟨by rw [← hnow, ← hqueue]; rfl, by rw [← hsent]; rfl, hout⟩
  · refine completes_eq (next_congr ?_) (by apply execHandover_goes <;> decide)
    refine write_refused (E := id) h (show _ = some _ from rfl) rfl (by decide) (by decide) rfl (by decide) (.inl (by decide)) ?_
    rw [applyWrite_handover, if_neg (by rw [took_standby]; exact h2)]
    rfl

/-! ### Transports (R401, R403, R413) -/

/-- A datagram whose tag is good, that no stored response answers, is an access of its own. -/
theorem udp_enter {s : State} {bs : List Byte} {op : Nat} {a : Access} (hs : s.millServes = true) (hk : s.operatorKeySet = true)
    (ho : dgOp bs = op) (hd : dgKnown bs = true) (ht : s.tagOk bs = true)
    (hf : s.mill.responses.find? (fun r => r.1 == dgCounter bs && r.2.1 == dgTag bs) = none)
    (ha : accessOf (.udp (dgCounter bs)) bs (bs.drop 32) = some a) : s.udp bs op = s.enter a (dgTag bs) := by
  simp only [State.udp, hs, hk, ho, hd, ht, hf, ha, Bool.not_true, bne_self_eq_false, Bool.or_self, Bool.and_self, Bool.false_eq_true,
    if_false]

/-- Settles O24. -/
theorem transportsComplete : Obligations.TransportsComplete := by
  refine ⟨fun f irq entry s u v ho hq hp => ?_, fun f irq entry s u ho hp => ?_,
    fun f irq entry value s u v r a ho hq h2 hrow hk ha hp => ?_, fun bs s a u v hs hset hop hd ht hf ha ho hq hp => ?_,
    fun bs s a u v hs hset hop hd ht hf ha ho hq h2 hk hp => ?_, fun bs s r hs hset hop hd ht hr hf => ?_,
    fun bs s hs hset hop hbad => ?_, fun b session msg s a u v hs hty hven hd ha ho hq h2 hk hp => ?_,
    fun frame s a u v bs hbs hd ha ho hq h2 hk hp => ?_, fun s e he => ?_⟩
  · exact completes_eq (next_congr (enter_served ho hq (.inl rfl) rfl hp)) (by apply execWindowRead_goes <;> decide)
  · exact completes_eq (next_congr (enter_refused ho hp)) (by apply execWindowRead_goes <;> decide)
  · subst ha
    refine completes_eq (next_congr ?_) (by apply execWindowWrite_goes <;> decide)
    rw [hrow]
    exact enter_served ho hq (.inr h2) (by simpa using hk) hp
  · refine completes_eq (next_congr ?_) (by apply execUdpRead_goes <;> decide)
    rw [udp_enter hs hset hop hd ht hf ha]
    refine enter_served (accessOf_via ha ▸ ho) hq (.inl ?_) ?_ hp
    · rw [accessOf_write ha, hop]
      rfl
    · rw [accessOf_write ha, hop]
      rfl
  · refine completes_eq (next_congr ?_) (by apply execUdpWrite_goes <;> decide)
    rw [udp_enter hs hset hop hd ht hf ha]
    exact enter_served (accessOf_via ha ▸ ho) hq (.inr h2) (by simp [hk]) hp
  · refine completes_at (t := s.emit (.datagram r.2.2)) (next_congr ?_) ((Goes.refl _ s).emit _ (by decide)) rfl
    simp only [State.udp, hs, hset, hop, hd, ht, hf, hr, Bool.not_true, bne_self_eq_false, Bool.or_self, Bool.and_self,
      Bool.false_eq_true, if_false]
  · refine completes_at (t := s.bump (key 0x1070 3) 1) (next_congr ?_) ((Goes.refl _ s).bump _ _ (by decide)) ⟨onlyRegs_setReg s _ _, rfl⟩
    simp only [State.udp, hs, hset, hop, hbad, Bool.not_true, Bool.not_false, bne_self_eq_false, Bool.or_self, Bool.false_eq_true,
      if_false, if_true]
  · refine completes_eq (next_congr ?_) (by apply execMctpDictionaryMessage_goes <;> decide)
    simp only [hs, hty, hven, hd, ha, Bool.not_true, bne_self_eq_false, Bool.or_self, Bool.false_eq_true, if_false]
    exact enter_served ho hq (.inr h2) hk hp
  · subst hbs
    refine completes_eq (next_congr ?_) (by apply execUartFrame_goes <;> decide)
    simp only [hd, ha, Bool.not_true, Bool.false_eq_true, if_false]
    exact enter_served (accessOf_via ha ▸ ho) hq (.inr h2) hk hp
  · refine completes_eq (next_congr ?_) (by apply execRefusalAnswer_goes <;> decide)
    rw [he]

end Sys2Proof.Machine
end

section
/-! PROOFS. The milliners of chapter 19: faults and take-over, MCTP control, flash, the serial bus and the address lease. -/

namespace Sys2Proof.Machine

/-! ### Faults of the milliners (R393, R396, R415) -/

theorem noteFault_dict (s : State) (b : Bool) : (s.noteFault b).dict = s.dict := by unfold State.noteFault; split <;> rfl

theorem noteFault_rst (s : State) (b : Bool) : (s.noteFault b).rst = s.rst := by unfold State.noteFault; split <;> rfl

theorem noteFault_flash (s : State) (b : Bool) : (s.noteFault b).flash = s.flash := by
  have a := activeIs0_congr (reg_of_dict (noteFault_dict s b) rActiveDie)
  unfold State.flash
  rw [a]
  cases b <;> rfl

theorem noteFault_goes {F : List Piece} (s : State) (b : Bool) (h : Piece.mill ∈ F) : Goes F s (s.noteFault b) :=
  Goes.noteFault b h (Goes.refl F s)

/-- What a fault notes before anything else: its code and its time. -/
def faultNoted (s : State) (code : Nat) : State := (s.setReg rLastFault code).noteFault s.activeIs0

theorem reg_faultNoted (s : State) {code : Nat} (h : code < 2 ^ 8) : (faultNoted s code).reg rLastFault = code :=
  (reg_of_dict (noteFault_dict _ _) _).trans (reg_setReg_lt s _ _ h)

theorem onlyRegs_faultNoted (s : State) (code : Nat) : OnlyRegs [rLastFault] s (faultNoted s code) :=
  onlyRegs_of_dict (noteFault_dict _ _) (onlyRegs_setReg s _ _)

theorem standby_faultNoted (s : State) (code : Nat) : (faultNoted s code).reg rStandby = s.reg rStandby :=
  onlyRegs_faultNoted s code _ (by decide)

theorem trialReverts_none {s : State} (h : s.flash.trialOf = none) : s.trialReverts = s := by simp only [State.trialReverts, h]

/-- With a standby that is ready a fault waits for the take-over. -/
theorem millFault_waits {s : State} (code : Nat) (hf : s.mill.faulted = false) (ht : s.flash.trialOf = none) (h2 : s.reg rStandby = 2) :
    s.millFault code = { faultNoted s code with mill := { (faultNoted s code).mill with faulted := true } } := by
  have trial : (faultNoted s code).trialReverts = faultNoted s code :=
    trialReverts_none ((congrArg Flash.trialOf ((noteFault_flash _ _).trans (flash_set s _ code (by decide)).1)).trans ht)
  have ready : (faultNoted s code).standbyReady = true := by
    simp only [State.standbyReady, (standby_faultNoted s code).trans h2, beq_self_eq_true, Bool.true_or]
  simp only [State.millFault, hf, Bool.false_eq_true, if_false]
  rw [show (s.setReg rLastFault code).noteFault s.activeIs0 = faultNoted s code from rfl, trial, ite_self, if_pos ready]

/-- Each of the four faults, with a standby that is ready. -/
theorem millFault_shown {s : State} {code : Nat} (hc : code < 2 ^ 8) (hf : s.mill.faulted = false) (ht : s.flash.trialOf = none)
    (h2 : s.reg rStandby = 2) : (s.millFault code).mill.faulted = true ∧ (s.millFault code).reg rLastFault = code ∧
      OnlyRegs [rLastFault] s (s.millFault code) := by
  rw [millFault_waits code hf ht h2]
  exact ⟨rfl, reg_faultNoted s hc, onlyRegs_faultNoted s code⟩

/-- A standby that is ready, after what the fault notes, makes a failure of the active one wait (codes 1 and 2 revert a trial). -/
theorem millFault_trial {s : State} {code : Nat} (hc : code ≤ 2) (hf : s.mill.faulted = false)
    (hr : (faultNoted s code).trialReverts.standbyReady = true) : s.millFault code =
      { (faultNoted s code).trialReverts with mill := { (faultNoted s code).trialReverts.mill with faulted := true } } := by
  simp only [State.millFault, hf, Bool.false_eq_true, if_false, hc, if_true]
  exact if_pos hr

theorem standbyReady_faultNoted (s : State) (code : Nat) : (faultNoted s code).standbyReady = s.standbyReady := by
  have ha : (faultNoted s code).activeIs0 = s.activeIs0 := activeIs0_congr (onlyRegs_faultNoted s code _ (by decide))
  simp only [State.standbyReady, standby_faultNoted, ha]
  unfold faultNoted State.noteFault
  cases s.activeIs0 <;> rfl

/-- Without a standby a fault of the active milliner begins a warm reset. -/
theorem millFault_resets {s : State} {code : Nat} (hc : ¬code ≤ 2) (hf : s.mill.faulted = false) (hr : s.standbyReady = false)
    (hs : s.rst.step ≠ 1) : s.millFault code = (faultNoted s code).warmReset 0x05 := by
  simp only [State.millFault, hf, Bool.false_eq_true, if_false, hc]
  rw [show (s.setReg rLastFault code).noteFault s.activeIs0 = faultNoted s code from rfl, standbyReady_faultNoted, hr,
    show (faultNoted s code).rst = s.rst from noteFault_rst _ _, if_neg hs]
  rfl

/-- An acknowledgement releases the accesses before the first that still waits. -/
theorem drain_one {s : State} {a : Access} {rest : List Access} (hq : s.mill.queue = a :: rest) (ha : a.acked = true)
    (hr : ∀ b ∈ rest.head?, b.acked = false) : s.drain false = { s with mill := { s.mill with queue := rest } }.serve a := by
  simp only [State.drain, hq, State.drainFrom, ha, Bool.or_true, if_true]
  cases rest with
  | nil => rfl
  | cons b l => simp only [State.drainFrom, hr b rfl, Bool.or_self, Bool.false_eq_true, if_false]

theorem dict_modOtherFlash (s : State) (g : Flash → Flash) : (s.modOtherFlash g).dict = s.dict := by
  unfold State.modOtherFlash
  split <;> rfl

theorem rebooting_modOtherFlash (s : State) (g : Flash → Flash) : (s.modOtherFlash g).mill.rebooting = s.mill.rebooting := by
  unfold State.modOtherFlash
  split <;> rfl

/-- Settles O25. -/
theorem millinerEventsComplete : Obligations.MillinerEventsComplete := by
  refine ⟨fun s hf ht h2 => ⟨?_, ?_, ?_, ?_⟩, fun s u hf hu hr => ?_, fun s hf hr hs => ?_, fun s hf => ?_, fun s hr => ?_,
    fun s h => ?_, fun s h hl => ?_, fun s a rest hm hq ha hr => ?_, fun s h hf => ?_⟩
  · exact completes_of (c := .watchdogExpiry) (t := s.millFault 1) rfl (by apply execWatchdogExpiry_goes <;> decide)
      (millFault_shown (by decide) hf ht h2)
  · refine completes_of (c := .coreHalt) (t := State.millFault { s with mill := { s.mill with halted := true } } 2) rfl
      (by apply execCoreHalt_goes <;> decide) ?_
    obtain ⟨faulted, code, only⟩ := millFault_shown (s := { s with mill := { s.mill with halted := true } }) (code := 2) (by decide) hf ht h2
    refine ⟨faulted, ?_, code, only⟩
    rw [millFault_waits (s := { s with mill := { s.mill with halted := true } }) 2 hf ht h2]
    unfold faultNoted State.noteFault
    split <;> rfl
  · exact completes_of (c := .rootOfTrustFatal) (t := s.millFault 3) rfl (by apply execRootOfTrustFatal_goes <;> decide)
      (millFault_shown (by decide) hf ht h2)
  · exact completes_of (c := .heartbeatLoss) (t := s.millFault 4) (next_congr (if_pos h2))
      (by apply execHeartbeatLoss_goes <;> decide) (millFault_shown (by decide) hf ht h2)
  · subst hu
    exact completes_eq (next_congr (millFault_trial (by decide) hf hr)) (by apply execWatchdogExpiry_goes <;> decide)
  · exact completes_eq (next_congr (millFault_resets (by decide) hf hr hs)) (by apply execRootOfTrustFatal_goes <;> decide)
  · exact completes_eq (next_congr (if_pos hf)) (by apply execMillinerTakeover_goes <;> decide)
  · refine completes_of (c := .millinerRebootDone) (next_congr (if_pos hr)) (by apply execMillinerRebootDone_goes <;> decide)
      ⟨rebooting_modOtherFlash _ _, reg_setReg_lt _ _ _ (by decide), fun k hk => ?_⟩
    exact (onlyRegs_setReg _ _ _ k hk).trans (reg_of_dict (dict_modOtherFlash _ _) k)
  · exact completes_of (c := .standbyReady) (next_congr (if_pos h)) (by apply execStandbyReady_goes; decide)
      ⟨reg_setReg_lt _ _ _ (by decide), onlyRegs_setReg _ _ _⟩
  · exact completes_of (c := .mirrorRecord) (next_congr (if_pos ⟨h, hl⟩)) (by apply execMirrorRecord_goes; decide) ⟨rfl, rfl⟩
  · exact completes_eq (next_congr ((if_pos hm).trans (drain_one hq ha hr))) (by apply execMirrorAck_goes <;> decide)
  · refine completes_eq (next_congr ?_) (by apply execStandbyFault_goes <;> decide)
    simp only [h, hf, Bool.false_eq_true, if_false]

/-! ### MCTP control (R403, log 50) -/

theorem mctpAnswer_serves {s : State} {b : Binding} (h : s.mctpServes b = true) (cmd : Nat) (body : List Byte) :
    s.mctpAnswer b cmd body = s.emit (.mctp b (leBytes 1 0x00 ++ leBytes 1 cmd ++ leBytes 1 0 ++ body)) := if_pos h

/-- Settles O26. -/
theorem mctpControlCompletes : Obligations.MctpControlCompletes := by
  refine ⟨fun b eid s h => ?_, fun b s h => ?_, fun b s h => ?_, fun b s h => ?_, fun b s h => ?_, fun b sel s h hs => ?_⟩
  · refine completes_of (c := .setEndpointId b eid) (next_congr ((if_pos h).trans
      (mctpAnswer_serves (s := { s with mill := { s.mill with eids := sput (fun _ => 0) s.mill.eids (bindingKey b) eid.toNat } }) ?_ _ _)))
      (by apply execSetEndpointId_goes <;> decide) ⟨sget_sput_self _ _ _ _, fun c hc => sget_sput_other _ _ hc _, rfl⟩
    exact h
  · exact completes_of (c := .getEndpointId b) (next_congr (mctpAnswer_serves h _ _)) (by apply execGetEndpointId_goes; decide) rfl
  · refine completes_of (c := .getMctpVersionSupport b) (next_congr ((if_pos h).trans (by rw [mctpAnswer_serves h])))
      (by apply execGetMctpVersionSupport_goes <;> decide) ⟨rfl, rfl⟩
  · exact completes_of (c := .getMessageTypeSupport b) (next_congr (mctpAnswer_serves h _ _))
      (by apply execGetMessageTypeSupport_goes; decide) rfl
  · exact completes_of (c := .getVendorDefinedMessageSupport b 0) (next_congr (mctpAnswer_serves h _ _))
      (by apply execGetVendorDefinedMessageSupport_goes; decide) rfl
  · refine completes_of (c := .getVendorDefinedMessageSupport b sel) (next_congr (mctpAnswer_serves h _ _))
      (by apply execGetVendorDefinedMessageSupport_goes; decide) ?_
    rw [if_neg hs]
    rfl

/-! ### Flash, the serial bus and the address lease (R400, R409 to R417) -/

/-- The oldest sector of a flash that is being erased ends its erase. -/
def eraseEnds (f : Flash) : Flash :=
  match f.erasing with
  | [] => f
  | sec :: rest =>
    let clear : Slot → Slot := fun x => { x with image := x.image.filter (fun e => decide (e.1 / 65536 ≠ (sec - 2) % 48)) }
    { (if sec < 50 then { f with slotA := clear f.slotA } else { f with slotB := clear f.slotB }) with
      erasing := rest, incomplete := setBit f.incomplete sec false }

theorem eraseEnds_cons {f : Flash} {sec : Nat} {rest : List Nat} (h : f.erasing = sec :: rest) :
    (eraseEnds f).erasing = rest ∧ (eraseEnds f).incomplete = setBit f.incomplete sec false := by
  simp only [eraseEnds, h, and_self]

/-- What the end of an erase shows: the sectors incomplete, and FW_STATUS once no erase is left. -/
def eraseShown (s t : State) : State :=
  let t := (t.setReg (key 0x1040 9) (t.flash.incomplete % 2 ^ 64)).setReg (key 0x1040 0xA) (t.flash.incomplete / 2 ^ 64)
  if s.reg rFwStatus = 1 ∧ t.flash.erasing = [] ∧ t.otherFlash.erasing = [] then t.setReg rFwStatus 2 else t

theorem exec_flashEraseDone (b : Bool) (s : State) : exec (.flashEraseDone b) s =
    .next (eraseShown s (if b then s.modOtherFlash eraseEnds else s.modFlash eraseEnds)) := rfl

theorem eraseShown_flash (s t : State) : (eraseShown s t).flash = t.flash ∧ (eraseShown s t).otherFlash = t.otherFlash := by
  have both (k v : Nat) (u : State) (h : k ≠ rActiveDie) (e : u.flash = t.flash ∧ u.otherFlash = t.otherFlash) :
      (u.setReg k v).flash = t.flash ∧ (u.setReg k v).otherFlash = t.otherFlash :=
    ⟨(flash_set u k v h).1.trans e.1, (flash_set u k v h).2.trans e.2⟩
  have shown (v w : Nat) := both (key 0x1040 0xA) w _ (by decide) (both (key 0x1040 9) v t (by decide) ⟨rfl, rfl⟩)
  unfold eraseShown
  dsimp only
  split
  · exact both rFwStatus 2 _ (by decide) (shown _ _)
  · exact shown _ _

theorem onlyRegs_pair (s : State) (j k v w : Nat) : OnlyRegs [j, k] s ((s.setReg j v).setReg k w) :=
  onlyRegs_step k w (by simp) (onlyRegs_step j v (by simp) (onlyRegs_refl _ s))

/-- Settles O27. -/
theorem flashAndBusEventsComplete : Obligations.FlashAndBusEventsComplete := by
  refine ⟨fun s sec rest h => ?_, fun s sec rest h => ?_, fun s n h => ?_, fun s k v rest h => ?_, fun s => ?_, fun rx s h => ?_,
    fun rx s h hb => ?_, fun lease s hm h2 h5 => ?_⟩
  · refine completes_of (exec_flashEraseDone false s) (by apply execFlashEraseDone_goes <;> decide) ?_
    obtain ⟨flash, other⟩ := modFlash_facts s eraseEnds
    rw [(eraseShown_flash _ _).1, (eraseShown_flash _ _).2]
    exact ⟨(congrArg Flash.erasing flash).trans (eraseEnds_cons h).1, (congrArg Flash.incomplete flash).trans (eraseEnds_cons h).2, other⟩
  · refine completes_of (exec_flashEraseDone true s) (by apply execFlashEraseDone_goes <;> decide) ?_
    obtain ⟨other, flash⟩ := modOther_facts s eraseEnds
    rw [(eraseShown_flash _ _).1, (eraseShown_flash _ _).2]
    exact ⟨(congrArg Flash.erasing other).trans (eraseEnds_cons h).1, (congrArg Flash.incomplete other).trans (eraseEnds_cons h).2, flash⟩
  · refine completes_eq (next_congr ?_) (by apply execTrialTimeout_goes <;> decide)
    simp only [State.trialReverts, h]
  · refine completes_of (c := .journalCommit) (t := State.setReg
      { s.modFlashes (fun f => { f with journal := sput regDefault f.journal k v }) with
        mill := { (s.modFlashes (fun f => { f with journal := sput regDefault f.journal k v })).mill with unsaved := rest } }
      rPersistPending rest.length) ?_ (by apply execJournalCommit_goes <;> decide)
      ⟨rfl, rfl, rfl, onlyRegs_setReg _ _ _, State.reg_setReg_self _ _ _⟩
    show execJournalCommit s = _
    unfold execJournalCommit
    rw [h]
  · obtain ⟨other, flash⟩ := modOther_facts s (fun f => { f with
      journal := s.flash.journal,
      slotA := if f.slotA.state = 1 ∧ f.slotIncomplete 0 = false then f.slotA else s.flash.slotA,
      slotB := if f.slotB.state = 1 ∧ f.slotIncomplete 1 = false then f.slotB else s.flash.slotB })
    exact completes_of (c := .flashSync) rfl (by apply execFlashSync_goes; decide) ⟨(congrArg Flash.journal other :), flash,
      fun h => (congrArg Flash.slotA other :).trans (if_neg fun e => h e.1),
      fun h => (congrArg Flash.slotB other :).trans (if_neg fun e => h e.1)⟩
  · refine completes_of (c := .xferDone false rx) (t := (s.setReg (key 0x1060 5) rx.toNat).setReg (key 0x1060 6) 2) (next_congr ?_)
      (by apply execXferDone_goes; decide) ⟨reg_setReg_lt _ _ _ (by decide), ?_, onlyRegs_pair s _ _ _ _⟩
    · simp only [h, ne_eq, not_true, if_false, Bool.false_and, Bool.false_eq_true]
    · exact (State.reg_setReg_other _ (by decide) _).trans (reg_setReg_lt s _ _ rx.isLt)
  · refine completes_of (c := .xferDone true rx) (t := s.setReg (key 0x1060 6) 3) (next_congr ?_)
      (by apply execXferDone_goes; decide) ⟨reg_setReg_lt _ _ _ (by decide), onlyRegs_setReg _ _ _⟩
    simp only [h, hb, ne_eq, not_true, if_false, if_true, Bool.and_self]
  · refine completes_of (c := .dhcpv4Lease lease) (next_congr (if_pos ?_)) (by apply execDhcpv4Lease_goes; decide) rfl
    simp only [hm, h2, h5, beq_self_eq_true, Bool.and_self]

end Sys2Proof.Machine
end

section
/-! PROOFS. Time of chapter 19 and the resets of chapter 18. -/

namespace Sys2Proof.Machine

/-! ### Time (R405, R407) -/

/-- The counter stepped forward by what it is behind. -/
def timeStepped (s : State) : State :=
  { s with clock := { s.clock with tai := s.clock.tai + (-s.clock.offset).toNat * 2 ^ 32, offset := max s.clock.offset 0, locked := true } }

theorem tai_timeStepped (s : State) : (timeStepped s).clock.tai = s.clock.tai + (-s.clock.offset).toNat * 2 ^ 32 := rfl

theorem onlyRegs_timeStepped (l : List Nat) (s : State) : OnlyRegs l s (timeStepped s) := fun k _ =>
  reg_of_dict (by rw [timeStepped]) k

theorem clock_setReg (s : State) (k v : Nat) : (s.setReg k v).clock = s.clock := rfl

theorem exec_timeStep (s : State) : exec .timeStep s = .next (
    if s.reg rTimeState = 1 ∧ s.clock.locked = false then (timeStepped s).setReg rTimeState 2
    else if s.reg rTimeState = 2 ∧ (-s.clock.offset).toNat > s.reg rStepLimit then
      ((timeStepped s).bump rTimeSteps 1).raise 0x0104 none
    else s) := rfl

theorem exec_timeStep_first {s : State} (h : s.reg rTimeState = 1) (hl : s.clock.locked = false) :
    exec .timeStep s = .next ((timeStepped s).setReg rTimeState 2) := by rw [exec_timeStep, if_pos ⟨h, hl⟩]

theorem exec_timeStep_behind {s : State} (h : s.reg rTimeState = 2) (hl : s.reg rStepLimit < (-s.clock.offset).toNat) :
    exec .timeStep s = .next (((timeStepped s).bump rTimeSteps 1).raise 0x0104 none) := by
  rw [exec_timeStep, if_neg (by rw [h]; exact fun e => absurd e.1 (by decide)), if_pos ⟨h, hl⟩]

/-- Settles O28. -/
theorem timeEventsComplete : Obligations.TimeEventsComplete := by
  refine ⟨fun d seq o c s h => ?_, fun d seq o c s h => ?_, fun d seq o c s h hw hs => ?_, fun d seq r c s h h8 hs hk => ?_,
    fun d seq r tx s h h8 hs => ?_, fun d gm utc s h => ?_, fun d seq s h => ?_, fun d seq s h => ?_, fun s => ?_,
    fun s h1 hl => ?_, fun s h2 hl => ?_⟩
  · exact completes_at (c := .ptpSync d true seq o c) (next_congr ((if_pos h).trans (if_pos rfl)))
      (Goes.clockTo _ (by decide) id (Goes.refl _ s)) rfl
  · exact completes_eq (next_congr ((if_pos h).trans (if_neg Bool.false_ne_true))) (by apply execPtpSync_goes <;> decide)
  · refine completes_eq (next_congr (if_pos ?_)) (by apply execPtpFollowUp_goes <;> decide)
    simp only [h, hw, hs, beq_self_eq_true, Bool.and_self]
  · refine completes_eq (next_congr (if_pos ?_)) (by apply execPtpDelayResp_goes <;> decide)
    simp only [h, h8, hs, hk, beq_self_eq_true, Bool.and_self]
  · refine completes_eq (next_congr (if_pos ?_)) (by apply execPtpPdelayResp_goes <;> decide)
    simp only [h, h8, hs, beq_self_eq_true, Bool.and_self]
  · exact completes_of (c := .ptpAnnounce d gm utc) (next_congr (if_pos h)) (by apply execPtpAnnounce_goes; decide)
      ⟨(State.reg_setReg_other _ (by decide) _).trans (reg_setReg_lt s _ _ gm.isLt), reg_setReg_lt _ _ _ utc.isLt,
        onlyRegs_pair s _ _ _ _⟩
  · exact completes_of (c := .ptpManagement d seq) (next_congr (if_pos h)) (by apply execPtpManagement_goes; decide) rfl
  · exact completes_at (c := .ptpManagement d seq) (next_congr (if_neg (by rw [h]; exact Bool.false_ne_true))) (Goes.refl _ s) rfl
  · exact completes_of (c := .announceTimeout) rfl (by apply execAnnounceTimeout_goes; decide)
      ⟨reg_setReg_lt _ _ _ (by decide), onlyRegs_setReg _ _ _⟩
  · refine completes_of (exec_timeStep_first h1 hl) (by apply execTimeStep_goes <;> decide) ?_
    rw [clock_setReg, tai_timeStepped]
    exact ⟨reg_setReg_lt _ _ _ (by decide), onlyRegs_step _ _ (by decide) (onlyRegs_timeStepped _ s), rfl, rfl, Nat.le_add_right _ _⟩
  · refine completes_of (exec_timeStep_behind h2 hl) (by apply execTimeStep_goes <;> decide) ?_
    rw [raise_clock, State.bump, clock_setReg, tai_timeStepped]
    exact ⟨rfl, Nat.le_add_right _ _⟩

/-! ### Resets (R381 to R388, R412) -/

theorem askWarm_now {s : State} (h : s.rst.step = 0) (cause : Nat) : s.askWarm cause = s.warmReset cause := if_pos (.inl h)

/-- Settles O29. -/
theorem resetEventsComplete : Obligations.ResetEventsComplete := by
  refine ⟨fun s => ?_, fun s h => ?_, fun s => ?_, fun s h h0 => ?_, fun s => ?_, fun s d h h0 => ?_, fun s hh hw hc => ?_,
    fun bad s h1 hf hh hp hr hb => ?_, fun bad s h => ?_, fun bad s h => ?_, fun bad s h => ?_, fun bad s h => ?_,
    fun missing ppm s hr hm h1 => ?_, fun s h => ?_⟩
  · exact completes_eq rfl (by apply execPowerOn_goes <;> decide)
  · exact completes_eq (next_congr ((if_neg Bool.false_ne_true).trans (if_pos h))) (by apply execPorstN_goes <;> decide)
  · exact completes_at (c := .porstN true) (next_congr (if_pos rfl)) ((Goes.refl _ s).rstTo (by decide)) rfl
  · refine completes_eq (next_congr ?_) (by apply execWrstN_goes <;> decide)
    rw [if_neg Bool.false_ne_true, if_pos h]
    exact askWarm_now (s := { s with rst := { s.rst with wrst := false, wrstAt := s.now } }) h0 _
  · exact completes_eq (next_congr (if_pos rfl)) (by apply execWrstN_goes <;> decide)
  · refine completes_eq (next_congr ?_) (by apply execWarmResetStart_goes <;> decide)
    rw [h]
    exact askWarm_now (s := { s.reach d with rst := { s.rst with due := none } }) h0 _
  · refine completes_eq (next_congr ?_) (by apply execWarmResetHeld_goes <;> decide)
    rw [if_pos ⟨hh, hw, hc⟩]
  · refine completes_eq (next_congr ?_) (by apply execResetStepDone_goes <;> decide)
    simp only [h1, hf, hh, hp, hr, hb, Bool.not_true, Bool.and_false, Bool.or_self, Bool.false_eq_true, if_false]
  · refine completes_eq (next_congr ?_) (by apply execResetStepDone_goes <;> decide)
    simp only [h]
  · refine completes_of (c := .resetStepDone bad) (t := State.beginStep { s with clock := { s.clock with frame := 0, cycles := 0 } } 4)
      (next_congr (by simp only [h])) (by apply execResetStepDone_goes <;> decide)
      ⟨rfl, rfl, onlyRegs_setReg _ _ _, reg_setReg_lt _ _ _ (by decide)⟩
  · refine completes_eq (next_congr ?_) (by apply execResetStepDone_goes <;> decide)
    simp only [h]
  · refine completes_eq (next_congr ?_) (by apply execResetStepDone_goes <;> decide)
    simp only [h]
  · refine completes_eq (next_congr ((if_neg ?_).trans ((if_neg fun e => h1 e.2.2).trans (if_neg h1))))
      (by apply execRefclkCheck_goes <;> decide)
    rintro (e | ⟨e, hp⟩)
    · exact absurd (hr.symm.trans e) Bool.false_ne_true
    · rcases hm with hm | hm
      · exact absurd (e.symm.trans hm) Bool.false_ne_true
      · omega
  · exact completes_eq (next_congr (if_pos h)) (by apply execRefclkRecovered_goes <;> decide)

end Sys2Proof.Machine
end

section
/-! PROOFS. Security of chapter 12: the SPDM responder, messages within a session, IDE key management and TDISP. -/

namespace Sys2Proof.Machine

/-! ### SPDM outside a session (R257, R262, R263, log 46) -/

theorem spdm_answers {s : State} {b : Mailbox} {need : Nat} (h : s.spdmServes b = true) (hn : need ≤ s.conn b) (name : String)
    (bytes : List Byte) (act : State → State) : s.spdm b need true name bytes act = (act s).emit (.spdm b name bytes) := by
  simp only [State.spdm, h, Nat.not_lt.2 hn, decide_false, Bool.not_true, Bool.or_self, Bool.false_eq_true, if_false]

theorem spdm_early {s : State} {b : Mailbox} {need : Nat} (h : s.spdmServes b = true) (hn : s.conn b < need) (ok : Bool) (name : String)
    (bytes : List Byte) (act : State → State) : s.spdm b need ok name bytes act = s.emit (.spdm b "ERROR" []) := by
  simp only [State.spdm, h, hn, decide_true, Bool.true_or, Bool.not_true, Bool.false_eq_true, if_false, if_true]

theorem spdm_answers_of {s : State} {b : Mailbox} {need : Nat} {ok : Bool} (h : s.spdmServes b = true) (hn : need ≤ s.conn b)
    (hok : ok = true) (name : String) (bytes : List Byte) (act : State → State) :
    s.spdm b need ok name bytes act = (act s).emit (.spdm b name bytes) := hok ▸ spdm_answers h hn name bytes act

/-- Settles O31. -/
theorem spdmRequestsComplete : Obligations.SpdmRequestsComplete := by
  refine ⟨fun b s h => ?_, fun b s h hn => ?_, fun b s h hn => ?_, fun b s h hn => ?_, fun b s h hn => ?_, fun b off len s h hn => ?_,
    fun b nonce s h hn => ?_, fun b nonce s body h hn hb => ?_, fun b pub s h hn hc => ?_⟩
  · exact completes_of (c := .getVersion b) (next_congr (spdm_answers h (Nat.zero_le _) _ _ _))
      (by apply execGetVersion_goes <;> decide) ⟨s.conn_setConn_self b 1, rfl⟩
  · exact completes_of (c := .getCapabilities b) (next_congr (spdm_answers h hn _ _ _))
      (by apply execGetCapabilities_goes <;> decide) ⟨s.conn_setConn_self b _, rfl⟩
  · exact completes_of (c := .negotiateAlgorithms b) (next_congr (spdm_answers h hn _ _ _))
      (by apply execNegotiateAlgorithms_goes <;> decide) ⟨s.conn_setConn_self b 3, rfl⟩
  · exact completes_at (c := .negotiateAlgorithms b) (next_congr (spdm_early h hn _ _ _ _))
      ((Goes.refl _ s).emit _ (by decide)) rfl
  · exact completes_of (c := .getDigests b) (next_congr (spdm_answers h hn _ _ _)) (by apply execGetDigests_goes; decide) rfl
  · exact completes_of (c := .getCertificate b 0 off len) (next_congr (spdm_answers h hn _ _ _))
      (by apply execGetCertificate_goes; decide) rfl
  · exact completes_of (c := .challenge b 0 nonce) (next_congr (spdm_answers h hn _ _ _)) (by apply execChallenge_goes; decide) rfl
  · refine completes_of (c := .getMeasurements b none 0xFF nonce) (t := s.spdm b 3 (s.blocks none != []) "MEASUREMENTS"
      (body ++ Config.identitySign body) id) (next_congr ?_) (by apply execGetMeasurements_goes <;> decide) fun hne => ?_
    · subst hb
      rfl
    · rw [bne_iff_ne.2 hne, spdm_answers h hn]
      rfl
  · refine completes_of (c := .keyExchange b pub) (next_congr (spdm_answers_of h hn (decide_eq_true hc) _ _ _))
      (by apply execKeyExchange_goes <;> decide) ⟨_, rfl, rfl, rfl, rfl, rfl, rfl⟩

/-! ### Messages within a session (R257, R261) -/

/-- A session without a locked interface ends and is gone. -/
theorem session_endSession {s : State} {id : Nat} {x : Session} (h : s.session id = some x) (ht : x.tdi = none) :
    (s.endSession id).session id = none := by
  simp only [State.endSession, h, ht, Option.elim_none]
  show (s.sessions.filter _).find? _ = none
  rw [List.find?_eq_none]
  intro y hy
  simpa using (List.mem_filter.1 hy).2

/-- Settles O32. -/
theorem sessionMessagesComplete : Obligations.SessionMessagesComplete := by
  refine ⟨fun id verify x s h hx hs hc => ?_, fun id x s h hx hs hc => ?_, fun id x s h hx hs hc => ?_, fun id x s h hx hs hc => ?_,
    fun id s h => ?_, fun id x s h ht => session_endSession h ht⟩
  · refine completes_eq (next_congr ?_) (by apply execFinish_goes <;> decide)
    by_cases hv : Config.finishOk x.secret verify = true
    · rw [if_pos hv]
      exact insess h hx hs hc hv
    · rw [if_neg hv]
      exact insessErr h hx hs (Bool.eq_false_iff.2 hv)
  · exact completes_eq (next_congr (insess h hx hs hc rfl)) (by apply execKeyUpdate_goes <;> decide)
  · exact completes_eq (next_congr (insess h hx hs hc rfl)) (by apply execHeartbeat_goes <;> decide)
  · exact completes_eq (next_congr (insess h hx hs hc rfl)) (by apply execEndSession_goes <;> decide)
  · exact completes_eq (next_congr (if_pos h)) (by apply execHeartbeatPeriodExpiry_goes <;> decide)

/-! ### IDE key management (R258) -/

/-- A key is programmed into its set of a function's stream. -/
def keyPut (stream : Byte) (set : Fin 2) (key : BitVec 256) (y : FnState) : FnState :=
  { y with ide :=
    if set = 0 then { y.ide with stream := stream.toNat, key0 := some key.toNat }
    else { y.ide with stream := stream.toNat, key1 := some key.toNat } }

theorem keyPut_ide (stream : Byte) (set : Fin 2) (key : BitVec 256) (y : FnState) :
    (keyPut stream set key y).ide.stream = stream.toNat ∧ (keyPut stream set key y).ide.key set.val = some key.toNat := by
  fin_cases set <;> exact ⟨rfl, rfl⟩

/-- What showing a stream leaves of a function that was just updated. -/
theorem showStream_fn (s : State) (f : Fn) (g : FnState → FnState) :
    OnlyFn f s ((s.modFn f g).showStream f) ∧ ((s.modFn f g).showStream f).fn f = g (s.fn f) :=
  ⟨fun h hh => (State.fn_congr (fns_showStream _ f) h).trans (onlyFn_modFn s f g h hh),
    (State.fn_congr (fns_showStream _ f) f).trans (s.fn_modFn_self f g)⟩

theorem showStream_reg {s : State} {f : Fn} {p n : Nat} (hp : s.partOf f = some p) (hl : (s.fn f).ide.live = some n) :
    (s.showStream f).reg (rIdeStream p) = (0x8000 + (s.fn f).ide.stream) % 2 ^ (8 * regLen (rIdeStream p)) := by
  simp only [State.showStream, hp, hl, Option.isSome_some, if_true, State.reg_setReg_self]

/-- Settles O33. -/
theorem ideMessagesComplete : Obligations.IdeMessagesComplete := by
  refine ⟨fun id f stream set key x s h hx hs hc hk => ?_, fun id f set x s h hx hs hc hk hs' => ?_, fun id f set x s h hx hs hc hk => ?_,
    fun id f x s h hx hs hc hk => ?_, fun id f x s h hx hs hc hk => ?_, fun f p s hp => ?_⟩
  · have self := State.fn_modFn_self (s.modSession id fun x => x) f (keyPut stream set key)
    have only := onlyFn_modFn (s.modSession id fun x => x) f (keyPut stream set key)
    exact completes_of (c := .keyProg id f stream set key) (t := ((s.modSession id fun x => x).modFn f (keyPut stream set key)).emit
        (.spdm x.box "KP_ACK" (leBytes 1 stream.toNat ++ leBytes 1 set.val)))
      (next_congr (insess h hx hs hc hk)) (by apply execKeyProg_goes <;> decide)
      ⟨onlyFn_emit _ only, (congrArg (fun y => y.ide.stream) self).trans (keyPut_ide stream set key _).1,
        (congrArg (fun y => y.ide.key set.val) self).trans (keyPut_ide stream set key _).2, rfl⟩
  · obtain ⟨only, self⟩ := showStream_fn (s.modSession id fun x => x) f (fun y => { y with ide := { y.ide with live := some set.val } })
    refine completes_of (c := .kSetGo id f set) (next_congr (insess h hx hs hc ?_)) (by apply execKSetGo_goes <;> decide)
      ⟨only, congrArg FnState.ide self, fun p hp => ?_⟩
    · simp only [hk, hs', Bool.and_self]
    · have live := State.fn_modFn_self (s.modSession id fun x => x) f (fun y => { y with ide := { y.ide with live := some set.val } })
      have shown := showStream_reg (s := (s.modSession id fun x => x).modFn f (fun y =>
        { y with ide := { y.ide with live := some set.val } })) (n := set.val) hp (by rw [live])
      rw [live] at shown
      exact shown
  · obtain ⟨only, self⟩ := showStream_fn (s.modSession id fun x => x) f (fun y =>
      { y with ide := if y.ide.live = some set.val then { y.ide with live := none } else y.ide })
    exact completes_of (c := .kSetStop id f set) (next_congr (insess h hx hs hc hk)) (by apply execKSetStop_goes <;> decide)
      ⟨only, congrArg FnState.ide self⟩
  · exact completes_of (c := .query id f) (next_congr (insess h hx hs hc hk)) (by apply execQuery_goes <;> decide) rfl
  · exact completes_of (c := .query id f) (next_congr (insessErr h hx hs hk)) (by apply execQuery_goes <;> decide) rfl
  · refine completes_eq (next_congr ?_) (by apply execIdeFailure_goes <;> decide)
    rw [hp]
    rfl

/-! ### TDISP (R259, R343) -/

/-- A TDISP request about the interface of a partition's function: what its check admits is carried out. -/
theorem tdisp_admits {s : State} {id p : Nat} {f : Fn} {x : Session} {ok : Nat → Session → Bool} {name : String} {bytes : Nat → List Byte}
    {act : Nat → State → State} (hp : s.partOf f = some p) (h : s.session id = some x) (hx : x.secured = true)
    (hs : s.spdmServes x.box = true) (hc : 3 ≤ s.conn x.box) (hok : ok p x = true) :
    s.tdisp id f ok name bytes act = (act p (s.modSession id fun x => x)).emit (.spdm x.box name (bytes p)) := by
  simp only [State.tdisp, hp, h, hok, if_true]
  exact insess h hx hs hc rfl

theorem tdisp_refuses {s : State} {id p : Nat} {f : Fn} {x : Session} {ok : Nat → Session → Bool} {name : String} {bytes : Nat → List Byte}
    {act : Nat → State → State} (hp : s.partOf f = some p) (h : s.session id = some x) (hx : x.secured = true)
    (hs : s.spdmServes x.box = true) (hc : 3 ≤ s.conn x.box) (hok : ok p x = false) :
    s.tdisp id f ok name bytes act = (s.modSession id fun x => x).emit (.spdm x.box "TDISP_ERROR" []) := by
  simp only [State.tdisp, hp, h, hok, Bool.false_eq_true, if_false]
  exact insess h hx hs hc rfl

/-- Settles O34. -/
theorem tdispMessagesComplete : Obligations.TdispMessagesComplete := by
  refine ⟨fun id f p x s hp h hx hs hc h2 h0 hf => ?_, fun id f p x s hp h hx hs hc h0 => ?_, fun id f p x s hp h hx hs hc => ?_,
    fun id f p x s hp h hx hs hc h1 ht => ?_, fun id f p x s hp h hx hs hc => ?_⟩
  · refine completes_eq (next_congr (tdisp_admits hp h hx hs hc ?_)) (by apply execLockInterfaceRequest_goes <;> decide)
    simp only [h2, h0, hf, beq_self_eq_true, Bool.and_self]
  · refine completes_eq (next_congr (tdisp_refuses hp h hx hs hc ?_)) (by apply execLockInterfaceRequest_goes <;> decide)
    simp only [beq_eq_false_iff_ne.2 h0, Bool.and_false, Bool.false_and]
  · exact completes_eq (next_congr (tdisp_admits hp h hx hs hc rfl)) (by apply execGetDeviceInterfaceReport_goes <;> decide)
  · refine completes_eq (next_congr (tdisp_admits hp h hx hs hc ?_)) (by apply execStartInterfaceRequest_goes <;> decide)
    simp only [h1, ht, beq_self_eq_true, Bool.and_self]
  · exact completes_eq (next_congr (tdisp_admits hp h hx hs hc rfl)) (by apply execStopInterfaceRequest_goes <;> decide)

end Sys2Proof.Machine
end

section
/-! PROOFS. Memory of chapter 10: words served, refresh, patrol, parity errors, retired ranks and the scrub of the on-die stores. -/

namespace Sys2Proof.Machine

/-! ### The words of a channel (R210 to R213) -/

theorem wordWaits_false {s : State} {p : Nat} {w : WordAcc} {m r off : Nat} (h : s.place p w.addr = some (m, r, off))
    (hb : s.bankHeld m (s.servedBy m r off) off = false) : s.wordWaits p w = false := by
  simp only [State.wordWaits, h, hb]

/-- A channel whose front word waits for no bank serves it. -/
theorem exec_hbmAccess_serves {s : State} {m : StackN} {ch : Fin 32} {j : Job} {rest : List Job} {w : WordAcc} {ws : List WordAcc}
    (err : WordErr) (hj : s.jobs m.val ch.val = j :: rest) (hw : j.words = w :: ws) (hwait : s.wordWaits j.p w = false) :
    exec (.hbmAccess m ch err) s = .next ((s.serveWord j w err).popWord m.val ch.val) := by
  show execHbmAccess m ch err s = _
  simp only [execHbmAccess, hj, hw, hwait, Bool.false_eq_true, if_false]

/-- What serving the front word leaves of its channel. -/
theorem jobs_served {s : State} {m : StackN} {ch : Fin 32} {j : Job} {rest : List Job} {w : WordAcc} {ws : List WordAcc} (err : WordErr)
    (hj : s.jobs m.val ch.val = j :: rest) (hw : j.words = w :: ws) :
    ((s.serveWord j w err).popWord m.val ch.val).jobs m.val ch.val = if ws = [] then rest else { j with words := ws } :: rest := by
  have h : (s.serveWord j w err).jobs m.val ch.val = j :: rest := by
    unfold State.jobs at hj ⊢
    rw [channels_serveWord, hj]
  rw [popWord_jobs _ _ _ j rest h, hw, List.tail_cons]

theorem hbm_serveWrite {s : State} {j : Job} {w : WordAcc} {m r off : Nat} {err : WordErr} (hw : j.write = true)
    (hp : s.place j.p w.addr = some (m, r, off)) (ho : (s.stack m).offline.contains (s.servedBy m r off) = false)
    (hl : w.first + w.data.length ≤ 64) (he : err.symbols.val ≤ 3) :
    (s.serveWord j w err).hbm = ((s.neighbour m (s.servedBy m r off) off).putBytes
      (wordKey m (s.servedBy m r off) off + w.first) w.data).hbm := by
  simp only [State.serveWord, hp, ho, hw, Bool.false_eq_true, if_false, if_true]
  exact hbm_writeWord _ _ _ _ _ _ _ _ hl he

/-! ### Refresh, patrol and the copy of a retired rank -/

theorem regLen_held : ∀ m : StackN, regLen (rStack m.val 0x25) = 8 := by decide

theorem regLen_pointer : ∀ m : StackN, regLen (rMigPointer m.val) = 4 := by decide

theorem stack_holdBank (s : State) (m k ns : Nat) :
    (s.holdBank m k ns).stack m = { s.stack m with held := sput (fun _ => 0) (s.stack m).held k (s.now + ns) } :=
  (State.stack_bump _ _ _ _).trans (s.stack_modStack_self m _)

theorem stack_holdBank_other (s : State) {n m : Nat} (h : n ≠ m) (k ns : Nat) : (s.holdBank m k ns).stack n = s.stack n :=
  (State.stack_bump _ _ _ _).trans (s.stack_modStack_other h _)

theorem bankHeld_holdBank (s : State) {m r off ns : Nat} (hns : 0 < ns) :
    (s.holdBank m (bankKey r (rankPlace off).pseudo (rankPlace off).bank) ns).bankHeld m r off = true := by
  unfold State.bankHeld
  dsimp only
  rw [stack_holdBank]
  dsimp only
  rw [sget_sput_self]
  exact decide_eq_true (Nat.lt_add_of_pos_right hns)

theorem bankHeld_holdBank_other (s : State) {n m k x off : Nat} (ns : Nat)
    (h : n ≠ m ∨ bankKey x (rankPlace off).pseudo (rankPlace off).bank ≠ k) :
    (s.holdBank m k ns).bankHeld n x off = s.bankHeld n x off := by
  unfold State.bankHeld
  dsimp only
  by_cases e : n = m
  · subst e
    rw [stack_holdBank]
    dsimp only
    rw [sget_sput_other _ _ (h.resolve_left (absurd rfl))]
    rfl
  · rw [stack_holdBank_other s e]
    rfl

/-! ### The scrub of the on-die stores -/

/-- The place of the scrub in a store moves on. -/
def scrubMoved (s : State) (c store : Nat) : State := { s with scrub := smod (fun _ => 0) s.scrub (c * 9 + store) (· + 1) }

theorem scrubbed_eq (s : State) (c store : Nat) : s.scrubbed c store =
    (scrubMoved s c store).bump (rSram c 5) ((scrubMoved s c store).scrubPasses c - s.scrubPasses c) := by
  unfold State.scrubbed
  dsimp only
  rw [scrubMoved]

theorem scrub_scrubMoved (s : State) (c store : Nat) :
    sget (fun _ => 0) (scrubMoved s c store).scrub (c * 9 + store) = sget (fun _ => 0) s.scrub (c * 9 + store) + 1 := by
  simp only [scrubMoved, smod]
  exact sget_sput_self _ _ _ _

theorem scrub_scrubbed (s : State) (c store : Nat) : sget (fun _ => 0) (s.scrubbed c store).draw.scrub (c * 9 + store) =
    sget (fun _ => 0) s.scrub (c * 9 + store) + 1 := by
  rw [State.draw, scrubbed_eq]
  generalize (scrubMoved s c store).scrubPasses c - s.scrubPasses c = n
  exact scrub_scrubMoved s c store

theorem reg_scrubMoved (s : State) (c store k : Nat) : (scrubMoved s c store).reg k = s.reg k := reg_of_dict (by rw [scrubMoved]) k


theorem reg_scrubbed (t : State) {k c : Nat} (store : Nat) (hk : k ≠ rSram c 5) : (t.scrubbed c store).draw.reg k = t.reg k := by
  rw [State.reg_draw, scrubbed_eq, State.reg_bump_other _ hk, reg_scrubMoved]

/-- A pass of the scrub counts in one register of the die only. -/
theorem onlyRegs_scrubbed {l : List Nat} {s t : State} {c : Nat} (store : Nat) (hc : rSram c 5 ∈ l) (h : OnlyRegs l s t) :
    OnlyRegs l s (t.scrubbed c store).draw := fun k hk => (reg_scrubbed t store fun e => hk (by rw [e]; exact hc)).trans (h k hk)

theorem prun_scrubbed (t : State) (c store : Nat) : (t.scrubbed c store).draw.prun = t.prun := by
  rw [State.draw, scrubbed_eq]
  generalize (scrubMoved t c store).scrubPasses c - t.scrubPasses c = n
  rfl

theorem rSram_ne (c : Nat) {i j : Nat} (h : i ≠ j) : rSram c i ≠ rSram c j := by unfold rSram key; omega

theorem exec_scrub_one (s : State) (die : DieC) (store : Fin 9) (copy : Option Nat) (buf : Option (CmdRef × Nat × Nat)) :
    exec (.sramScrub die store 1 copy buf) s =
      .next ((s.bump (rSram die.val (if store.val < 8 then 1 else 3)) 1).scrubbed die.val store.val).draw := rfl

/-- Two wrong bits in a word of a store: counted, and the word named. -/
def scrubNoted (s : State) (die : DieC) (store : Fin 9) : State :=
  (s.bump (rSram die.val (if store.val < 8 then 2 else 4)) 1).setReg (rSram die.val 6)
    (field store.val 31 28 + sget (fun _ => 0) s.scrub (die.val * 9 + store.val) % storeWords store.val)

theorem onlyRegs_scrubNoted (s : State) (die : DieC) (store : Fin 9) : OnlyRegs [rSram die.val 5, rSram die.val 6,
    rSram die.val (if store.val < 8 then 2 else 4)] s (scrubNoted s die store) := by
  rw [scrubNoted]
  exact onlyRegs_step _ _ (by simp) (onlyRegs_step _ _ (by simp) (onlyRegs_refl _ s))

theorem exec_scrub_two (s : State) (die : DieC) (store : Fin 9) :
    exec (.sramScrub die store 2 none none) s = .next ((scrubNoted s die store).scrubbed die.val store.val).draw := rfl

/-- Settles O35. -/
theorem memoryEventsComplete : Obligations.MemoryEventsComplete := by
  refine ⟨fun m ch err s j rest w ws m' r off k hj hw hwr hp ho hb hl he hk => ?_,
    fun m ch s j rest w ws m' r off k hj hw hrd hp ho hb hk => ?_, fun m ch err s j rest w ws hj hw hwait => ?_,
    fun m rank pseudo bank s => ?_, fun m c s => ?_, fun m err s he => ?_, fun m ch s => ?_,
    fun m ch s u j rest w ws m' r off hj hw hu hp => ?_, fun m bad s hg hat => ?_, fun m bad s hg => ?_, fun m s i rest h => ?_,
    fun die store s copy buf n hn => ?_, fun die store s copy buf n k hn hk => ?_, fun die store s n k hn hk => ?_⟩
  · subst hk
    refine completes_of (exec_hbmAccess_serves err hj hw (wordWaits_false hp hb)) (by apply execHbmAccess_goes <;> decide)
      ⟨jobs_served err hj hw, fun a h1 h2 => ?_, fun a h => ?_⟩
    · rw [(hbm_popWord _ _ _).1, hbm_serveWrite hwr hp ho hl he, sget_putBytes, if_pos ⟨h1, h2⟩]
    · rw [(hbm_popWord _ _ _).1, hbm_serveWrite hwr hp ho hl he, sget_putBytes, if_neg (by omega), (neighbour_same _ _ _ _).1]
  · refine completes_of (exec_hbmAccess_serves _ hj hw (wordWaits_false hp hb)) (by apply execHbmAccess_goes <;> decide)
      ⟨jobs_served _ hj hw, ?_⟩
    obtain ⟨hbm, poison, resps, -⟩ := neighbour_same s m' (s.servedBy m' r off) off
    obtain ⟨pop_hbm, pop_resps, pop_poison⟩ := hbm_popWord (s.serveWord j w ⟨0, false⟩) m.val ch.val
    rw [pop_hbm, pop_resps, pop_poison, serve_read hrd hp ho hk rfl, ← hbm, ← poison, ← resps]
    split <;> exact ⟨rfl, rfl, rfl⟩
  · refine completes_eq ?_ (by apply execHbmAccess_goes <;> decide)
    show execHbmAccess m ch err s = _
    simp only [execHbmAccess, hj, hw, hwait, if_true]
  · refine completes_of (c := .ordinaryRefresh m rank pseudo bank) rfl (by apply execOrdinaryRefresh_goes <;> decide)
      ⟨onlyRegs_setReg _ _ _, ?_, fun off hps hba => ?_, fun n x off h => bankHeld_holdBank_other s 200 h⟩
    · refine (State.reg_bump_self _ _ _).trans ?_
      rw [regLen_held]
      rfl
    · rw [← hps, ← hba]
      exact bankHeld_holdBank s (by decide)
  · exact completes_of (c := .stackTempRead m c) rfl (by apply execStackTempRead_goes; decide) (s.stack_modStack_self m.val _)
  · obtain ⟨hbm, stack⟩ := patrol_mod (if s.rankInService m.val ((s.stack m.val).patrol / 2 ^ 32) then
      (s.readWord (s.rankOwner m.val ((s.stack m.val).patrol / 2 ^ 32)) m.val ((s.stack m.val).patrol / 2 ^ 32)
        ((s.stack m.val).patrol % 2 ^ 32) err).1 else s) m.val (s.patrolNext m.val).2 (fun x => { x with patrol := (s.patrolNext m.val).1 })
    refine completes_of (c := .patrolAccess m err) rfl (by apply execPatrolAccess_goes <;> decide)
      ⟨hbm.trans ?_, congrArg StackState.patrol stack⟩
    split
    · exact hbm_readWord _ _ _ _ _ _ he
    · rfl
  · refine completes_of (c := .cmdParityError m ch false) (t := s.bump (rStack m.val 0x22) 1) ?_
      (by apply execCmdParityError_goes <;> decide) ⟨rfl, onlyRegs_setReg _ _ _⟩
    show execCmdParityError m ch false s = _
    unfold execCmdParityError
    dsimp only
    split <;> rfl
  · subst hu
    refine completes_eq ?_ (by apply execCmdParityError_goes <;> decide)
    show execCmdParityError m ch true s = _
    simp only [execCmdParityError, hj, hw, if_true, hp]
  · refine completes_of (c := .rankMigrationBlock m bad false) (t := State.setReg ((List.range 64).foldl (fun u i =>
        u.copyWord m.val (s.reg (rMigRank m.val) % 256) (s.reg (rMigRank m.val) / 256) (s.reg (rMigPointer m.val) + 64 * i)
          (((bad.find? (fun e => e.1.val == i)).map (·.2)).getD ⟨0, false⟩)) s) (rMigPointer m.val) (s.reg (rMigPointer m.val) + 4096))
      ?_ (by apply execRankMigrationBlock_goes <;> decide) ⟨reg_setReg_lt _ _ _ ?_, rfl⟩
    · show execRankMigrationBlock m bad false s = _
      simp only [execRankMigrationBlock, hg, hat, Bool.false_eq_true, if_false, if_true]
    · rw [regLen_pointer]
      exact hat.trans (by decide)
  · refine completes_eq ?_ (by apply execRankMigrationBlock_goes <;> decide)
    show execRankMigrationBlock m bad true s = _
    simp only [execRankMigrationBlock, hg, if_false, if_true]
  · refine completes_of (c := .remapFlashCommit m) (t := State.modStack
      { s with mill := { s.mill with
        flash0 := { s.mill.flash0 with journal := sput regDefault s.mill.flash0.journal (rRemap m.val i) (s.reg (rRemap m.val i)) }
        flash15 := { s.mill.flash15 with journal := sput regDefault s.mill.flash15.journal (rRemap m.val i) (s.reg (rRemap m.val i)) } } }
      m.val (fun x => { x with unsavedRemap := rest })) ?_ (by apply execRemapFlashCommit_goes <;> decide)
      ⟨State.stack_modStack_self _ _ _, rfl, rfl⟩
    show execRemapFlashCommit m s = _
    unfold execRemapFlashCommit
    dsimp only
    rw [h]
  · subst hn
    refine completes_of (c := .sramScrub die store 0 copy buf) (t := (s.scrubbed die.val store.val).draw) ?_
      (execSramScrub_goes die store 0 copy buf s (by decide) (by decide) (by decide) (by decide))
      ⟨scrub_scrubbed s _ _, onlyRegs_scrubbed _ (List.mem_singleton_self _) (onlyRegs_refl _ s), prun_scrubbed s _ _⟩
    rfl
  · subst hn hk
    refine completes_of (exec_scrub_one s die store copy buf) (execSramScrub_goes die store 1 copy buf s (by decide) (by decide) (by decide) (by decide))
      ⟨scrub_scrubbed (s.bump _ 1) _ _, onlyRegs_scrubbed _ (by simp) (onlyRegs_step _ _ (by simp) (onlyRegs_refl _ s)),
        prun_scrubbed (s.bump _ 1) _ _, ?_⟩
    refine (reg_scrubbed (s.bump _ 1) _ (rSram_ne _ ?_)).trans (s.reg_bump_self _ 1)
    split <;> decide
  · subst hn hk
    have ne (i : Nat) (hi : i ≠ 5) := reg_scrubbed (scrubNoted s die store) (c := die.val) store.val (rSram_ne die.val hi)
    refine completes_of (exec_scrub_two s die store) (execSramScrub_goes die store 2 none none s (by decide) (by decide) (by decide)
      (by decide)) ⟨?_, onlyRegs_scrubbed _ (by simp) (onlyRegs_scrubNoted s die store), ?_, ?_⟩
    · rw [scrub_scrubbed, scrubNoted, State.setReg_scrub, State.bump_scrub]
    · rw [ne _ (by split <;> decide), scrubNoted, State.reg_setReg_other _ (rSram_ne _ (by split <;> decide)), State.reg_bump_self]
    · rw [ne _ (by decide), scrubNoted, State.reg_setReg_self]

end Sys2Proof.Machine
end

section
/-! PROOFS. Switches of chapter 9: headers dropped, starvation, reservations, and dies that leave service. -/

namespace Sys2Proof.Machine

/-! ### Headers dropped and switches (R182 to R200) -/

theorem regLen_dropped : ∀ d : DieN, regLen (rSwitch d.val 0xA) = 8 ∧ regLen (rSwitch d.val 0xB) = 8 ∧ regLen (rSwitch d.val 5) = 8 := by
  decide

theorem rSwitch_ne (d : Nat) {i j : Nat} (h : i ≠ j) : rSwitch d i ≠ rSwitch d j := by unfold rSwitch key; omega

theorem dict_losePacket (s : State) (h : Nat) : (s.losePacket h).dict = s.dict := by
  unfold State.losePacket
  split <;> rfl

theorem reg_losePacket (s : State) (h k : Nat) : (s.losePacket h).reg k = s.reg k := reg_of_dict (dict_losePacket s h) k

/-- A request that is lost stays outstanding at its sender, marked. -/
theorem losePacket_request (s : State) {h : Nat} (hc : pkCmd h / 16 ≠ 1) :
    s.losePacket h = { s with xacts := updWhere (fun x => x.sends h) (fun x => { x with lost := true }) s.xacts } := if_neg hc

theorem exec_headerDiscard_ecc (d : DieN) (header : Desc) (s : State) : exec (.headerDiscard d header true) s =
    .next (((s.losePacket header.toNat).bump (rSwitch d.val 0xA) 1).bump (rSwitch d.val 0xB) 1) := rfl

/-- A hold on a switch lasts 128 cycles. -/
theorem held_now (s : State) (n k till : Nat) (l : List (Nat × Nat)) (h : s.clock.cycles < till) :
    (s.modSwitch n (fun x => { x with holds := l ++ [(k, till)] })).held n k = true := by
  unfold State.held
  rw [State.switch_modSwitch_self, List.any_append]
  have : decide (s.clock.cycles < till) = true := decide_eq_true h
  simp only [List.any_cons, beq_self_eq_true, List.any_nil, Bool.or_false, Bool.true_and]
  exact Bool.or_eq_true_iff.2 (.inr this)

/-- Settles O37. -/
theorem switchAndDieEventsComplete : Obligations.SwitchAndDieEventsComplete := by
  refine ⟨fun d header s => ?_, fun d header s hc => ?_, fun d header s h hh hc => ?_,
    fun d row ply down s w l rest hw hp hh hcy hl hst => ?_, fun d row ply down s => ?_, fun s => ?_, fun d s h => ?_, fun d s => ?_,
    fun c s began h => ?_⟩
  · refine completes_of (exec_headerDiscard_ecc d header s) (by apply execHeaderDiscard_goes <;> decide)
      ⟨onlyRegs_step _ _ (by simp) (onlyRegs_step _ _ (by simp) (onlyRegs_of_dict (dict_losePacket s _) (onlyRegs_refl _ s))), ?_, ?_⟩
    · rw [State.reg_bump_self, (regLen_dropped d).2.1, State.reg_bump_other _ (rSwitch_ne _ (by decide)), reg_losePacket]
    · rw [State.reg_bump_other _ (rSwitch_ne _ (by decide)), State.reg_bump_self, (regLen_dropped d).1, reg_losePacket]
  · refine completes_of (c := .headerDiscard d header false) (t := (s.losePacket header.toNat).bump (rSwitch d.val 0xB) 1) ?_
      (by apply execHeaderDiscard_goes <;> decide)
      ⟨onlyRegs_step _ _ (by simp) (onlyRegs_of_dict (dict_losePacket s _) (onlyRegs_refl _ s)), ?_⟩
    · show execHeaderDiscard d header false s = _
      have : [0x01, 0x02, 0x03, 0x04, 0x05, 0x06, 0x10, 0x11].contains (pkCmd header.toNat) = false := by
        rw [← Bool.not_eq_true, List.contains_iff_mem]
        exact hc
      simp only [execHeaderDiscard, this, Bool.false_eq_true, if_false, Bool.not_false, if_true]
    · rw [State.reg_bump_self, (regLen_dropped d).2.1, reg_losePacket]
  · subst hh
    refine completes_of (exec_headerDiscard_ecc d header s) (by apply execHeaderDiscard_goes <;> decide) ?_
    rw [losePacket_request s hc]
    exact ⟨rfl, rfl⟩
  · obtain ⟨st, hst, hband, hdown, hguard⟩ := hst
    have starves : s.waiting.any (fun w => (match w.point with
        | .inject e _ => e.val == d.val
        | _ => false)
      && w.hop.isNone && decide (w.cycle + 512 ≤ s.clock.cycles)
      && ((s.wayLeft w).bind List.head?).any (fun st => st.1 == bandAt d.val row && st.2.1 == down && !s.guardedOn w st)) = true :=
      List.any_eq_true.2 ⟨w, hw, by
        simp only [hp, hh, hcy, hl, hst, hband, hdown, hguard, beq_self_eq_true, Option.isNone_none, decide_true, Bool.not_false,
          Bool.and_self, Option.bind_some, Option.any_some]⟩
    refine completes_of (c := .starveRequest d row ply down) (next_congr (if_pos starves)) (by apply execStarveRequest_goes <;> decide)
      ⟨onlyRegs_setReg _ _ _, ?_, rfl⟩
    rw [State.reg_bump_self, (regLen_dropped d).2.2]
    rfl
  · exact completes_of (c := .starveReceived d row ply down) rfl (by apply execStarveReceived_goes; decide)
      ⟨rfl, held_now s d.val _ _ _ (Nat.lt_add_of_pos_right (by decide))⟩
  · exact completes_of (c := .reservationEffect) rfl (by apply execReservationEffect_goes; decide) rfl
  · refine completes_eq (next_congr (if_neg ?_)) (by apply execTurnaroundClose_goes; decide)
    rw [h]
    exact Bool.false_ne_true
  · exact completes_eq rfl (by apply execDieLeavesService_goes <;> decide)
  · refine completes_eq ?_ (by apply execTripTimeout_goes <;> decide)
    show execTripTimeout c s = _
    simp only [execTripTimeout, h]

end Sys2Proof.Machine
end

section
/-! PROOFS. Requests at their destination (chapters 9 and 12): what reads, writes, messages and multicasts leave. -/

namespace Sys2Proof.Machine

/-! ### What a route depends on

A route and an arrival die are read from the live map and from registers below those of the switches: counting at switches and listing
requesters leave them. -/

theorem arcOf_congr {s t : State} (h : t.live = s.live) : t.arcOf = s.arcOf := by
  funext band a b
  unfold State.arcOf
  rw [h]

theorem legs_congr {s t : State} (h : t.live = s.live) : t.legs = s.legs := by
  funext l
  induction l with
  | nil => rfl
  | cons x l ih =>
    obtain ⟨band, a, b⟩ := x
    simp only [State.legs, arcOf_congr h, ih]

theorem routeOf_congr {s t : State} (h : t.live = s.live) : t.routeOf = s.routeOf := by
  funext a b
  simp only [State.routeOf, legs_congr h, State.detourRow, h]

theorem hops_congr {s t : State} (h : t.live = s.live) : t.hops = s.hops := by
  funext a b
  unfold State.hops
  rw [routeOf_congr h]

/-- The same ways: the same live map, and the same registers below those of the switches. -/
def SameWays (s t : State) : Prop := t.live = s.live ∧ ∀ k < 0x660000, t.reg k = s.reg k

theorem sameWays_refl (s : State) : SameWays s s := ⟨rfl, fun _ _ => rfl⟩

theorem sameWays_trans {s t u : State} (h : SameWays s t) (g : SameWays t u) : SameWays s u :=
  ⟨g.1.trans h.1, fun k hk => (g.2 k hk).trans (h.2 k hk)⟩

theorem groupUp_congr {s t : State} (h : SameWays s t) {g : Nat} (hg : g < 16) : t.groupUp g = s.groupUp g := by
  have hk (i : Nat) (hi : i < 256) : rLane g i < 0x660000 := by unfold rLane key; omega
  unfold State.groupUp
  rw [h.2 _ (hk 1 (by decide)), h.2 _ (hk 3 (by decide))]

theorem pairGroup_congr {s t : State} (h : SameWays s t) (header : Nat) : t.pairGroup header = s.pairGroup header := by
  have up : (List.range 16).filter t.groupUp = (List.range 16).filter s.groupUp :=
    List.filter_congr fun g hg => groupUp_congr h (List.mem_range.1 hg)
  have hp : pkPart header < 32 := Nat.mod_lt _ (by decide)
  simp only [State.pairGroup, up, hops_congr h.1, h.2 (key (0x5900 + pkPart header) 1) (by unfold key; omega)]

theorem arrivalDie_congr {s t : State} (h : SameWays s t) (header : Nat) : t.arrivalDie header = s.arrivalDie header := by
  unfold State.arrivalDie
  rw [pairGroup_congr h]

theorem live_modSwitch (s : State) (n : Nat) (g : SwitchState → SwitchState) (hg : ∀ x, (g x).dead = x.dead) :
    (s.modSwitch n g).live = s.live := by
  funext m
  unfold State.live
  by_cases h : m = n
  · subst h
    rw [State.switch_modSwitch_self, hg]
  · rw [State.switch_modSwitch_other _ h]

theorem sameWays_accepted (s : State) (h : Nat) : SameWays s (s.accepted h) :=
  ⟨live_modSwitch s _ _ fun _ => rfl, fun _ _ => rfl⟩

theorem switch_accepted_other (s : State) {h n : Nat} (hn : n ≠ s.arrivalDie h) : (s.accepted h).switch n = s.switch n :=
  s.switch_modSwitch_other hn _

theorem arrivalDie_accepted (s : State) (h g : Nat) : (s.accepted h).arrivalDie g = s.arrivalDie g :=
  arrivalDie_congr (sameWays_accepted s h) g

/-! ### What a request that its destination admits does -/

theorem receive_acts {s : State} {h : Nat} {room : Bool} (hl : s.isLost h = false) (he : s.epochOk h = true)
    (ha : s.admits h room = true) (act : State → State) : s.receive h room false act = act (s.accepted h) := by
  simp only [State.receive, hl, he, ha, Bool.not_true, Bool.false_eq_true, if_false]

theorem receive_bad {s : State} {h : Nat} {room : Bool} (hl : s.isLost h = false) (he : s.epochOk h = true)
    (ha : s.admits h room = true) (act : State → State) :
    s.receive h room true act = ((s.accepted h).bump (rSwitch (s.arrivalDie h) 0xA) 1).answerNow h 0x21 [] [] := by
  simp only [State.receive, hl, he, ha, Bool.not_true, Bool.false_eq_true, if_false, if_true, arrivalDie_accepted]

theorem receive_stale {s : State} {h : Nat} (room bad : Bool) (hl : s.isLost h = false) (he : s.epochOk h = false) (act : State → State) :
    s.receive h room bad act = s.staleRequest h := by
  simp only [State.receive, hl, he, Bool.not_false, Bool.false_eq_true, if_false, if_true]

theorem receive_bounces {s : State} {h : Nat} {room : Bool} (bad : Bool) (hl : s.isLost h = false) (he : s.epochOk h = true)
    (ha : s.admits h room = false) (act : State → State) : s.receive h room bad act = s.bounce h := by
  simp only [State.receive, hl, he, ha, Bool.not_true, Bool.not_false, Bool.false_eq_true, if_false, if_true]

theorem exec_writeInline (header : Desc) (room : Bool) (s : State) : exec (.writeInline header room) s =
    .next (s.receive header.toNat room false fun u => u.acceptWrite header.toNat ((leBytes 64 (pkInline header.toNat)).take
      (pkInlineLen header.toNat)) (inlineWords (pkAddress header.toNat) (pkByteEn header.toNat)
        ((leBytes 64 (pkInline header.toNat)).take (pkInlineLen header.toNat)))) := rfl

/-- A read of host memory waits for its host port. -/
def hostRead (s : State) (h : Nat) : State :=
  let t := s.addResp ⟨0, h, 1, List.replicate (128 * pkLen h) 0, [], 0, false, false, []⟩
  { t with waiting := t.waiting ++ [⟨.host (t.fnOf (pkPart h)), pkPart h, h, [], s.nextResp, none, if onPairLink h then 2 else 0, 2,
    pkQid h, t.now, false, t.clock.cycles, none, false⟩] }

/-- A fast-forward write with a lane group is answered, and sent on to the partner package. -/
theorem acceptFf_sends {s : State} {h g : Nat} (hg : s.pairGroup h = some g) (data : List Byte) : s.acceptFf h data =
    State.pairSend { ((s.answerNow h 0 [] []).ffOpen h) with xacts := ((s.answerNow h 0 [] []).ffOpen h).xacts ++
      [⟨48 + g, 3, pkTag (fromEngine (setBits h 287 280 0x04) (48 + g) 3 (((s.answerNow h 0 [] []).ffOpen h).freeTag (48 + g) 3)),
        fromEngine (setBits h 287 280 0x04) (48 + g) 3 (((s.answerNow h 0 [] []).ffOpen h).freeTag (48 + g) 3),
        ((s.answerNow h 0 [] []).ffOpen h).now, none, 0, 0, pkEpoch h, some (g, false), false, [], false⟩] } g
      (fromEngine (setBits h 287 280 0x04) (48 + g) 3 (((s.answerNow h 0 [] []).ffOpen h).freeTag (48 + g) 3)) data := by
  simp only [State.acceptFf, hg]

theorem acceptFf_answers {s : State} {h : Nat} (hg : s.pairGroup h = none) (data : List Byte) :
    s.acceptFf h data = s.answerNow h 0x60 [] [] := by simp only [State.acceptFf, hg]

theorem resps_pairSend (s : State) (g h : Nat) (data : List Byte) : (s.pairSend g h data).resps = s.resps :=
  (Goes.pairSend (F := [.dict, .lanes, .out, .pairTx, .sec]) g h data (by decide) (by decide) (by decide) (by decide) (by decide)
    (Goes.refl _ s)).1 .resps (by decide)

/-! ### Multicasts (R182, R188) -/

/-- Units counted at switches: the switches, the answers and the lower registers stay. -/
def Counted (s t : State) : Prop :=
  t.switches = s.switches ∧ t.resps = s.resps ∧ t.nextResp = s.nextResp ∧ ∀ k < 0x660000, t.reg k = s.reg k

theorem counted_bump {s t : State} (h : Counted s t) (n i v : Nat) : Counted s (t.bump (rSwitch n i) v) := by
  obtain ⟨sw, resps, next, regs⟩ := h
  refine ⟨sw, resps, next, fun k hk => (State.reg_bump_other _ ?_ _).trans (regs k hk)⟩
  unfold rSwitch key
  omega

theorem counted_foldl {α : Type} {s t : State} {f : State → α → State} (hf : ∀ u a, Counted s u → Counted s (f u a)) (l : List α)
    (h : Counted s t) : Counted s (l.foldl f t) := by
  induction l generalizing t with
  | nil => exact h
  | cons a l ih => exact ih (hf t a h)

theorem live_counted {s t : State} (h : Counted s t) : t.live = s.live := by
  funext n
  unfold State.live State.switch
  rw [h.1]

theorem circuit_counted {s t : State} (h : Counted s t) (band src : Nat) : t.circuit band src = s.circuit band src := by
  unfold State.circuit State.switch
  rw [live_counted h, h.1]

theorem sameWays_counted {s t : State} (h : Counted s t) : SameWays s t := ⟨live_counted h, h.2.2.2⟩

theorem admits_congr {s t : State} (h : SameWays s t) {header : Nat}
    (hl : (t.switch (s.arrivalDie header)).listed = (s.switch (s.arrivalDie header)).listed) (room : Bool) :
    t.admits header room = s.admits header room := by
  unfold State.admits
  rw [arrivalDie_congr h, hl]

theorem deliverCopy_admitted {t : State} {h c : Nat} (ha : t.admits (setBits h 255 250 c) true = true) :
    t.deliverCopy h c true = (t.accepted (setBits h 255 250 c)).answerNow (setBits h 255 250 c) 0 [] [] := by
  simp only [State.deliverCopy, ha, Bool.not_true, Bool.false_eq_true, if_false]

/-- Copies that arrive at different dies do not list one another out: each is admitted as in the state before all of them. -/
theorem deliverCopies (s : State) (h : Nat) (dies : List Nat) (t v : State) (hw : SameWays s t)
    (hl : ∀ c ∈ dies, (t.switch (s.arrivalDie (setBits h 255 250 c))).listed = (s.switch (s.arrivalDie (setBits h 255 250 c))).listed)
    (ha : ∀ c ∈ dies, s.admits (setBits h 255 250 c) true = true)
    (hn : (dies.map fun c => s.arrivalDie (setBits h 255 250 c)).Nodup) (hr : t.resps = v.resps) (hi : t.nextResp = v.nextResp) :
    (dies.foldl (fun s c => s.deliverCopy h c true) t).resps = (dies.foldl (fun s c => s.answerNow (setBits h 255 250 c) 0 [] []) v).resps ∧
    (dies.foldl (fun s c => s.deliverCopy h c true) t).nextResp =
      (dies.foldl (fun s c => s.answerNow (setBits h 255 250 c) 0 [] []) v).nextResp := by
  induction dies generalizing t v with
  | nil => exact ⟨hr, hi⟩
  | cons c dies ih =>
    have admitted := (admits_congr hw (hl c List.mem_cons_self) true).trans (ha c List.mem_cons_self)
    obtain ⟨fresh, nodup⟩ := List.nodup_cons.1 hn
    rw [List.foldl_cons, List.foldl_cons, deliverCopy_admitted admitted]
    refine ih _ _ (sameWays_trans hw (sameWays_accepted t _)) (fun d hd => ?_) (fun d hd => ha d (List.mem_cons_of_mem _ hd)) nodup ?_ ?_
    · have ne : s.arrivalDie (setBits h 255 250 d) ≠ t.arrivalDie (setBits h 255 250 c) := by
        rw [arrivalDie_congr hw]
        exact fun e => fresh (List.mem_map.2 ⟨d, hd, e⟩)
      exact (congrArg SwitchState.listed (switch_accepted_other t ne)).trans (hl d (List.mem_cons_of_mem _ hd))
    · show t.resps ++ [⟨t.nextResp, setBits h 255 250 c, 0, [], [], 0, false, false, []⟩] =
        v.resps ++ [⟨v.nextResp, setBits h 255 250 c, 0, [], [], 0, false, false, []⟩]
      rw [hr, hi]
    · exact congrArg (· + 1) hi

/-- The units that a multicast counts on its row, and on the columns that it turns into. -/
def mcastCounted (s : State) (h u : Nat) (row cols : List Nat) : State :=
  let r := pkSrcDie h / 8
  cols.foldl (fun s c => (s.circuit (8 + c) (8 * r + c)).foldl (fun s n => s.bump (rSwitch n 2) u) (s.bump (rSwitch (8 * r + c) 3) u))
    (row.foldl (fun s n => s.bump (rSwitch n 1) u) s)

theorem counted_mcast (s : State) (h u : Nat) (row cols : List Nat) : Counted s (mcastCounted s h u row cols) :=
  counted_foldl (fun _ _ hu => counted_foldl (fun _ _ hv => counted_bump hv _ _ _) _ (counted_bump hu _ _ _)) _
    (counted_foldl (fun _ _ hu => counted_bump hu _ _ _) _ ⟨rfl, rfl, rfl, fun _ _ => rfl⟩)

theorem exec_mcast {header : Desc} {s : State} (data : List Byte) (hl : s.isLost header.toNat = false)
    (he : s.epochOk header.toNat = true) (hs : pkSrcDie header.toNat < 48) {row cols dies : List Nat}
    (hrow : row = s.circuit (pkSrcDie header.toNat / 8) (pkSrcDie header.toNat))
    (hcols : cols = (List.range 8).filter (fun c => row.contains (8 * (pkSrcDie header.toNat / 8) + c)
      && (List.range 6).any (fun q => q != pkSrcDie header.toNat / 8 && bit (pkAddress header.toNat % 2 ^ 48) (8 * q + c))))
    (hdies : dies = idxs 48 (fun c => bit (pkAddress header.toNat % 2 ^ 48) c &&
      (row ++ cols.flatMap (fun c => s.circuit (8 + c) (8 * (pkSrcDie header.toNat / 8) + c))).contains c)) :
    exec (.mcast header data []) s = .next (dies.foldl (fun s c => s.deliverCopy header.toNat c true)
      (mcastCounted s header.toNat (1 + cdiv data.length 128) row cols)) := by
  subst hrow hcols hdies
  show execMcast header data [] s = _
  have counted := counted_mcast s header.toNat (1 + cdiv data.length 128) (s.circuit (pkSrcDie header.toNat / 8) (pkSrcDie header.toNat))
    ((List.range 8).filter (fun c => (s.circuit (pkSrcDie header.toNat / 8) (pkSrcDie header.toNat)).contains
      (8 * (pkSrcDie header.toNat / 8) + c) && (List.range 6).any (fun q => q != pkSrcDie header.toNat / 8 &&
        bit (pkAddress header.toNat % 2 ^ 48) (8 * q + c))))
  unfold execMcast
  dsimp only
  rw [if_neg (by rw [hl]; exact Bool.false_ne_true), if_neg (by rw [he]; exact Bool.false_ne_true), if_neg (Nat.not_le.2 hs)]
  simp only [List.any_nil, Bool.not_false]
  simp only [mcastCounted] at counted ⊢
  simp only [circuit_counted counted]

/-- Settles O36. -/
theorem requestsComplete : Obligations.RequestsComplete := by
  refine ⟨fun header room s h hh hl he ha hp => ?_, fun header room s h bs hh hl he ha hp hd hc => ?_,
    fun header room s h hh hl he ha hp hd hc => ?_, fun header room s h hh hl he ha hp hd hq => ?_,
    fun header room s h hh hl he ha hp hd hq => ?_, fun header data room s h hh hl he ha hf => ⟨?_, ?_⟩,
    fun header data room s h hh hl he ha => ⟨?_, ?_, ?_⟩, fun header room s h bs hh hl he ha hb => ?_,
    fun header data room s h hh hl he ha hf hg => ?_, fun header data room s h g u h' hh hl he ha hf hg hu hh' => ?_,
    fun header data room s h hh hl he ha hp => ?_, fun header data room s h hh hl he ha hp => ?_,
    fun header data s h dies r row hh hl he hs hr hrow hdies ha hn => ?_, fun header data room s h hh hl he => ⟨?_, ?_, ?_⟩,
    fun header data room s h hh hl he ha => ⟨?_, ?_, ?_⟩⟩ <;> subst hh
  · refine completes_eq ?_ (by apply execRead_goes <;> decide)
    show execRead header room s = _
    simp only [execRead, hl, he, ha, hp, Bool.not_true, Bool.false_eq_true, if_false, if_true]
  · refine completes_of (c := .read header room) (t := (s.accepted header.toNat).answerNow header.toNat 0 bs []) ?_
      (by apply execRead_goes <;> decide) ⟨rfl, rfl⟩
    show execRead header room s = _
    simp only [execRead, hl, he, ha, hp, hd, hc, Bool.not_true, Bool.false_eq_true, if_false, if_true]
  · refine completes_of (c := .read header room) (t := (s.accepted header.toNat).answerNow header.toNat 0
      (List.replicate (128 * pkLen header.toNat) 0) (allUnits header.toNat)) ?_ (by apply execRead_goes <;> decide) rfl
    show execRead header room s = _
    simp only [execRead, hl, he, ha, hp, hd, hc, Bool.not_true, Bool.false_eq_true, if_false, if_true]
  · refine completes_eq ?_ (by apply execRead_goes <;> decide)
    show execRead header room s = _
    simp only [execRead, hl, he, ha, hp, Nat.not_lt.2 hd, hq, Bool.not_true, Bool.false_eq_true, if_false, if_true]
  · refine completes_of (c := .read header room) (t := hostRead (s.accepted header.toNat) header.toNat) ?_
      (by apply execRead_goes <;> decide) ⟨_, rfl, rfl, rfl, rfl, rfl, rfl, rfl⟩
    show execRead header room s = _
    simp only [execRead, hl, he, ha, hp, Nat.not_lt.2 hd, Nat.not_lt.2 hq, Bool.not_true, Bool.false_eq_true, if_false, hostRead]
  · refine completes_eq (next_congr ((receive_acts hl he ha _).trans (if_neg ?_))) (by apply execWrite_goes <;> decide)
    rw [hf]
    exact Bool.false_ne_true
  · refine completes_eq (next_congr ((receive_acts hl he ha _).trans (if_neg ?_))) (by apply execWriteFf_goes <;> decide)
    rw [hf]
    exact Bool.false_ne_true
  · exact completes_eq (next_congr (receive_bad hl he ha _)) (by apply execWrite_goes <;> decide)
  · exact completes_eq (next_congr (receive_bad hl he ha _)) (by apply execWriteFf_goes <;> decide)
  · exact completes_eq (next_congr (receive_bad hl he ha _)) (by apply execMessage_goes <;> decide)
  · subst hb
    exact completes_eq ((exec_writeInline header room s).trans (next_congr (receive_acts hl he ha _)))
      (by apply execWriteInline_goes <;> decide)
  · refine completes_of (c := .writeFf header data room false) (next_congr ((receive_acts hl he ha _).trans ((if_pos hf).trans
      (acceptFf_answers hg data)))) (by apply execWriteFf_goes <;> decide) rfl
  · subst hu hh'
    refine completes_of (c := .writeFf header data room false) (next_congr ((receive_acts hl he ha _).trans ((if_pos hf).trans
      (acceptFf_sends hg data)))) (by apply execWriteFf_goes <;> decide) ⟨(resps_pairSend _ _ _ _).trans rfl, rfl⟩
  · exact completes_eq (next_congr ((receive_acts hl he ha _).trans (if_pos hp))) (by apply execMessage_goes <;> decide)
  · refine completes_of (c := .message header data room false) (next_congr ((receive_acts hl he ha _).trans (if_neg ?_)))
      (by apply execMessage_goes <;> decide) rfl
    rw [hp]
    exact Bool.false_ne_true
  · subst hr
    have counted := counted_mcast s header.toNat (1 + cdiv data.length 128) row ((List.range 8).filter (fun c => row.contains
      (8 * (pkSrcDie header.toNat / 8) + c) && (List.range 6).any (fun q => q != pkSrcDie header.toNat / 8 &&
        bit (pkAddress header.toNat % 2 ^ 48) (8 * q + c))))
    obtain ⟨resps, next⟩ := deliverCopies s header.toNat dies _ s (sameWays_counted counted)
      (fun c _ => by unfold State.switch; rw [counted.1]) ha hn counted.2.1 counted.2.2.1
    obtain ⟨answered, l, hl', heads, clean⟩ := answers dies (fun c => setBits header.toNat 255 250 c) s
    exact completes_of (exec_mcast data hl he hs hrow rfl hdies) (by apply execMcast_goes <;> decide)
      ⟨next.trans answered, l, resps.trans hl', heads, clean⟩
  · exact completes_eq (next_congr (receive_stale _ _ hl he _)) (by apply execMessage_goes <;> decide)
  · exact completes_eq ((exec_writeInline header room s).trans (next_congr (receive_stale _ _ hl he _)))
      (by apply execWriteInline_goes <;> decide)
  · refine completes_eq ?_ (by apply execRead_goes <;> decide)
    show execRead header room s = _
    simp only [execRead, hl, he, Bool.not_false, Bool.false_eq_true, if_false, if_true]
  · exact completes_eq (next_congr (receive_bounces _ hl he ha _)) (by apply execMessage_goes <;> decide)
  · exact completes_eq ((exec_writeInline header room s).trans (next_congr (receive_bounces _ hl he ha _)))
      (by apply execWriteInline_goes <;> decide)
  · refine completes_eq ?_ (by apply execRead_goes <;> decide)
    show execRead header room s = _
    simp only [execRead, hl, he, ha, Bool.not_true, Bool.not_false, Bool.false_eq_true, if_false, if_true]

end Sys2Proof.Machine
end

section
/-! PROOFS. Transfers of a command's streams, grants, responses and timeouts (chapters 7 and 9). -/

namespace Sys2Proof.Machine

theorem onStream_some {s : State} {c : CmdRef} {id die : Nat} {f : Found} {st : Stream} (hf : s.find c = some f)
    (hs : f.cmd.stream id die = some st) (g : State → Found → Stream → State) : s.onStream c id die g = g s f st := by
  simp only [State.onStream, hf, hs]

/-- A transfer that its stream may read, of a stream that does not read the die's own engine, is issued. -/
theorem issueRead_issues {s : State} {f : Found} {c : CmdRef} {st : Stream} {m : Nat × Nat × Nat} (hm : st.moves[st.issued]? = some m)
    (hp : f.cmd.phase = .issued) (hr : st.mayRead = true) (hh : st.home ≠ 3) : s.issueRead f c st = s.issueMove f c st m false [] := by
  simp only [State.issueRead, hm, hp, hr, hh, beq_self_eq_true, Bool.true_or, Bool.not_true, Bool.or_self, Bool.false_eq_true, if_false]

theorem arbitrationGrant_goes (point : Point) (down : Bool) (ply : Fin 12) (ecc : List (DieN × W32)) (s : State) :
    ∃ u, exec (.arbitrationGrant point down ply ecc) s = .next u ∧
      Goes [.channels, .dict, .free, .hostMem, .out, .resps, .splits, .waiting, .xacts] s u := by
  apply execArbitrationGrant_goes <;> decide

/-- Settles O38. -/
theorem transferEventsComplete : Obligations.TransferEventsComplete := by
  refine ⟨fun c fin die popped back s u v f st hu hv hf hs => ?_, fun c fin die s u f st hu hf hs => ?_,
    fun x row down ply ecc s => ?_, fun m ch down ply ecc s r here p q w u v hr hh ht ha hv => ?_,
    fun f down ply ecc s r here e w u hr hh he ha => ?_, fun die eng tag lost s r hr => ?_, fun die eng tag s r hr => ?_,
    fun die eng tag s x lim v u hx hlim hv hu => ?_, fun c fin die popped back late s u f st q hu hf hs hq => ?_⟩
  · subst hu hv
    exact completes_of (c := .transferIssue c fin die popped back) (next_congr (onStream_some hf hs _))
      (by apply execTransferIssue_goes <;> decide) ⟨rfl, fun m hm hp hr hh => issueRead_issues hm hp hr hh⟩
  · subst hu
    exact completes_eq (next_congr (onStream_some hf hs _)) (by apply execOutputWriteIssue_goes <;> decide)
  · exact completes_eq rfl (arbitrationGrant_goes _ _ _ _ _)
  · subst hr hh hv
    refine completes_eq ?_ (arbitrationGrant_goes _ _ _ _ _)
    show execArbitrationGrant (.channel m ch) down ply ecc s = _
    simp only [execArbitrationGrant, ht, ha]
  · subst hr hh
    by_cases hc : pkCmd w.header = 0x01
    · refine completes_of (c := .arbitrationGrant (.host f) down ply ecc) (t := (u.unwait w).emit
        (.hostRead f (pkAddress w.header / 128 * 128) (128 * pkLen w.header))) ?_ (arbitrationGrant_goes _ _ _ _ _)
        ⟨fun _ => rfl, fun h => absurd hc h⟩
      show execArbitrationGrant (.host f) down ply ecc s = _
      simp only [execArbitrationGrant, he, ha, hc, if_true]
    · refine completes_of (c := .arbitrationGrant (.host f) down ply ecc) (t := ((u.unwait w).hostWrite (pkAddress w.header)
        w.data).modResp w.resp (fun r => { r with left := 1 })) ?_ (arbitrationGrant_goes _ _ _ _ _)
        ⟨fun h => absurd h hc, fun _ => rfl⟩
      show execArbitrationGrant (.host f) down ply ecc s = _
      simp only [execArbitrationGrant, he, ha, hc, if_false]
  · refine completes_eq ?_ (by apply execReadData_goes <;> decide)
    show execReadData die eng tag lost s = _
    simp only [execReadData, hr]
  · refine completes_eq ?_ (by apply execSettle_goes <;> decide)
    show execSettle die eng tag s = _
    simp only [execSettle, hr]
  · subst hlim hv hu
    refine completes_eq ?_ (by apply execXactTimeout_goes <;> decide)
    show execXactTimeout die eng tag s = _
    unfold execXactTimeout
    rw [hx]
    rfl
  · subst hu hq
    exact completes_eq (next_congr (onStream_some hf hs _)) (by apply execRateWindow_goes <;> decide)

end Sys2Proof.Machine
end

section
/-! PROOFS. Commands of chapter 5 whose inputs have arrived: the control family, and the carrying out of the others. -/

namespace Sys2Proof.Machine

/-! ### The control family (R86, R126) -/

theorem engineStalls_nil (s : State) (f : Found) : s.engineStalls f [] = s := rfl

/-- Counting engines and popping inputs takes no time and draws no free value. -/
theorem popped_goes (s : State) (f : Found) (st : List (DieC × Fin 9 × W32)) :
    Goes [.dict, .engines, .prun] s (((s.engineStalls f st).endEngines f).popAll f) :=
  Goes.popAll f (by decide) (by decide) (Goes.endEngines f (by decide) (by decide)
    (Goes.engineStalls f st (by decide) (by decide) (Goes.refl _ s)))

theorem popped_now (s : State) (f : Found) (st : List (DieC × Fin 9 × W32)) :
    (((s.engineStalls f st).endEngines f).popAll f).now = s.now := by
  unfold State.now
  rw [show (((s.engineStalls f st).endEngines f).popAll f).clock = s.clock from (popped_goes s f st).1 .clock (by decide)]

theorem popped_drawn (s : State) (f : Found) (st : List (DieC × Fin 9 × W32)) :
    (((s.engineStalls f st).endEngines f).popAll f).drawn = s.drawn := (popped_goes s f st).1 .free (by decide)

/-- A command of the control family whose inputs have arrived. -/
theorem control_runs {s : State} {c : CmdRef} {f : Found} {op : Nat} (hf : s.find c = some f) (ho : dOpcode f.desc = op)
    (hc : s.canCompute f = true) (g : Found → Option Nat) (st : List (DieC × Fin 9 × W32)) : s.control c op g st =
      (if f.run.undef then (((s.engineStalls f st).endEngines f).popAll f).draw
        else ((s.engineStalls f st).endEngines f).popAll f).modRef c (fun x => { x.readBad f.prog.descs with
          ctr := if f.run.tainted f.prog.descs f.cmd.idx then (g f).map (fun _ => leNat (freeBytes s.drawn 4)) else g f
          phase := .computed, settledAt := s.now }) := by
  simp only [State.control, hf, ho, hc, ne_eq, not_true, decide_false, Bool.not_true, Bool.or_self, Bool.false_eq_true, if_false,
    popped_now, popped_drawn]

/-- Settles O39. -/
theorem controlCommandsComplete : Obligations.ControlCommandsComplete := by
  refine ⟨fun c s f hf ho hc => ?_, fun c s f hf ho hc => ?_, fun c s f hf ho hc => ?_, fun c s f hf ho hc => ?_,
    fun c st s f e u hf ho hc ht he hu => ?_⟩
  · refine completes_eq (next_congr ((control_runs hf ho hc _ _).trans ?_)) (by apply execNop_goes <;> decide)
    simp only [engineStalls_nil, Option.map_none, ite_self]
  · refine completes_eq (next_congr ((control_runs hf ho hc _ _).trans ?_)) (by apply execNotify_goes <;> decide)
    simp only [engineStalls_nil, Option.map_none, ite_self]
  · refine completes_eq (next_congr ((control_runs hf ho hc _ _).trans ?_)) (by apply execCtrSet_goes <;> decide)
    simp only [engineStalls_nil, Option.map_some, ← apply_ite some]
  · refine completes_eq (next_congr ((control_runs hf ho hc _ _).trans ?_)) (by apply execCtrAdd_goes <;> decide)
    simp only [engineStalls_nil, Option.map_some, ← apply_ite some]
  · subst hu
    refine completes_eq (next_congr ((control_runs hf ho hc _ _).trans ?_)) (by apply execCtrLoad_goes <;> decide)
    simp only [ht, he, Bool.false_eq_true, if_false, Option.elim_some]

/-! ### Carrying out (R111, R157, R160) -/

/-- Whatever a run's concern, the taking in of a command's results leaves it computed. -/
theorem finishWork_computed {s : State} {f : Found} {r : Run} {c : Cmd} (hr : s.run f.p f.run.id = some r)
    (hc : r.cmd f.cmd.idx = some c) (outs : List (Nat × List Byte)) :
    ∃ r' c', (s.finishWork f outs).run f.p f.run.id = some r' ∧ r'.cmd f.cmd.idx = some c' ∧ c'.phase = .computed := by
  unfold State.finishWork
  extract_lets descs i s₁ free bytes outEnds s₂ s₃
  have noted : Tied f.p f.run.id f.cmd.idx s s₁ := by
    have k (c : Cmd) := dropLost_keeps (((c.readBad descs).inherit descs f.run).dropChecks descs) descs
    have l (c : Cmd) := inherit_keeps (c.readBad descs) descs f.run
    refine Tied.modCmd s _ _ _ (fun c => ?_) (fun c => ?_) (fun c e _ => ?_)
    · exact (k c).1.trans ((l c).1.trans (readBad_keeps c descs).1)
    · exact (k c).2.1.trans ((l c).2.1.trans (readBad_keeps c descs).2.1)
    · unfold Cmd.finish
      rw [(k c).2.2]
      show ((c.readBad descs).inherit descs f.run).ends.find? _ = _
      rw [(l c).2.2, (readBad_keeps c descs).2.2]
  obtain ⟨r₁, c₁, run₁, cmd₁, -⟩ := noted.2 r c hr hc
  have found : (s₁.run f.p f.run.id).bind (fun r => r.cmd i) = some c₁ := by
    rw [run₁]
    exact cmd₁
  rw [found]
  dsimp -zeta only
  extract_lets done s₄ s₅ s₆
  have counted : Tied f.p f.run.id f.cmd.idx s s₃ :=
    noted.trans (Tied.trans (t := s₂) (Tied.ite (Tied.of_prn rfl) (Tied.refl _ _ _ _)) (Tied.endEngines s₂ f))
  have popped : Tied f.p f.run.id f.cmd.idx s₄ (s₆.popAll f) :=
    Tied.trans (Tied.ite (Tied.refl _ _ _ _) (Tied.foldl _ (fun s x => Tied.ite (Tied.pushQueue s _ _ _ _ _) (Tied.refl _ _ _ _)) s₄))
      ((Tied.foldl _ (fun s e => Tied.monitor s _ _ _ _) s₅).trans (Tied.popAll _ f))
  obtain ⟨r₃, c₃, run₃, cmd₃, -⟩ := counted.2 r c hr hc
  obtain ⟨r₄, run₄, cmd₄, -⟩ := modCmd_at run₃ cmd₃ (g := fun c =>
    let c := done.foldl (fun c x => c.modEnd x.1.1 (fun e => { e with data := x.2.1, bad := e.bad ++ x.2.2, full := true })) c
    { c with phase := .computed, settledAt := s₃.now })
    (fun c => foldl_keeps (f := fun (c : Cmd) (x : (Nat × Nat × Nat) × List Byte × List (Nat × Nat)) =>
      c.modEnd x.1.1 (fun e => { e with data := x.2.1, bad := e.bad ++ x.2.2, full := true })) done Cmd.idx (fun _ _ => rfl) c)
  obtain ⟨r₆, c₆, run₆, cmd₆, -, phase, -⟩ := popped.2 r₄ _ run₄ cmd₄
  exact ⟨r₆, c₆, run₆, cmd₆, phase⟩

theorem carriedOut_computed {s : State} {c : CmdRef} {f g : Found} (h : s.find c = some f) (st : List (DieC × Fin 9 × W32))
    (outs : List (Nat × List Byte)) (hg : (s.carriedOut f st outs).find c = some g) : g.cmd.phase = .computed := by
  obtain ⟨hp, hid, hidx, hr, hc, -, -⟩ := find_parts h
  have t : Tied f.p f.run.id f.cmd.idx s
      ((((s.engineStalls f st).endWorks f (fun w => !w.dup && !w.replay)).keepInputs f).measureInputs f) :=
    ((((Tied.engineStalls s f st).trans (Tied.endWorks _ f _)).trans (Tied.keepInputs _ f)).trans (Tied.measureInputs _ f))
  obtain ⟨r₁, c₁, run₁, cmd₁, -⟩ := t.2 _ _ hr hc
  obtain ⟨r', c', run', cmd', phase⟩ := finishWork_computed run₁ cmd₁ outs
  obtain ⟨gp, gid, gidx, grun, gcmd, -, -⟩ := find_parts hg
  rw [gp, ← hp, gid, ← hid] at grun
  rw [gidx, ← hidx] at gcmd
  have er : g.run = r' := Option.some.inj (grun.symm.trans run')
  have ec : g.cmd = c' := Option.some.inj (gcmd.symm.trans (er ▸ cmd'))
  rw [ec, phase]

/-- Carrying out a command of an operation changes its run, its engines and its tiles only. -/
theorem goes_execOp (s : State) (c : CmdRef) (op : Nat) (st : List (DieC × Fin 9 × W32)) :
    Goes [.arrays, .dict, .engines, .free, .prun, .sec, .works] s (s.execOp c op st) :=
  Goes.execOp c op st (by decide) (by decide) (by decide) (by decide) (by decide) (by decide) (by decide) (Goes.refl _ s)

/-- A command whose operation `execOp` carries out. -/
theorem completes_execOp {i : Instr} {s : State} {c : CmdRef} {f : Found} {op : Nat} {st : List (DieC × Fin 9 × W32)} {P : State → Prop}
    (hi : exec i s = .next (s.execOp c op st)) (hf : s.find c = some f) (ho : dOpcode f.desc = op) (hc : s.canCompute f = true)
    (p : P (s.carriedOut f st (outsOf f f.cmd.ends))) : Completes i s [.arrays, .dict, .engines, .free, .prun, .sec, .works] P := by
  have runs : s.execOp c op st = s.carriedOut f st (outsOf f f.cmd.ends) := execOp_runs hf ho hc
  refine completes_at (hi.trans (next_congr runs)) ?_ p
  rw [← runs]
  exact goes_execOp s c op st

/-- Settles O40. -/
theorem operationsComplete : Obligations.OperationsComplete := by
  intro c st s f i op st' hi hf ho hc
  have all : exec i s = .next (s.execOp c op st') := by
    simp only [List.mem_cons, Prod.mk.injEq, List.not_mem_nil, or_false] at hi
    rcases hi with h | h | h | h | h | h | h | h | h | h | h | h | h <;> obtain ⟨rfl, rfl, rfl⟩ := h <;> rfl
  exact completes_execOp all hf ho hc ⟨rfl, fun g hg => carriedOut_computed hf st' _ hg⟩

end Sys2Proof.Machine
end

section
/-! PROOFS. What the data movement of chapter 5 puts into its outputs. -/

namespace Sys2Proof.Machine

/-! ### Lists made of consecutive parts -/

section
variable {α : Type} (g : Nat → List α) (p : Nat → Nat)

/-- A list of consecutive parts is as long as where the next part would begin. -/
theorem length_parts (h0 : p 0 = 0) : ∀ n, (∀ b, b < n → p (b + 1) = p b + (g b).length) → ((List.range n).flatMap g).length = p n
  | 0, _ => by simp [h0]
  | n + 1, h => by
    rw [List.range_succ, List.flatMap_append, List.length_append, length_parts h0 n (fun b hb => h b (by omega)), h n (by omega)]
    simp

/-- An element of a list of consecutive parts, by its part and its place there. -/
theorem getD_parts (h0 : p 0 = 0) (d : α) {b k : Nat} : ∀ n, (∀ b, b < n → p (b + 1) = p b + (g b).length) → b < n →
    k < (g b).length → ((List.range n).flatMap g).getD (p b + k) d = (g b).getD k d
  | 0, _, hb, _ => by omega
  | n + 1, h, hb, hk => by
    have before : ∀ b, b < n → p (b + 1) = p b + (g b).length := fun b hb => h b (by omega)
    have len := length_parts g p h0 n before
    rw [List.range_succ, List.flatMap_append]
    by_cases hbn : b < n
    · have inside : p b + k < ((List.range n).flatMap g).length := by
        have := length_parts g p h0 (b + 1) (fun a ha => h a (by omega))
        have sub := (List.Sublist.flatMap (List.range_sublist.2 (show b + 1 ≤ n by omega)) g).length_le
        have := before b hbn
        omega
      rw [List.getD_append _ _ _ _ inside]
      exact getD_parts h0 d n before hbn hk
    · obtain rfl : b = n := by omega
      rw [List.getD_append_right _ _ _ _ (by omega), len, Nat.add_sub_cancel_left]
      simp
end

/-- An element of rows of one length. -/
theorem getD_rows {α : Type} (g : Nat → List α) {n m r c : Nat} (hg : ∀ r, r < n → (g r).length = m) (hr : r < n) (hc : c < m) (d : α) :
    ((List.range n).flatMap g).getD (r * m + c) d = (g r).getD c d :=
  getD_parts g (fun b => b * m) (Nat.zero_mul m) d n (fun b hb => by rw [hg b hb, Nat.add_mul, Nat.one_mul]) hr (by rw [hg r hr]; exact hc)

/-- An element of a table made row by row. -/
theorem getD_table {α : Type} (g : Nat → Nat → α) {n m r c : Nat} (hr : r < n) (hc : c < m) (d : α) :
    ((List.range n).flatMap fun r => (List.range m).map (g r)).getD (r * m + c) d = g r c := by
  rw [getD_rows _ (m := m) (fun r _ => by simp) hr hc, List.getD_eq_getElem _ _ (by simpa using hc)]
  simp

/-- Where the blocks of 32 of a row begin, the last as long as what is left. -/
theorem block_starts (m b : Nat) : min m (32 * (b + 1)) = min m (32 * b) + min 32 (m - 32 * b) := by omega

theorem block_mem {m c : Nat} (hc : c < m) : c / 32 < cdiv m 32 := by
  unfold cdiv
  simp only [OfNat.ofNat_ne_zero, if_false]
  omega

/-- An element of a row made of blocks of 32. -/
theorem getD_blocks {α : Type} (g : Nat → List α) {m c : Nat} (hg : ∀ b, (g b).length = min 32 (m - 32 * b)) (hc : c < m) (d : α) :
    ((List.range (cdiv m 32)).flatMap g).getD c d = (g (c / 32)).getD (c % 32) d := by
  have at_block := getD_parts g (fun b => min m (32 * b)) (by simp) d (b := c / 32) (k := c % 32) (cdiv m 32)
    (fun b _ => by rw [hg b]; exact block_starts m b) (block_mem hc) (by rw [hg]; omega)
  rwa [show min m (32 * (c / 32)) + c % 32 = c by omega] at at_block

theorem length_blocks {α : Type} (g : Nat → List α) {m : Nat} (hg : ∀ b, (g b).length = min 32 (m - 32 * b)) :
    ((List.range (cdiv m 32)).flatMap g).length = m := by
  rw [length_parts g (fun b => min m (32 * b)) (by simp) _ (fun b _ => by rw [hg b]; exact block_starts m b)]
  unfold cdiv
  simp only [OfNat.ofNat_ne_zero, if_false]
  omega

/-! ### Items that are moved (R79, R86) -/

theorem length_mxBlock (f : Fmt) (vs : List (Val × Rnd)) : (mxBlock f vs).2.length = vs.length := by
  unfold mxBlock
  dsimp only
  split
  · simp
  · split <;> simp

/-- A block that is moved keeps its length. -/
theorem length_moveBlock (ins : List Item) (f : Fmt) (cv : Conv) (along : Bool) (els : List (Nat × Source)) :
    (moveBlock ins f cv along els).2.length = els.length := by
  unfold moveBlock
  extract_lets afresh
  have whole : afresh.2.length = els.length := by simp [afresh, length_mxBlock]
  split
  · exact whole
  · extract_lets it p0 len same
    by_cases h : same = true
    · rw [if_pos h]
      simp
    · rw [if_neg h]
      exact whole

/-- Block `b` of row `r` of an item that is moved, its blocks along the columns. -/
def rowBlock (ins : List Item) (f : Fmt) (cols : Nat) (cv : Conv) (src : Nat → Nat → Source) (r b : Nat) : Nat × List Nat :=
  moveBlock ins f cv true ((List.range (min 32 (cols - 32 * b))).map fun k => (r * cols + 32 * b + k, src r (32 * b + k)))

/-- Block `b` of column `c` of an item that is moved, its blocks along the rows. -/
def columnBlock (ins : List Item) (f : Fmt) (rows cols : Nat) (cv : Conv) (src : Nat → Nat → Source) (b c : Nat) : Nat × List Nat :=
  moveBlock ins f cv false ((List.range (min 32 (rows - 32 * b))).map fun k => ((32 * b + k) * cols + c, src (32 * b + k) c))

theorem length_rowBlock (ins : List Item) (f : Fmt) (cols : Nat) (cv : Conv) (src : Nat → Nat → Source) (r b : Nat) :
    (rowBlock ins f cols cv src r b).2.length = min 32 (cols - 32 * b) := by
  unfold rowBlock
  rw [length_moveBlock, List.length_map, List.length_range]

section
variable (ins : List Item) {f : Fmt} {rows cols : Nat} {along : Bool} (cv : Conv) (src : Nat → Nat → Source) {r c : Nat}
  (hr : r < rows) (hc : c < cols)
include hr hc

/-- Outside MX each element is moved on its own. -/
theorem codeAt_moveItem (hx : fmtMx f = false) :
    codeAt (moveItem ins f rows cols along cv src) r c = moveElem ins f cv (r * cols + c) (src r c) := by
  unfold moveItem codeAt
  simp only [hx, Bool.false_eq_true, if_false]
  exact getD_table (fun r c => moveElem ins f cv (r * cols + c) (src r c)) hr hc 0

/-- Blocks along the columns: an element lies in block `c / 32` of its row, at `c % 32`. -/
theorem moveItem_rowBlock (hx : fmtMx f = true) : let y := moveItem ins f rows cols true cv src
    (scaleAt y r c, codeAt y r c) = ((rowBlock ins f cols cv src r (c / 32)).1, (rowBlock ins f cols cv src r (c / 32)).2.getD (c % 32) 0) := by
  have made : moveItem ins f rows cols true cv src =
      { fmt := f, rows := rows, cols := cols, along := true
        codes := ((List.range rows).flatMap fun r => (List.range (cdiv cols 32)).map (rowBlock ins f cols cv src r)).flatMap (·.2)
        scales := ((List.range rows).flatMap fun r => (List.range (cdiv cols 32)).map (rowBlock ins f cols cv src r)).map (·.1) } := by
    unfold moveItem rowBlock
    simp only [hx, if_true]
  simp only [made, scaleAt, codeAt, if_true, Prod.mk.injEq]
  constructor
  · rw [List.map_flatMap]
    simp only [List.map_map]
    exact getD_table (fun r b => (rowBlock ins f cols cv src r b).1) hr (block_mem hc) 0
  · rw [List.flatMap_assoc]
    simp only [List.flatMap_map]
    rw [getD_rows _ (m := cols) (fun r _ => length_blocks _ (length_rowBlock ins f cols cv src r)) hr hc]
    exact getD_blocks _ (length_rowBlock ins f cols cv src r) hc 0

/-- Blocks along the rows: an element lies in block `r / 32` of its column, at `r % 32`. -/
theorem moveItem_columnBlock (hx : fmtMx f = true) : let y := moveItem ins f rows cols false cv src
    (scaleAt y r c, codeAt y r c) =
      ((columnBlock ins f rows cols cv src (r / 32) c).1, (columnBlock ins f rows cols cv src (r / 32) c).2.getD (r % 32) 0) := by
  have made : moveItem ins f rows cols false cv src =
      { fmt := f, rows := rows, cols := cols, along := false
        scales := ((List.range (cdiv rows 32)).flatMap fun b => (List.range cols).map (columnBlock ins f rows cols cv src b)).map (·.1)
        codes := (List.range rows).flatMap fun r => (List.range cols).map fun c =>
          ((((List.range (cdiv rows 32)).flatMap fun b => (List.range cols).map (columnBlock ins f rows cols cv src b)).getD
            ((r / 32) * cols + c) (0, [])).2).getD (r % 32) 0 } := by
    unfold moveItem columnBlock
    simp only [hx, if_true, Bool.false_eq_true, if_false]
  simp only [made, scaleAt, codeAt, Bool.false_eq_true, if_false, Prod.mk.injEq]
  constructor
  · rw [List.map_flatMap]
    simp only [List.map_map]
    exact getD_table (fun b c => (columnBlock ins f rows cols cv src b c).1) (block_mem hr) hc 0
  · rw [getD_table _ hr hc, getD_table _ (block_mem hr) hc]
end

/-- An item that is built element by element has each element from its source. -/
theorem moveItem_moved (ins : List Item) (f : Fmt) (rows cols : Nat) (along : Bool) (cv : Conv) (src : Nat → Nat → Source) :
    Moved ins f rows cols along cv src (moveItem ins f rows cols along cv src) := by
  refine ⟨?_, fun hx r c i a b hr hc hs hf => ?_, fun hx r c i a b hr hc hs hf => ?_, fun hx r c hr hc hs => ?_,
    fun hx ha r c hr hc => ?_, fun hx ha r c hr hc => ?_⟩
  · unfold moveItem
    split
    · split <;> exact ⟨rfl, rfl, rfl⟩
    · exact ⟨rfl, rfl, rfl⟩
  · rw [codeAt_moveItem ins cv src hr hc hx, hs]
    exact if_pos hf
  · rw [codeAt_moveItem ins cv src hr hc hx, hs]
    exact if_neg hf
  · rw [codeAt_moveItem ins cv src hr hc hx, hs]
    rfl
  · subst ha
    exact moveItem_rowBlock ins cv src hr hc hx
  · subst ha
    exact moveItem_columnBlock ins cv src hr hc hx

/-- A copy, turned or not. -/
theorem opMove_copied (it : Item) (tr : Bool) : Copied it tr (opMove it tr) := by
  refine ⟨?_, fun h => ?_, fun h => ⟨?_, ?_, fun r c hr hc => ?_⟩⟩
  · unfold opMove
    split <;> exact ⟨rfl, rfl, rfl⟩
  · rw [h]
    rfl
  · rw [h]
    rfl
  · rw [h]
    rfl
  · rw [h]
    exact getD_table (fun c r => codeAt it r c) hr hc 0

/-- The highest index of those that name a row, as SCATTER looks for it. -/
theorem lastIndex_spec (ix : Item) (tx : Bool) (n r : Nat) :
    (∀ i, lastIndex ix tx n r = some i → i < n ∧ indexAt ix tx i = (r : Int) ∧ ∀ j, i < j → j < n → indexAt ix tx j ≠ (r : Int)) ∧
    (lastIndex ix tx n r = none → ∀ j, j < n → indexAt ix tx j ≠ (r : Int)) := by
  induction n with
  | zero => exact ⟨fun i h => by simp [lastIndex] at h, fun _ j hj => by omega⟩
  | succ n ih =>
    have step : lastIndex ix tx (n + 1) r = if indexAt ix tx n = (r : Int) then some n else lastIndex ix tx n r := by
      unfold lastIndex
      rw [List.range_succ, List.foldl_append]
      rfl
    obtain ⟨some_ih, none_ih⟩ := ih
    rw [step]
    by_cases h : indexAt ix tx n = (r : Int)
    · rw [if_pos h]
      refine ⟨fun i hi => ?_, fun hi => by simp at hi⟩
      obtain rfl := Option.some.inj hi
      exact ⟨by omega, h, fun j _ _ => by omega⟩
    · rw [if_neg h]
      refine ⟨fun i hi => ?_, fun hi j hj => ?_⟩
      · obtain ⟨hin, hir, after⟩ := some_ih i hi
        refine ⟨by omega, hir, fun j hij hj => ?_⟩
        by_cases hjn : j = n
        · rwa [hjn]
        · exact after j hij (by omega)
      · by_cases hjn : j = n
        · rwa [hjn]
        · exact none_ih hi j (by omega)

/-- Where an element of a scatter comes from. -/
def scatterSrc (a ix : Item) (ta tx tb : Bool) (r c : Nat) : Source :=
  match lastIndex ix tx (opShape a ta).1 r with
  | some i => tsrc 0 ta i c
  | none => tsrc 1 tb r c

theorem scatterSrc_named {a ix : Item} {ta tx : Bool} (tb : Bool) {i r : Nat} (c : Nat) (hi : i < (opShape a ta).1)
    (hr : indexAt ix tx i = (r : Int)) (last : ∀ j, i < j → j < (opShape a ta).1 → indexAt ix tx j ≠ (r : Int)) :
    scatterSrc a ix ta tx tb r c = tsrc 0 ta i c := by
  obtain ⟨some_spec, none_spec⟩ := lastIndex_spec ix tx (opShape a ta).1 r
  unfold scatterSrc
  cases h : lastIndex ix tx (opShape a ta).1 r with
  | none => exact absurd hr (none_spec h i hi)
  | some k =>
    obtain ⟨hk, hkr, after⟩ := some_spec k h
    have : k = i := by
      rcases Nat.lt_trichotomy k i with h | h | h
      · exact absurd hr (after i h hi)
      · exact h
      · exact absurd hkr (last k h hk)
    rw [this]

theorem scatterSrc_base {a ix : Item} {ta tx : Bool} (tb : Bool) {r : Nat} (c : Nat)
    (h : ∀ i, i < (opShape a ta).1 → indexAt ix tx i ≠ (r : Int)) : scatterSrc a ix ta tx tb r c = tsrc 1 tb r c := by
  unfold scatterSrc
  cases hl : lastIndex ix tx (opShape a ta).1 r with
  | none => rfl
  | some k =>
    obtain ⟨hk, hkr, -⟩ := (lastIndex_spec ix tx (opShape a ta).1 r).1 k hl
    exact absurd hkr (h k hk)

/-- A filled item holds its code in every element, and the scale 0x7F in every block. -/
theorem opFill_filled (f : Fmt) {rows cols : Nat} (along : Bool) (code : Nat) {r c : Nat} (hr : r < rows) (hc : c < cols) :
    codeAt (opFill f rows cols along code) r c = code % 2 ^ fmtWidth f ∧
      (fmtMx f = true → scaleAt (opFill f rows cols along code) r c = 0x7F) := by
  have place {r n c m : Nat} (hr : r < n) (hc : c < m) : r * m + c < n * m :=
    calc r * m + c < (r + 1) * m := by rw [Nat.add_mul]; omega
      _ ≤ n * m := Nat.mul_le_mul_right m hr
  have held {n k x : Nat} (h : k < n) : (List.replicate n x).getD k 0 = x := by
    rw [List.getD_eq_getElem _ _ (by simpa using h), List.getElem_replicate]
  refine ⟨held (place hr hc), fun hx => ?_⟩
  unfold opFill scaleAt
  simp only [hx, if_true]
  cases along with
  | true => exact held (place hr (block_mem hc))
  | false => exact held (place (block_mem hr) hc)

/-! ### The data-movement family -/

/-- What an operation makes for OUT0 stands at its end once the command is carried out. -/
theorem execOp_gave_one {s : State} {c : CmdRef} {f : Found} {op : Nat} (h : s.Fed c f op) (hop : op ≠ 0x60) (hb : op ≠ 0x50)
    (st : List (DieC × Fin 9 × W32)) (hn : f.names 4) {bs : List Byte}
    (made : made f.desc f.run.seed f.along (stageIn f.cmd.ends [] 0 f.desc) = [(4, bs)]) :
    (s.carriedOut f st (outsOf f f.cmd.ends)).Gave c 4 (f.bytesAt 4 bs) := by
  have gave := execOp_gave h hop hb st (i := 4) (by decide) (by decide) hn
  rwa [made] at gave

/-- TEE makes one item for each output slot in use. -/
theorem find_outSlots {d i : Nat} (hu : sUsed (dSlot d i) = true) (h4 : 4 ≤ i) (h8 : i < 8) (bs : List Byte) :
    ((outSlots d).map (fun e => (e.1, bs))).find? (fun o => o.1 == i) = some (i, bs) := by
  have mem : (i, dSlot d i) ∈ outSlots d := by
    simp only [outSlots, usedSlots, List.mem_filter, List.mem_map, List.mem_range, decide_eq_true_eq]
    exact ⟨⟨⟨i, h8, rfl⟩, hu⟩, h4⟩
  have some_found : (((outSlots d).map (fun e => (e.1, bs))).find? (fun o => o.1 == i)).isSome = true :=
    List.find?_isSome.2 ⟨(i, bs), List.mem_map.2 ⟨_, mem, rfl⟩, beq_self_eq_true i⟩
  obtain ⟨x, hx⟩ := Option.isSome_iff_exists.1 some_found
  obtain ⟨e, -, rfl⟩ := List.mem_map.1 (List.mem_of_find?_eq_some hx)
  have : e.1 = i := by simpa using List.find?_some hx
  rw [hx, this]

/-- Settles O41. -/
theorem dataMovementCompletes : Obligations.DataMovementCompletes := by
  refine ⟨fun c st s f h hn => ?_, fun c st s f h hn => ?_, fun c st s f sh h hn hs => ?_, fun c st s f ix h hn hx => ?_,
    fun c st s f ix n h hn hx hl => ?_, fun c st s f h => ?_, fun c st s f o h hn ho => ?_⟩
  · refine completes_execOp rfl h.found h.opcode h.inputs ⟨rfl, opMove (f.input 0) (f.turned 0), ?_, opMove_copied _ _⟩
    refine execOp_gave_one h (by decide) (by decide) st hn ?_
    simp only [made, h.opcode, input_fed h (by decide), Found.turned]
  · refine completes_execOp rfl h.found h.opcode h.inputs ⟨rfl, _, ?_, moveItem_moved _ _ _ _ _ _ _⟩
    refine execOp_gave_one h (by decide) (by decide) st hn ?_
    simp only [made, h.opcode, opSlice, input_fed h (by decide), Found.turned, Found.conv]
  · subst hs
    refine completes_execOp rfl h.found h.opcode h.inputs ⟨rfl, _, ?_, moveItem_moved _ _ _ _ _ _ _⟩
    refine execOp_gave_one h (by decide) (by decide) st hn ?_
    simp only [made, h.opcode, opConcat, input_fed h (by decide), Found.turned, Found.conv, beq_iff_eq]
  · subst hx
    refine completes_execOp rfl h.found h.opcode h.inputs ⟨rfl, _, ?_, moveItem_moved _ _ _ _ _ _ _⟩
    refine execOp_gave_one h (by decide) (by decide) st hn ?_
    simp only [made, h.opcode, opGather, input_fed h (by decide), Found.turned, Found.conv]
  · subst hx hl
    refine completes_execOp rfl h.found h.opcode h.inputs ⟨rfl, _,
      scatterSrc (f.input 0) (f.input 1) (f.turned 0) (f.turned 1) (f.turned 2), ?_, moveItem_moved _ _ _ _ _ _ _,
      fun i r c hi hr last => scatterSrc_named _ c hi hr last, fun r c h => scatterSrc_base _ c h⟩
    refine execOp_gave_one h (by decide) (by decide) st hn ?_
    simp only [made, h.opcode, opScatter, input_fed h (by decide), Found.turned, Found.conv]
    rfl
  · refine completes_execOp rfl h.found h.opcode h.inputs ⟨rfl, opMove (f.input 0) (f.turned 0), opMove_copied _ _, fun i hi h8 hn => ?_⟩
    have gave := execOp_gave h (by decide) (by decide) st hi h8 hn
    simp only [made, h.opcode, find_outSlots hn.1 hi h8, Option.elim_some] at gave
    rwa [input_fed h (by decide)]
  · subst ho
    refine completes_execOp rfl h.found h.opcode h.inputs ⟨rfl, _, ?_, rfl, rfl, rfl, fun r c hr hc => opFill_filled _ (f.along 4) _ hr hc⟩
    refine execOp_gave_one h (by decide) (by decide) st hn ?_
    simp only [made, h.opcode]

end Sys2Proof.Machine
end

section
/-! PROOFS. What the matrix products and the vector family of chapter 5 put into their outputs. -/

namespace Sys2Proof.Machine

/-! ### Operands and results as tables -/

/-- The `n` rows of `m` elements whose element (r, c) is `g r c`. -/
def table {α : Type} (n m : Nat) (g : Nat → Nat → α) : List (List α) := (List.range n).map fun r => (List.range m).map (g r)

section
variable {α β : Type} {n m : Nat} (g : Nat → Nat → α)

@[simp] theorem length_table : (table n m g).length = n := by simp [table]

theorem getD_table_row {r : Nat} (hr : r < n) (d : List α) : (table n m g).getD r d = (List.range m).map (g r) := by
  unfold table
  rw [List.getD_eq_getElem _ _ (by simpa using hr)]
  simp

theorem table_congr {g h : Nat → Nat → α} (e : ∀ r c, r < n → c < m → g r c = h r c) : table n m g = table n m h :=
  List.map_congr_left fun r hr => List.map_congr_left fun c hc => e r c (List.mem_range.1 hr) (List.mem_range.1 hc)

theorem map_table (k : List α → β) : (table n m g).map k = (List.range n).map fun r => k ((List.range m).map (g r)) := by
  simp [table, Function.comp_def]

theorem map_map_table (k : α → β) : (table n m g).map (fun row => row.map k) = table n m (fun r c => k (g r c)) := by
  simp [table, Function.comp_def]

theorem mapIdx_range (k : Nat → α → β) (f : Nat → α) : ((List.range n).map f).mapIdx k = (List.range n).map fun i => k i (f i) := by
  apply List.ext_getElem <;> simp

theorem mapIdx_mapIdx_table (k : Nat → Nat → α → β) :
    (table n m g).mapIdx (fun r row => row.mapIdx (k r)) = table n m (fun r c => k r c (g r c)) := by
  unfold table
  rw [mapIdx_range]
  simp only [mapIdx_range]

theorem zipWith_table (k : α → β → α) (h : Nat → Nat → β) :
    (table n m g).zipWith (fun ra rb => ra.zipWith k rb) (table n m h) = table n m (fun r c => k (g r c) (h r c)) := by
  simp [table, List.zipWith_map, List.zipWith_self]

theorem take_drop_table (a b : Nat) (hab : a + b ≤ n) : ((table n m g).drop a).take b = table b m (fun r => g (a + r)) := by
  apply List.ext_getElem
  · simp; omega
  · intro i _ _
    simp [table]
end

theorem cell_table {n m : Nat} (g : Nat → Nat → Val) {r c : Nat} (hr : r < n) (hc : c < m) : cell (table n m g) r c = g r c := by
  unfold cell
  rw [getD_table_row g hr, List.getD_eq_getElem _ _ (by simpa using hc)]
  simp

theorem shaped_table (n m : Nat) (g : Nat → Nat → Val) : Shaped (table n m g) n m := by
  refine ⟨length_table g, fun r hr => ?_⟩
  obtain ⟨i, -, rfl⟩ := List.mem_map.1 hr
  simp

theorem transposeL_table (n m : Nat) (g : Nat → Nat → Val) : transposeL m (table n m g) = table m n (fun c r => g r c) := by
  refine List.map_congr_left fun c hc => ?_
  rw [map_table]
  refine List.map_congr_left fun r _ => ?_
  rw [List.getD_eq_getElem _ _ (by simpa using hc)]
  simp

theorem itemRows_table (it : Item) : itemRows it = table it.rows it.cols (valAt it) := rfl

/-- An operand as its operation sees it (R83). -/
theorem opRows_table (it : Item) (tr : Bool) : opRows it tr = table (opShape it tr).1 (opShape it tr).2 (usedAt it tr) := by
  cases tr with
  | false => exact itemRows_table it
  | true => exact (congrArg _ (itemRows_table it)).trans (transposeL_table _ _ _)

/-! ### Matrix products (R86, R87) -/

/-- Rows and columns of one of `n` problems of an operand. -/
def problemOf (it : Item) (tr : Bool) (n : Nat) : Nat × Nat := if tr then (it.cols, it.rows / n) else (it.rows / n, it.cols)

/-- A problem of a batched operand as its operation sees it (R87). -/
theorem problemRows_table (it : Item) (tr : Bool) {n q : Nat} (hq : q < n) :
    problemRows it tr n q = table (problemOf it tr n).1 (problemOf it tr n).2 (problemAt it tr n q) := by
  have inside : q * (it.rows / n) + it.rows / n ≤ it.rows :=
    calc q * (it.rows / n) + it.rows / n = (q + 1) * (it.rows / n) := by rw [Nat.add_mul, Nat.one_mul]
      _ ≤ n * (it.rows / n) := Nat.mul_le_mul_right _ hq
      _ ≤ it.rows := Nat.mul_div_le it.rows n
  unfold problemRows
  dsimp only
  rw [itemRows_table, take_drop_table _ _ _ inside]
  cases tr with
  | false => rfl
  | true => exact transposeL_table _ _ _

/-- A product's element is the product sum of a row and a column. -/
theorem matRows_table (md : MatMode) (isInt sat : Bool) (m k p l : Nat) (g h : Nat → Nat → Val) :
    (matRows md isInt sat (table m k g) (table p l h)).1 =
      table m p (fun i j => (dotMode md isInt sat ((List.range k).map (g i)) ((List.range l).map (h j))).1) := by
  simp [matRows, table, Function.comp_def]

/-- Element (i, j) of problem `q` of a matrix product. -/
def productAt (a b : Item) (ta tb : Bool) (md : MatMode) (sat : Bool) (n q i j : Nat) : Val :=
  (dotMode md (fmtInt a.fmt) sat ((List.range (problemOf a ta n).2).map (fun k => problemAt a ta n q i k))
    ((List.range (problemOf b tb n).1).map (fun k => problemAt b tb n q k j))).1

/-- The result of a matrix product: its problems one below the other. -/
theorem opMatmul_rows (a b : Item) (ta tb : Bool) (md : MatMode) (sat : Bool) (n : Nat) (hb : 0 < (problemOf b tb n).1) :
    (opMatmul a b ta tb md sat n).1 =
      (List.range n).flatMap fun q => table (problemOf a ta n).1 (problemOf b tb n).2 (productAt a b ta tb md sat n q) := by
  unfold opMatmul
  dsimp only
  rw [List.flatMap_map]
  refine List.flatMap_congr fun q hq => ?_
  have hq := List.mem_range.1 hq
  have width : ((table (problemOf b tb n).1 (problemOf b tb n).2 (problemAt b tb n q)).headD []).length = (problemOf b tb n).2 := by
    obtain ⟨k, hk⟩ := Nat.exists_eq_succ_of_ne_zero hb.ne'
    rw [hk]
    simp [table, List.range_succ_eq_map]
  rw [problemRows_table a ta hq, problemRows_table b tb hq, width, transposeL_table, matRows_table]
  rfl

/-- Where a product of the problems of a batch stands. -/
theorem opMatmul_shaped (a b : Item) (ta tb : Bool) (md : MatMode) (sat : Bool) (n : Nat) (hb : 0 < (problemOf b tb n).1) :
    Shaped (opMatmul a b ta tb md sat n).1 (n * (problemOf a ta n).1) (problemOf b tb n).2 := by
  rw [opMatmul_rows a b ta tb md sat n hb]
  refine ⟨?_, fun r hr => ?_⟩
  · rw [length_parts _ (fun q => q * (problemOf a ta n).1) (Nat.zero_mul _) n (fun q _ => by simp [Nat.add_mul])]
  · obtain ⟨q, -, hq⟩ := List.mem_flatMap.1 hr
    exact (shaped_table _ _ _).2 r hq

theorem opMatmul_cell (a b : Item) (ta tb : Bool) (md : MatMode) (sat : Bool) {n q i j : Nat} (hb : 0 < (problemOf b tb n).1)
    (hq : q < n) (hi : i < (problemOf a ta n).1) (hj : j < (problemOf b tb n).2) :
    cell (opMatmul a b ta tb md sat n).1 (q * (problemOf a ta n).1 + i) j = productAt a b ta tb md sat n q i j := by
  rw [opMatmul_rows a b ta tb md sat n hb]
  unfold cell
  rw [getD_rows _ (fun q _ => length_table _) hq hi]
  exact cell_table _ hi hj

/-- One problem is the whole operand. -/
theorem problemOf_one (it : Item) (tr : Bool) : problemOf it tr 1 = opShape it tr := by
  unfold problemOf opShape
  rw [Nat.div_one]

theorem problemAt_one (it : Item) (tr : Bool) (r c : Nat) : problemAt it tr 1 0 r c = usedAt it tr r c := by
  unfold problemAt usedAt
  simp

/-- An input of an unfused command has the format and the shape of its slot. -/
theorem input_slot {s : State} {c : CmdRef} {f : Found} {op : Nat} (h : s.Fed c f op) (hop : op ≠ 0x60) (i : Nat) :
    (f.input i).fmt = sFmt (dSlot f.desc i) ∧ (f.input i).rows = sRows (dSlot f.desc i) ∧ (f.input i).cols = sCols (dSlot f.desc i) := by
  rw [input_fed h hop]
  exact ⟨rfl, rfl, rfl⟩

theorem problemOf_input {s : State} {c : CmdRef} {f : Found} {op : Nat} (h : s.Fed c f op) (hop : op ≠ 0x60) (i n : Nat) :
    problemOf (f.input i) (f.turned i) n = problemShape (dSlot f.desc i) n := by
  obtain ⟨-, rows, cols⟩ := input_slot h hop i
  unfold problemOf problemShape
  rw [rows, cols]
  rfl

/-- Settles O42. -/
theorem matrixProductsComplete : Obligations.MatrixProductsComplete := by
  refine ⟨fun c s f h hn hb => ?_, fun c s f n a b h hn he ha hb hb1 hb2 => ?_⟩
  · rw [← problemOf_one] at hb
    refine completes_execOp rfl h.found h.opcode h.inputs ⟨rfl,
      (opMatmul (f.input 0) (f.input 1) (f.turned 0) (f.turned 1) (matMode f.desc) (dSat f.desc) 1).1, ?_, ?_, fun i j hi hj => ?_⟩
    · refine execOp_gave_one h (by decide) (by decide) [] hn ?_
      simp only [made, h.opcode, input_fed h (by decide), Found.turned]
    · have shaped := opMatmul_shaped (f.input 0) (f.input 1) (f.turned 0) (f.turned 1) (matMode f.desc) (dSat f.desc) 1 hb
      rwa [problemOf_one, problemOf_one, Nat.one_mul] at shaped
    · rw [← problemOf_one] at hi hj
      have product := opMatmul_cell (f.input 0) (f.input 1) (f.turned 0) (f.turned 1) (matMode f.desc) (dSat f.desc) hb
        Nat.one_pos hi hj
      rw [Nat.zero_mul, Nat.zero_add] at product
      rw [product]
      simp only [productAt, problemOf_one, problemAt_one, (input_slot h (by decide) 0).1]
  · have e0 : problemOf (f.input 0) (f.turned 0) n = a := (problemOf_input h (by decide) 0 n).trans ha.symm
    have e1 : problemOf (f.input 1) (f.turned 1) n = b := (problemOf_input h (by decide) 1 n).trans hb.symm
    subst he
    refine completes_execOp rfl h.found h.opcode h.inputs ⟨rfl,
      (opMatmul (f.input 0) (f.input 1) (f.turned 0) (f.turned 1) (matMode f.desc) (dSat f.desc) (dImm f.desc 0)).1, ?_, ?_,
      fun q i j hq hi hj => ?_⟩
    · refine execOp_gave_one h (by decide) (by decide) [] hn ?_
      simp only [made, h.opcode, input_fed h (by decide), Found.turned]
    · have shaped := opMatmul_shaped (f.input 0) (f.input 1) (f.turned 0) (f.turned 1) (matMode f.desc) (dSat f.desc) (dImm f.desc 0)
        (by rwa [e1])
      rwa [e0, e1] at shaped
    · have product := opMatmul_cell (f.input 0) (f.input 1) (f.turned 0) (f.turned 1) (matMode f.desc) (dSat f.desc) (by rwa [e1])
        hq (by rwa [e0]) (by rwa [e1])
      unfold productAt at product
      rw [e0, e1, (input_slot h (by decide) 0).1] at product
      exact product

/-! ### The vector family (R68, R70, R71, R86, R88, R89) -/

/-- The second source of a chain at (r, c), spread from one row or one column. -/
def spreadAt (b : Option (Item × Bool)) (r c : Nat) : Val :=
  let rows := b.elim [] (fun x => opRows x.1 x.2)
  let sh := b.elim (0, 0) (fun x => opShape x.1 x.2)
  (rows.getD (if sh.1 = 1 then 0 else r) []).getD (if sh.2 = 1 then 0 else c) .nan

/-- Inside the operand, the element it spreads. -/
theorem spreadAt_some (it : Item) (tr : Bool) {r c k l : Nat} (hk : k = (if (opShape it tr).1 = 1 then 0 else r))
    (hl : l = (if (opShape it tr).2 = 1 then 0 else c)) (bk : k < (opShape it tr).1) (bl : l < (opShape it tr).2) :
    spreadAt (some (it, tr)) r c = usedAt it tr k l := by
  unfold spreadAt
  dsimp only [Option.elim_some]
  rw [opRows_table, ← hk, ← hl]
  exact cell_table _ bk bl

/-- A chain runs on every element. -/
theorem opVecChain_table (a : Item) (ta : Bool) (b : Option Item) (tb fp64 sat : Bool) (imm k0 k1 : Nat) (w : Fmt × Flt)
    (hw : w = if fp64 then (Fmt.fp64, flt64) else (Fmt.fp32, flt32)) :
    opVecChain a ta b tb fp64 sat imm k0 k1 = table (opShape a ta).1 (opShape a ta).2 (fun r c =>
      runChain w.2 (toWork w.1 sat (usedAt a ta r c)) (toWork w.1 sat (spreadAt (b.map fun x => (x, tb)) r c)) k0 k1 (chainOf imm)) := by
  unfold opVecChain
  dsimp only
  rw [opRows_table, mapIdx_mapIdx_table]
  cases fp64 <;> cases b <;> subst hw <;> rfl

/-- The values for the columns that a row operation takes from an operand. -/
def columnValues (sat : Bool) (o : Option (Item × Bool)) : List Val :=
  o.elim [] fun x => ((opRows x.1 x.2).headD []).map (toWork .fp32 sat)

/-- A row operation runs on every row. -/
theorem opRowOp_rows (kind : Nat) (sat : Bool) (eps : Val) (a : Item) (ta : Bool) (g b : Option (Item × Bool)) :
    opRowOp kind sat eps a ta g b = (List.range (opShape a ta).1).map fun r => rowOp kind eps (columnValues sat g) (columnValues sat b)
      ((List.range (opShape a ta).2).map fun k => toWork .fp32 sat (usedAt a ta r k)) := by
  unfold opRowOp
  dsimp only
  rw [opRows_table, map_table]
  simp only [List.map_map, Function.comp_def]
  cases g <;> cases b <;> rfl

/-- The operand of a row operation that holds one value for each column. -/
theorem headD_opRows (it : Item) (tr : Bool) : (opRows it tr).headD [] =
    if 0 < (opShape it tr).1 then (List.range (opShape it tr).2).map (usedAt it tr 0) else [] := by
  rw [opRows_table]
  cases (opShape it tr).1 with
  | zero => rfl
  | succ k => simp [table, List.range_succ_eq_map]

theorem columnValues_used (sat used : Bool) (it : Item) (tr : Bool) : columnValues sat (if used then some (it, tr) else none) =
    if used = true ∧ 0 < (opShape it tr).1 then (List.range (opShape it tr).2).map (fun k => toWork .fp32 sat (usedAt it tr 0 k)) else [] := by
  cases used with
  | false => rfl
  | true =>
    simp only [columnValues, if_true, Option.elim_some, headD_opRows, true_and, apply_ite (List.map (toWork .fp32 sat)), List.map_nil,
      List.map_map, Function.comp_def]

/-- A reduction combines each column by the tree. -/
theorem opColReduce_table (kind : Nat) (sat : Bool) (a : Item) (ta : Bool) :
    opColReduce kind sat a ta = table 1 (opShape a ta).2 (fun _ j =>
      (treeGroups (reduceFn a.fmt kind sat false) ((List.range (opShape a ta).1).map (fun i => usedAt a ta i j))).getD .nan) := by
  unfold opColReduce
  dsimp only
  rw [opRows_table, transposeL_table, map_table]
  rfl

/-- One step of an exact sum in 48 bits, with its overflow count. -/
def laccStep (sat : Bool) (a : Int × Nat) (v : Val) : Int × Nat :=
  ((accInt 48 sat (a.1 + valToInt v)).1, a.2 + b2n (accInt 48 sat (a.1 + valToInt v)).2)

/-- A sum that never leaves 48 bits is exact. -/
theorem laccStep_exact (sat : Bool) (l : List Val) : ∀ (t : Int) (n : Nat),
    (∀ m, m ≤ l.length → -(2 ^ 47) ≤ t + ((l.take m).map valToInt).sum ∧ t + ((l.take m).map valToInt).sum < 2 ^ 47) →
    (l.foldl (laccStep sat) (t, n)).1 = t + (l.map valToInt).sum := by
  induction l with
  | nil => intro t n _; simp
  | cons v l ih =>
    intro t n bounds
    have first := bounds 1 (by simp)
    simp only [List.take_succ_cons, List.take_zero, List.map_cons, List.map_nil, List.sum_cons, List.sum_nil, add_zero] at first
    have exact_step : accInt 48 sat (t + valToInt v) = (t + valToInt v, false) := by
      unfold accInt
      simp only [Nat.reduceSub]
      rw [if_neg (by omega), if_neg (by omega)]
    rw [List.foldl_cons, show laccStep sat (t, n) v = (t + valToInt v, n + 0) by simp [laccStep, exact_step, b2n], ih]
    · rw [List.map_cons, List.sum_cons, add_assoc]
    · intro m hm
      have next := bounds (m + 1) (by simpa using hm)
      rwa [List.take_succ_cons, List.map_cons, List.sum_cons, ← add_assoc] at next

/-- The sums of items of one shape, element by element. -/
theorem laccFold_table (sat : Bool) (tr : Bool) (n m : Nat) (xs : List Item) : ∀ g : Nat → Nat → Int × Nat,
    (∀ x ∈ xs, opShape x tr = (n, m)) →
    xs.foldl (fun acc it => acc.zipWith (fun ra rb => ra.zipWith (laccStep sat) rb) (opRows it tr)) (table n m g) =
      table n m (fun r c => (xs.map (fun x => usedAt x tr r c)).foldl (laccStep sat) (g r c)) := by
  induction xs with
  | nil => intro g _; rfl
  | cons x xs ih =>
    intro g hs
    have shape := hs x (by simp)
    rw [List.foldl_cons, opRows_table, shape, zipWith_table, ih _ (fun y hy => hs y (by simp [hy]))]
    rfl

/-- LACC_SUM of items of one shape. -/
theorem opLaccSum_table (sat tr : Bool) (n m : Nat) (x : Item) (xs : List Item) (hs : ∀ y ∈ x :: xs, opShape y tr = (n, m)) :
    (opLaccSum sat (x :: xs) tr).1 = table n m (fun r c =>
      valInt ((xs.map (fun y => usedAt y tr r c)).foldl (laccStep sat) (valToInt (usedAt x tr r c), 0)).1) := by
  have start : ((opRows x tr).map fun row => row.map fun v => (valToInt v, 0)) = table n m (fun r c => (valToInt (usedAt x tr r c), 0)) := by
    rw [opRows_table, hs x (by simp), map_map_table]
  show (((xs.foldl (fun acc it => acc.zipWith (fun ra rb => ra.zipWith (laccStep sat) rb) (opRows it tr))
    ((opRows x tr).map fun row => row.map fun v => (valToInt v, 0))).map fun row => row.map fun p => valInt p.1)) = _
  rw [start, laccFold_table sat tr n m xs _ (fun y hy => hs y (by simp [hy])), map_map_table]

theorem map_range_succ {α : Type} (g : Nat → α) (k : Nat) :
    (List.range (k + 1)).map g = g 0 :: (List.range k).map (fun i => g (i + 1)) := by
  rw [List.range_succ_eq_map, List.map_cons, List.map_map]
  rfl

/-- LACC_SUM is exact at an element whose sums of the first items all fit in 48 bits (R71). -/
theorem opLaccSum_exact (sat tr : Bool) {k r c : Nat} {a : Nat × Nat} (item : Nat → Item) (hs : ∀ i, opShape (item i) tr = a)
    (hr : r < a.1) (hc : c < a.2)
    (fits : ∀ m, m ≤ k + 1 → -(2 ^ 47) ≤ ((List.range m).map (fun i => valToInt (usedAt (item i) tr r c))).sum ∧
      ((List.range m).map (fun i => valToInt (usedAt (item i) tr r c))).sum < 2 ^ 47) :
    cell (opLaccSum sat ((List.range (k + 1)).map item) tr).1 r c =
      valInt ((List.range (k + 1)).map (fun i => valToInt (usedAt (item i) tr r c))).sum := by
  have sum_succ (m : Nat) : ((List.range (m + 1)).map (fun i => valToInt (usedAt (item i) tr r c))).sum =
      valToInt (usedAt (item 0) tr r c) + ((List.range m).map (fun i => valToInt (usedAt (item (i + 1)) tr r c))).sum := by
    rw [map_range_succ, List.sum_cons]
  rw [map_range_succ, opLaccSum_table sat tr a.1 a.2 _ _ (List.forall_mem_cons.2 ⟨hs 0, List.forall_mem_map.2 fun i _ => hs (i + 1)⟩),
    cell_table _ hr hc, sum_succ, List.map_map, laccStep_exact]
  · rw [List.map_map]
    rfl
  · intro m hm
    rw [List.length_map, List.length_range] at hm
    have whole := fits (m + 1) (by omega)
    rw [sum_succ] at whole
    rw [← List.map_take, List.take_range, Nat.min_eq_left hm, List.map_map]
    exact whole

theorem opLaccSum_shaped (sat tr : Bool) {k : Nat} {a : Nat × Nat} (item : Nat → Item) (hs : ∀ i, opShape (item i) tr = a) :
    Shaped (opLaccSum sat ((List.range (k + 1)).map item) tr).1 a.1 a.2 := by
  rw [map_range_succ, opLaccSum_table sat tr a.1 a.2 _ _ (List.forall_mem_cons.2 ⟨hs 0, List.forall_mem_map.2 fun i _ => hs (i + 1)⟩)]
  exact shaped_table _ _ _

/-- Settles O43. -/
theorem vectorCommandsComplete : Obligations.VectorCommandsComplete := by
  refine ⟨fun c s f w a h hn hw ha => ?_, fun c s f a vec h hn ha hv => ?_, fun c s f a h hn ha => ?_,
    fun c s f n bs item a v h hn he hpos hb hi ha hv => ?_⟩
  · subst ha
    have working : w = if (dSubop f.desc % 2 == 1) then (Fmt.fp64, flt64) else (Fmt.fp32, flt32) := by
      rw [hw]
      simp only [beq_iff_eq]
    have chain := opVecChain_table (f.input 0) (f.turned 0) (if sUsed (dSlot f.desc 1) then some (f.input 1) else none) (f.turned 1)
      (dSubop f.desc % 2 == 1) (dSat f.desc) (chainImm f.desc) (dImm f.desc 6) (dImm f.desc 7) w working
    have format : (if (dSubop f.desc % 2 == 1) then Fmt.fp64 else Fmt.fp32) = w.1 := by
      rw [working]
      split <;> rfl
    refine completes_execOp rfl h.found h.opcode h.inputs ⟨rfl,
      opVecChain (f.input 0) (f.turned 0) (if sUsed (dSlot f.desc 1) then some (f.input 1) else none) (f.turned 1)
        (dSubop f.desc % 2 == 1) (dSat f.desc) (chainImm f.desc) (dImm f.desc 6) (dImm f.desc 7), ?_, ?_,
      fun i j hi hj => ⟨_, (congrArg (cell · i j) chain).trans (cell_table _ hi hj), fun k l hu hk hl bk bl => ?_⟩⟩
    · refine execOp_gave_one h (by decide) (by decide) [] hn ?_
      simp only [made, h.opcode, input_fed h (by decide), Found.turned, ← format]
    · exact chain ▸ shaped_table _ _ _
    · rw [if_pos hu]
      exact congrArg _ (spreadAt_some _ _ hk hl bk bl)
  · subst ha hv
    refine completes_execOp rfl h.found h.opcode h.inputs ⟨rfl, opRowOp (dSubop f.desc) (dSat f.desc) (f32 (dImm f.desc 6)) (f.input 0)
      (f.turned 0) (if sUsed (dSlot f.desc 1) then some (f.input 1, f.turned 1) else none)
      (if sUsed (dSlot f.desc 2) then some (f.input 2, f.turned 2) else none), ?_, ?_, fun i hi => ?_⟩
    · refine execOp_gave_one h (by decide) (by decide) [] hn ?_
      simp only [made, h.opcode, input_fed h (by decide), Found.turned]
    · simp [opRowOp_rows]
    · rw [opRowOp_rows, List.getD_eq_getElem _ _ (by simpa using hi)]
      simp only [List.getElem_map, List.getElem_range, columnValues_used]
  · subst ha
    refine completes_execOp rfl h.found h.opcode h.inputs ⟨rfl, opColReduce (dSubop f.desc) (dSat f.desc) (f.input 0) (f.turned 0), ?_, ?_,
      fun j hj => ?_⟩
    · refine execOp_gave_one h (by decide) (by decide) [] hn ?_
      simp only [made, h.opcode, input_fed h (by decide), Found.turned]
    · rw [opColReduce_table]
      exact shaped_table _ _ _
    · rw [opColReduce_table, cell_table _ Nat.one_pos hj, (input_slot h (by decide) 0).1]
  · subst he hb hi ha hv
    obtain ⟨k, hk⟩ := Nat.exists_eq_succ_of_ne_zero hpos.ne'
    have bytes : inputOf f f.cmd.ends 0 0 = stageIn f.cmd.ends [] 0 f.desc 0 := by
      unfold inputOf
      rw [stages_fed h (by decide)]
      simp [linksAfter]
    refine completes_execOp rfl h.found h.opcode h.inputs ⟨rfl, (laccOf f.desc (f.along 0) (inputOf f f.cmd.ends 0 0)).1, ?_, ?_,
      fun i j hi hj fits => ?_⟩
    · refine execOp_gave_one h (by decide) (by decide) [] hn ?_
      simp only [made, h.opcode, bytes]
    · unfold laccOf
      dsimp only
      rw [hk]
      exact opLaccSum_shaped _ _ _ (fun _ => rfl)
    · unfold laccOf
      dsimp only
      rw [hk] at fits ⊢
      exact opLaccSum_exact (a := sShape (dSlot f.desc 0)) _ _ _ (fun _ => rfl) hi hj fits

end Sys2Proof.Machine
end

section
/-! PROOFS. Collectives. -/

namespace Sys2Proof.Machine

/-! ### Results inside a table -/

/-- Result (r, k) stands in the rows, and is `v`. -/
def HoldsAt (rows : List (List Val)) (r k : Nat) (v : Val) : Prop := ∃ row, rows[r]? = some row ∧ row[k]? = some v

theorem HoldsAt.cell {rows : List (List Val)} {r k : Nat} {v : Val} (h : HoldsAt rows r k v) : cell rows r k = v := by
  obtain ⟨row, hr, hk⟩ := h
  unfold Machine.cell
  rw [List.getD_eq_getElem?_getD (l := rows), hr, Option.getD_some, List.getD_eq_getElem?_getD, hk, Option.getD_some]

theorem HoldsAt.zipWith {a b : List (List Val)} {r k : Nat} {v w : Val} (ha : HoldsAt a r k v) (hb : HoldsAt b r k w)
    (f : Val → Val → Val) : HoldsAt (a.zipWith (fun x y => x.zipWith f y) b) r k (f v w) := by
  obtain ⟨x, hx, hv⟩ := ha
  obtain ⟨y, hy, hw⟩ := hb
  exact ⟨x.zipWith f y, by rw [List.getElem?_zipWith, hx, hy], by rw [List.getElem?_zipWith, hv, hw]⟩

theorem HoldsAt.take_drop {rows : List (List Val)} {a n r k : Nat} {v : Val} (h : HoldsAt rows (a + r) k v) (hr : r < n) :
    HoldsAt ((rows.drop a).take n) r k v := by
  obtain ⟨row, h, hk⟩ := h
  exact ⟨row, by rw [List.getElem?_take_of_lt hr, List.getElem?_drop, h], hk⟩

theorem opRows_holdsAt (it : Item) (tr : Bool) {r k : Nat} (hr : r < (opShape it tr).1) (hk : k < (opShape it tr).2) :
    HoldsAt (opRows it tr) r k (usedAt it tr r k) := by
  rw [opRows_table]
  exact ⟨(List.range (opShape it tr).2).map (usedAt it tr r), by simp [table, hr], by simp [hk]⟩

/-- A reduction of members' elements, in ascending member number (R90). -/
theorem opAllReduce_holdsAt (kind : Nat) (sat : Bool) (fmt : Fmt) {r k : Nat} (l : List Contribution) (hl : l ≠ [])
    (inside : ∀ e ∈ l, r < (opShape e.item e.tr).1 ∧ k < (opShape e.item e.tr).2) :
    HoldsAt (opAllReduce kind sat fmt (l.map (fun e => opRows e.item e.tr))) r k
      (sumFirst (reduceFn fmt kind sat true) (l.map (fun e => usedAt e.item e.tr r k))) := by
  cases l with
  | nil => exact absurd rfl hl
  | cons x xs =>
    have rest : ∀ (ys : List Contribution) (acc : List (List Val)) (v : Val), (∀ e ∈ ys, r < (opShape e.item e.tr).1 ∧ k < (opShape e.item e.tr).2) →
        HoldsAt acc r k v → HoldsAt ((ys.map (fun e => opRows e.item e.tr)).foldl (fun acc m =>
          acc.zipWith (fun ra rb => ra.zipWith (reduceFn fmt kind sat true) rb) m) acc) r k
          ((ys.map (fun e => usedAt e.item e.tr r k)).foldl (reduceFn fmt kind sat true) v) := by
      intro ys
      induction ys with
      | nil => exact fun acc v _ h => h
      | cons y ys ih =>
        intro acc v hy h
        obtain ⟨hr, hk⟩ := hy y List.mem_cons_self
        exact ih _ _ (fun e he => hy e (List.mem_cons_of_mem _ he)) (h.zipWith (opRows_holdsAt y.item y.tr hr hk) _)
    obtain ⟨hr, hk⟩ := inside x List.mem_cons_self
    exact rest xs _ _ (fun e he => inside e (List.mem_cons_of_mem _ he)) (opRows_holdsAt x.item x.tr hr hk)

/-! ### Collectives (R86, R90, R235) -/

section
variable {s : State} {f : Found} {remote : List (Fin 16 × List Byte)} {op : Nat} {l : List Contribution}

/-- Once every member has contributed, every member of this package takes its result in. -/
theorem collective_runs {c : CmdRef} (hf : s.find c = some f) (h : s.Contributed f remote op l) (lost odd : List (Fin 16))
    (stalls : List (DieC × Fin 9 × W32)) : s.collective c op remote lost odd stalls =
      s.shared f stalls lost.length (if op = 0x42 then [] else odd.map Fin.val) l := by
  unfold State.collective
  rw [hf]
  dsimp only
  rw [h.opcode, h.inputs, h.first, h.all, if_neg (by simp)]
  rfl

/-- What a member of this package receives, by its place. -/
def shareOf (l : List Contribution) (a : Nat × Contribution) : List Byte := a.2.local_.elim [] fun x => collectiveOut x a.1 l

/-- The digest failures that a member notes. -/
def memberFails (s : State) (f : Found) (differ : List Nat) (a : Nat × Contribution) : Nat :=
  let num := ((s.members (dGroup f.desc)).map (·.1)).getD a.1 0
  if num = 0 then (differ.filter (· != 0)).length else b2n (differ.contains num)

theorem shared_members (stalls : List (DieC × Fin 9 × W32)) (lost : Nat) (differ : List Nat) : s.shared f stalls lost differ l =
    (l.mapIdx (fun j e => (j, e))).foldl (fun t a => match a.2.local_ with
      | none => t
      | some x => t.memberDone x (memberFails s f differ a) (shareOf l a)) ((s.engineStalls f stalls).digestFails f lost) := by
  unfold State.shared
  refine List.foldl_ext _ _ _ fun t a _ => ?_
  unfold shareOf
  cases a.2.local_ <;> rfl

/-- What each member of this package holds then. -/
theorem shared_gave (h : s.Contributed f remote op l) (hop : op ≠ 0x60) (stalls : List (DieC × Fin 9 × W32)) (lost : Nat) (differ : List Nat)
    {j : Nat} {e : Contribution} {x : Found} (hj : l[j]? = some e) (hx : e.local_ = some x) :
    (s.shared f stalls lost differ l).Gave (refOf x.p x.run.id x.cmd.idx) 4 (x.bytesAt 4 (collectiveOut x j l)) := by
  have indexed {a : Nat × Contribution} (ha : a ∈ l.mapIdx (fun j e => (j, e))) : a.2 ∈ l := by
    obtain ⟨i, hi, rfl⟩ := List.mem_mapIdx.1 ha
    exact List.getElem_mem hi
  have begun (c : CmdRef) : Tied (c.p.val + 1) c.run c.cmd s ((s.engineStalls f stalls).digestFails f lost) :=
    (Tied.engineStalls s f stalls).trans (Tied.digestFails _ f lost)
  have apart : (l.mapIdx (fun j e => (j, e))).Pairwise (fun a b => ∀ x y, a.2.local_ = some x → b.2.local_ = some y → x.p ≠ y.p) := by
    have values : (l.mapIdx (fun j e => (j, e))).map Prod.snd = l := by apply List.ext_getElem <;> simp
    have pairs := h.apart
    rw [← values, List.pairwise_map] at pairs
    exact pairs
  have mem : (j, e) ∈ l.mapIdx (fun j e => (j, e)) := List.mem_iff_getElem?.2 ⟨j, by rw [List.getElem?_mapIdx, hj]; rfl⟩
  have gave := members_gave (l.mapIdx (fun j e => (j, e))) (fun a => a.2.local_) (memberFails s f differ) (shareOf l)
    (fun x => refOf x.p x.run.id x.cmd.idx) apart hop (fun a ha x hx => h.here a.2 (indexed ha) x hx)
    ((s.engineStalls f stalls).digestFails f lost)
    (fun a ha x hx => standing_tied (standing_fed (h.here a.2 (indexed ha) x hx).1.found) (begun _)) mem hx
  rw [shared_members]
  have share : shareOf l (j, e) = collectiveOut x j l := by
    unfold shareOf
    rw [hx]
    rfl
  rwa [share] at gave
end

/-- Settles O44. -/
theorem collectivesComplete : Obligations.CollectivesComplete := by
  refine ⟨fun c remote lost odd st s f l hf h => ?_, fun c remote lost odd st s f l hf h => ?_, fun c remote lost odd st s f l hf h => ?_,
    fun c remote lost odd st s f l hf h => ?_, fun c s f hf hp hx ho => ?_⟩
  · refine completes_of (c := .allReduce c remote lost odd st) (t := s.shared f st lost.length (odd.map Fin.val) l)
      (next_congr (collective_runs hf h lost odd st)) (by apply execAllReduce_goes <;> decide) ⟨rfl, fun j e x hj hx => ?_⟩
    have gave := shared_gave h (by decide) st lost.length (odd.map Fin.val) hj hx
    simp only [collectiveOut, (h.here e (List.mem_of_getElem? hj) x hx).1.opcode] at gave
    exact ⟨_, gave, fun r k inside => (opAllReduce_holdsAt _ _ _ l (List.ne_nil_of_mem (List.mem_of_getElem? hj)) inside).cell⟩
  · refine completes_of (c := .allGather c remote lost odd st) (t := s.shared f st lost.length (odd.map Fin.val) l)
      (next_congr (collective_runs hf h lost odd st)) (by apply execAllGather_goes <;> decide) ⟨rfl, fun j e x hj hx => ?_⟩
    have gave := shared_gave h (by decide) st lost.length (odd.map Fin.val) hj hx
    simp only [collectiveOut, (h.here e (List.mem_of_getElem? hj) x hx).1.opcode] at gave
    exact ⟨_, gave, moveItem_moved _ _ _ _ _ _ _⟩
  · refine completes_of (c := .reduceScatter c remote lost odd st) (t := s.shared f st lost.length [] l)
      (next_congr (collective_runs hf h lost odd st)) (by apply execReduceScatter_goes <;> decide) ⟨rfl, fun j e x n hj hx hn => ?_⟩
    have gave := shared_gave h (by decide) st lost.length [] hj hx
    simp only [collectiveOut, (h.here e (List.mem_of_getElem? hj) x hx).1.opcode, ← hn] at gave
    exact ⟨_, gave, fun r k hr inside =>
      ((opAllReduce_holdsAt _ _ _ l (List.ne_nil_of_mem (List.mem_of_getElem? hj)) inside).take_drop hr).cell⟩
  · refine completes_of (c := .broadcast c remote lost odd st) (t := s.shared f st lost.length (odd.map Fin.val) l)
      (next_congr (collective_runs hf h lost odd st)) (by apply execBroadcast_goes <;> decide) ⟨rfl, fun j e x hj hx => ?_⟩
    have gave := shared_gave h (by decide) st lost.length (odd.map Fin.val) hj hx
    simp only [collectiveOut, (h.here e (List.mem_of_getElem? hj) x hx).1.opcode] at gave
    exact ⟨_, gave, moveItem_moved _ _ _ _ _ _ _⟩
  · refine completes_eq (next_congr ?_) (by apply execCollectiveTimeLimit_goes <;> decide)
    rw [hf]
    exact if_pos ⟨hp, hx, ho⟩

end Sys2Proof.Machine
end

section
/-! PROOFS. Issue, skipping, completion and limits of commands and runs. -/

namespace Sys2Proof.Machine

/-! ### Issue and skipping (R92–R102) -/

/-- Skipping a command changes its run, its engines and its tiles only. -/
theorem goes_skipCmd (s : State) (f : Found) : Goes [.arrays, .dict, .engines, .prun, .works] s (s.skipCmd f) := by
  unfold State.skipCmd
  refine Goes.modCmd _ _ _ _ (by decide) (Goes.foldl _ (fun t q ht => Goes.monitor _ _ _ _ (by decide) ht)
    (Goes.foldl _ (fun t e ht => Goes.pushQueue _ _ _ _ _ (by decide) ht)
      (Goes.dropWork _ _ _ (by decide) (by decide) (by decide) (by decide) (Goes.endEngines f (by decide) (by decide) (Goes.refl _ s)))))

/-- A command that may issue and is neither skipped nor held back. -/
theorem execCommandIssue_issues {s : State} {c : CmdRef} {f : Found} (hf : s.find c = some f) (hm : s.mayIssue f = true)
    (hq : (s.prn f.p).inFlight < 256) (hp : predicate f.prog.header f.desc f.run.ctrs = true)
    (hk : markerAt f.prog.descs f.run c.cmd = false) (hg : dReplay f.desc = false ∨ s.guardBusy f.p = false) (hy : s.yields f = false)
    (logs : List (Fin 128 × Fin 17)) : execCommandIssue c logs s = .next (s.issueCmd c f logs) := by
  have free : (dReplay f.desc && s.guardBusy f.p) = false := by rcases hg with h | h <;> simp [h]
  refine next_congr ?_
  rw [hf]
  dsimp only
  rw [if_neg (by simp [hm, hq]), if_neg (by simp [hp, hk]), if_neg (by simp [free, hy])]

/-- An issue that is refused leaves an answer to give after 20 µs. -/
theorem issueCmd_refused {s : State} {c : CmdRef} {f : Found}
    (h : s.refusedAtIssue f (s.partsOf f.p f.run f.prog.descs f.cmd.idx) = true) (logs : List (Fin 128 × Fin 17)) :
    s.issueCmd c f logs = s.refuseIssue c f := if_pos h

/-- An issue that goes through ends with its report. -/
theorem issueCmd_out {s : State} {c : CmdRef} {f : Found}
    (h : s.refusedAtIssue f (s.partsOf f.p f.run f.prog.descs f.cmd.idx) = false)
    (hb : ∀ x ∈ s.partsOf f.p f.run f.prog.descs f.cmd.idx, s.portBusy f.prog.descs f.cmd.idx x.die = false) (logs : List (Fin 128 × Fin 17)) :
    ∃ l, (s.issueCmd c f logs).out = l ++ [.microOps c (maskOf (((s.partsOf f.p f.run f.prog.descs f.cmd.idx).map Part.die).filter
      (fun x => decide (x < 48))))] := by
  have idle : (s.partsOf f.p f.run f.prog.descs f.cmd.idx).any (fun x => s.portBusy f.prog.descs f.cmd.idx x.die) = false := by
    rw [List.any_eq_false]
    exact fun x hx => by simp [hb x hx]
  unfold State.issueCmd
  extract_lets descs i d parts
  rw [if_neg (by rw [show s.refusedAtIssue f parts = false from h]; decide), if_neg (by rw [show parts.any _ = false from idle]; decide)]
  exact ⟨_, rfl⟩

/-- Settles O45. -/
theorem commandAndRunEventsComplete : Obligations.CommandAndRunEventsComplete := by
  refine ⟨fun c logs s f hf hm hq hp hk hg hy hr hb => ?_, fun c logs s f hf hm hq hp hk hg hy hr => ?_, fun c logs s f hf hm hq hs => ?_,
    fun c s f hf hk hph => ?_, fun c s f hf hc hm => ?_, fun c s f hf hc hm ho hx hn => ?_, fun p run s q r hq hr hn ha => ?_,
    fun p run s q r hq hr hn => ?_, fun p s q u ages hq ha hu => ?_⟩
  · exact completes_of (c := .commandIssue c logs) (t := s.issueCmd c f logs) (execCommandIssue_issues hf hm hq hp hk hg hy logs)
      (by apply execCommandIssue_goes <;> decide) ⟨rfl, issueCmd_out hr hb logs⟩
  · refine completes_at (c := .commandIssue c logs) ((execCommandIssue_issues hf hm hq hp hk hg hy logs).trans
      (next_congr (issueCmd_refused hr logs))) (Goes.refuseIssue c f (by decide) (by decide) (Goes.refl _ s)) ⟨rfl, rfl⟩
  · refine completes_at (c := .commandIssue c logs) (next_congr ?_) (goes_skipCmd s f) rfl
    rw [hf]
    dsimp only
    rw [if_neg (by simp [hm, hq]), if_pos (by simpa using hs)]
  · refine completes_at (c := .skipMarkerPop c) (next_congr ?_) (goes_skipCmd s f) rfl
    rw [hf]
    dsimp only
    rw [if_pos (by simpa [hk] using hph)]
  · refine completes_eq (next_congr ?_) (by apply execCommandComplete_goes <;> decide)
    rw [hf]
    dsimp only
    rw [if_neg (by simp [hc]), if_neg (by simp [hm])]
  · refine completes_at (c := .commandComplete c) (next_congr ?_) (Goes.modRef c (fun x => { x with mirror := some s.now }) (by decide)
      (Goes.refl _ s)) rfl
    rw [hf]
    dsimp only
    rw [if_neg (by simp [hc]), if_pos (by simpa [hm, ho, hn] using hx)]
  · subst hq
    refine completes_eq (next_congr ?_) (by apply execRunComplete_goes <;> decide)
    rw [hr]
    dsimp only
    rw [if_neg (by simpa [hn] using ha)]
    rfl
  · subst hq
    refine completes_eq (next_congr ?_) (by apply execRunTimeLimit_goes <;> decide)
    rw [hr]
    exact if_neg (by simp [hn])
  · subst hq ha hu
    refine completes_of (c := .waitForSample p) rfl (by apply execWaitForSample_goes <;> decide) ⟨rfl, fun young => ?_⟩
    have none_old : (List.filter (fun e : ((Nat × Nat) × (Nat × Nat)) × Nat => decide (64 ≤ e.2)) _) = [] :=
      List.filter_eq_nil_iff.2 fun e he => by simpa using young e he
    rw [none_old]
    rfl

end Sys2Proof.Machine
end

section
/-! PROOFS. Brim stages: the end of a stage whose command is not found. -/

namespace Sys2Proof.Machine

/-! ### A command that is not found because its program is gone (R291, R293) -/

/-- Command 0 of run 0 of partition 1. -/
def orphanRef : CmdRef := ⟨0, 0, 0⟩

/-- That command, which met an error on queue 5. -/
def orphanCmd : Cmd :=
  { idx := 0, phase := .issued, fixed := none, detail := 0, parts := [], replays := [], ends := [], streams := [], ctr := none, errQid := 5
    start := 0, order := 0, cycle := 0, freed := 0, stalls := [], energy := 0, heavy := false, samples := [], mirror := none, port := none
    settledAt := 0, lost := [] }

/-- Its run, whose program (handle 7) is not among the partition's. -/
def orphanRun : Run :=
  { id := 0, handle := 7, seq := 0, seed := 0, ctrs := [], limit := 0, start := 0, binds := [], cmds := [orphanCmd], queues := []
    affinity := [], undef := false, loose := false, concern := [], recording := false, errQid := 0x3FF }

/-- Its first stage stands on die 0, frozen by a reconfiguration. -/
def orphanPort : Attach := { port := 3, p := 1, run := 0, cmd := 0, stage := 0, frozen := true, frozenAt := 0, held := 0 }

def orphanState : State :=
  { State.reset with prun := [(1, { PartRun.blank with runs := [orphanRun] })], brims := [(0, { Brim.blank with attach := [orphanPort] })] }

theorem orphan_not_found : orphanState.find orphanRef = none := by decide

/-- Taking the port off counts its stall in the run, which then names the queue of the command's error. -/
theorem orphan_run_changes : ((orphanState.abortPort orphanRef 0 0).run 1 0).map Run.errQid = some 5 := by decide

/-- The stage stands on no other die. -/
theorem orphan_elsewhere (n : Nat) : (orphanState.abortPort orphanRef 0 0).attachment orphanRef (n + 1) 0 = none := rfl

theorem orphan_ports : orphanState.abortPorts orphanRef [0] (List.range 48) = orphanState.abortPort orphanRef 0 0 := by
  unfold State.abortPorts
  rw [show (48 : Nat) = 47 + 1 from rfl, List.range_succ_eq_map, List.foldl_cons, List.foldl_map]
  refine foldl_inv _ (fun t => t = orphanState.abortPort orphanRef 0 0) (fun t n ht => ?_) _ rfl
  subst ht
  rw [List.foldl_cons, List.foldl_nil, State.abortPort, orphan_elsewhere]

/-- Refutes O46: PORT_DETACH of a command that is not found changes more than brims, the dictionary and what leaves the device.  A
command is not found either when its program is gone; its frozen port, as it is taken off, still counts its stall in the run. -/
theorem not_brimStageCommandsComplete : ¬ Obligations.BrimStageCommandsComplete := by
  intro h
  obtain ⟨-, -, -, -, detach, -⟩ := h
  obtain ⟨t, -, kept, ht⟩ := detach orphanRef 0 orphanState orphan_not_found
  have same : t.prun = orphanState.prun := kept .prun (by decide)
  have changed : (t.run 1 0).map Run.errQid = some 5 := by
    rw [ht, show ((0 : Fin 8).val) = 0 from rfl, orphan_ports]
    exact orphan_run_changes
  unfold State.run State.prn at changed
  rw [same] at changed
  exact absurd changed (by decide)

end Sys2Proof.Machine
end

section
/-! PROOFS. Tile blocks and halves, and the tests, duplicates, replays, replicas and mirrors that check them. -/

namespace Sys2Proof.Machine

/-! ### Work units of a tile (R42–R57) -/

theorem argmin_mem {α : Type} (f : α → Nat) {l : List α} {x : α} (h : argmin f l = some x) : x ∈ l := by
  induction l generalizing x with
  | nil => cases h
  | cons y ys ih =>
    rw [argmin] at h
    cases hy : argmin f ys with
    | none =>
      rw [hy] at h
      exact (Option.some.inj h) ▸ List.mem_cons_self
    | some z =>
      rw [hy] at h
      dsimp only at h
      split at h
      · exact (Option.some.inj h) ▸ List.mem_cons_self
      · exact (Option.some.inj h) ▸ List.mem_cons_of_mem _ (ih hy)

/-- The next work unit of a tile is one of its own. -/
theorem nextWork_here {s : State} {c t : Nat} {w : Work} (h : s.nextWork c t = some w) : w.die = c ∧ w.tile = t := by
  have mem : w ∈ s.worksOn c t := by
    unfold State.nextWork at h
    dsimp only at h
    cases hp : argmin s.workKey (((s.worksOn c t).filter (fun w => s.workReady w && s.stageOpen w)).filter
        (fun w => decide (s.earliest w ≤ (s.array c t).clock))) with
    | none =>
      rw [hp] at h
      exact (List.mem_filter.1 (argmin_mem _ h)).1
    | some v =>
      rw [hp] at h
      obtain rfl : v = w := Option.some.inj h
      exact (List.mem_filter.1 (List.mem_filter.1 (argmin_mem _ hp)).1).1
  have here := (List.mem_filter.1 mem).2
  simp only [Bool.and_eq_true, beq_iff_eq] at here
  exact here.1

@[simp] theorem array_modArray_self (s : State) (c t : Nat) (g : TileArray → TileArray) : (s.modArray c t g).array c t = g (s.array c t) :=
  sget_sput_self _ _ _ _

/-- A block that a tile begins takes its clock on and ends its stop. -/
theorem switchBlock_array (s : State) {w : Work} {c t : Nat} (hw : w.die = c ∧ w.tile = t) (b : Block) (feed : List (List Nat)) (clock : Nat) :
    ((s.switchBlock w b feed clock).array c t).clock = clock ∧ ((s.switchBlock w b feed clock).array c t).stopped = false := by
  obtain ⟨rfl, rfl⟩ := hw
  unfold State.switchBlock
  dsimp only
  rw [array_modArray_self]
  exact ⟨rfl, rfl⟩

/-- The array work that is left on a tile once a block of `w` has begun. -/
theorem left_plan {w : Work} {b : Block} {rest : List Block} (h : w.plan = b :: rest) (l : List Work) (q : Work → Bool) :
    l.any (fun v => q v && ((if v == w then v.plan.tail else v.plan).any Block.array)) =
      l.any (fun v => q v && ((if v == w then rest else v.plan).any Block.array)) := by
  congr 1
  funext v
  by_cases e : v = w
  · subst e
    rw [h]
    rfl
  · simp [e]

/-- The members of a replica group agree, or not. -/
theorem any_differs {l : List (Nat × Nat)} {v : Nat} : l.any (fun e => e.2 != v) = true ↔ ∃ e ∈ l, e.2 ≠ v := by
  simp only [List.any_eq_true, bne_iff_ne, ne_eq]

/-- Replays without a failure add none to their command. -/
theorem replays_clean (parts : List Part) {l : List Part} (h : ∀ x ∈ l, x.fails = []) :
    (parts.zip l).flatMap (fun e => e.2.fails.map (fun v => (e.1.die, v))) = [] := by
  refine List.flatMap_eq_nil_iff.2 fun e he => ?_
  rw [h e.2 (List.of_mem_zip he).2]
  rfl

/-- Settles O47. -/
theorem tileAndCheckEventsComplete : Obligations.TileAndCheckEventsComplete := by
  refine ⟨?_, ?_, ?_, ?_, ?_, ?_, ?_, ?_, ?_, ?_, ?_, ?_, ?_⟩
  · intro die tile late held starved s u w b rest f x exposed load stop ends hup hwait hu hw hplan hf hx hhalf hexp hload hstop hends
    subst hu hx
    refine completes_of (c := .blockStart die tile late held starved) (next_congr ?_) (by apply execBlockStart_goes <;> decide)
      ⟨rfl, switchBlock_array _ (nextWork_here hw) _ _ _⟩
    rw [if_neg (by simp [hup]), if_neg (by simp [hwait])]
    dsimp only
    rw [hw]
    dsimp only
    rw [hplan, hf]
    dsimp only
    rw [if_neg (by
      intro full
      simp only [Bool.and_eq_true, decide_eq_true_eq] at full
      have := hhalf full.1.1 full.1.2
      omega)]
    rw [left_plan hplan, ← hends, ← hexp, ← hload, ← hstop]
  · intro die tile late held starved s u w b rest f hup hwait hu hw hplan hf hb hfst hfull
    subst hu
    refine completes_eq (next_congr ?_) (by apply execBlockStart_goes <;> decide)
    rw [if_neg (by simp [hup]), if_neg (by simp [hwait])]
    dsimp only
    rw [hw]
    dsimp only
    rw [hplan, hf]
    exact if_pos (by simp [hb, hfst, hfull])
  · intro die tile s u h hu hh
    subst hu
    refine completes_of (c := .halfRelease die tile) (next_congr ?_) (by apply execHalfRelease_goes <;> decide) ⟨rfl, ?_⟩
    · rw [hh]
    · rw [array_modArray_self]
      have held := List.mem_of_find?_eq_some hh
      have := List.length_pos_of_mem held
      rw [List.length_erase_of_mem held]
      omega
  · intro die tile s u hu hnone
    subst hu
    refine completes_eq (next_congr ?_) (by apply execHalfRelease_goes <;> decide)
    rw [List.find?_eq_none.2 (fun h hh => by rcases hnone h hh with e | e <;> simp only [e] <;> simp)]
  · intro die tile pass s k e u hk he hu
    subst hk hu
    refine completes_eq (next_congr ?_) (by apply execTileTestEnd_goes <;> decide)
    rw [he]
    dsimp only
    congr 1
    refine if_congr ?_ rfl rfl
    simp only [Bool.and_eq_true, Bool.not_eq_true', Bool.and_eq_false_iff, Bool.not_eq_false', decide_eq_false_iff_not, not_le]
  · intro c unit differ waited s f x u hf hx hp hover hu
    subst hu
    refine completes_eq (next_congr ?_) (by apply execDuplicateCompare_goes <;> decide)
    rw [hf]
    dsimp only
    rw [hx]
    dsimp only
    have none_left : (s.works.any fun w => w.p == f.p && w.run == c.run && w.cmd == c.cmd && w.unit == unit && !workOver f w) = false := by
      rw [List.any_eq_false]
      intro w hw
      simp only [Bool.and_eq_true, beq_iff_eq, Bool.not_eq_true', not_and, Bool.not_eq_false, and_imp]
      exact hover w hw
    rw [none_left, if_neg (by simp [hp])]
    refine if_congr ?_ rfl rfl
    simp
  · intro c s f hf hr hp hq
    refine completes_eq (next_congr ?_) (by apply execReplayCommit_goes <;> decide)
    rw [hf]
    dsimp only
    have sound : f.cmd.parts.any (fun x => x.fails != []) = false := by
      rw [List.any_eq_false]
      exact fun x hx => by simp [hp x hx]
    rw [if_neg (by simp [hr]), replays_clean _ hq, if_neg Bool.false_ne_true, sound, if_neg (by simp), if_neg Bool.false_ne_true]
    rfl
  · intro c s f u hf hr hq hu
    subst hu
    refine completes_at (c := .replayCommit c [] true false) (next_congr ?_) ?_ rfl
    · rw [hf]
      dsimp only
      rw [if_neg (by simp [hr]), replays_clean _ hq, if_pos rfl]
      rfl
    · exact Goes.closeOutputs f (by decide) (by decide) (Goes.bump _ _ (by decide) (Goes.modRef _ _ (by decide) (Goes.modRef _ _ (by decide)
        (Goes.endWorks f _ (by decide) (by decide) (by decide) (Goes.refl _ s)))))
  · intro g remote s l hr hm hl he
    refine completes_at (c := .replicaSample g remote false) (next_congr ?_) (Goes.bump _ _ (by decide)
      (Goes.foldl l (fun s e hs => Goes.setReg _ _ (by decide) hs) (Goes.refl _ s))) rfl
    rw [if_neg (by simp [hr, hm]), if_neg Bool.false_ne_true, hl]
    dsimp only
    rw [if_neg (by rw [any_differs]; push Not; exact he)]
  · intro g remote s l u hr hm hl he hu
    subst hu
    refine completes_eq (next_congr ?_) (by apply execReplicaSample_goes <;> decide)
    rw [if_neg (by simp [hr, hm]), if_neg Bool.false_ne_true, hl]
    dsimp only
    rw [if_pos (any_differs.2 he), State.now_bump, foldl_keeps l State.now (fun s e => State.now_setReg s _ _)]
  · intro g remote s hr hm
    refine completes_at (c := .replicaSample g remote true) (next_congr ?_) (Goes.bump _ _ (by decide) (Goes.refl _ s)) rfl
    rw [if_neg (by simp [hr, hm]), if_pos rfl]
  · intro c digests s f a hf ha hp
    refine completes_eq (next_congr ?_) (by apply execMirrorDigests_goes <;> decide)
    rw [hf]
    exact if_neg (by simp [ha, hp])
  · intro c s f a u hf ha hu
    subst hu
    refine completes_eq (next_congr ?_) (by apply execMirrorWait_goes <;> decide)
    rw [hf]
    dsimp only
    rw [ha]

end Sys2Proof.Machine
end

section
/-! PROOFS. Loads, unloads and run requests of a partition. -/

namespace Sys2Proof.Machine

/-! ### Requests of a partition (R106–R119) -/

/-- An update of a partition's runs is known by what it makes of them. -/
theorem modPr_congr {s : State} {p : Nat} {g h : PartRun → PartRun} (e : g (s.prn p) = h (s.prn p)) : s.modPr p g = s.modPr p h := by
  unfold State.modPr smod
  exact congrArg (fun v => { s with prun := sput (fun _ => PartRun.blank) s.prun p v }) e

section
variable {s : State} {p : PartN} {before rest : List (Nat × Nat)} {req t₀ : Nat}
  (hq : (s.prn (p.val + 1)).fetched = before ++ (req, t₀) :: rest)
include hq

/-- The first unload fetched, and what remains. -/
theorem first_unload (hb : ∀ e ∈ before, isUnload e.1 = false) (hu : isUnload req = true) :
    (s.prn (p.val + 1)).fetched.takeWhile (fun e => !isUnload e.1) = before ∧
      (s.prn (p.val + 1)).fetched[before.length]? = some (req, t₀) ∧ (s.prn (p.val + 1)).fetched.eraseIdx before.length = before ++ rest := by
  obtain ⟨h₁, h₂, h₃⟩ := takeWhile_before (fun e : Nat × Nat => !isUnload e.1) before (req, t₀) rest (fun e he => by simp [hb e he]) (by simp [hu])
  rw [h₁] at h₂ h₃
  rw [hq]
  exact ⟨h₁, h₂, h₃⟩

/-- The first run request fetched, and what remains. -/
theorem first_runRequest (hb : ∀ e ∈ before, isUnload e.1 = true) (hu : isUnload req = false) :
    (s.prn (p.val + 1)).fetched.takeWhile (fun e => isUnload e.1) = before ∧
      (s.prn (p.val + 1)).fetched[before.length]? = some (req, t₀) ∧ (s.prn (p.val + 1)).fetched.eraseIdx before.length = before ++ rest := by
  obtain ⟨h₁, h₂, h₃⟩ := takeWhile_before (fun e : Nat × Nat => isUnload e.1) before (req, t₀) rest hb hu
  rw [h₁] at h₂ h₃
  rw [hq]
  exact ⟨h₁, h₂, h₃⟩
end

/-- Taking a request up. -/
theorem fetched_taken {s : State} {p k : Nat} {l : List (Nat × Nat)} (h : (s.prn p).fetched.eraseIdx k = l) :
    s.modPr p (fun r => { r with fetched := r.fetched.eraseIdx k }) = s.modPr p (fun r => { r with fetched := l }) :=
  modPr_congr (congrArg (fun l => { s.prn p with fetched := l }) h)

theorem run_taken {s : State} {p k : Nat} {l : List (Nat × Nat)} (h : (s.prn p).fetched.eraseIdx k = l) :
    s.modPr p (fun r => { r with fetched := r.fetched.eraseIdx k, nextRun := (s.prn p).nextRun + 1 }) =
      s.modPr p (fun r => { r with fetched := l, nextRun := r.nextRun + 1 }) :=
  modPr_congr (congrArg (fun l => { s.prn p with fetched := l, nextRun := (s.prn p).nextRun + 1 }) h)

theorem program_taken (s : State) (p : Nat) (l : List (Nat × Nat)) (k : Nat) :
    (s.modPr p (fun r => { r with fetched := l })).program p k = s.program p k :=
  program_modPr_of (g := fun r => { r with fetched := l }) (fun _ => rfl) p k

/-- An answer is noted for its time. -/
def State.noteAnswer (s : State) (at_ : Nat) (what : Refused) : State := { s with refusals := s.refusals ++ [(at_, what)] }

@[simp] theorem prn_noteAnswer (s : State) (at_ : Nat) (what : Refused) (p : Nat) : (s.noteAnswer at_ what).prn p = s.prn p := rfl

/-- Settles O17. -/
theorem requestsOfAPartitionComplete : Obligations.RequestsOfAPartitionComplete := by
  refine ⟨?_, ?_, ?_, ?_, ?_, ?_, ?_, ?_⟩
  · intro p c image s req t₀ g hl ho
    refine completes_eq (next_congr ?_) (by apply execLoad_goes <;> decide)
    rw [hl]
    dsimp only
    rw [ho]
  · intro p c image s req t₀ hl ho
    refine completes_eq (next_congr ?_) (by apply execLoad_goes <;> decide)
    rw [hl]
    dsimp only
    rw [ho]
  · intro p s before req t₀ rest hq hb hu hf hg
    obtain ⟨split, front, erased⟩ := first_unload hq hb hu
    refine completes_at (c := .unload p) (t := (s.modPr (p.val + 1) (fun r => { r with fetched := before ++ rest })).modPr (p.val + 1)
      (fun x => { x with unloads := x.unloads ++ [(req, t₀, (s.prn (p.val + 1)).earlier (lHandle req) before)] }.wakeUnloads))
      (next_congr ?_) (Goes.modPr _ _ (by decide) (Goes.modPr _ _ (by decide) (Goes.refl _ s))) ?_
    · rw [split, front]
      dsimp only
      rw [hf, fetched_taken erased]
      dsimp only
      rw [program_taken, if_pos hg]
    · rw [State.prn_modPr_self, State.prn_modPr_self]
  · intro p s before req t₀ rest res hq hb hu hf
    obtain ⟨split, front, erased⟩ := first_unload hq hb hu
    have runs : execUnload p s = .next ((s.modPr (p.val + 1) (fun r => { r with fetched := before ++ rest })).loadAnswer (p.val + 1) req t₀
        (lHandle req) res .unload) := by
      refine next_congr ?_
      rw [split, front]
      dsimp only
      rw [hf, fetched_taken erased]
    exact completes_at (c := .unload p) runs (Goes.loadAnswer _ _ _ _ _ _ (by decide) (by decide) (by decide) (by decide) (by decide)
      (Goes.modPr _ _ (by decide) (Goes.refl _ s))) rfl
  · intro p s before req t₀ rest hq hb hu hf hg
    obtain ⟨split, front, erased⟩ := first_unload hq hb hu
    refine completes_at (c := .unload p) (t := (s.modPr (p.val + 1) (fun r => { r with fetched := before ++ rest })).noteAnswer (t₀ + 20000)
      (if lResult req % 32 = 0 then .loadRefused (s.fnOf (p.val + 1)) (loadRecord req t₀ (t₀ + 20000) ⟨0x31, 0x01, 0xFF, 0x3FF, 0xFFFF, 0xFFFF⟩ .unload)
        (lResult req) (loadResultBytes ⟨0x31, 0x01, 0xFF, 0x3FF, 0xFFFF, 0xFFFF⟩ (lSeq req) (lHandle req))
      else .record (s.fnOf (p.val + 1)) (loadRecord req t₀ (t₀ + 20000) ⟨0x31, 0x01, 0xFF, 0x3FF, 0xFFFF, 0xFFFF⟩ .unload)))
      (next_congr ?_) (Goes.refusalsTo (by decide) (Goes.modPr _ _ (by decide) (Goes.refl _ s))) ⟨?_, rfl⟩
    · rw [split, front]
      dsimp only
      rw [hf, fetched_taken erased]
      dsimp only
      rw [program_taken, hg, if_neg Bool.false_ne_true]
      rfl
    · rw [prn_noteAnswer, State.prn_modPr_self]
  · intro p s u rest hi
    refine completes_eq (next_congr ?_) (by apply execUnloadComplete_goes <;> decide)
    rw [hi]
  · intro p bindings s before req t₀ rest hq hb hu hr
    obtain ⟨split, front, erased⟩ := first_runRequest hq hb hu
    refine completes_at (c := .runRequest p bindings) (next_congr ?_) (Goes.startRun _ _ _ _ (by decide) (by decide) (by decide) (by decide)
      (by decide) (Goes.modPr _ _ (by decide) (Goes.refl _ s))) rfl
    rw [split, front]
    dsimp only
    rw [hr, run_taken erased]
  · intro p bindings s before req t₀ rest d hq hb hu hr
    obtain ⟨split, front, erased⟩ := first_runRequest hq hb hu
    refine completes_at (c := .runRequest p bindings) (t := ((s.modPr (p.val + 1) (fun r =>
        { r with fetched := before ++ rest, nextRun := r.nextRun + 1 })).modPr (p.val + 1) (fun r =>
        { r with turned := r.turned ++ [((s.prn (p.val + 1)).nextRun, rProgram req)] })).noteAnswer (t₀ + 20000)
          (.record (s.fnOf (p.val + 1)) (bareRecord 0 0x31 d (rSeq req) 0xFFFF 0x3FF t₀ (t₀ + 20000) true (.run (s.prn (p.val + 1)).nextRun))))
      (next_congr ?_) (Goes.refusalsTo (by decide) (Goes.modPr _ _ (by decide) (Goes.modPr _ _ (by decide) (Goes.refl _ s)))) ?_
    · rw [split, front]
      dsimp only
      rw [hr, run_taken erased]
      rfl
    · rw [prn_noteAnswer, State.prn_modPr_self, State.prn_modPr_self]
      exact ⟨rfl, rfl, rfl, rfl⟩

end Sys2Proof.Machine
end

section
/-! PROOFS. Residency, migration and rebalancing. -/

namespace Sys2Proof.Machine

/-! ### Blocker's periods (R161, R169, R173, R174) -/

theorem regLen_cancelled (p : PartN) : regLen (rBlk (p.val + 1) 0x17) = 8 := by revert p; decide

/-- A migration that is cancelled counts. -/
theorem cancelMig_counts (s : State) (p : PartN) (g : Migration) :
    (s.cancelMig (p.val + 1) g).reg (rBlk (p.val + 1) 0x17) = (s.reg (rBlk (p.val + 1) 0x17) + 1) % 2 ^ 64 := by
  unfold State.cancelMig
  rw [State.reg_bump_self, regLen_cancelled, State.reg_modPr]

theorem goes_cancelMig (s : State) (p : Nat) (g : Migration) : Goes [.dict, .prun] s (s.cancelMig p g) :=
  Goes.cancelMig p g (by decide) (by decide) (Goes.refl _ s)

/-- Settles O48. -/
theorem blockerPeriodsComplete : Obligations.BlockerPeriodsComplete := by
  refine ⟨?_, ?_, ?_, ?_, ?_, ?_⟩
  · intro c s f hf ha hh hp hl hd
    refine completes_eq (next_congr ?_) (by apply execHeavyNotice_goes <;> decide)
    rw [hf]
    have due : (f.run.cmds.filter (fun x => (dDeps f.desc).contains (dSeq (f.prog.descs.getD x.idx 0)) && x.phase != .complete)).all
        (fun x => (s.expected f x).any (fun t => decide (t ≤ s.now + 1000 * dHeavyLead f.desc))) = true := by
      rw [List.all_eq_true]
      intro x hx
      obtain ⟨mem, dep⟩ := List.mem_filter.1 hx
      rw [Bool.and_eq_true, bne_iff_ne] at dep
      obtain ⟨a, ea, le⟩ := hd x mem dep.1 dep.2
      rw [ea]
      simpa using le
    dsimp only
    rw [due, if_pos (by simp [ha, hh, hp, hl])]
  · intro p s q u v hq hu hv
    subst hq hu hv
    exact completes_eq rfl (by apply execResidencyPeriod_goes <;> decide)
  · intro p poisoned differ s q g x hq hg hx hbad
    subst hq
    refine completes_at (c := .migrationReadbackDone p poisoned differ) (next_congr ?_) (goes_cancelMig s _ g) ⟨rfl, cancelMig_counts s p g⟩
    rw [hg]
    dsimp only
    rw [hx]
    exact if_pos (by simpa [or_assoc] using hbad)
  · intro p poisoned differ s q g hq hg hnone
    subst hq
    refine completes_at (c := .migrationReadbackDone p poisoned differ) (next_congr ?_) (goes_cancelMig s _ g) ⟨rfl, cancelMig_counts s p g⟩
    rw [hg]
    dsimp only
    rw [List.find?_eq_none.2 (fun x hx held => ?_)]
    simp only [Bool.and_eq_true, beq_iff_eq, Bool.not_eq_true'] at held
    obtain ⟨⟨⟨⟨die, addr⟩, len⟩, kind⟩, here⟩ := held
    rcases hnone x hx with h | h | h | h | h
    · exact h die
    · exact h addr
    · exact h len
    · exact h kind
    · rw [here] at h
      cases h
  · intro p s q g x u hq hg hx hbad hdig hlive hu
    subst hq hu
    refine completes_eq (next_congr ?_) (by apply execMigrationReadbackDone_goes <;> decide)
    rw [hg]
    dsimp only
    rw [hx]
    dsimp only
    rw [if_neg (by simp [hbad, hdig, hlive])]
    rfl
  · intro p heavy memory s q held u v lateOn hq hheld hu hv hlate
    subst hq hheld hu hv hlate
    exact completes_eq rfl (by apply execRebalancePeriod_goes <;> decide)

end Sys2Proof.Machine
end

section
/-! PROOFS. DSP cells and delay lines of the brims. -/

namespace Sys2Proof.Machine

/-! ### DSP cells (R283, R285, R286) -/

theorem regLen_overflows (d : DieC) : regLen (rBrim d.val 9) = 8 := by revert d; decide

/-- Drawing a free value changes no cell and no register. -/
theorem DspRuns.draw {s t : State} {d k w : Nat} {v : Int} (h : DspRuns s t d k w v) : DspRuns s t.draw d k w v :=
  ⟨h.exact_, h.clamped, h.wrapped, h.counted, h.moves, h.presents, h.others, h.regs⟩

/-- The shift of an accumulator by less than its width. -/
theorem dspShift_defined (draw : Nat) {w n : Nat} {acc : Int} (hn : n = iImm w % 64) (h : n < 40) :
    dspShift draw w acc = (if iRnd w = true ∧ 1 ≤ n then acc + 2 ^ (n - 1) else acc) / 2 ^ n := by
  unfold dspShift
  dsimp only
  rw [← hn, if_neg (by omega)]
  simp only [Bool.and_eq_true, decide_eq_true_eq]
  exact (apply_ite (· / (2 : Int) ^ n) _ _ _).symm

theorem dspShift_undefined (draw : Nat) {w : Nat} (acc : Int) (h : 40 ≤ iImm w % 64) :
    dspShift draw w acc = signed 40 (Config.freeNat 40 draw) := if_pos h

section
variable {s : State} {die : DieC} {cell : Fin 1536} {w : Nat}

/-- An entry that leaves the accumulator alone. -/
theorem dspExec_idle (h : s.dspWord die.val cell.val = some w) (f : Nat → Int → Option Int) (hf : f w (s.dsp die.val cell.val).acc = none) :
    s.dspExec die.val cell.val (iOp w) f = s.setDsp die.val cell.val { s.dsp die.val cell.val with
      entry := if (s.dsp die.val cell.val).rep ≤ 1 then ((s.dsp die.val cell.val).entry + 1) % 8 else (s.dsp die.val cell.val).entry
      rep := (s.dsp die.val cell.val).rep - 1
      pipe := (((s.dsp die.val cell.val).acc, iEmit w && decide ((s.dsp die.val cell.val).rep ≤ 1)) :: (s.dsp die.val cell.val).pipe).take 3 } := by
  unfold State.dspExec
  simp only [h, hf, ne_eq, not_true, if_false, Bool.false_eq_true, Bool.or_false, decide_eq_true_eq]
end

/-- Settles O49. -/
theorem dspCommandsComplete : Obligations.DspCommandsComplete := by
  refine ⟨?_, ?_, ?_, ?_, ?_, ?_, ?_, ?_, ?_, ?_, ?_, ?_, ?_, ?_⟩
  · intro die cell a b s w hw ho
    exact completes_of (c := .mul die cell a b) rfl (by apply execMul_goes <;> decide) (dspExec_runs hw ho rfl (regLen_overflows die))
  · intro die cell a b s w hw ho
    exact completes_of (c := .mac die cell a b) rfl (by apply execMac_goes <;> decide) (dspExec_runs hw ho rfl (regLen_overflows die))
  · intro die cell a b s w hw ho
    exact completes_of (c := .msub die cell a b) rfl (by apply execMsub_goes <;> decide) (dspExec_runs hw ho rfl (regLen_overflows die))
  · intro die cell c s w hw ho
    exact completes_of (c := .loadc die cell c) rfl (by apply execLoadc_goes <;> decide) (dspExec_runs hw ho rfl (regLen_overflows die))
  · intro die cell c s w hw ho
    exact completes_of (c := .addc die cell c) rfl (by apply execAddc_goes <;> decide) (dspExec_runs hw ho rfl (regLen_overflows die))
  · intro die cell s w hw ho
    exact completes_of (c := .clr die cell) rfl (by apply execClr_goes <;> decide) (dspExec_runs hw ho rfl (regLen_overflows die))
  · intro die cell s w n acc hw ho hn h40 hacc
    subst hacc
    exact completes_of (c := .shr die cell) rfl (by apply execShr_goes <;> decide)
      (dspExec_runs hw ho (congrArg some (dspShift_defined s.drawn hn h40)) (regLen_overflows die)).draw
  · intro die cell s w hw ho h40
    refine completes_of (c := .shr die cell) rfl (by apply execShr_goes <;> decide)
      ⟨(dspExec_runs hw ho (congrArg some (dspShift_undefined s.drawn _ h40)) (regLen_overflows die)).draw, ?_⟩
    have kept := Goes.dspExec (F := [.brims, .dict]) die.val cell.val 0x6 (fun w acc => some (dspShift s.drawn w acc)) (by decide) (by decide)
      (Goes.refl _ s)
    exact congrArg (· + 1) (kept.1 .free (by decide))
  · intro die cell s w x hw ho hx
    subst hx
    have idle := dspExec_idle hw (fun _ _ => none) rfl
    rw [ho] at idle
    refine completes_of (c := .nopDsp die cell) (next_congr idle) (by apply execNopDsp_goes <;> decide)
      ⟨fun c j h => dsp_setDsp_other _ _ _ _ _ _ h, onlyRegs_refl _ _, dsp_setDsp_self _ _ _ _⟩
  · intro die cell s w x hw ho hx hr
    subst hx
    refine completes_of (c := .dspRepeat die cell) (next_congr ?_) (by apply execDspRepeat_goes; decide)
      ⟨fun c j h => dsp_setDsp_other _ _ _ _ _ _ h, dsp_setDsp_self _ _ _ _⟩
    rw [hw]
    exact if_pos ⟨ho, hr⟩
  · intro die cell s w x hw ho hx hr
    subst hx
    refine completes_of (c := .dspEnd die cell) (next_congr ?_) (by apply execDspEnd_goes; decide)
      ⟨fun c j h => dsp_setDsp_other _ _ _ _ _ _ h, dsp_setDsp_self _ _ _ _⟩
    rw [hw]
    exact if_pos ⟨ho, hr⟩
  · intro die cell s x hrun hx hr
    subst hx
    refine ⟨completes_of (c := .dspStart die cell) (next_congr ?_) (by apply execDspStart_goes; decide)
      ⟨fun c j h => dsp_setDsp_other _ _ _ _ _ _ h, dsp_setDsp_self _ _ _ _⟩,
      completes_of (c := .dspRst die cell) (next_congr ?_) (by apply execDspRst_goes; decide)
      ⟨fun c j h => dsp_setDsp_other _ _ _ _ _ _ h, dsp_setDsp_self _ _ _ _⟩⟩
    · exact if_pos (by simp [hrun, hr])
    · exact if_pos (by simp [hrun, hr])
  · intro die cell s hrun hr
    refine ⟨completes_eq (next_congr ?_) (by apply execDspStart_goes; decide), completes_eq (next_congr ?_) (by apply execDspRst_goes; decide)⟩
    · exact if_neg (by simp; omega)
    · exact if_neg (by simp; omega)
  · intro port pin output tap elapsed s k x hrun hk hx
    subst hk hx
    refine completes_of (c := .tapWrite port pin output tap elapsed) (next_congr (if_pos hrun)) (by apply execTapWrite_goes; decide)
      ⟨sget_sput_self _ _ _ _, fun j h => sget_sput_other _ _ h _⟩

end Sys2Proof.Machine
end

section
/-! PROOFS. Loading hoods and trims, and pounce. -/

namespace Sys2Proof.Machine

/-! ### Loading (R302–R317) -/

/-- Settles O50. -/
theorem loadCommandsComplete : Obligations.LoadCommandsComplete := by
  refine ⟨?_, ?_, ?_, ?_, ?_, ?_, ?_, ?_, ?_, ?_, ?_, ?_, ?_⟩
  · intro parallel s h
    refine completes_of (c := .cfgImageStart parallel) (next_congr (if_neg (by simp [h]))) (by apply execCfgImageStart_goes; decide) rfl
  · intro s h hd
    refine completes_at (c := .cfgCsNRise) (t := { s.emit (.cfgDone false) with cfg := { s.cfg with selected := false, err := true } })
      (next_congr ?_) ?_ ⟨rfl, rfl, rfl, rfl⟩
    · rw [if_neg (by simp [h]), hd]
    · exact Goes.cfgTo (by decide) (Goes.emit _ (by decide) (Goes.refl _ s))
  · intro s c l h hd hl hp hs
    refine completes_eq (next_congr ?_) (by apply execCfgCsNRise_goes <;> decide)
    rw [if_neg (by simp [h]), hd]
    dsimp only
    rw [hl]
    exact if_pos ⟨hp, hs⟩
  · intro die s ht hr hl
    refine completes_eq (next_congr (if_neg ?_)) (by apply execTpStart_goes <;> decide)
    simpa [ht, hr] using hl
  · intro die s l hl
    refine completes_eq (next_congr ?_) (by apply execTpAbort_goes <;> decide)
    rw [hl]
  · intro die s l u hl hs hp hu
    subst hu
    refine completes_eq (next_congr ?_) (by apply execLoadStart_goes <;> decide)
    rw [hl]
    dsimp only
    rw [if_neg (by rintro (h | ⟨h, k⟩) <;> rcases hp with p | p <;> first | exact h hs | exact p h | omega)]
  · intro die bytes s l r hl hs hr hbad
    subst hr
    refine completes_eq (next_congr ?_) (by apply execHeaderCheck_goes <;> decide)
    rw [hl]
    dsimp only
    rw [if_neg (by simp [hs]), hbad]
    rfl
  · intro die bytes s u v hl hsel hd hpos hu hv
    subst hu hv
    refine completes_eq (next_congr ?_) (by apply execHeaderCheck_goes <;> decide)
    rw [hl]
    dsimp only
    exact (if_neg (by simp [hsel, hd])).trans (if_pos hpos)
  · intro die s l m hl hs hm
    subst hm
    refine completes_eq (next_congr ?_) (by apply execGsrAssert_goes <;> decide)
    rw [hl]
    exact if_neg (by simp [hs])
  · intro die bytes s l r bs u n last hl hs hr hbad hb hcrc hplace hn hlast hu
    subst hr hb hn hlast hu
    refine completes_eq (next_congr ?_) (by apply execFrameRecord_goes <;> decide)
    rw [hl]
    dsimp only
    rw [if_neg (by simp [hs]), hbad, if_neg Bool.false_ne_true, if_neg (by simp [hcrc]), if_neg (by simp [hplace])]
    simp only [decide_eq_true_eq]
  · intro die bytes s l r w hl hs hr hbad hw
    subst hr hw
    obtain ⟨t, runs, go⟩ := execFrameRecord_goes (F := [.arrays, .brims, .cfg, .dict, .frames, .free, .out, .prun, .works]) die bytes s
      (by decide) (by decide) (by decide) (by decide) (by decide) (by decide) (by decide) (by decide) (by decide)
    refine ⟨t, runs, go.1, fun hcrc => ?_, fun hcrc hplace => ?_⟩
    · refine Host.Outcome.next.inj (runs.symm.trans (next_congr ?_))
      rw [hl]
      dsimp only
      rw [if_neg (by simp [hs]), hbad, if_neg Bool.false_ne_true, if_pos hcrc]
    · refine Host.Outcome.next.inj (runs.symm.trans (next_congr ?_))
      rw [hl]
      dsimp only
      rw [if_neg (by simp [hs]), hbad, if_neg Bool.false_ne_true, if_neg (by simp [hcrc]), if_pos hplace]
  · intro die s l u hl hs hu
    subst hu
    refine completes_eq (next_congr ?_) (by apply execImageDigestCheck_goes <;> decide)
    rw [hl]
    exact if_neg (by simp [hs])
  · intro die s l u v w x m hl hs hm hu hv hw hx
    subst hm hu hv hw hx
    refine completes_eq (next_congr ?_) (by apply execGsrRelease_goes <;> decide)
    rw [hl]
    exact if_neg (by simp [hs])

/-! ### Pounce (R320, R321) -/

/-- What pounce does with frame `k` once it is read, by what it finds. -/
def State.pounceFound (u : State) (c k : Nat) (cond : WordCond) : State :=
  match cond with
  | .good => u
  | .correctable => u.modBrim c (fun b => { b with correct := some k })
  | .uncorrectable =>
    let v := ((u.bump (rLoad c 0x13) 1).setReg (rLoad c 0x14) (k / 2560 * 4096 + k % 2560)).raise 0x0401 (some c)
    if v.reg (key 0x2400 2) = 1 then v.holdRegion c (k / 2560) else v

/-- Settles O51. -/
theorem pounceCommandsComplete : Obligations.PounceCommandsComplete := by
  refine ⟨?_, ?_⟩
  · intro die cond s k u hc hk hu
    refine completes_of (c := .pounceFrameRead die cond) (t := u.pounceFound die.val k cond) (next_congr ?_)
      (by apply execPounceFrameRead_goes <;> decide) ?_
    · rw [if_neg (by simp [hc]), hk]
      subst hu
      dsimp only
      by_cases h : ((s.bump (rLoad die.val 0x10) 1).pounceAt die.val (k + 1)).isNone = true
      · simp only [h, if_true]
        rfl
      · simp only [h, if_false, Bool.false_eq_true]
        rfl
    · cases cond with
      | good => exact ⟨fun _ => rfl, nofun, nofun⟩
      | correctable => exact ⟨nofun, fun _ => rfl, nofun⟩
      | uncorrectable => exact ⟨nofun, nofun, fun _ => ⟨_, rfl, rfl⟩⟩
  · intro die s k hk
    refine completes_of (c := .pounceCorrect die) rfl (by apply execPounceCorrect_goes <;> decide) ⟨rfl, ?_⟩
    unfold State.pounceCorrect
    rw [hk]
    dsimp only
    rw [State.brim_modBrim_self]

end Sys2Proof.Machine
end

section
/-! PROOFS. The training of lanes. -/

namespace Sys2Proof.Machine

/-! ### Lane training (R327, R329, R331) -/

/-- Equalising a lane changes no lane group's use. -/
theorem laneUse_equalised (s : State) (g : GroupN) (l : LaneN) (n v : Nat) :
    ((s.reach n).setReg (rLaneState g.val l.val) v).draw.laneUse g.val = s.laneUse g.val := by
  have keys : rLane g.val 1 ≠ rLaneState g.val l.val := by
    unfold rLaneState rLane key
    have := l.isLt
    omega
  unfold State.laneUse
  rw [State.reg_draw, State.reg_setReg_other _ keys, State.reg_reach]

/-- The count of consistent TS2 in a row that a lane has reached. -/
def State.countTs2 (s : State) (g l n : Nat) : State :=
  s.modLg g (fun x => { x with lanes := sput (fun _ => ((0 : Nat), (0 : Nat))) x.lanes l ((s.laneSince g l).1, n) })

/-- Settles O52. -/
theorem laneTrainingCompletes : Obligations.LaneTrainingCompletes := by
  refine ⟨?_, ?_, ?_, ?_, ?_, ?_, ?_, ?_, ?_⟩
  · intro g l st s h
    exact laneTo_spec g l st s h
  · intro g l s hl hs
    exact completes_eq (next_congr (fromLane_of _ hl hs)) (by apply execClockLock_goes <;> decide)
  · intro g l inverted s k hl hs hk
    subst hk
    exact completes_eq (next_congr (fromLane_of _ hl hs)) (by apply execCommaAlign_goes <;> decide)
  · intro g l s hl hs
    exact completes_eq (next_congr (fromLane_of _ hl hs)) (by apply execAlignTimeout_goes <;> decide)
  · intro g l s k u v hl hs hk hu hv
    subst hk hu hv
    refine completes_of (c := .eqDone g l) (next_congr (fromLane_of _ hl hs)) (by apply execEqDone_goes <;> decide) ⟨_, rfl, ?_⟩
    dsimp only
    rw [laneUse_equalised]
  · intro g l s hl hs
    have kept := since_mod s g.val l.val ((s.laneSince g.val l.val).1, 0)
    exact completes_of (c := .ts1 g l) (next_congr (fromLane_of _ hl hs)) (by apply execTs1_goes; decide)
      ⟨kept.1, fun m hm => kept.2 m.val (fun e => hm (Fin.ext e))⟩
  · intro g l rlane rgroup role pair s hl hs hwrong
    refine completes_eq (next_congr ((fromLane_of _ hl hs).trans ?_)) (by apply execTs2_goes <;> decide)
    exact if_pos hwrong
  · intro g l rlane rgroup role pair s n hl hs hlane hgroup hright hn
    have right : ¬ (s.laneUse g.val = 1 ∧ (role.toNat = s.reg (rLink 1) ∨ pair.toNat ≠ s.reg (rLink 2))) := by
      rintro ⟨use, wrong⟩
      rcases hright with h | ⟨h, k⟩
      · exact h use
      · exact wrong.elim h (fun w => w k)
    have runs : execTs2 g l rlane rgroup role pair s = .next (if (s.laneSince g.val l.val).2 + 1 < 16 then
        s.countTs2 g.val l.val ((s.laneSince g.val l.val).2 + 1) else s.laneReady g.val l.val) := by
      refine next_congr ((fromLane_of _ hl hs).trans ?_)
      dsimp only
      rw [if_neg (by simp [hlane, hgroup]), if_neg right]
      rfl
    subst hn
    refine completes_of (c := .ts2 g l rlane rgroup role pair) runs (by apply execTs2_goes <;> decide) ⟨fun h => if_neg (by omega), fun h => ?_⟩
    rw [if_pos h]
    exact ⟨(since_mod s g.val l.val _).1, rfl⟩
  · intro g l errors s hl hs
    exact completes_eq (next_congr (fromLane_of _ hl hs)) (by apply execLaneErrorLoss_goes <;> decide)

/-! ### Mismatches (R330) -/

/-- The first mismatch of a group is noted and raises an event about it. -/
def State.noteMismatch (s : State) (g : Nat) : State := (s.modLg g (fun x => { x with mismatch := true })).raise 0x0501 (some g)

theorem noteMismatch_lg (s : State) (g : Nat) : (s.noteMismatch g).lg g = { s.lg g with mismatch := true } := by
  have lanes : (s.noteMismatch g).lanes = (s.modLg g (fun x => { x with mismatch := true })).lanes :=
    (Goes.raise (F := [.dict, .fns, .free, .mill, .out]) _ _ (by decide) (by decide) (by decide) (by decide) (by decide)
      (Goes.refl _ _)).1 .lanes (by decide)
  unfold State.lg at lanes ⊢
  rw [lanes]
  exact State.lg_modLg_self s g _

/-- The event of a mismatch. -/
theorem noteMismatch_raises (s : State) (g : GroupN) : (∃ e : Event, e.code = 0x0501 ∧ e.subject = g.val ∧ e.time = s.now ∧
    e.seq = (s.reg (key 0x1080 1) + 1) % 2 ^ 32 ∧ (s.noteMismatch g.val).reg (key 0x1080 1) = e.seq ∧
    (s.noteMismatch g.val).mill.events = (s.mill.events ++ [e]).drop ((s.mill.events ++ [e]).length - 24576)) ∧
    ∀ l : LaneN, (s.noteMismatch g.val).reg (rLaneState g.val l.val) = s.reg (rLaneState g.val l.val) := by
  obtain ⟨d, x, h⟩ := raise_mill_dict (s.modLg g.val (fun x => { x with mismatch := true })) 0x0501 (some g.val)
  have same : (s.modLg g.val (fun x => { x with mismatch := true })).mill = s.mill := rfl
  rw [State.reg_modLg, State.now_modLg, same, Option.getD_some, Nat.mod_eq_of_lt (show g.val < 2 ^ 16 by have := g.isLt; omega)] at h
  obtain ⟨e, he⟩ : ∃ e : Event, e = ⟨s.now, (s.reg (key 0x1080 1) + 1) % 2 ^ 32, 0x0501, g.val, d, x⟩ := ⟨_, rfl⟩
  obtain ⟨mill, dict⟩ := h e he
  refine ⟨⟨e, by rw [he], by rw [he], by rw [he], by rw [he], ?_, by rw [State.noteMismatch, mill]⟩, fun l => ?_⟩
  · refine (reg_of_dict dict _).trans ?_
    rw [State.reg_setReg_self, show regLen (key 0x1080 1) = 4 by decide, he]
    exact Nat.mod_mod _ _
  · exact (reg_of_dict dict _).trans (State.reg_setReg_other _ (laneKeys_ne g l).2.symm _)

/-- Settles O53. -/
theorem mismatchedTs2KeepsCheck : Obligations.MismatchedTs2KeepsCheck := by
  intro g l rlane rgroup role pair s hl hs huse hlane hgroup hwrong
  have group : (s.countTs2 g.val l.val 0).lg g.val = { s.lg g.val with lanes := sput (fun _ => ((0 : Nat), (0 : Nat))) (s.lg g.val).lanes l.val ((s.laneSince g.val l.val).1, 0) } :=
    State.lg_modLg_self _ _ _
  have runs : execTs2 g l rlane rgroup role pair s = .next (if (s.lg g.val).mismatch = true then s.countTs2 g.val l.val 0
      else (s.countTs2 g.val l.val 0).noteMismatch g.val) := by
    refine next_congr ((fromLane_of _ hl hs).trans ?_)
    dsimp only
    rw [if_neg (by simp [hlane, hgroup]), if_pos ⟨huse, hwrong⟩]
    change (if ((s.countTs2 g.val l.val 0).lg g.val).mismatch = true then _ else _) = _
    rw [group]
    rfl
  refine completes_of (c := .ts2 g l rlane rgroup role pair) runs (by apply execTs2_goes <;> decide) ?_
  have counted := (since_mod s g.val l.val ((s.laneSince g.val l.val).1, 0)).1
  by_cases noted : (s.lg g.val).mismatch = true
  · rw [if_pos noted]
    refine ⟨hs, counted, ?_, fun _ => ⟨rfl, rfl, rfl⟩, fun h => absurd (noted.symm.trans h) (by decide)⟩
    rw [group]
    exact noted
  · rw [if_neg noted]
    obtain ⟨event, state⟩ := noteMismatch_raises (s.countTs2 g.val l.val 0) g
    refine ⟨?_, ?_, ?_, fun h => absurd h noted, fun _ => event⟩
    · unfold State.laneState
      rw [state l]
      exact hs
    · unfold State.laneSince at counted ⊢
      rw [noteMismatch_lg]
      exact counted
    · rw [noteMismatch_lg]

end Sys2Proof.Machine
end

section
/-! PROOFS. Lane groups and the frames of the pair link. -/

namespace Sys2Proof.Machine

/-! ### Lane groups (R326, R331, R335, R336, R339) -/

theorem groupUp_modLg (s : State) (n : Nat) (f : LaneGroup → LaneGroup) (m : Nat) : (s.modLg n f).groupUp m = s.groupUp m := rfl

/-- Settles O54. -/
theorem groupEventsComplete : Obligations.GroupEventsComplete := by
  refine ⟨?_, ?_, ?_, ?_, ?_, ?_⟩
  · intro g s a all u v ha huse hst hlive hall hready hu hv
    subst hall hu hv
    refine completes_eq (next_congr ?_) (by apply execGroupUp_goes <;> decide)
    rw [ha]
    refine if_neg ?_
    rintro (h | h | h | ⟨h, k⟩)
    · exact h huse
    · exact hst h
    · rw [hlive] at h
      cases h
    · rcases hready with r | r
      · rw [r] at h
        cases h
      · simp [r] at k
  · intro g s huse hst
    exact completes_eq (next_congr (if_pos ⟨huse, hst⟩)) (by apply execGroupDown_goes <;> decide)
  · intro g s hup hleft
    refine completes_eq (next_congr ?_) (by apply execRestripe_goes <;> decide)
    exact if_neg (by simp [hup, hleft])
  · intro g s u hup hu
    subst hu
    refine completes_eq (next_congr ?_) (by apply execSkipWord_goes <;> decide)
    exact if_pos hup
  · intro g s hup
    refine completes_of (c := .skipWord g) (next_congr (if_neg ?_)) (by apply execSkipWord_goes <;> decide) (State.lg_modLg_self _ _ _)
    rw [groupUp_modLg, hup]
    exact Bool.false_ne_true
  · intro g s huse
    refine completes_of (c := .resync g) (next_congr (if_pos huse)) (by apply execResync_goes <;> decide) ⟨rfl, ?_⟩
    unfold State.resync
    rw [State.lg_modLg_self]
    exact ⟨rfl, rfl⟩

/-! ### Frames (R195, R265, R332, R336) -/

section
variable {s : State} {g : GroupN} {head : BitVec 256}

/-- An intact frame in order is taken. -/
theorem frame_taken (hh : headOk head = true) (hk : bits head.toNat 35 34 = 0) (hq : bits head.toNat 15 0 = (s.lg g.val).rxSeq % 65536) :
    (!(true && headOk head) || bits head.toNat 35 34 != 0 || bits head.toNat 15 0 != (s.lg g.val).rxSeq % 65536) = false := by
  simp [hh, hk, hq]

/-- Any other is refused. -/
theorem frame_refused {crcOk : Bool} (h : crcOk = false ∨ headOk head = false ∨ bits head.toNat 35 34 ≠ 0 ∨
    bits head.toNat 15 0 ≠ (s.lg g.val).rxSeq % 65536) :
    (!(crcOk && headOk head) || bits head.toNat 35 34 != 0 || bits head.toNat 15 0 != (s.lg g.val).rxSeq % 65536) = true := by
  rcases h with h | h | h | h <;> simp [h]
end

theorem regLen_frameErrors (g : GroupN) : regLen (rLane g.val 0x14) = 8 := by revert g; decide

/-- Settles O55. -/
theorem frameEventsComplete : Obligations.FrameEventsComplete := by
  refine ⟨?_, ?_, ?_, ?_, ?_, ?_, ?_, ?_⟩
  · intro g head packet data gcmOk s u v w hup hh hk hq hu hv hw
    subst hu hv hw
    refine completes_eq (next_congr ?_) (by apply execTransferFrame_goes <;> decide)
    exact (if_neg (by simp [hup])).trans (if_neg (by rw [frame_taken hh hk hq]; decide))
  · intro g head packet data crcOk gcmOk s u hup hbad hu
    subst hu
    have runs : execTransferFrame g head packet data crcOk gcmOk s = .next (if (s.lg g.val).nak = true then s.bump (rLane g.val 0x14) 1 else
        ((s.bump (rLane g.val 0x14) 1).modLg g.val (fun x => { x with nak := true })).sendControl g.val true false) := by
      refine next_congr ?_
      rw [if_neg (by simp [hup]), if_pos (frame_refused hbad)]
      rfl
    exact completes_of (c := .transferFrame g head packet data crcOk gcmOk) runs (by apply execTransferFrame_goes <;> decide)
      ⟨fun h => if_pos h, fun h => if_neg (by simp [h])⟩
  · intro g head lanes s u v hup hh hr hu hv
    subst hu hv
    refine completes_eq (next_congr ?_) (by apply execControlFrame_goes <;> decide)
    exact (if_neg (by simp [hup])).trans ((if_neg (by simp [hh])).trans (if_neg (by simp [hr])))
  · intro g head lanes s hup hh hr
    refine completes_eq (next_congr ?_) (by apply execControlFrame_goes <;> decide)
    rw [if_neg (by simp [hup]), if_neg (by simp [hh]), if_pos hr]
  · intro g s a ha
    refine completes_of (c := .ackDue g) (next_congr ?_) (by apply execAckDue_goes <;> decide) ⟨rfl, ?_⟩
    · rw [ha]
    · unfold State.sendControl
      rw [State.lg_modLg_self]
  · intro g head s hup hh
    refine completes_eq (next_congr ?_) (by apply execNak_goes <;> decide)
    rw [if_neg (by simp [hup]), if_neg (by simp [hh])]
  · intro g head s hup hh
    refine completes_of (c := .nak g head) (next_congr ?_) (by apply execNak_goes <;> decide)
      ⟨onlyRegs_setReg s (rLane g.val 0x14) (s.reg (rLane g.val 0x14) + 1), ?_⟩
    · rw [if_neg (by simp [hup]), if_pos (by simp [hh])]
      rfl
    · rw [State.reg_setReg_self, regLen_frameErrors]
  · intro g s u hup hun hu
    subst hu
    refine completes_eq (next_congr ?_) (by apply execAckTimeout_goes <;> decide)
    rw [if_neg (by simp [hup, hun]), State.linkReplay, State.lg_reach, State.reg_reach, if_neg hun]

end Sys2Proof.Machine
end

section
/-! PROOFS. Clocks, rails and domains. -/

namespace Sys2Proof.Machine

/-! ### Clocks, rails and domains (R359, R366, R376, R423) -/

theorem regLen_readings : ∀ d : DieC, regLen (rDiePow d.val 2) = 2 ∧ regLen (rDiePow d.val 3) = 2 ∧ regLen (rDiePow d.val 4) = 2 := by decide

theorem regLen_domains : ∀ d : DieN, regLen (rDiePow d.val 5) = 1 := by decide

theorem rDiePow_ne (d : Nat) {a b : Nat} (h : a ≠ b) : rDiePow d a ≠ rDiePow d b := by
  unfold rDiePow key
  omega

/-- What a reading shows of a die. -/
def State.showReading (s : State) (n mv da : Nat) : State := (s.setReg (rDiePow n 2) mv).setReg (rDiePow n 3) da

theorem showReading_regs (s : State) (d : DieC) (mv da : BitVec 16) :
    OnlyRegs [rDiePow d.val 2, rDiePow d.val 3] s (s.showReading d.val mv.toNat da.toNat) ∧
      (s.showReading d.val mv.toNat da.toNat).reg (rDiePow d.val 2) = mv.toNat ∧
      (s.showReading d.val mv.toNat da.toNat).reg (rDiePow d.val 3) = da.toNat := by
  obtain ⟨len2, len3, -⟩ := regLen_readings d
  refine ⟨onlyRegs_step _ _ (by simp) (onlyRegs_step _ _ (by simp) (onlyRegs_refl _ _)), ?_, ?_⟩
  · unfold State.showReading
    rw [State.reg_setReg_other _ (rDiePow_ne _ (by decide)), State.reg_setReg_self, len2]
    exact Nat.mod_eq_of_lt mv.isLt
  · unfold State.showReading
    rw [State.reg_setReg_self, len3]
    exact Nat.mod_eq_of_lt da.isLt

/-- A current interval, in the order in which it is carried out. -/
theorem currentLimitTick_runs {s : State} (die : DieC) (demand : BitVec 16) (energy : W32) (advanced : List (CmdRef × W32)) {u v w : State}
    {f : Nat × Nat} {due : Nat}
    (hu : u = s.modDp die.val (fun x => { x with demand := (demand.toNat :: x.demand).take 640, energy := x.energy + energy.toNat }))
    (hf : f = u.bubbleFraction die.val) (hdue : due = (u.dp die.val).deficit + f.1 * (u.dp die.val).mhz * 2 ^ 32 / (10 * f.2))
    (hv : v = ((u.modDp die.val (fun y => { y with
      deficit := due % 2 ^ 32, bubbles := y.bubbles + due / 2 ^ 32, cycles := y.cycles + y.mhz })).bump
        (rDiePow die.val 7) (due / 2 ^ 32)).bubbleStalls die.val (due / 2 ^ 32))
    (hw : w = (v.divideEnergy die.val energy.toNat advanced).spend (v.dieOwner die.val) energy.toNat) :
    execCurrentLimitTick die demand energy advanced s =
      .next ((w.setReg (rDiePow die.val 0xA) ((u.dp die.val).energy / 1000)).spendPackage energy.toNat) := by
  unfold execCurrentLimitTick
  dsimp only
  rw [hw, hv, hdue, hf, hu]

/-- A die's reading is shown, and a crown die below 0.50 V leaves service. -/
theorem regulatorRead_die {s : State} {die : DieN} (mv da : BitVec 16) (energy : W32) (served : List (PartN × W32)) (hn : die.val < 48) :
    execRegulatorRead die mv da energy served s = .next
      (if mv.toNat < 500 ∧ (s.showReading die.val mv.toNat da.toNat).live die.val = true ∧ (s.showReading die.val mv.toNat da.toNat).rst.step = 0
        then ((s.showReading die.val mv.toNat da.toNat).bump (rDiePow die.val 9) 1).leaves die.val
        else s.showReading die.val mv.toNat da.toNat) := by
  unfold execRegulatorRead State.showReading
  dsimp only
  rw [if_pos hn]

/-- A port die's reading divides its energy among the partitions it served. -/
theorem regulatorRead_port {s : State} {die : DieN} (mv da : BitVec 16) (energy : W32) {served : List (PartN × W32)} (hn : ¬ die.val < 48)
    (hs : sumL (served.map (fun e => e.2.toNat)) ≠ 0) : execRegulatorRead die mv da energy served s = .next
      (served.foldl (fun s e => s.spend (some (e.1.val + 1)) (energy.toNat * e.2.toNat / sumL (served.map (fun e => e.2.toNat))))
        (((s.modDp die.val (fun x => { x with energy := x.energy + energy.toNat })).setReg (rDiePow die.val 0xA)
          (((s.modDp die.val (fun x => { x with energy := x.energy + energy.toNat })).dp die.val).energy / 1000)).spendPackage energy.toNat)) := by
  unfold execRegulatorRead
  dsimp only
  rw [if_neg hn, if_neg hs]

section
variable {s : State} {p : PartN} (run : ¬ (s.reg (rState (p.val + 1)) = 0 ∨ s.rst.step ≠ 0 ∨ (s.liveDies (p.val + 1)).any s.inFloor = true))
include run

/-- A clock at its goal stays. -/
theorem mclkStep_stays (h : s.reg (rPow (p.val + 1) 5) = (s.pp (p.val + 1)).goal) : execMclkStep p s = .next s := by
  unfold execMclkStep
  dsimp only
  rw [if_neg run, if_neg (by omega), if_neg (by omega)]

/-- A clock below its goal rises once its rails are raised. -/
theorem mclkStep_rises (h : s.reg (rPow (p.val + 1) 5) < (s.pp (p.val + 1)).goal) : execMclkStep p s = .next
    (if s.raised (p.val + 1) (s.reg (rPow (p.val + 1) 5) + 25) then
      if s.reg (rPow (p.val + 1) 5) + 25 < (s.pp (p.val + 1)).goal then
        (s.clockAt (p.val + 1) (s.reg (rPow (p.val + 1) 5) + 25)).raiseRails (p.val + 1) (s.reg (rPow (p.val + 1) 5) + 50)
      else s.clockAt (p.val + 1) (s.reg (rPow (p.val + 1) 5) + 25)
    else s) := by
  unfold execMclkStep
  dsimp only
  rw [if_neg run, if_pos h]

/-- A clock above its goal falls, and its rails follow. -/
theorem mclkStep_falls (h : (s.pp (p.val + 1)).goal < s.reg (rPow (p.val + 1) 5)) : ∃ u, u = s.clockAt (p.val + 1) (s.reg (rPow (p.val + 1) 5) - 25) ∧
    execMclkStep p s = .next (((u.liveDies (p.val + 1)).foldl (fun t c =>
      if t.guardMv c = 0 then t.modDp c (fun x => { x with target := max (t.lowestMv c) (min x.target (t.tableMv c (s.reg (rPow (p.val + 1) 5) - 25))) })
      else t) u).avsFrom u (u.liveDies (p.val + 1))) := by
  refine ⟨_, rfl, ?_⟩
  unfold execMclkStep
  dsimp only
  rw [if_neg run, if_neg (by omega), if_pos h]
end

/-- Settles O56. -/
theorem clockAndRailEventsComplete : Obligations.ClockAndRailEventsComplete := by
  refine ⟨?_, ?_, ?_, ?_, ?_, ?_, ?_, ?_⟩
  · intro die demand energy advanced s c u f due v hc hu hf hdue hv
    subst hc
    exact completes_of (c := .currentLimitTick die demand energy advanced) (currentLimitTick_runs die demand energy advanced hu hf hdue hv rfl)
      (by apply execCurrentLimitTick_goes <;> decide) ⟨_, rfl, rfl⟩
  · intro die mv da energy served s hlt hmv
    exact completes_at (c := .regulatorRead die mv da energy served)
      ((regulatorRead_die mv da energy served hlt).trans (next_congr (if_neg (by omega))))
      (Goes.setReg _ _ (by decide) (Goes.setReg _ _ (by decide) (Goes.refl _ s))) (showReading_regs s ⟨die.val, hlt⟩ mv da)
  · intro die mv da energy served s hlt hmv hlive hst
    exact completes_eq (c := .regulatorRead die mv da energy served)
      ((regulatorRead_die mv da energy served hlt).trans (next_congr (if_pos ⟨hmv, hlive, hst⟩)))
      (by apply execRegulatorRead_goes <;> decide)
  · intro die mv da energy served s u tot hge htot hpos hu
    subst htot hu
    exact completes_at (c := .regulatorRead die mv da energy served) (regulatorRead_port mv da energy (by omega) (by omega))
      (Goes.foldl _ (fun s e hs => Goes.spend _ _ (by decide) (by decide) hs) (Goes.spendPackage _ (by decide) (by decide)
        (Goes.setReg _ _ (by decide) (Goes.modDp _ _ (by decide) (Goes.refl _ s))))) rfl
  · intro die low high s c x hc hfl hlive hx
    subst hc hx
    refine completes_eq (next_congr ?_) (by apply execVoltageLoopTick_goes <;> decide)
    exact if_neg (by simp [hfl, hlive])
  · intro die s
    refine completes_of (c := .regulatorSettled die) rfl (by apply execRegulatorSettled_goes; decide) ⟨?_, fun d h => State.dp_modDp_other s h _⟩
    rw [State.dp_modDp_self]
  · intro p s q f goal hq hf hg hst hrst hfl
    subst hq hf hg
    have run : ¬ (s.reg (rState (p.val + 1)) = 0 ∨ s.rst.step ≠ 0 ∨ (s.liveDies (p.val + 1)).any s.inFloor = true) := by
      rintro (h | h | h)
      · exact hst h
      · exact h hrst
      · rw [hfl] at h
        cases h
    rcases Nat.lt_trichotomy (s.reg (rPow (p.val + 1) 5)) (s.pp (p.val + 1)).goal with h | h | h
    · refine completes_of (c := .mclkStep p) (mclkStep_rises run h) (by apply execMclkStep_goes <;> decide)
        ⟨fun e => by omega, fun _ hr => ?_, fun _ hr => ?_, fun e => by omega⟩
      · rw [hr, if_neg Bool.false_ne_true]
      · rw [if_pos hr]
    · exact completes_of (c := .mclkStep p) (mclkStep_stays run h) (by apply execMclkStep_goes <;> decide)
        ⟨fun _ => rfl, fun e => by omega, fun e => by omega, fun e => by omega⟩
    · obtain ⟨u, hu, falls⟩ := mclkStep_falls run h
      exact completes_of (c := .mclkStep p) falls (by apply execMclkStep_goes <;> decide)
        ⟨fun e => by omega, fun e => by omega, fun e => by omega, fun _ => ⟨u, hu, rfl⟩⟩
  · intro die domain s hin
    refine completes_of (c := .domainOn die domain) (t := ({ s with power := { s.power with switching := s.power.switching.erase (die.val, domain.val) } } : State).setReg
      (rDiePow die.val 5) (setBit (s.reg (rDiePow die.val 5)) domain.val true)) (next_congr ?_) (by apply execDomainOn_goes <;> decide)
      ⟨rfl, ?_, ?_⟩
    · exact if_pos (by simpa using hin)
    · exact fun k hk => State.reg_setReg_other _ (by simpa using hk) _
    · rw [State.reg_setReg_self, regLen_domains]

end Sys2Proof.Machine
end

section
/-! PROOFS. The power manager, alerts and temperatures. -/

namespace Sys2Proof.Machine

/-! ### The power manager (R367, R373) -/

section
variable {s : State} (theirs : List Demand) (theirOverhead : W32) (hm : s.managing = true) (hpos : 0 < 1000 * s.reg (rPkg 7))
include hm hpos

/-- An exchange divides the pair's budget over both packages. -/
theorem pairBudgetExchange_ok : execPairBudgetExchange true theirs theirOverhead s = .next { s with power := { s.power with
    pair := some (min (1000 * s.reg (rPkg 1)) (sumL ((allocate (1000 * s.reg (rPkg 7) - s.power.overhead - theirOverhead.toNat)
      (s.power.claims ++ theirs)).take s.power.claims.length) + s.power.overhead))
    pairFails := 0 } } := by
  unfold execPairBudgetExchange
  dsimp only
  rw [if_neg (by simp [hm]; omega), if_pos rfl]

/-- An exchange that fails counts, and from the second on leaves half of the pair's budget. -/
theorem pairBudgetExchange_fails : execPairBudgetExchange false theirs theirOverhead s = .next { s with power := { s.power with
    pair := if s.power.pairFails = 0 then s.power.pair else some (min (1000 * s.reg (rPkg 1)) (1000 * s.reg (rPkg 7) / 2))
    pairFails := s.power.pairFails + 1 } } := by
  unfold execPairBudgetExchange
  dsimp only
  rw [if_neg (by simp [hm]; omega), if_neg Bool.false_ne_true]
  by_cases h : s.power.pairFails = 0
  · rw [if_neg (by omega), if_pos h]
  · rw [if_pos (by omega), if_neg h]
end

/-- Settles O57. -/
theorem powerManagerEventsComplete : Obligations.PowerManagerEventsComplete := by
  refine ⟨?_, ?_, ?_, ?_⟩
  · intro overhead power s at_ ds n u v hm hat hds hn hu hv
    refine completes_eq (next_congr ?_) (by apply execBudgetPeriodEnd_goes <;> decide)
    rw [if_neg (by simp [hm])]
    subst hat hds hn hu hv
    rfl
  · intro theirs theirOverhead s pair hp hpos hm
    subst hp
    exact completes_of (c := .pairBudgetExchange true theirs theirOverhead) (pairBudgetExchange_ok theirs theirOverhead hm hpos)
      (by apply execPairBudgetExchange_goes; decide) rfl
  · intro theirs theirOverhead s pair hp hpos hm
    subst hp
    exact completes_of (c := .pairBudgetExchange false theirs theirOverhead) (pairBudgetExchange_fails theirs theirOverhead hm hpos)
      (by apply execPairBudgetExchange_goes; decide) rfl
  · intro c s
    exact completes_eq rfl (by apply execHeavyGuardEnd_goes <;> decide)

/-! ### Alerts and temperatures (R371, R375, R423) -/

/-- A list of alerts in effect. -/
def State.withAlerts (s : State) (l : List Rail) : State := { s with power := { s.power with alerts := l } }

/-- Whether the coolant is good, since when. -/
def State.withCool (s : State) (c : Option Nat) : State := { s with power := { s.power with cool := c } }

/-- A die whose core rail is in alert, among some dies. -/
theorem no_alert_on {l : List Rail} {dies : List Nat} (h : ∀ d ∈ dies, ∀ x : DieC, Rail.core x ∈ l → x.val ≠ d) :
    (dies.any (fun d => l.any (fun r => match r with
      | .core x => x.val == d
      | _ => false))) = false := by
  rw [List.any_eq_false]
  intro d hd
  rw [Bool.not_eq_true, List.any_eq_false]
  intro r hr
  cases r with
  | core x => simpa using h d hd x hr
  | port _ _ => simp
  | aux => simp

theorem regLen_sensor : ∀ d : DieN, d.val < 48 → regLen (rDiePow d.val 4) = 2 := by decide

/-- What a coolant reading says. -/
def coolantBad (v : Option (BitVec 16)) (lim : Nat) : Bool :=
  match v with
  | none => true
  | some x => x == 0x7FFF || aboveCoolant x lim

theorem coolantBad_iff {v : Option (BitVec 16)} {lim : Nat} :
    coolantBad v lim = true ↔ v = none ∨ ∃ x, v = some x ∧ (x = 0x7FFF ∨ aboveCoolant x lim = true) := by
  cases v with
  | none => simp [coolantBad]
  | some x => simp [coolantBad]

theorem coolantBad_good {x : BitVec 16} {lim : Nat} (hx : x ≠ 0x7FFF) (h : aboveCoolant x lim = false) : coolantBad (some x) lim = false := by
  have : (x == 0x7FFF) = false := beq_eq_false_iff_ne.2 hx
  simp only [coolantBad, this, h, Bool.or_self]

/-- A clearing core rail lets the dies of its partition leave the floor state. -/
theorem alertClear_core {s : State} {c : DieC} (ht : (s.dp c.val).trip = none)
    (h : ∀ d ∈ (s.dieOwner c.val).elim [c.val] s.diesOf, ∀ x : DieC, Rail.core x ∈ s.power.alerts.filter (fun r => r != Rail.core c) → x.val ≠ d)
    {v : State} (hv : v = ((s.dieOwner c.val).elim [c.val] s.diesOf).foldl (fun s d => s.modDp d (fun x => { x with leaving := true }))
      (s.withAlerts (s.power.alerts.filter (fun r => r != Rail.core c)))) :
    execAlertClear (.core c) s = .next (if (v.dieOwner c.val).isNone then v.setReg (rDiePow c.val 6) 0 else v) := by
  unfold execAlertClear
  dsimp only
  rw [if_neg (by simp [ht])]
  refine next_congr ((if_neg (fun held => Bool.false_ne_true ((no_alert_on h).symm.trans held))).trans ?_)
  rw [hv]
  rfl

/-- What a live die's temperature leaves of it. -/
def State.sensed (s : State) (n : Nat) (temp : BitVec 16) : State :=
  (s.setReg (rDiePow n 4) temp.toNat).modDp n (fun x => { x with
    hot := decide (16 * (s.reg (rPkg 5) : Int) < temp.toInt), warm := decide (16 * (s.reg (rPkg 5) : Int) < temp.toInt + 32) })

section
variable {s : State} {n : DieN} {temp : BitVec 16} (hn : n.val < 48) (hl : s.live n.val = true)
include hn hl

theorem sensorRead_cool (ht : temp.toInt < 16 * 115) :
    execSensorRead n temp s = .next ((s.sensed n.val temp).modDp n.val (fun x => { x with trip := none })) := by
  unfold execSensorRead
  dsimp only
  rw [State.live_setReg, if_neg (by simp [hl]; omega), if_pos ht]
  rfl

theorem sensorRead_trips (ht : 16 * 115 ≤ temp.toInt) (htrip : (s.dp n.val).trip = none) {v : State}
    (hv : v = ((s.sensed n.val temp).modDp n.val (fun x => { x with trip := some s.now })).bump (rDiePow n.val 9) 1) :
    execSensorRead n temp s = .next (((if v.power.alerts.contains (.core (Fin.ofNat 48 n.val)) then v
      else v.withAlerts (v.power.alerts ++ [.core (Fin.ofNat 48 n.val)])).raise 0x0602 (some n.val)).floorDie n.val) := by
  unfold execSensorRead
  dsimp only
  rw [State.live_setReg, if_neg (by simp [hl]; omega), if_neg (by omega), if_neg (by rw [State.dp_modDp_self, State.dp_setReg, htrip]; decide), hv]
  rfl
end

/-- A coolant reading, by whether it is good. -/
theorem coolantRead_runs {s u : State} {inlet outlet : Option (BitVec 16)} (hu : u = (s.setReg (rPkg 0x10)
      (inlet.elim 0x7FFF BitVec.toNat)).setReg (rPkg 0x11) (outlet.elim 0x7FFF BitVec.toNat)) :
    execCoolantRead inlet outlet s = .next (if coolantBad inlet (u.reg (rPkg 9)) || coolantBad outlet (u.reg (rPkg 0xA)) then
      (if (u.withCool none).reg (rPkg 0x12) = 1 then u.withCool none else ((u.withCool none).setReg (rPkg 0x12) 1).raise 0x0603 none)
      else u.withCool (some (s.power.cool.getD s.now))) := by
  subst hu
  rfl

/-- Settles O58. -/
theorem alertAndThermalEventsComplete : Obligations.AlertAndThermalEventsComplete := by
  refine ⟨?_, ?_, ?_, ?_, ?_, ?_, ?_, ?_, ?_, ?_⟩
  · intro s rail u hr hu
    subst hu
    refine completes_eq (next_congr ?_) (by apply execVrAlert_goes <;> decide)
    rw [if_neg (by simpa using hr)]
    cases rail <;> rfl
  · intro s c u dies ht hu hd hno
    subst hu hd
    exact completes_of (c := .alertClear (.core c)) (alertClear_core ht hno rfl)
      (execAlertClear_goes (.core c) s (by decide) (by decide)) ⟨_, rfl, rfl⟩
  · intro s rail hr
    have runs : execAlertClear rail s = .next (s.withAlerts (s.power.alerts.filter (fun r => r != rail))) := by
      cases rail with
      | core c => exact absurd rfl (hr c)
      | port _ _ => rfl
      | aux => rfl
    exact completes_of (c := .alertClear rail) runs (by apply execAlertClear_goes <;> decide) ⟨rfl, onlyRegs_refl _ _⟩
  · intro die temp s h
    refine completes_at (c := .sensorRead die temp) (next_congr ?_) (Goes.setReg _ _ (by decide) (Goes.refl _ s)) rfl
    exact if_pos h
  · intro die temp s hlt hlive htemp
    refine completes_of (c := .sensorRead die temp) (sensorRead_cool hlt hlive htemp) (by apply execSensorRead_goes <;> decide) ⟨?_, ?_, ?_⟩
    · exact onlyRegs_setReg s (rDiePow die.val 4) temp.toNat
    · refine (State.reg_setReg_self s (rDiePow die.val 4) temp.toNat).trans ?_
      rw [regLen_sensor die hlt]
      exact Nat.mod_eq_of_lt temp.isLt
    · rw [State.dp_modDp_self, State.sensed, State.dp_modDp_self, State.dp_setReg]
  · intro die d temp s u v hd hlive htemp htrip hu hv
    subst hu
    have same : Fin.ofNat 48 d.val = die := by
      rw [hd]
      exact Fin.ext (Nat.mod_eq_of_lt die.isLt)
    have trips := sensorRead_trips (by rw [hd]; exact die.isLt) (by rw [hd]; exact hlive) htemp (by rw [hd]; exact htrip) rfl
    rw [same, hd] at trips
    rw [hv]
    exact completes_of (c := .sensorRead d temp) trips (by apply execSensorRead_goes <;> decide) rfl
  · intro p s q v hq hst hhot hv
    subst hq hv
    refine completes_eq (next_congr ?_) (by apply execThrottleStep_goes <;> decide)
    rw [if_neg (by simp [hst, hhot])]
  · intro x y s u hu hx hy hin hout
    refine completes_eq (c := .coolantRead (some x) (some y)) ?_
      (execCoolantRead_goes (some x) (some y) s (by decide) (by decide) (by decide) (by decide) (by decide) (by decide))
    show execCoolantRead (some x) (some y) s = _
    rw [coolantRead_runs (inlet := some x) (outlet := some y) hu, coolantBad_good hx hin, coolantBad_good hy hout, if_neg (by decide)]
    rfl
  · intro inlet outlet s u v hu hv hbad
    refine completes_eq (c := .coolantRead inlet outlet) ((coolantRead_runs hu).trans ?_) (by apply execCoolantRead_goes <;> decide)
    rw [if_pos (by rw [Bool.or_eq_true, coolantBad_iff, coolantBad_iff, or_assoc]; exact hbad), hv]
    rfl
  · intro s a ha hf
    refine completes_of (c := .fallbackRelease) (next_congr ?_) (by apply execFallbackRelease_goes <;> decide) ⟨rfl, ?_⟩
    · rw [ha]
      exact if_pos hf
    · rw [State.reg_setReg_self, Nat.zero_mod]

end Sys2Proof.Machine
end
